-- ==== Sys2Proof/Word.lean ====
section
/-! DEFINITION. The word types of the Valoc: bytes, 32-bit grid cells, 64-bit scalar words, and their plainest arithmetic. -/

namespace Sys2Proof

/-- A byte of storage (R117). -/
abbrev Byte := BitVec 8

/-- One grid cell, one lane (R46). -/
abbrev Cell := BitVec 32

/-- A scalar register, an address, a control-window register (R51, R67). -/
abbrev Word := BitVec 64

/-- An accumulator entry, A80 or INT80 (R73, R101). -/
abbrev AccWord := BitVec 80

/-- An operand handle, a map entry, a block descriptor (R52, R68, R185). -/
abbrev Image := BitVec 128

end Sys2Proof
end

