-- ==== Sys2Proof/Config.lean ====
section
/-! DEFINITION. The free values: what the spec leaves open for an implementation, as constants without a body, each
applied to the model's counter of free values or to the operands it depends on. Nothing can be proved of a value here. -/

namespace Sys2Proof.Config

/-- Which of the two legal versions a read through the operand cache returns (R85): log 9. -/
opaque cacheFresh : Nat → Bool
/-- The encoding of an array's internals in a context image (R406): log 13. -/
opaque imageByte : Nat → Nat → Byte
/-- The contents of a scalar result that the spec leaves without a value. -/
opaque freeWord : Nat → Word
/-- A lane that the spec leaves without a value. -/
opaque freeCell : Nat → Nat → Cell
/-- A byte of a weight die behind the layout that the spec leaves to the fleet (R413): log 12. -/
opaque weightByte : Nat → Nat → Byte
/-- A byte of the attestation report whose content the spec leaves to the root of trust (R449): log 14. -/
opaque reportByte : Nat → Nat → Byte
/-- Whether a signature that the spec does not spell out verifies (R434, R446, R447): log 14. -/
opaque signatureGood : Nat → Bool
/-- A duration that the spec gives no figure for (log 7), in tile cycles. -/
opaque delay : Nat → Nat

end Sys2Proof.Config
end

