-- ==== Sys2Proof/Syntax.lean ====
section
/-! DEFINITION. The instruction set of the Valoc as syntax: one constructor for every row of the opcode table,
the tile core's instructions first, then the loader and storer's, then the steps that have no encoding. -/

namespace Sys2Proof

/-- Scalar register s0-s31 (R6). -/
abbrev SReg := Fin 32
/-- Predicate p0-p15 (R6). -/
abbrev PReg := Fin 16
/-- Operand handle m0-m15 (R6). -/
abbrev HReg := Fin 16
/-- The 4-bit N field when it names a ring: b0-b7, and 8-15 which raise BUFFER_INDEX (R62, R191). -/
abbrev RingNo := Fin 16
/-- Map entry n0-n15 (R6). -/
abbrev MapNo := Fin 16
/-- Result queue q0-q7 (R6). -/
abbrev QReg := Fin 8
/-- Copy channel ch0-ch3 (R6). -/
abbrev ChNo := Fin 4
/-- Semaphore sem0-sem63 (R6). -/
abbrev SemNo := Fin 64
/-- Circuit end c0-c63 (R6). -/
abbrev EndNo := Fin 64
/-- The 5-bit storage mask of R115: HM, PM, DM, SL, SP from bit 4 down. -/
abbrev StMask := Fin 32
/-- A register x0-x31 of a loader or storer core (R271). -/
abbrev XReg := Fin 32

abbrev DieNo := Fin 4
/-- Package cluster number 12·die + c (R412). -/
abbrev ClusterNo := Fin 48
/-- Physical tile of a cluster, 16 being the spare (R362). -/
abbrev TileNo := Fin 17
abbrev PartNo := Fin 20
/-- Host function 0-193 (R443). -/
abbrev FnNo := Fin 194
/-- Command queue of a function (R352). -/
abbrev QueueNo := Fin 16
/-- Die-to-die link 0-7 (R414). -/
abbrev LinkNo := Fin 8
/-- Sixatas port 0-23 (R421). -/
abbrev PortNo := Fin 24

/-- The direction of a grid operand (R46, R184). -/
inductive Dir where
  | h | v | d | a
  deriving DecidableEq, Repr, Inhabited

/-- A grid operand: a direction and the full index 0-63 (R46, R180, R184). -/
structure GridOp where
  dir : Dir
  idx : Fin 64
  deriving DecidableEq, Repr, Inhabited

/-- Agent scope, codes 0-5 (R116). -/
inductive Scope where
  | tile | cluster | die | package | domain | system
  deriving DecidableEq, Repr, Inhabited

/-- Atomic ordering (R195): 0 none, 1 .rel, 2 .acq, 3 .ar. -/
inductive Ord4 where
  | rlx | rel | acq | ar
  deriving DecidableEq, Repr, Inhabited

/-- Integer condition codes 0-5 of CMP and CMPI (R220) and VCMP (R233). -/
inductive IntCC where
  | eq | ne | lt | ge | ltu | geu
  deriving DecidableEq, Repr, Inhabited

/-- Floating condition codes 0-5 of FCMP (R233). -/
inductive FpCC where
  | eq | ne | lt | le | uo | ord
  deriving DecidableEq, Repr, Inhabited

/-- Access size code W of R195: 1, 2, 4 or 8 bytes. -/
inductive Size where
  | b | h | w | d
  deriving DecidableEq, Repr, Inhabited

/-- The operation of VRED.op, codes 0-5 (R243). -/
inductive RedOp where
  | fadd | fmax | fmin | add | max | min
  deriving DecidableEq, Repr, Inhabited

/-- The MX element code f of SCSEL and QNT: 0 E4M3, 1 E5M2, 2 E2M1, 3 INT8 (chapter Vector instructions). -/
inductive MxFmt where
  | e4m3 | e5m2 | e2m1 | int8
  deriving DecidableEq, Repr, Inhabited

/-- The drain formats of MDRAIN, tags 1-4 (R280). -/
inductive DrainFmt where
  | fp32 | int32 | bf16x2 | fp16x2
  deriving DecidableEq, Repr, Inhabited

/-- An agent of a tile with a mailbox or a program: R274 codes 0, 1, 2. -/
inductive Agent where
  | core | loader | storer
  deriving DecidableEq, Repr, Inhabited

/-- A loader or storer core (R271). -/
inductive LsAgent where
  | loader | storer
  deriving DecidableEq, Repr, Inhabited

/-- What a host transaction does at its home (R137, R424): a posted write, or a PCIe AtomicOp on 4 or 8 bytes; or, in the same
order, a write of the host's own memory at a host bus address. -/
inductive PcieOp where
  | write (bytes : List Byte)
  | hostMem (a : Word) (bytes : List Byte)
  | fetchAdd (wide : Bool) (v : Word)
  | swap (wide : Bool) (v : Word)
  | cas (wide : Bool) (cmp v : Word)
  deriving DecidableEq, Repr, Inhabited

/-- The atomics that a peer sends beside AADD, AXCH and ACAS (R265, R422). -/
inductive PeerAtom where
  | and | or | min | max | minu | maxu | decp
  deriving DecidableEq, Repr, Inhabited

/-- What another device of the domain asks of this device (R142, R418, R422): accesses to its memory; a counted put, its data at the
address and its count at a semaphore; a partial sum of its members of a group, for a chunk, with their collective word, SIZE and ranks;
the sum that the joining device returns; that the collective is aborted, for a cause with a code of R392. -/
inductive PeerOp where
  | fill (len : Nat)
  | put (bytes : List Byte) (c : ClusterNo) (k : SemNo) (cnt : Nat)
  | atomic (op : PeerAtom) (wide : Bool) (v : Word)
  | join (gid : Fin 65536) (chunk : Fin 16) (dev : Fin 512) (word : BitVec 64) (size : Nat) (ranks : List Nat) (sum : List Byte)
  | sum (gid : Fin 65536) (chunk : Fin 16) (dev : Fin 512) (sum : List Byte)
  | abort (gid : Fin 65536) (dev : Fin 512) (code : Fin 64)
  | writeBack (bytes : List Byte)
  | atomicAdd (wide : Bool) (v : Word)
  | atomicSwap (wide : Bool) (v : Word)
  | atomicCas (wide : Bool) (cmp v : Word)
  deriving DecidableEq, Repr, Inhabited

/-- The registers outside the tiles whose write stores their writable fields (the row REGISTER_WRITE). -/
inductive MReg where
  | ptroot (p : PartNo) | hmbase (p : PartNo)
  | migcfg (p : PartNo) | migbase (p : PartNo) | mighead (p : PartNo) | migstat (p : PartNo)
  | fdbase (p : PartNo) | ltcfg (p : PartNo) | ltord (p : PartNo) | pcfg (p : PartNo)
  | kctl (c : ClusterNo) | pwrcfg
  | nakcfg (d : DieNo) | wdjob (d : DieNo) (e : Fin 64) (w : Fin 2)
  | bindSlot (d : DieNo) (i : Fin 64) (w : Fin 4)
  | routerSlot (d : DieNo) (r : Fin 12) (o : Fin 6) (k : Fin 64)
  | ctxpool (d : DieNo) | ctxpoolsz (d : DieNo) | haltctl (d : DieNo)
  | d2dsel (l : LinkNo) | sxsel (p : PortNo) | sxroute (d : Fin 512)
  | fnmap (f : FnNo)
  | qbase (f : FnNo) (q : QueueNo) | qlog (f : FnNo) (q : QueueNo) | qctl (f : FnNo) (q : QueueNo)
  | qack (f : FnNo) (q : QueueNo) | qsnap (f : FnNo) (q : QueueNo) | qsnapsz (f : FnNo) (q : QueueNo)
  | attNonce (i : Fin 4) | attBuf
  deriving DecidableEq, Repr, Inhabited

/-- The instructions and steps of the Valoc, one constructor per row of the opcode table.
Signed immediates are Int and unsigned ones Nat, both as R181 completes them. -/
inductive Instr where
  -- control (R192)
  | brp (p : PReg) (imm : Int)
  | brnp (p : PReg) (imm : Int)
  | jmpWord (imm : Int)
  | jmpBlock (imm : Int)
  | jmpi (a : SReg) (imm : Int)
  | jmpiB (a : SReg)
  | callb (l : SReg) (imm : Int)
  | retb (a : SReg)
  | loopb (imm : Int)
  | lsetPass (a : SReg) (imm : Int)
  | lsetFeed (a : SReg) (imm : Int)
  | lsetRrb (imm : Nat)
  | lsetStg (imm : Nat)
  | wait (ld st cp tl : Fin 32)
  | semw (k : SemNo) (cnt : Fin 256) (a : SReg)
  | sems (k : SemNo) (cnt : Fin 256) (a : SReg)
  | semt (k : SemNo) (cnt : Fin 256) (d : SReg)
  | bara
  | barw
  | barr
  | phase (sc : Scope) (m : StMask)
  | fence (sc : Scope) (m : StMask)
  | spawn (d a b : SReg)
  | yield
  | retire
  | trap (imm : Nat)
  | pcommit
  | csrr (d : SReg) (csr : Fin 4096)
  | csrw (d a : SReg) (csr : Fin 4096)
  | tret
  | ctxs (d a b : SReg)
  | ctxl (d a b : SReg)
  -- scalar (R193)
  | add (d a b : SReg)
  | sub (d a b : SReg)
  | mul (d a b : SReg)
  | mulh (d a b : SReg)
  | mulhu (d a b : SReg)
  | and (d a b : SReg)
  | or (d a b : SReg)
  | xor (d a b : SReg)
  | shl (d a b : SReg)
  | shr (d a b : SReg)
  | sar (d a b : SReg)
  | min (d a b : SReg)
  | max (d a b : SReg)
  | minu (d a b : SReg)
  | maxu (d a b : SReg)
  | sel (d a b : SReg) (n : PReg)
  | clz (d a : SReg)
  | popc (d a : SReg)
  | lea (d a b : SReg) (k : Fin 8) (n : Fin 16)
  | cmp (cc : IntCC) (p : PReg) (a b : SReg)
  | addi (d a : SReg) (imm : Int)
  | andi (d a : SReg) (imm : Int)
  | ori (d a : SReg) (imm : Nat)
  | xori (d a : SReg) (imm : Nat)
  | shli (d a : SReg) (imm : Nat)
  | shri (d a : SReg) (imm : Nat)
  | sari (d a : SReg) (imm : Nat)
  | cmpi (cc : IntCC) (p : PReg) (a : SReg) (imm : Int)
  | li (d : SReg) (imm : Int)
  | pand (d a b : PReg)
  | por (d a b : PReg)
  | pnot (d a : PReg)
  | pmov (d a : PReg)
  -- vector (R194)
  | fadd (d a b : GridOp)
  | fsub (d a b : GridOp)
  | fmul (d a b : GridOp)
  | fma (d a b : GridOp)
  | fnma (d a b : GridOp)
  | fmax (d a b : GridOp)
  | fmin (d a b : GridOp)
  | fabs (d a : GridOp)
  | fneg (d a : GridOp)
  | fcmp (cc : FpCC) (p : PReg) (a b : GridOp) (all : Bool)
  | fsel (d a b : GridOp)
  | frcp (d a : GridOp)
  | frsq (d a : GridOp)
  | fexp2 (d a : GridOp)
  | vadd (d a b : GridOp)
  | vsub (d a b : GridOp)
  | vmul (d a b : GridOp)
  | vmulh (d a b : GridOp) (u : Bool)
  | vand (d a b : GridOp)
  | vor (d a b : GridOp)
  | vxor (d a b : GridOp)
  | vshl (d a : GridOp) (n : Fin 32)
  | vshr (d a : GridOp) (n : Fin 32)
  | vsar (d a : GridOp) (n : Fin 32)
  | vmin (d a b : GridOp) (u : Bool)
  | vmax (d a b : GridOp) (u : Bool)
  | vcmp (cc : IntCC) (p : PReg) (a b : GridOp) (all : Bool)
  | vsel (d a b : GridOp)
  | vabs (d a : GridOp)
  | vsat (d a : GridOp) (u : Bool) (wd : Fin 32)
  | cvt (d a : GridOp) (p : Fin 8) (t : Fin 16)
  | dqn (d a : GridOp) (p : Fin 8) (s : Fin 32)
  | bmax (d a : GridOp) (b : Bool)
  | scsel (d a : GridOp) (fuse : Bool) (e : Fin 16) (b : Bool) (f : MxFmt)
  | tag (d a : GridOp) (t : Fin 16)
  | vperm (d a b : GridOp)
  | vrot (d a : GridOp) (k : Fin 64)
  | vbcst (d : GridOp) (a : SReg) (t : Fin 16)
  | vmov (d a : GridOp)
  | vred (op : RedOp) (d a : GridOp)
  | qpop (d : GridOp) (q : QReg)
  | spk (d a : GridOp) (n : Fin 8)
  | spx (d a : GridOp) (n : Fin 8)
  -- memory (R195)
  | lds (sz : Size) (d a : SReg) (imm : Int)
  | sts (sz : Size) (d a : SReg) (imm : Int)
  | ldv (d : GridOp) (a : SReg) (imm : Int)
  | stv (d : GridOp) (a : SReg) (imm : Int)
  | ldtt (d : Fin 64) (a : SReg) (imm : Int)
  | stbp (d : GridOp) (a : SReg) (imm : Int)
  | ldbp (d : GridOp) (a : SReg) (imm : Int)
  | hset (n : HReg) (a : SReg)
  | hget (n : HReg) (a : SReg)
  | spfence
  | bufacq (n : RingNo) (d e : SReg)
  | bufpub (n : RingNo) (a : SReg) (k : Fin 16)
  | buftake (n : RingNo) (d e : SReg)
  | buffree (n : RingNo) (a : SReg) (k : Fin 16)
  | bufq (n : RingNo) (d : SReg)
  | mapw (n : MapNo) (a : SReg)
  | mapf (n : MapNo)
  | mapi (n : MapNo)
  | mapiDiscard (n : MapNo)
  | qst (q : QReg) (a : SReg)
  | qstHalf (q : QReg) (a : SReg)
  | aadd (d a : SReg) (o : Ord4) (sc : Scope) (m : StMask) (wide : Bool)
  | aand (d a : SReg) (o : Ord4) (sc : Scope) (m : StMask) (wide : Bool)
  | aor (d a : SReg) (o : Ord4) (sc : Scope) (m : StMask) (wide : Bool)
  | amin (d a : SReg) (o : Ord4) (sc : Scope) (m : StMask) (wide u : Bool)
  | amax (d a : SReg) (o : Ord4) (sc : Scope) (m : StMask) (wide u : Bool)
  | axch (d a : SReg) (o : Ord4) (sc : Scope) (m : StMask) (wide : Bool)
  | acas (d a : SReg) (o : Ord4) (sc : Scope) (m : StMask) (wide : Bool)
  | adecp (d a : SReg) (o : Ord4) (sc : Scope) (m : StMask) (wide : Bool)
  | waita (a b : SReg) (p : PReg) (wide : Bool)
  | wake1 (a d : SReg)
  | wakea (a d : SReg)
  -- matrix (R196)
  | mhold
  | mpush (a : HReg)
  | mpushS (a b : HReg)
  | mpushC (a : HReg)
  | mpushSC (a b : HReg)
  | mshift (b : HReg)
  | macc
  | maccR (e : Fin 2)
  | mdrain (r : Fin 64) (q : QReg) (f : DrainFmt) (z : Bool)
  | mzero
  | msetFloat (ga gb : Fin 4096)
  | msetInt (ga gb : Fin 4096)
  | msparse (b : HReg)
  | mremQueue (a : HReg) (r : Fin 64) (e : Fin 2) (q : QReg)
  | mremAcc (a : HReg) (r : Fin 64) (e : Fin 2)
  | mskew (q : QReg) (e : Fin 2)
  | qnt (d a : GridOp) (f : MxFmt) (b : Bool)
  -- engine (R197)
  | cpbase (c : ChNo) (d a b : SReg)
  | cpnest (c : ChNo) (l : Fin 8) (d a b : SReg)
  | cpfoot (c : ChNo) (k : Fin 8) (a b : SReg)
  | cpgo (c : ChNo)
  | cpdrain (c : ChNo)
  | cpstat (c : ChNo) (d : SReg)
  | qsend (q : QReg) (k : EndNo)
  | csend (k : EndNo) (a : SReg)
  | crecv (k : EndNo) (a : SReg)
  | crecvT (k : EndNo) (d a : SReg)
  | putc (k : SemNo) (d a b : SReg)
  | gred (k : SemNo) (d a b : SReg)
  | gjoin (d a : SReg)
  | gstat (d a : SReg)
  | gstatErr (d : SReg)
  | pred (p : PReg) (n : RingNo)
  | pstat (d : SReg)
  | ringQuery (p : PReg) (n : RingNo) (d : SReg)
  | spxStat (p : PReg) (n : HReg) (d : SReg)
  | probe (p : PReg) (d a : SReg)
  | leaseq (p : PReg) (d a : SReg)
  | mbxs (n : Fin 16) (a : SReg)
  | mbxr (d : SReg)
  | mbxrT (p : PReg) (d : SReg)
  -- loader and storer (R273)
  | vlRacq (rd rs1 : XReg)
  | vlRtake (rd rs1 : XReg)
  | vlRpub (rs1 rs2 : XReg)
  | vlRfree (rs1 rs2 : XReg)
  | vlRq (rd rs1 : XReg)
  | vlCpset (rs1 : XReg) (k : Fin 32) (ch : ChNo)
  | vlCpgo (rs1 : XReg)
  | vlCpdrain (rs1 : XReg)
  | vlMbxs (rs1 rs2 : XReg)
  | vlMbxr (rd : XReg)
  | vlMbxt (rd : XReg)
  -- steps of the tile and its engines
  | blockStart
  | semWaitServed (c : ClusterNo) (k : SemNo)
  | resultLand
  | drainEntryArrive (q : QReg)
  | remoteRowLand (e : Fin 2)
  | operationComplete
  | windowFillReturn
  | spontaneousWriteback (n : MapNo) (line : Fin 8192)
  | copyJobFire (c : ChNo)
  | copyJobComplete (c : ChNo)
  | copyDataErrorEvent (c : ChNo) (elem : Nat)
  | putcArrive
  | gredChunkLand (gid : Fin 65536) (chunk : Fin 16)
  | collectiveAbort (gid : Fin 65536) (unreachable : Bool)
  | circuitRowArrive
  | nakResend
  | escapeEntry
  | historyCopyComplete (b : Fin 8)
  | shadowWriteComplete
  | toleranceCompare
  | specCommit
  | specSquash
  | timingReplay
  | droop (c : ClusterNo)
  | loaderStorerInstruction (g : LsAgent)
  | loaderStorerFault (g : LsAgent)
  | watchdog
  -- steps of tasks and teams
  | poolTaskStart
  | tokenForward (team : Fin 65536)
  | waitSwap
  | preempt (team : Fin 65536)
  | swapTriggerSatisfied (team : Fin 65536)
  | bindTeam (d : DieNo) (slot : Fin 64)
  | bindReturn (d : DieNo) (slot : Fin 64)
  | courseRelease (p : PartNo)
  -- steps of queues, records and graphs
  | doorbell (f : FnNo) (q : QueueNo) (tail : Fin 131072)
  | recordStart (f : FnNo) (q : QueueNo)
  | recordComplete (rec : Nat)
  | nodeStart (rec : Nat) (node : Fin 4096)
  | nodeComplete (rec : Nat) (node : Fin 4096)
  | condEvaluate (rec : Nat) (node : Fin 4096)
  | loopEvaluate (rec : Nat) (node : Fin 4096)
  | queueTeardown (f : FnNo) (q : QueueNo)
  | queueAbort (f : FnNo) (q : QueueNo)
  | queueReset (f : FnNo) (q : QueueNo) (abort : Bool)
  | hifselSelect (f : FnNo) (v : Word)
  -- steps of translation and migration
  | tlbInvalidate (p : PartNo) (size : Fin 4) (vpn : BitVec 40)
  | tlbInvalidateAll (p : PartNo)
  | tlbInvalidationComplete (p : PartNo)
  | migack (p : PartNo) (size : Fin 4) (vpn : BitVec 40)
  -- steps of the debugger and the management window
  | haltRequest (d : DieNo) (team : Fin 65536)
  | resumeRequest (d : DieNo) (team : Fin 65536)
  | haltComplete (d : DieNo)
  | partitionApply (p : PartNo)
  -- steps of partitions
  | partitionRequest (p : PartNo) (clu : BitVec 48)
  | partitionDrainRequest (p : PartNo) (clu : BitVec 48)
  | apertureWrite (c : ClusterNo) (t : TileNo) (off : Fin 4194304) (v : Word)
  -- steps of Kiln
  | frequencyHop (c : ClusterNo) (freq : Fin 128)
  | hopAbort (c : ClusterNo)
  | hopRetry (c : ClusterNo)
  | canaryWarning (c : ClusterNo)
  | replayRateRaise (c : ClusterNo)
  | driftDecay (c : ClusterNo)
  | calibration (c : ClusterNo)
  | calibrationPreempt (c : ClusterNo)
  | kilnRecordUpdate (c : ClusterNo)
  | powerUpGrant
  | retentionEntry (c : ClusterNo)
  | retentionWake (c : ClusterNo) (lost : Bool)
  | quarantineRelease (c : ClusterNo)
  | routerPowerDown (c : ClusterNo)
  | routerWake (c : ClusterNo)
  | powerThrottle
  | powerRestore
  -- steps of links, spares and the fleet
  | linkDown (l : LinkNo)
  | laneRepair (l : LinkNo)
  | sixatasTraining (p : PortNo) (peer : BitVec 19) (peerSel : Word)
  | heartbeatTimeout (d : DieNo)
  | spareTileTakeover (c : ClusterNo) (t : TileNo)
  | telemetryClear (c : ClusterNo)
  | moduleReset
  | firmwareStage (svn : BitVec 16)
  | attestationRequest
  | attestationComplete
  | registerWrite (r : MReg) (v : Word)
  | hostPcieWrite (spa : BitVec 59) (op : PcieOp)
  | peerAccessArrive (spa : BitVec 59) (op : PeerOp)
  | tlbEntryDrop (c : ClusterNo) (t : TileNo) (level : Fin 3) (i : Nat)
  | correctedSoftError (c : ClusterNo)
  | modulePowerLoss
  deriving DecidableEq, Repr, Inhabited

end Sys2Proof
end

