-- ==== Sys2Proof/Machine/Num.lean ====
section
/-! DEFINITION. Number formats and arithmetic to the last bit (R91-R112): exact dyadic values, the encodings of every
format, and the roundings between them. -/

namespace Sys2Proof.Machine

/-- An exact value: a NaN, an infinity, or (-1)^neg · m · 2^e, the sign kept for zero (R94, R108). -/
inductive Num where
  | nan
  | inf (neg : Bool)
  | fin (neg : Bool) (m : Nat) (e : Int)
  deriving DecidableEq, Repr, Inhabited

/-- The rounding modes of R106. -/
inductive RMode where
  | rne | rz | ru | rd
  deriving DecidableEq, Repr, Inhabited

/-- A rounding mode and whether overflow saturates (R106). -/
structure Rnd where
  mode : RMode
  sat : Bool
  deriving DecidableEq, Repr, Inhabited

/-- The rounding override of a header, code 0 being the default RNE (R106, R226). -/
def rndOf (code : Nat) : Rnd :=
  match code with
  | 2 => ⟨.rz, false⟩
  | 3 => ⟨.ru, false⟩
  | 4 => ⟨.rd, false⟩
  | 5 => ⟨.rne, true⟩
  | 6 => ⟨.rz, true⟩
  | _ => ⟨.rne, false⟩

namespace Num

def zero : Num := .fin false 0 0

def ofInt (i : Int) : Num := .fin (decide (i < 0)) i.natAbs 0

/-- The trailing zero bits of a positive number. -/
def tz (m : Nat) : Nat := Nat.log2 (m ^^^ (m - 1))

def isNan (x : Num) : Bool :=
  match x with
  | .nan => true
  | _ => false

def neg (x : Num) : Num :=
  match x with
  | .nan => .nan
  | .inf n => .inf (!n)
  | .fin n m e => .fin (!n) m e

def abs (x : Num) : Num :=
  match x with
  | .nan => .nan
  | .inf _ => .inf false
  | .fin _ m e => .fin false m e

/-- The signed significand of a finite value at a smaller or equal exponent. -/
def at' (n : Bool) (m : Nat) (e q : Int) : Int :=
  let v : Int := (m : Int) * 2 ^ (e - q).toNat
  if n then -v else v

/-- The exact sum, an exact zero of unlike signs taking the sign the mode gives (IEEE 754, R108). -/
def add (mode : RMode) (x y : Num) : Num :=
  match x, y with
  | .nan, _ => .nan
  | _, .nan => .nan
  | .inf a, .inf b => if a == b then .inf a else .nan
  | .inf a, _ => .inf a
  | _, .inf b => .inf b
  | .fin a m e, .fin b k f =>
    let q := min e f
    let s := at' a m e q + at' b k f q
    if s == 0 then .fin (if m == 0 && k == 0 && a == b then a else mode == .rd) 0 0
    else .fin (decide (s < 0)) s.natAbs q

/-- The exact product (IEEE 754). -/
def mul (x y : Num) : Num :=
  match x, y with
  | .nan, _ => .nan
  | _, .nan => .nan
  | .inf a, .inf b => .inf (a != b)
  | .inf a, .fin b m _ => if m == 0 then .nan else .inf (a != b)
  | .fin a m _, .inf b => if m == 0 then .nan else .inf (a != b)
  | .fin a m e, .fin b k f => .fin (a != b) (m * k) (e + f)

/-- The value times 2^k. -/
def scale (x : Num) (k : Int) : Num :=
  match x with
  | .nan => .nan
  | .inf n => .inf n
  | .fin n m e => .fin n m (e + k)

/-- The order of two values neither of which is a NaN, +0 and -0 being equal: x < y. -/
def lt (x y : Num) : Bool :=
  match x, y with
  | .nan, _ => false
  | _, .nan => false
  | .inf a, .inf b => a && !b
  | .inf a, .fin _ _ _ => a
  | .fin _ _ _, .inf b => !b
  | .fin a m e, .fin b k f =>
    let q := min e f
    decide (at' a m e q < at' b k f q)

/-- Equality of values, false for a NaN (R233). -/
def eqv (x y : Num) : Bool := !x.isNan && !y.isNan && !lt x y && !lt y x

/-- The larger of two, -0 below +0, a NaN giving a NaN (R229). -/
def max (x y : Num) : Num :=
  if x.isNan || y.isNan then .nan
  else if lt x y then y
  else if lt y x then x
  else
    match x with
    | .fin true 0 _ => y
    | _ => x

/-- The smaller of two, -0 below +0, a NaN giving a NaN (R229). -/
def min' (x y : Num) : Num :=
  if x.isNan || y.isNan then .nan
  else if lt x y then x
  else if lt y x then y
  else
    match x with
    | .fin true 0 _ => x
    | _ => y

end Num

/-- Whether a remainder rem of 2^s rounds the kept part up (IEEE 754). -/
def roundsUp (mode : RMode) (neg : Bool) (kept rem s : Nat) : Bool :=
  if rem == 0 then false
  else
    match mode with
    | .rne => decide (2 ^ s < 2 * rem) || (2 * rem == 2 ^ s && kept % 2 == 1)
    | .rz => false
    | .ru => !neg
    | .rd => neg

/-- m · 2^e rounded to a multiple of 2^q, as that multiple. -/
def roundAt (mode : RMode) (neg : Bool) (m : Nat) (e q : Int) : Nat :=
  if q ≤ e then m * 2 ^ (e - q).toNat
  else
    let s := (q - e).toNat
    let k := m / 2 ^ s
    if roundsUp mode neg k (m % 2 ^ s) s then k + 1 else k

/-- A value rounded to an integer (R107); infinities and NaNs are the caller's. -/
def roundInt (mode : RMode) (neg : Bool) (m : Nat) (e : Int) : Int :=
  let k := roundAt mode neg m e 0
  if neg then -(k : Int) else k

/-- What a binary format does above its largest finite value, and how it writes specials (R93-R95, R107). -/
inductive FpKind where
  | ieee | e4m3 | e2m1
  deriving DecidableEq, Repr, Inhabited

/-- A binary format: exponent bits, fraction bits, bias (R93, R95, R101). -/
structure FpFmt where
  eb : Nat
  fb : Nat
  bias : Nat
  kind : FpKind
  deriving DecidableEq, Repr, Inhabited

def fp32 : FpFmt := ⟨8, 23, 127, .ieee⟩
def fp16 : FpFmt := ⟨5, 10, 15, .ieee⟩
def bf16 : FpFmt := ⟨8, 7, 127, .ieee⟩
def e5m2 : FpFmt := ⟨5, 2, 15, .ieee⟩
def e4m3 : FpFmt := ⟨4, 3, 7, .e4m3⟩
def e2m1 : FpFmt := ⟨2, 1, 1, .e2m1⟩
def a80 : FpFmt := ⟨13, 66, 4095, .ieee⟩

/-- The canonical NaN (R94); code 0 in E2M1, which has none (R112, R235). -/
def FpFmt.nanCode (f : FpFmt) : Nat :=
  match f.kind with
  | .ieee => (2 ^ f.eb - 1) * 2 ^ f.fb + 2 ^ (f.fb - 1)
  | .e4m3 => 0x7F
  | .e2m1 => 0

/-- The code of the largest finite value (R95, R107). -/
def FpFmt.maxCode (f : FpFmt) : Nat :=
  match f.kind with
  | .ieee => (2 ^ f.eb - 1) * 2 ^ f.fb - 1
  | .e4m3 => 0x7E
  | .e2m1 => 0x7

/-- The value of a code (R93, R95, R101). -/
def FpFmt.decode (f : FpFmt) (code : Nat) : Num :=
  let n := code / 2 ^ (f.eb + f.fb) % 2 == 1
  let x := code / 2 ^ f.fb % 2 ^ f.eb
  let fr := code % 2 ^ f.fb
  if f.kind == .ieee && x == 2 ^ f.eb - 1 then
    if fr == 0 then .inf n else .nan
  else if f.kind == .e4m3 && x == 15 && fr == 7 then .nan
  else if x == 0 then .fin n fr (1 - (f.bias : Int) - f.fb)
  else .fin n (2 ^ f.fb + fr) ((x : Int) - f.bias - f.fb)

/-- The code of a magnitude that the mode or the format leaves above the largest finite value (R107). -/
def FpFmt.overflow (f : FpFmt) (r : Rnd) (neg : Bool) : Nat :=
  match f.kind with
  | .e4m3 | .e2m1 => f.maxCode
  | .ieee =>
    let big :=
      match r.mode with
      | .rne => true
      | .rz => false
      | .ru => !neg
      | .rd => neg
    if big && !r.sat then f.maxCode + 1 else f.maxCode

/-- A value rounded once into a format (R93, R106, R107). -/
def FpFmt.encode (f : FpFmt) (r : Rnd) (x : Num) : Nat :=
  let sgn := fun (n : Bool) => if n then 2 ^ (f.eb + f.fb) else 0
  match x with
  | .nan => f.nanCode
  | .inf n => sgn n + (if f.kind == .ieee then f.maxCode + 1 else f.maxCode)
  | .fin n m e =>
    if m == 0 then sgn n
    else
      let top : Int := (Nat.log2 m : Int) + e
      let q := max top (1 - (f.bias : Int)) - f.fb
      let k := roundAt r.mode n m e q
      let code := if k < 2 ^ f.fb then k else (q + f.fb + f.bias).toNat * 2 ^ f.fb + (k - 2 ^ f.fb)
      sgn n + (if f.maxCode < code then f.overflow r n else code)

/-- The leading zeros of a 6-bit run (R98). -/
def lz6 (t : Nat) : Nat := if t == 0 then 6 else 5 - Nat.log2 t

/-- TF8 (R98). -/
def tf8Decode (x : Nat) : Num :=
  let s := x / 128 % 2 == 1
  let d := x / 64 % 2
  let t := x % 64
  if t == 0 then
    if d == 0 then (if s then .nan else .fin false 0 0) else .inf s
  else
    let z := lz6 t
    let k : Int := if d == 1 then z else -((z : Int) + 1)
    let n := 5 - z
    let eb := min n 2
    let ex := t / 2 ^ (n - eb) % 2 ^ eb * 2 ^ (2 - eb) + (if d == 1 then 2 ^ (2 - eb) - 1 else 0)
    let f := n - 2
    let fr := t % 2 ^ f
    .fin s (2 ^ f + fr) (4 * k + ex - f)

/-- The positive finite TF8 codes with their values in units of 2^-24. -/
def tf8Table : List (Nat × Nat) :=
  (List.range 128).filterMap fun c =>
    match tf8Decode c with
    | .fin _ 0 _ => none
    | .fin _ m e => some (c, m * 2 ^ (e + 24).toNat)
    | _ => none

/-- A value rounded into TF8 (R99). -/
def tf8Encode (r : Rnd) (x : Num) : Nat :=
  let sgn := fun (n : Bool) => if n then 128 else 0
  match x with
  | .nan => 0x80
  | .inf n => sgn n + 0x40
  | .fin n m e =>
    if m == 0 then 0
    else
      let num := m * 2 ^ (e + 24).toNat
      let den := 2 ^ (-(e + 24)).toNat
      let lo := tf8Table.foldl (fun a p => if p.2 * den ≤ num && a.2 < p.2 then p else a) (0, 0)
      let hi := tf8Table.foldl (fun a p => if num < p.2 * den && (a.2 == 0 || p.2 < a.2) then p else a) (0, 0)
      let up :=
        match r.mode with
        | .rz => false
        | .ru => !n
        | .rd => n
        | .rne => false
      let mag :=
        if lo.2 * den == num then lo.1
        else if hi.2 == 0 then
          let beyond := if r.mode == .rne then decide (3 * 2 ^ 46 * den ≤ num) else up
          if beyond && !r.sat then 0x40 else 0x41
        else if r.mode == .rne then
          let a := 2 * num
          let b := (lo.2 + hi.2) * den
          if a < b then lo.1
          else if b < a then hi.1
          else if lo.1 % 2 == 0 && hi.1 % 2 == 1 then lo.1
          else hi.1
        else if up then hi.1
        else lo.1
      if mag == 0 then 0 else sgn n + mag

/-- The elements per cell of a format tag and their width (R103); tag 12 is the pair of R104. -/
def tagShape (t : Nat) : Nat × Nat :=
  match t with
  | 3 | 4 | 5 => (2, 16)
  | 6 | 7 | 8 | 9 | 13 | 14 => (4, 8)
  | 10 | 11 => (8, 4)
  | 15 => (32, 1)
  | _ => (1, 32)

/-- Whether the elements of a tag are integers (R91, R103). -/
def tagIsInt (t : Nat) : Bool := t == 2 || t == 5 || t == 9 || t == 11 || t == 13 || t == 15

/-- A code of w bits as a two's complement number. -/
def sgnVal (w code : Nat) : Int := if code < 2 ^ (w - 1) then code else (code : Int) - 2 ^ w

/-- The value of an element code under its tag (R91, R93, R95, R98). -/
def tagDecode (t code : Nat) : Num :=
  match t with
  | 1 => fp32.decode code
  | 2 => Num.ofInt (sgnVal 32 code)
  | 3 => bf16.decode code
  | 4 => fp16.decode code
  | 5 => Num.ofInt (sgnVal 16 code)
  | 6 => e4m3.decode code
  | 7 => e5m2.decode code
  | 8 => tf8Decode code
  | 9 => Num.ofInt (sgnVal 8 code)
  | 10 => e2m1.decode code
  | 11 => Num.ofInt (sgnVal 4 code)
  | _ => .fin false code 0

/-- The range of an integer tag (R91). -/
def intRange (t : Nat) : Int × Int :=
  match t with
  | 2 => (-2147483648, 2147483647)
  | 5 => (-32768, 32767)
  | 9 => (-128, 127)
  | 11 => (-8, 7)
  | 13 => (0, 255)
  | _ => (0, 1)

def clampInt (lo hi v : Int) : Int := if v < lo then lo else if hi < v then hi else v

/-- The low w bits of an integer. -/
def lowBits (w : Nat) (v : Int) : Nat := (v % 2 ^ w).toNat

/-- A value put into an integer tag: rounded and clamped from floating, the low bits kept from an integer unless the
override saturates (R92, R107). DESIGN CHOICE (log 50): an integer that a target as wide as its source cannot hold is treated as a
narrowing one is, and a floating value beyond the range of INT4, UINT8 or a one-bit target is clamped in every mode. -/
def intEncode (t : Nat) (r : Rnd) (fromInt : Bool) (x : Num) : Nat :=
  let w := (tagShape t).2
  let lo := (intRange t).1
  let hi := (intRange t).2
  match x with
  | .nan => 0
  | .inf n => lowBits w (if n then lo else hi)
  | .fin n m e =>
    let v := roundInt r.mode n m e
    if fromInt && !r.sat then lowBits w v else lowBits w (clampInt lo hi v)

/-- The element code of a value under a tag (R107, R235). -/
def tagEncode (t : Nat) (r : Rnd) (fromInt : Bool) (x : Num) : Nat :=
  match t with
  | 1 => fp32.encode r x
  | 3 => bf16.encode r x
  | 4 => fp16.encode r x
  | 6 => e4m3.encode r x
  | 7 => e5m2.encode r x
  | 8 => tf8Encode r x
  | 10 => e2m1.encode r x
  | _ => intEncode t r fromInt x

/-- The value of an FP32 cell. -/
def f32 (c : Cell) : Num := fp32.decode c.toNat

/-- A value rounded to an FP32 cell. -/
def toF32 (r : Rnd) (x : Num) : Cell := BitVec.ofNat 32 (fp32.encode r x)

/-- Round-to-nearest-even without saturation. -/
def rne : Rnd := ⟨.rne, false⟩

/-- ⌊√x⌋, one bit at a time from bit n - 1. -/
def sqrtBits (x : Nat) : Nat → Nat → Nat
  | 0, r => r
  | n + 1, r => sqrtBits x n (if (r + 2 ^ n) * (r + 2 ^ n) ≤ x then r + 2 ^ n else r)

/-- A significand that says with its last bit whether the true value lies above it. -/
def sticky (k : Nat) (exact : Bool) : Nat := 2 * k + (if exact then 0 else 1)

/-- 1/x with its specials (R230). -/
def recip (x : Num) : Num :=
  match x with
  | .nan => .nan
  | .inf n => .fin n 0 0
  | .fin n m e =>
    if m == 0 then .inf n
    else
      let k := Nat.log2 m + 64
      .fin n (sticky (2 ^ k / m) (2 ^ k % m == 0)) (-(k : Int) - e - 1)

/-- 1/√x with its specials (R230). -/
def rsqrt (x : Num) : Num :=
  match x with
  | .nan => .nan
  | .inf n => if n then .nan else .fin false 0 0
  | .fin n m e =>
    if m == 0 then .inf n
    else if n then .nan
    else
      let m' := if e % 2 == 0 then m else 2 * m
      let e' := if e % 2 == 0 then e else e - 1
      let k := Nat.log2 m' + 64
      let v := sqrtBits (2 ^ (2 * k) / m') (k + 1) 0
      .fin false (sticky v (v * v * m' == 2 ^ (2 * k))) (-(k : Int) - e' / 2 - 1)

/-- The product of 2^(2^-j) over the set bits of a fraction of n + 1 bits from the top, to 256 fraction bits; root is
2^(2^-(j-1)). -/
def exp2Frac (fr : Nat) : Nat → Nat → Nat → Nat
  | 0, _, acc => acc
  | n + 1, root, acc =>
    if fr % 2 ^ (n + 1) == 0 then acc
    else
      let r := sqrtBits (root * 2 ^ 256) 258 0
      exp2Frac fr n r (if fr / 2 ^ n % 2 == 1 then acc * r / 2 ^ 256 else acc)

/-- 2^x with its specials (R230); a finite result that is not a power of two is irrational, so it never ties. -/
def exp2 (x : Num) : Num :=
  match x with
  | .nan => .nan
  | .inf n => if n then .fin false 0 0 else .inf false
  | .fin n m e =>
    let v := Num.at' n m e (min e (-149))
    let s := (-(min e (-149))).toNat
    let i := v / 2 ^ s
    let fr := (v % 2 ^ s).toNat
    if 1000 < i then .fin false 1 1000
    else if i < -1000 then .fin false 3 (-1000)
    else if fr == 0 then .fin false 1 i
    else .fin false (sticky (exp2Frac fr s (2 ^ 257) (2 ^ 256)) false) (i - 257)

/-- The value of an E8M0 scale as a power of two, none for 0xFF (R96). -/
def e8m0 (x : Nat) : Option Int := if x == 255 then none else some ((x : Int) - 127)

/-- A value times a block scale, a scale of 0xFF making it a NaN (R96, R97). -/
def scaled (x : Num) (s : Nat) : Num :=
  match e8m0 s with
  | none => .nan
  | some k => x.scale k

/-- ⌊log2 |x|⌋ of a finite non-zero value. -/
def ilog2 (m : Nat) (e : Int) : Int := (Nat.log2 m : Int) + e

/-- The scale SCSEL chooses for a block maximum (R111). -/
def chooseScale (f : MxFmt) (mx : Num) : Nat :=
  let emax : Int :=
    match f with
    | .e4m3 => 8
    | .e5m2 => 15
    | .e2m1 => 2
    | .int8 => 6
  match mx with
  | .nan => 255
  | .inf _ => 255
  | .fin _ m e => if m == 0 then 0 else (clampInt 0 254 (ilog2 m e - emax + 127)).toNat

/-- The format tag of an MX element code (R238). -/
def mxTag (f : MxFmt) : Nat :=
  match f with
  | .e4m3 => 6
  | .e5m2 => 7
  | .e2m1 => 10
  | .int8 => 9

/-- An element quantised by scale X (R112, R239). -/
def quantise (f : MxFmt) (r : Rnd) (xs : Nat) (v : Num) : Nat :=
  if xs == 255 then
    match f with
    | .e4m3 => 0x7F
    | .e5m2 => 0x7E
    | .e2m1 => 0
    | .int8 => 0
  else
    let y := v.scale (127 - (xs : Int))
    match f with
    | .e5m2 =>
      match y with
      | .inf n => (if n then 0x80 else 0) + 0x7B
      | _ => e5m2.encode ⟨r.mode, true⟩ y
    | .e4m3 => e4m3.encode ⟨r.mode, true⟩ y
    | .e2m1 => e2m1.encode ⟨r.mode, true⟩ y
    | .int8 => intEncode 9 ⟨r.mode, true⟩ false y

end Sys2Proof.Machine
end

