-- ==== Sys2Proof/Machine/Tile.lean ====
section
/-! DEFINITION. The state of one tile: what the speculation checkpoint of R148 covers (Arch) and the rest (Tile).
Field defaults are the values after a tile reset (R72, R20 where it lists them; log 2 where the spec gives none). -/

namespace Sys2Proof.Machine

/-- A row of the grid, a queue entry, a remote or circuit row: 64 lanes (R46, R84). -/
abbrev Row := Vector Cell 64

def Row.zero : Row := Vector.replicate 64 0

/-- The causes of R392. -/
inductive Cause where
  | illegalSlot | illegalOpcode | bundleForm | bundleStart | blockAlign | packetCross | privileged | headerMisuse
  | formatTag | formatMixed | handleInvalid | queueOverflow | queueUnderflow | sparsityMeta | precisionInvalid
  | rotateRange | align | straddle | windowHole | bufferState | bufferIndex | mapEntry | monitorMisuse | atomicAlign
  | leaseViolation | pageNotPresent | pagePermission | pageAtomic | translationConflict | peerUnreachable
  | addressRange | partitionFence | semOverflow | semIndex | barrierState | phaseInSpec | specLimit | waitRange
  | spawnFull | circuitUnbound | copyNest | copyDataError | footprintViolation | collectiveMismatch | remoteBeat
  | groutFormat | nakLimit | engineState | spUncorrectable | gridParity | accumParity | retentionLoss | linkDown
  | replayStorm | watchdog | machineCheck | trapInstruction | breakpoint | singleStep | preempt | swapRequest
  | debugHalt | contextError | doubleFault
  deriving DecidableEq, Repr, Inhabited

/-- The cause codes, in the order of R392's table. -/
def Cause.code : Cause → Nat
  | .illegalSlot => 0 | .illegalOpcode => 1 | .bundleForm => 2 | .bundleStart => 3 | .blockAlign => 4
  | .packetCross => 5 | .privileged => 6 | .headerMisuse => 7 | .formatTag => 8 | .formatMixed => 9
  | .handleInvalid => 10 | .queueOverflow => 11 | .queueUnderflow => 12 | .sparsityMeta => 13
  | .precisionInvalid => 14 | .rotateRange => 15 | .align => 16 | .straddle => 17 | .windowHole => 18
  | .bufferState => 19 | .bufferIndex => 20 | .mapEntry => 21 | .monitorMisuse => 22 | .atomicAlign => 23
  | .leaseViolation => 24 | .pageNotPresent => 25 | .pagePermission => 26 | .pageAtomic => 27
  | .translationConflict => 28 | .peerUnreachable => 29 | .addressRange => 30 | .partitionFence => 31
  | .semOverflow => 32 | .semIndex => 33 | .barrierState => 34 | .phaseInSpec => 35 | .specLimit => 36
  | .waitRange => 37 | .spawnFull => 38 | .circuitUnbound => 39 | .copyNest => 40 | .copyDataError => 41
  | .footprintViolation => 42 | .collectiveMismatch => 43 | .remoteBeat => 44 | .groutFormat => 45
  | .nakLimit => 46 | .engineState => 47 | .spUncorrectable => 48 | .gridParity => 49 | .accumParity => 50
  | .retentionLoss => 51 | .linkDown => 52 | .replayStorm => 53 | .watchdog => 54 | .machineCheck => 55
  | .trapInstruction => 56 | .breakpoint => 57 | .singleStep => 58 | .preempt => 59 | .swapRequest => 60
  | .debugHalt => 61 | .contextError => 62 | .doubleFault => 63

/-- What a trap records beside its cause (R393, R394): the slot class, TRAPVAL, the agent, SUB, DEF; and the faulting bundle
where the task stands after it (R391, R399). -/
structure TrapInfo where
  cause : Cause
  slot : Nat := 0
  val : Word := 0
  agent : Nat := 0
  sub : Bool := false
  deferred : Bool := false
  bundle : Option Nat := none
  deriving DecidableEq, Repr, Inhabited

/-- An operand handle: its image (R52), its written bit (R85), and the bytes that each write since the last SPFENCE
overwrote, newest first, which a push may still see (R85). -/
structure Handle where
  img : Image := 0
  written : Bool := false
  undo : List (List Host.Cell) := []
  deriving DecidableEq, Repr, Inhabited

/-- What a remote beat has still to read: its handle's image and its row (R87). -/
structure Ask where
  img : Image
  row : Fin 64
  deriving DecidableEq, Repr, Inhabited

/-- One decoded B element: its column, the A element of the step it pairs with (12 · group + lane), its value
(R79, R86). -/
structure BElem where
  col : Fin 64
  sel : Nat
  val : Num
  deriving DecidableEq, Repr, Inhabited

/-- A B latch (R73). -/
structure Latch where
  valid : Bool := false
  step : Nat := 1
  elems : List BElem := []
  deriving DecidableEq, Repr, Inhabited

/-- A row outstanding or landed in LAND0 or LAND1 (R87). -/
structure LandRow where
  row : Fin 64
  due : Nat
  arrived : Bool
  float : Bool
  cells : Row
  foot : Nat := 0
  ask : Option Ask := none
  failed : Bool
  deriving DecidableEq, Repr, Inhabited

/-- The matrix array (R73). -/
structure Mat where
  acc : Vector (Vector AccWord 64) 64 := Vector.replicate 64 (Vector.replicate 64 0)
  float : Bool := true
  stage : Vector (Vector Num 64) 64 := Vector.replicate 64 (Vector.replicate 64 (.fin false 0 0))
  pushed : Nat := 0
  ghandle : Option HReg := none
  active : Latch := {}
  next : Latch := {}
  ga : Fin 4096 := 0
  gb : Fin 4096 := 0
  land : Vector (List LandRow) 2 := Vector.replicate 2 []
  deriving DecidableEq, Repr, Inhabited

/-- A result-queue entry, reserved or arrived (R84); a remote one names its engine and its footprint (R87, R139), and what it has
still to read where an earlier job holds it up (R140); that of a null beat the tile cycle at which it was sent (R284). -/
structure QEntry where
  tag : Nat
  cells : Row
  due : Nat
  arrived : Bool
  remote : Option (Fin 2)
  foot : Nat := 0
  ask : Option Ask := none
  sent : Option Nat := none
  failed : Bool
  deriving DecidableEq, Repr, Inhabited

/-- A touched line of a window (R69): its number, its dirty mask, the storage class of its home (R115). -/
structure WinLine where
  line : Nat
  mask : BitVec 256
  cls : Nat
  deriving DecidableEq, Repr, Inhabited

/-- A map entry: its image (R68), and the touched lines in order, an unlisted line being untouched (R69). -/
structure MapEntry where
  img : Image := 0
  lines : List WinLine := []
  deriving DecidableEq, Repr, Inhabited

/-- The state of a tile that a speculation checkpoint covers (R148). -/
structure Arch where
  sregs : Vector Word 32 := Vector.replicate 32 0
  preds : Vector Bool 16 := (Vector.replicate 16 false).set 0 true
  pass : BitVec 32 := 0
  feed : BitVec 32 := 0
  rrb : Fin 16 := 0
  grid : Vector Row 64 := Vector.replicate 64 Row.zero
  tags : Vector (Fin 16) 64 := Vector.replicate 64 0
  lcr : BitVec 64 := 0
  bmr : BitVec 32 := 0
  pv : Bool := false
  xpend : BitVec 8 := 0
  xrd : BitVec 8 := 0
  handles : Vector Handle 16 := Vector.replicate 16 {}
  mat : Mat := {}
  queues : Vector (List QEntry) 8 := Vector.replicate 8 []
  cld : Nat := 0
  cst : Nat := 0
  ccp : Nat := 0
  ctl : Nat := 0
  maps : Vector MapEntry 16 := Vector.replicate 16 {}
  setup : Vector (Vector Word 16) 4 := Vector.replicate 4 (Vector.replicate 16 0)
  deriving DecidableEq, Repr

/-- The counters of R315. -/
inductive Ctr where
  | ld | st | cp | tl
  deriving DecidableEq, Repr, Inhabited

/-- What a result in flight writes (R314). -/
inductive Site where
  | sreg (r : SReg)
  | pred (p : PReg)
  | lcr
  | cell (row col : Fin 64)
  deriving DecidableEq, Repr, Inhabited

/-- Results in flight that land together: the tile cycle, whether their landing lowers ld, and the values, none where a
later-issued result has taken the target over (R225). -/
structure Flight where
  due : Nat
  isLoad : Bool
  writes : List (Site × Option Word)
  deriving DecidableEq, Repr, Inhabited

/-- A counted operation that completes at a known tile cycle (R315). -/
structure PendOp where
  ctr : Ctr
  due : Nat
  deriving DecidableEq, Repr, Inhabited

/-- The states of a ring slot (R59). -/
inductive SlotSt where
  | empty | filling | full | draining
  deriving DecidableEq, Repr, Inhabited

/-- The agents that own slots (R60). -/
inductive Owner where
  | nobody | core | loader | storer | chan (c : ChNo) | queueUnit | weightDie | predictor
  deriving DecidableEq, Repr, Inhabited

/-- A leaf found by a translation: its entry word and its size code (R375, R381). -/
structure Leaf where
  word : Word
  size : Fin 4
  deriving DecidableEq, Repr, Inhabited

/-- A fill in flight: window entry, line, home address, when it returns, when the data of a load is readable (R319), its
latency class, the agent whose access began it, the leaf it was translated by, the partition for which it was and the virtual address
of its line (R382, R386). -/
structure Fill where
  entry : MapNo
  line : Nat
  spa : Nat
  due : Nat
  ready : Nat
  cls : Nat
  who : Owner := .core
  leaf : Leaf := ⟨0, 0⟩
  part : PartNo := 0
  va : Nat := 0
  deriving DecidableEq, Repr, Inhabited

/-- A declared ring: its descriptor (R59), slot states and owners (R60), version count and predictor register (R146,
R147), and the slots whose history copy is in progress with its end. -/
structure Ring where
  valid : Bool := false
  pred : Bool := false
  nslot : Fin 16 := 0
  slotsz : Fin 16384 := 0
  base : Fin 32768 := 0
  pidx : Fin 16 := 0
  cidx : Fin 16 := 0
  st : Vector SlotSt 16 := Vector.replicate 16 .empty
  own : Vector Owner 16 := Vector.replicate 16 .nobody
  vcnt : Nat := 0
  prd : Word := 0
  hist : List (Fin 16 × Nat) := []
  deriving DecidableEq, Repr, Inhabited

/-- A piece of global memory as a probe translated it (R295, R303): its virtual address, its length, its home, its leaf. -/
structure Page where
  va : Nat
  len : Nat
  spa : Nat
  leaf : Leaf := ⟨0, 0⟩
  deriving DecidableEq, Repr, Inhabited

/-- A copy job: its snapshot of the setup words (R295), the pages its probe found, the slots it holds once it has fired
(R296), whether it has fired, the storage classes it writes (R124), and when it completes. -/
structure CopyJob where
  id : Nat := 0
  words : Vector Word 16
  pages : List Page := []
  inSlot : Option (Fin 16) := none
  outSlot : Option (Fin 16) := none
  fired : Bool := false
  wmask : Nat := 0
  due : Nat := 0
  deriving DecidableEq, Repr

/-- A footprint of a job issued and not yet completed (R139, R140): the bytes [lo, hi), local or global virtual, read or
written, whether loads pass it (R305), whether it is a remote beat's. -/
structure Foot where
  id : Nat
  lo : Nat
  hi : Nat
  glob : Bool
  wr : Bool
  loadsPass : Bool
  remote : Bool := false
  deriving DecidableEq, Repr, Inhabited

/-- A copy channel beside its setup words: its jobs, oldest first, its error state (R296-R299), and the window lines that its copies
wrote since its last drain (R141). -/
structure Chan where
  jobs : List CopyJob := []
  err : Bool := false
  lines : List (MapNo × Nat) := []
  deriving DecidableEq, Repr

/-- A tile of the package. -/
structure TileId where
  cl : ClusterNo
  tn : TileNo
  deriving DecidableEq, Repr, Inhabited

/-- A row held at a receive end (R301), with the sender whose speculation it depends on and that sender's depth
(R155). -/
structure CircRow where
  cend : EndNo
  cells : Row
  spec : Option (TileId × Nat)
  deriving DecidableEq, Repr, Inhabited

/-- A loader or storer core (R271): its registers, whether it runs, a fault of it that waits for the tile core, whether a
fault has stopped it until its task ends (R391), the windows in a row that flagged its instruction and the cycles of a replay of
it that are still to pass (R324). -/
structure LsCore where
  x : Vector (BitVec 32) 32 := Vector.replicate 32 0
  pc : BitVec 32 := 0
  running : Bool := false
  fault : Option TrapInfo := none
  failed : Bool := false
  flagged : Nat := 0
  hold : Nat := 0
  deriving DecidableEq, Repr

/-- The Lintel arrival state of a participant (R210). -/
inductive Arrival where
  | none | arrived | released
  deriving DecidableEq, Repr, Inhabited

/-- The waits of R34, in its order; one on a ring is for a slot to acquire, for one to take, or for the slot at CIDX to be full
(R148). -/
inductive WaitKind where
  | sem (k : SemNo)
  | lintel
  | addr (a : Nat)
  | ring (n : RingNo) (acquire : Bool)
  | full (n : RingNo)
  | counters
  | mailbox
  deriving DecidableEq, Repr, Inhabited

/-- A wait in progress: its kind and the timestamp at which it began (R35). -/
structure WaitRec where
  kind : WaitKind
  since : Nat
  deriving DecidableEq, Repr, Inhabited

/-- The task on a tile: its team, its logical tile, whether it is a pool task, the ring position it is charged to
(R31, R32), whether its tile belongs to another team (R30), its flags (R22), and its member rows: groups joined, groups
with an abort since (R304, R306). no tells the tasks of a run apart (the model's own, log 2). -/
structure Task where
  team : Fin 65536
  ltile : Fin 16
  pool : Bool := false
  pos : Fin 16 := 0
  stolen : Bool := false
  mig : Bool := false
  mayspec : Bool := false
  lintel : Bool := false
  first : Bool := true
  joined : List (Fin 65536) := []
  aborted : List (Fin 65536) := []
  no : Nat := 0
  deriving DecidableEq, Repr, Inhabited

/-- An effect held by a speculating task (R151), with the address of the bundle that issued it: a store of bytes at local
addresses, or an operation with the operand values it read. -/
inductive HeldOp where
  | store (pieces : List (Nat × List Byte))
  | sems (k : SemNo) (n : Nat)
  | putc (k : SemNo) (d a b : Word) (pages : List Page)
  | cpgo (c : ChNo) (job : CopyJob)
  | gred (k : SemNo) (d a b : Word)
  | spawn (entry arg : Word)
  | bufFree (n : Fin 8) (slot : Fin 16)
  | bufPub (n : Fin 8) (slot : Fin 16)
  deriving DecidableEq, Repr

/-- A held effect and its bundle (R153, R157). -/
structure Held where
  pc : Nat
  op : HeldOp
  deriving DecidableEq, Repr

/-- A speculation in progress (R148-R158): its point, its checkpoint, its depth, the ring and slot of its own
prediction, whether the bundle that began it has issued, the job numbers used before it, when the shadow slot is
complete, the held effects, the slots acquired, published and taken and the circuit rows taken since the point, the
senders depended on, the state of the tolerance compare and the deferred fault. -/
structure Spec where
  pt : Nat
  chk : Arch
  depth : Nat
  ring : Option (Fin 8)
  slot : Fin 16 := 0
  begun : Bool := true
  job0 : Nat := 0
  shadowDue : Nat := 0
  shadowDone : Bool := false
  published : Bool := false
  cmpDue : Nat := 0
  verdict : Option Bool := none
  held : List Held := []
  acquired : List (Fin 8 × Fin 16) := []
  pubbed : List (Fin 8 × Fin 16) := []
  taken : List (Fin 8 × Fin 16) := []
  rows : List CircRow := []
  deps : List TileId := []
  fault : Option TrapInfo := none
  deriving DecidableEq, Repr

/-- A TLB entry (R380): its level's page size, virtual page, the leaf word, the partition. -/
structure TlbEntry where
  part : PartNo
  size : Fin 4
  vpn : BitVec 40
  leaf : Word
  deriving DecidableEq, Repr, Inhabited

/-- Why a task is ending: RETIRE at a bundle (R21), or a fault with its record, and whether the whole team ends (R397,
R398); the record is none on a tile whose team another tile ends. -/
inductive Ending where
  | retire (pc : Nat)
  | fault (pc : Nat) (rec : Option TrapInfo) (team : Bool)
  deriving DecidableEq, Repr, Inhabited

/-- The held effects of a committed speculation that have still to enter the model (R145, R157): each waits, in program
order, until it could be issued; fault is what is raised then. -/
structure Releasing where
  held : List Held := []
  fault : Option TrapInfo := none
  deriving DecidableEq, Repr, Inhabited

/-- The state of a tile that a steal saves and restores (R30), with the counts of R161 and R325, and its place in the context pool,
if it has one (log 19). -/
structure OwnState where
  rings : Vector Ring 8
  maps : Vector MapEntry 16
  ends : Vector Word 64
  deadEnds : List EndNo
  spswz : BitVec 24
  chown : BitVec 8
  skew : Vector Word 2
  bytes : List Host.Cell
  unit : Option Nat
  commits : BitVec 24
  squashes : BitVec 32
  replays : BitVec 32
  stretch : BitVec 32
  deriving DecidableEq, Repr

/-- One tile (R46-R72 and the chapters that add to it). ahead is a predicted slot that CIDX has still to pass, with a BUFTAKE of the
PRED's bundle (R148, R178). deadEnds are the bound send ends whose circuit's route has lost a link
(R420); badRows and badAcc the grid rows and the accumulator rows whose parity is in error (R50, R80). now is the time at
which its next tile cycle begins, in the units of State.clock, seen the tile cycles that now and the budget account for
(log 4); fillReady is when the data that the held bundle waits for is there, filled when the window lines that fills have brought
for it are readable (R319); engVal the TRAPVAL of a pending engine error whose cause does not record the ENGERR word (R394);
copied the slice bytes that copies wrote and that are not yet published, in order, each with its channel, and among them the stores
of the tile that were laid over such bytes, with none (R141); peerLost a copied store to a device that can no longer be reached (R135); grace that a stopped tile still issues once, in the tile cycle of the request or to complete a replay (R405, R409). -/
structure Tile extends Arch where
  cl : ClusterNo := 0
  tn : TileNo := 0
  pc : Nat := 0
  priv : Bool := false
  task : Option Task := none
  team : Option (Fin 65536 × Fin 16) := none
  stopped : Bool := false
  grace : Bool := false
  ending : Option Ending := none
  arrival : Arrival := .none
  arrGen : Nat := 0
  barr : Bool := false
  abortSems : List SemNo := []
  pslots : List (Fin 8 × Fin 16) := []
  ahead : Option (Fin 8 × Fin 16) := none
  tc : Nat := 0
  now : Nat := 0
  seen : Nat := 0
  flights : List Flight := []
  ops : List PendOp := []
  fills : List Fill := []
  fillReady : Nat := 0
  filled : List ((MapNo × Nat) × Nat) := []
  busy : Nat := 0
  tepc : Word := 0
  trapst : Word := 0
  trapval : Word := 0
  tscr : Word := 0
  dbgctl : BitVec 2 := 0
  dbgbp : Word := 0
  spswz : BitVec 24 := 0
  chown : BitVec 8 := 0
  skew : Vector Word 2 := Vector.replicate 2 0
  engerr : Word := 0
  engVal : Word := 0
  rings : Vector Ring 8 := Vector.replicate 8 {}
  ends : Vector Word 64 := Vector.replicate 64 0
  deadEnds : List EndNo := []
  recvRows : List CircRow := []
  mbx : Vector (List (BitVec 32)) 3 := Vector.replicate 3 []
  chans : Vector Chan 4 := Vector.replicate 4 {}
  feet : List Foot := []
  jobCtr : Nat := 1
  view : List (Nat × Vector Byte 64) := []
  unpub : List Host.Cell := []
  tpub : List Host.Cell := []
  copied : List (Option ChNo × Host.Cell) := []
  spec : Option Spec := none
  releasing : Option Releasing := none
  commits : BitVec 24 := 0
  squashes : BitVec 32 := 0
  replays : BitVec 32 := 0
  stretch : BitVec 32 := 0
  flagged : Nat := 0
  reissue : Bool := false
  wait : Option WaitRec := none
  woken : Bool := false
  predDone : Bool := false
  stallSince : Option Nat := none
  loader : LsCore := {}
  storer : LsCore := {}
  tlb : List TlbEntry := []
  saved : Option OwnState := none
  peerLost : Bool := false
  badRows : BitVec 64 := 0
  badAcc : BitVec 64 := 0
  deriving DecidableEq, Repr

/-- A tile after a tile reset (R72). -/
def Tile.reset (cl : ClusterNo) (tn : TileNo) : Tile := { cl := cl, tn := tn }

def Tile.id (t : Tile) : TileId := ⟨t.cl, t.tn⟩

end Sys2Proof.Machine
end

