-- ==== Sys2Proof/Machine/Free.lean ====
section
/-! DEFINITION. One more free value of Config, of a type that the state gives. -/

namespace Sys2Proof.Config

/-- The array internals that an image's bytes stand for where Valoc did not write those bytes itself (R406, log 13). -/
opaque arrayOf : List Byte → Machine.Mat

end Sys2Proof.Config
end

