-- ==== Sys2Proof/Decode.lean ====
section
/-! DEFINITION. Decoding: slot words, headers, bundles, block descriptors, the custom-0 words of a loader or storer core,
and the encoder (R174-R197, R273). Words are numbers: a word of 32 bits is a number below 2^32. -/

namespace Sys2Proof

/-- Bits lo+n-1 down to lo of a word. -/
def fld (w lo n : Nat) : Nat := w / 2 ^ lo % 2 ^ n

/-- A field that names one of n things, n a power of two. -/
def finAt (n : Nat) [NeZero n] (w lo : Nat) : Fin n := Fin.ofNat n (w / 2 ^ lo)

def sregAt (w lo : Nat) : SReg := finAt 32 w lo
def pregAt (w lo : Nat) : PReg := finAt 16 w lo

/-- What a header lends one slot: the EXT field of an immediate-mode header, and the HI bits (R180, R181). -/
structure SlotHdr where
  ext : Option Nat
  hi : Nat
  deriving DecidableEq, Repr, Inhabited

/-- A slot without a header (R181). -/
def SlotHdr.plain : SlotHdr := ⟨none, 0⟩

/-- A number of n bits read as a signed number. -/
def sextNat (v n : Nat) : Int := if v < 2 ^ (n - 1) then v else (v : Int) - 2 ^ n

/-- A signed immediate: EXT ‖ IMM with EXT bit 26 as the sign, else sign-extended from IMM (R181). -/
def immS (h : SlotHdr) (w n : Nat) : Int :=
  match h.ext with
  | some e => sextNat (e * 2 ^ n + fld w 0 n) (n + 27)
  | none => sextNat (fld w 0 n) n

/-- An unsigned immediate (R181). -/
def immU (h : SlotHdr) (w n : Nat) : Nat :=
  match h.ext with
  | some e => e * 2 ^ n + fld w 0 n
  | none => fld w 0 n

/-- The immediate of CMPI: signed for EQ, NE, LT and GE, unsigned for LTU and GEU (R220). -/
def immC (cc : IntCC) (h : SlotHdr) (w n : Nat) : Int :=
  match cc with
  | .ltu | .geu => (immU h w n : Nat)
  | .eq | .ne | .lt | .ge => immS h w n

/-- HI bit b of the slot, bit 2 belonging to its most significant grid field (R180). -/
def hiBit (h : SlotHdr) (b : Nat) : Nat := h.hi / 2 ^ b % 2

def dirOf (n : Nat) : Dir :=
  match n with
  | 0 => .h
  | 1 => .v
  | 2 => .d
  | _ => .a

def Dir.code : Dir → Nat
  | .h => 0
  | .v => 1
  | .d => 2
  | .a => 3

/-- The index of a grid field whose low five bits stand at lo, completed by HI bit b (R180, R184). -/
def gridIdx (h : SlotHdr) (w lo b : Nat) : Fin 64 := Fin.ofNat 64 (32 * hiBit h b + fld w lo 5)

def gridAt (h : SlotHdr) (w lo b : Nat) : GridOp := ⟨dirOf (fld w (lo + 5) 2), gridIdx h w lo b⟩

def scopeOf (n : Nat) : Option Scope :=
  match n with
  | 0 => some .tile | 1 => some .cluster | 2 => some .die | 3 => some .package | 4 => some .domain | 5 => some .system
  | _ => none

def Scope.code : Scope → Nat
  | .tile => 0 | .cluster => 1 | .die => 2 | .package => 3 | .domain => 4 | .system => 5

def ordOf (n : Nat) : Option Ord4 :=
  match n with
  | 0 => some .rlx | 1 => some .rel | 2 => some .acq | 3 => some .ar
  | _ => none

def Ord4.code : Ord4 → Nat
  | .rlx => 0 | .rel => 1 | .acq => 2 | .ar => 3

def intCCOf (n : Nat) : Option IntCC :=
  match n with
  | 0 => some .eq | 1 => some .ne | 2 => some .lt | 3 => some .ge | 4 => some .ltu | 5 => some .geu
  | _ => none

def IntCC.code : IntCC → Nat
  | .eq => 0 | .ne => 1 | .lt => 2 | .ge => 3 | .ltu => 4 | .geu => 5

def fpCCOf (n : Nat) : Option FpCC :=
  match n with
  | 0 => some .eq | 1 => some .ne | 2 => some .lt | 3 => some .le | 4 => some .uo | 5 => some .ord
  | _ => none

def FpCC.code : FpCC → Nat
  | .eq => 0 | .ne => 1 | .lt => 2 | .le => 3 | .uo => 4 | .ord => 5

def sizeOf (n : Nat) : Option Size :=
  match n with
  | 0 => some .b | 1 => some .h | 2 => some .w | 3 => some .d
  | _ => none

def Size.code : Size → Nat
  | .b => 0 | .h => 1 | .w => 2 | .d => 3

/-- The bytes of an access of this size (R195). -/
def Size.bytes : Size → Nat
  | .b => 1 | .h => 2 | .w => 4 | .d => 8

def redOf (n : Nat) : Option RedOp :=
  match n with
  | 0 => some .fadd | 1 => some .fmax | 2 => some .fmin | 3 => some .add | 4 => some .max | 5 => some .min
  | _ => none

def RedOp.code : RedOp → Nat
  | .fadd => 0 | .fmax => 1 | .fmin => 2 | .add => 3 | .max => 4 | .min => 5

def mxOf (n : Nat) : Option MxFmt :=
  match n with
  | 0 => some .e4m3 | 1 => some .e5m2 | 2 => some .e2m1 | 3 => some .int8
  | _ => none

def MxFmt.code : MxFmt → Nat
  | .e4m3 => 0 | .e5m2 => 1 | .e2m1 => 2 | .int8 => 3

def drainOf (n : Nat) : Option DrainFmt :=
  match n with
  | 1 => some .fp32 | 2 => some .int32 | 3 => some .bf16x2 | 4 => some .fp16x2
  | _ => none

def DrainFmt.code : DrainFmt → Nat
  | .fp32 => 1 | .int32 => 2 | .bf16x2 => 3 | .fp16x2 => 4

/-- The targets CVT accepts: 1-13, and for 12 an h operand with an even index outside 16-31 (R235, R236). -/
def cvtOk (d : GridOp) (t : Nat) : Bool :=
  decide (1 ≤ t) && decide (t ≤ 13) &&
    (t != 12 || (d.dir == .h && d.idx.val % 2 == 0 && !(decide (16 ≤ d.idx.val) && decide (d.idx.val < 32))))

/-- The codes of SPK and SPX (R245). -/
def spOk (n : Nat) : Bool := decide (1 ≤ n) && decide (n ≤ 4)

/-- The control class (class code 1): opcode map and formats of the spec. -/
def decodeControl (h : SlotHdr) (w : Nat) : Option Instr :=
  match fld w 22 6 with
  | 0 => if fld w 17 5 == 0 then some (.brp (pregAt w 13) (immS h w 13)) else none
  | 1 => if fld w 17 5 == 0 then some (.brnp (pregAt w 13) (immS h w 13)) else none
  | 2 => if fld w 13 9 == 0 then some (.jmpWord (immS h w 13)) else none
  | 3 => if fld w 13 9 == 0 then some (.jmpBlock (immS h w 13)) else none
  | 4 => if fld w 13 4 == 0 then some (.jmpi (sregAt w 17) (immS h w 13)) else if fld w 13 4 == 1 && immS h w 13 == 0 then some (.jmpiB (sregAt w 17)) else none
  | 5 => if fld w 13 4 == 0 then some (.callb (sregAt w 17) (immS h w 13)) else none
  | 6 => if fld w 13 4 == 0 && immS h w 13 == 0 then some (.retb (sregAt w 17)) else none
  | 7 => if fld w 13 9 == 0 then some (.loopb (immS h w 13)) else none
  | 8 => if fld w 13 4 == 0 then some (.lsetPass (sregAt w 17) (immS h w 13)) else if fld w 13 4 == 1 then some (.lsetFeed (sregAt w 17) (immS h w 13)) else if fld w 13 4 == 2 && fld w 17 5 == 0 then some (.lsetRrb (immU h w 13)) else if fld w 13 4 == 3 && fld w 17 5 == 0 then some (.lsetStg (immU h w 13)) else none
  | 9 => if fld w 0 2 == 0 then some (.wait (finAt 32 w 17) (finAt 32 w 12) (finAt 32 w 7) (finAt 32 w 2)) else none
  | 10 => if fld w 0 3 == 0 && (fld w 3 5 == 0 || fld w 8 8 == 0) then some (.semw (finAt 64 w 16) (finAt 256 w 8) (sregAt w 3)) else none
  | 11 => if fld w 0 3 == 0 && (fld w 3 5 == 0 || fld w 8 8 == 0) then some (.sems (finAt 64 w 16) (finAt 256 w 8) (sregAt w 3)) else none
  | 12 => if fld w 0 3 == 0 && (fld w 8 8 != 0) then some (.semt (finAt 64 w 16) (finAt 256 w 8) (sregAt w 3)) else none
  | 13 => if fld w 0 22 == 0 then some .bara else none
  | 14 => if fld w 0 22 == 0 then some .barw else none
  | 15 => if fld w 0 22 == 0 then some .barr else none
  | 16 => if fld w 0 14 == 0 then (scopeOf (fld w 19 3)).bind fun sc => some (.phase sc (finAt 32 w 14)) else none
  | 17 => if fld w 0 14 == 0 then (scopeOf (fld w 19 3)).bind fun sc => some (.fence sc (finAt 32 w 14)) else none
  | 18 => if fld w 0 7 == 0 then some (.spawn (sregAt w 17) (sregAt w 12) (sregAt w 7)) else none
  | 19 => if fld w 0 22 == 0 then some .yield else none
  | 20 => if fld w 0 22 == 0 then some .retire else none
  | 21 => some (.trap (immU h w 22))
  | 22 => if fld w 0 22 == 0 then some .pcommit else none
  | 56 => if fld w 12 5 == 0 then some (.csrr (sregAt w 17) (finAt 4096 w 0)) else none
  | 57 => some (.csrw (sregAt w 17) (sregAt w 12) (finAt 4096 w 0))
  | 58 => if fld w 0 22 == 0 then some .tret else none
  | 59 => if fld w 0 7 == 0 then some (.ctxs (sregAt w 17) (sregAt w 12) (sregAt w 7)) else none
  | 60 => if fld w 0 7 == 0 then some (.ctxl (sregAt w 17) (sregAt w 12) (sregAt w 7)) else none
  | _ => none

/-- The scalar class (class code 2): opcode map and formats of the spec. -/
def decodeScalar (h : SlotHdr) (w : Nat) : Option Instr :=
  match fld w 22 6 with
  | 0 => if fld w 0 7 == 0 then some (.add (sregAt w 17) (sregAt w 12) (sregAt w 7)) else none
  | 1 => if fld w 0 7 == 0 then some (.sub (sregAt w 17) (sregAt w 12) (sregAt w 7)) else none
  | 2 => if fld w 0 7 == 0 then some (.mul (sregAt w 17) (sregAt w 12) (sregAt w 7)) else none
  | 3 => if fld w 0 7 == 0 then some (.mulh (sregAt w 17) (sregAt w 12) (sregAt w 7)) else none
  | 4 => if fld w 0 7 == 0 then some (.mulhu (sregAt w 17) (sregAt w 12) (sregAt w 7)) else none
  | 5 => if fld w 0 7 == 0 then some (.and (sregAt w 17) (sregAt w 12) (sregAt w 7)) else none
  | 6 => if fld w 0 7 == 0 then some (.or (sregAt w 17) (sregAt w 12) (sregAt w 7)) else none
  | 7 => if fld w 0 7 == 0 then some (.xor (sregAt w 17) (sregAt w 12) (sregAt w 7)) else none
  | 8 => if fld w 0 7 == 0 then some (.shl (sregAt w 17) (sregAt w 12) (sregAt w 7)) else none
  | 9 => if fld w 0 7 == 0 then some (.shr (sregAt w 17) (sregAt w 12) (sregAt w 7)) else none
  | 10 => if fld w 0 7 == 0 then some (.sar (sregAt w 17) (sregAt w 12) (sregAt w 7)) else none
  | 11 => if fld w 0 7 == 0 then some (.min (sregAt w 17) (sregAt w 12) (sregAt w 7)) else none
  | 12 => if fld w 0 7 == 0 then some (.max (sregAt w 17) (sregAt w 12) (sregAt w 7)) else none
  | 13 => if fld w 0 7 == 0 then some (.minu (sregAt w 17) (sregAt w 12) (sregAt w 7)) else none
  | 14 => if fld w 0 7 == 0 then some (.maxu (sregAt w 17) (sregAt w 12) (sregAt w 7)) else none
  | 15 => if fld w 4 3 == 0 then some (.sel (sregAt w 17) (sregAt w 12) (sregAt w 7) (pregAt w 0)) else none
  | 16 => if fld w 0 12 == 0 then some (.clz (sregAt w 17) (sregAt w 12)) else none
  | 17 => if fld w 0 12 == 0 then some (.popc (sregAt w 17) (sregAt w 12)) else none
  | 18 => some (.lea (sregAt w 17) (sregAt w 12) (sregAt w 7) (finAt 8 w 4) (finAt 16 w 0))
  | 19 => if fld w 0 5 == 0 then (intCCOf (fld w 19 3)).bind fun cc => some (.cmp cc (pregAt w 15) (sregAt w 10) (sregAt w 5)) else none
  | 32 => some (.addi (sregAt w 17) (sregAt w 12) (immS h w 12))
  | 33 => some (.andi (sregAt w 17) (sregAt w 12) (immS h w 12))
  | 34 => some (.ori (sregAt w 17) (sregAt w 12) (immU h w 12))
  | 35 => some (.xori (sregAt w 17) (sregAt w 12) (immU h w 12))
  | 36 => if (decide (immU h w 12 < 64)) then some (.shli (sregAt w 17) (sregAt w 12) (immU h w 12)) else none
  | 37 => if (decide (immU h w 12 < 64)) then some (.shri (sregAt w 17) (sregAt w 12) (immU h w 12)) else none
  | 38 => if (decide (immU h w 12 < 64)) then some (.sari (sregAt w 17) (sregAt w 12) (immU h w 12)) else none
  | 39 => (intCCOf (fld w 19 3)).bind fun cc => some (.cmpi cc (pregAt w 15) (sregAt w 10) (immC cc h w 10))
  | 40 => some (.li (sregAt w 17) (immS h w 17))
  | 48 => if fld w 0 10 == 0 then some (.pand (pregAt w 18) (pregAt w 14) (pregAt w 10)) else none
  | 49 => if fld w 0 10 == 0 then some (.por (pregAt w 18) (pregAt w 14) (pregAt w 10)) else none
  | 50 => if fld w 0 14 == 0 then some (.pnot (pregAt w 18) (pregAt w 14)) else none
  | 51 => if fld w 0 14 == 0 then some (.pmov (pregAt w 18) (pregAt w 14)) else none
  | _ => none

/-- The vector class (class code 3): opcode map and formats of the spec. DEDUCED (log 16): a HI bit that is set for a grid field
which the entry leaves unused is a field that is not 0, so that the slot is ILLEGAL_OPCODE (R190). -/
def decodeVector (h : SlotHdr) (w : Nat) : Option Instr :=
  match fld w 22 6 with
  | 0 => if fld w 0 1 == 0 then some (.fadd (gridAt h w 15 2) (gridAt h w 8 1) (gridAt h w 1 0)) else none
  | 1 => if fld w 0 1 == 0 then some (.fsub (gridAt h w 15 2) (gridAt h w 8 1) (gridAt h w 1 0)) else none
  | 2 => if fld w 0 1 == 0 then some (.fmul (gridAt h w 15 2) (gridAt h w 8 1) (gridAt h w 1 0)) else none
  | 3 => if fld w 0 1 == 0 then some (.fma (gridAt h w 15 2) (gridAt h w 8 1) (gridAt h w 1 0)) else none
  | 4 => if fld w 0 1 == 0 then some (.fnma (gridAt h w 15 2) (gridAt h w 8 1) (gridAt h w 1 0)) else none
  | 5 => if fld w 0 1 == 0 then some (.fmax (gridAt h w 15 2) (gridAt h w 8 1) (gridAt h w 1 0)) else none
  | 6 => if fld w 0 1 == 0 then some (.fmin (gridAt h w 15 2) (gridAt h w 8 1) (gridAt h w 1 0)) else none
  | 7 => if fld w 0 8 == 0 && hiBit h 0 == 0 then some (.fabs (gridAt h w 15 2) (gridAt h w 8 1)) else none
  | 8 => if fld w 0 8 == 0 && hiBit h 0 == 0 then some (.fneg (gridAt h w 15 2) (gridAt h w 8 1)) else none
  | 9 => (fpCCOf (fld w 19 3)).bind fun cc => some (.fcmp cc (pregAt w 15) (gridAt h w 8 2) (gridAt h w 1 1) (fld w 0 1 == 1))
  | 10 => if fld w 0 1 == 0 then some (.fsel (gridAt h w 15 2) (gridAt h w 8 1) (gridAt h w 1 0)) else none
  | 11 => if fld w 0 8 == 0 && hiBit h 0 == 0 then some (.frcp (gridAt h w 15 2) (gridAt h w 8 1)) else none
  | 12 => if fld w 0 8 == 0 && hiBit h 0 == 0 then some (.frsq (gridAt h w 15 2) (gridAt h w 8 1)) else none
  | 13 => if fld w 0 8 == 0 && hiBit h 0 == 0 then some (.fexp2 (gridAt h w 15 2) (gridAt h w 8 1)) else none
  | 16 => if fld w 0 1 == 0 then some (.vadd (gridAt h w 15 2) (gridAt h w 8 1) (gridAt h w 1 0)) else none
  | 17 => if fld w 0 1 == 0 then some (.vsub (gridAt h w 15 2) (gridAt h w 8 1) (gridAt h w 1 0)) else none
  | 18 => if fld w 0 1 == 0 then some (.vmul (gridAt h w 15 2) (gridAt h w 8 1) (gridAt h w 1 0)) else none
  | 19 => some (.vmulh (gridAt h w 15 2) (gridAt h w 8 1) (gridAt h w 1 0) (fld w 0 1 == 1))
  | 20 => if fld w 0 1 == 0 then some (.vand (gridAt h w 15 2) (gridAt h w 8 1) (gridAt h w 1 0)) else none
  | 21 => if fld w 0 1 == 0 then some (.vor (gridAt h w 15 2) (gridAt h w 8 1) (gridAt h w 1 0)) else none
  | 22 => if fld w 0 1 == 0 then some (.vxor (gridAt h w 15 2) (gridAt h w 8 1) (gridAt h w 1 0)) else none
  | 23 => if fld w 5 3 == 0 then some (.vshl (gridAt h w 15 2) (gridAt h w 8 1) (finAt 32 w 0)) else none
  | 24 => if fld w 5 3 == 0 then some (.vshr (gridAt h w 15 2) (gridAt h w 8 1) (finAt 32 w 0)) else none
  | 25 => if fld w 5 3 == 0 then some (.vsar (gridAt h w 15 2) (gridAt h w 8 1) (finAt 32 w 0)) else none
  | 26 => some (.vmin (gridAt h w 15 2) (gridAt h w 8 1) (gridAt h w 1 0) (fld w 0 1 == 1))
  | 27 => some (.vmax (gridAt h w 15 2) (gridAt h w 8 1) (gridAt h w 1 0) (fld w 0 1 == 1))
  | 28 => (intCCOf (fld w 19 3)).bind fun cc => some (.vcmp cc (pregAt w 15) (gridAt h w 8 2) (gridAt h w 1 1) (fld w 0 1 == 1))
  | 29 => if fld w 0 1 == 0 then some (.vsel (gridAt h w 15 2) (gridAt h w 8 1) (gridAt h w 1 0)) else none
  | 30 => if fld w 0 8 == 0 && hiBit h 0 == 0 then some (.vabs (gridAt h w 15 2) (gridAt h w 8 1)) else none
  | 31 => if fld w 6 2 == 0 then some (.vsat (gridAt h w 15 2) (gridAt h w 8 1) (fld w 5 1 == 1) (finAt 32 w 0)) else none
  | 32 => if fld w 7 1 == 0 && (cvtOk (gridAt h w 15 2) (fld w 0 4)) then some (.cvt (gridAt h w 15 2) (gridAt h w 8 1) (finAt 8 w 4) (finAt 16 w 0)) else none
  | 33 => some (.dqn (gridAt h w 15 2) (gridAt h w 8 1) (finAt 8 w 5) (finAt 32 w 0))
  | 34 => if fld w 0 2 == 0 && fld w 3 5 == 0 then some (.bmax (gridAt h w 15 2) (gridAt h w 8 1) (fld w 2 1 == 1)) else none
  | 35 => if (fld w 7 1 == 1 || (fld w 8 7 == 0 && hiBit h 1 == 0 && fld w 2 1 == 0)) then (mxOf (fld w 0 2)).bind fun f => some (.scsel (gridAt h w 15 2) (gridAt h w 8 1) (fld w 7 1 == 1) (finAt 16 w 3) (fld w 2 1 == 1) f) else none
  | 36 => if fld w 4 4 == 0 && (fld w 0 4 != 12) then some (.tag (gridAt h w 15 2) (gridAt h w 8 1) (finAt 16 w 0)) else none
  | 37 => if fld w 0 1 == 0 then some (.vperm (gridAt h w 15 2) (gridAt h w 8 1) (gridAt h w 1 0)) else none
  | 38 => if fld w 6 2 == 0 then some (.vrot (gridAt h w 15 2) (gridAt h w 8 1) (finAt 64 w 0)) else none
  | 39 => if fld w 4 6 == 0 && (fld w 0 4 != 12) then some (.vbcst (gridAt h w 15 2) (sregAt w 10) (finAt 16 w 0)) else none
  | 40 => if fld w 0 8 == 0 && hiBit h 0 == 0 then some (.vmov (gridAt h w 15 2) (gridAt h w 8 1)) else none
  | 41 => if fld w 3 5 == 0 then (redOf (fld w 0 3)).bind fun op => some (.vred op (gridAt h w 15 2) (gridAt h w 8 1)) else none
  | 42 => if fld w 3 12 == 0 && hiBit h 1 == 0 then some (.qpop (gridAt h w 15 2) (finAt 8 w 0)) else none
  | 43 => if fld w 3 5 == 0 && (spOk (fld w 0 3)) then some (.spk (gridAt h w 15 2) (gridAt h w 8 1) (finAt 8 w 0)) else none
  | 44 => if fld w 3 5 == 0 && (spOk (fld w 0 3)) then some (.spx (gridAt h w 15 2) (gridAt h w 8 1) (finAt 8 w 0)) else none
  | _ => none

/-- The memory class (class code 4): opcode map and formats of the spec. -/
def decodeMemory (h : SlotHdr) (w : Nat) : Option Instr :=
  match fld w 22 6 with
  | 0 => (sizeOf (fld w 10 2)).bind fun sz => some (.lds sz (sregAt w 17) (sregAt w 12) (immS h w 10))
  | 1 => (sizeOf (fld w 10 2)).bind fun sz => some (.sts sz (sregAt w 17) (sregAt w 12) (immS h w 10))
  | 2 => some (.ldv (gridAt h w 15 2) (sregAt w 10) (immS h w 10))
  | 3 => some (.stv (gridAt h w 15 2) (sregAt w 10) (immS h w 10))
  | 4 => if fld w 20 2 == 0 then some (.ldtt (gridIdx h w 15 2) (sregAt w 10) (immS h w 10)) else none
  | 5 => some (.stbp (gridAt h w 15 2) (sregAt w 10) (immS h w 10))
  | 6 => some (.ldbp (gridAt h w 15 2) (sregAt w 10) (immS h w 10))
  | 8 => if fld w 0 8 == 0 && fld w 12 5 == 0 then some (.hset (finAt 16 w 8) (sregAt w 17)) else none
  | 9 => if fld w 0 8 == 0 && fld w 12 5 == 0 then some (.hget (finAt 16 w 8) (sregAt w 17)) else none
  | 10 => if fld w 0 22 == 0 then some .spfence else none
  | 11 => if fld w 0 8 == 0 then some (.bufacq (finAt 16 w 8) (sregAt w 17) (sregAt w 12)) else none
  | 12 => if fld w 0 4 == 0 && fld w 12 5 == 0 && (fld w 17 5 == 0 || fld w 4 4 == 0) then some (.bufpub (finAt 16 w 8) (sregAt w 17) (finAt 16 w 4)) else none
  | 13 => if fld w 0 8 == 0 then some (.buftake (finAt 16 w 8) (sregAt w 17) (sregAt w 12)) else none
  | 14 => if fld w 0 4 == 0 && fld w 12 5 == 0 && (fld w 17 5 == 0 || fld w 4 4 == 0) then some (.buffree (finAt 16 w 8) (sregAt w 17) (finAt 16 w 4)) else none
  | 15 => if fld w 0 8 == 0 && fld w 12 5 == 0 then some (.bufq (finAt 16 w 8) (sregAt w 17)) else none
  | 16 => if fld w 0 8 == 0 && fld w 12 5 == 0 then some (.mapw (finAt 16 w 8) (sregAt w 17)) else none
  | 17 => if fld w 0 8 == 0 && fld w 12 10 == 0 then some (.mapf (finAt 16 w 8)) else none
  | 18 => if fld w 0 8 == 0 && fld w 12 10 == 0 then some (.mapi (finAt 16 w 8)) else if fld w 0 8 == 16 && fld w 12 10 == 0 then some (.mapiDiscard (finAt 16 w 8)) else none
  | 19 => if fld w 0 8 == 0 && fld w 11 6 == 0 then some (.qst (finAt 8 w 8) (sregAt w 17)) else if fld w 0 8 == 16 && fld w 11 6 == 0 then some (.qstHalf (finAt 8 w 8) (sregAt w 17)) else none
  | 24 => if fld w 0 1 == 0 then (ordOf (fld w 10 2)).bind fun o => (scopeOf (fld w 7 3)).bind fun sc => some (.aadd (sregAt w 17) (sregAt w 12) o sc (finAt 32 w 2) (fld w 1 1 == 1)) else none
  | 25 => if fld w 0 1 == 0 then (ordOf (fld w 10 2)).bind fun o => (scopeOf (fld w 7 3)).bind fun sc => some (.aand (sregAt w 17) (sregAt w 12) o sc (finAt 32 w 2) (fld w 1 1 == 1)) else none
  | 26 => if fld w 0 1 == 0 then (ordOf (fld w 10 2)).bind fun o => (scopeOf (fld w 7 3)).bind fun sc => some (.aor (sregAt w 17) (sregAt w 12) o sc (finAt 32 w 2) (fld w 1 1 == 1)) else none
  | 27 => (ordOf (fld w 10 2)).bind fun o => (scopeOf (fld w 7 3)).bind fun sc => some (.amin (sregAt w 17) (sregAt w 12) o sc (finAt 32 w 2) (fld w 1 1 == 1) (fld w 0 1 == 1))
  | 28 => (ordOf (fld w 10 2)).bind fun o => (scopeOf (fld w 7 3)).bind fun sc => some (.amax (sregAt w 17) (sregAt w 12) o sc (finAt 32 w 2) (fld w 1 1 == 1) (fld w 0 1 == 1))
  | 29 => if fld w 0 1 == 0 then (ordOf (fld w 10 2)).bind fun o => (scopeOf (fld w 7 3)).bind fun sc => some (.axch (sregAt w 17) (sregAt w 12) o sc (finAt 32 w 2) (fld w 1 1 == 1)) else none
  | 30 => if fld w 0 1 == 0 && (fld w 17 5 != 31) then (ordOf (fld w 10 2)).bind fun o => (scopeOf (fld w 7 3)).bind fun sc => some (.acas (sregAt w 17) (sregAt w 12) o sc (finAt 32 w 2) (fld w 1 1 == 1)) else none
  | 31 => if fld w 0 1 == 0 then (ordOf (fld w 10 2)).bind fun o => (scopeOf (fld w 7 3)).bind fun sc => some (.adecp (sregAt w 17) (sregAt w 12) o sc (finAt 32 w 2) (fld w 1 1 == 1)) else none
  | 32 => if fld w 0 4 == 0 && fld w 5 3 == 0 then some (.waita (sregAt w 17) (sregAt w 12) (pregAt w 8) (fld w 4 1 == 1)) else none
  | 33 => if fld w 0 12 == 0 then some (.wake1 (sregAt w 17) (sregAt w 12)) else none
  | 34 => if fld w 0 12 == 0 then some (.wakea (sregAt w 17) (sregAt w 12)) else none
  | _ => none

/-- The matrix class (class code 5): opcode map and formats of the spec. -/
def decodeMatrix (h : SlotHdr) (w : Nat) : Option Instr :=
  match fld w 24 4 with
  | 0 => if fld w 0 24 == 0 then some .mhold else none
  | 1 => if fld w 0 20 == 0 then some (.mpush (finAt 16 w 20)) else none
  | 2 => if fld w 0 16 == 0 then some (.mpushS (finAt 16 w 20) (finAt 16 w 16)) else none
  | 3 => if fld w 0 20 == 0 then some (.mpushC (finAt 16 w 20)) else none
  | 4 => if fld w 0 16 == 0 then some (.mpushSC (finAt 16 w 20) (finAt 16 w 16)) else none
  | 5 => if fld w 0 16 == 0 && fld w 20 4 == 0 then some (.mshift (finAt 16 w 16)) else none
  | 6 => if fld w 0 24 == 0 then some .macc else none
  | 7 => if fld w 0 9 == 0 && fld w 10 14 == 0 then some (.maccR (finAt 2 w 9)) else none
  | 8 => if fld w 0 10 == 0 then (drainOf (fld w 11 4)).bind fun f => some (.mdrain (finAt 64 w 18) (finAt 8 w 15) f (fld w 10 1 == 1)) else none
  | 9 => if fld w 0 24 == 0 then some .mzero else none
  | 10 => some (.msetFloat (finAt 4096 w 12) (finAt 4096 w 0))
  | 11 => some (.msetInt (finAt 4096 w 12) (finAt 4096 w 0))
  | 12 => if fld w 0 16 == 0 && fld w 20 4 == 0 then some (.msparse (finAt 16 w 16)) else none
  | 13 => if fld w 0 9 == 0 && fld w 12 1 == 0 then some (.mremQueue (finAt 16 w 20) (finAt 64 w 14) (finAt 2 w 13) (finAt 8 w 9)) else if fld w 0 12 == 0 && fld w 12 1 == 1 then some (.mremAcc (finAt 16 w 20) (finAt 64 w 14) (finAt 2 w 13)) else none
  | 14 => if fld w 0 9 == 0 && fld w 10 5 == 0 && fld w 18 6 == 0 then some (.mskew (finAt 8 w 15) (finAt 2 w 9)) else none
  | 15 => if fld w 0 7 == 0 then (mxOf (fld w 8 2)).bind fun f => some (.qnt (gridAt h w 17 2) (gridAt h w 10 1) f (fld w 7 1 == 1)) else none
  | _ => none

/-- The engine class (class code 6): opcode map and formats of the spec. -/
def decodeEngine (_ : SlotHdr) (w : Nat) : Option Instr :=
  match fld w 22 6 with
  | 0 => if fld w 0 2 == 0 && fld w 17 3 == 0 then some (.cpbase (finAt 4 w 20) (sregAt w 12) (sregAt w 7) (sregAt w 2)) else none
  | 1 => if fld w 0 2 == 0 && (decide (fld w 17 3 < 6)) then some (.cpnest (finAt 4 w 20) (finAt 8 w 17) (sregAt w 12) (sregAt w 7) (sregAt w 2)) else none
  | 2 => if fld w 0 2 == 0 && fld w 12 5 == 0 && (decide (fld w 17 3 < 2)) then some (.cpfoot (finAt 4 w 20) (finAt 8 w 17) (sregAt w 7) (sregAt w 2)) else none
  | 3 => if fld w 0 20 == 0 then some (.cpgo (finAt 4 w 20)) else none
  | 4 => if fld w 0 20 == 0 then some (.cpdrain (finAt 4 w 20)) else none
  | 5 => if fld w 0 12 == 0 && fld w 17 3 == 0 then some (.cpstat (finAt 4 w 20) (sregAt w 12)) else none
  | 8 => if fld w 0 13 == 0 then some (.qsend (finAt 8 w 19) (finAt 64 w 13)) else none
  | 9 => if fld w 0 3 == 0 && fld w 8 5 == 0 && fld w 19 3 == 0 then some (.csend (finAt 64 w 13) (sregAt w 3)) else none
  | 10 => if fld w 0 3 == 0 && fld w 8 5 == 0 && fld w 19 3 == 0 then some (.crecv (finAt 64 w 13) (sregAt w 3)) else if fld w 0 3 == 1 && fld w 19 3 == 0 then some (.crecvT (finAt 64 w 13) (sregAt w 8) (sregAt w 3)) else none
  | 16 => if fld w 0 1 == 0 then some (.putc (finAt 64 w 16) (sregAt w 11) (sregAt w 6) (sregAt w 1)) else none
  | 17 => if fld w 0 1 == 0 then some (.gred (finAt 64 w 16) (sregAt w 11) (sregAt w 6) (sregAt w 1)) else none
  | 18 => if fld w 0 6 == 0 && fld w 16 6 == 0 then some (.gjoin (sregAt w 11) (sregAt w 6)) else none
  | 19 => if fld w 0 6 == 0 && fld w 16 6 == 0 then some (.gstat (sregAt w 11) (sregAt w 6)) else if fld w 0 11 == 1 && fld w 16 6 == 0 then some (.gstatErr (sregAt w 11)) else none
  | 24 => if fld w 0 14 == 0 then some (.pred (pregAt w 18) (finAt 16 w 14)) else none
  | 25 => if fld w 0 9 == 0 && fld w 14 8 == 0 then some (.pstat (sregAt w 9)) else none
  | 26 => if fld w 0 9 == 0 then some (.ringQuery (pregAt w 18) (finAt 16 w 14) (sregAt w 9)) else none
  | 27 => if fld w 0 9 == 0 then some (.spxStat (pregAt w 18) (finAt 16 w 14) (sregAt w 9)) else none
  | 32 => if fld w 0 4 == 0 && fld w 14 4 == 0 then some (.probe (pregAt w 18) (sregAt w 9) (sregAt w 4)) else none
  | 33 => if fld w 0 4 == 0 && fld w 14 4 == 0 then some (.leaseq (pregAt w 18) (sregAt w 9) (sregAt w 4)) else none
  | 40 => if fld w 0 4 == 0 && fld w 9 5 == 0 && fld w 18 4 == 0 then some (.mbxs (finAt 16 w 14) (sregAt w 4)) else none
  | 41 => if fld w 0 9 == 0 && fld w 14 8 == 0 then some (.mbxr (sregAt w 9)) else if fld w 0 9 == 1 && fld w 14 4 == 0 then some (.mbxrT (pregAt w 18) (sregAt w 9)) else none
  | _ => none

/-- The class of a slot word (R174, R175). -/
def clsOf (w : Nat) : Nat := fld w 28 3

/-- One slot word under what its header lends it; none is ILLEGAL_OPCODE (R190). Bit 31 is not read. -/
def decodeSlot (h : SlotHdr) (w : Nat) : Option Instr :=
  match clsOf w with
  | 1 => decodeControl h w
  | 2 => decodeScalar h w
  | 3 => decodeVector h w
  | 4 => decodeMemory h w
  | 5 => decodeMatrix h w
  | 6 => decodeEngine h w
  | _ => none

/-- The custom-0 words of a loader or storer core (R273). -/
def decodeVl (w : Nat) : Option Instr :=
  let rd := sregAt w 7
  let rs1 := sregAt w 15
  let rs2 := sregAt w 20
  let f7 := fld w 25 7
  if fld w 0 7 == 0x0B then
    match fld w 12 3 with
    | 0 =>
      match f7 with
      | 0 => if fld w 20 5 == 0 then some (.vlRacq rd rs1) else none
      | 1 => if fld w 20 5 == 0 then some (.vlRtake rd rs1) else none
      | 2 => if fld w 7 5 == 0 then some (.vlRpub rs1 rs2) else none
      | 3 => if fld w 7 5 == 0 then some (.vlRfree rs1 rs2) else none
      | 4 => if fld w 20 5 == 0 then some (.vlRq rd rs1) else none
      | _ => none
    | 1 => if fld w 7 5 == 0 && fld w 20 5 == 0 then some (.vlCpset rs1 (finAt 32 w 25) (finAt 4 w 30)) else none
    | 2 =>
      match f7 with
      | 0 => if fld w 7 5 == 0 && fld w 20 5 == 0 then some (.vlCpgo rs1) else none
      | 1 => if fld w 7 5 == 0 && fld w 20 5 == 0 then some (.vlCpdrain rs1) else none
      | _ => none
    | 3 =>
      match f7 with
      | 0 => if fld w 7 5 == 0 then some (.vlMbxs rs1 rs2) else none
      | 1 => if fld w 15 10 == 0 then some (.vlMbxr rd) else none
      | 2 => if fld w 15 10 == 0 then some (.vlMbxt rd) else none
      | _ => none
    | _ => none
  else none

/-- Whether a word at byte address a is a block descriptor's first word (R186). -/
def isDescriptor (a w : Nat) : Bool := a % 64 == 0 && fld w 24 8 == 0x7A

/-- Why a bundle does not decode, in the order of R189. -/
inductive Reject where
  | packetCross | illegalSlot | bundleForm | headerMisuse | illegalOpcode
  deriving DecidableEq, Repr, Inhabited

/-- The grid fields of a slot's format as a mask of HI bits, and whether it has an IMM field; an undefined opcode
has neither (R182, R192-R197). -/
def formatOf (w : Nat) : Nat × Bool :=
  let op := fld w 22 6
  match clsOf w with
  | 1 => (0, decide (op ≤ 8) || op == 0x15)
  | 2 => (0, decide (0x20 ≤ op) && decide (op ≤ 0x28))
  | 3 =>
    if op == 9 || op == 28 then (6, false)
    else if op == 39 then (4, false)
    else if decide (op ≤ 0x2C) && op != 0x0E && op != 0x0F then
      (if decide (23 ≤ op) && decide (op ≤ 25) || op == 31 || decide (32 ≤ op) && decide (op ≤ 36) || op == 38 || decide (41 ≤ op)
        then 6 else 7, false)
    else (0, false)
  | 4 => if decide (op ≤ 1) then (0, true) else if decide (op ≤ 6) then (4, true) else (0, false)
  | 5 => if fld w 24 4 == 15 then (6, false) else (0, false)
  | _ => (0, false)

/-- A decoded bundle: how many words it takes, whether it is a pad, the rounding override, and its slots in ascending
class order, each with its guard (R176-R181). -/
structure Bundle where
  words : Nat
  pad : Bool
  rnd : Nat
  slots : List (PReg × Instr)
  deriving DecidableEq, Repr, Inhabited

/-- The number of words of the bundle at byte address a, or none for PACKET_CROSS (R176). -/
def extent (rd : Nat → Nat) (a : Nat) : Nat → Nat → Option Nat
  | 0, n => some n
  | fuel + 1, n =>
    let x := a + 4 * n
    if isDescriptor x (rd x) || fld (rd x) 31 1 == 1 then some n
    else if x % 32 == 0 then none
    else extent rd a fuel (n + 1)

/-- Whether each class code is above the one before it (R176). -/
def ascending : List Nat → Bool
  | [] => true
  | [_] => true
  | a :: b :: l => decide (clsOf a < clsOf b) && ascending (b :: l)

/-- Whether the words from byte address a to the end of its packet are headers that stand alone (R177). -/
def restIsPads (rd : Nat → Nat) (a : Nat) : Nat → Bool
  | 0 => true
  | fuel + 1 =>
    if a % 32 == 0 then true
    else clsOf (rd a) == 0 && fld (rd a) 31 1 == 1 && restIsPads rd (a + 4) fuel

/-- The header checks of R182 over the lanes, lane 1 first, with the guards and HI bits of a register-mode header. -/
def lanesOk (hdr : Nat) (lanes : List Nat) : Bool :=
  let lane := fun (n glo hlo : Nat) =>
    match lanes[n]? with
    | none => fld hdr glo 4 == 0 && fld hdr hlo 3 == 0
    | some w => (fld hdr hlo 3) &&& (7 - (formatOf w).1) == 0
  fld hdr 0 3 == 0 && fld hdr 24 3 != 7 && lane 0 20 9 && lane 1 16 6 && lane 2 12 3

/-- The slots of a bundle without a header, or under an immediate-mode header whose EXT has not been used yet (R181). -/
def decodeLanes : Option Nat → List Nat → Option (List (PReg × Instr))
  | _, [] => some []
  | ext, w :: l =>
    let takes := (formatOf w).2
    (decodeSlot ⟨if takes then ext else none, 0⟩ w).bind fun i =>
      (decodeLanes (if takes then none else ext) l).map fun r => (0, i) :: r

/-- The slots under a register-mode header (R180). -/
def decodeGuarded (hdr : Nat) : Nat → List Nat → Option (List (PReg × Instr))
  | _, [] => some []
  | n, w :: l =>
    (decodeSlot ⟨none, fld hdr (9 - 3 * n) 3⟩ w).bind fun i =>
      (decodeGuarded hdr (n + 1) l).map fun r => (pregAt hdr (20 - 4 * n), i) :: r

/-- The bundle whose first word stands at byte address a, read through rd, in the order of R189 up to check 5. -/
def decodeBundle (rd : Nat → Nat) (a : Nat) : Except Reject Bundle :=
  match extent rd a 8 1 with
  | none => .error .packetCross
  | some n =>
    let ws := (List.range n).map fun k => rd (a + 4 * k)
    if ws.any (fun w => clsOf w == 7 || w == 0) then .error .illegalSlot
    else if decide (4 < n) || !ascending ws then .error .bundleForm
    else
      match ws with
      | [] => .error .bundleForm
      | hdr :: lanes =>
        if clsOf hdr != 0 then
          match decodeLanes none ws with
          | none => .error .illegalOpcode
          | some sl => .ok ⟨n, false, 0, sl⟩
        else if lanes.isEmpty then
          if restIsPads rd (a + 4) 8 then .ok ⟨n, true, 0, []⟩ else .error .bundleForm
        else if fld hdr 27 1 == 1 then
          if lanes.any (fun w => (formatOf w).2) then
            match decodeLanes (some (fld hdr 0 27)) lanes with
            | none => .error .illegalOpcode
            | some sl => .ok ⟨n, false, 0, sl⟩
          else .error .headerMisuse
        else if lanesOk hdr lanes then
          match decodeGuarded hdr 0 lanes with
          | none => .error .illegalOpcode
          | some sl => .ok ⟨n, false, fld hdr 24 3, sl⟩
        else .error .headerMisuse

/-- The first byte address after a pad at a: the next packet (R177). -/
def afterPad (a : Nat) : Nat := (a / 32 + 1) * 32

/-- What a block descriptor holds (R185). -/
structure Descriptor where
  cycles : Nat
  mig : Bool
  spec : Bool
  lintel : Bool
  waits : List (SemNo × Nat)
  deriving DecidableEq, Repr, Inhabited

/-- The descriptor whose four words are w0 to w3, or none where a reserved bit is set (R185, R186). -/
def decodeDescriptor (w0 w1 w2 w3 : Nat) : Option Descriptor :=
  let v := w0 + 2 ^ 32 * (w1 + 2 ^ 32 * (w2 + 2 ^ 32 * w3))
  if fld v 78 50 == 0 && fld v 60 4 == 0 && fld v 19 5 == 0 && fld v 24 8 == 0x7A then
    some {
      cycles := fld v 0 16, mig := fld v 16 1 == 1, spec := fld v 17 1 == 1, lintel := fld v 18 1 == 1,
      waits := [(finAt 64 v 40, fld v 32 8), (finAt 64 v 54, fld v 46 8), (finAt 64 v 72, fld v 64 8)].filter
        fun p => p.2 != 0 }
  else none

/-- The instruction of one word numbered as the opcode table numbers it: a custom-0 word of a loader or storer core
where its slot class would be a header's, else a slot word without a header. -/
def decodeTableWord (nbits w : Nat) : Option Instr :=
  if nbits == 32 then
    if clsOf w == 0 then decodeVl w
    else
      match decodeSlot .plain w with
      | some i => some i
      | none => decodeVl w
  else none

/-- A grid operand's seven bits (R184). -/
def gridField (g : GridOp) : Nat := 32 * g.dir.code + g.idx.val % 32

/-- The IMM field of a signed immediate. -/
def immField (n : Nat) (i : Int) : Nat := (i % 2 ^ n).toNat

/-- The EXT field of a signed immediate that its IMM field does not hold. -/
def immExtS (n : Nat) (i : Int) : Option Nat :=
  if -(2 ^ (n - 1)) ≤ i ∧ i < 2 ^ (n - 1) then none else some ((i / 2 ^ n) % 2 ^ 27).toNat

/-- The EXT field of an unsigned immediate that its IMM field does not hold. -/
def immExtU (n : Nat) (i : Nat) : Option Nat := if i < 2 ^ n then none else some (i / 2 ^ n % 2 ^ 27)

/-- The EXT field of CMPI's immediate (R220). -/
def immExtC (cc : IntCC) (n : Nat) (i : Int) : Option Nat :=
  match cc with
  | .ltu | .geu => immExtU n i.toNat
  | .eq | .ne | .lt | .ge => immExtS n i

/-- The word of a custom-0 instruction (R273). -/
def vlWord (f3 f7 rd rs1 rs2 : Nat) : Nat :=
  0x0B + rd * 2 ^ 7 + f3 * 2 ^ 12 + rs1 * 2 ^ 15 + rs2 * 2 ^ 20 + f7 * 2 ^ 25

/-- The word of a loader or storer instruction (R273). -/
def encodeVl (i : Instr) : Option Nat :=
  match i with
  | .vlRacq rd rs1 => some (vlWord 0 0 rd.val rs1.val 0)
  | .vlRtake rd rs1 => some (vlWord 0 1 rd.val rs1.val 0)
  | .vlRpub rs1 rs2 => some (vlWord 0 2 0 rs1.val rs2.val)
  | .vlRfree rs1 rs2 => some (vlWord 0 3 0 rs1.val rs2.val)
  | .vlRq rd rs1 => some (vlWord 0 4 rd.val rs1.val 0)
  | .vlCpset rs1 k ch => some (vlWord 1 (ch.val * 32 + k.val) 0 rs1.val 0)
  | .vlCpgo rs1 => some (vlWord 2 0 0 rs1.val 0)
  | .vlCpdrain rs1 => some (vlWord 2 1 0 rs1.val 0)
  | .vlMbxs rs1 rs2 => some (vlWord 3 0 0 rs1.val rs2.val)
  | .vlMbxr rd => some (vlWord 3 1 rd.val 0 0)
  | .vlMbxt rd => some (vlWord 3 2 rd.val 0 0)
  | _ => none

/-- Fields put at their places. -/
def bits : List (Nat × Nat) → Nat
  | [] => 0
  | (v, lo) :: l => v * 2 ^ lo + bits l

/-- What a header must lend a control slot, and its word without bit 31. -/
def encodeControl (i : Instr) : Option (SlotHdr × Nat) :=
  match i with
  | .brp p imm => some (⟨(immExtS 13 imm), 0⟩, bits [(1, 28), (0, 22), (p.val, 13), (immField 13 imm, 0)])
  | .brnp p imm => some (⟨(immExtS 13 imm), 0⟩, bits [(1, 28), (1, 22), (p.val, 13), (immField 13 imm, 0)])
  | .jmpWord imm => some (⟨(immExtS 13 imm), 0⟩, bits [(1, 28), (2, 22), (immField 13 imm, 0)])
  | .jmpBlock imm => some (⟨(immExtS 13 imm), 0⟩, bits [(1, 28), (3, 22), (immField 13 imm, 0)])
  | .jmpi a imm => some (⟨(immExtS 13 imm), 0⟩, bits [(1, 28), (4, 22), (a.val, 17), (immField 13 imm, 0)])
  | .jmpiB a => some (⟨none, 0⟩, bits [(1, 28), (4, 22), (a.val, 17), (1, 13)])
  | .callb l imm => some (⟨(immExtS 13 imm), 0⟩, bits [(1, 28), (5, 22), (l.val, 17), (immField 13 imm, 0)])
  | .retb a => some (⟨none, 0⟩, bits [(1, 28), (6, 22), (a.val, 17)])
  | .loopb imm => some (⟨(immExtS 13 imm), 0⟩, bits [(1, 28), (7, 22), (immField 13 imm, 0)])
  | .lsetPass a imm => some (⟨(immExtS 13 imm), 0⟩, bits [(1, 28), (8, 22), (a.val, 17), (immField 13 imm, 0)])
  | .lsetFeed a imm => some (⟨(immExtS 13 imm), 0⟩, bits [(1, 28), (8, 22), (a.val, 17), (immField 13 imm, 0), (1, 13)])
  | .lsetRrb imm => some (⟨(immExtU 13 imm), 0⟩, bits [(1, 28), (8, 22), (imm % 2 ^ 13, 0), (2, 13)])
  | .lsetStg imm => some (⟨(immExtU 13 imm), 0⟩, bits [(1, 28), (8, 22), (imm % 2 ^ 13, 0), (3, 13)])
  | .wait ld st cp tl => some (⟨none, 0⟩, bits [(1, 28), (9, 22), (ld.val, 17), (st.val, 12), (cp.val, 7), (tl.val, 2)])
  | .semw k cnt a => some (⟨none, 0⟩, bits [(1, 28), (10, 22), (k.val, 16), (cnt.val, 8), (a.val, 3)])
  | .sems k cnt a => some (⟨none, 0⟩, bits [(1, 28), (11, 22), (k.val, 16), (cnt.val, 8), (a.val, 3)])
  | .semt k cnt d => some (⟨none, 0⟩, bits [(1, 28), (12, 22), (k.val, 16), (cnt.val, 8), (d.val, 3)])
  | .bara => some (⟨none, 0⟩, bits [(1, 28), (13, 22)])
  | .barw => some (⟨none, 0⟩, bits [(1, 28), (14, 22)])
  | .barr => some (⟨none, 0⟩, bits [(1, 28), (15, 22)])
  | .phase sc m => some (⟨none, 0⟩, bits [(1, 28), (16, 22), (sc.code, 19), (m.val, 14)])
  | .fence sc m => some (⟨none, 0⟩, bits [(1, 28), (17, 22), (sc.code, 19), (m.val, 14)])
  | .spawn d a b => some (⟨none, 0⟩, bits [(1, 28), (18, 22), (d.val, 17), (a.val, 12), (b.val, 7)])
  | .yield => some (⟨none, 0⟩, bits [(1, 28), (19, 22)])
  | .retire => some (⟨none, 0⟩, bits [(1, 28), (20, 22)])
  | .trap imm => some (⟨(immExtU 22 imm), 0⟩, bits [(1, 28), (21, 22), (imm % 2 ^ 22, 0)])
  | .pcommit => some (⟨none, 0⟩, bits [(1, 28), (22, 22)])
  | .csrr d csr => some (⟨none, 0⟩, bits [(1, 28), (56, 22), (d.val, 17), (csr.val, 0)])
  | .csrw d a csr => some (⟨none, 0⟩, bits [(1, 28), (57, 22), (d.val, 17), (a.val, 12), (csr.val, 0)])
  | .tret => some (⟨none, 0⟩, bits [(1, 28), (58, 22)])
  | .ctxs d a b => some (⟨none, 0⟩, bits [(1, 28), (59, 22), (d.val, 17), (a.val, 12), (b.val, 7)])
  | .ctxl d a b => some (⟨none, 0⟩, bits [(1, 28), (60, 22), (d.val, 17), (a.val, 12), (b.val, 7)])
  | _ => none

/-- What a header must lend a scalar slot, and its word without bit 31. -/
def encodeScalar (i : Instr) : Option (SlotHdr × Nat) :=
  match i with
  | .add d a b => some (⟨none, 0⟩, bits [(2, 28), (0, 22), (d.val, 17), (a.val, 12), (b.val, 7)])
  | .sub d a b => some (⟨none, 0⟩, bits [(2, 28), (1, 22), (d.val, 17), (a.val, 12), (b.val, 7)])
  | .mul d a b => some (⟨none, 0⟩, bits [(2, 28), (2, 22), (d.val, 17), (a.val, 12), (b.val, 7)])
  | .mulh d a b => some (⟨none, 0⟩, bits [(2, 28), (3, 22), (d.val, 17), (a.val, 12), (b.val, 7)])
  | .mulhu d a b => some (⟨none, 0⟩, bits [(2, 28), (4, 22), (d.val, 17), (a.val, 12), (b.val, 7)])
  | .and d a b => some (⟨none, 0⟩, bits [(2, 28), (5, 22), (d.val, 17), (a.val, 12), (b.val, 7)])
  | .or d a b => some (⟨none, 0⟩, bits [(2, 28), (6, 22), (d.val, 17), (a.val, 12), (b.val, 7)])
  | .xor d a b => some (⟨none, 0⟩, bits [(2, 28), (7, 22), (d.val, 17), (a.val, 12), (b.val, 7)])
  | .shl d a b => some (⟨none, 0⟩, bits [(2, 28), (8, 22), (d.val, 17), (a.val, 12), (b.val, 7)])
  | .shr d a b => some (⟨none, 0⟩, bits [(2, 28), (9, 22), (d.val, 17), (a.val, 12), (b.val, 7)])
  | .sar d a b => some (⟨none, 0⟩, bits [(2, 28), (10, 22), (d.val, 17), (a.val, 12), (b.val, 7)])
  | .min d a b => some (⟨none, 0⟩, bits [(2, 28), (11, 22), (d.val, 17), (a.val, 12), (b.val, 7)])
  | .max d a b => some (⟨none, 0⟩, bits [(2, 28), (12, 22), (d.val, 17), (a.val, 12), (b.val, 7)])
  | .minu d a b => some (⟨none, 0⟩, bits [(2, 28), (13, 22), (d.val, 17), (a.val, 12), (b.val, 7)])
  | .maxu d a b => some (⟨none, 0⟩, bits [(2, 28), (14, 22), (d.val, 17), (a.val, 12), (b.val, 7)])
  | .sel d a b n => some (⟨none, 0⟩, bits [(2, 28), (15, 22), (d.val, 17), (a.val, 12), (b.val, 7), (n.val, 0)])
  | .clz d a => some (⟨none, 0⟩, bits [(2, 28), (16, 22), (d.val, 17), (a.val, 12)])
  | .popc d a => some (⟨none, 0⟩, bits [(2, 28), (17, 22), (d.val, 17), (a.val, 12)])
  | .lea d a b k n => some (⟨none, 0⟩, bits [(2, 28), (18, 22), (d.val, 17), (a.val, 12), (b.val, 7), (k.val, 4), (n.val, 0)])
  | .cmp cc p a b => some (⟨none, 0⟩, bits [(2, 28), (19, 22), (cc.code, 19), (p.val, 15), (a.val, 10), (b.val, 5)])
  | .addi d a imm => some (⟨(immExtS 12 imm), 0⟩, bits [(2, 28), (32, 22), (d.val, 17), (a.val, 12), (immField 12 imm, 0)])
  | .andi d a imm => some (⟨(immExtS 12 imm), 0⟩, bits [(2, 28), (33, 22), (d.val, 17), (a.val, 12), (immField 12 imm, 0)])
  | .ori d a imm => some (⟨(immExtU 12 imm), 0⟩, bits [(2, 28), (34, 22), (d.val, 17), (a.val, 12), (imm % 2 ^ 12, 0)])
  | .xori d a imm => some (⟨(immExtU 12 imm), 0⟩, bits [(2, 28), (35, 22), (d.val, 17), (a.val, 12), (imm % 2 ^ 12, 0)])
  | .shli d a imm => some (⟨(immExtU 12 imm), 0⟩, bits [(2, 28), (36, 22), (d.val, 17), (a.val, 12), (imm % 2 ^ 12, 0)])
  | .shri d a imm => some (⟨(immExtU 12 imm), 0⟩, bits [(2, 28), (37, 22), (d.val, 17), (a.val, 12), (imm % 2 ^ 12, 0)])
  | .sari d a imm => some (⟨(immExtU 12 imm), 0⟩, bits [(2, 28), (38, 22), (d.val, 17), (a.val, 12), (imm % 2 ^ 12, 0)])
  | .cmpi cc p a imm => some (⟨(immExtC cc 10 imm), 0⟩, bits [(2, 28), (39, 22), (cc.code, 19), (p.val, 15), (a.val, 10), (immField 10 imm, 0)])
  | .li d imm => some (⟨(immExtS 17 imm), 0⟩, bits [(2, 28), (40, 22), (d.val, 17), (immField 17 imm, 0)])
  | .pand d a b => some (⟨none, 0⟩, bits [(2, 28), (48, 22), (d.val, 18), (a.val, 14), (b.val, 10)])
  | .por d a b => some (⟨none, 0⟩, bits [(2, 28), (49, 22), (d.val, 18), (a.val, 14), (b.val, 10)])
  | .pnot d a => some (⟨none, 0⟩, bits [(2, 28), (50, 22), (d.val, 18), (a.val, 14)])
  | .pmov d a => some (⟨none, 0⟩, bits [(2, 28), (51, 22), (d.val, 18), (a.val, 14)])
  | _ => none

/-- What a header must lend a vector slot, and its word without bit 31. -/
def encodeVector (i : Instr) : Option (SlotHdr × Nat) :=
  match i with
  | .fadd d a b => some (⟨none, bits [(d.idx.val / 32, 2), (a.idx.val / 32, 1), (b.idx.val / 32, 0)]⟩, bits [(3, 28), (0, 22), (gridField d, 15), (gridField a, 8), (gridField b, 1)])
  | .fsub d a b => some (⟨none, bits [(d.idx.val / 32, 2), (a.idx.val / 32, 1), (b.idx.val / 32, 0)]⟩, bits [(3, 28), (1, 22), (gridField d, 15), (gridField a, 8), (gridField b, 1)])
  | .fmul d a b => some (⟨none, bits [(d.idx.val / 32, 2), (a.idx.val / 32, 1), (b.idx.val / 32, 0)]⟩, bits [(3, 28), (2, 22), (gridField d, 15), (gridField a, 8), (gridField b, 1)])
  | .fma d a b => some (⟨none, bits [(d.idx.val / 32, 2), (a.idx.val / 32, 1), (b.idx.val / 32, 0)]⟩, bits [(3, 28), (3, 22), (gridField d, 15), (gridField a, 8), (gridField b, 1)])
  | .fnma d a b => some (⟨none, bits [(d.idx.val / 32, 2), (a.idx.val / 32, 1), (b.idx.val / 32, 0)]⟩, bits [(3, 28), (4, 22), (gridField d, 15), (gridField a, 8), (gridField b, 1)])
  | .fmax d a b => some (⟨none, bits [(d.idx.val / 32, 2), (a.idx.val / 32, 1), (b.idx.val / 32, 0)]⟩, bits [(3, 28), (5, 22), (gridField d, 15), (gridField a, 8), (gridField b, 1)])
  | .fmin d a b => some (⟨none, bits [(d.idx.val / 32, 2), (a.idx.val / 32, 1), (b.idx.val / 32, 0)]⟩, bits [(3, 28), (6, 22), (gridField d, 15), (gridField a, 8), (gridField b, 1)])
  | .fabs d a => some (⟨none, bits [(d.idx.val / 32, 2), (a.idx.val / 32, 1)]⟩, bits [(3, 28), (7, 22), (gridField d, 15), (gridField a, 8)])
  | .fneg d a => some (⟨none, bits [(d.idx.val / 32, 2), (a.idx.val / 32, 1)]⟩, bits [(3, 28), (8, 22), (gridField d, 15), (gridField a, 8)])
  | .fcmp cc p a b all => some (⟨none, bits [(a.idx.val / 32, 2), (b.idx.val / 32, 1)]⟩, bits [(3, 28), (9, 22), (cc.code, 19), (p.val, 15), (gridField a, 8), (gridField b, 1), (all.toNat, 0)])
  | .fsel d a b => some (⟨none, bits [(d.idx.val / 32, 2), (a.idx.val / 32, 1), (b.idx.val / 32, 0)]⟩, bits [(3, 28), (10, 22), (gridField d, 15), (gridField a, 8), (gridField b, 1)])
  | .frcp d a => some (⟨none, bits [(d.idx.val / 32, 2), (a.idx.val / 32, 1)]⟩, bits [(3, 28), (11, 22), (gridField d, 15), (gridField a, 8)])
  | .frsq d a => some (⟨none, bits [(d.idx.val / 32, 2), (a.idx.val / 32, 1)]⟩, bits [(3, 28), (12, 22), (gridField d, 15), (gridField a, 8)])
  | .fexp2 d a => some (⟨none, bits [(d.idx.val / 32, 2), (a.idx.val / 32, 1)]⟩, bits [(3, 28), (13, 22), (gridField d, 15), (gridField a, 8)])
  | .vadd d a b => some (⟨none, bits [(d.idx.val / 32, 2), (a.idx.val / 32, 1), (b.idx.val / 32, 0)]⟩, bits [(3, 28), (16, 22), (gridField d, 15), (gridField a, 8), (gridField b, 1)])
  | .vsub d a b => some (⟨none, bits [(d.idx.val / 32, 2), (a.idx.val / 32, 1), (b.idx.val / 32, 0)]⟩, bits [(3, 28), (17, 22), (gridField d, 15), (gridField a, 8), (gridField b, 1)])
  | .vmul d a b => some (⟨none, bits [(d.idx.val / 32, 2), (a.idx.val / 32, 1), (b.idx.val / 32, 0)]⟩, bits [(3, 28), (18, 22), (gridField d, 15), (gridField a, 8), (gridField b, 1)])
  | .vmulh d a b u => some (⟨none, bits [(d.idx.val / 32, 2), (a.idx.val / 32, 1), (b.idx.val / 32, 0)]⟩, bits [(3, 28), (19, 22), (gridField d, 15), (gridField a, 8), (gridField b, 1), (u.toNat, 0)])
  | .vand d a b => some (⟨none, bits [(d.idx.val / 32, 2), (a.idx.val / 32, 1), (b.idx.val / 32, 0)]⟩, bits [(3, 28), (20, 22), (gridField d, 15), (gridField a, 8), (gridField b, 1)])
  | .vor d a b => some (⟨none, bits [(d.idx.val / 32, 2), (a.idx.val / 32, 1), (b.idx.val / 32, 0)]⟩, bits [(3, 28), (21, 22), (gridField d, 15), (gridField a, 8), (gridField b, 1)])
  | .vxor d a b => some (⟨none, bits [(d.idx.val / 32, 2), (a.idx.val / 32, 1), (b.idx.val / 32, 0)]⟩, bits [(3, 28), (22, 22), (gridField d, 15), (gridField a, 8), (gridField b, 1)])
  | .vshl d a n => some (⟨none, bits [(d.idx.val / 32, 2), (a.idx.val / 32, 1)]⟩, bits [(3, 28), (23, 22), (gridField d, 15), (gridField a, 8), (n.val, 0)])
  | .vshr d a n => some (⟨none, bits [(d.idx.val / 32, 2), (a.idx.val / 32, 1)]⟩, bits [(3, 28), (24, 22), (gridField d, 15), (gridField a, 8), (n.val, 0)])
  | .vsar d a n => some (⟨none, bits [(d.idx.val / 32, 2), (a.idx.val / 32, 1)]⟩, bits [(3, 28), (25, 22), (gridField d, 15), (gridField a, 8), (n.val, 0)])
  | .vmin d a b u => some (⟨none, bits [(d.idx.val / 32, 2), (a.idx.val / 32, 1), (b.idx.val / 32, 0)]⟩, bits [(3, 28), (26, 22), (gridField d, 15), (gridField a, 8), (gridField b, 1), (u.toNat, 0)])
  | .vmax d a b u => some (⟨none, bits [(d.idx.val / 32, 2), (a.idx.val / 32, 1), (b.idx.val / 32, 0)]⟩, bits [(3, 28), (27, 22), (gridField d, 15), (gridField a, 8), (gridField b, 1), (u.toNat, 0)])
  | .vcmp cc p a b all => some (⟨none, bits [(a.idx.val / 32, 2), (b.idx.val / 32, 1)]⟩, bits [(3, 28), (28, 22), (cc.code, 19), (p.val, 15), (gridField a, 8), (gridField b, 1), (all.toNat, 0)])
  | .vsel d a b => some (⟨none, bits [(d.idx.val / 32, 2), (a.idx.val / 32, 1), (b.idx.val / 32, 0)]⟩, bits [(3, 28), (29, 22), (gridField d, 15), (gridField a, 8), (gridField b, 1)])
  | .vabs d a => some (⟨none, bits [(d.idx.val / 32, 2), (a.idx.val / 32, 1)]⟩, bits [(3, 28), (30, 22), (gridField d, 15), (gridField a, 8)])
  | .vsat d a u wd => some (⟨none, bits [(d.idx.val / 32, 2), (a.idx.val / 32, 1)]⟩, bits [(3, 28), (31, 22), (gridField d, 15), (gridField a, 8), (u.toNat, 5), (wd.val, 0)])
  | .cvt d a p t => some (⟨none, bits [(d.idx.val / 32, 2), (a.idx.val / 32, 1)]⟩, bits [(3, 28), (32, 22), (gridField d, 15), (gridField a, 8), (p.val, 4), (t.val, 0)])
  | .dqn d a p k => some (⟨none, bits [(d.idx.val / 32, 2), (a.idx.val / 32, 1)]⟩, bits [(3, 28), (33, 22), (gridField d, 15), (gridField a, 8), (p.val, 5), (k.val, 0)])
  | .bmax d a b => some (⟨none, bits [(d.idx.val / 32, 2), (a.idx.val / 32, 1)]⟩, bits [(3, 28), (34, 22), (gridField d, 15), (gridField a, 8), (b.toNat, 2)])
  | .scsel d a fuse e b f => some (⟨none, bits [(d.idx.val / 32, 2), (a.idx.val / 32, 1)]⟩, bits [(3, 28), (35, 22), (gridField d, 15), (gridField a, 8), (fuse.toNat, 7), (e.val, 3), (b.toNat, 2), (f.code, 0)])
  | .tag d a t => some (⟨none, bits [(d.idx.val / 32, 2), (a.idx.val / 32, 1)]⟩, bits [(3, 28), (36, 22), (gridField d, 15), (gridField a, 8), (t.val, 0)])
  | .vperm d a b => some (⟨none, bits [(d.idx.val / 32, 2), (a.idx.val / 32, 1), (b.idx.val / 32, 0)]⟩, bits [(3, 28), (37, 22), (gridField d, 15), (gridField a, 8), (gridField b, 1)])
  | .vrot d a k => some (⟨none, bits [(d.idx.val / 32, 2), (a.idx.val / 32, 1)]⟩, bits [(3, 28), (38, 22), (gridField d, 15), (gridField a, 8), (k.val, 0)])
  | .vbcst d a t => some (⟨none, bits [(d.idx.val / 32, 2)]⟩, bits [(3, 28), (39, 22), (gridField d, 15), (a.val, 10), (t.val, 0)])
  | .vmov d a => some (⟨none, bits [(d.idx.val / 32, 2), (a.idx.val / 32, 1)]⟩, bits [(3, 28), (40, 22), (gridField d, 15), (gridField a, 8)])
  | .vred op d a => some (⟨none, bits [(d.idx.val / 32, 2), (a.idx.val / 32, 1)]⟩, bits [(3, 28), (41, 22), (op.code, 0), (gridField d, 15), (gridField a, 8)])
  | .qpop d q => some (⟨none, bits [(d.idx.val / 32, 2)]⟩, bits [(3, 28), (42, 22), (gridField d, 15), (q.val, 0)])
  | .spk d a n => some (⟨none, bits [(d.idx.val / 32, 2), (a.idx.val / 32, 1)]⟩, bits [(3, 28), (43, 22), (gridField d, 15), (gridField a, 8), (n.val, 0)])
  | .spx d a n => some (⟨none, bits [(d.idx.val / 32, 2), (a.idx.val / 32, 1)]⟩, bits [(3, 28), (44, 22), (gridField d, 15), (gridField a, 8), (n.val, 0)])
  | _ => none

/-- What a header must lend a memory slot, and its word without bit 31. -/
def encodeMemory (i : Instr) : Option (SlotHdr × Nat) :=
  match i with
  | .lds sz d a imm => some (⟨(immExtS 10 imm), 0⟩, bits [(4, 28), (0, 22), (sz.code, 10), (d.val, 17), (a.val, 12), (immField 10 imm, 0)])
  | .sts sz d a imm => some (⟨(immExtS 10 imm), 0⟩, bits [(4, 28), (1, 22), (sz.code, 10), (d.val, 17), (a.val, 12), (immField 10 imm, 0)])
  | .ldv d a imm => some (⟨(immExtS 10 imm), bits [(d.idx.val / 32, 2)]⟩, bits [(4, 28), (2, 22), (gridField d, 15), (a.val, 10), (immField 10 imm, 0)])
  | .stv d a imm => some (⟨(immExtS 10 imm), bits [(d.idx.val / 32, 2)]⟩, bits [(4, 28), (3, 22), (gridField d, 15), (a.val, 10), (immField 10 imm, 0)])
  | .ldtt d a imm => some (⟨(immExtS 10 imm), bits [(d.val / 32, 2)]⟩, bits [(4, 28), (4, 22), (d.val % 32, 15), (a.val, 10), (immField 10 imm, 0)])
  | .stbp d a imm => some (⟨(immExtS 10 imm), bits [(d.idx.val / 32, 2)]⟩, bits [(4, 28), (5, 22), (gridField d, 15), (a.val, 10), (immField 10 imm, 0)])
  | .ldbp d a imm => some (⟨(immExtS 10 imm), bits [(d.idx.val / 32, 2)]⟩, bits [(4, 28), (6, 22), (gridField d, 15), (a.val, 10), (immField 10 imm, 0)])
  | .hset n a => some (⟨none, 0⟩, bits [(4, 28), (8, 22), (n.val, 8), (a.val, 17)])
  | .hget n a => some (⟨none, 0⟩, bits [(4, 28), (9, 22), (n.val, 8), (a.val, 17)])
  | .spfence => some (⟨none, 0⟩, bits [(4, 28), (10, 22)])
  | .bufacq n d e => some (⟨none, 0⟩, bits [(4, 28), (11, 22), (n.val, 8), (d.val, 17), (e.val, 12)])
  | .bufpub n a k => some (⟨none, 0⟩, bits [(4, 28), (12, 22), (n.val, 8), (a.val, 17), (k.val, 4)])
  | .buftake n d e => some (⟨none, 0⟩, bits [(4, 28), (13, 22), (n.val, 8), (d.val, 17), (e.val, 12)])
  | .buffree n a k => some (⟨none, 0⟩, bits [(4, 28), (14, 22), (n.val, 8), (a.val, 17), (k.val, 4)])
  | .bufq n d => some (⟨none, 0⟩, bits [(4, 28), (15, 22), (n.val, 8), (d.val, 17)])
  | .mapw n a => some (⟨none, 0⟩, bits [(4, 28), (16, 22), (n.val, 8), (a.val, 17)])
  | .mapf n => some (⟨none, 0⟩, bits [(4, 28), (17, 22), (n.val, 8)])
  | .mapi n => some (⟨none, 0⟩, bits [(4, 28), (18, 22), (n.val, 8)])
  | .mapiDiscard n => some (⟨none, 0⟩, bits [(4, 28), (18, 22), (n.val, 8), (16, 0)])
  | .qst q a => some (⟨none, 0⟩, bits [(4, 28), (19, 22), (q.val, 8), (a.val, 17)])
  | .qstHalf q a => some (⟨none, 0⟩, bits [(4, 28), (19, 22), (q.val, 8), (a.val, 17), (16, 0)])
  | .aadd d a o sc m wide => some (⟨none, 0⟩, bits [(4, 28), (24, 22), (d.val, 17), (a.val, 12), (o.code, 10), (sc.code, 7), (m.val, 2), (wide.toNat, 1)])
  | .aand d a o sc m wide => some (⟨none, 0⟩, bits [(4, 28), (25, 22), (d.val, 17), (a.val, 12), (o.code, 10), (sc.code, 7), (m.val, 2), (wide.toNat, 1)])
  | .aor d a o sc m wide => some (⟨none, 0⟩, bits [(4, 28), (26, 22), (d.val, 17), (a.val, 12), (o.code, 10), (sc.code, 7), (m.val, 2), (wide.toNat, 1)])
  | .axch d a o sc m wide => some (⟨none, 0⟩, bits [(4, 28), (29, 22), (d.val, 17), (a.val, 12), (o.code, 10), (sc.code, 7), (m.val, 2), (wide.toNat, 1)])
  | .adecp d a o sc m wide => some (⟨none, 0⟩, bits [(4, 28), (31, 22), (d.val, 17), (a.val, 12), (o.code, 10), (sc.code, 7), (m.val, 2), (wide.toNat, 1)])
  | .amin d a o sc m wide u => some (⟨none, 0⟩, bits [(4, 28), (27, 22), (d.val, 17), (a.val, 12), (o.code, 10), (sc.code, 7), (m.val, 2), (wide.toNat, 1), (u.toNat, 0)])
  | .amax d a o sc m wide u => some (⟨none, 0⟩, bits [(4, 28), (28, 22), (d.val, 17), (a.val, 12), (o.code, 10), (sc.code, 7), (m.val, 2), (wide.toNat, 1), (u.toNat, 0)])
  | .acas d a o sc m wide => some (⟨none, 0⟩, bits [(4, 28), (30, 22), (d.val, 17), (a.val, 12), (o.code, 10), (sc.code, 7), (m.val, 2), (wide.toNat, 1)])
  | .waita a b p wide => some (⟨none, 0⟩, bits [(4, 28), (32, 22), (a.val, 17), (b.val, 12), (p.val, 8), (wide.toNat, 4)])
  | .wake1 a d => some (⟨none, 0⟩, bits [(4, 28), (33, 22), (a.val, 17), (d.val, 12)])
  | .wakea a d => some (⟨none, 0⟩, bits [(4, 28), (34, 22), (a.val, 17), (d.val, 12)])
  | _ => none

/-- What a header must lend a matrix slot, and its word without bit 31. -/
def encodeMatrix (i : Instr) : Option (SlotHdr × Nat) :=
  match i with
  | .mhold => some (⟨none, 0⟩, bits [(5, 28), (0, 24)])
  | .mpush a => some (⟨none, 0⟩, bits [(5, 28), (1, 24), (a.val, 20)])
  | .mpushS a b => some (⟨none, 0⟩, bits [(5, 28), (2, 24), (a.val, 20), (b.val, 16)])
  | .mpushC a => some (⟨none, 0⟩, bits [(5, 28), (3, 24), (a.val, 20)])
  | .mpushSC a b => some (⟨none, 0⟩, bits [(5, 28), (4, 24), (a.val, 20), (b.val, 16)])
  | .mshift b => some (⟨none, 0⟩, bits [(5, 28), (5, 24), (b.val, 16)])
  | .macc => some (⟨none, 0⟩, bits [(5, 28), (6, 24)])
  | .maccR e => some (⟨none, 0⟩, bits [(5, 28), (7, 24), (e.val, 9)])
  | .mdrain r q f z => some (⟨none, 0⟩, bits [(5, 28), (8, 24), (r.val, 18), (q.val, 15), (f.code, 11), (z.toNat, 10)])
  | .mzero => some (⟨none, 0⟩, bits [(5, 28), (9, 24)])
  | .msetFloat ga gb => some (⟨none, 0⟩, bits [(5, 28), (10, 24), (ga.val, 12), (gb.val, 0)])
  | .msetInt ga gb => some (⟨none, 0⟩, bits [(5, 28), (11, 24), (ga.val, 12), (gb.val, 0)])
  | .msparse b => some (⟨none, 0⟩, bits [(5, 28), (12, 24), (b.val, 16)])
  | .mremQueue a r e q => some (⟨none, 0⟩, bits [(5, 28), (13, 24), (a.val, 20), (r.val, 14), (e.val, 13), (q.val, 9)])
  | .mremAcc a r e => some (⟨none, 0⟩, bits [(5, 28), (13, 24), (a.val, 20), (r.val, 14), (e.val, 13), (1, 12)])
  | .mskew q e => some (⟨none, 0⟩, bits [(5, 28), (14, 24), (q.val, 15), (e.val, 9)])
  | .qnt d a f b => some (⟨none, bits [(d.idx.val / 32, 2), (a.idx.val / 32, 1)]⟩, bits [(5, 28), (15, 24), (gridField d, 17), (gridField a, 10), (f.code, 8), (b.toNat, 7)])
  | _ => none

/-- What a header must lend a engine slot, and its word without bit 31. -/
def encodeEngine (i : Instr) : Option (SlotHdr × Nat) :=
  match i with
  | .cpbase c d a b => some (⟨none, 0⟩, bits [(6, 28), (0, 22), (c.val, 20), (d.val, 12), (a.val, 7), (b.val, 2)])
  | .cpnest c l d a b => some (⟨none, 0⟩, bits [(6, 28), (1, 22), (c.val, 20), (l.val, 17), (d.val, 12), (a.val, 7), (b.val, 2)])
  | .cpfoot c k a b => some (⟨none, 0⟩, bits [(6, 28), (2, 22), (c.val, 20), (k.val, 17), (a.val, 7), (b.val, 2)])
  | .cpgo c => some (⟨none, 0⟩, bits [(6, 28), (3, 22), (c.val, 20)])
  | .cpdrain c => some (⟨none, 0⟩, bits [(6, 28), (4, 22), (c.val, 20)])
  | .cpstat c d => some (⟨none, 0⟩, bits [(6, 28), (5, 22), (c.val, 20), (d.val, 12)])
  | .qsend q k => some (⟨none, 0⟩, bits [(6, 28), (8, 22), (q.val, 19), (k.val, 13)])
  | .csend k a => some (⟨none, 0⟩, bits [(6, 28), (9, 22), (k.val, 13), (a.val, 3)])
  | .crecv k a => some (⟨none, 0⟩, bits [(6, 28), (10, 22), (k.val, 13), (a.val, 3)])
  | .crecvT k d a => some (⟨none, 0⟩, bits [(6, 28), (10, 22), (k.val, 13), (d.val, 8), (a.val, 3), (1, 0)])
  | .putc k d a b => some (⟨none, 0⟩, bits [(6, 28), (16, 22), (k.val, 16), (d.val, 11), (a.val, 6), (b.val, 1)])
  | .gred k d a b => some (⟨none, 0⟩, bits [(6, 28), (17, 22), (k.val, 16), (d.val, 11), (a.val, 6), (b.val, 1)])
  | .gjoin d a => some (⟨none, 0⟩, bits [(6, 28), (18, 22), (d.val, 11), (a.val, 6)])
  | .gstat d a => some (⟨none, 0⟩, bits [(6, 28), (19, 22), (d.val, 11), (a.val, 6)])
  | .gstatErr d => some (⟨none, 0⟩, bits [(6, 28), (19, 22), (d.val, 11), (1, 0)])
  | .pred p n => some (⟨none, 0⟩, bits [(6, 28), (24, 22), (p.val, 18), (n.val, 14)])
  | .pstat d => some (⟨none, 0⟩, bits [(6, 28), (25, 22), (d.val, 9)])
  | .ringQuery p n d => some (⟨none, 0⟩, bits [(6, 28), (26, 22), (p.val, 18), (n.val, 14), (d.val, 9)])
  | .spxStat p n d => some (⟨none, 0⟩, bits [(6, 28), (27, 22), (p.val, 18), (n.val, 14), (d.val, 9)])
  | .probe p d a => some (⟨none, 0⟩, bits [(6, 28), (32, 22), (p.val, 18), (d.val, 9), (a.val, 4)])
  | .leaseq p d a => some (⟨none, 0⟩, bits [(6, 28), (33, 22), (p.val, 18), (d.val, 9), (a.val, 4)])
  | .mbxs n a => some (⟨none, 0⟩, bits [(6, 28), (40, 22), (n.val, 14), (a.val, 4)])
  | .mbxr d => some (⟨none, 0⟩, bits [(6, 28), (41, 22), (d.val, 9)])
  | .mbxrT p d => some (⟨none, 0⟩, bits [(6, 28), (41, 22), (p.val, 18), (d.val, 9), (1, 0)])
  | _ => none

/-- What a header must lend a slot, and the slot word without bit 31 (R174, R190-R197); none for a step that has no
encoding. -/
def encodeSlot (i : Instr) : Option (SlotHdr × Nat) :=
  (encodeControl i).or <| (encodeScalar i).or <| (encodeVector i).or <| (encodeMemory i).or <|
    (encodeMatrix i).or (encodeEngine i)

/-- The words of an instruction that stands alone in its bundle: its slot word with B = 1, or a header that completes
its immediate or its grid indexes and the slot word with B = 0 (R174, R176, R180, R181). -/
def encode (i : Instr) : Option (List Nat) :=
  match encodeVl i with
  | some w => some [w]
  | none =>
    match encodeSlot i with
    | none => none
    | some (⟨some e, _⟩, w) => some [0x88000000 + e, w]
    | some (⟨none, 0⟩, w) => some [2 ^ 31 + w]
    | some (⟨none, hi⟩, w) => some [0x80000000 + hi * 2 ^ 9, w]

end Sys2Proof
end

