-- ==== Sys2Proof/Machine/Mem.lean ====
section
/-! DEFINITION. Memory as a canonical list of cells: addresses strictly rising, no cell equal to what an unlisted
address reads as; and the one key space that holds every memory of the package (R54, R63, R271, R374). -/

namespace Sys2Proof.Machine

/-- Bytes by key, in canonical form. -/
abbrev Memory := List Host.Cell

/-- What an unlisted address reads as (R72 for scratchpad; log 3 for the rest). -/
def Memory.blank : Byte := 0

/-- The byte at a key. -/
def Memory.get : Memory → Nat → Byte
  | [], _ => Memory.blank
  | (a, b) :: l, k => if a = k then b else Memory.get l k

/-- The memory with one byte written, in canonical form again. -/
def Memory.set : Memory → Nat → Byte → Memory
  | [], k, v => if v = Memory.blank then [] else [(k, v)]
  | (a, b) :: l, k, v =>
    if k < a then (if v = Memory.blank then (a, b) :: l else (k, v) :: (a, b) :: l)
    else if a = k then (if v = Memory.blank then l else (k, v) :: l)
    else (a, b) :: Memory.set l k v

/-- Whether every key lies above a bound, keys rise strictly and no byte is the blank one. -/
def Memory.above (lo : Nat) : Memory → Bool
  | [] => true
  | (a, b) :: l => decide (lo ≤ a) && b != Memory.blank && Memory.above (a + 1) l

/-- The canonical form. -/
def Memory.wf (m : Memory) : Bool := Memory.above 0 m

/-- The memory with every byte of a key range blank. -/
def Memory.clear : Memory → Nat → Nat → Memory
  | [], _, _ => []
  | (a, b) :: l, lo, hi => if lo ≤ a ∧ a < hi then Memory.clear l lo hi else (a, b) :: Memory.clear l lo hi

/-- The bytes from a key on. -/
def Memory.bytes (m : Memory) (k : Nat) : Nat → List Byte
  | 0 => []
  | n + 1 => m.get k :: Memory.bytes m (k + 1) n

/-- The memory with bytes written from a key on. -/
def Memory.put (m : Memory) (k : Nat) : List Byte → Memory
  | [] => m
  | b :: l => Memory.put (m.set k b) (k + 1) l

/-- A little-endian number of bytes (R117). -/
def leNat : List Byte → Nat
  | [] => 0
  | b :: l => b.toNat + 256 * leNat l

/-- The n little-endian bytes of a number (R117). -/
def leBytes (v : Nat) : Nat → List Byte
  | 0 => []
  | n + 1 => BitVec.ofNat 8 v :: leBytes (v / 256) n

/-- A little-endian number of n bytes read from memory. -/
def Memory.num (m : Memory) (k n : Nat) : Nat := leNat (m.bytes k n)

/-- The memory with n little-endian bytes of a number written. -/
def Memory.putNum (m : Memory) (k v n : Nat) : Memory := m.put k (leBytes v n)

/-- Write bytes at a system physical address that software gives; past 59 bits there is no place (R374). -/
def Memory.putSpa (m : Memory) (a : Nat) (bs : List Byte) : Memory := if a + bs.length ≤ 2 ^ 59 then m.put a bs else m

/-- Write a number at a system physical address that software gives. -/
def Memory.putNumSpa (m : Memory) (a v n : Nat) : Memory := m.putSpa a (leBytes v n)

/-- The bytes of an overlay: a list of cells, the first of a key deciding. -/
def ovGet : List Host.Cell → Nat → Option Byte
  | [], _ => none
  | (a, b) :: l, k => if a = k then some b else ovGet l k

/-- An overlay with one byte set, sorted by key. -/
def ovSet : List Host.Cell → Nat → Byte → List Host.Cell
  | [], k, v => [(k, v)]
  | (a, b) :: l, k, v =>
    if k < a then (k, v) :: (a, b) :: l
    else if a = k then (k, v) :: l
    else (a, b) :: ovSet l k v

def ovPut (o : List Host.Cell) (k : Nat) : List Byte → List Host.Cell
  | [] => o
  | b :: l => ovPut (ovSet o k b) (k + 1) l

/-- The scratchpad byte of a tile behind bank and line (R54). -/
def spKey (cl : ClusterNo) (tn : TileNo) (phys : Nat) : Nat := 2 ^ 60 + (cl.val * 17 + tn.val) * 2 ^ 21 + phys

/-- A byte of a cluster's slice memory (R63). -/
def sliceKey (cl : ClusterNo) (off : Nat) : Nat := 2 ^ 61 + cl.val * 2 ^ 23 + off

/-- A byte of a loader's or storer's instruction store (R271). -/
def lsKey (cl : ClusterNo) (tn : TileNo) (storer : Bool) (off : Nat) : Nat :=
  2 ^ 62 + ((cl.val * 17 + tn.val) * 2 + storer.toNat) * 2 ^ 14 + off

/-- A byte of code: the code address as fetched (log 1). -/
def codeKey (a : Nat) : Nat := 2 ^ 64 + a

/-- A byte of host memory by its host bus address (R374). -/
def hostKey (a : Nat) : Nat := 2 ^ 66 + a

end Sys2Proof.Machine
end

