-- ==== Sys2Proof/Machine/Package.lean ====
section
/-! DEFINITION. The state of the package beyond one tile: clusters, dies, partitions, teams, queues, links, power and
the fleet registers. Field defaults are the reset values (log 2 where the spec gives none). -/

namespace Sys2Proof.Machine

/-- A semaphore: value, grant, owning team, open to puts (R206, R303, R411). -/
structure Sem where
  val : Fin 65536 := 0
  granted : Bool := false
  team : Fin 65536 := 0
  putOpen : Bool := false
  deriving DecidableEq, Repr, Inhabited

/-- A queued waiter: the tile, the counts it takes together, and whether it has been called to its bundle since its counts
were there (R24, R25, log 23). -/
structure Waiter where
  tile : TileId
  takes : List (SemNo × Nat)
  called : Bool := false
  deriving DecidableEq, Repr, Inhabited

/-- A monitor-table entry (R268): slice address, size, the owner's team, tile and number. -/
structure Monitor where
  addr : Nat
  size : Nat
  team : Fin 65536
  tile : TileId
  task : Nat
  deriving DecidableEq, Repr, Inhabited

/-- STATE of CLKV (R429). -/
inductive ClkState where
  | running | hopping | calibrating | retention | quarantine | off
  deriving DecidableEq, Repr, Inhabited

/-- A frequency hop in progress (R430, R431): the old and the new clock in 25 MHz units, and whether the cluster is in quarantine
(R437). -/
structure Hop where
  old : Nat
  new : Nat
  quar : Bool := false
  deriving DecidableEq, Repr, Inhabited

/-- A Kiln table record (R434) with its SIGREF, and whether its signature was found good. -/
structure KRecord where
  mode : BitVec 2 := 0
  guard : BitVec 16 := 0
  hours : BitVec 32 := 0
  drift : BitVec 16 := 0
  time : BitVec 48 := 0
  vmin : Vector (BitVec 16) 32 := Vector.replicate 32 0
  sigref : Vector Word 2 := Vector.replicate 2 0
  good : Bool := true
  deriving DecidableEq, Repr

/-- A calibration in progress (R433): the clock to return to, the anchor under test and the voltage at which its patterns began. -/
structure CalRun where
  back : Nat
  anchor : Fin 8
  top : Nat
  deriving DecidableEq, Repr, Inhabited

/-- The phases of a router's power-down (R438). -/
inductive RouterSt where
  | up | intent | down
  deriving DecidableEq, Repr, Inhabited

/-- A cluster: its semaphores, waiters, monitor table and TLB, its clock, margin, retention and router state (R429-R438),
its telemetry (R445), and its spare tile's duty (R444). krec is Kiln's table as it stands, krecNext the timestamp from which it may
be written again (R434), cal a calibration in progress, replayLog the times of the last replays of its tile cores, lost a retention
element that has lost its value, held the clock from which Kiln lowered it, errLog when which of its tiles raised the causes that
R444 counts, spareBad a spare tile that has failed,
flitAt when its router last passed a flit (R438), steal whether the scheduling firmware permits its tiles to take tasks of other
teams (R361), jam whether the queues of its semaphore unit and join buffer are full (R416). -/
structure Cluster where
  sems : Vector Sem 64 := Vector.replicate 64 {}
  waiters : List Waiter := []
  monitors : List Monitor := []
  tlb : List TlbEntry := []
  freq : Nat := 16
  volt : Nat := 500
  temp : BitVec 8 := 0
  state : ClkState := .off
  droops : BitVec 16 := 0
  aborts : BitVec 16 := 0
  reten : Bool := true
  calib : Bool := false
  canary : Bool := true
  fcap : Nat := 80
  hop : Option Hop := none
  retry : Option (Nat × Nat) := none
  krec : KRecord := {}
  krecNext : Nat := 0
  warnAt : Nat := 0
  replayLog : List Nat := []
  issuedAt : Nat := 0
  held : Option Nat := none
  cal : Option CalRun := none
  lost : Bool := false
  router : RouterSt := .up
  flitAt : Nat := 0
  sramce : Word := 0
  sramue : Word := 0
  parity : Word := 0
  replays : Word := 0
  storms : Word := 0
  spare : Option (Fin 16) := none
  spareBad : Bool := false
  errLog : List (TileNo × Nat) := []
  steal : Bool := true
  jam : Bool := false
  deriving DecidableEq, Repr

/-- Whether the agents of a cluster run: its clock runs, or it is in quarantine, where a task of another cluster's team may
still run (log 22). -/
def Cluster.ticks (c : Cluster) : Bool := c.state == .running || c.state == .quarantine

/-- Whether a cluster is in quarantine, though its clock may stand in a hop (R437). -/
def Cluster.quarantined (c : Cluster) : Bool := c.state == .quarantine || c.hop.any (·.quar)

/-- Leave the queue of waiters. -/
def Cluster.leave (c : Cluster) (i : TileId) : Cluster := { c with waiters := c.waiters.filter fun w => w.tile != i }

/-- A migration counter (R386): the page, its count, whether it is queued. -/
structure MigCount where
  part : PartNo
  size : Fin 4
  vpn : BitVec 40
  count : Nat
  queued : Bool
  deriving DecidableEq, Repr, Inhabited

/-- A cached table pointer (R380): partition, level, the address bits above that level's index, the table's SPA. -/
structure TablePtr where
  part : PartNo
  lvl : Nat
  pre : Nat
  spa : Nat
  deriving DecidableEq, Repr, Inhabited

/-- A piece of a die's context pool that an image holds: its first 16 KiB unit, its units, its team (R404). -/
structure PoolPart where
  first : Nat
  units : Nat
  team : Fin 65536
  deriving DecidableEq, Repr, Inhabited

/-- A management core (R1): the registers and the program counter of an RV64GC core, and the reservation of its last LR: the address and
the bytes that it read. Its firmware is no part of the spec: a driver writes it into device memory (log 53). -/
structure MgmtCore where
  x : Vector Word 32 := Vector.replicate 32 0
  f : Vector Word 32 := Vector.replicate 32 0
  pc : Word := 0
  fcsr : BitVec 32 := 0
  resv : Option (Nat × List Byte) := none
  deriving DecidableEq, Repr, Inhabited

/-- A compute die: its slot table (R362), context pool (R404), halt control (R403: TEAM, and the
team of the request in progress), its weight die's jobs and what has been written to its weight store (R413), refusal limits (R416), router slot tables with what their entries
written in a revolution were in it (R417), migration counters (R386), TLB and table pointers
(R380), its management core (R1), whether that core is in reset (R448), and the die whose management core has taken its duty
(R444). -/
structure Die where
  slots : Vector (Vector Word 4) 64 := Vector.replicate 64 (Vector.replicate 4 0)
  ctxpool : Word := 0
  ctxpoolsz : BitVec 32 := 0
  pool : List PoolPart := []
  haltBusy : Bool := false
  haltResult : BitVec 2 := 0
  haltTeam : Fin 65536 := 0
  haltFor : Fin 65536 := 0
  wdjob : Vector (Vector Word 2) 64 := Vector.replicate 64 (Vector.replicate 2 0)
  weights : List Host.Cell := []
  nakLimit : Fin 16 := 15
  nakBkoff : BitVec 16 := 64
  router : Memory := []
  routerWas : List (Nat × Nat × Byte) := []
  mig : List MigCount := []
  tlb : List TlbEntry := []
  ptrs : List TablePtr := []
  mgmt : MgmtCore := {}
  coreDown : Bool := false
  duty : Option DieNo := none
  deriving DecidableEq, Repr

/-- A Lintel release in progress: its generation, the timestamp of its last arrival, the next course entry (R365); or, of an entry that has
been released, the clusters that have not let it in (R431, R436). -/
structure Release where
  gen : Nat
  last : Nat
  k : Nat
  held : List ClusterNo := []
  deriving DecidableEq, Repr, Inhabited

/-- A partition: its translation block (R381, R389), fault domains (R395), Lintel (R364, R365) and cluster set (R441,
R442). -/
structure Partition where
  ptroot : Word := 0
  inv : Option (Fin 4 × BitVec 40 × Bool) := none
  invDone : BitVec 32 := 0
  hmbase : Word := 0
  miglog : BitVec 5 := 0
  migthr : BitVec 16 := 0
  migbase : Word := 0
  mighead : BitVec 32 := 0
  migtail : BitVec 32 := 0
  migovf : Bool := false
  migdrops : BitVec 32 := 0
  fdbase : Word := 0
  ltcfg : Word := 0
  ltord : Word := 0
  arrivals : Nat := 0
  gen : Nat := 0
  releases : List Release := []
  port : Bool := false
  clu : BitVec 48 := 0
  reqClu : BitVec 48 := 0
  draining : Bool := false
  result : BitVec 2 := 0
  done : BitVec 32 := 0
  deriving DecidableEq, Repr, Inhabited

/-- The states of a team (R408). -/
inductive TeamState where
  | resident | swapReady | swapWaiting | halted | ending
  deriving DecidableEq, Repr, Inhabited

/-- A pool entry: block entry, argument, the ring position of its spawner, the logical tile of its spawner (R28,
R20, R32). -/
structure PoolEntry where
  entry : Word
  arg : Word
  pos : Fin 16
  ltile : Fin 16
  deriving DecidableEq, Repr, Inhabited

/-- The termination token (R32): its holder, its colour, its sum. -/
structure Token where
  pos : Fin 16 := 0
  black : Bool := false
  sum : Int := 0
  round : Bool := false
  deriving DecidableEq, Repr, Inhabited

/-- A collective group that a bind record grants (R419). -/
structure Group where
  gid : Fin 65536
  size : Nat
  rank0 : Nat
  tmask : Nat
  deriving DecidableEq, Repr, Inhabited

/-- The wait that made a team leave its tiles (R36): the logical tile, the wait, the counts it was for, and, for a task that a
tile of another team runs, that tile (log 19). -/
structure Trigger where
  ltile : Fin 16
  away : Option TileId := none
  kind : WaitKind
  takes : List (SemNo × Nat)
  deriving DecidableEq, Repr, Inhabited

/-- A team (R16-R45, R408): its region, place and tasks, its pool and termination token, why it is to leave or has left its
tiles, its saved tiles and images, those of its tasks that tiles of other teams ran (log 19), its declarations, the record
and graph node that queued it, and, once a return has been refused, the cluster for which it waits with the answer (R44). -/
structure Team where
  id : Fin 65536
  rcb : Nat
  home : ClusterNo
  part : PartNo
  ntiles : Nat
  tmap : Vector TileNo 16
  state : TeamState := .resident
  cause : Nat := 0
  leave : Option Cause := none
  trigger : Option Trigger := none
  abort : Bool := false
  readyAt : Nat := 0
  waits : Option (ClusterNo × Nat) := none
  pool : List PoolEntry := []
  black : Vector Bool 16 := Vector.replicate 16 false
  counts : Vector Int 16 := Vector.replicate 16 0
  token : Token := {}
  live : List (Fin 16) := []
  saved : List (Fin 16 × Tile) := []
  images : List (Fin 16 × Nat) := []
  away : List (Tile × Nat) := []
  headerAt : Nat := 0
  course : Fin 16 := 0
  groups : List Group := []
  content : List (Nat × Nat) := []
  ldimg : Word := 0
  stimg : Word := 0
  spBytes : Nat := 0
  faulted : Bool := false
  ended : Bool := false
  record : Option Nat := none
  node : Option (Fin 4096) := none
  deriving DecidableEq, Repr

/-- Change what a team that stands swapped out keeps of its tiles. -/
def Team.mapSaved (k : Team) (f : Tile → Tile) : Team :=
  { k with saved := k.saved.map fun p => (p.1, f p.2), away := k.away.map fun p => (f p.1, p.2) }

/-- A counted put on its way (R142, R303): its tile, its job number, the destination semaphore and put word, its local
source, the pages of its destination, its data once an earlier job no longer holds it up (R140), the bytes of its source that its
task reads from a shadow slot, as they were at its issue (R150). -/
structure PutMsg where
  src : TileId
  job : Nat
  sem : SemNo
  word : Word
  lo : Nat
  pages : List Page
  data : Option (List Byte)
  shadow : List Host.Cell := []
  tries : Nat := 0
  due : Nat := 0
  deriving DecidableEq, Repr, Inhabited

/-- A row on a circuit, sent and not yet acknowledged (R301): its sender and end, its lanes, the sender's speculation
depth or 0 (R155), the times it was refused, the timestamp at which it reaches its end and the router cycle at which it leaves
its sender (R417). -/
structure RowMsg where
  src : TileId
  send : EndNo
  cells : Row
  depth : Nat
  tries : Nat := 0
  due : Nat := 0
  leave : Nat := 0
  isQueue : Bool
  deriving DecidableEq, Repr, Inhabited

/-- One member of a collective (R305): its tile, its team and logical tile, its rank and the group's size as its bind
record gives them, its first chunk semaphore and collective word, its source and destination, its job number, the bytes
of its source as it stood, those of it that its task reads from a shadow slot (R150), the chunks that it has counted, how often its
join has refused it and when it sends again (R416). -/
structure Member where
  tile : TileId
  team : Fin 65536
  ltile : Fin 16
  rank : Nat
  size : Nat
  sem : SemNo
  word : Word
  src : Nat
  dst : Nat
  job : Nat
  data : Option (List Byte)
  shadow : List Host.Cell := []
  landed : List (Fin 16) := []
  tries : Nat := 0
  due : Nat := 0
  out : Bool := false
  deriving DecidableEq, Repr, Inhabited

/-- A partial sum that another device has sent for a chunk (R418): the device, the collective word, SIZE and the ranks of its members
(R305, R419), the bytes. -/
structure FarSum where
  dev : Fin 512
  chunk : Fin 16
  word : Word
  size : Nat
  ranks : List Nat
  bytes : List Byte
  deriving DecidableEq, Repr, Inhabited

/-- The lowest rank of a partial sum (R418). -/
def FarSum.rank (x : FarSum) : Nat := x.ranks.foldl min 65536

/-- A collective in progress: its group, its members so far, the partial sums of other devices, the sums that a joining device has
returned (R418), the cause that aborted it (R305). -/
structure Coll where
  gid : Fin 65536
  members : List Member
  far : List FarSum := []
  totals : List (Fin 16 × List Byte) := []
  abort : Option Cause := none
  deriving DecidableEq, Repr, Inhabited

/-- A launch that has passed its checks and waits for a bind record (R358, R361): its number, which a bind record's REF names
(log 11), its record and node, its launch record's words, its argument, when it became ready (R12), and, once a record has been refused, the
cluster for which it waits with the answer (R44). -/
structure QTeam where
  ref : Nat
  record : Nat
  node : Option (Fin 4096)
  words : Vector Word 16
  arg : Word
  part : PartNo
  readyAt : Nat
  waits : Option (ClusterNo × Nat) := none
  deriving DecidableEq, Repr, Inhabited

/-- A command queue (R352): its registers, the SEQ of the last submitted record and its number, the MSI-X messages sent (R355). -/
structure Queue where
  base : Word := 0
  log : BitVec 5 := 0
  tail : Fin 131072 := 0
  head : Fin 131072 := 0
  enable : Bool := false
  ack : Word := 0
  snap : Word := 0
  snapsz : BitVec 32 := 0
  lastSeq : BitVec 16 := 0
  lastRec : Option Nat := none
  msix : Nat := 0
  deriving DecidableEq, Repr

/-- A teardown in progress (R371): its queue, ABORT and RESET. -/
structure Teardown where
  fn : FnNo
  q : QueueNo
  abort : Bool
  reset : Bool
  deriving DecidableEq, Repr, Inhabited

/-- A host function (R372, R443). -/
structure Fn where
  major : BitVec 16 := 0
  minor : BitVec 8 := 0
  ack : Bool := false
  feat : BitVec 32 := 0
  valid : Bool := false
  part : BitVec 5 := 0
  nq : BitVec 4 := 0
  queues : Vector Queue 16 := Vector.replicate 16 {}
  deriving DecidableEq, Repr

/-- Where a submitted record stands: not started, running, ended with a status of R355 that is still to be written. -/
inductive RecState where
  | waiting | running | ended (code : Nat)
  deriving DecidableEq, Repr, Inhabited

/-- Where a graph node stands: not started, its body running (cond and loop), running, complete with a status. -/
inductive NodeState where
  | idle | body | running | done (code : Nat)
  deriving DecidableEq, Repr, Inhabited

/-- A graph node of a replay (R366): its record, its iterations run, the outcome of its team before the node completes. -/
structure Node where
  words : Vector Word 8
  state : NodeState := .idle
  iters : Nat := 0
  ended : Option Nat := none
  deriving DecidableEq, Repr, Inhabited

/-- A submitted record (R353-R356): its number, its queue, the number of the record before it in that queue, its snapshot as bytes by the addresses they were copied from, the
parts of the snapshot area that it takes, as offsets and lengths, its words, its graph's nodes and successors, the first failed node's status. -/
structure Rec where
  id : Nat
  fn : FnNo
  q : QueueNo
  prev : Option Nat := none
  words : Vector Word 16
  snap : List Host.Cell
  area : List (Nat × Nat) := []
  state : RecState := .waiting
  nodes : List Node := []
  succs : List Nat := []
  failed : Option Nat := none
  deriving DecidableEq, Repr

/-- A negotiated version: MAJOR, MINOR, ACK, FEAT as HIFSEL lays them out (R372, R414, R421). -/
structure Sel where
  major : BitVec 16 := 0
  minor : BitVec 8 := 0
  ack : Bool := false
  feat : BitVec 32 := 0
  deriving DecidableEq, Repr, Inhabited

/-- A die-to-die link (R414); dead: its lanes have failed beyond repair (R420). -/
structure Link where
  up : Bool := false
  repaired : Bool := false
  dead : Bool := false
  retries : BitVec 16 := 0
  downs : BitVec 32 := 0
  sel : Sel := {}
  deriving DecidableEq, Repr, Inhabited

/-- A Sixatas port (R421, R423). -/
structure Port where
  up : Bool := false
  minor : BitVec 8 := 0
  peer : BitVec 19 := 0
  feat : BitVec 16 := 0
  sel : Sel := {}
  deriving DecidableEq, Repr, Inhabited

/-- Who waits at the in-rush arbiter (R435). -/
inductive PowerReq where
  | cluster (c : ClusterNo)
  | macros (d : DieNo) (g : Nat)
  deriving DecidableEq, Repr, Inhabited

/-- The place of a request among those of one cycle: clusters by package number, then weight dies (R435). -/
def PowerReq.rank (r : PowerReq) : Nat :=
  match r with
  | .cluster c => c.val
  | .macros d g => 48 + 64 * d.val + g

/-- A request joins those that wait, in order of arrival, each with its timestamp (R435). -/
def PowerReq.joins (r : PowerReq) (now : Nat) : List (Nat × PowerReq) → List (Nat × PowerReq)
  | [] => [(now, r)]
  | x :: l => if x.1 = now ∧ r.rank < x.2.rank then (now, r) :: x :: l else x :: r.joins now l

/-- The package's power registers and event ring (R439, R440), and the in-rush arbiter (R435); above: WATTS has exceeded PWRLIM and
has not yet fallen below it (R439). -/
structure Power where
  pwrlim : Nat := 2600
  tjmax : Nat := 95
  inmax : Nat := 4
  watts : Nat := 0
  above : Bool := false
  evtail : BitVec 32 := 0
  events : Vector (Vector Word 2) 256 := Vector.replicate 256 (Vector.replicate 2 0)
  throttleAt : Option Nat := none
  coolSince : Option Nat := some 0
  inrush : List (Nat × PowerReq) := []
  rising : List (PowerReq × Nat) := []
  deriving DecidableEq, Repr

/-- What comes upon the package from its surroundings: the parity of a grid row (R50) or of an accumulator row (R80), or a
byte of memory, named by its key, goes bad beyond correction (R263), or is good again; a sensor reads another temperature
(R429) or power (R439); the scheduling firmware permits or forbids a cluster's tiles to steal (R361); a tile's fills in flight
return in a number of its tile cycles (R319); the rows that an engine still owes a tile come some of its tile cycles late (R88); the
driver writes a byte of a weight store (R413) or of a slice memory (R359); the queues of a cluster's semaphore unit and join buffer,
whose length the spec does not give, fill up or have room again (R416); a flit of a link is retried (R414); a management core
runs one instruction (R1), or its environment answers what it waits for (log 53), or the core goes into reset or comes out of it (R448); the next put of a tile to another
device is refused there, for a cause with a code of R392 (R303, R416) (logs 7, 12, 14, 26, 27, 44, 48 and 53). -/
inductive Ambient where
  | row (t : TileId) (r : Fin 64) (bad : Bool)
  | acc (t : TileId) (r : Fin 64) (bad : Bool)
  | byte (key : Nat) (bad : Bool)
  | temp (c : ClusterNo) (v : BitVec 8)
  | watts (n : Nat)
  | steal (c : ClusterNo) (ok : Bool)
  | fill (t : TileId) (n : Nat)
  | late (t : TileId) (e : Fin 2) (n : Nat)
  | weight (d : DieNo) (i : Nat) (b : Byte)
  | slice (c : ClusterNo) (off : Fin 8388608) (b : Byte)
  | flit (l : LinkNo)
  | mgmt (d : DieNo) (m : MgmtCore)
  | mgmtRun (d : DieNo)
  | coreReset (d : DieNo) (on : Bool)
  | jam (c : ClusterNo) (full : Bool)
  | refuse (t : TileId) (code : Fin 64)
  deriving DecidableEq, Repr, Inhabited

/-- A firmware image (R446, R448). -/
structure Firmware where
  svn : BitVec 16 := 0
  good : Bool := true
  deriving DecidableEq, Repr, Inhabited

/-- The header of an NVS record (R446). -/
structure NvsHeader where
  type : BitVec 8 := 0
  svn : BitVec 16 := 0
  len : BitVec 32 := 0
  sigref : Word := 0
  deriving DecidableEq, Repr, Inhabited

/-- The headers of the records of a module: identity, spare-tile map, four die trims, 48 Kiln tables of 96 bytes (R434), two firmware
images. DESIGN CHOICE (log 14): the versions, the other lengths and the signature entries, for which R446 gives no reset value, are 0. -/
def headersAtReset : Vector NvsHeader 56 :=
  Vector.ofFn fun k =>
    let n := k.val
    { type := if n = 0 then 1 else if n = 1 then 2 else if n < 6 then 3 else if n < 54 then 4 else 5
      len := if 6 ≤ n ∧ n < 54 then 96 else 0 }

/-- A one-time signing key (R447): indices left, the next unused index, the first index not yet reserved. -/
structure Key where
  left : Nat := 2 ^ 20
  next : Nat := 0
  reserved : Nat := 0
  deriving DecidableEq, Repr, Inhabited

/-- The non-volatile store (R446-R448): its records' headers, whether the identity, spare-tile and die trim records verify, which tile of each cluster
the spare-tile map replaces (R444), the Kiln tables (R434), two firmware slots with the one that each die runs and an image staged for its next reset, the least SVN, the keys. -/
structure Nvs where
  headers : Vector NvsHeader 56 := headersAtReset
  identity : Bool := true
  spares : Bool := true
  spareMap : Vector (Option (Fin 16)) 48 := Vector.replicate 48 none
  trim : Vector Bool 4 := Vector.replicate 4 true
  kiln : Vector KRecord 48 := Vector.replicate 48 {}
  fw : Vector Firmware 2 := Vector.replicate 2 {}
  active : Vector (Fin 2) 4 := Vector.replicate 4 0
  staged : Option (Fin 2) := none
  minSvn : BitVec 16 := 0
  idKey : Key := {}
  dieKeys : Vector Key 4 := Vector.replicate 4 {}
  deriving DecidableEq, Repr

/-- A record of the store is written anew: its version, its length, its signature entry (R446). -/
def Nvs.setHeader (n : Nvs) (k : Nat) (svn : BitVec 16) (len : Nat) (sig : Word) : Nvs :=
  { n with headers := n.headers.set! k { n.headers[k]! with svn := svn, len := BitVec.ofNat 32 len, sigref := sig } }

/-- Attestation (R449). -/
structure Attest where
  nonce : Vector Word 4 := Vector.replicate 4 0
  buf : Word := 0
  busy : Bool := false
  done : Bool := false
  refused : Bool := false
  deriving DecidableEq, Repr

end Sys2Proof.Machine
end

