-- ==== Sys2Proof/Machine/State.lean ====
section
/-! DEFINITION. The state of the machine: everything the spec gives the package, as plain data; the ways a step can stop;
the state right after reset. -/

namespace Sys2Proof.Machine

/-- The machine. The tile field is the FOCUS: the tile whose agents take the next turn (log 4); others holds every other
tile that differs from a reset tile; bad the keys of the bytes with an uncorrectable error (R263), ambient what is to
come upon the package from its surroundings, each with its timestamp (log 48), refused the answers to puts that other devices are to
refuse (R303, log 44). -/
structure State where
  tile : Tile := {}
  others : List Tile := []
  turn : Agent := .core
  clusters : Vector Cluster 48 := Vector.replicate 48 {}
  dies : Vector Die 4 := Vector.replicate 4 {}
  parts : Vector Partition 20 := Vector.replicate 20 {}
  teams : List Team := []
  puts : List PutMsg := []
  rows : List RowMsg := []
  colls : List Coll := []
  queued : List QTeam := []
  records : List Rec := []
  tearing : List Teardown := []
  nextRec : Nat := 0
  nextRef : Nat := 0
  nextTask : Nat := 0
  fns : Vector Fn 194 := Vector.replicate 194 {}
  links : Vector Link 8 := Vector.replicate 8 {}
  ports : Vector Port 24 := Vector.replicate 24 {}
  routes : Vector Word 512 := Vector.replicate 512 0
  power : Power := {}
  nvs : Nvs := {}
  attest : Attest := {}
  arrays : List (Nat × Mat) := []
  mem : Memory := []
  bad : List Nat := []
  ambient : List (Nat × Ambient) := []
  refused : List (TileId × Fin 64) := []
  device : BitVec 19 := 0
  time : BitVec 64 := 0
  subtime : Nat := 0
  agenda : List Instr := []
  freeCtr : Nat := 0
  powered : Bool := true
  deriving DecidableEq, Repr

/-- Why a machine stops. -/
inductive Fault where
  /-- Raised by step alone, when the module has no power and nothing that is to come restores it (MODULE_POWER_LOSS
  with no MODULE_RESET on the agenda): the spec gives an unpowered module no further step. Safe: the machine stops. -/
  | poweredOff
  deriving DecidableEq, Repr, Inhabited

/-- Why an instruction has no meaning. -/
inductive Refusal where
  /-- Raised by exec's arms of instructions that have no meaning yet, by name. Safe: the machine stops. -/
  | notModelled (mnemonic : String)
  deriving DecidableEq, Repr, Inhabited

/-- The machine right after reset. -/
def State.reset : State := {}

end Sys2Proof.Machine
end

