-- ==== Sys2Proof/Machine/Trans.lean ====
section
/-! DEFINITION. Regions and translation: the region control blocks (R10, R360), the table walk (R373-R376), the checks of
a translation (R377), the TLBs (R380, R383) and the migration counters (R386-R388). Records and tables are read at
system physical addresses (log 11). -/

namespace Sys2Proof.Machine

def State.cluster (s : State) : Cluster := s.clusters[s.tile.cl.val]

def State.setCluster (s : State) (c : Cluster) : State := { s with clusters := s.clusters.set s.tile.cl.val c }

/-- The die of a cluster (R412). -/
def dieOf (c : ClusterNo) : DieNo := Fin.ofNat 4 (c.val / 12)

/-- Change a cluster. -/
def State.mapCluster (s : State) (c : ClusterNo) (f : Cluster → Cluster) : State :=
  { s with clusters := s.clusters.set c.val (f s.clusters[c.val]) }

/-- Whether a cluster lets an arrival in: one that hops or is in retention holds it in its queues, one whose router is down in
the router before it (R431, R436, R438). -/
def Cluster.lets (c : Cluster) : Bool :=
  match c.state with
  | .running | .off | .quarantine | .calibrating => c.router != .down
  | .hopping | .retention => false

/-- Whether an arrival at a cluster has still to ask for power: the cluster is in retention or, on a die that is on, off; no request of it waits
or has been granted within the last 2 µs. -/
def State.asks (s : State) (c : ClusterNo) : Bool :=
  let r := PowerReq.cluster c
  let x := (s.clusters[c.val]).state
  (x == .retention || (x == .off && s.nvs.trim[(dieOf c).val])) && !(s.power.inrush.any fun x => x.2 == r) && !s.power.rising.any fun p => p.1 == r && decide (s.time.toNat < p.2)

/-- An arrival at a cluster in retention, or a bind at one that is off, asks the in-rush arbiter for power (R435, R436,
log 22). -/
def State.knock (s : State) (c : ClusterNo) : State :=
  if s.asks c then { s with power := { s.power with inrush := (PowerReq.cluster c).joins s.time.toNat s.power.inrush } } else s

/-- The routers that pass a flit now: one that has raised intent stays up (R438). -/
def State.noteFlits (s : State) (cs : List ClusterNo) : State :=
  let note := fun (x : Cluster) => { x with flitAt := s.time.toNat, router := if x.router = .intent then .up else x.router }
  cs.foldl (fun u c => u.mapCluster c note) s

/-- Whether an entry waits before a router that is down (R438). -/
def State.blocked (s : State) (cs : List ClusterNo) : Bool := cs.any fun c => (s.clusters[c.val]).router == .down

/-- The routers that are down come up (R438). -/
def State.wakeRouters (s : State) (cs : List ClusterNo) : State :=
  cs.foldl (fun u c => u.mapCluster c fun x => { x with router := if x.router = .down then .up else x.router }) s

def State.die (s : State) : Die := s.dies[(dieOf s.tile.cl).val]

def State.setDie (s : State) (d : Die) : State := { s with dies := s.dies.set (dieOf s.tile.cl).val d }

def State.findTeam (s : State) (id : Fin 65536) : Option Team := s.teams.find? fun t => t.id == id

/-- The team of the task on the focus tile. -/
def State.team (s : State) : Option Team := s.tile.task.bind fun k => s.findTeam k.team

/-- Replace a team's record. -/
def State.setTeam (s : State) (t : Team) : State := { s with teams := s.teams.map fun u => if u.id == t.id then t else u }

/-- The partition of the focus tile's task. -/
def State.part (s : State) : PartNo := (s.team.map (·.part)).getD 0

/-- Word n of a region control block (R360). -/
def rcbWord (s : State) (rcb n : Nat) : Nat := s.mem.num (rcb + 8 * n) 8

/-- The parent of a region, 0 for the root of its partition (R360). -/
def rcbParent (s : State) (rcb : Nat) : Nat := rcbWord s rcb 0

/-- Whether a region inherits policy field b; the root's mask reads as zeros (R10). -/
def inherits (s : State) (rcb b : Nat) : Bool := rcbParent s rcb != 0 && fld (rcbWord s rcb 1) (56 + b) 1 == 1

/-- The region from which a region takes policy field b (R10), along at most n links. -/
def holder (s : State) (b : Nat) : Nat → Nat → Nat
  | 0, rcb => rcb
  | n + 1, rcb => if inherits s rcb b then holder s b n (rcbParent s rcb) else rcb

/-- The links followed in one region tree: as many as there are places of 256 bytes in a memory of 2^59, so that no chain
without a cycle is cut (log 42). -/
def treeDepth : Nat := 2 ^ 51

/-- The effective fault domain (R10). -/
def faultDomain (s : State) (rcb : Nat) : Nat := fld (rcbWord s (holder s 5 treeDepth rcb) 1) 36 16

/-- The effective wait-swap threshold (R10, R35). -/
def waitSwap (s : State) (rcb : Nat) : Nat := fld (rcbWord s (holder s 7 treeDepth rcb) 1) 0 24

/-- The effective priority: the parent's, or the smaller of the region's own and the parent's (R10). -/
def priority (s : State) : Nat → Nat → Nat
  | 0, rcb => fld (rcbWord s rcb 1) 52 4
  | n + 1, rcb =>
    let own := fld (rcbWord s rcb 1) 52 4
    let up := rcbParent s rcb
    if up == 0 then own
    else if inherits s rcb 4 then priority s n up
    else min own (priority s n up)

/-- The regions from a region to the root of its tree. -/
def regionPath (s : State) : Nat → Nat → List Nat
  | 0, rcb => [rcb]
  | n + 1, rcb => if rcbParent s rcb == 0 then [rcb] else rcb :: regionPath s n (rcbParent s rcb)

/-- The region's own lease entries: base and length, as many as the whole of word 5 counts (R360, R378; log 42). -/
def ownLeases (s : State) (rcb : Nat) : List (Nat × Nat) :=
  let a := rcbWord s rcb 4
  (List.range (rcbWord s rcb 5)).map fun k => (s.mem.num (a + 16 * k) 8, s.mem.num (a + 16 * k + 8) 8)

/-- The effective lease list (R10). -/
def leases (s : State) : Nat → Nat → List (Nat × Nat)
  | 0, rcb => ownLeases s rcb
  | n + 1, rcb => ownLeases s rcb ++ (if inherits s rcb 6 then leases s n (rcbParent s rcb) else [])

/-- The effective lease list of the focus tile's task. -/
def State.leases (s : State) : List (Nat × Nat) :=
  match s.team with
  | none => []
  | some t => Machine.leases s treeDepth t.rcb

/-- The first address of [a, hi) outside the leases, looking at most n leases on (R378). -/
def unleased (l : List (Nat × Nat)) (hi : Nat) : Nat → Nat → Option Nat
  | 0, a => if a < hi then some a else none
  | n + 1, a =>
    if hi ≤ a then none
    else
      match l.filter fun p => decide (p.1 ≤ a) && decide (a < p.1 + p.2) with
      | [] => some a
      | x :: r => unleased l hi n (r.foldl (fun m p => max m (p.1 + p.2)) (x.1 + x.2))

def inLeases (l : List (Nat × Nat)) (va : Nat) : Bool := l.any fun p => decide (p.1 ≤ va) && decide (va < p.1 + p.2)

/-- The causes whose TRAPVAL is the address that failed its check (R394). -/
def Cause.addressed (c : Cause) : Bool :=
  match c with
  | .align | .straddle | .windowHole | .mapEntry | .monitorMisuse | .atomicAlign | .leaseViolation | .pageNotPresent
  | .pagePermission | .pageAtomic | .translationConflict | .addressRange | .partitionFence => true
  | _ => false

/-- What a check of an address records (R394). -/
def addrTrap (c : Cause) (a : Nat) : TrapInfo := { cause := c, val := if c.addressed then BitVec.ofNat 64 a else 0 }

/-- Storage classes of a system physical address (R115, R374). -/
inductive SpaClass where
  | dm | pm | hm | bad
  deriving DecidableEq, Repr, Inhabited

/-- The class of a system physical address, or of the place of a host byte (R374). -/
def spaClass (s : State) (spa : Nat) : SpaClass :=
  if hostKey 0 ≤ spa then .hm
  else
  let dev := spa / 2 ^ 40
  let off := spa % 2 ^ 40
  if dev == s.device.toNat then (if off < 2 ^ 39 then .dm else .hm)
  else if dev / 2 ^ 9 == s.device.toNat / 2 ^ 9 && decide (off < 2 ^ 39) then .pm
  else .bad

/-- Where a byte of a system physical address lies: a host byte at the host bus address that the partition's HMBASE gives,
any other at the address itself (R374). -/
def State.home (s : State) (part : PartNo) (spa : Nat) : Nat :=
  if spa < 2 ^ 59 && spaClass s spa == .hm then
    hostKey (((s.parts[part.val]).hmbase.toNat + spa % 2 ^ 40 - 2 ^ 39) % 2 ^ 64)
  else spa

/-- The byte at a system physical address, read for a partition (R374). -/
def State.spaByte (s : State) (part : PartNo) (a : Nat) : Byte := s.mem.get (s.home part a)

/-- A little-endian number of n bytes at a system physical address. -/
def State.spaNum (s : State) (part : PartNo) (a n : Nat) : Nat := leNat ((List.range n).map fun k => s.spaByte part (a + k))

/-- Write bytes for a partition at a system physical address that software gives; past 59 bits there is no place (R374). -/
def State.putSpa (s : State) (part : PartNo) (a : Nat) (bs : List Byte) : State :=
  if a + bs.length ≤ 2 ^ 59 then { s with mem := s.mem.put (s.home part a) bs } else s

/-- Whether this device reaches a device of its domain: its route is valid and a port of it is up (R422). -/
def State.devUp (s : State) (dev : Nat) : Bool :=
  let e := (s.routes[dev % 512]!).toNat
  dev / 512 == s.device.toNat / 512 && e.testBit 63 && (List.finRange 24).any fun p => e.testBit p.val && (s.ports[p.val]).up

/-- Whether the device of a peer address answers (R135, R422). -/
def State.peerUp (s : State) (spa : Nat) : Bool := spaClass s spa != .pm || s.devUp (spa / 2 ^ 40)

/-- The bit of a storage class in a mask of R115. -/
def SpaClass.bit : SpaClass → Nat
  | .hm => 4
  | .pm => 3
  | .dm => 2
  | .bad => 2

namespace Leaf

def bit (l : Leaf) (n : Nat) : Bool := l.word.getLsbD n
def r (l : Leaf) : Bool := l.bit 61
def w (l : Leaf) : Bool := l.bit 60
def a (l : Leaf) : Bool := l.bit 59
def lc (l : Leaf) : Nat := fld l.word.toNat 56 3
def mig (l : Leaf) : Bool := l.bit 55
def ptag (l : Leaf) : Nat := fld l.word.toNat 50 5
def frame (l : Leaf) : Nat := fld l.word.toNat 0 45
/-- The bits of an address inside the page: 14, 25 or 36 (R373). -/
def pageBits (l : Leaf) : Nat := 14 + 11 * l.size.val
def spa (l : Leaf) (va : Nat) : Nat := (l.frame * 2 ^ 14) / 2 ^ l.pageBits * 2 ^ l.pageBits + va % 2 ^ l.pageBits

end Leaf

/-- Whether a leaf breaks R376 at a level. -/
def badLeaf (s : State) (e lvl : Nat) : Bool :=
  fld e 45 5 != 0 || decide (4 ≤ fld e 56 3) || spaClass s (fld e 0 45 * 2 ^ 14) == .bad
    || fld e 0 (11 * lvl) != 0

/-- Whether a table pointer breaks R376. -/
def badTable (s : State) (e : Nat) : Bool := fld e 45 18 != 0 || spaClass s (fld e 0 45 * 2 ^ 14) != .dm

/-- The index of an address at a level (R373). -/
def vaIndex (va lvl : Nat) : Nat := if lvl == 3 then fld va 47 7 else fld va (14 + 11 * lvl) 11

/-- A die's place on the square of R412, round the ring CD0, CD1, CD3, CD2. -/
def ringPos (d : DieNo) : Nat :=
  match d with
  | 0 => 0
  | 1 => 1
  | 2 => 3
  | 3 => 2

/-- Whether the link from place p to the next of the ring is up: links 0 to 3 (R414). -/
def State.ringUp (s : State) (p : Nat) : Bool := (s.links[p % 4]!).up

/-- Whether traffic passes between two dies: one way round or the other has every link up (R420). -/
def State.diesJoined (s : State) (a b : DieNo) : Bool :=
  let n := (ringPos b + 4 - ringPos a) % 4
  (List.range n).all (fun k => s.ringUp (ringPos a + k))
    || (List.range ((4 - n) % 4)).all (fun k => s.ringUp (ringPos b + k))
    || a == b

/-- The HBM stack of a DM offset and its die (R374). -/
def dmDie (spa : Nat) : Nat := fld spa 37 2

/-- Whether a die leaves reset: its trim record verifies (R446). -/
def State.dieOn (s : State) (d : DieNo) : Bool := s.nvs.trim[d.val]

/-- Whether a table lies at a die that can no longer be reached from the focus tile's (R420): a read of DM at its home (R376). -/
def State.tableCut (s : State) (tbl : Nat) : Bool :=
  spaClass s tbl == .dm && !s.diesJoined (dieOf s.tile.cl) (Fin.ofNat 4 (dmDie tbl))

/-- The walk of R376 from level n - 1 down: a leaf and the table pointers it went through, or the cause that ended it, with whether the entry
was malformed. Cached pointers are used (R380). -/
def walk (s : State) (part : PartNo) (va : Nat) : Nat → Nat → List TablePtr → Except (Cause × Bool) (Leaf × List TablePtr)
  | 0, _, _ => .error (.pageNotPresent, true)
  | n + 1, tbl, seen =>
    let pre := va / 2 ^ (14 + 11 * n)
    match (s.dies[(dieOf s.tile.cl).val]).ptrs.find? (fun p => p.part == part && p.lvl == n && p.pre == pre) with
    | some p => walk s part va n p.spa seen
    | none =>
      let e := s.mem.num (tbl + 8 * vaIndex va n) 8
      if s.tableCut tbl then .error (.linkDown, false)
      else if fld e 63 1 == 0 then .error (.pageNotPresent, false)
      else if fld e 62 1 == 1 || n == 0 then
        if n == 3 || fld e 62 1 == 0 || badLeaf s e n then .error (.pageNotPresent, true)
        else .ok (⟨BitVec.ofNat 64 e, Fin.ofNat 4 n⟩, seen)
      else if badTable s e then .error (.pageNotPresent, true)
      else walk s part va n (fld e 0 45 * 2 ^ 14) (⟨part, n, pre, fld e 0 45 * 2 ^ 14⟩ :: seen)

/-- Whether a TLB entry holds an address of a partition. -/
def TlbEntry.holds (e : TlbEntry) (part : PartNo) (va : Nat) : Bool :=
  e.part == part && e.vpn.toNat / 2 ^ (11 * e.size.val) == va / 2 ^ (14 + 11 * e.size.val)

/-- Whether two leaves give an address the same page and permissions (R383). -/
def agree (x y : Leaf) (va : Nat) : Bool :=
  x.spa va == y.spa va && fld x.word.toNat 50 12 == fld y.word.toNat 50 12

/-- A TLB of n entries with one more, the oldest leaving it when it is full (log 10). -/
def tlbAdd (n : Nat) (l : List TlbEntry) (e : TlbEntry) : List TlbEntry := e :: l.take (n - 1)

/-- Enter a walked leaf into the tile's, the cluster's and the die's TLB (R380, log 10). -/
def State.tlbFill (s : State) (part : PartNo) (va : Nat) (l : Leaf) (ptrs : List TablePtr) : State :=
  let e : TlbEntry := ⟨part, l.size, BitVec.ofNat 40 (va / 2 ^ 14), l.word⟩
  let s := { s with tile := { s.tile with tlb := tlbAdd 32 s.tile.tlb e } }
  let s := s.setCluster { s.cluster with tlb := tlbAdd 512 s.cluster.tlb e }
  s.setDie { s.die with tlb := tlbAdd 4096 s.die.tlb e, ptrs := (ptrs ++ s.die.ptrs).take 4096 }

/-- The leaf for an address: the tile's TLB, then the cluster's, then the die's, then a walk; two sizes are compared
(R380, R383). The error is the cause and its SUB bit. -/
def State.lookup (s : State) (part : PartNo) (va : Nat) : Except (Cause × Bool) (Leaf × State) :=
  let hits := fun (l : List TlbEntry) => (l.filter fun e => e.holds part va).map fun e => (⟨e.leaf, e.size⟩ : Leaf)
  let pick := fun (l : List Leaf) =>
    match l with
    | [] => (none : Option (Except (Cause × Bool) (Leaf × State)))
    | x :: rest =>
      let small := rest.foldl (fun a b => if b.size < a.size then b else a) x
      if (x :: rest).all fun y => y.size == small.size || agree small y va then some (.ok (small, s))
      else some (.error (.translationConflict, false))
  match pick (hits s.tile.tlb) with
  | some r => r
  | none =>
    match pick (hits s.cluster.tlb) with
    | some r => r
    | none =>
      match pick (hits s.die.tlb) with
      | some r => r
      | none =>
        match walk s part va 4 (s.parts[part.val].ptroot.toNat) [] with
        | .error e => .error e
        | .ok (l, ptrs) => .ok (l, s.tlbFill part va l ptrs)

/-- What a translation is for (R377). -/
inductive Access where
  | read | write | atomic | hostAtomic
  deriving DecidableEq, Repr, Inhabited

/-- A finished translation. -/
structure Trans where
  spa : Nat
  leaf : Leaf
  deriving DecidableEq, Repr, Inhabited

/-- A translation for the task of the focus tile, with the checks of R377 in their order. hostAtomic asks for an atomic
that host memory refuses (R266). -/
def State.translate (s : State) (va : Nat) (acc : Access) : Except TrapInfo (Trans × State) :=
  let err := fun (c : Cause) (sub : Bool) => Except.error { addrTrap c va with sub := sub }
  if 2 ^ 54 ≤ va then err .addressRange false
  else if !inLeases s.leases va then err .leaseViolation false
  else
    match s.lookup s.part va with
    | .error (c, sub) => err c sub
    | .ok (l, s') =>
      let spa := s.home s.part (l.spa va)
      if l.ptag != s.part.val then err .partitionFence false
      else
        match acc with
        | .read => if l.r then .ok (⟨spa, l⟩, s') else err .pagePermission false
        | .write => if l.w then .ok (⟨spa, l⟩, s') else err .pagePermission false
        | .atomic =>
          if !(l.r && l.w) then err .pagePermission false
          else if !l.a then err .pageAtomic false
          else .ok (⟨spa, l⟩, s')
        | .hostAtomic =>
          if !(l.r && l.w) then err .pagePermission false
          else if !l.a || spaClass s spa == .hm then err .pageAtomic false
          else .ok (⟨spa, l⟩, s')

/-- The status of PROBE for an address (R310): PRESENT and the word. -/
def State.probe (s : State) (va : Nat) : Bool × Word :=
  if 2 ^ 54 ≤ va then (false, 0)
  else
    let leased := (inLeases s.leases va).toNat
    match s.lookup s.part va with
    | .error _ => (false, BitVec.ofNat 64 (leased * 2 ^ 62))
    | .ok (l, _) =>
      let dev := l.spa va / 2 ^ 40
      (true, BitVec.ofNat 64 (2 ^ 63 + leased * 2 ^ 62 + l.size.val * 2 ^ 60 + l.r.toNat * 2 ^ 59 + l.w.toNat * 2 ^ 58
        + l.a.toNat * 2 ^ 57 + l.lc * 2 ^ 54 + l.mig.toNat * 2 ^ 53 + l.ptag * 2 ^ 48 + dev * 2 ^ 29))

end Sys2Proof.Machine
end

