-- ==== Sys2Proof/Machine/Ops.lean ====
section
/-! DEFINITION. The named operations over registers, results in flight, time and traps: every read and write of a register
goes through here, and taking an exception is one operation (R396). -/

namespace Sys2Proof.Machine

namespace Tile

/-- A scalar register; s0 reads as 0 (R51). -/
def sreg (t : Tile) (r : SReg) : Word := if r = 0 then 0 else t.sregs[r.val]

/-- Write a scalar register; writes to s0 are discarded (R51). -/
def setSreg (t : Tile) (r : SReg) (v : Word) : Tile := if r = 0 then t else { t with sregs := t.sregs.set r.val v }

/-- A predicate; p0 reads as true (R51). -/
def pred (t : Tile) (p : PReg) : Bool := if p = 0 then true else t.preds[p.val]

/-- Write a predicate; writes to p0 are discarded (R51). -/
def setPred (t : Tile) (p : PReg) (v : Bool) : Tile := if p = 0 then t else { t with preds := t.preds.set p.val v }

/-- A physical grid cell. -/
def cell (t : Tile) (r c : Fin 64) : Cell := (t.grid[r.val])[c.val]

def setCell (t : Tile) (r c : Fin 64) (v : Cell) : Tile :=
  { t with grid := t.grid.set r.val ((t.grid[r.val]).set c.val v) }

/-- The value that lands at a site (R225). -/
def land (t : Tile) (w : Site) (v : Word) : Tile :=
  match w with
  | .sreg r => t.setSreg r v
  | .pred p => t.setPred p (v.getLsbD 0)
  | .lcr => { t with lcr := v }
  | .cell r c => t.setCell r c (v.setWidth 32)

/-- Land one result of a flight, unless a later result has taken its target over (R225). -/
def landOne (t : Tile) (w : Site × Option Word) : Tile :=
  match w.2 with
  | none => t
  | some v => t.land w.1 v

/-- Land a flight whole; a load leaves its counter (R315, R316). -/
def landFlight (t : Tile) (f : Flight) : Tile :=
  let t := f.writes.foldl landOne t
  if f.isLoad then { t with cld := t.cld - 1 } else t

/-- Whether a write to a site is outstanding (R314); s0 and p0 are never written (R51). -/
def outstanding (t : Tile) (w : Site) : Bool :=
  w != .sreg 0 && w != .pred 0 && t.flights.any fun f => f.writes.any fun x => x.1 == w

/-- Send results on their way: a later-issued result takes its targets over from those that would land no earlier
(R178, R225). -/
def fly (t : Tile) (f : Flight) : Tile :=
  let mine := fun (w : Site) => f.writes.any fun x => x.1 == w
  let old := t.flights.map fun g =>
    if f.due ≤ g.due then { g with writes := g.writes.map fun x => if mine x.1 then (x.1, none) else x } else g
  { t with flights := old ++ [f] }

/-- A later-issued result takes sites over from the results in flight (R178, R225). -/
def supersede (t : Tile) (ws : List Site) : Tile :=
  { t with flights := t.flights.map fun g =>
      { g with writes := g.writes.map fun x => if ws.contains x.1 then (x.1, none) else x } }

/-- Write a site so that the next bundle reads it (R313, latency 1). -/
def write (t : Tile) (w : Site) (v : Word) : Tile := (t.supersede [w]).land w v

/-- A counter (R315). -/
def ctr (t : Tile) (c : Ctr) : Nat :=
  match c with
  | .ld => t.cld
  | .st => t.cst
  | .cp => t.ccp
  | .tl => t.ctl

def setCtr (t : Tile) (c : Ctr) (n : Nat) : Tile :=
  match c with
  | .ld => { t with cld := n }
  | .st => { t with cst := n }
  | .cp => { t with ccp := n }
  | .tl => { t with ctl := n }

/-- Raise a counter (R315). -/
def count (t : Tile) (c : Ctr) : Tile := t.setCtr c (t.ctr c + 1)

/-- Lower a counter (R315). -/
def uncount (t : Tile) (c : Ctr) : Tile := t.setCtr c (t.ctr c - 1)

/-- Count an operation that completes at a known tile cycle (R315). -/
def countUntil (t : Tile) (c : Ctr) (due : Nat) : Tile := { (t.count c) with ops := t.ops ++ [⟨c, due⟩] }

/-- Whether every counter is zero and every reserved queue entry and remote row has arrived (R21, R397). -/
def drained (t : Tile) : Bool :=
  t.cld == 0 && t.cst == 0 && t.ccp == 0 && t.ctl == 0 && t.flights.isEmpty
    && t.queues.toList.all (fun q => q.all (·.arrived)) && t.mat.land.toList.all (fun q => q.all (·.arrived))

/-- Whether reading a site meets a grid row whose parity is in error (R50). -/
def spoilt (t : Tile) (w : Site) : Bool :=
  match w with
  | .cell r _ => t.badRows.getLsbD r.val
  | .sreg _ | .pred _ | .lcr => false

/-- A tile cycle without issue: stretch, where a task is resident that does not wait (R320). -/
def tick (t : Tile) : Tile :=
  { t with tc := t.tc + 1, stretch := if t.task.isSome && t.wait.isNone then t.stretch + 1 else t.stretch }

end Tile

/-- The parts of a timestamp unit that time is counted in: every clock of R2 has a whole number of them in its period. -/
def clockParts : Nat := (List.range 127).foldl (fun a k => Nat.lcm a (k + 1)) 1

/-- The time, in parts of a timestamp unit. -/
def State.clock (s : State) : Nat := s.time.toNat * clockParts + s.subtime

/-- Change the focus tile. -/
def State.mapTile (s : State) (f : Tile → Tile) : State := { s with tile := f s.tile }

/-- The next free value's number, and the state that has used it. -/
def State.fresh (s : State) : Nat × State := (s.freeCtr, { s with freeCtr := s.freeCtr + 1 })

/-- Every tile that the state lists, the focus first. -/
def State.tiles (s : State) : List Tile := s.tile :: s.others

/-- A tile of the package; one that the state does not list is a reset tile. -/
def State.tileAt (s : State) (i : TileId) : Tile :=
  if s.tile.id = i then s.tile else (s.others.find? fun t => t.id == i).getD (Tile.reset i.cl i.tn)

/-- A place in the order of tiles. -/
def TileId.rank (i : TileId) : Nat := i.cl.val * 17 + i.tn.val

/-- Insert a tile into the ordered list of tiles other than the focus. -/
def putTile (t : Tile) : List Tile → List Tile
  | [] => [t]
  | u :: l =>
    if t.id.rank < u.id.rank then t :: u :: l
    else if t.id = u.id then t :: l
    else u :: putTile t l

/-- Replace a tile of the package. -/
def State.setTile (s : State) (t : Tile) : State :=
  if s.tile.id = t.id then { s with tile := t } else { s with others := putTile t s.others }

/-- Change every listed tile. -/
def State.mapTiles (s : State) (f : Tile → Tile) : State := { s with tile := f s.tile, others := s.others.map f }

/-- Move the focus to another tile. -/
def State.focus (s : State) (i : TileId) : State :=
  if s.tile.id = i then s
  else { s with tile := s.tileAt i, others := putTile s.tile (s.others.filter fun t => t.id != i) }

/-- The first byte of [k, k + n) with an uncorrectable error, by its key (R263). -/
def State.badAt (s : State) (k n : Nat) : Option Nat :=
  if s.bad.isEmpty then none else ((List.range n).map (k + ·)).find? s.bad.contains

/-- The 64-byte line of an address (R394). -/
def line64 (a : Nat) : Word := BitVec.ofNat 64 (a / 64 * 64)

/-- A saturating counter rises (R445). -/
def satUp (v : Word) : Word := if v = BitVec.allOnes 64 then v else v + 1

/-- One hour in units of the timestamp (R4). -/
def hour : Nat := 360000000000

/-- A cluster notes which tile has raised one of the causes that call for the spare tile, for an hour (R444). -/
def Cluster.noteError (c : Cluster) (t : TileNo) (now : Nat) : Cluster :=
  { c with errLog := (t, now) :: c.errLog.filter fun x => now < x.2 + hour }

/-- Count a cause in its cluster's telemetry (R445), and for the spare tile (R444). -/
def State.tally (s : State) (c : Cause) : State :=
  let note := fun (x : Cluster) => x.noteError s.tile.tn s.time.toNat
  match c with
  | .spUncorrectable => s.setCluster { note s.cluster with sramue := satUp s.cluster.sramue }
  | .machineCheck => s.setCluster { s.cluster with sramue := satUp s.cluster.sramue }
  | .gridParity | .accumParity => s.setCluster { note s.cluster with parity := satUp s.cluster.parity }
  | _ => s

/-- Causes that may enter a handler (R392). -/
def Cause.handled (c : Cause) : Bool :=
  !(decide (48 ≤ c.code) && decide (c.code ≤ 55)) && !decide (59 ≤ c.code)

/-- Causes that end the whole team (R392). -/
def Cause.endsTeam (c : Cause) : Bool :=
  match c with
  | .watchdog | .machineCheck | .contextError | .doubleFault => true
  | _ => false

/-- Causes that are never raised to software (R392). -/
def Cause.silent (c : Cause) : Bool :=
  match c with
  | .preempt | .swapRequest | .debugHalt => true
  | _ => false

/-- TRAPST for a trap (R393). -/
def TrapInfo.trapst (t : TrapInfo) : Word :=
  BitVec.ofNat 64 (t.cause.code * 2 ^ 58 + t.agent * 2 ^ 56 + t.sub.toNat * 2 ^ 55 + t.deferred.toNat * 2 ^ 54
    + t.slot * 2 ^ 51)

/-- The fault domain's entry of the focus tile's task (R395). -/
def State.fdEntry (s : State) : Nat :=
  match s.team with
  | none => 0
  | some t => (s.parts[t.part.val]).fdbase.toNat + 64 * faultDomain s t.rcb

/-- Word n of the fault domain's entry; without a team, the entry has no handler. -/
def State.fdWord (s : State) (n : Nat) : Nat := if s.team.isSome then s.mem.num (s.fdEntry + 8 * n) 8 else 0

/-- A task ends with its team; one that is ending by a fault of its own keeps the record of it that is still to be written, as it is
(R398, R399). -/
def Tile.endWithTeam (t : Tile) : Tile :=
  { t with ending := match t.ending with
      | some (.fault pc (some i) team) => some (.fault pc (some i) team)
      | some (.fault _ none _) | some (.retire _) | none => some (.fault t.pc none true) }

/-- End the task of the focus tile by a fault, or, for a team cause, every task of its team (R397, R398). The steps of
R397 follow once the tile has drained; those of its tasks that no tile runs end with the team. -/
def State.endByFault (s : State) (t : TrapInfo) : State :=
  if t.cause.endsTeam then
    match s.team with
    | none => s.mapTile fun u => { u with ending := some (.fault (t.bundle.getD u.pc) (some t) true) }
    | some k =>
      let s := s.mapTiles fun u =>
        if u.task.any (fun x => x.team == k.id) && u.id != s.tile.id then u.endWithTeam else u
      let s := s.setTeam { k with pool := [], state := .ending, faulted := true }
      s.mapTile fun u => { u with ending := some (.fault (t.bundle.getD u.pc) (some t) true) }
  else s.mapTile fun u => { u with ending := some (.fault (t.bundle.getD u.pc) (some t) false) }

/-- Forget what a held bundle was waiting for: the bundle leaves its place. -/
def Tile.settle (t : Tile) : Tile :=
  { t with wait := none, stallSince := none, fillReady := 0, filled := [], woken := false, reissue := false, flagged := 0, predDone := false }

/-- Record a cause in TRAPST and TRAPVAL (R393, R394). -/
def Tile.record (t : Tile) (i : TrapInfo) : Tile := { t with trapst := i.trapst, trapval := i.val }

/-- The home cluster of the focus tile's task (R19). -/
def State.homeCl (s : State) : ClusterNo := (s.team.map (·.home)).getD s.tile.cl

/-- Whether a monitor entry is the focus tile's task's own (R268). -/
def State.ownsMonitor (s : State) (m : Monitor) : Bool := s.tile.task.any fun x => x.no == m.task

/-- The monitor entries of the focus tile's task are freed, in whichever cluster it took them (R269). -/
def State.unwatch (s : State) : State :=
  { s with clusters := s.clusters.map fun (c : Cluster) => { c with monitors := c.monitors.filter fun m => !s.ownsMonitor m } }

/-- The focus tile no longer waits: it leaves the queue of semaphore waiters of its home cluster (R25), and its monitor entry is
freed (R269). -/
def State.leaveQueue (s : State) : State :=
  ({ s with clusters := s.clusters.set s.homeCl.val ((s.clusters[s.homeCl.val]).leave s.tile.id) } : State).unwatch

/-- TAKING AN EXCEPTION (R396): record the cause, counting it where R445 counts it; what the bundle waited for is forgotten; a trap inside a handler is a double fault; a cause that the fault
domain's mask names enters the handler's block, its first bundle following the descriptor, as a taken block transfer;
any other ends the task or the team. resume is the bundle at which TRET continues;
a reissue stands at its second cycle (R322); the two cycles in which the task issues nothing are stretch (R320, log 24). -/
def State.deliver (s : State) (i : TrapInfo) (resume : Nat) : State :=
  let half := s.tile.reissue.toNat
  let s := ((s.tally i.cause).leaveQueue).mapTile fun t => (t.settle).record i
  if i.cause.silent then s
  else if s.tile.priv && i.cause.handled then
    let d : TrapInfo :=
      { i with cause := .doubleFault, val := BitVec.ofNat 64 i.cause.code, sub := false, deferred := false }
    (s.mapTile fun t => t.record d).endByFault d
  else if i.cause.handled && s.fdWord 0 != 0 && fld (s.fdWord 1) i.cause.code 1 == 1 then
    s.mapTile fun t =>
      { t with
        tepc := BitVec.ofNat 64 resume, priv := true, pc := s.fdWord 0 + 16, tc := t.tc + 3 + half, stretch := t.stretch + 2 }
  else s.endByFault i

/-- RETURNING FROM AN EXCEPTION (R215, R396): the privilege level falls; the bundle at TEPC issues next, as the target of
a taken branch. -/
def Tile.trapReturn (t : Tile) : Tile := { t with priv := false }

end Sys2Proof.Machine
end

