-- ==== Sys2Proof/Machine/Circuits.lean ====
section
/-! DEFINITION. Circuits: the words of circuit ends (R300), the ways between dies (R412, R414, R415, R420), the routers on a
circuit's route and the slots in which a row passes them (R417). -/

namespace Sys2Proof.Machine

/-! ## Circuit ends -/

/-- The fields of a circuit-end word (R300). -/
def endValid (w : Word) : Bool := w.getLsbD 63
def endRecv (w : Word) : Bool := w.getLsbD 62
def endRetry (w : Word) : Nat := fld w.toNat 58 4
def endSlot (w : Word) : Nat := fld w.toNat 52 6

/-- The fields of an end's peer (R300). -/
def endCluster (w : Word) : Nat := fld w.toNat 34 2 * 12 + fld w.toNat 30 4
def endLtile (w : Word) : Nat := fld w.toNat 26 4
def endEnd (w : Word) : EndNo := Fin.ofNat 64 (fld w.toNat 20 6)

/-! ## Ways between dies -/

/-- The die at which an entry to a home arrives: that of a DM byte's stack, or of the partition's PCIe port (R374, R412). -/
def State.homeDie (s : State) (part : PartNo) (key : Nat) : Option DieNo :=
  match spaClass s key with
  | .hm => some (if (s.parts[part.val]).port then 2 else 0)
  | .dm => some (Fin.ofNat 4 (dmDie key))
  | .pm | .bad => none

/-- What an entry from a die to a home meets on its way: a device that cannot be reached (R135, R422), a die that cannot (R420). -/
def State.cutFrom (s : State) (d : DieNo) (part : PartNo) (key : Nat) : Option Cause :=
  if !s.peerUp key then some .peerUnreachable
  else if (s.homeDie part key).any fun e => !s.diesJoined d e then some .linkDown
  else none

/-- What an entry of the focus tile meets on its way. -/
def State.cutOff (s : State) (part : PartNo) (key : Nat) : Option Cause := s.cutFrom (dieOf s.tile.cl) part key

/-- The CD-CD links of the escape route between two dies: along x first, then along y (R415). -/
def dieRoute (a b : DieNo) : List (Fin 8) :=
  let x := fun (y : Nat) => (if y = 0 then 0 else 2 : Fin 8)
  let y := fun (x : Nat) => (if x = 0 then 3 else 1 : Fin 8)
  (if a.val % 2 = b.val % 2 then [] else [x (a.val / 2)]) ++ (if a.val / 2 = b.val / 2 then [] else [y (b.val % 2)])

/-- The links of the ring from place p on, n of them. -/
def ringLinks (p n : Nat) : List (Fin 8) := (List.range n).map fun k => Fin.ofNat 8 ((p + k) % 4)

/-- The CD-CD links between two dies: those of the escape route, or, with one of them down, those of the chain that is left
(R415, R420). -/
def State.dieWay (s : State) (a b : DieNo) : List (Fin 8) :=
  let n := (ringPos b + 4 - ringPos a) % 4
  let on := ringLinks (ringPos a) n
  if (dieRoute a b).all fun l => (s.links[l.val]).up then dieRoute a b
  else if on.all fun l => (s.links[l.val]).up then on
  else (ringLinks (ringPos b) ((4 - n) % 4)).reverse

/-! ## Routes -/

/-- The places from x to y, both included. -/
def placesTo (x y : Nat) : List Nat :=
  if x ≤ y then (List.range (y - x + 1)).map (x + ·) else (List.range (x - y + 1)).map (x - ·)

/-- The clusters of a die whose routers the escape route passes: along the column, then along the row (R412, R417). -/
def meshRoute (a b : Nat) : List Nat :=
  (placesTo (a / 4) (b / 4)).map (4 * · + a % 4) ++ ((placesTo (a % 4) (b % 4)).drop 1).map (4 * (b / 4) + ·)

/-- Whether a CD-CD link runs along x (R414, R417). -/
def alongX (l : LinkNo) : Bool := l.val % 2 == 0

/-- The cluster whose router is a link's end on a die (R417). -/
def linkEnd (d : DieNo) (l : LinkNo) : Nat :=
  if alongX l then (if d.val % 2 = 0 then 7 else 4) else (if d.val / 2 = 0 then 9 else 1)

/-- The die across a CD-CD link (R412, R414). -/
def across (d : DieNo) (l : LinkNo) : DieNo := Fin.ofNat 4 (if alongX l then d.val + 1 - d.val % 2 * 2 else d.val + 2)

/-- The clusters whose routers a circuit passes: from a cluster of a die, over links, to a cluster of the last die (R417). -/
def routeOver (d : DieNo) (a : Nat) : List LinkNo → Nat → List ClusterNo
  | [], b => (meshRoute a b).map fun c => Fin.ofNat 48 (12 * d.val + c)
  | l :: ls, b =>
    (meshRoute a (linkEnd d l)).map (fun c => Fin.ofNat 48 (12 * d.val + c))
      ++ routeOver (across d l) (linkEnd (across d l) l) ls b

/-- The routers of a circuit from one cluster to another (R417). -/
def State.route (s : State) (a b : ClusterNo) : List ClusterNo :=
  routeOver (dieOf a) (a.val % 12) (s.dieWay (dieOf a) (dieOf b)) (b.val % 12)

/-- The routers that an access from a cluster passes on its way to another die, up to that die's end of the last link (R412, R417); where on
the mesh of a die its memories lie the spec does not say (log 22). -/
def State.toDie (s : State) (c : ClusterNo) (d : DieNo) : List ClusterNo :=
  let ls := s.dieWay (dieOf c) d
  match ls.getLast? with
  | none => []
  | some l => routeOver (dieOf c) (c.val % 12) ls (linkEnd d l)

/-- An access of the focus tile to a home passes the routers on its way (R438). -/
def State.pass (s : State) (part : PartNo) (key : Nat) : State :=
  match s.homeDie part key with
  | none => s
  | some d =>
    let rs := s.toDie s.tile.cl d
    if rs.isEmpty then s else (s.wakeRouters rs).noteFlits rs

/-- Whether a fill that a tile waits for passes a cluster's router (R438). -/
def State.fillPasses (s : State) (c : ClusterNo) (t : Tile) : Bool :=
  t.fills.any fun f => (s.homeDie f.part f.spa).any fun d => (s.toDie t.cl d).contains c

/-! ## Counted accesses -/

/-- Whether an access of the focus tile's die to a page counts (R386). -/
def counted (s : State) (l : Leaf) (spa : Nat) : Bool :=
  l.mig && (match spaClass s spa with
    | .pm => true
    | .dm => dmDie spa != (dieOf s.tile.cl).val
    | _ => false)

/-- The migration ring is full (R388). -/
def migFull (p : Partition) : Bool := (p.migtail - p.mighead).toNat == 2 ^ p.miglog.toNat

/-- One counted event on a page of a partition (R387, R388). -/
def State.countPage (s : State) (part : PartNo) (va : Nat) (x : Trans) : State :=
  let p := s.parts[part.val]
  let thr := p.migthr.toNat
  if thr == 0 || !counted s x.leaf x.spa then s
  else
    let d := s.die
    let vpn := BitVec.ofNat 40 (va / 2 ^ 14 / 2 ^ (11 * x.leaf.size.val) * 2 ^ (11 * x.leaf.size.val))
    let is := fun (m : MigCount) => m.part == part && m.size == x.leaf.size && m.vpn == vpn
    let old := d.mig.find? is
    let base : MigCount := (old.getD ⟨part, x.leaf.size, vpn, 0, false⟩)
    let loose := d.mig.filter fun m => !m.queued
    let victim := loose.foldl (fun (a : Option MigCount) m =>
      match a with
      | none => some m
      | some b => if m.count < b.count || (m.count == b.count && decide (m.vpn < b.vpn)) then some m else a) none
    let room : Option (List MigCount) :=
      if old.isSome then some (d.mig.filter fun m => !is m)
      else if d.mig.length < 1024 then some d.mig
      else victim.map fun v => d.mig.filter fun m => m != v
    match room with
    | none => s
    | some rest =>
      if base.count + 1 < thr then s.setDie { d with mig := { base with count := base.count + 1 } :: rest }
      else if base.queued then s.setDie { d with mig := { base with count := thr } :: rest }
      else if migFull p || decide (256 ≤ (d.mig.filter (·.queued)).length) then
        let s := s.setDie { d with mig := { base with count := thr } :: rest }
        { s with parts := s.parts.set part.val { p with migovf := true, migdrops := p.migdrops + 1 } }
      else
        let s := s.setDie { d with mig := { base with count := thr, queued := true } :: rest }
        let a := p.migbase.toNat + 16 * (p.migtail.toNat % 2 ^ p.miglog.toNat)
        let w0 := x.leaf.size.val * 2 ^ 62 + (dieOf s.tile.cl).val * 2 ^ 60 + vpn.toNat
        let stack := if spaClass s x.spa == .dm then fld x.spa 36 3 else 0
        let w1 := x.spa / 2 ^ 40 * 2 ^ 45 + stack * 2 ^ 42 + s.time.toNat % 2 ^ 32
        { s with mem := (s.mem.putNum (s.home part a) w0 8).putNum (s.home part (a + 8)) w1 8
                 parts := s.parts.set part.val { p with migtail := p.migtail + 1 } }

/-- An access of the focus tile's die to a page: it counts (R386), and passes the routers on its way to the die of its home (R438). -/
def State.countFor (s : State) (part : PartNo) (va : Nat) (x : Trans) : State := (s.pass part x.spa).countPage part va x

/-- One counted event on a page of the focus tile's task. -/
def State.countAccess (s : State) (va : Nat) (x : Trans) : State := s.countFor s.part va x

/-! ## Ports of routers -/

/-- The port of a router that leads to a neighbour: 1 north, 2 east, 3 south, 4 west, 5 the die link; the model takes row 0 as the
northernmost and column 0 as the westernmost (log 7). -/
def portTo (x y : ClusterNo) : Nat :=
  if dieOf x ≠ dieOf y then 5
  else if y.val + 4 = x.val then 1
  else if y.val = x.val + 1 then 2
  else if y.val = x.val + 4 then 3
  else 4

/-- A hop: its router, the output port on which the row leaves and the input port by which it came (R417). -/
structure RouteHop where
  router : ClusterNo
  out : Nat
  inp : Nat
  deriving DecidableEq, Repr, Inhabited

/-- The hops of a route, from the local port of its first router to the local port of its last (R417). -/
def hopsFrom (inp : Nat) : List ClusterNo → List RouteHop
  | [] => []
  | [x] => [⟨x, 0, inp⟩]
  | x :: y :: l => ⟨x, portTo x y, inp⟩ :: hopsFrom (portTo y x) (y :: l)

/-! ## Slots -/

/-- The router cycles of one slot and of a revolution, and those of one unit of the timestamp (R417, R4). -/
def slotCycles : Nat := 8
def revCycles : Nat := 512
def unitCycles : Nat := 20

/-- The first router cycle from n on at which a slot starts; revolutions count from time 0 (R417, log 7). -/
def slotStart (slot n : Nat) : Nat := n + (slotCycles * slot + revCycles - n % revCycles) % revCycles

/-- The entry of a slot table during a revolution: a write takes effect at the next one (R417). -/
def Die.routerIn (d : Die) (rev i : Nat) : Byte :=
  match d.routerWas.find? fun x => x.1 == rev && x.2.1 == i with
  | some x => x.2.2
  | none => d.router.get i

/-- Whether a router's output port keeps the slot that starts at a router cycle for rows from an input port (R417). -/
def State.reserved (s : State) (x : RouteHop) (n : Nat) : Bool :=
  let i := revCycles * (x.router.val % 12) + 64 * x.out + n / slotCycles % 64
  let e := (((s.dies[(dieOf x.router).val]).routerIn (n / revCycles) i)).toNat
  e / 2 ^ 7 == 1 && e % 8 == x.inp

/-- The router cycle at which a row that stands before a hop at cycle n has passed the rest of its route: each hop takes one
slot, and one that does not keep the row's slot costs a revolution (R417, log 7). -/
def State.passed (s : State) : Nat → List RouteHop → Nat
  | n, [] => n
  | n, x :: l => s.passed (n + slotCycles + (if s.reserved x n then 0 else revCycles)) l

/-- A row leaves its sender at the start of its slot, not before a router cycle, and reaches its end when it has passed every
router (R417). -/
def State.launchRow (s : State) (w : Word) (m : RowMsg) (n : Nat) : RowMsg :=
  let leave := slotStart (endSlot w) n
  let hops := hopsFrom 0 (s.route m.src.cl (Fin.ofNat 48 (endCluster w)))
  { m with leave := leave, due := (s.passed leave hops + unitCycles - 1) / unitCycles }

/-- Launch the rows of one circuit anew, in order, one in each revolution (R416, R417); the others stay. -/
def State.launchRows (s : State) (src : TileId) (k : EndNo) (w : Word) : Nat → List RowMsg → List RowMsg
  | _, [] => []
  | n, m :: l =>
    if m.src = src ∧ m.send = k then
      let m' := s.launchRow w m n
      m' :: s.launchRows src k w (m'.leave + revCycles) l
    else m :: s.launchRows src k w n l

/-- The first router cycle at which the next row of a circuit may leave: now, one revolution after the row before it (R417). -/
def State.rowFree (s : State) (src : TileId) (k : EndNo) : Nat :=
  let last := fun (n : Nat) (m : RowMsg) => if m.src == src && m.send == k then max n (m.leave + revCycles) else n
  s.rows.foldl last (unitCycles * s.time.toNat)

end Sys2Proof.Machine
end

