-- ==== Sys2Proof/Machine/Flags.lean ====
section
/-! DEFINITION. The conditions, the predicates and the lane condition register: every flag computation of the spec
(R204, R220, R221, R227, R233). -/

namespace Sys2Proof.Machine

/-- An integer condition on words of w bits (R220, R233). -/
def intCond {w : Nat} (cc : IntCC) (a b : BitVec w) : Bool :=
  match cc with
  | .eq => a == b
  | .ne => a != b
  | .lt => a.slt b
  | .ge => !a.slt b
  | .ltu => a.ult b
  | .geu => !a.ult b

/-- A floating condition (R233). -/
def fpCond (cc : FpCC) (a b : Num) : Bool :=
  match cc with
  | .eq => Num.eqv a b
  | .ne => !Num.eqv a b
  | .lt => Num.lt a b
  | .le => !a.isNan && !b.isNan && !Num.lt b a
  | .uo => a.isNan || b.isNan
  | .ord => !(a.isNan || b.isNan)

/-- The lane condition register that 64 lane results make (R227). -/
def lcrOf (f : Fin 64 → Bool) : BitVec 64 :=
  BitVec.ofNat 64 ((List.finRange 64).foldl (fun n i => n + (f i).toNat * 2 ^ i.val) 0)

/-- The predicate a lane compare sets: the AND of the lanes under .all, else their OR (R233). -/
def lanePred (all : Bool) (f : Fin 64 → Bool) : Bool :=
  if all then (List.finRange 64).all f else (List.finRange 64).any f

/-- A flag as the word that lands at a predicate. -/
def boolWord (b : Bool) : Word := BitVec.ofNat 64 b.toNat

/-- Stage predicate number k, 8 to 15 (R51). -/
def stageP (k : Fin 8) : PReg := ⟨k.val + 8, by omega⟩

/-- The stage predicates as STG holds them (R202). -/
def Tile.stg (t : Tile) : BitVec 8 :=
  BitVec.ofNat 8 ((List.finRange 8).foldl (fun n k => n + (t.pred (stageP k)).toNat * 2 ^ k.val) 0)

/-- Write the stage predicates from STG (R203). -/
def Tile.setStg (t : Tile) (v : Nat) : Tile :=
  (List.finRange 8).foldl (fun t k => t.write (.pred (stageP k)) (boolWord (v.testBit k.val))) t

/-- The rotation of a loop-back branch: p9-p15 take the old predicate below, p8 the loop's bit, RRB falls (R51, R204). DEDUCED
(log 52): it holds for p11 to p15 in the program of R351 too, whose text has all of p8 to p15 at 0 in the end.
old is the tile before the bundle. -/
def Tile.rotate (t old : Tile) (inval : Bool) : Tile :=
  let t := (List.finRange 8).foldl (fun t k =>
    t.write (.pred (stageP k)) (boolWord (if k = 0 then inval else old.pred (stageP (k - 1))))) t
  { t with rrb := old.rrb - 1 }

end Sys2Proof.Machine
end

