-- ==== Sys2Proof/Machine/LocalMem.lean ====
section
/-! DEFINITION. The local map: its checks (R65, R66), scratchpad banks (R54), handles' regions (R77), ring slots (R61),
map windows (R68-R71), stable views and unpublished stores (R118-R120), footprint edges (R140), and the bytes that the
tile core reads and writes. -/

namespace Sys2Proof.Machine

/-- The entries of the local map (R65). -/
inductive Region where
  | sp | slice | ctl | hole
  deriving DecidableEq, Repr, Inhabited

/-- The local map (R65). -/
def regionOf (a : Nat) : Region :=
  if a < 0x180000 then .sp
  else if 0x400000 ≤ a ∧ a < 0xC00000 then .slice
  else if 0x0F000000 ≤ a ∧ a < 0x0F010000 then .ctl
  else .hole

/-- The checks of a local access in their order (R66). -/
def localCheck (priv : Bool) (esz a len : Nat) : Option Cause :=
  if a % esz != 0 then some .align
  else if regionOf a != regionOf ((a + len - 1) % 2 ^ 64) then some .straddle
  else
    match regionOf a with
    | .hole => some .windowHole
    | .ctl => if priv then none else some .privileged
    | .sp => none
    | .slice => none

/-- The place of a scratchpad byte behind bank and line, under the swizzle of its segment (R54, R55). -/
def spPhys (swz : BitVec 24) (a : Nat) : Nat :=
  let bank := fld a 6 5
  let bank := if swz.getLsbD (fld a 16 5) then bank ^^^ fld a 11 5 else bank
  a / 2 ^ 11 * 2 ^ 11 + bank * 64 + a % 64

/-- The bank of a scratchpad byte (R54). -/
def spBank (swz : BitVec 24) (a : Nat) : Nat := fld (spPhys swz a) 6 5

/-- The largest number of distinct 64-byte lines of some addresses that lie in one bank (R252, R254). -/
def bankLoad (swz : BitVec 24) (as : List Nat) : Nat :=
  let lines := (as.map fun a => a / 64 * 64).eraseDups
  (List.range 32).foldl (fun m b => max m (lines.filter fun a => spBank swz a == b).length) 0

namespace Handle

def f (h : Handle) (lo n : Nat) : Nat := fld h.img.toNat lo n
def valid (h : Handle) : Bool := h.f 127 1 == 1
def gen (h : Handle) : Nat := h.f 111 16
def spn (h : Handle) : Nat := h.f 108 3
def fmt (h : Handle) : Nat := h.f 104 4
def planes (h : Handle) : Nat := h.f 100 4
def rows (h : Handle) : Nat := h.f 93 7
def kgrp (h : Handle) : Nat := h.f 81 12
def sparse (h : Handle) : Nat := h.f 66 15
def scale (h : Handle) : Nat := h.f 51 15
def base (h : Handle) : Nat := h.f 36 15

/-- N of an N-of-12 handle (R52). -/
def nOf12 (h : Handle) : Nat :=
  match h.spn with
  | 1 => 2
  | 2 => 3
  | 3 => 4
  | 4 => 6
  | _ => 12

/-- The sparsity step S (R86), 1 for a dense handle. -/
def step (h : Handle) : Nat := 12 / h.nOf12

def isFloat (h : Handle) : Bool :=
  h.fmt == 3 || h.fmt == 4 || h.fmt == 6 || h.fmt == 7 || h.fmt == 8 || h.fmt == 10

/-- The most planes a format permits (R75). -/
def maxPlanes (h : Handle) : Nat :=
  match h.fmt with
  | 9 => 8
  | 11 => 4
  | 13 => 8
  | 15 => 1
  | 3 => 8
  | 4 => 11
  | 6 => 4
  | 7 => 3
  | 10 => 2
  | 8 => 4
  | _ => 0

/-- H of R76. -/
def head (h : Handle) : Nat := if h.isFloat then 26 else 0

/-- The units of 64 bytes of a K-group (R76). -/
def groupUnits (h : Handle) : Nat := h.head + 2 * h.planes

/-- The stored groups T (R77). -/
def stored (h : Handle) : Nat := (h.kgrp + h.step - 1) / h.step

/-- Scales per row NB (R76). -/
def scalesPerRow (h : Handle) : Nat := (12 * h.kgrp + 31) / 32

/-- The spans of a handle's region in bytes (R77). -/
def spans (h : Handle) : List (Nat × Nat) :=
  (h.base * 64, (h.base + h.groupUnits * h.stored) * 64)
    :: (if h.scale != 0 then [(h.scale * 64, (h.scale + (h.rows * h.scalesPerRow + 63) / 64) * 64)] else [])
    ++ (if h.spn != 0 then [(h.sparse * 64, (h.sparse + 2 * h.step * h.stored) * 64)] else [])

/-- Whether a handle's region overlaps [lo, hi). -/
def overlaps (h : Handle) (lo hi : Nat) : Bool := h.valid && h.spans.any fun p => decide (p.1 < hi) && decide (lo < p.2)

end Handle

/-- Read one byte of the focus tile's scratchpad as the bank holds it. -/
def State.spByte (s : State) (a : Nat) : Byte := s.mem.get (spKey s.tile.cl s.tile.tn (spPhys s.tile.spswz a))

/-- Bytes of the focus tile's scratchpad. -/
def State.spBytes (s : State) (a : Nat) : Nat → List Byte
  | 0 => []
  | n + 1 => s.spByte a :: State.spBytes s (a + 1) n

/-- Put bytes into the focus tile's scratchpad banks. -/
def State.spRaw (s : State) (a : Nat) : List Byte → State
  | [] => s
  | b :: l =>
    State.spRaw { s with mem := s.mem.set (spKey s.tile.cl s.tile.tn (spPhys s.tile.spswz a)) b } (a + 1) l

/-- Note a write of [a, a + n) in the handles whose regions it overlaps (R85). -/
def State.noteWrite (s : State) (a n : Nat) : State :=
  let old := (List.range n).map fun k => (a + k, s.spByte (a + k))
  s.mapTile fun t =>
    { t with handles := t.handles.map fun h =>
        if h.overlaps a (a + n) then { h with written := true, undo := old :: h.undo } else h }

/-- A write to the focus tile's scratchpad by any of its agents. -/
def State.spPut (s : State) (a : Nat) (bs : List Byte) : State := (s.noteWrite a bs.length).spRaw a bs

namespace Ring

def slotBytes (r : Ring) : Nat := (r.slotsz.val + 1) * 64

/-- The byte address of a slot (R59); the areas of a predictable ring follow the last slot (R146). -/
def slotAddr (r : Ring) (k : Nat) : Nat := r.base.val * 64 + k * r.slotBytes

def nslots (r : Ring) : Nat := r.nslot.val + 1

/-- The shadow slot: the area at BASE + (NSLOT+1)·(SLOTSZ+1), and the history areas H1 and H2 after it (R146). -/
def shadow (r : Ring) : Nat := r.slotAddr r.nslots
def hist1 (r : Ring) : Nat := r.slotAddr (r.nslots + 1)
def hist2 (r : Ring) : Nat := r.slotAddr (r.nslots + 2)

/-- The descriptor word (R59). -/
def desc (r : Ring) : Word :=
  if r.valid then
    BitVec.ofNat 64 (2 ^ 63 + r.pred.toNat * 2 ^ 62 + r.nslot.val * 2 ^ 58 + r.slotsz.val * 2 ^ 44 + r.base.val * 2 ^ 29
      + r.pidx.val * 2 ^ 25 + r.cidx.val * 2 ^ 21)
  else 0

/-- The state word (R59). -/
def stateWord (r : Ring) : Nat :=
  (List.range 16).foldl (fun w k =>
    w + (match r.st.toList.getD k .empty with
      | .empty => 0
      | .filling => 1
      | .full => 2
      | .draining => 3) * 4 ^ k) 0

/-- The index after an index. -/
def next (r : Ring) (k : Fin 16) : Fin 16 := if k.val + 1 < r.nslots then k + 1 else 0

/-- The index before an index. -/
def prev (r : Ring) (k : Fin 16) : Fin 16 := if k = 0 then r.nslot else k - 1

def setSlot (r : Ring) (k : Fin 16) (x : SlotSt) (o : Owner) : Ring :=
  { r with st := r.st.set k.val x, own := r.own.set k.val o }

end Ring

/-- The slots of declared rings that [lo, hi) touches. -/
def Tile.slotsIn (t : Tile) (lo hi : Nat) : List (Fin 8 × Fin 16) :=
  (List.finRange 8).flatMap fun n =>
    let r := t.rings[n.val]
    if r.valid && decide (lo < r.slotAddr r.nslots) && decide (r.slotAddr 0 < hi) then
      ((List.finRange 16).filter fun k =>
        decide (k.val < r.nslots) && decide (r.slotAddr k.val < hi) && decide (lo < r.slotAddr (k.val + 1))).map fun k => (n, k)
    else []

/-- What a check that may have to wait answers. -/
inductive Verdict where
  | ok | bad | later
  deriving DecidableEq, Repr, Inhabited

/-- Whether a slot is full-speculative (R152). -/
def Tile.specFull (t : Tile) (n : Fin 8) (k : Fin 16) : Bool := t.spec.any fun p => p.pubbed.contains (n, k)

/-- The table of R61 for one slot, with the predicted slot (R150) and the full-speculative one (R152). -/
def Tile.slotVerdict (t : Tile) (who : Owner) (write : Bool) (n : Fin 8) (k : Fin 16) : Verdict :=
  let r := t.rings[n.val]
  let mine := r.own[k.val] == who
  if !write && who == .core && t.pslots.contains (n, k) then .ok
  else
    match r.st[k.val] with
    | .empty => .bad
    | .filling => if mine then .ok else .bad
    | .full => if write then .bad else if who != .core && t.specFull n k then .later else .ok
    | .draining => if mine && !write then .ok else .bad

/-- The verdict of R61 over [lo, hi). -/
def Tile.slotsVerdict (t : Tile) (who : Owner) (write : Bool) (lo hi : Nat) : Verdict :=
  let vs := (t.slotsIn lo hi).map fun p => t.slotVerdict who write p.1 p.2
  if vs.contains .bad then .bad else if vs.contains .later then .later else .ok

namespace MapEntry

def f (m : MapEntry) (lo n : Nat) : Nat := fld m.img.toNat lo n
def valid (m : MapEntry) : Bool := m.f 127 1 == 1
def wr (m : MapEntry) : Bool := m.f 126 1 == 1
/-- The scratchpad range of the window (R68). -/
def lo (m : MapEntry) : Nat := m.f 113 13 * 256
def nlines (m : MapEntry) : Nat := m.f 100 13 + 1
def hi (m : MapEntry) : Nat := m.lo + m.nlines * 256
/-- The virtual address of the first line (R68). -/
def va (m : MapEntry) : Nat := m.f 54 46 * 256

/-- A touched line, none where the line is untouched (R69). -/
def line (m : MapEntry) (k : Nat) : Option WinLine := m.lines.find? fun p => p.line == k

/-- Put a line, the lines staying in order. -/
def putLine : List WinLine → WinLine → List WinLine
  | [], v => [v]
  | a :: l, v =>
    if v.line < a.line then v :: a :: l
    else if a.line = v.line then v :: l
    else a :: putLine l v

end MapEntry

/-- The window that holds a scratchpad address (R68). -/
def Tile.window (t : Tile) (a : Nat) : Option MapNo :=
  (List.finRange 16).find? fun n =>
    let m := t.maps[n.val]
    m.valid && decide (m.lo ≤ a) && decide (a < m.hi)

/-- The window lines that [lo, hi) touches (R69). -/
def Tile.winLines (t : Tile) (lo hi : Nat) : List (MapNo × Nat) :=
  (List.finRange 16).flatMap fun n =>
    let m := t.maps[n.val]
    if m.valid && decide (lo < m.hi) && decide (m.lo < hi) then
      let a := max lo m.lo - m.lo
      let b := min hi m.hi - m.lo
      (List.range ((b + 255) / 256 - a / 256)).map fun k => (n, a / 256 + k)
    else []

/-- Mark a byte of a window dirty (R69). -/
def Tile.markDirty (t : Tile) (a : Nat) : Tile :=
  match t.window a with
  | none => t
  | some n =>
    let m := t.maps[n.val]
    let k := (a - m.lo) / 256
    let old := (m.line k).getD ⟨k, 0, 2⟩
    let new := { old with mask := old.mask ||| (1#256 <<< ((a - m.lo) % 256)) }
    { t with maps := t.maps.set n.val { m with lines := MapEntry.putLine m.lines new } }

/-- The byte that a speculating task's held stores give an address, the latest first (R151). -/
def Tile.heldByte (t : Tile) (a : Nat) : Option Byte :=
  match t.spec with
  | none => none
  | some p => p.held.foldl (fun r h =>
      match h.op with
      | .store l => l.foldl (fun r x => if x.1 ≤ a ∧ a < x.1 + x.2.length then x.2[a - x.1]? else r) r
      | _ => r) none

/-- The bytes [lo, hi) of a ring slot. -/
def Tile.slotSpan (t : Tile) (p : Fin 8 × Fin 16) : Nat × Nat :=
  let r := t.rings[p.1.val]
  (r.slotAddr p.2.val, r.slotAddr (p.2.val + 1))

/-- Where a read of a predicted slot goes (R150). -/
def Tile.shadowed (t : Tile) (a : Nat) : Nat :=
  match t.pslots.find? fun p => decide ((t.slotSpan p).1 ≤ a) && decide (a < (t.slotSpan p).2) with
  | none => a
  | some p => (t.rings[p.1.val]).shadow + (a - (t.slotSpan p).1)

/-- A slice byte as the tile sees it: its own unpublished store, its stable view, the bank (R118, R119). -/
def State.sliceByte (s : State) (a : Nat) : Byte :=
  let off := a - 0x400000
  match ovGet s.tile.unpub off with
  | some b => b
  | none =>
    match ovGet s.tile.tpub off with
    | some b => b
    | none =>
      match s.tile.view.find? fun p => p.1 == off / 64 with
      | some (_, v) => v[off % 64]!
      | none => s.mem.get (sliceKey s.tile.cl off)

/-- A byte as the tile core's memory slot reads it (R58, R118, R119, R150, R151). -/
def State.coreByte (s : State) (a : Nat) : Byte :=
  match s.tile.heldByte a with
  | some b => b
  | none => if regionOf a == .slice then s.sliceByte a else s.spByte (s.tile.shadowed a)

def State.coreBytes (s : State) (a : Nat) : Nat → List Byte
  | 0 => []
  | n + 1 => s.coreByte a :: State.coreBytes s (a + 1) n

/-- A little-endian number as the memory slot reads it. -/
def State.coreNum (s : State) (a n : Nat) : Nat := leNat (s.coreBytes a n)

/-- Take a slice line into the stable view at its first access (R119). -/
def State.touchLine (s : State) (line : Nat) : State :=
  if s.tile.view.any fun p => p.1 == line then s
  else
    let v : Vector Byte 64 := Vector.ofFn fun i => s.mem.get (sliceKey s.tile.cl (line * 64 + i.val))
    s.mapTile fun t => { t with view := (line, v) :: t.view }

/-- The slice lines of some ranges of local addresses. -/
def sliceLines (l : List (Nat × Nat)) : List Nat :=
  (l.flatMap fun p =>
    if regionOf p.1 == .slice then
      let a := (p.1 - 0x400000) / 64
      (List.range ((p.2 - 0x400000 + 63) / 64 - a)).map (a + ·)
    else []).eraseDups

/-- The slice lines that a tile's view holds at most (R120). -/
def viewMax : Nat := 1024

/-- First-touch the slice lines of an access to some ranges (R119); where they would take the view beyond its limit, the view is
dropped and the whole access touches its lines afresh (R120). -/
def State.touchAll (s : State) (l : List (Nat × Nat)) : State :=
  let ls := sliceLines l
  let new := ls.filter fun k => !s.tile.view.any fun p => p.1 == k
  let s := if viewMax < s.tile.view.length + new.length then s.mapTile fun t => { t with view := [] } else s
  ls.foldl State.touchLine s

/-- First-touch the slice lines of [lo, hi), local addresses. -/
def State.touch (s : State) (lo hi : Nat) : State := s.touchAll [(lo, hi)]

/-- A store to the focus tile's scratchpad; bytes of a window also become dirty (R69). -/
def State.spStore (s : State) (a : Nat) (bs : List Byte) : State :=
  let s := s.spPut a bs
  if (s.tile.winLines a (a + bs.length)).isEmpty then s
  else s.mapTile fun t => (List.range bs.length).foldl (fun t k => t.markDirty (a + k)) t

/-- Perform a store of the tile core: slice bytes stay unpublished (R127), scratchpad bytes go to their banks, bytes of a
window also become dirty (R69). -/
def State.performStore (s : State) (a : Nat) (bs : List Byte) : State :=
  if regionOf a == .slice then
    (s.touch a (a + bs.length)).mapTile fun t => { t with unpub := ovPut t.unpub (a - 0x400000) bs }
  else s.spStore a bs

/-- Whether a byte of a store of a speculating task is performed at once: it lies in a slot acquired after the speculation point,
in no other slot and in no window (R151). -/
def Tile.freeByte (t : Tile) (p : Spec) (a : Nat) : Bool :=
  let ss := t.slotsIn a (a + 1)
  regionOf a == .sp && !ss.isEmpty && ss.all (fun x => p.acquired.contains x) && (t.window a).isNone

/-- The pieces of a store at an address, cut where the treatment of its bytes changes: whether each is performed at once
(R151). -/
def Tile.cutStore (t : Tile) (p : Spec) : Nat → List Byte → List (Bool × Nat × List Byte)
  | _, [] => []
  | a, b :: l =>
    let now := t.freeByte p a
    match Tile.cutStore t p (a + 1) l with
    | (x, y, bs) :: r => if x == now then (x, a, b :: bs) :: r else (now, a, [b]) :: (x, y, bs) :: r
    | [] => [(now, a, [b])]

/-- The bytes that a held effect charges in the effect buffer (R153). -/
def HeldOp.charge (h : HeldOp) : Nat :=
  match h with
  | .store l => l.foldl (fun n x => n + x.2.length) 8
  | _ => 64

/-- The use of the effect buffer (R153). -/
def Spec.used (p : Spec) : Nat := p.held.foldl (fun n h => n + h.op.charge) 0

/-- Whether the effect buffer has room (R153). -/
def Spec.fits (p : Spec) (h : HeldOp) : Bool := decide (p.used + h.charge ≤ 65536)

/-- Hold an effect (R151). -/
def Tile.hold (t : Tile) (pc : Nat) (h : HeldOp) : Tile :=
  match t.spec with
  | none => t
  | some p => { t with spec := some { p with held := p.held ++ [⟨pc, h⟩] } }

/-- The cycles of the cluster's clock in a number of nanoseconds, rounded up: f MHz is 25 times the frequency code
(R318, R429). -/
def nsToTc (freq ns : Nat) : Nat := (ns * freq * 25 + 999) / 1000

/-- The bound of a latency class in nanoseconds (R318). -/
def classBound (lc : Nat) : Nat :=
  match lc with
  | 1 => 320
  | 2 => 480
  | _ => 900

/-- The tile cycles a class-0 fill takes in the model (log 7). -/
def class0Fill : Nat := 64

/-- The tile cycles from issue until a store is performed at its bank: one turn of the wheel (R56, log 7). -/
def storeDelay : Nat := 4

/-- A fill of a window line, begun at the present tile cycle (R319): one with a bound returns in its last tile cycle, and the data
is readable from the bound, unless something outside has it return earlier or late (log 7). -/
def mkFill (t : Tile) (freq : Nat) (part : PartNo) (n : MapNo) (line : Nat) (x : Trans) : Fill :=
  let va := (t.maps[n.val]).va + 256 * line
  if x.leaf.lc == 0 then ⟨n, line, x.spa, t.tc + class0Fill, t.tc + class0Fill + 6, 0, .core, x.leaf, part, va⟩
  else
    let l := nsToTc freq (classBound x.leaf.lc)
    ⟨n, line, x.spa, t.tc + l - 1, t.tc + l, x.leaf.lc, .core, x.leaf, part, va⟩

/-- A fill returns after a number of tile cycles from now on: its data is readable from the bound, where it has one, or from the
cycle after a later return (R319). -/
def Fill.returnIn (f : Fill) (now n : Nat) : Fill :=
  { f with due := now + n, ready := if f.cls = 0 then now + n + 6 else max f.ready (now + n + 1) }

/-- The virtual address of a window line. -/
def Tile.lineVa (t : Tile) (p : MapNo × Nat) : Nat := (t.maps[p.1.val]).va + 256 * p.2

/-- Whether a first write to a line has still to check write permission (R70). The first write after a write-back, to a line that
is clean again, checks it again: DESIGN CHOICE, the spec saying only that the first write does (log 10). -/
def Tile.unwritten (t : Tile) (p : MapNo × Nat) : Bool :=
  match (t.maps[p.1.val]).line p.2 with
  | none => true
  | some m => m.mask == 0

/-- Translate the lines of an access: untouched ones for read, unwritten ones for write when the access writes; the
fills to begin (R70). -/
def State.fillLines (s : State) (write : Bool) : List (MapNo × Nat) → List Fill → Except TrapInfo (State × List Fill)
  | [], fs => .ok (s, fs)
  | p :: l, fs =>
    let va := s.tile.lineVa p
    let untouched := ((s.tile.maps[p.1.val]).line p.2).isNone
    let wcheck : Except TrapInfo State :=
      if write && s.tile.unwritten p then (s.translate va .write).map (·.2) else .ok s
    match wcheck with
    | .error e => .error e
    | .ok s =>
      if untouched then
        match s.translate va .read with
        | .error e => .error e
        | .ok (x, s') =>
          if (s.tile.fills.any fun f => f.entry == p.1 && f.line == p.2) then State.fillLines s write l fs
          else
            State.fillLines s' write l (mkFill s.tile s.cluster.freq s.part p.1 p.2 x :: fs)
      else State.fillLines s write l fs

/-- Whether a memory-slot access meets an edge of a job that has not completed (R140), a store its read footprint, a load its
write footprint; the destination of a collective, which loads pass, holds stores up (R305): local bytes [lo, hi), and the virtual bytes of the windows among them. -/
def Tile.edge (t : Tile) (write : Bool) (lo hi : Nat) : Bool :=
  let hit := fun (f : Foot) (a b : Nat) => decide (f.lo < b) && decide (a < f.hi) && (if write then !f.wr || f.loadsPass else f.wr && !f.loadsPass)
  t.feet.any (fun f => !f.glob && hit f lo hi)
    || (t.winLines lo hi).any (fun p =>
        let a := (t.maps[p.1.val]).lo + 256 * p.2
        let va := t.lineVa p
        t.feet.any fun f => f.glob && hit f (va + (max lo a - a)) (va + (min hi (a + 256) - a)))

/-- Whether two footprints make an edge (R140). -/
def Foot.clash (f g : Foot) : Bool :=
  f.glob == g.glob && (f.wr || g.wr) && decide (f.lo < g.hi) && decide (g.lo < f.hi)

/-- Whether an earlier job of the tile holds up a job (R140). -/
def Tile.heldUp (t : Tile) (id : Nat) (mine : List Foot) : Bool :=
  t.feet.any fun f => decide (f.id < id) && mine.any fun g => f.clash g

/-- The parts of a range outside another. -/
def cutRange (x p : Nat × Nat) : List (Nat × Nat) :=
  [(x.1, min x.2 p.1), (max x.1 p.2, x.2)].filter fun q => decide (q.1 < q.2)

/-- The parts of a read of [lo, hi) outside the predicted slots, whose bytes the shadow slots serve (R150). -/
def Tile.unshadowed (t : Tile) (lo hi : Nat) : List (Nat × Nat) :=
  t.pslots.foldl (fun l p => l.flatMap fun x => cutRange x (t.slotSpan p)) [(lo, hi)]

/-- The key of the bank's byte that an agent's read of a local address reaches; none where a held store (R151), a store not
yet published or a stable view gives the byte (R118, R119). -/
def State.bankKey (s : State) (who : Owner) (a : Nat) : Option Nat :=
  let core := who == .core
  let t := s.tile
  if core && (t.heldByte a).isSome then none
  else if regionOf a == .slice then
    let off := a - 0x400000
    if (core && (ovGet t.unpub off).isSome) || (ovGet t.tpub off).isSome || t.view.any (fun p => p.1 == off / 64) then none
    else some (sliceKey t.cl off)
  else some (spKey t.cl t.tn (spPhys t.spswz (if core then t.shadowed a else a)))

/-- The first local address of [lo, hi) at which an agent's read meets an uncorrectable error (R263). -/
def State.badLocal (s : State) (who : Owner) (lo hi : Nat) : Option Nat :=
  if s.bad.isEmpty then none
  else ((List.range (hi - lo)).map (lo + ·)).find? fun a => (s.bankKey who a).any s.bad.contains

/-- SP_UNCORRECTABLE at the 64-byte line of a local address (R263, R394). -/
def spError (slot a : Nat) : TrapInfo := { cause := .spUncorrectable, slot := slot, val := line64 a }

/-- The outcome of the later checks of a memory access (R247, steps 4 to 7): go on, a trap, or hold the bundle. -/
inductive Prep where
  | ok (s : State)
  | trap (i : TrapInfo)
  | stall (s : State)

/-- Whether a step that makes an access can go on: the access is made or refused, or it has a fill to begin (R69). -/
def Prep.goes (r : Prep) (s : State) : Bool :=
  match r with
  | .stall u => decide (s.tile.fills.length < u.tile.fills.length)
  | .ok _ | .trap _ => true

/-- The window checks of an access by an agent to some byte ranges, steps 5 and 6 of R247: windows without WR, translations,
first touches (R69, R70). s0 is the state before the bundle, to which a fill that begins is added; the access is held until the
fills have returned. -/
def winPrep (who : Owner) (s0 s : State) (write : Bool) (ranges : List (Nat × Nat)) : Prep :=
  let t := s.tile
  let lines := (ranges.flatMap fun p => if regionOf p.1 == .sp then t.winLines p.1 p.2 else []).eraseDups
  let shut := fun (p : Nat × Nat) => regionOf p.1 == .sp && (t.winLines p.1 p.2).any fun q => !(t.maps[q.1.val]).wr
  match (if write then ranges.find? shut else none) with
  | some p => .trap { cause := .mapEntry, slot := 4, val := BitVec.ofNat 64 p.1 }
  | none =>
    match s.fillLines write lines [] with
    | .error e => .trap { e with slot := 4 }
    | .ok (s', fs) =>
      if !fs.isEmpty then
        .stall (s0.mapTile fun u =>
          { u with fills := u.fills ++ fs.reverse.map (fun f => { f with who := who }), tlb := s'.tile.tlb })
      else if t.fills.any (fun f => lines.contains (f.entry, f.line)) then .stall s0
      else .ok s'

/-- The slot states of an access by an agent to some byte ranges, step 4 of R247 (R61): a full-speculative slot holds another
agent up (R152); then the window checks. -/
def linePrep (who : Owner) (s0 s : State) (write : Bool) (ranges : List (Nat × Nat)) : Prep :=
  let slots := fun (v : Verdict) =>
    ranges.any fun p => regionOf p.1 == .sp && s.tile.slotsVerdict who write p.1 p.2 == v
  if slots .bad then .trap { cause := .bufferState, slot := 4 }
  else if slots .later then .stall s0
  else winPrep who s0 s write ranges

/-- The checks of R247 from step 4 on for the byte ranges of one access by an agent: slot states, windows, footprint edges (R140),
and, for a read, uncorrectable errors in the banks (R263). -/
def agentPrep (who : Owner) (s0 s : State) (write : Bool) (ranges : List (Nat × Nat)) : Prep :=
  let t := s.tile
  let edged := if write || who != .core then ranges else ranges.flatMap fun p => t.unshadowed p.1 p.2
  match linePrep who s0 s write ranges with
  | .trap i => .trap i
  | .stall u => .stall u
  | .ok s' =>
    if edged.any (fun p => t.edge write p.1 p.2) then .stall s0
    else
      match (if write then none else ranges.findSome? fun p => s.badLocal who p.1 p.2) with
      | some a => .trap (spError 4 a)
      | none => .ok s'

/-- The later checks of a memory-slot access (R247). -/
def memPrep (s0 s : State) (write : Bool) (ranges : List (Nat × Nat)) : Prep := agentPrep .core s0 s write ranges

/-- When the window lines of [lo, hi) that fills have brought for the held bundle are readable; 0 where there is none (R319). -/
def Tile.filledAt (t : Tile) (lo hi : Nat) : Nat :=
  (t.winLines lo hi).foldl (fun m p => max m (((t.filled.find? fun x => x.1 == p).map (·.2)).getD 0)) 0

/-- When such lines of several ranges are readable. -/
def Tile.filledAll (t : Tile) (l : List (Nat × Nat)) : Nat := l.foldl (fun m p => max m (t.filledAt p.1 p.2)) 0

/-- The tile cycle at which the data of a load of [lo, hi) lands (R58, R319). -/
def Tile.loadDue (t : Tile) (lo hi : Nat) : Nat :=
  let f := t.filledAt lo hi
  if f != 0 then max f (t.tc + 1) else t.tc + (if regionOf lo == .slice then 10 else 6)

end Sys2Proof.Machine
end

