-- ==== Sys2Proof/Machine/Jobs.lean ====
section
/-! DEFINITION. The shape of a copy job (R290, R291, R295): its sides, its loop nest, its elements in order (R296), the bank
accesses that they take (R330), and how far a running job has come (R299). -/

namespace Sys2Proof.Machine

/-- A loop level of a copy (R291): its iterations, its source and destination strides in elements. -/
structure Level where
  cnt : Nat
  sstr : Int
  dstr : Int

/-- One side of a copy (R290): its base, whether it is global, its ring, its narrowed box. -/
structure Side where
  base : Nat
  space : Nat
  ring : Option (Fin 8)
  box : Option (Int × Int)

/-- A level word (R291). -/
def levelOf (w : Word) : Level := ⟨fld w.toNat 48 16 + 1, sgnVal 24 (fld w.toNat 0 24), sgnVal 24 (fld w.toNat 24 24)⟩

namespace CopyJob

def word (j : CopyJob) (k : Fin 16) : Nat := (j.words[k.val]).toNat
def ctl (j : CopyJob) (lo n : Nat) : Nat := fld (j.word 2) lo n
def esz (j : CopyJob) : Nat := j.ctl 0 4
/-- E (R290). -/
def elem (j : CopyJob) : Nat := 2 ^ j.esz
/-- LEVELS (R290). -/
def levels (j : CopyJob) : Nat := j.ctl 18 3
/-- The levels in use, level 0 first (R291). -/
def nest (j : CopyJob) : List Level := (((j.words.toList.drop 3).take 6).take j.levels).map levelOf

def ringOf (on n : Nat) : Option (Fin 8) := if on = 1 then some (Fin.ofNat 8 n) else none

/-- The source side (R290). -/
def src (j : CopyJob) : Side :=
  ⟨j.word 0, j.ctl 14 2, ringOf (j.ctl 35 1) (j.ctl 32 3),
    if j.ctl 22 1 = 1 then some ((j.word 10 : Int), (j.word 11 : Int)) else none⟩

/-- The destination side (R290). -/
def dst (j : CopyJob) : Side :=
  ⟨j.word 1, j.ctl 16 2, ringOf (j.ctl 39 1) (j.ctl 36 3),
    if j.ctl 23 1 = 1 then some ((j.word 12 : Int), (j.word 13 : Int)) else none⟩

/-- The sum over the levels of the least, or of the greatest, displacement (R295). -/
def reach (j : CopyJob) (f : Level → Int) (pick : Int → Int → Int) : Int :=
  j.nest.foldl (fun a l => a + pick 0 (((l.cnt : Int) - 1) * f l)) 0

/-- The derived box of a side (R295). -/
def derived (j : CopyJob) (base : Nat) (f : Level → Int) : Int × Int :=
  ((base : Int) + j.elem * j.reach f min, (base : Int) + j.elem * (1 + j.reach f max))

end CopyJob

/-- The byte at which a side begins (R296). -/
def Side.start (t : Tile) (x : Side) (slot : Option (Fin 16)) : Int :=
  match x.ring, slot with
  | some n, some k => ((t.rings[n.val]).slotAddr k.val + x.base : Nat)
  | _, _ => x.base

namespace CopyJob

/-- The source and the destination byte of each element of a loop nest, its outermost level first, level 0 fastest (R296). -/
def pairs (j : CopyJob) : List Level → Int → Int → List (Int × Int)
  | [], a, d => [(a, d)]
  | l :: rest, a, d =>
    (List.range l.cnt).flatMap fun (i : Nat) => pairs j rest (a + i * (j.elem * l.sstr)) (d + i * (j.elem * l.dstr))

/-- The elements of a copy in order: the bytes at which each is read and written (R296). -/
def elems (j : CopyJob) (t : Tile) : List (Int × Int) :=
  j.pairs j.nest.reverse (j.src.start t j.inSlot) (j.dst.start t j.outSlot)

/-- The elements of a copy. -/
def count (j : CopyJob) : Nat := j.nest.foldl (fun n l => n * l.cnt) 1

end CopyJob

/-- The tile cycles of an engine's accesses, one class-2 turn each (R147, R330, log 7). -/
def engineTime (accesses : Nat) : Nat := 4 * accesses

/-- The 64-byte lines that n bytes at an address touch (R330). -/
def linesOf64 (a n : Nat) : Nat := (a + n - 1) / 64 - a / 64 + 1

namespace CopyJob

/-- The bank accesses of an element: a line at a time, read and then written, none merged with another element's (R330). -/
def accesses (j : CopyJob) (p : Int × Int) : Nat := linesOf64 p.1.toNat j.elem + linesOf64 p.2.toNat j.elem

/-- The tile cycles that a copy takes in the model: a class-2 turn for each access (R330, log 7). -/
def time (j : CopyJob) (t : Tile) : Nat := engineTime ((j.elems t).foldl (fun n p => n + j.accesses p) 0)

/-- The elements of a running copy written after a number of tile cycles (R299, log 7). -/
def writtenIn (j : CopyJob) : List (Int × Int) → Nat → Nat
  | [], _ => 0
  | p :: l, n => if n < engineTime (j.accesses p) then 0 else writtenIn j l (n - engineTime (j.accesses p)) + 1

/-- DONE of a channel's running job: the bytes written so far (R299). -/
def doneBytes (j : CopyJob) (t : Tile) : Nat :=
  if j.fired then j.elem * j.writtenIn (j.elems t) (t.tc - (j.due - j.time t)) else 0

end CopyJob

end Sys2Proof.Machine
end

