-- ==== Sys2Proof/Machine/Spec.lean ====
section
/-! DEFINITION. Beginning and squashing speculation (R148, R152, R158): the checkpoint, the slots put back, the rows
withdrawn, the cascade. -/

namespace Sys2Proof.Machine

/-- Add to a usage word of every region from a region to the root (R11). n is the word's index in the RCB. -/
def State.charge (s : State) (rcb n : Nat) (up : Bool) (d : Nat) : State :=
  { s with mem := (regionPath s treeDepth rcb).foldl (fun m a =>
      let v := m.num (a + 8 * n) 8
      m.putNumSpa (a + 8 * n) (if up then v + d else v - d) 8) s.mem }

/-- Whether every region from a region to the root has room for a charge: a limit per region (R11). -/
def State.hasRoom (s : State) (rcb n : Nat) (limit : Nat → Nat) (d : Nat) : Bool :=
  (regionPath s treeDepth rcb).all fun a => decide (rcbWord s a n + d ≤ limit a)

/-- A limit of a region's own: none, hence beyond every charge, where the region draws from its parent's pool (R10). -/
def ownLimit (s : State) (rcb b v : Nat) : Nat := if inherits s rcb b then 2 ^ 128 else v

/-- The tile-cycle budget of a region; all ones is unlimited (R360). -/
def tcLimit (s : State) (rcb : Nat) : Nat :=
  let v := rcbWord s rcb 2
  ownLimit s rcb 0 (if v = 2 ^ 64 - 1 then 2 ^ 128 else v)

/-- The scratchpad-byte budget of a region (R360). -/
def spLimit (s : State) (rcb : Nat) : Nat := ownLimit s rcb 1 (fld (rcbWord s rcb 3) 32 32)

/-- The team budget of a region (R360). -/
def teamLimit (s : State) (rcb : Nat) : Nat := ownLimit s rcb 2 (fld (rcbWord s rcb 3) 16 16)

/-- The speculation-slot budget of a region (R360). -/
def specLimit (s : State) (rcb : Nat) : Nat := ownLimit s rcb 3 (fld (rcbWord s rcb 3) 0 16)

/-- The operations of a tile that count in tl and are still out: puts, ordinary rows, collectives (R286). -/
def State.tlCount (s : State) (i : TileId) : Nat :=
  (s.puts.filter fun m => m.src == i).length + (s.rows.filter fun m => m.src == i && m.depth == 0).length
    + (s.colls.foldl (fun n c => n + (c.members.filter fun m => m.tile == i && !m.out).length) 0)

/-- The copy jobs of a tile that are still out (R286). -/
def Tile.cpCount (t : Tile) : Nat := t.chans.toList.foldl (fun n c => n + c.jobs.length) 0

/-- The tile's architectural state with every result in flight landed: what a checkpoint holds (R148, R313). -/
def Tile.checkpoint (t : Tile) : Arch := (t.flights.foldl Tile.landFlight t).toArch

/-- Put the slots of a squashed speculation back (R152). -/
def Tile.restoreSlots (t : Tile) (p : Spec) : Tile :=
  let undo := fun (n : Fin 8) (r : Ring) =>
    let acq := p.acquired.filter fun x => x.1 == n
    let tak := p.taken.filter fun x => x.1 == n
    let r := acq.foldl (fun r x => { (r.setSlot x.2 .empty .nobody) with pidx := r.prev r.pidx }) r
    let r := tak.foldl (fun r x => { (r.setSlot x.2 .full .nobody) with cidx := r.prev r.cidx }) r
    let r := { r with hist := r.hist.filter fun h => !acq.any fun x => x.2 == h.1 }
    if p.ring == some n then
      let r := if t.ahead == some (n, p.slot) then r else { r with cidx := r.prev r.cidx }
      if p.published then r.setSlot p.slot .full .nobody else r
    else r
  { t with rings := Vector.ofFn fun n => undo n t.rings[n.val] }

/-- A fill that a squashed run of the tile core began: no bundle waits for it, and none is faulted by it (R158, R162). -/
def Fill.orphan (f : Fill) : Fill := if f.who == .core then { f with who := .nobody } else f

/-- Restore one squashed tile to its speculation point (R158). DESIGN CHOICE (log 25): its counters become those of the operations
that are still outstanding, not those of the checkpoint, since R158 keeps what is under way. -/
def Tile.unspec (t : Tile) (p : Spec) (tl : Nat) : Tile :=
  let t := t.restoreSlots p
  let a := p.chk
  { t with
    toArch := { a with cld := 0, cst := t.ops.length, ccp := t.cpCount, ctl := tl }
    pc := p.pt
    flights := []
    feet := t.feet.filter fun f => !(f.remote && decide (p.job0 ≤ f.id))
    fills := t.fills.map Fill.orphan
    pslots := t.pslots.filter fun x => p.ring != some x.1 || x.2 != p.slot
    recvRows := p.rows ++ t.recvRows
    ahead := if p.ring.isSome then none else t.ahead
    spec := none
    squashes := t.squashes + 1 }

/-- Squash one speculating tile: its rows withdrawn from every receiver, its slot freed, its state restored (R158). -/
def State.squashOne (s : State) (i : TileId) : State :=
  let t := s.tileAt i
  match t.spec with
  | none => s
  | some p =>
    let s := { s with rows := s.rows.filter fun m => !(m.src == i && decide (0 < m.depth)) }
    let keep := fun (r : CircRow) => !(r.spec.any fun x => x.1 == i)
    let s := s.mapTiles fun u =>
      { u with
        recvRows := u.recvRows.filter keep
        spec := u.spec.map fun q => { q with rows := q.rows.filter keep } }
    let strip := fun (u : Tile) => ({ u with recvRows := u.recvRows.filter keep } : Tile)
    let s := { s with teams := s.teams.map fun k => Team.mapSaved k strip }
    let s := s.setTile (((s.tileAt i).unspec p (s.tlCount i)).settle)
    match t.task.bind fun k => s.findTeam k.team with
    | none => s
    | some k => s.charge k.rcb 11 false 1

/-- Some tiles and those whose speculation depends on them, n links on (R155, R158). -/
def State.cascade (s : State) : Nat → List TileId → List TileId
  | 0, l => l
  | n + 1, l =>
    let next := s.tiles.filter fun t => !l.contains t.id && t.spec.any fun p => p.deps.any l.contains
    if next.isEmpty then l else s.cascade n (l ++ next.map Tile.id)

/-- Squash a tile's speculation and that of every task that depends on it, whichever number they are (R158). -/
def State.squash (s : State) (i : TileId) : State := (s.cascade s.tiles.length [i]).foldl State.squashOne s

/-- Begin speculation on the focus tile at its bundle: checkpoint, one slot charged (R148 steps 1 to 3, R155). -/
def State.beginSpec (s : State) (depth : Nat) : State :=
  let s := s.mapTile fun t =>
    { t with spec := some { pt := t.pc, chk := t.checkpoint, depth := depth, ring := none, job0 := t.jobCtr } }
  match s.team with
  | none => s
  | some k => s.charge k.rcb 11 true 1

end Sys2Proof.Machine
end

