-- ==== Sys2Proof/Machine/Issue.lean ====
section
/-! DEFINITION. Issuing a bundle: the slots' checks and effects all or nothing (R178, R179), stalls on outstanding results
(R314), waits (R34), deferred faults (R154), and what every issued bundle does (R228, R201, R402). -/

namespace Sys2Proof.Machine

/-- What a slot sees besides the state that the slots before it have left: the state before the bundle, the rounding
override, the address of the bundle (R178). -/
structure Ctx where
  s0 : State
  rnd : Nat
  pc : Nat

/-- The tile as it stood before the bundle (R178). -/
def Ctx.pre (c : Ctx) : Tile := c.s0.tile

/-- What a slot asks of the bundle's end: a taken branch (to a block or to a word), the X of an SCSEL (R228), the
immediate of TRAP (R213), whether the task retires (R213), what control-window registers become for the next bundle (R214). -/
structure Fx where
  branch : Option (Bool × Nat) := none
  scx : Option Nat := none
  trapImm : Option Nat := none
  retire : Bool := false
  wire : Tile → Tile := id

def Fx.merge (a b : Fx) : Fx :=
  ⟨a.branch.or b.branch, a.scx.or b.scx, a.trapImm.or b.trapImm, a.retire || b.retire, b.wire ∘ a.wire⟩

/-- The outcome of a slot: its effect, a trap, a trap that keeps what its boundary has written back (R385), a trap that keeps an
effect once no other slot traps (R208), a stall, a resolution stall (R153) or a wait that holds the bundle. -/
inductive SlotR where
  | ok (s : State) (fx : Fx)
  | trap (i : TrapInfo)
  | fail (s : State) (i : TrapInfo)
  | late (s : State) (i : TrapInfo)
  | stall (s : State)
  | resolve
  | wait (s : State) (k : WaitKind)

/-- One slot of a bundle: its class, whether its opcode is privileged, whether it makes a resolution stall (R151), the
sites it reads (R314), whether it raises a pending engine error (R288), the queue that it pops before the matrix slot reserves
(R84), whether a speculation that it begins goes on in the same tile cycle (R155, R302), its checks and effect. -/
structure Slot where
  cls : Nat
  priv : Bool := false
  resolves : Tile → Bool := fun _ => false
  reads : Tile → List Site := fun _ => []
  meets : State → Bool := fun _ => false
  early : Option QReg := none
  prompt : Bool := false
  run : Ctx → State → SlotR

/-- The state of a bundle under way. -/
structure Run where
  s : State
  fx : Fx := {}
  late : Option (State × TrapInfo) := none

/-- The outcome of a bundle's slots. -/
inductive RunR where
  | done (r : Run)
  | trap (i : TrapInfo)
  | fail (s : State) (i : TrapInfo)
  | stall (s : State)
  | resolve
  | wait (s : State) (k : WaitKind)

/-- Causes of the checks that a waiting bundle makes before it waits: steps 1 to 3 of R247. -/
def Cause.early (c : Cause) : Bool :=
  match c with
  | .bufferState | .mapEntry | .leaseViolation | .pageNotPresent | .pagePermission | .pageAtomic | .translationConflict
  | .partitionFence | .peerUnreachable | .spUncorrectable | .machineCheck => false
  | _ => true

/-- The trap of a slot, or, where the slot has run before one of a lower class (R84), that one's (R189). DESIGN CHOICE (log 54): a stall of
that one does not hold the trap back. -/
def RunR.or (rest : RunR) (x : Slot) (i : TrapInfo) : RunR :=
  match rest with
  | .trap j => if j.slot < x.cls then .trap j else .trap i
  | .done _ | .fail _ _ | .stall _ | .resolve | .wait _ _ => .trap i

/-- The stall of a slot, or the trap of one of a lower class that runs after it (R84, R189). -/
def RunR.orStall (rest : RunR) (x : Slot) (s : State) : RunR :=
  match rest with
  | .trap j => if j.slot < x.cls then .trap j else .stall s
  | .done _ | .fail _ _ | .stall _ | .resolve | .wait _ _ => .stall s

/-- What a memory slot meets from step 4 of R247 on, unless a slot after it waits: such a wait comes first (R34, R247). -/
def RunR.orWait (rest : RunR) (x : Slot) (mine : RunR) : RunR :=
  match rest with
  | .wait s k => if x.cls = 4 then .wait s k else mine
  | .done _ | .trap _ | .fail _ _ | .stall _ | .resolve => mine

/-- A queue without its oldest entry. -/
def Tile.dropHead (t : Tile) (q : QReg) : Tile := { t with queues := t.queues.set q.val (t.queues[q.val]).tail }

/-- What the slots after one see where it does not go on: the queue that it pops early is popped for them (R84). -/
def Slot.ahead (x : Slot) (s : State) : State :=
  match x.early with
  | some q => s.mapTile fun t => t.dropHead q
  | none => s

/-- Run the slots in ascending class order; a guarded-off slot has no effect (R183, R189); a slot that reads a grid row whose
parity is in error raises GRID_PARITY before its other checks (R50, R224, R247). -/
def runSlots (c : Ctx) : List (PReg × Slot) → Run → RunR
  | [], r => .done r
  | (g, x) :: l, r =>
    if !c.pre.pred g then runSlots c l r
    else if (x.reads c.pre).any c.pre.spoilt then .trap { cause := .gridParity, slot := x.cls }
    else
      match x.run c r.s with
      | .ok s fx => runSlots c l { r with s := s, fx := r.fx.merge fx }
      | .trap i =>
        let mine : TrapInfo := { i with slot := x.cls }
        let rest := runSlots c l { r with s := x.ahead r.s }
        if x.early.isSome then rest.or x mine
        else if i.cause.early then .trap mine
        else rest.orWait x (.trap mine)
      | .fail s i => (runSlots c l r).orWait x (.fail s { i with slot := x.cls })
      | .late s i => runSlots c l { r with late := some (s, { i with slot := x.cls }) }
      | .stall s =>
        let rest := runSlots c l { r with s := x.ahead r.s }
        if x.early.isSome then rest.orStall x s else rest.orWait x (.stall s)
      | .resolve => .resolve
      | .wait s k =>
        match runSlots c l r with
        | .trap i => if i.cause.early then .trap i else .wait s k
        | .fail _ _ => .wait s k
        | .done _ => .wait s k
        | .stall _ => .wait s k
        | .resolve => .wait s k
        | .wait _ _ => .wait s k

/-- The order in which slots run: ascending classes, but that the engine slot's pop comes before the matrix slot's
reservation (R84). -/
def popFirst (xs : List (PReg × Slot)) : List (PReg × Slot) :=
  if xs.any (fun p => p.2.early.isSome) then
    xs.filter (fun p => p.2.early.isNone && decide (p.2.cls < 5)) ++ xs.filter (fun p => p.2.early.isSome)
      ++ xs.filter fun p => p.2.early.isNone && !decide (p.2.cls < 5)
  else xs

/-- The cause with a code (R288, R392). -/
def causeOf (n : Nat) : Cause :=
  match n with
  | 19 => .bufferState | 21 => .mapEntry | 24 => .leaseViolation | 25 => .pageNotPresent | 26 => .pagePermission
  | 28 => .translationConflict | 30 => .addressRange | 48 => .spUncorrectable | 55 => .machineCheck
  | 29 => .peerUnreachable | 31 => .partitionFence | 32 => .semOverflow | 33 => .semIndex | 39 => .circuitUnbound
  | 43 => .collectiveMismatch | 46 => .nakLimit | 52 => .linkDown
  | _ => .engineState

/-- Causes that a speculating task does not defer (R154). -/
def Cause.undeferred (c : Cause) : Bool :=
  (decide (48 ≤ c.code) && decide (c.code ≤ 55)) || decide (61 ≤ c.code)

/-- Hold the bundle for a tile cycle without a wait: stretch (R320), timed for the watchdog (R400). -/
def State.holdIssue (s : State) : State :=
  s.mapTile fun t =>
    { t with tc := t.tc + 1, stretch := t.stretch + 1, wait := none,
             stallSince := some (t.stallSince.getD s.time.toNat) }

/-- Hold the bundle for a tile cycle in a wait of R34, timed from its beginning (R35). -/
def State.holdWait (s : State) (k : WaitKind) : State :=
  s.mapTile fun t =>
    { t with tc := t.tc + 1, stallSince := none,
             wait := some (match t.wait with
               | some w => if w.kind == k then w else ⟨k, s.time.toNat⟩
               | none => ⟨k, s.time.toNat⟩) }

/-- Raise a cause at the focus tile's bundle: deferred in speculation (R154), after a squash where it is not deferred,
else delivered. A deferred fault of a reissued bundle has its second cycle behind it (R322). -/
def State.raise (s : State) (pc : Nat) (i : TrapInfo) : State :=
  match s.tile.spec with
  | none => s.deliver i pc
  | some p =>
    if i.cause.undeferred then
      let s := s.squash s.tile.id
      s.deliver i s.tile.pc
    else
      (s.mapTile fun t =>
        { t with tc := t.tc + t.reissue.toNat, reissue := false
                 spec := some { p with fault := some { i with deferred := true } } }).holdIssue

/-- What the end of an issued bundle does to SCALEST (R228). -/
def Tile.endScale (t : Tile) (scx : Option Nat) : Tile :=
  let t := if t.pv then { t with xrd := t.xpend } else t
  match scx with
  | some x => { t with xpend := BitVec.ofNat 8 x, pv := true }
  | none => { t with pv := false }

/-- Where the task goes on after a bundle of n words. -/
def Fx.next (fx : Fx) (pc n : Nat) : Nat :=
  match fx.branch with
  | some (_, a) => a
  | none => pc + 4 * n

/-- The tile cycles of an issued bundle: 1, 2 for a reissue, 2 more for a taken branch (R201, R322). -/
def issueCost (reissue taken : Bool) : Nat := (if reissue then 2 else 1) + (if taken then 2 else 0)

/-- An issued bundle of n words: SCALEST as the bundle leaves it, then the control-window registers that it has written, which take
effect for the next bundle (R214, R228); the program counter, the tile cycles, the two of a taken branch in which the task issues
nothing being stretch (DEDUCED: R320 calls every tile cycle without issue so, and does not list them, log 24); a value that the bundle writes to
SCALEST stands over the one that its BMAX or SCSEL leaves (DESIGN CHOICE, log 54); then TRAP_INSTRUCTION or SINGLE_STEP
(R213, R402), or the end of the task (R21). -/
def commit (c : Ctx) (n : Nat) (s : State) (fx : Fx) : State :=
  let a := fx.next c.pc n
  let s := s.mapTile fun t =>
    let u := (fx.wire (t.endScale fx.scx)).settle
    { u with
      pc := a, tc := c.pre.tc + issueCost c.pre.reissue fx.branch.isSome
      stretch := if fx.branch.isSome then u.stretch + 2 else u.stretch }
  match fx.trapImm with
  | some v => s.raise a { cause := .trapInstruction, slot := 1, val := BitVec.ofNat 64 v, bundle := some c.pc }
  | none =>
    if fx.retire then s.mapTile fun t => { t with ending := some (.retire c.pc) }
    else if c.pre.dbgctl.getLsbD 0 && !c.pre.priv then s.raise a { cause := .singleStep, bundle := some c.pc }
    else s

/-- The slots whose guards are true (R183). -/
def liveSlots (t : Tile) (xs : List (PReg × Slot)) : List Slot := (xs.filter fun p => t.pred p.1).map (·.2)

/-- The sites a bundle reads: its guards and the sources of its live slots (R314). -/
def bundleReads (t : Tile) (xs : List (PReg × Slot)) : List Site :=
  xs.map (fun p => Site.pred p.1) ++ (liveSlots t xs).flatMap fun x => x.reads t

/-- A fault of the loader or storer core that the next bundle raises (R391). -/
def Tile.lsFault (t : Tile) : Option TrapInfo := t.loader.fault.or t.storer.fault

/-- The loader's or storer's fault has been raised. -/
def Tile.clearLsFault (t : Tile) : Tile :=
  if t.loader.fault.isSome then { t with loader := { t.loader with fault := none } }
  else { t with storer := { t.storer with fault := none } }

/-- The pending engine error has been raised (R288). -/
def Tile.clearEngerr (t : Tile) : Tile := { t with engerr := 0, engVal := 0, abortSems := [] }

/-- A cause that stands before the bundle, whatever its guards: a breakpoint (R402), a loader or storer fault (R391), PRIVILEGED
(R189, R192). In speculation the fault is deferred, and what raised it stays pending until it is raised at commit (R154). DESIGN CHOICE
(log 54): where the fault of a loader or storer core stands among the checks of R189, the spec giving it no place. -/
def preTrap (s : State) (pc : Nat) (xs : List (PReg × Slot)) : Option (TrapInfo × Tile) :=
  let t := s.tile
  if t.dbgctl.getLsbD 1 && t.dbgbp.toNat == pc then some ({ cause := .breakpoint }, t)
  else
    match t.lsFault with
    | some i => some (i, if t.spec.isSome then t else t.clearLsFault)
    | none =>
      if !t.priv && xs.any (fun p => p.2.priv) then
        some ({ cause := .privileged, slot := ((xs.find? fun p => p.2.priv).map (·.2.cls)).getD 1 }, t)
      else none

/-- Causes that record the ENGERR word when they are raised from it (R394). -/
def Cause.engWord (c : Cause) : Bool :=
  match c with
  | .peerUnreachable | .partitionFence | .semOverflow | .semIndex | .circuitUnbound | .collectiveMismatch | .nakLimit | .linkDown =>
    true
  | _ => false

/-- The cause of a pending engine error (R288), with its TRAPVAL (R394). -/
def Tile.engTrap (t : Tile) : TrapInfo :=
  let c := causeOf (fld t.engerr.toNat 56 6)
  { cause := c, agent := 3, val := if c.engWord then t.engerr else t.engVal }

/-- A pending engine error that a live slot of the bundle meets (R288), once the guards can be read (R314). -/
def engMeets (s : State) (xs : List (PReg × Slot)) : Bool :=
  s.tile.engerr.getLsbD 63
    && (liveSlots s.tile xs).any fun x => x.meets s && !(s.tile.spec.isSome && x.resolves s.tile)

/-- The predicted slot of a speculating task is owned by its own tile core (R154). -/
def Tile.ownPrediction (t : Tile) (p : Spec) : Bool :=
  p.ring.any fun n => (t.rings[n.val]).own[p.slot.val] == .core && (t.rings[n.val]).st[p.slot.val] == .filling

/-- A resolution stall, made by a slot of a class: PHASE_IN_SPEC where it could never end (R154), else a stall. -/
def State.resolutionStall (s : State) (p : Spec) (cls : Nat) : State :=
  if s.tile.ownPrediction p then
    let s := s.squash s.tile.id
    s.deliver { cause := .phaseInSpec, slot := cls } s.tile.pc
  else s.holdIssue

/-- A speculation with a deferred fault, which holds its task at the bundle where it stands (R154). -/
def Tile.deferred (t : Tile) : Option Spec := t.spec.filter fun p => p.fault.isSome

/-- The class of the first slot of a bundle that makes a resolution stall (R151). -/
def resolver (t : Tile) (xs : List (PReg × Slot)) : Nat :=
  (((liveSlots t xs).find? fun x => x.resolves t).map (·.cls)).getD 0

/-- The class of the slot whose held effect a bundle has no room for (R153): the first that asks for a resolution. -/
def resolverRun (c : Ctx) : List (PReg × Slot) → State → Nat
  | [], _ => 0
  | (g, x) :: l, s =>
    if !c.pre.pred g then resolverRun c l s
    else
      match x.run c s with
      | .ok u _ => resolverRun c l u
      | .resolve => x.cls
      | .trap _ | .fail _ _ | .late _ _ | .stall _ | .wait _ _ => resolverRun c l s

/-- Whether a stalled bundle has begun a speculation in which it goes on at once: a CRECV.t never stalls (R302). -/
def goesOn (s u : State) (xs : List (PReg × Slot)) : Bool :=
  s.tile.spec.isNone && u.tile.spec.isSome && (liveSlots s.tile xs).any fun x => x.prompt

/-- Issue one bundle of n words at the focus tile's program counter; again is what a bundle does that goes on in the speculation that it
has begun. Effects of a committed speculation that have still to be released come first (R157); one that a deferred fault holds waits for
its resolution, whatever it is (R154). DESIGN CHOICE (log 54): a pending engine error is raised after checks 1 to 6 of R189 and before any trap
of a slot, the spec giving it no place among them. -/
def issueWith (again : State → State) (s : State) (n rnd : Nat) (xs : List (PReg × Slot)) : State :=
  let t := s.tile
  let c : Ctx := ⟨s, rnd, t.pc⟩
  if t.releasing.isSome then s.holdIssue
  else
    match t.deferred with
    | some p => s.resolutionStall p 0
    | none =>
      match preTrap s t.pc xs with
      | some (i, u) => ({ s with tile := u } : State).raise t.pc i
      | none =>
        if xs.any (fun p => t.outstanding (.pred p.1)) then s.holdIssue
        else if engMeets s xs then
          ({ s with tile := if t.spec.isSome then t else t.clearEngerr } : State).raise t.pc t.engTrap
        else
          match t.spec.filter fun _ => (liveSlots t xs).any fun x => x.resolves t with
          | some p => s.resolutionStall p (resolver t xs)
          | none =>
            if (bundleReads t xs).any t.outstanding then s.holdIssue
            else
              match runSlots c (popFirst xs) { s := s } with
              | .trap i => s.raise t.pc i
              | .fail u i => u.raise t.pc i
              | .stall u => if goesOn s u xs then again u else u.holdIssue
              | .resolve =>
                match t.spec with
                | none => s.holdIssue
                | some p => s.resolutionStall p (resolverRun c (popFirst xs) s)
              | .wait u k => u.holdWait k
              | .done r =>
                match r.late with
                | some (u, i) => u.raise t.pc i
                | none => commit c n r.s r.fx

/-- ISSUE one bundle of n words at the focus tile's program counter. -/
def issue (s : State) (n rnd : Nat) (xs : List (PReg × Slot)) : State :=
  issueWith (fun u => issueWith State.holdIssue u n rnd xs) s n rnd xs

/-- Issue an instruction that stands alone in its bundle, without a header. -/
def issue1 (s : State) (x : Slot) : State := issue s 1 0 [(0, x)]

/-- A slot whose only outcome is an effect. -/
def okR (s : State) : SlotR := .ok s {}

/-- A slot's trap without a value. -/
def trapOf (c : Cause) : TrapInfo := { cause := c }

/-- A slot's trap. -/
def trapR (c : Cause) : SlotR := .trap (trapOf c)

end Sys2Proof.Machine
end

