-- ==== Sys2Proof/Machine/Order.lean ====
section
/-! DEFINITION. Phase consistency: write-back of window lines (R71, R385), publication and boundaries (R123-R129), releases
inside a tile (R130), and the semaphores of a cluster (R24, R25, R206-R208). -/

namespace Sys2Proof.Machine

/-- The storage classes of a mask field: 0 acts as all five (R115). -/
def classes (m : StMask) : Nat := if m.val = 0 then 31 else m.val


/-- The dirty bytes of a window line written at their home (R71). -/
def State.putLine (s : State) (lo spa : Nat) (mask : BitVec 256) : Nat → State
  | 0 => s
  | n + 1 =>
    let s := State.putLine s lo spa mask n
    if mask.getLsbD n then { s with mem := s.mem.set (spa + n) (s.spByte (lo + n)) } else s

/-- Leave a window line clean. -/
def Tile.cleanLine (t : Tile) (n : MapNo) (x : WinLine) : Tile :=
  let m := t.maps[n.val]
  { t with maps := t.maps.set n.val { m with lines := MapEntry.putLine m.lines { x with mask := 0 } } }

/-- Write back one window line when it is dirty, translating it again (R385); the state that a failure keeps. -/
def State.writeBack (s : State) (n : MapNo) (k : Nat) : Except (State × TrapInfo) State :=
  let m := s.tile.maps[n.val]
  match m.line k with
  | none => .ok s
  | some x =>
    if x.mask == 0 then .ok s
    else
      match s.translate (m.va + 256 * k) .write with
      | .error e => .error (s, e)
      | .ok (tr, u) =>
        match u.cutOff u.part tr.spa with
        | some c => .error (u.mapTile fun t => t.cleanLine n x, { cause := c })
        | none =>
          let u := u.countAccess (m.va + 256 * k) tr
          .ok ((u.putLine (m.lo + 256 * k) tr.spa x.mask 256).mapTile fun t => t.cleanLine n x)

/-- Write back lines in order, stopping at the first that fails; lines written stay written (R385). -/
def State.writeBacks : State → List (MapNo × Nat) → Except (State × TrapInfo) State
  | s, [] => .ok s
  | s, (n, k) :: l =>
    match s.writeBack n k with
    | .error e => .error e
    | .ok u => State.writeBacks u l

/-- The touched lines of a window. -/
def Tile.linesOf (t : Tile) (n : MapNo) : List (MapNo × Nat) := (t.maps[n.val]).lines.map fun x => (n, x.line)

/-- The touched lines of windows that target the classes of a mask (R71). -/
def Tile.linesFor (t : Tile) (mask : Nat) : List (MapNo × Nat) :=
  (List.finRange 16).flatMap fun n =>
    if (t.maps[n.val]).valid then
      ((t.maps[n.val]).lines.filter fun x => mask.testBit x.cls).map fun x => (n, x.line)
    else []

/-- Lay the tile's own stores over its stable view (R119). -/
def overlayView (view : List (Nat × Vector Byte 64)) (ov : List Host.Cell) : List (Nat × Vector Byte 64) :=
  view.map fun p => (p.1, Vector.ofFn fun i => (ovGet ov (p.1 * 64 + i.val)).getD (p.2[i.val]))

/-- Put slice bytes into the bank. -/
def slicePut (cl : ClusterNo) : Memory → List Host.Cell → Memory
  | m, [] => m
  | m, (a, b) :: l => slicePut cl (m.set (sliceKey cl a) b) l

/-- Bytes from an offset on, as cells. -/
def cellsAt (off : Nat) : List Byte → List Host.Cell
  | [] => []
  | b :: l => (off, b) :: cellsAt (off + 1) l

/-- Stores of the tile laid over the slice bytes that its agents see; those over copied bytes are noted, so that a drain publishes
the copied byte and not the store (R127, R141). -/
def Tile.layOver (t : Tile) (o : List Host.Cell) : Tile :=
  let overCopy := fun (p : Host.Cell) => t.copied.any fun q => q.2.1 == p.1
  { t with
    tpub := o.foldl (fun l p => ovSet l p.1 p.2) t.tpub
    copied := t.copied ++ (o.filter overCopy).map fun p => (none, p) }

/-- Forget the copied bytes of some slice offsets. -/
def Tile.dropCopied (t : Tile) (f : Nat → Bool) : Tile := { t with copied := t.copied.filter fun p => !f p.2.1 }

/-- Publish the tile's slice stores, performed at the bank (R116, R124). -/
def State.publishSlice (s : State) : State :=
  let t := s.tile
  let both := t.unpub.foldl (fun o p => ovSet o p.1 p.2) t.tpub
  { s with
    mem := slicePut t.cl s.mem both
    tile := { t with
      tpub := [], unpub := [], copied := [], view := overlayView t.view both } }

/-- A release at scope TILE of the core's earlier accesses: the tile's other agents see them, and no other tile (R127, R130). -/
def State.tileRelease (s : State) : State := s.mapTile fun t => { (t.layOver t.unpub) with unpub := [] }

/-- End the tile's phase for the classes of a mask (R124 step 3). -/
def Tile.endPhase (t : Tile) (mask : Nat) : Tile :=
  let t := if mask.testBit 1 then { t with view := [] } else t
  { t with maps := t.maps.map fun m => { m with lines := m.lines.filter fun x => !mask.testBit x.cls } }

/-- A write-back of Valoc's own accord: a failure leaves the line dirty and raises nothing (R71, R385). -/
def State.ownWriteBack (s : State) (n : MapNo) (line : Nat) : State :=
  match s.writeBack n line with
  | .ok u => u
  | .error _ => s

/-- Whether a boundary has still to wait for stores of the tile: of its memory slot, or of copies to a class of the mask
(R124 step 1). -/
def Tile.storesPending (t : Tile) (mask : Nat) : Bool :=
  (t.ops.any fun o => o.ctr == .st)
    || t.chans.toList.any fun c => c.jobs.any fun j => j.wmask &&& mask != 0

/-- How a boundary ends: performed, still waiting, or failed with what it keeps (R123-R127, R135). -/
inductive BoundR where
  | ok (s : State)
  | stall
  | fail (s : State) (i : TrapInfo)

/-- A BOUNDARY of a mask: steps 1 and 2 of R124, and step 3 unless it is a FENCE (R125). The slice stores are performed at the
bank, whatever the scope: the scope names whom they are promised to (R116, R128). One with SP and without SL in its mask still
releases the core's accesses to the tile's agents (R130). A copied store to a device that can no longer be reached makes a
boundary that names PM fail, once (R135). -/
def boundary (c : Ctx) (s : State) (mask : Nat) (phase : Bool) : BoundR :=
  if c.pre.storesPending mask then .stall
  else if c.pre.peerLost && mask.testBit 3 then
    .fail (c.s0.mapTile fun t => { t with peerLost := false }) { cause := .peerUnreachable }
  else
    match s.writeBacks (s.tile.linesFor mask) with
    | .error (_, i) =>
      match c.s0.writeBacks (c.s0.tile.linesFor mask) with
      | .error (k, _) => .fail k i
      | .ok _ => .fail c.s0 i
    | .ok u =>
      let u := if mask.testBit 1 then u.publishSlice else if mask.testBit 0 then u.tileRelease else u
      .ok (if phase then u.mapTile fun t => t.endPhase mask else u)

/-- A slot whose effect is a boundary and then something more. -/
def withBoundary (c : Ctx) (s : State) (mask : Nat) (phase : Bool) (k : State → SlotR) : SlotR :=
  match boundary c s mask phase with
  | .ok u => k u
  | .stall => .stall c.s0
  | .fail u i => .fail u i

/-- The classes of the semaphore boundaries: SP and SL (R123). -/
def semMask : Nat := 3

/-- A semaphore of the home cluster. -/
def State.sem (s : State) (k : SemNo) : Sem := ((s.clusters[s.homeCl.val]).sems)[k.val]

/-- Whether the task's team holds a semaphore (R206). -/
def State.semMine (s : State) (k : SemNo) : Bool :=
  (s.sem k).granted && s.tile.task.any fun x => x.team == (s.sem k).team

/-- The routers between the focus tile and its task's home cluster, where that is another one (R417). -/
def State.homeRoute (s : State) : List ClusterNo := if s.homeCl == s.tile.cl then [] else s.route s.tile.cl s.homeCl

/-- Change the home cluster; an access to another one passes the routers between (R438). -/
def State.mapHome (s : State) (f : Cluster → Cluster) : State :=
  let s := s.noteFlits s.homeRoute
  { s with clusters := s.clusters.set s.homeCl.val (f s.clusters[s.homeCl.val]) }

/-- Add to a semaphore of a cluster, the caller having checked the maximum (R206). -/
def Cluster.addSem (c : Cluster) (k : SemNo) (n : Nat) : Cluster :=
  let x := c.sems[k.val]
  { c with sems := c.sems.set k.val { x with val := Fin.ofNat 65536 (x.val.val + n) } }

/-- Subtract the counts of a waiter, all at once (R24). -/
def Cluster.takeSems (c : Cluster) (l : List (SemNo × Nat)) : Cluster :=
  l.foldl (fun c p =>
    let x := c.sems[p.1.val]
    { c with sems := c.sems.set p.1.val { x with val := Fin.ofNat 65536 (x.val.val - p.2) } }) c

/-- Waits on one semaphore add up (R24). -/
def needed (l : List (SemNo × Nat)) (k : SemNo) : Nat := l.foldl (fun n p => if p.1 = k then n + p.2 else n) 0

/-- Whether every semaphore of a waiter holds its count (R24). -/
def Cluster.holds (c : Cluster) (l : List (SemNo × Nat)) : Bool :=
  l.all fun p => decide (needed l p.1 ≤ (c.sems[p.1.val]).val.val)

/-- Whether a waiter's tile can go on: the core of its cluster's clock, not stopped, not ending (R25, log 23). -/
def State.canGo (s : State) (i : TileId) : Bool :=
  let t := s.tileAt i
  (s.clusters[i.cl.val]).ticks && !t.stopped && t.ending.isNone

/-- Whether a waiter's counts may be taken in its turn: they are there, and no waiter before it on one of its semaphores could
be served (R25). -/
def State.inTurn (s : State) (c : Cluster) (before : List Waiter) (l : List (SemNo × Nat)) : Bool :=
  c.holds l && !before.any fun w => (w.takes.any fun p => l.any fun q => q.1 == p.1) && c.holds w.takes && s.canGo w.tile

/-- Whether the focus tile may take counts of its home cluster now, at its place in the queue or, without one, behind it
(R25). -/
def State.mayTake (s : State) (l : List (SemNo × Nat)) : Bool :=
  let c := s.clusters[s.homeCl.val]
  s.inTurn c (c.waiters.takeWhile fun w => w.tile != s.tile.id) l

/-- Join the queue of waiters at its end, or keep one's place (R25). -/
def Cluster.enqueue (c : Cluster) (i : TileId) (l : List (SemNo × Nat)) : Cluster :=
  if c.waiters.any fun w => w.tile == i && w.takes == l then
    { c with waiters := c.waiters.map fun w => if w.tile == i then { w with called := false } else w }
  else { c with waiters := (c.waiters.filter fun w => w.tile != i) ++ [⟨i, l, false⟩] }

/-- The home cluster of the focus tile's task where it is another one that lets nothing in, or that a router that is down cuts off: an access
to its semaphores waits there, so that the bundle is held (R431, R436, R438). -/
def State.homeShut (s : State) : Bool :=
  s.homeCl != s.tile.cl && (!(s.clusters[s.homeCl.val]).lets || s.blocked s.homeRoute)

/-- An access that waits for the home cluster asks for power, and the routers on its way wake (R436, R438). -/
def State.callHome (s : State) : State := (s.wakeRouters s.homeRoute).knock s.homeCl

/-- An access to the semaphores of the home cluster; where that lets nothing in, the bundle is held and the arrival asks for power. -/
def atHome (c : Ctx) (r : SlotR) : SlotR := if c.s0.homeShut then .stall c.s0.callHome else r

/-- Take counts for the focus tile in its turn, or wait in the queue (R24, R25, R207). The counts are taken only with the rest of
the bundle: one that traps or is held leaves them. -/
def takeCounts (c : Ctx) (s : State) (k0 : SemNo) (l : List (SemNo × Nat)) (k : State → SlotR) : SlotR :=
  if l.all (fun p => p.2 == 0) then k s
  else
    atHome c <|
      if s.mayTake l then k (s.mapHome fun x => (x.takeSems l).leave s.tile.id)
      else .wait (c.s0.mapHome fun x => x.enqueue s.tile.id l) (.sem k0)

end Sys2Proof.Machine
end

