-- ==== Sys2Proof/Machine/Csr.lean ====
section
/-! DEFINITION. The tile control window: what each register reads as and what a write of it does (R67, R202, R227, R268,
R272, R288, R289, R299, R300, R317, R325, R393, R402, R161, R88, R55, R59, R146), and CSRR and CSRW (R214). -/

namespace Sys2Proof.Machine

/-- The channel status word (R299). -/
def Tile.cpstat (t : Tile) (c : ChNo) : Word :=
  let x := t.chans[c.val]
  BitVec.ofNat 64 (x.err.toNat * 2 ^ 63 + (if x.err then Cause.copyDataError.code * 2 ^ 56 else 0) + x.jobs.length * 2 ^ 52
    + fld t.chown.toNat (2 * c.val) 2 * 2 ^ 50 + ((x.jobs.head?.map fun j => j.doneBytes t).getD 0) % 2 ^ 40)

/-- The speculation status register (R161). -/
def Tile.specst (t : Tile) : Word :=
  let ring := (t.spec.bind (·.ring)).getD 0
  let depth := (t.spec.map (·.depth)).getD 0
  BitVec.ofNat 64 (t.squashes.toNat * 2 ^ 32 + t.commits.toNat * 2 ^ 8 + (t.spec.any (·.fault.isSome)).toNat * 2 ^ 7
    + ring.val * 2 ^ 4 + depth % 4 * 2 ^ 2)

/-- SCALEST (R227). -/
def Tile.scalest (t : Tile) : Word :=
  BitVec.ofNat 64 (t.bmr.toNat * 2 ^ 32 + t.pv.toNat * 2 ^ 24 + t.xpend.toNat * 2 ^ 16 + t.xrd.toNat * 2 ^ 8)

/-- LOOPROT (R202). -/
def Tile.looprot (t : Tile) : Word := BitVec.ofNat 64 (t.rrb.val * 2 ^ 8 + t.stg.toNat)

/-- LOOPST (R202). -/
def Tile.loopst (t : Tile) : Word := BitVec.ofNat 64 (t.pass.toNat * 2 ^ 32 + t.feed.toNat)

/-- CNTST (R317). -/
def Tile.cntst (t : Tile) : Word :=
  BitVec.ofNat 64 (t.cld * 2 ^ 15 + t.cst * 2 ^ 10 + t.ccp * 2 ^ 5 + t.ctl)

/-- REPST (R325). -/
def Tile.repst (t : Tile) : Word := BitVec.ofNat 64 (t.replays.toNat * 2 ^ 32 + t.stretch.toNat)

/-- The team that a tile belongs to; a tile without one shows that of the task that it runs. -/
def Tile.ownTeam (t : Tile) : Option (Fin 65536) := (t.team.map (·.1)).or (t.task.map (·.team))

/-- MONST (R268): the entries of the tile's own team, whichever task the tile runs. -/
def State.monst (s : State) : Word :=
  let l := (s.clusters[s.tile.cl.val]).monitors
  let own := (l.filter fun m => s.tile.ownTeam == some m.team).length
  BitVec.ofNat 64 (own * 2 ^ 4 + (8 - l.length))

/-- What the control-window register n reads as; an absent one reads as 0 (R67, R214). -/
def State.csrRead (s : State) (n : Nat) : Word :=
  let t := s.tile
  match n with
  | 1 => t.looprot
  | 2 => t.loopst
  | 3 => t.lcr
  | 4 => t.scalest
  | 5 => t.cntst
  | 6 => t.repst
  | 7 => s.time
  | 8 => t.spswz.setWidth 64
  | 9 => t.chown.setWidth 64
  | 10 => s.monst
  | 11 => t.engerr
  | 12 => t.cpstat 0
  | 13 => t.cpstat 1
  | 14 => t.cpstat 2
  | 15 => t.cpstat 3
  | 16 => t.skew[0]
  | 17 => t.skew[1]
  | 56 => t.specst
  | 192 => t.tepc
  | 193 => t.trapst
  | 194 => t.trapval
  | 195 => t.tscr
  | 196 => t.dbgctl.setWidth 64
  | 197 => t.dbgbp
  | _ =>
    if 32 ≤ n ∧ n < 48 then
      let r := t.rings.toList.getD ((n - 32) / 2) {}
      if n % 2 == 0 then r.desc else BitVec.ofNat 64 r.stateWord
    else if 48 ≤ n ∧ n < 56 then
      let r := t.rings.toList.getD (n - 48) {}
      if r.pred then r.prd else 0
    else if 64 ≤ n ∧ n < 128 then (t.setup.toList.getD ((n - 64) / 16) (Vector.replicate 16 0)).toList.getD (n % 16) 0
    else if 128 ≤ n ∧ n < 192 then t.ends.toList.getD (n - 128) 0
    else 0

/-- CHOWN as written: an owner of 3 is stored as 0 (R272). -/
def chownOf (v : Word) : BitVec 8 :=
  BitVec.ofNat 8 ((List.range 4).foldl (fun n c =>
    let o := fld v.toNat (2 * c) 2
    n + (if o == 3 then 0 else o) * 4 ^ c) 0)

/-- A skew register as written (R88). -/
def skewOf (v : Word) : Word :=
  let k := fld v.toNat 0 12
  BitVec.ofNat 64 (fld v.toNat 63 1 * 2 ^ 63 + fld v.toNat 48 8 * 2 ^ 48 + (if k == 0 then 1 else k))

/-- A circuit-end word as written (R300). -/
def endOf (v : Word) : Word :=
  let r := fld v.toNat 58 4
  BitVec.ofNat 64 (fld v.toNat 62 2 * 2 ^ 62 + (if r == 0 then 1 else r) * 2 ^ 58 + fld v.toNat 52 6 * 2 ^ 52
    + fld v.toNat 20 16 * 2 ^ 20)

/-- A setup word as written: words 9, 14 and 15 and the reserved bits of CTL read as 0 (R289, R290). -/
def setupWord (k : Nat) (v : Word) : Word :=
  match k with
  | 2 => v &&& 0xFF00FFC00F
  | 9 | 14 | 15 => 0
  | _ => v

/-- Write a setup word of a channel (R289). -/
def Tile.putSetup (t : Tile) (c : ChNo) (k : Fin 16) (v : Word) : Tile :=
  { t with setup := t.setup.set c.val ((t.setup[c.val]).set k.val (setupWord k.val v)) }

/-- What a write of control-window register n stores; a write to an absent or read-only register is discarded (R67,
R214). -/
def Tile.csrWrite (t : Tile) (n : Nat) (v : Word) : Tile :=
  match n with
  | 1 => { t.setStg (fld v.toNat 0 8) with rrb := Fin.ofNat 16 (fld v.toNat 8 4) }
  | 2 => { t with pass := BitVec.ofNat 32 (fld v.toNat 32 32), feed := BitVec.ofNat 32 (fld v.toNat 0 32) }
  | 3 => t.write .lcr v
  | 4 =>
    { t with
      bmr := BitVec.ofNat 32 (fld v.toNat 32 32)
      pv := fld v.toNat 24 1 == 1
      xpend := BitVec.ofNat 8 (fld v.toNat 16 8)
      xrd := BitVec.ofNat 8 (fld v.toNat 8 8) }
  | 8 => { t with spswz := v.setWidth 24 }
  | 9 => { t with chown := chownOf v }
  | 16 => { t with skew := t.skew.set 0 (skewOf v) }
  | 17 => { t with skew := t.skew.set 1 (skewOf v) }
  | 192 => { t with tepc := v }
  | 193 => { t with trapst := BitVec.ofNat 64 (fld v.toNat 51 13 * 2 ^ 51) }
  | 194 => { t with trapval := v }
  | 195 => { t with tscr := v }
  | 196 => { t with dbgctl := v.setWidth 2 }
  | 197 => { t with dbgbp := v }
  | _ =>
    if 64 ≤ n ∧ n < 128 then
      t.putSetup (Fin.ofNat 4 ((n - 64) / 16)) (Fin.ofNat 16 n) v
    else if 128 ≤ n ∧ n < 192 then
      let k : EndNo := Fin.ofNat 64 (n - 128)
      { t with ends := t.ends.set k.val (endOf v), deadEnds := t.deadEnds.filter fun e => e != k }
    else t

/-- The sites that a read of a register touches (R314). -/
def csrSites (n : Nat) : List Site :=
  match n with
  | 1 => (List.finRange 8).map fun k => .pred (stageP k)
  | 3 => [.lcr]
  | _ => []

/-- CSRR (R214). -/
def slotCsrr (d : SReg) (csr : Fin 4096) : Slot :=
  { cls := 1, priv := true, resolves := fun _ => true, reads := fun _ => csrSites csr.val,
    run := fun c s => okR (s.mapTile fun t => t.write (.sreg d) (c.s0.csrRead csr.val)) }

/-- The channel whose setup a control-window register belongs to (R289). -/
def setupChan (n : Nat) : Option ChNo := if 64 ≤ n ∧ n < 128 then some (Fin.ofNat 4 ((n - 64) / 16)) else none

/-- The registers that other slots of a bundle act on: SCALEST (R228), SPSWZ (R55), CHOWN (R272), the skew registers (R88) and the
circuit ends (R300). A write of them takes effect when the bundle has been issued (R214). -/
def wired (n : Nat) : Bool := n == 4 || n == 8 || n == 9 || n == 16 || n == 17 || (decide (128 ≤ n) && decide (n < 192))

/-- A write of a control-window register by a slot of a bundle: ENGINE_STATE for the setup of a channel that the core does not own
(R272). -/
def csrStore (s : State) (n : Nat) (v : Word) : SlotR :=
  if (setupChan n).any fun c => fld s.tile.chown.toNat (2 * c.val) 2 != 0 then trapR .engineState
  else if wired n then .ok s { wire := fun t => t.csrWrite n v }
  else okR (s.mapTile fun t => t.csrWrite n v)

/-- CSRW: the old value, then the new one (R214). -/
def slotCsrw (d a : SReg) (csr : Fin 4096) : Slot :=
  { cls := 1, priv := true, resolves := fun _ => true, reads := fun _ => .sreg a :: csrSites csr.val,
    run := fun c s =>
      csrStore (s.mapTile fun t => t.write (.sreg d) (c.s0.csrRead csr.val)) csr.val (c.pre.sreg a) }

def execCsrr (d : SReg) (csr : Fin 4096) (s : State) : Host.Outcome State Fault Refusal :=
  .next (issue1 s (slotCsrr d csr))
def execCsrw (d a : SReg) (csr : Fin 4096) (s : State) : Host.Outcome State Fault Refusal :=
  .next (issue1 s (slotCsrw d a csr))

end Sys2Proof.Machine
end

