-- ==== Sys2Proof/Machine/Operands.lean ====
section
/-! DEFINITION. The operand forms: grid operands in every direction with their tags (R46-R49), packed elements (R103), the
A80 pair (R104), and addresses. -/

namespace Sys2Proof.Machine

/-- The physical row of a logical row (R47). -/
def physRow (rrb : Fin 16) (j : Fin 64) : Fin 64 :=
  if 16 ≤ j.val ∧ j.val < 32 then Fin.ofNat 64 ((j.val - 16 + rrb.val) % 16 + 16) else j

/-- The physical cell of lane i of a grid operand (R46, R47). -/
def laneCell (rrb : Fin 16) (g : GridOp) (i : Fin 64) : Fin 64 × Fin 64 :=
  match g.dir with
  | .h => (physRow rrb g.idx, i)
  | .v => (physRow rrb i, g.idx)
  | .d => (physRow rrb i, i + g.idx)
  | .a => (physRow rrb i, g.idx - i)

/-- The 64 lanes of a grid operand (R46). -/
def Tile.row (t : Tile) (g : GridOp) : Row := Vector.ofFn fun i => t.cell (laneCell t.rrb g i).1 (laneCell t.rrb g i).2

/-- The sites a read of a grid operand touches (R314). -/
def gridSites (g : GridOp) (t : Tile) : List Site :=
  (List.finRange 64).map fun i => .cell (laneCell t.rrb g i).1 (laneCell t.rrb g i).2

/-- The common tag of the 64 rows, none where two differ (R48). -/
def Tile.commonTag (t : Tile) : Option (Fin 16) :=
  if t.tags.toList.all (fun x => x == t.tags[0]) then some t.tags[0] else none

/-- The tag of a grid operand: its row's, or the common tag of all rows, none for FORMAT_MIXED (R48). -/
def Tile.tag (t : Tile) (g : GridOp) : Option (Fin 16) :=
  match g.dir with
  | .h => some t.tags[(physRow t.rrb g.idx).val]
  | .v | .d | .a => t.commonTag

/-- FORMAT_TAG or FORMAT_MIXED with the tag found (R394). -/
def tagTrap (c : Cause) (tag : Nat) : TrapInfo := { cause := c, val := BitVec.ofNat 64 tag }

/-- Whether a write with a result tag is performed through a grid operand (R49). -/
def Tile.dstOk (t : Tile) (g : GridOp) (tag : Nat) : Except TrapInfo Unit :=
  match g.dir with
  | .h => .ok ()
  | .v | .d | .a =>
    if t.tags.toList.all (fun x => x.val == tag) then .ok ()
    else .error (tagTrap .formatMixed (((t.tags.toList.find? fun x => x.val != tag).getD 0).val))

/-- The results of a row write in flight: cells in the lanes of the destination (R225). -/
def rowFlight (rrb : Fin 16) (g : GridOp) (v : Row) (due : Nat) : Flight :=
  { due := due, isLoad := false,
    writes := (List.finRange 64).map fun i => (.cell (laneCell rrb g i).1 (laneCell rrb g i).2, some ((v[i.val]).setWidth 64)) }

/-- Set the tag of an h destination for later bundles (R49, R225). -/
def Tile.retag (t : Tile) (rrb : Fin 16) (g : GridOp) (tag : Nat) : Tile :=
  match g.dir with
  | .h => { t with tags := t.tags.set (physRow rrb g.idx).val (Fin.ofNat 16 tag) }
  | .v | .d | .a => t

/-- Send a row result on its way: its tag at once, its cells after the latency (R225). old is the tile before the
bundle. -/
def Tile.putRow (t old : Tile) (g : GridOp) (tag : Nat) (v : Row) (lat : Nat) : Tile :=
  (t.retag old.rrb g tag).fly (rowFlight old.rrb g v (old.tc + lat))

/-- Element k of a row under a tag: its code (R103). -/
def elemOf (tag : Nat) (v : Row) (k : Nat) : Nat :=
  let n := (tagShape tag).1
  let w := (tagShape tag).2
  fld (v.toList.getD (k / n) 0).toNat (w * (k % n)) w

/-- The elements of a row under a tag (R103). -/
def elemCount (tag : Nat) : Nat := 64 * (tagShape tag).1

/-- A row built from element codes (R103). -/
def packRow (tag : Nat) (f : Nat → Nat) : Row :=
  let n := (tagShape tag).1
  let w := (tagShape tag).2
  Vector.ofFn fun i => BitVec.ofNat 32 ((List.range n).foldl (fun x j => x + f (n * i.val + j) % 2 ^ w * 2 ^ (w * j)) 0)

/-- Value k of an A80 pair whose even and odd rows are given (R104). -/
def pairGet (ev od : Row) (k : Nat) : Nat :=
  let g := fun (r : Row) (i : Nat) => (r.toList.getD i 0).toNat
  g ev (2 * k) + g ev (2 * k + 1) * 2 ^ 32 + g od (2 * k) % 2 ^ 16 * 2 ^ 64

/-- The even and odd rows of an A80 pair (R104). -/
def pairRows (f : Nat → Nat) : Row × Row :=
  (Vector.ofFn fun i => BitVec.ofNat 32 (if i.val % 2 == 0 then f (i.val / 2) else f (i.val / 2) / 2 ^ 32),
   Vector.ofFn fun i => BitVec.ofNat 32 (if i.val % 2 == 0 then f (i.val / 2) / 2 ^ 64 % 2 ^ 16 else 0))

/-- Whether an operand may name an A80 pair: h, even, outside 16-31 (R236). -/
def pairOk (g : GridOp) : Bool :=
  g.dir == .h && g.idx.val % 2 == 0 && !(decide (16 ≤ g.idx.val) && decide (g.idx.val < 32))

/-- The odd row of a pair. -/
def pairOdd (g : GridOp) : GridOp := { g with idx := g.idx + 1 }

/-- A register plus a signed immediate, as a local address (R246). -/
def Tile.addr (t : Tile) (a : SReg) (imm : Int) : Nat := (t.sreg a + BitVec.ofInt 64 imm).toNat

/-- A byte distance from a program counter (R199). -/
def pcPlus (pc : Nat) (d : Int) : Nat := (((pc : Int) + d) % 2 ^ 64).toNat

end Sys2Proof.Machine
end

