-- ==== Sys2Proof/Machine/Planes.lean ====
section
/-! DEFINITION. The bit-plane operand layout (R75-R78, R100): where each word of a row lies, how an element is laid into
planes and rebuilt from them. -/

namespace Sys2Proof.Machine

namespace Handle

/-- The byte address of a stored group (R76). -/
def groupAt (h : Handle) (g : Nat) : Nat := (h.base + g * h.groupUnits) * 64

/-- The sign word of row r (R76). -/
def signAt (h : Handle) (g r : Nat) : Nat := h.groupAt g + 2 * r

/-- The exponent word of row r, lane l (R76). -/
def expAt (h : Handle) (g r l : Nat) : Nat := h.groupAt g + 128 + 2 * (12 * r + l)

/-- The plane word of plane p, row r (R76). -/
def planeAt (h : Handle) (g p r : Nat) : Nat := h.groupAt g + h.head * 64 + 128 * p + 2 * r

/-- The byte of the scale of element (r, k) (R76). -/
def scaleAt (h : Handle) (r k : Nat) : Nat := h.scale * 64 + r * h.scalesPerRow + k / 32

/-- The mask word of column c in group g (R86). -/
def maskAt (h : Handle) (g c : Nat) : Nat := h.sparse * 64 + g * 128 + 2 * c

/-- Whether an integer format is signed (R75). -/
def isSigned (h : Handle) : Bool := h.fmt == 9 || h.fmt == 11

end Handle

/-- The minimum normal exponent of a floating format; TF8 has no subnormals (R75, R98). -/
def minExp (fmt : Nat) : Int :=
  match fmt with
  | 3 => -126
  | 4 => -14
  | 6 => -6
  | 7 => -14
  | 10 => 0
  | _ => -1000

/-- An element as the planes hold it: its sign, its exponent word, its plane bits from plane 0 on (R254). -/
structure Planed where
  sign : Bool
  exp : Nat
  bits : Nat → Bool

/-- Lay a floating element into planes, dropping what lies below the last plane (R254). -/
def planeFloat (fmt code : Nat) : Planed :=
  let sign := code / 2 ^ ((tagShape fmt).2 - 1) % 2 == 1
  let none := fun (_ : Nat) => false
  match tagDecode fmt code with
  | .nan => ⟨sign, 3 * 2 ^ 14, none⟩
  | .inf n => ⟨n, 2 * 2 ^ 14, none⟩
  | .fin n m e =>
    if m == 0 then ⟨n, 2 ^ 14, none⟩
    else
      let x := max (ilog2 m e) (minExp fmt)
      ⟨n, lowBits 14 x, fun p =>
        let q := x - p
        decide ((if q ≤ e then m * 2 ^ (e - q).toNat else m / 2 ^ (q - e).toNat) % 2 = 1)⟩

/-- Lay an integer element into P planes, clamped to their range (R254). -/
def planeInt (h : Handle) (code : Nat) : Planed :=
  let v := sgnVal (tagShape h.fmt).2 code
  let u : Int := if h.isSigned then v else code
  let p := h.planes
  let c := if h.isSigned then clampInt (-(2 ^ (p - 1))) (2 ^ (p - 1) - 1) u else clampInt 0 (2 ^ p - 1) u
  ⟨false, 0, fun k => (lowBits p c).testBit (p - 1 - k)⟩

def Handle.plane (h : Handle) (code : Nat) : Planed := if h.isFloat then planeFloat h.fmt code else planeInt h code

/-- The fraction planes of a TF8 element whose exponent word is x (R98, R100). -/
def tf8Fraction (x : Nat) : Nat :=
  let k := sgnVal 14 (x % 2 ^ 14) / 4
  let z := if 0 ≤ k then k.toNat else (-k - 1).toNat
  3 - z

/-- The planes of a group up to its widest fraction, the planes that a push may fetch: all of them but for TF8 (R78). -/
def Handle.usedPlanes (h : Handle) (rd : Nat → Nat) (g : Nat) : Nat :=
  if h.fmt == 8 then
    (List.range h.rows).foldl (fun m r => (List.range 12).foldl (fun m l =>
      let x := rd (h.expAt g r l)
      if x / 2 ^ 14 == 0 then max m (1 + tf8Fraction x) else m) m) 0
  else h.planes

/-- The weight of plane p of an element whose exponent word is x, as an exact value (R75). -/
def Handle.weight (h : Handle) (x p : Nat) : Num :=
  if h.isFloat then .fin false 1 (sgnVal 14 (x % 2 ^ 14) - p)
  else .fin (h.isSigned && p == 0) 1 ((h.planes : Int) - 1 - p)

/-- An element rebuilt from its sign, exponent word and plane bits, without its scale (R75, R76). -/
def Handle.rebuild (h : Handle) (x : Planed) : Num :=
  match h.isFloat, x.exp / 2 ^ 14 with
  | true, 3 => .nan
  | true, 2 => .inf x.sign
  | true, 1 => .fin x.sign 0 0
  | _, _ =>
    let sum := (List.range h.planes).foldl (fun (a : Num) p =>
      if x.bits p then Num.add .rne a (h.weight x.exp p) else a) (.fin false 0 0)
    match sum with
    | .fin n m e => .fin (if h.isFloat then x.sign else n) m e
    | y => y

/-- Two bytes of a word. -/
def bytes16 (v : Nat) : List Byte := leBytes (v % 2 ^ 16) 2

/-- A 12-bit word from 12 flags. -/
def word12 (f : Nat → Bool) : Nat := (List.range 12).foldl (fun n l => n + (f l).toNat * 2 ^ l) 0

/-- The 16-bit words that hold row r of a group (R76): signs and exponents for floating formats, then the planes. -/
def Handle.rowWords (h : Handle) (g r : Nat) : List Nat :=
  (if h.isFloat then h.signAt g r :: (List.range 12).map fun l => h.expAt g r l else [])
    ++ (List.range h.planes).map fun p => h.planeAt g p r

/-- The writes that lay 12 elements into row r of a group (R254). -/
def Handle.rowWrites (h : Handle) (g r : Nat) (codes : Nat → Nat) : List (Nat × List Byte) :=
  let el := fun (l : Nat) => h.plane (codes l)
  (if h.isFloat then
      (h.signAt g r, bytes16 (word12 fun l => (el l).sign))
        :: (List.range 12).map fun l => (h.expAt g r l, bytes16 (el l).exp)
    else [])
    ++ (List.range h.planes).map fun p => (h.planeAt g p r, bytes16 (word12 fun l => (el l).bits p))

/-- An element of row r, lane l of a stored group, read through a reader of 16-bit words (R76). -/
def Handle.planedAt (h : Handle) (rd : Nat → Nat) (g r l : Nat) : Planed :=
  ⟨h.isFloat && (rd (h.signAt g r)).testBit l, if h.isFloat then rd (h.expAt g r l) else 0,
    fun p => (rd (h.planeAt g p r)).testBit l⟩

end Sys2Proof.Machine
end

