-- ==== Sys2Proof/Machine/Control.lean ====
section
/-! DEFINITION. The control slot: branches and block transfers (R199-R201), pipelined loops (R202-R204), waiting (R205),
semaphores (R206-R209), Lintel (R210), boundaries (R211), task control (R212, R213). -/

namespace Sys2Proof.Machine

/-- A word of code (log 1). -/
def State.codeWord (s : State) (a : Nat) : Nat := s.mem.num (codeKey a) 4

/-- The four words of a block descriptor (R185). -/
def State.descriptorAt (s : State) (a : Nat) : Option Descriptor :=
  decodeDescriptor (s.codeWord a) (s.codeWord (a + 4)) (s.codeWord (a + 8)) (s.codeWord (a + 12))

/-- The checks of a word-offset target (R187). -/
def State.wordTarget (s : State) (a : Nat) : Option Cause :=
  if a % 4 != 0 || fld (s.codeWord a) 31 1 == 0 then some .bundleStart else none

/-- The checks of a block target, the semaphores of its waits among them (R186, R188, R206). -/
def State.blockTarget (s : State) (a : Nat) : Option Cause :=
  if !isDescriptor a (s.codeWord a) then some .blockAlign
  else
    match s.descriptorAt a with
    | none => some .bundleForm
    | some d => if d.waits.all (fun w => s.semMine w.1) then none else some .semIndex

/-- Go to a word or a block (R187, R188). -/
def goTo (s : State) (block : Bool) (a : Nat) : SlotR :=
  match (if block then s.blockTarget a else s.wordTarget a) with
  | some c => trapR c
  | none => .ok s { branch := some (block, a) }

/-- The address of a bundle rounded down to its fetch block (R199). -/
def base64 (pc : Nat) : Nat := pc / 64 * 64

/-- BRP (R199). A branch that does not branch checks no target (log 17). -/
def slotBrp (p : PReg) (imm : Int) : Slot :=
  { cls := 1, reads := fun _ => [.pred p],
    run := fun c s => if c.pre.pred p then goTo s false (pcPlus c.pc (4 * imm)) else okR s }

/-- BRNP (R199). -/
def slotBrnp (p : PReg) (imm : Int) : Slot :=
  { cls := 1, reads := fun _ => [.pred p],
    run := fun c s => if c.pre.pred p then okR s else goTo s false (pcPlus c.pc (4 * imm)) }

/-- JMP, word offset (R199). -/
def slotJmpWord (imm : Int) : Slot := { cls := 1, run := fun c s => goTo s false (pcPlus c.pc (4 * imm)) }

/-- JMP, block offset (R199). -/
def slotJmpBlock (imm : Int) : Slot := { cls := 1, run := fun c s => goTo s true (pcPlus (base64 c.pc) (64 * imm)) }

/-- JMPI (R199). -/
def slotJmpi (a : SReg) (imm : Int) : Slot :=
  { cls := 1, reads := fun _ => [.sreg a], run := fun c s => goTo s false (c.pre.addr a imm) }

/-- JMPI.b (R199). -/
def slotJmpiB (a : SReg) : Slot :=
  { cls := 1, reads := fun _ => [.sreg a], run := fun c s => goTo s true (c.pre.sreg a).toNat }

/-- CALLB (R199, R200). -/
def slotCallb (l : SReg) (imm : Int) : Slot :=
  { cls := 1,
    run := fun c s =>
      goTo (s.mapTile fun t => t.write (.sreg l) (BitVec.ofNat 64 (base64 c.pc + 64))) true
        (pcPlus (base64 c.pc) (64 * imm)) }

/-- RETB (R199). -/
def slotRetb (a : SReg) : Slot :=
  { cls := 1, reads := fun _ => [.sreg a], run := fun c s => goTo s true (c.pre.sreg a).toNat }

/-- The stage predicates, which LOOPB reads (R204). -/
def stageSites : List Site := (List.finRange 8).map fun k => .pred (stageP k)

/-- The loop counts and the rotation of LOOPB (R204). old is the tile before the bundle. -/
def Tile.loopBack (t old : Tile) : Tile :=
  let inval := old.feed != 0
  { (t.rotate old inval) with
    feed := if inval then old.feed - 1 else old.feed
    pass := if old.pass != 0 then old.pass - 1 else old.pass }

/-- LOOPB (R204). -/
def slotLoopb (imm : Int) : Slot :=
  { cls := 1, reads := fun _ => stageSites,
    run := fun c s =>
      let s := s.mapTile fun t => t.loopBack c.pre
      if c.pre.pass != 0 then goTo s false (pcPlus c.pc (4 * imm)) else okR s }

/-- A loop count from a register and an immediate, checked before anything is written (R203). -/
def lsetCount (a : SReg) (imm : Int) (put : Tile → BitVec 32 → Tile) : Slot :=
  { cls := 1, reads := fun _ => [.sreg a],
    run := fun c s =>
      let v := c.pre.addr a imm
      if 2 ^ 32 ≤ v then trapR .rotateRange else okR (s.mapTile fun t => put t (BitVec.ofNat 32 v)) }

/-- LSET pass (R203). -/
def slotLsetPass (a : SReg) (imm : Int) : Slot := lsetCount a imm fun t v => { t with pass := v }

/-- LSET feed (R203). -/
def slotLsetFeed (a : SReg) (imm : Int) : Slot := lsetCount a imm fun t v => { t with feed := v }

/-- LSET rrb (R203). -/
def slotLsetRrb (imm : Nat) : Slot :=
  { cls := 1,
    run := fun _ s =>
      if 16 ≤ imm then trapR .rotateRange else okR (s.mapTile fun t => { t with rrb := Fin.ofNat 16 imm }) }

/-- LSET stg (R203). -/
def slotLsetStg (imm : Nat) : Slot :=
  { cls := 1, run := fun _ s => if 256 ≤ imm then trapR .rotateRange else okR (s.mapTile fun t => t.setStg imm) }

/-- A bound of WAIT: 0 to 24, or 31 for any number (R205). -/
def boundOk (b : Fin 32) : Bool := decide (b.val ≤ 24) || b == 31

/-- Whether a counter is within its bound (R205). -/
def within (b : Fin 32) (n : Nat) : Bool := b == 31 || decide (n ≤ b.val)

/-- The counter that a held effect changes when it is released (R151). -/
def HeldOp.counter (h : HeldOp) : Option Ctr :=
  match h with
  | .store _ => some .st
  | .cpgo _ _ => some .cp
  | .putc _ _ _ _ _ | .gred _ _ _ _ => some .tl
  | .sems _ _ | .spawn _ _ | .bufFree _ _ | .bufPub _ _ => none

/-- WAIT (R205); a resolution stall exactly when a held operation would change a counter that it bounds (R151). -/
def slotWait (ld st cp tl : Fin 32) : Slot :=
  { cls := 1
    resolves := fun t => t.spec.any fun p => p.held.any fun h =>
      match h.op.counter with
      | some .st => st != 31
      | some .cp => cp != 31
      | some .tl => tl != 31
      | some .ld => ld != 31
      | none => false
    meets := fun _ => tl != 31
    run := fun c s =>
      let t := c.pre
      if !(boundOk ld && boundOk st && boundOk cp && boundOk tl) then trapR .waitRange
      else if within ld t.cld && within st t.cst && within cp t.ccp && within tl t.ctl then okR s
      else .wait c.s0 .counters }

/-- The count of SEMW and SEMS (R207). -/
def semCount (c : Ctx) (cnt : Fin 256) (a : SReg) : Except TrapInfo Nat :=
  if a = 0 then .ok cnt.val
  else if 65535 < (c.pre.sreg a).toNat then .error (trapOf .semOverflow)
  else .ok (c.pre.sreg a).toNat

/-- SEMW (R206, R207, R123). DESIGN CHOICE (log 54): SEM_INDEX is checked before SEM_OVERFLOW of a count in a register, here and in SEMS. -/
def slotSemw (k : SemNo) (cnt : Fin 256) (a : SReg) : Slot :=
  { cls := 1, reads := fun _ => [.sreg a], resolves := fun _ => true, meets := fun _ => true,
    run := fun c s =>
      if !s.semMine k then trapR .semIndex
      else
        match semCount c cnt a with
        | .error e => .trap e
        | .ok n => takeCounts c s k [(k, n)] fun u => withBoundary c u semMask true okR }

/-- SEMS: its boundary, then its count (R207, R208, R123); held in speculation (R209). -/
def slotSems (k : SemNo) (cnt : Fin 256) (a : SReg) : Slot :=
  { cls := 1, reads := fun _ => [.sreg a], meets := fun s => s.tile.spec.isNone,
    run := fun c s =>
      if !s.semMine k then trapR .semIndex
      else
        match semCount c cnt a with
        | .error e => .trap e
        | .ok n =>
          match s.tile.spec with
          | some p =>
            if p.fits (.sems k n) then okR (s.mapTile fun t => t.hold c.pc (.sems k n)) else .resolve
          | none =>
            atHome c <| withBoundary c s semMask true fun u =>
              if 65535 < (u.sem k).val.val + n then .late u (trapOf .semOverflow)
              else okR ((u.mapHome fun x => x.addSem k n).knock u.homeCl) }

/-- Whether SEMT takes its count: no waiter on the semaphore, and the count there (R207). -/
def State.semtTakes (s : State) (k : SemNo) (n : Nat) : Bool :=
  !((s.clusters[s.homeCl.val]).waiters.any fun w => w.takes.any fun p => p.1 == k) && decide (n ≤ (s.sem k).val.val)

/-- SEMT (R207). -/
def slotSemt (k : SemNo) (cnt : Fin 256) (d : SReg) : Slot :=
  { cls := 1, resolves := fun _ => true,
    meets := fun s => s.semtTakes k cnt.val || s.tile.abortSems.contains k,
    run := fun c s =>
      if !s.semMine k then trapR .semIndex
      else atHome c <| if s.semtTakes k cnt.val then
        withBoundary c (s.mapHome fun x => x.takeSems [(k, cnt.val)]) semMask true fun u =>
          okR (u.mapTile fun t => t.write (.sreg d) 1)
      else okR (s.mapTile fun t => t.write (.sreg d) 0) }

/-- All five storage classes (R115). -/
def allMask : Nat := 31

/-- PARTS of a partition (R364). -/
def Partition.partsNo (p : Partition) : Nat := fld p.ltcfg.toNat 48 16

/-- Count an arrival in a partition; the arrival that completes a generation starts its release (R365). -/
def Partition.arrive (p : Partition) (now : Nat) : Partition :=
  if p.arrivals + 1 = p.partsNo then
    { p with arrivals := 0, gen := p.gen + 1, releases := p.releases ++ [⟨p.gen, now, 0, []⟩] }
  else { p with arrivals := p.arrivals + 1 }

/-- Count the arrival of the focus tile's task (R210). -/
def State.arrive (s : State) : State :=
  let p := s.parts[s.part.val]
  { s with
    parts := s.parts.set s.part.val (p.arrive s.time.toNat)
    tile := { s.tile with arrival := .arrived, arrGen := p.gen } }

/-- Whether BARA and BARR may count an arrival: a participant in state NONE, PARTS not 0 (R210, R364). -/
def State.mayArrive (s : State) : Bool :=
  s.tile.task.any (·.lintel) && s.tile.arrival == .none && (s.parts[s.part.val]).partsNo != 0

/-- Resume from a barrier, or wait for the course's release (R210, R138). -/
def barResume (c : Ctx) (s : State) : SlotR :=
  match s.tile.arrival with
  | .none => trapR .barrierState
  | .arrived => .wait c.s0 .lintel
  | .released =>
    withBoundary c s allMask true fun u => okR (u.mapTile fun t => { t with arrival := .none, barr := false })

/-- BARA (R210). -/
def slotBara : Slot :=
  { cls := 1, resolves := fun _ => true, meets := fun _ => true,
    run := fun c s =>
      if !s.mayArrive then trapR .barrierState
      else withBoundary c s allMask true fun u => okR u.arrive }

/-- BARW (R210). -/
def slotBarw : Slot :=
  { cls := 1, resolves := fun _ => true, meets := fun _ => true,
    run := fun c s => if !s.tile.task.any (·.lintel) then trapR .barrierState else barResume c s }

/-- BARR: its arrival once, then as BARW (R210). DESIGN CHOICE (log 54): one that is issued again after a trap or a handler, its arrival counted,
goes on waiting, as one does after a swap (R38). -/
def slotBarr : Slot :=
  { cls := 1, resolves := fun _ => true, meets := fun _ => true,
    run := fun c s =>
      if s.tile.barr then barResume c s
      else if !s.mayArrive then trapR .barrierState
      else
        withBoundary c s allMask true fun u =>
          .wait (u.arrive.mapTile fun t => { t with barr := true }) .lintel }

/-- PHASE (R211, R124). -/
def slotPhase (_sc : Scope) (m : StMask) : Slot :=
  { cls := 1, resolves := fun _ => true, meets := fun _ => true,
    run := fun c s => withBoundary c s (classes m) true okR }

/-- FENCE (R211, R125). -/
def slotFence (_sc : Scope) (m : StMask) : Slot :=
  { cls := 1, resolves := fun _ => true, run := fun c s => withBoundary c s (classes m) false okR }

/-- The entries of a team's pool (R28). -/
def poolSize : Nat := 64

/-- Place a pool task, the spawner's ring position counting it (R28, R32, R212). -/
def State.spawn (s : State) (x : Task) (entry arg : Word) : State :=
  match s.findTeam x.team with
  | none => s
  | some k =>
    s.setTeam { k with
      pool := k.pool ++ [⟨entry, arg, x.pos, x.ltile⟩]
      counts := k.counts.set x.pos.val (k.counts[x.pos.val] + 1) }

/-- The number of entries in the pool of the focus tile's task. -/
def State.poolLen (s : State) : Nat := (s.team.map (·.pool.length)).getD 0

/-- The SPAWNs that a speculating task holds (R212). -/
def Spec.spawns (p : Spec) : Nat :=
  (p.held.filter fun h =>
    match h.op with
    | .spawn _ _ => true
    | _ => false).length

/-- SPAWN (R28, R212). DESIGN CHOICE (log 54): BLOCK_ALIGN is checked before SPAWN_FULL. -/
def slotSpawn (d a b : SReg) : Slot :=
  { cls := 1, reads := fun _ => [.sreg a, .sreg b],
    run := fun c s =>
      let e := c.pre.sreg a
      if !isDescriptor e.toNat (s.codeWord e.toNat) then trapR .blockAlign
      else
        match s.tile.spec, s.tile.task with
        | some p, _ =>
          let h := HeldOp.spawn e (c.pre.sreg b)
          if p.fits h then
            okR (s.mapTile fun t =>
              (t.hold c.pc h).write (.sreg d) (BitVec.ofNat 64 (s.poolLen + p.spawns + 1)))
          else .resolve
        | none, some x =>
          if poolSize ≤ s.poolLen then trapR .spawnFull
          else
            okR ((s.spawn x e (c.pre.sreg b)).mapTile fun t =>
              t.write (.sreg d) (BitVec.ofNat 64 (s.poolLen + 1)))
        | none, none => okR s }

/-- RETIRE (R21, R213): the bundle's other slots take effect, then the task ends. -/
def slotRetire : Slot :=
  { cls := 1, resolves := fun _ => true, meets := fun _ => true, run := fun _ s => .ok s { retire := true } }

/-- TRAP (R213). -/
def slotTrap (imm : Nat) : Slot := { cls := 1, run := fun _ s => .ok s { trapImm := some imm } }

/-- PCOMMIT (R159). -/
def slotPcommit : Slot := { cls := 1, resolves := fun _ => true, run := fun _ s => okR s }

/-- TRET (R215, R396): a word-offset target at TEPC, the privilege level lowered. -/
def slotTret : Slot :=
  { cls := 1, priv := true, resolves := fun _ => true,
    run := fun c s =>
      if !c.pre.priv then trapR .contextError else goTo (s.mapTile Tile.trapReturn) false c.pre.tepc.toNat }

def execBrp (p : PReg) (imm : Int) (s : State) : Host.Outcome State Fault Refusal := .next (issue1 s (slotBrp p imm))
def execBrnp (p : PReg) (imm : Int) (s : State) : Host.Outcome State Fault Refusal := .next (issue1 s (slotBrnp p imm))
def execJmpWord (imm : Int) (s : State) : Host.Outcome State Fault Refusal := .next (issue1 s (slotJmpWord imm))
def execJmpBlock (imm : Int) (s : State) : Host.Outcome State Fault Refusal := .next (issue1 s (slotJmpBlock imm))
def execJmpi (a : SReg) (imm : Int) (s : State) : Host.Outcome State Fault Refusal := .next (issue1 s (slotJmpi a imm))
def execJmpiB (a : SReg) (s : State) : Host.Outcome State Fault Refusal := .next (issue1 s (slotJmpiB a))
def execCallb (l : SReg) (imm : Int) (s : State) : Host.Outcome State Fault Refusal :=
  .next (issue1 s (slotCallb l imm))
def execRetb (a : SReg) (s : State) : Host.Outcome State Fault Refusal := .next (issue1 s (slotRetb a))
def execLoopb (imm : Int) (s : State) : Host.Outcome State Fault Refusal := .next (issue1 s (slotLoopb imm))
def execLsetPass (a : SReg) (imm : Int) (s : State) : Host.Outcome State Fault Refusal :=
  .next (issue1 s (slotLsetPass a imm))
def execLsetFeed (a : SReg) (imm : Int) (s : State) : Host.Outcome State Fault Refusal :=
  .next (issue1 s (slotLsetFeed a imm))
def execLsetRrb (imm : Nat) (s : State) : Host.Outcome State Fault Refusal := .next (issue1 s (slotLsetRrb imm))
def execLsetStg (imm : Nat) (s : State) : Host.Outcome State Fault Refusal := .next (issue1 s (slotLsetStg imm))
def execWait (ld st cp tl : Fin 32) (s : State) : Host.Outcome State Fault Refusal :=
  .next (issue1 s (slotWait ld st cp tl))
def execSemw (k : SemNo) (cnt : Fin 256) (a : SReg) (s : State) : Host.Outcome State Fault Refusal :=
  .next (issue1 s (slotSemw k cnt a))
def execSems (k : SemNo) (cnt : Fin 256) (a : SReg) (s : State) : Host.Outcome State Fault Refusal :=
  .next (issue1 s (slotSems k cnt a))
def execSemt (k : SemNo) (cnt : Fin 256) (d : SReg) (s : State) : Host.Outcome State Fault Refusal :=
  .next (issue1 s (slotSemt k cnt d))
def execBara (s : State) : Host.Outcome State Fault Refusal := .next (issue1 s (slotBara))
def execBarw (s : State) : Host.Outcome State Fault Refusal := .next (issue1 s (slotBarw))
def execBarr (s : State) : Host.Outcome State Fault Refusal := .next (issue1 s (slotBarr))
def execPhase (sc : Scope) (m : StMask) (s : State) : Host.Outcome State Fault Refusal :=
  .next (issue1 s (slotPhase sc m))
def execFence (sc : Scope) (m : StMask) (s : State) : Host.Outcome State Fault Refusal :=
  .next (issue1 s (slotFence sc m))
def execSpawn (d a b : SReg) (s : State) : Host.Outcome State Fault Refusal := .next (issue1 s (slotSpawn d a b))
def execRetire (s : State) : Host.Outcome State Fault Refusal := .next (issue1 s (slotRetire))
def execTrap (imm : Nat) (s : State) : Host.Outcome State Fault Refusal := .next (issue1 s (slotTrap imm))
def execPcommit (s : State) : Host.Outcome State Fault Refusal := .next (issue1 s (slotPcommit))
def execTret (s : State) : Host.Outcome State Fault Refusal := .next (issue1 s (slotTret))

end Sys2Proof.Machine
end

