-- ==== Sys2Proof/Machine/Vector.lean ====
section
/-! DEFINITION. The vector slot and QNT: the checks of R224, lane arithmetic (R229-R234), conversions (R235, R236), block
scales (R237-R241), moves (R242), reductions (R243), QPOP (R244) and sparsity packing (R245). -/

namespace Sys2Proof.Machine

/-- The tags of a list of sources, every FORMAT_MIXED before any FORMAT_TAG (R224 steps 2 and 3). -/
def Tile.srcTags (t : Tile) (l : List (GridOp × (Nat → Bool))) : Except TrapInfo (List Nat) :=
  match l.find? fun p => (t.tag p.1).isNone with
  | some _ => .error (tagTrap .formatMixed t.tags[0].val)
  | none =>
    let tags := l.map fun p => ((t.tag p.1).getD 0).val
    match (l.zip tags).find? fun p => !p.1.2 p.2 with
    | some p => .error (tagTrap .formatTag p.2)
    | none => .ok tags

/-- A slot that reads grid operands: its checks in the order of R224, then its body with the sources' tags. -/
def gridSlot (cls : Nat) (srcs : List (GridOp × (Nat → Bool))) (extra : Tile → List Site)
    (body : Ctx → State → List Nat → SlotR) : Slot :=
  { cls := cls
    reads := fun t => srcs.flatMap (fun p => gridSites p.1 t) ++ extra t
    run := fun c s =>
      match c.pre.srcTags srcs with
      | .error e => .trap e
      | .ok tags => body c s tags }

/-- No more sites. -/
def noSites (_ : Tile) : List Site := []

/-- Write a row result under its tag, after the destination's check (R224 step 5, R225). -/
def rowOut (c : Ctx) (s : State) (d : GridOp) (tag : Nat) (v : Row) (lat : Nat) : SlotR :=
  match c.pre.dstOk d tag with
  | .error e => .trap e
  | .ok () => okR (s.mapTile fun t => t.putRow c.pre d tag v lat)

def isFp (t : Nat) : Bool := t == 1
def isInt32 (t : Nat) : Bool := t == 2
def not12 (t : Nat) : Bool := t != 12
def anyTag (_ : Nat) : Bool := true

/-- Cell by cell. -/
def map1 (f : Cell → Cell) (a : Row) : Row := a.map f
def map2 (f : Cell → Cell → Cell) (a b : Row) : Row := Vector.ofFn fun i => f a[i.val] b[i.val]

/-- A lane-wise instruction of two sources of one tag, which is the result's tag. -/
def lanes2 (ok : Nat → Bool) (tag lat : Nat) (d a b : GridOp) (f : Rnd → Cell → Cell → Cell) : Slot :=
  gridSlot 3 [(a, ok), (b, ok)] noSites fun c s _ =>
    rowOut c s d tag (map2 (f (rndOf c.rnd)) (c.pre.row a) (c.pre.row b)) lat

/-- A lane-wise instruction of one source. -/
def lanes1 (ok : Nat → Bool) (tag lat : Nat) (d a : GridOp) (f : Rnd → Cell → Cell) : Slot :=
  gridSlot 3 [(a, ok)] noSites fun c s _ => rowOut c s d tag (map1 (f (rndOf c.rnd)) (c.pre.row a)) lat

/-- A floating instruction of two sources, rounded once (R229). -/
def fp2 (d a b : GridOp) (f : RMode → Num → Num → Num) : Slot :=
  lanes2 isFp 1 4 d a b fun r x y => toF32 r (f r.mode (f32 x) (f32 y))

/-- A floating instruction of one source. -/
def fp1 (lat : Nat) (d a : GridOp) (f : Num → Num) : Slot := lanes1 isFp 1 lat d a fun r x => toF32 r (f (f32 x))

/-- A fused multiply and add: D is a third source (R229). -/
def fp3 (d a b : GridOp) (f : RMode → Num → Num → Num → Num) : Slot :=
  gridSlot 3 [(a, isFp), (b, isFp), (d, isFp)] noSites fun c s _ =>
    let r := rndOf c.rnd
    let x := c.pre.row a
    let y := c.pre.row b
    let z := c.pre.row d
    rowOut c s d 1 (Vector.ofFn fun i => toF32 r (f r.mode (f32 x[i.val]) (f32 y[i.val]) (f32 z[i.val]))) 4

def slotFadd (d a b : GridOp) : Slot := fp2 d a b fun m x y => Num.add m x y
def slotFsub (d a b : GridOp) : Slot := fp2 d a b fun m x y => Num.add m x y.neg
def slotFmul (d a b : GridOp) : Slot := fp2 d a b fun _ x y => Num.mul x y
def slotFma (d a b : GridOp) : Slot := fp3 d a b fun m x y z => Num.add m (Num.mul x y) z
def slotFnma (d a b : GridOp) : Slot := fp3 d a b fun m x y z => Num.add m (Num.mul x y).neg z
def slotFmax (d a b : GridOp) : Slot := fp2 d a b fun _ x y => Num.max x y
def slotFmin (d a b : GridOp) : Slot := fp2 d a b fun _ x y => Num.min' x y
def slotFabs (d a : GridOp) : Slot := fp1 4 d a Num.abs
def slotFneg (d a : GridOp) : Slot := fp1 4 d a Num.neg
def slotFrcp (d a : GridOp) : Slot := fp1 8 d a recip
def slotFrsq (d a : GridOp) : Slot := fp1 8 d a rsqrt
def slotFexp2 (d a : GridOp) : Slot := fp1 8 d a exp2

/-- Lane i of the condition register chooses (R234). -/
def lcrPick (lcr : BitVec 64) (a b : Row) : Row := Vector.ofFn fun i => if lcr.getLsbD i.val then a[i.val] else b[i.val]

/-- FSEL (R229, R234). -/
def slotFsel (d a b : GridOp) : Slot :=
  gridSlot 3 [(a, isFp), (b, isFp)] (fun _ => [.lcr]) fun c s _ =>
    rowOut c s d 1 (lcrPick c.pre.lcr (c.pre.row a) (c.pre.row b)) 4

/-- VSEL: A and B carry one tag, which D takes (R234). DESIGN CHOICE (log 54): of unlike tags TRAPVAL has B's. -/
def slotVsel (d a b : GridOp) : Slot :=
  gridSlot 3 [(a, not12), (b, not12)] (fun _ => [.lcr]) fun c s tags =>
    let x := tags.getD 0 0
    let y := tags.getD 1 0
    if x != y then .trap (tagTrap .formatTag y)
    else rowOut c s d x (lcrPick c.pre.lcr (c.pre.row a) (c.pre.row b)) 2

/-- A compare: LCR, and the predicate as the OR or the AND of the lanes (R233). -/
def laneCompare (ok : Nat → Bool) (lat : Nat) (p : PReg) (a b : GridOp) (all : Bool) (f : Cell → Cell → Bool) : Slot :=
  gridSlot 3 [(a, ok), (b, ok)] noSites fun c s _ =>
    let x := c.pre.row a
    let y := c.pre.row b
    let g := fun (i : Fin 64) => f x[i.val] y[i.val]
    okR (s.mapTile fun t =>
      t.fly { due := c.pre.tc + lat, isLoad := false
              writes := [(.lcr, some (lcrOf g)), (.pred p, some (boolWord (lanePred all g)))] })

/-- FCMP (R233). -/
def slotFcmp (cc : FpCC) (p : PReg) (a b : GridOp) (all : Bool) : Slot :=
  laneCompare isFp 4 p a b all fun x y => fpCond cc (f32 x) (f32 y)

/-- VCMP (R233). -/
def slotVcmp (cc : IntCC) (p : PReg) (a b : GridOp) (all : Bool) : Slot :=
  laneCompare isInt32 2 p a b all fun x y => intCond cc x y

/-- Wrap, or clamp to the INT32 range under the saturating overrides (R226). -/
def wrap32 (r : Rnd) (v : Int) : Cell := BitVec.ofInt 32 (if r.sat then clampInt (-2147483648) 2147483647 v else v)

def slotVadd (d a b : GridOp) : Slot := lanes2 isInt32 2 2 d a b fun r x y => wrap32 r (x.toInt + y.toInt)
def slotVsub (d a b : GridOp) : Slot := lanes2 isInt32 2 2 d a b fun r x y => wrap32 r (x.toInt - y.toInt)
def slotVmul (d a b : GridOp) : Slot := lanes2 isInt32 2 2 d a b fun r x y => wrap32 r (x.toInt * y.toInt)

/-- VMULH (R231). -/
def slotVmulh (d a b : GridOp) (u : Bool) : Slot :=
  lanes2 isInt32 2 2 d a b fun _ x y =>
    if u then BitVec.ofNat 32 (x.toNat * y.toNat / 2 ^ 32) else BitVec.ofInt 32 (x.toInt * y.toInt / 2 ^ 32)

/-- VMIN (R231). -/
def slotVmin (d a b : GridOp) (u : Bool) : Slot :=
  lanes2 isInt32 2 2 d a b fun _ x y => if (if u then x.ult y else x.slt y) then x else y

/-- VMAX (R231). -/
def slotVmax (d a b : GridOp) (u : Bool) : Slot :=
  lanes2 isInt32 2 2 d a b fun _ x y => if (if u then x.ult y else x.slt y) then y else x

def slotVabs (d a : GridOp) : Slot := lanes1 isInt32 2 2 d a fun r x => wrap32 r x.toInt.natAbs

/-- VSAT to wd + 1 bits (R231). -/
def slotVsat (d a : GridOp) (u : Bool) (wd : Fin 32) : Slot :=
  lanes1 isInt32 2 2 d a fun _ x =>
    BitVec.ofInt 32 (if u then clampInt 0 (2 ^ (wd.val + 1) - 1) x.toInt
      else clampInt (-(2 ^ wd.val)) (2 ^ wd.val - 1) x.toInt)

def slotVsar (d a : GridOp) (n : Fin 32) : Slot := lanes1 isInt32 2 2 d a fun _ x => x.sshiftRight n.val

/-- A bitwise instruction: the sources' common tag, or RAW32 (R232). -/
def bits2 (d a b : GridOp) (f : Cell → Cell → Cell) : Slot :=
  gridSlot 3 [(a, not12), (b, not12)] noSites fun c s tags =>
    let x := tags.getD 0 0
    rowOut c s d (if x == tags.getD 1 0 then x else 0) (map2 f (c.pre.row a) (c.pre.row b)) 2

def slotVand (d a b : GridOp) : Slot := bits2 d a b fun x y => x &&& y
def slotVor (d a b : GridOp) : Slot := bits2 d a b fun x y => x ||| y
def slotVxor (d a b : GridOp) : Slot := bits2 d a b fun x y => x ^^^ y

/-- A zero-filling shift, which keeps the tag (R232). -/
def shift1 (d a : GridOp) (f : Cell → Cell) : Slot :=
  gridSlot 3 [(a, fun t => t == 2 || t == 0 || t == 15)] noSites fun c s tags =>
    rowOut c s d (tags.getD 0 0) (map1 f (c.pre.row a)) 2

def slotVshl (d a : GridOp) (n : Fin 32) : Slot := shift1 d a fun x => x <<< n.val
def slotVshr (d a : GridOp) (n : Fin 32) : Slot := shift1 d a fun x => x >>> n.val

/-- The element that a destination keeps: its own when it carried the tag before the bundle, else 0 (R235, R238, R239). -/
def Tile.kept (t : Tile) (d : GridOp) (tag : Nat) : Nat → Nat :=
  if (t.tag d).any fun x => x.val == tag then
    let v := t.row d
    fun k => elemOf tag v k
  else fun _ => 0

/-- The sites read where a destination keeps elements: they count as a source for GRID_PARITY: DESIGN CHOICE, the spec naming the
destination as a source for FMA and FNMA only (R224, log 48). -/
def keptSites (d : GridOp) (tag : Nat) (t : Tile) : List Site :=
  if (t.tag d).any fun x => x.val == tag then gridSites d t else []

/-- CVT's element conversion (R235). -/
def cvtElem (r : Rnd) (src dst code : Nat) : Nat := tagEncode dst r (tagIsInt src) (tagDecode src code)

/-- The first element that a narrowing CVT of n_s elements per cell writes, and how many (R235). -/
def slicePart (n p : Nat) : Nat × Nat := (64 * n * p, 64 * n)

/-- The row of a CVT between packings (R235); none is a P out of range. -/
def cvtRow (r : Rnd) (src dst p : Nat) (a : Row) (keep : Nat → Nat) : Option Row :=
  let ns := (tagShape src).1
  let nd := (tagShape dst).1
  if ns == nd then
    if p == 0 then some (packRow dst fun k => cvtElem r src dst (elemOf src a k)) else none
  else if nd < ns then
    if p < ns / nd then some (packRow dst fun k => cvtElem r src dst (elemOf src a (64 * nd * p + k))) else none
  else if p < nd / ns then
    let part := slicePart ns p
    some (packRow dst fun k =>
      if part.1 ≤ k ∧ k < part.1 + part.2 then cvtElem r src dst (elemOf src a (k - part.1)) else keep k)
  else none

/-- Whether an A80 pair may be read: h, even, outside 16-31, both rows tagged 12 (R236). -/
def Tile.isPair (t : Tile) (a : GridOp) : Bool :=
  pairOk a && (t.tag a).any (fun x => x.val == 12) && (t.tag (pairOdd a)).any (fun x => x.val == 12)

/-- CVT to FP32 from an A80 pair (R236). -/
def cvtFromPair (c : Ctx) (s : State) (d a : GridOp) (p t : Nat) : SlotR :=
  if !c.pre.isPair a || t != 1 || 2 ≤ p then .trap (tagTrap .formatTag 12)
  else
    let ev := c.pre.row a
    let od := c.pre.row (pairOdd a)
    let keep := c.pre.kept d 1
    rowOut c s d 1 (packRow 1 fun k =>
      if 32 * p ≤ k ∧ k < 32 * p + 32 then fp32.encode (rndOf c.rnd) (a80.decode (pairGet ev od (k - 32 * p)))
      else keep k) 4

/-- CVT to an A80 pair (R236). -/
def cvtToPair (c : Ctx) (s : State) (d a : GridOp) (p src : Nat) : SlotR :=
  if !(src == 1 || src == 2) || 2 ≤ p then .trap (tagTrap .formatTag src)
  else
    let v := c.pre.row a
    let rows := pairRows fun k => a80.encode rne (tagDecode src (elemOf src v (32 * p + k)))
    okR (s.mapTile fun t => (t.putRow c.pre d 12 rows.1 4).putRow c.pre (pairOdd d) 12 rows.2 4)

/-- Whether a CVT keeps elements of its destination: where it narrows (R235), and beside the values of a pair (R236). -/
def cvtKeeps (src dst : Nat) : Bool := src == 12 || (dst != 12 && decide ((tagShape src).1 < (tagShape dst).1))

/-- CVT (R235, R236). DESIGN CHOICE (log 54): TRAPVAL of a P out of range has A's tag. -/
def slotCvt (d a : GridOp) (p : Fin 8) (t : Fin 16) : Slot :=
  gridSlot 3 [(a, fun x => decide (1 ≤ x) && decide (x ≤ 13))]
    (fun u => (if (u.tag a).any fun x => cvtKeeps x.val t.val then keptSites d t.val u else []) ++ (if u.isPair a then gridSites (pairOdd a) u else []))
    fun c s tags =>
      let src := tags.getD 0 0
      if src == 12 then cvtFromPair c s d a p.val t.val
      else if t.val == 12 then cvtToPair c s d a p.val src
      else
        match cvtRow (rndOf c.rnd) src t.val p.val (c.pre.row a) (c.pre.kept d t.val) with
        | none => .trap (tagTrap .formatTag src)
        | some v => rowOut c s d t.val v 4

/-- The MX element tags (R240). -/
def isMx (t : Nat) : Bool := t == 6 || t == 7 || t == 9 || t == 10

/-- The h row that carries DQN's scales (R240). -/
def scaleRow (n : Fin 32) : GridOp := ⟨.h, ⟨n.val, by omega⟩⟩

/-- DQN (R240). DESIGN CHOICE (log 54): TRAPVAL of a P out of range has A's tag. -/
def slotDqn (d a : GridOp) (p : Fin 8) (n : Fin 32) : Slot :=
  gridSlot 3 [(a, isMx), (scaleRow n, fun t => t == 14)] noSites fun c s tags =>
    let tag := tags.getD 0 0
    if elemCount tag / 64 ≤ p.val then .trap (tagTrap .formatTag tag)
    else
      let v := c.pre.row a
      let sc := c.pre.row (scaleRow n)
      let r := rndOf c.rnd
      rowOut c s d 1 (Vector.ofFn fun i =>
        let k := 64 * p.val + i.val
        toF32 r (scaled (tagDecode tag (elemOf tag v k)) (elemOf 14 sc (k / 32)))) 4

/-- The largest magnitude of block b of an FP32 row (R237). -/
def blockMax (v : Row) (b : Bool) : Num :=
  (List.range 32).foldl (fun m i => Num.max m (f32 (v.toList.getD (32 * b.toNat + i) 0)).abs) (.fin false 0 0)

/-- BMAX (R237). -/
def slotBmax (d a : GridOp) (b : Bool) : Slot :=
  gridSlot 3 [(a, isFp)] noSites fun c s _ =>
    let m := toF32 rne (blockMax (c.pre.row a) b)
    rowOut c (s.mapTile fun t => { t with bmr := m }) d 1 (Vector.replicate 64 m) 4

/-- A row with one element of a tag replaced, the others kept (R238, R239). -/
def patch (t : Tile) (d : GridOp) (tag lo n : Nat) (f : Nat → Nat) : Row :=
  let keep := t.kept d tag
  packRow tag fun k => if lo ≤ k ∧ k < lo + n then f (k - lo) else keep k

/-- SCSEL, alone or fused with a BMAX that does not write the grid (R238). -/
def slotScsel (d a : GridOp) (fuse : Bool) (e : Fin 16) (b : Bool) (f : MxFmt) : Slot :=
  gridSlot 3 (if fuse then [(a, isFp)] else []) (keptSites d 14) fun c s _ =>
    let x := chooseScale f (f32 c.pre.bmr)
    let s := if fuse then s.mapTile fun t => { t with bmr := toF32 rne (blockMax (c.pre.row a) b) } else s
    match rowOut c s d 14 (patch c.pre d 14 e.val 1 fun _ => x) 4 with
    | .ok s fx => .ok s { fx with scx := some x }
    | r => r

/-- QNT, in the matrix slot, where its beat is a hold beat (R239). -/
def slotQnt (d a : GridOp) (f : MxFmt) (b : Bool) : Slot :=
  gridSlot 5 [(a, isFp)] (keptSites d (mxTag f)) fun c s _ =>
    let v := c.pre.row a
    let lo := 32 * b.toNat
    rowOut c s d (mxTag f)
      (patch c.pre d (mxTag f) lo 32 fun k =>
        quantise f (rndOf c.rnd) c.pre.xrd.toNat (f32 (v.toList.getD (lo + k) 0))) 4

def slotVmov (d a : GridOp) : Slot :=
  gridSlot 3 [(a, anyTag)] noSites fun c s tags => rowOut c s d (tags.getD 0 0) (c.pre.row a) 2

def slotTag (d a : GridOp) (t : Fin 16) : Slot :=
  gridSlot 3 [(a, anyTag)] noSites fun c s _ => rowOut c s d t.val (c.pre.row a) 2

/-- VPERM (R242). -/
def slotVperm (d a b : GridOp) : Slot :=
  gridSlot 3 [(a, anyTag), (b, isInt32)] noSites fun c s tags =>
    let x := c.pre.row a
    let y := c.pre.row b
    rowOut c s d (tags.getD 0 0) (Vector.ofFn fun i => x[(y[i.val]).toNat % 64]!) 2

/-- VROT (R242). -/
def slotVrot (d a : GridOp) (k : Fin 64) : Slot :=
  gridSlot 3 [(a, anyTag)] noSites fun c s tags =>
    let x := c.pre.row a
    rowOut c s d (tags.getD 0 0) (Vector.ofFn fun i => x[(i + k).val]) 2

/-- VBCST (R242). -/
def slotVbcst (d : GridOp) (a : SReg) (t : Fin 16) : Slot :=
  { cls := 3, reads := fun _ => [.sreg a],
    run := fun c s => rowOut c s d t.val (Vector.replicate 64 ((c.pre.sreg a).setWidth 32)) 2 }

/-- The tree of R109 over a list of 2^n values. -/
def treeFold (f : Cell → Cell → Cell) : Nat → List Cell → Cell
  | 0, l => l.getD 0 0
  | n + 1, l => treeFold f n ((List.range (2 ^ n)).map fun i => f (l.getD (2 * i) 0) (l.getD (2 * i + 1) 0))

/-- One step of a reduction (R243). -/
def redStep (op : RedOp) (r : Rnd) (x y : Cell) : Cell :=
  match op with
  | .fadd => toF32 r (Num.add r.mode (f32 x) (f32 y))
  | .fmax => toF32 r (Num.max (f32 x) (f32 y))
  | .fmin => toF32 r (Num.min' (f32 x) (f32 y))
  | .add => x + y
  | .max => if x.slt y then y else x
  | .min => if x.slt y then x else y

def redFloat (op : RedOp) : Bool :=
  match op with
  | .fadd | .fmax | .fmin => true
  | .add | .max | .min => false

/-- VRED (R243). -/
def slotVred (op : RedOp) (d a : GridOp) : Slot :=
  let tag := if redFloat op then 1 else 2
  gridSlot 3 [(a, fun t => t == tag)] noSites fun c s _ =>
    rowOut c s d tag (Vector.replicate 64 (treeFold (redStep op (rndOf c.rnd)) 6 (c.pre.row a).toList))
      (if redFloat op then 4 else 2)

/-- The outcome of a pop (R84): an empty queue, an entry still to arrive, a remote row that failed (R87), an entry. -/
inductive Pop where
  | under
  | later
  | failed
  | got (e : QEntry) (t : Tile)

/-- Pop the oldest entry of a result queue (R84). -/
def Tile.popQ (t : Tile) (q : QReg) : Pop :=
  match t.queues[q.val] with
  | [] => .under
  | e :: l =>
    if !e.arrived then .later
    else if e.failed then .failed
    else .got e { t with queues := t.queues.set q.val l }

/-- QPOP (R244): an entry that has not arrived stalls it before anything is known of its tag (R84). -/
def slotQpop (d : GridOp) (q : QReg) : Slot :=
  { cls := 3
    run := fun c s =>
      match s.tile.popQ q with
      | .under => trapR .queueUnderflow
      | .later => .stall c.s0
      | .failed => trapR .remoteBeat
      | .got e t => rowOut c { s with tile := t } d e.tag e.cells 1 }

/-- N of an SPK or SPX code (R245). -/
def spCount (n : Nat) : Nat :=
  match n with
  | 1 => 2
  | 2 => 3
  | 3 => 4
  | _ => 6

/-- Whether an element ranks before another in a group: the larger magnitude, a NaN above every number, a tie to the lower
index (R245). -/
def spBefore (x y : Num) (i j : Nat) : Bool :=
  if x.isNan && y.isNan then decide (i < j)
  else if x.isNan then true
  else if y.isNan then false
  else if Num.lt y.abs x.abs then true
  else if Num.lt x.abs y.abs then false
  else decide (i < j)

/-- Whether an element counts as zero (R245). -/
def Num.isZero (x : Num) : Bool :=
  match x with
  | .fin _ 0 _ => true
  | _ => false

/-- The elements of group g that are kept: the nonzero ones, at most n of them, those of largest magnitude (R245). -/
def spKeep (f : Nat → Num) (n g : Nat) : List Nat :=
  (List.range 12).filter fun l =>
    let x := f (12 * g + l)
    !x.isZero && decide (((List.range 12).filter fun j =>
      let y := f (12 * g + j)
      j != l && !y.isZero && spBefore y x j l).length < n)

/-- The tags SPK and SPX accept (R245). -/
def spTag (t : Nat) : Bool :=
  t == 3 || t == 4 || t == 6 || t == 7 || t == 8 || t == 9 || t == 10 || t == 11 || t == 13

/-- The steps T of a row of m elements and the groups S per step (R245). -/
def spSteps (m n : Nat) : Nat × Nat := (m / 12 / (12 / n), 12 / n)

/-- SPK (R245). -/
def slotSpk (d a : GridOp) (n : Fin 8) : Slot :=
  gridSlot 3 [(a, spTag)] noSites fun c s tags =>
    let tag := tags.getD 0 0
    let v := c.pre.row a
    let k := spCount n.val
    let st := spSteps (elemCount tag) k
    let steps := (List.range st.1).map fun t =>
      (List.range st.2).flatMap fun j =>
        let g := t * st.2 + j
        (spKeep (fun i => tagDecode tag (elemOf tag v i)) k g).map fun l => elemOf tag v (12 * g + l)
    rowOut c s d tag (packRow tag fun i => (steps.getD (i / 12) []).getD (i % 12) 0) 2

/-- SPX (R245). -/
def slotSpx (d a : GridOp) (n : Fin 8) : Slot :=
  gridSlot 3 [(a, spTag)] noSites fun c s tags =>
    let tag := tags.getD 0 0
    let v := c.pre.row a
    let k := spCount n.val
    let st := spSteps (elemCount tag) k
    let masks := (List.range (st.1 * st.2)).map fun g =>
      (spKeep (fun i => tagDecode tag (elemOf tag v i)) k g).foldl (fun m l => m + 2 ^ l) 0
    rowOut c s d 5 (packRow 5 fun i => masks.getD i 0) 2

def execFadd (d a b : GridOp) (s : State) : Host.Outcome State Fault Refusal := .next (issue1 s (slotFadd d a b))
def execFsub (d a b : GridOp) (s : State) : Host.Outcome State Fault Refusal := .next (issue1 s (slotFsub d a b))
def execFmul (d a b : GridOp) (s : State) : Host.Outcome State Fault Refusal := .next (issue1 s (slotFmul d a b))
def execFma (d a b : GridOp) (s : State) : Host.Outcome State Fault Refusal := .next (issue1 s (slotFma d a b))
def execFnma (d a b : GridOp) (s : State) : Host.Outcome State Fault Refusal := .next (issue1 s (slotFnma d a b))
def execFmax (d a b : GridOp) (s : State) : Host.Outcome State Fault Refusal := .next (issue1 s (slotFmax d a b))
def execFmin (d a b : GridOp) (s : State) : Host.Outcome State Fault Refusal := .next (issue1 s (slotFmin d a b))
def execFabs (d a : GridOp) (s : State) : Host.Outcome State Fault Refusal := .next (issue1 s (slotFabs d a))
def execFneg (d a : GridOp) (s : State) : Host.Outcome State Fault Refusal := .next (issue1 s (slotFneg d a))
def execFrcp (d a : GridOp) (s : State) : Host.Outcome State Fault Refusal := .next (issue1 s (slotFrcp d a))
def execFrsq (d a : GridOp) (s : State) : Host.Outcome State Fault Refusal := .next (issue1 s (slotFrsq d a))
def execFexp2 (d a : GridOp) (s : State) : Host.Outcome State Fault Refusal := .next (issue1 s (slotFexp2 d a))
def execFsel (d a b : GridOp) (s : State) : Host.Outcome State Fault Refusal := .next (issue1 s (slotFsel d a b))
def execVsel (d a b : GridOp) (s : State) : Host.Outcome State Fault Refusal := .next (issue1 s (slotVsel d a b))
def execFcmp (cc : FpCC) (p : PReg) (a b : GridOp) (all : Bool) (s : State) : Host.Outcome State Fault Refusal :=
  .next (issue1 s (slotFcmp cc p a b all))
def execVcmp (cc : IntCC) (p : PReg) (a b : GridOp) (all : Bool) (s : State) : Host.Outcome State Fault Refusal :=
  .next (issue1 s (slotVcmp cc p a b all))
def execVadd (d a b : GridOp) (s : State) : Host.Outcome State Fault Refusal := .next (issue1 s (slotVadd d a b))
def execVsub (d a b : GridOp) (s : State) : Host.Outcome State Fault Refusal := .next (issue1 s (slotVsub d a b))
def execVmul (d a b : GridOp) (s : State) : Host.Outcome State Fault Refusal := .next (issue1 s (slotVmul d a b))
def execVmulh (d a b : GridOp) (u : Bool) (s : State) : Host.Outcome State Fault Refusal :=
  .next (issue1 s (slotVmulh d a b u))
def execVmin (d a b : GridOp) (u : Bool) (s : State) : Host.Outcome State Fault Refusal :=
  .next (issue1 s (slotVmin d a b u))
def execVmax (d a b : GridOp) (u : Bool) (s : State) : Host.Outcome State Fault Refusal :=
  .next (issue1 s (slotVmax d a b u))
def execVabs (d a : GridOp) (s : State) : Host.Outcome State Fault Refusal := .next (issue1 s (slotVabs d a))
def execVsat (d a : GridOp) (u : Bool) (wd : Fin 32) (s : State) : Host.Outcome State Fault Refusal :=
  .next (issue1 s (slotVsat d a u wd))
def execVsar (d a : GridOp) (n : Fin 32) (s : State) : Host.Outcome State Fault Refusal :=
  .next (issue1 s (slotVsar d a n))
def execVand (d a b : GridOp) (s : State) : Host.Outcome State Fault Refusal := .next (issue1 s (slotVand d a b))
def execVor (d a b : GridOp) (s : State) : Host.Outcome State Fault Refusal := .next (issue1 s (slotVor d a b))
def execVxor (d a b : GridOp) (s : State) : Host.Outcome State Fault Refusal := .next (issue1 s (slotVxor d a b))
def execVshl (d a : GridOp) (n : Fin 32) (s : State) : Host.Outcome State Fault Refusal :=
  .next (issue1 s (slotVshl d a n))
def execVshr (d a : GridOp) (n : Fin 32) (s : State) : Host.Outcome State Fault Refusal :=
  .next (issue1 s (slotVshr d a n))
def execCvt (d a : GridOp) (p : Fin 8) (t : Fin 16) (s : State) : Host.Outcome State Fault Refusal :=
  .next (issue1 s (slotCvt d a p t))
def execDqn (d a : GridOp) (p : Fin 8) (n : Fin 32) (s : State) : Host.Outcome State Fault Refusal :=
  .next (issue1 s (slotDqn d a p n))
def execBmax (d a : GridOp) (b : Bool) (s : State) : Host.Outcome State Fault Refusal :=
  .next (issue1 s (slotBmax d a b))
def execScsel (d a : GridOp) (fuse : Bool) (e : Fin 16) (b : Bool) (f : MxFmt)
    (s : State) : Host.Outcome State Fault Refusal :=
  .next (issue1 s (slotScsel d a fuse e b f))
def execQnt (d a : GridOp) (f : MxFmt) (b : Bool) (s : State) : Host.Outcome State Fault Refusal :=
  .next (issue1 s (slotQnt d a f b))
def execVmov (d a : GridOp) (s : State) : Host.Outcome State Fault Refusal := .next (issue1 s (slotVmov d a))
def execTag (d a : GridOp) (t : Fin 16) (s : State) : Host.Outcome State Fault Refusal :=
  .next (issue1 s (slotTag d a t))
def execVperm (d a b : GridOp) (s : State) : Host.Outcome State Fault Refusal := .next (issue1 s (slotVperm d a b))
def execVrot (d a : GridOp) (k : Fin 64) (s : State) : Host.Outcome State Fault Refusal :=
  .next (issue1 s (slotVrot d a k))
def execVbcst (d : GridOp) (a : SReg) (t : Fin 16) (s : State) : Host.Outcome State Fault Refusal :=
  .next (issue1 s (slotVbcst d a t))
def execVred (op : RedOp) (d a : GridOp) (s : State) : Host.Outcome State Fault Refusal :=
  .next (issue1 s (slotVred op d a))
def execQpop (d : GridOp) (q : QReg) (s : State) : Host.Outcome State Fault Refusal := .next (issue1 s (slotQpop d q))
def execSpk (d a : GridOp) (n : Fin 8) (s : State) : Host.Outcome State Fault Refusal :=
  .next (issue1 s (slotSpk d a n))
def execSpx (d a : GridOp) (n : Fin 8) (s : State) : Host.Outcome State Fault Refusal :=
  .next (issue1 s (slotSpx d a n))

end Sys2Proof.Machine
end

