-- ==== Sys2Proof/Machine/Memory.lean ====
section
/-! DEFINITION. The memory slot's loads and stores (R246-R255, R264), handles (R256), SPFENCE (R257) and map windows
(R261, R262). -/

namespace Sys2Proof.Machine

/-- The most operations that a counter counts (R315). -/
def ctrMax : Nat := 24

/-- A trap of the memory slot with an address (R394). -/
def addrR (c : Cause) (a : Nat) : SlotR := .trap (addrTrap c a)

/-- A memory slot: it stalls while an LDTT, STBP or LDBP is in progress (R248). -/
def memSlot (reads : Tile → List Site) (run : Ctx → State → SlotR) : Slot :=
  { cls := 4, reads := reads, run := fun c s => if c.pre.tc < c.pre.busy then .stall c.s0 else run c s }

/-- A memory slot that makes a resolution stall (R151, R248). -/
def memSlotR (reads : Tile → List Site) (run : Ctx → State → SlotR) : Slot :=
  { memSlot reads run with resolves := fun _ => true }

/-- Where an access may reach. -/
inductive Reach where
  | any | spSlice | spOnly
  deriving DecidableEq, Repr, Inhabited

/-- Steps 2 and 3 of R247: the local checks, and ADDRESS_RANGE for what the entry does not reach. -/
def accessCheck (c : Ctx) (r : Reach) (esz a len : Nat) : Option Cause :=
  match localCheck c.pre.priv esz a len with
  | some x => some x
  | none =>
    match r, regionOf a with
    | .any, _ => none
    | _, .ctl => some .addressRange
    | .spOnly, .slice => some .addressRange
    | _, _ => none

/-- Hold the bundle until its data is there: n tile cycles after it first reached this point, or when the window lines of its
ranges are readable that a fill has brought for it (R256, R267, R319). -/
def waitData (c : Ctx) (n : Nat) (ranges : List (Nat × Nat)) (k : SlotR) : SlotR :=
  let f := c.pre.filledAll ranges
  if f != 0 then (if c.pre.tc < f then .stall c.s0 else k)
  else if c.pre.fillReady == 0 then .stall (c.s0.mapTile fun t => { t with fillReady := t.tc + n })
  else if c.pre.tc < c.pre.fillReady then .stall c.s0
  else k

/-- The fixed time of a load (R58). -/
def loadTime (a : Nat) : Nat := if regionOf a == .slice then 10 else 6

/-- A counted load: its checks from step 4 of R247 on, then its results on their way. -/
def loadR (c : Ctx) (s : State) (ranges : List (Nat × Nat)) (due : Nat) (val : State → List (Site × Option Word)) : SlotR :=
  match memPrep c.s0 s false ranges with
  | .trap i => .trap i
  | .stall u => .stall u
  | .ok u =>
    if ctrMax ≤ c.pre.cld then .stall c.s0
    else
      let u := u.touchAll ranges
      okR (u.mapTile fun t => (t.fly { due := due, isLoad := true, writes := val u }).count .ld)

/-- Perform stores in order. -/
def State.performStores (s : State) (l : List (Nat × List Byte)) : State := l.foldl (fun s p => s.performStore p.1 p.2) s

/-- A store of a speculating task: its bytes in slots acquired since the speculation point are performed, the others held as one
operation; none where the effect buffer has no room for those (R151, R153). It says too whether nothing is held: a store of which
a part is held counts once, when that part is released (R315, log 25). -/
def State.specStores (s : State) (pc : Nat) (p : Spec) (pieces : List (Nat × List Byte)) : Option (State × Bool) :=
  let cut := pieces.flatMap fun x => s.tile.cutStore p x.1 x.2
  let now := (cut.filter fun x => x.1).map (·.2)
  let later := HeldOp.store ((cut.filter fun x => !x.1).map (·.2))
  if (cut.all fun x => x.1) then some (s.performStores now, true)
  else if p.fits later then some ((s.performStores now).mapTile fun t => t.hold pc later, false)
  else none

/-- A counted store of some pieces, done at a tile cycle: its checks from step 4 of R247 on; held in speculation but for its
bytes in slots acquired since the speculation point (R151). -/
def storeR (c : Ctx) (s : State) (pieces : List (Nat × List Byte)) (due : Nat) : SlotR :=
  match memPrep c.s0 s true (pieces.map fun p => (p.1, p.1 + p.2.length)) with
  | .trap i => .trap i
  | .stall u => .stall u
  | .ok u =>
    match u.tile.spec with
    | none =>
      if ctrMax ≤ c.pre.cst then .stall c.s0
      else okR ((u.performStores pieces).mapTile fun t => t.countUntil .st due)
    | some p =>
      match u.specStores c.pc p pieces with
      | none => .resolve
      | some (v, now) =>
        if now && decide (ctrMax ≤ c.pre.cst) then .stall c.s0
        else okR (if now then v.mapTile fun t => t.countUntil .st due else v)

/-- The number of a control-window register (R214). -/
def csrNo (a : Nat) : Nat := (a - 0x0F000000) / 8

/-- The addressed bytes of a control-window register (R249). -/
def State.csrBytes (s : State) (a len : Nat) : Nat := (s.csrRead (csrNo a)).toNat / 2 ^ (8 * (a % 8)) % 2 ^ (8 * len)

/-- LDS (R249). -/
def slotLds (sz : Size) (d a : SReg) (imm : Int) : Slot :=
  memSlot (fun t => .sreg a :: (let x := t.addr a imm; if regionOf x == .ctl then csrSites (csrNo x) else []))
    fun c s =>
      let x := c.pre.addr a imm
      let n := Size.bytes sz
      match accessCheck c .any n x n with
      | some e => addrR e x
      | none =>
        if regionOf x == .ctl then
          -- the spec gives no time for a register's value: that of the scratchpad, DESIGN CHOICE (log 7)
          loadR c s [] (c.pre.tc + 6) fun _ => [(.sreg d, some (BitVec.ofNat 64 (c.s0.csrBytes x n)))]
        else
          loadR c s [(x, x + n)] (c.pre.loadDue x (x + n)) fun u => [(.sreg d, some (BitVec.ofNat 64 (u.coreNum x n)))]

/-- STS (R249); a store to the control window of fewer than 8 bytes is discarded (R67). DESIGN CHOICE (log 54): one of a speculating task makes
a resolution stall, as CSRW does (R214), R151 and R248 naming no treatment. -/
def slotSts (sz : Size) (d a : SReg) (imm : Int) : Slot :=
  memSlot (fun _ => [.sreg d, .sreg a]) fun c s =>
    let x := c.pre.addr a imm
    let n := Size.bytes sz
    match accessCheck c .any n x n with
    | some e => addrR e x
    | none =>
      if regionOf x == .ctl then
        if s.tile.spec.isSome then .resolve
        else if ctrMax ≤ c.pre.cst then .stall c.s0
        else
          let u := s.mapTile fun t => t.countUntil .st (t.tc + storeDelay)
          if n == 8 then csrStore u (csrNo x) (c.pre.sreg d) else okR u
      else storeR c s [(x, leBytes (c.pre.sreg d).toNat n)] (c.pre.tc + storeDelay)

/-- The results of a row load (R250). -/
def rowLoad (c : Ctx) (d : GridOp) (f : Fin 64 → Nat) : List (Site × Option Word) :=
  (List.finRange 64).map fun i =>
    (.cell (laneCell c.pre.rrb d i).1 (laneCell c.pre.rrb d i).2, some (BitVec.ofNat 64 (f i)))

/-- LDV (R250): cells only, the tag staying. -/
def slotLdv (d : GridOp) (a : SReg) (imm : Int) : Slot :=
  memSlot (fun _ => [.sreg a]) fun c s =>
    let x := c.pre.addr a imm
    match c.pre.tag d with
    | none => .trap (tagTrap .formatMixed c.pre.tags[0].val)
    | some _ =>
      match accessCheck c .spSlice 4 x 256 with
      | some e => addrR e x
      | none => loadR c s [(x, x + 256)] (c.pre.loadDue x (x + 256)) fun u => rowLoad c d fun i => u.coreNum (x + 4 * i.val) 4

/-- The bytes of the first n lanes of a row. -/
def rowBytes (v : Row) (n : Nat) : List Byte := (v.toList.take n).flatMap fun x => leBytes x.toNat 4

/-- STV (R250). -/
def slotStv (d : GridOp) (a : SReg) (imm : Int) : Slot :=
  memSlot (fun t => .sreg a :: gridSites d t) fun c s =>
    let x := c.pre.addr a imm
    match c.pre.tag d with
    | none => .trap (tagTrap .formatMixed c.pre.tags[0].val)
    | some _ =>
      match accessCheck c .spSlice 4 x 256 with
      | some e => addrR e x
      | none => storeR c s [(x, rowBytes (c.pre.row d) 64)] (c.pre.tc + storeDelay)

/-- The element width of LDTT, 0 for a tag that it refuses (R251). -/
def ldttWidth (tag : Nat) : Nat :=
  match tag with
  | 3 | 4 | 5 => 2
  | 6 | 7 | 8 | 9 | 13 | 14 => 1
  | _ => 0

/-- LDTT (R251, R252). -/
def slotLdtt (d : Fin 64) (a : SReg) (imm : Int) : Slot :=
  memSlot (fun _ => [.sreg a]) fun c s =>
    let g : GridOp := ⟨.h, d⟩
    let x := c.pre.addr a imm
    let tag := ((c.pre.tag g).getD 0).val
    let w := ldttWidth tag
    let pitch := 64 * w
    if w == 0 then .trap (tagTrap .formatTag tag)
    else
      match accessCheck c .spOnly 4 x (63 * pitch + 4) with
      | some e => addrR e x
      | none =>
        let words := (List.range 64).map fun r => x + pitch * r
        let k := bankLoad c.pre.spswz words
        let due := max (c.pre.tc + 2 + 4 * k) (c.pre.filledAll (words.map fun b => (b, b + 4)))
        match loadR c s (words.map fun b => (b, b + 4)) due (fun u =>
            let row := packRow tag fun e => u.coreNum (x + pitch * (e % 64) + w * (e / 64)) w
            rowLoad c g fun i => (row[i.val]).toNat) with
        | .ok u fx => .ok (u.mapTile fun t => { t with busy := due }) fx
        | r => r

/-- The control word of STBP and LDBP: its handle, row, first group, count and form (R253). -/
structure PlaneOp where
  h : Handle
  row : Nat
  g0 : Nat
  n : Nat
  mask : Bool

/-- The checks of R253 for a row of m elements; the grid row's tag is checked where one is given. DESIGN CHOICE (log 54): that bits 63:29 of
the control word are 0 is checked with step 5, where ADDRESS_RANGE is. -/
def planeOp (t : Tile) (w : Nat) (tag : Option Nat) : Except TrapInfo PlaneOp :=
  let h := t.handles[fld w 0 4]!
  let msk := fld w 28 1 == 1
  let want := if msk then 5 else h.fmt
  let m := elemCount want
  let cnt := fld w 22 6
  let n := if cnt == 0 then (if msk then m else m / 12) else cnt
  let g0 := fld w 10 12
  let r := fld w 4 6
  if !h.valid then .error (trapOf .handleInvalid)
  else if h.maxPlanes < h.planes then .error (trapOf .precisionInvalid)
  else if msk && h.spn == 0 then .error (trapOf .sparsityMeta)
  else if tag.any fun x => x != want then .error (tagTrap .formatTag (tag.getD 0))
  else if fld w 29 35 != 0 || h.rows ≤ r || (if msk then h.kgrp else h.stored) < g0 + n || (if msk then m else m / 12) < n then
    .error { cause := .addressRange, val := BitVec.ofNat 64 w }
  else .ok ⟨h, r, g0, n, msk⟩

/-- The time of an STBP or LDBP over some words (R254, R319). -/
def planeDue (c : Ctx) (words : List Nat) : Nat :=
  max (c.pre.tc + 2 + 4 * bankLoad c.pre.spswz words) (c.pre.filledAll (words.map fun b => (b, b + 2)))

/-- STBP (R253, R254). -/
def slotStbp (d : GridOp) (a : SReg) (imm : Int) : Slot :=
  memSlot (fun t => .sreg a :: gridSites d t) fun c s =>
    match c.pre.tag d with
    | none => .trap (tagTrap .formatMixed c.pre.tags[0].val)
    | some tag =>
      match planeOp c.pre (c.pre.addr a imm) (some tag.val) with
      | .error e => .trap e
      | .ok o =>
        let v := c.pre.row d
        let pieces := (List.range o.n).flatMap fun t =>
          if o.mask then [(o.h.maskAt (o.g0 + t) o.row, bytes16 (elemOf 5 v t))]
          else o.h.rowWrites (o.g0 + t) o.row fun l => elemOf tag.val v (12 * t + l)
        let due := planeDue c (pieces.map (·.1))
        match storeR c s pieces due with
        | .ok u fx => .ok (u.mapTile fun t => { t with busy := due }) fx
        | r => r

/-- LDBP (R253, R255). -/
def slotLdbp (d : GridOp) (a : SReg) (imm : Int) : Slot :=
  memSlot (fun _ => [.sreg a]) fun c s =>
    match planeOp c.pre (c.pre.addr a imm) none with
    | .error e => .trap e
    | .ok o =>
      let tag := if o.mask then 5 else o.h.fmt
      match c.pre.dstOk d tag with
      | .error e => .trap e
      | .ok () =>
        let words := (List.range o.n).flatMap fun t =>
          if o.mask then [o.h.maskAt (o.g0 + t) o.row] else o.h.rowWords (o.g0 + t) o.row
        let due := planeDue c words
        match loadR c s (words.map fun b => (b, b + 2)) due (fun u =>
            let rd := fun b => u.coreNum b 2
            let row := packRow tag fun e =>
              if o.mask then (if e < o.n then rd (o.h.maskAt (o.g0 + e) o.row) else 0)
              else if e < 12 * o.n then
                tagEncode tag (rndOf c.rnd) false (o.h.rebuild (o.h.planedAt rd (o.g0 + e / 12) o.row (e % 12)))
              else 0
            rowLoad c d fun i => (row[i.val]).toNat) with
        | .ok u fx => .ok (u.mapTile fun t => { (t.retag c.pre.rrb d tag) with busy := due }) fx
        | r => r

/-- A 16-byte image at a local address: its checks, then, once the data is there, what is done with it (R256, R261). -/
def withImage (c : Ctx) (s : State) (x : Nat) (k : State → Image → SlotR) : SlotR :=
  match accessCheck c .spSlice 16 x 16 with
  | some e => addrR e x
  | none =>
    match memPrep c.s0 s false [(x, x + 16)] with
    | .trap i => .trap i
    | .stall u => .stall u
    | .ok u =>
      let u := u.touch x (x + 16)
      waitData c (loadTime x) [(x, x + 16)] (k u (BitVec.ofNat 128 (u.coreNum x 16)))

/-- Whether a handle image passes the checks of R53. -/
def handleOk (img : Image) : Bool :=
  let h : Handle := { img := img }
  decide (h.spn ≤ 4) && h.maxPlanes != 0 && h.rows != 0 && h.kgrp != 0 && h.planes != 0
    && (h.spn == 0 || h.sparse != 0) && h.spans.all fun p => decide (p.2 ≤ 0x180000)

/-- A handle written by HSET: every field but GEN, which advances; invalid where VALID is 0 (R53), its other fields then reading
as 0: DESIGN CHOICE, the spec saying only that the handle is invalidated (log 28). -/
def Handle.redefine (h : Handle) (img : Image) : Handle :=
  let gen := BitVec.ofNat 128 ((h.gen + 1) % 2 ^ 16 * 2 ^ 111)
  let keep : Image := BitVec.ofNat 128 (2 ^ 127 + (2 ^ 111 - 2 ^ 36))
  { img := (if img.getLsbD 127 then img &&& keep else 0) ||| gen }

/-- HSET (R256, R53). -/
def slotHset (n : HReg) (a : SReg) : Slot :=
  memSlot (fun _ => [.sreg a]) fun c s =>
    withImage c s (c.pre.sreg a).toNat fun u img =>
      if img.getLsbD 127 && !handleOk img then trapR .handleInvalid
      else okR (u.mapTile fun t => { t with handles := t.handles.set n.val ((t.handles[n.val]).redefine img) })

/-- HGET (R256). -/
def slotHget (n : HReg) (a : SReg) : Slot :=
  memSlot (fun _ => [.sreg a]) fun c s =>
    let x := (c.pre.sreg a).toNat
    match accessCheck c .spSlice 16 x 16 with
    | some e => addrR e x
    | none => storeR c s [(x, leBytes (c.pre.handles[n.val]).img.toNat 16)] (c.pre.tc + storeDelay)

/-- Whether a memory-slot store of the tile has still to be performed (R257, R259). -/
def Tile.storing (t : Tile) : Bool := t.ops.any fun o => o.ctr == .st

/-- Advance a written handle's GEN and clear its bit (R85). -/
def Handle.fence (h : Handle) : Handle :=
  if h.written then
    let gen := BitVec.ofNat 128 ((h.gen + 1) % 2 ^ 16 * 2 ^ 111)
    { img := (h.img &&& ~~~(BitVec.ofNat 128 (0xFFFF * 2 ^ 111))) ||| gen }
  else h

/-- SPFENCE (R257). -/
def slotSpfence : Slot :=
  memSlot noSites fun c s =>
    if c.pre.storing then .stall c.s0
    else okR (s.mapTile fun t => { t with handles := t.handles.map Handle.fence })

/-- Whether a map image passes the checks of R68 and R261 for entry n. -/
def mapOk (t : Tile) (n : MapNo) (img : Image) : Bool :=
  let m : MapEntry := { img := img }
  fld img.toNat 0 54 == 0 && (!m.valid || (decide (m.hi ≤ 0x180000) && decide (m.nlines ≤ 8192)
    && (List.finRange 16).all fun k =>
      let o := t.maps[k.val]
      k == n || !o.valid || decide (m.hi ≤ o.lo) || decide (o.hi ≤ m.lo)))

/-- A map entry changes: a fill of it under way brings nothing any more (R261, R262). -/
def Tile.remap (t : Tile) (n : MapNo) (m : MapEntry) : Tile :=
  { t with
    maps := t.maps.set n.val m, fills := t.fills.filter fun f => f.entry != n
    chans := t.chans.map fun c => { c with lines := c.lines.filter fun p => p.1 != n } }

/-- Write back lines at the bundle: what a failure keeps is reckoned from the state before the bundle (R385). -/
def flushLines (c : Ctx) (s : State) (l : List (MapNo × Nat)) (k : State → SlotR) : SlotR :=
  match s.writeBacks l with
  | .error (_, i) =>
    match c.s0.writeBacks l with
    | .error (u, _) => .fail u i
    | .ok _ => .trap i
  | .ok u => k u

/-- Whether any line of a window is dirty. -/
def MapEntry.dirty (m : MapEntry) : Bool := m.lines.any fun x => x.mask != 0

/-- Write back a window, counted in st while it lasts, then something more (R248, R261, R262). -/
def flushWindow (c : Ctx) (s : State) (n : MapNo) (k : Tile → Tile) : SlotR :=
  if (c.pre.maps[n.val]).dirty then
    if ctrMax ≤ c.pre.cst then .stall c.s0
    else
      flushLines c s (c.pre.linesOf n) fun u =>
        okR (u.mapTile fun t => k (t.countUntil .st (t.tc + storeDelay)))
  else okR (s.mapTile k)

/-- Change a map entry. -/
def Tile.setMap (t : Tile) (n : MapNo) (m : MapEntry) : Tile := { t with maps := t.maps.set n.val m }

/-- MAPW (R261): the address that fails the check of an image is its window's first (R394, log 47). -/
def slotMapw (n : MapNo) (a : SReg) : Slot :=
  memSlotR (fun _ => [.sreg a]) fun c s =>
    let x := (c.pre.sreg a).toNat
    withImage c s x fun u img =>
      if !mapOk c.pre n img then addrR .mapEntry (MapEntry.lo { img := img })
      else flushWindow c u n fun t => t.remap n (if img.getLsbD 127 then { img := img } else {})

/-- A slot that acts on an installed map entry (R262). -/
def mapSlot (n : MapNo) (k : Ctx → State → MapEntry → SlotR) : Slot :=
  memSlotR noSites fun c s =>
    let m := c.pre.maps[n.val]
    if m.valid then k c s m else addrR .mapEntry m.lo

/-- MAPF (R262). -/
def slotMapf (n : MapNo) : Slot := mapSlot n fun c s _ => flushWindow c s n id

/-- A window whose lines are all untouched. -/
def Tile.untouch (t : Tile) (n : MapNo) : Tile := t.remap n { t.maps[n.val] with lines := [] }

/-- MAPI (R262). -/
def slotMapi (n : MapNo) : Slot := mapSlot n fun c s _ => flushWindow c s n fun t => t.untouch n

/-- MAPI.discard (R262). -/
def slotMapiDiscard (n : MapNo) : Slot := mapSlot n fun _ s _ => okR (s.mapTile fun t => t.untouch n)

/-- Store the oldest entry of a queue, its first n lanes (R264). -/
def queueStore (q : QReg) (a : SReg) (n : Nat) : Slot :=
  memSlot (fun _ => [.sreg a]) fun c s =>
    let x := (c.pre.sreg a).toNat
    match s.tile.popQ q with
    | .under => trapR .queueUnderflow
    | .later => .stall c.s0
    | .failed => trapR .remoteBeat
    | .got e t =>
      match accessCheck c .spSlice 4 x (4 * n) with
      | some i => addrR i x
      | none => storeR c { s with tile := t } [(x, rowBytes e.cells n)] (c.pre.tc + storeDelay)

/-- QST (R264). -/
def slotQst (q : QReg) (a : SReg) : Slot := queueStore q a 64

/-- QST.half (R264). -/
def slotQstHalf (q : QReg) (a : SReg) : Slot := queueStore q a 32

def execLds (sz : Size) (d a : SReg) (imm : Int) (s : State) : Host.Outcome State Fault Refusal :=
  .next (issue1 s (slotLds sz d a imm))
def execSts (sz : Size) (d a : SReg) (imm : Int) (s : State) : Host.Outcome State Fault Refusal :=
  .next (issue1 s (slotSts sz d a imm))
def execLdv (d : GridOp) (a : SReg) (imm : Int) (s : State) : Host.Outcome State Fault Refusal :=
  .next (issue1 s (slotLdv d a imm))
def execStv (d : GridOp) (a : SReg) (imm : Int) (s : State) : Host.Outcome State Fault Refusal :=
  .next (issue1 s (slotStv d a imm))
def execLdtt (d : Fin 64) (a : SReg) (imm : Int) (s : State) : Host.Outcome State Fault Refusal :=
  .next (issue1 s (slotLdtt d a imm))
def execStbp (d : GridOp) (a : SReg) (imm : Int) (s : State) : Host.Outcome State Fault Refusal :=
  .next (issue1 s (slotStbp d a imm))
def execLdbp (d : GridOp) (a : SReg) (imm : Int) (s : State) : Host.Outcome State Fault Refusal :=
  .next (issue1 s (slotLdbp d a imm))
def execHset (n : HReg) (a : SReg) (s : State) : Host.Outcome State Fault Refusal := .next (issue1 s (slotHset n a))
def execHget (n : HReg) (a : SReg) (s : State) : Host.Outcome State Fault Refusal := .next (issue1 s (slotHget n a))
def execSpfence (s : State) : Host.Outcome State Fault Refusal := .next (issue1 s (slotSpfence))
def execMapw (n : MapNo) (a : SReg) (s : State) : Host.Outcome State Fault Refusal := .next (issue1 s (slotMapw n a))
def execMapf (n : MapNo) (s : State) : Host.Outcome State Fault Refusal := .next (issue1 s (slotMapf n))
def execMapi (n : MapNo) (s : State) : Host.Outcome State Fault Refusal := .next (issue1 s (slotMapi n))
def execMapiDiscard (n : MapNo) (s : State) : Host.Outcome State Fault Refusal := .next (issue1 s (slotMapiDiscard n))
def execQst (q : QReg) (a : SReg) (s : State) : Host.Outcome State Fault Refusal := .next (issue1 s (slotQst q a))
def execQstHalf (q : QReg) (a : SReg) (s : State) : Host.Outcome State Fault Refusal :=
  .next (issue1 s (slotQstHalf q a))

end Sys2Proof.Machine
end

