-- ==== Sys2Proof/Machine/Buffers.lean ====
section
/-! DEFINITION. Declared buffer rings: acquire, publish, take and free for every agent (R59-R62, R147, R152, R156), and the
buffer instructions of the memory slot (R258-R260). -/

namespace Sys2Proof.Machine

/-- A declared ring by its number (R62). -/
def Tile.ringNo (t : Tile) (n : Nat) : Option (Fin 8) :=
  if h : n < 8 then (if (t.rings[n]).valid then some ⟨n, h⟩ else none) else none

/-- A named slot of a ring (R62). -/
def Ring.slotNo (r : Ring) (k : Nat) : Option (Fin 16) :=
  if h : k < 16 then (if k < r.nslots then some ⟨k, h⟩ else none) else none

def Tile.setRing (t : Tile) (n : Fin 8) (r : Ring) : Tile := { t with rings := t.rings.set n.val r }

/-- What an acquire or a take meets: a slot that is not ready (R60), a stall until the tile core's speculation resolves
(R152), a slot. -/
inductive RingR where
  | notReady
  | unresolved
  | got (k : Fin 16) (t : Tile)

/-- Whether another agent's operation on a ring waits for the tile core's speculation: touched holds the slots that the
core has acquired, or taken, since its speculation point (R152). -/
def Tile.specHolds (t : Tile) (who : Owner) (n : Fin 8) (touched : Spec → List (Fin 8 × Fin 16)) : Bool :=
  who != .core && t.spec.any fun p => (touched p).any fun x => x.1 == n

/-- Note a slot in the speculation of the tile core. -/
def Tile.noteSpec (t : Tile) (who : Owner) (f : Spec → Spec) : Tile :=
  if who == .core then { t with spec := t.spec.map f } else t

/-- Acquire the slot at PIDX (R60). -/
def Tile.acquire (t : Tile) (who : Owner) (n : Fin 8) : RingR :=
  let r := t.rings[n.val]
  let k := r.pidx
  if t.specHolds who n (·.acquired) then .unresolved
  else if r.st[k.val] == .empty then
    .got k ((t.setRing n { (r.setSlot k .filling who) with pidx := r.next k }).noteSpec who fun p =>
      { p with acquired := p.acquired ++ [(n, k)] })
  else .notReady

/-- The slots a speculating task has taken, its predicted one among them (R152). -/
def Spec.tookOn (p : Spec) : List (Fin 8 × Fin 16) :=
  match p.ring with
  | some n => (n, p.slot) :: p.taken
  | none => p.taken

/-- The index after a slot that is taken: a slot that a PRED of the bundle has predicted and CIDX has still to pass is passed too (R148,
R178). -/
def Tile.afterTake (t : Tile) (n : Fin 8) (k : Fin 16) : Fin 16 :=
  let r := t.rings[n.val]
  if t.ahead == some (n, r.next k) then r.next (r.next k) else r.next k

/-- Take the slot at CIDX (R60); a full-speculative slot cannot be taken (R152). -/
def Tile.take (t : Tile) (who : Owner) (n : Fin 8) : RingR :=
  let r := t.rings[n.val]
  let k := r.cidx
  if t.specHolds who n Spec.tookOn then .unresolved
  else if r.st[k.val] == .full && !t.specFull n k then
    let u := { t with ahead := if t.ahead == some (n, r.next k) then none else t.ahead }
    .got k ((u.setRing n { (r.setSlot k .draining who) with cidx := t.afterTake n k }).noteSpec who fun p =>
      { p with taken := p.taken ++ [(n, k)] })
  else .notReady

/-- The lines of a slot. -/
def Ring.lines (r : Ring) : Nat := r.slotsz.val + 1

/-- When the predictor engine is free of the copies before it. -/
def Tile.predictorFree (t : Tile) : Nat :=
  let shadow := (t.spec.map fun p => if p.shadowDone then 0 else p.shadowDue).getD 0
  t.rings.toList.foldl (fun m r => r.hist.foldl (fun m h => max m h.2) m) (max t.tc shadow)

/-- Start the history copy of a published slot of a predictable ring (R147). -/
def Tile.startHistory (t : Tile) (n : Fin 8) (k : Fin 16) : Tile :=
  let r := t.rings[n.val]
  if r.pred then t.setRing n { r with hist := r.hist ++ [(k, t.predictorFree + engineTime (4 * r.lines))] } else t

/-- The slot is the predicted one, not yet published (R156). -/
def Tile.awaited (t : Tile) (n : Fin 8) (k : Fin 16) : Bool :=
  t.spec.any fun p => p.ring == some n && p.slot == k && !p.published

/-- When the tolerance compare that starts now ends (R147). -/
def Tile.compareDue (t : Tile) (n : Fin 8) : Nat := t.tc + engineTime (2 * (t.rings[n.val]).lines)

/-- Publish a slot that its owner fills: full, or, for the predicted slot, draining and owned by the task, the compare
starting once the shadow slot is complete (R60, R147, R156). -/
def Tile.publish (t : Tile) (n : Fin 8) (k : Fin 16) : Tile :=
  let r := t.rings[n.val]
  if t.awaited n k then
    let due := t.compareDue n
    let t := (t.setRing n (r.setSlot k .draining .core)).startHistory n k
    { t with spec := t.spec.map fun p => { p with published := true, cmpDue := if p.shadowDone then due else 0 } }
  else (t.setRing n (r.setSlot k .full .nobody)).startHistory n k

/-- Publish a slot full-speculatively: its history copy waits for the commit (R151, R152). -/
def Tile.publishSpec (t : Tile) (n : Fin 8) (k : Fin 16) : Tile :=
  let r := t.rings[n.val]
  (t.setRing n (r.setSlot k .full .nobody)).noteSpec .core fun p => { p with pubbed := p.pubbed ++ [(n, k)] }

/-- Free a slot; freeing the predicted slot ends the reads from the shadow slot (R60, R150). -/
def Tile.freeSlot (t : Tile) (n : Fin 8) (k : Fin 16) : Tile :=
  let r := t.rings[n.val]
  let t := t.setRing n (r.setSlot k .empty .nobody)
  { t with pslots := t.pslots.filter fun x => x != (n, k) }

/-- Whether a speculating task holds an operation on a slot already. -/
def Spec.holdsSlot (p : Spec) (n : Fin 8) (k : Fin 16) : Bool :=
  p.held.any fun h =>
    match h.op with
    | .bufFree m j => m == n && j == k
    | .bufPub m j => m == n && j == k
    | _ => false

/-- Whether the tile core holds an operation on a slot. -/
def Tile.slotHeld (t : Tile) (who : Owner) (n : Fin 8) (k : Fin 16) : Bool :=
  who == .core && t.spec.any fun p => p.holdsSlot n k

/-- Whether an agent may publish a slot: filling, and its own (R60). -/
def Tile.mayPublish (t : Tile) (who : Owner) (n : Fin 8) (k : Fin 16) : Bool :=
  let r := t.rings[n.val]
  r.st[k.val] == .filling && r.own[k.val] == who && !t.slotHeld who n k

/-- Whether an agent may free a slot: draining and its own (R60); the task's predicted slot, which is its own once
published (R150, R156). -/
def Tile.mayFree (t : Tile) (who : Owner) (n : Fin 8) (k : Fin 16) : Bool :=
  let r := t.rings[n.val]
  ((r.st[k.val] == .draining && r.own[k.val] == who) || (who == .core && t.awaited n k))
    && !t.slotHeld who n k

/-- Whether the history copy of a slot has still to complete (R147). -/
def Tile.copying (t : Tile) (n : Fin 8) (k : Fin 16) : Bool := (t.rings[n.val]).hist.any fun h => h.1 == k

/-- What BUFQ reads (R260). -/
def Tile.bufq (t : Tile) (n : Fin 8) : Word :=
  let r := t.rings[n.val]
  BitVec.ofNat 64 (r.vcnt * 2 ^ 42 + r.pred.toNat * 2 ^ 41
    + (t.spec.any fun p => p.pubbed.any fun x => x.1 == n).toNat * 2 ^ 40
    + r.cidx.val * 2 ^ 36 + r.pidx.val * 2 ^ 32 + r.stateWord)

/-- A buffer instruction of the memory slot on a declared ring (R62). -/
def ringSlot (n : RingNo) (reads : Tile → List Site) (k : Ctx → State → Fin 8 → SlotR) : Slot :=
  memSlot reads fun c s =>
    match c.pre.ringNo n.val with
    | none => trapR .bufferIndex
    | some r => k c s r

/-- Write the slot index and its byte address (R258). DESIGN CHOICE (log 54): where D and E are one register, it holds the address. -/
def Tile.giveSlot (t : Tile) (n : Fin 8) (k : Fin 16) (d e : SReg) : Tile :=
  (t.write (.sreg d) (BitVec.ofNat 64 k.val)).write (.sreg e) (BitVec.ofNat 64 ((t.rings[n.val]).slotAddr k.val))

/-- BUFACQ (R258). -/
def slotBufacq (n : RingNo) (d e : SReg) : Slot :=
  ringSlot n noSites fun c s r =>
    match s.tile.acquire .core r with
    | .got k t => okR { s with tile := t.giveSlot r k d e }
    | .notReady => .wait c.s0 (.ring n true)
    | .unresolved => .stall c.s0

/-- BUFTAKE (R258). -/
def slotBuftake (n : RingNo) (d e : SReg) : Slot :=
  ringSlot n noSites fun c s r =>
    match s.tile.take .core r with
    | .got k t => okR { s with tile := t.giveSlot r k d e }
    | .notReady => .wait c.s0 (.ring n false)
    | .unresolved => .stall c.s0

/-- The slot index of BUFPUB and BUFFREE (R259). -/
def slotIndex (c : Ctx) (a : SReg) (k : Fin 16) : Nat := if a = 0 then k.val else (c.pre.sreg a).toNat

/-- BUFPUB (R259, R60, R151). -/
def slotBufpub (n : RingNo) (a : SReg) (k : Fin 16) : Slot :=
  ringSlot n (fun _ => [.sreg a]) fun c s r =>
    match (c.pre.rings[r.val]).slotNo (slotIndex c a k) with
    | none => trapR .bufferIndex
    | some j =>
      if !s.tile.mayPublish .core r j then trapR .bufferState
      else if c.pre.storing then .stall c.s0
      else
        match s.tile.spec with
        | none => okR (s.tileRelease.mapTile fun t => t.publish r j)
        | some p =>
          if p.acquired.contains (r, j) then okR (s.tileRelease.mapTile fun t => t.publishSpec r j)
          else if p.fits (.bufPub r j) then okR (s.mapTile fun t => t.hold c.pc (.bufPub r j))
          else .resolve

/-- BUFFREE (R259, R60, R147, R151). -/
def slotBuffree (n : RingNo) (a : SReg) (k : Fin 16) : Slot :=
  ringSlot n (fun _ => [.sreg a]) fun c s r =>
    match (c.pre.rings[r.val]).slotNo (slotIndex c a k) with
    | none => trapR .bufferIndex
    | some j =>
      if !s.tile.mayFree .core r j then trapR .bufferState
      else
        match s.tile.spec with
        | none => if s.tile.copying r j then .stall c.s0 else okR (s.tileRelease.mapTile fun t => t.freeSlot r j)
        | some p =>
          if p.fits (.bufFree r j) then okR (s.mapTile fun t => t.hold c.pc (.bufFree r j)) else .resolve

/-- BUFQ (R260). -/
def slotBufq (n : RingNo) (d : SReg) : Slot :=
  ringSlot n noSites fun c s r => okR (s.mapTile fun t => t.write (.sreg d) (c.pre.bufq r))

def execBufacq (n : RingNo) (d e : SReg) (s : State) : Host.Outcome State Fault Refusal :=
  .next (issue1 s (slotBufacq n d e))
def execBuftake (n : RingNo) (d e : SReg) (s : State) : Host.Outcome State Fault Refusal :=
  .next (issue1 s (slotBuftake n d e))
def execBufpub (n : RingNo) (a : SReg) (k : Fin 16) (s : State) : Host.Outcome State Fault Refusal :=
  .next (issue1 s (slotBufpub n a k))
def execBuffree (n : RingNo) (a : SReg) (k : Fin 16) (s : State) : Host.Outcome State Fault Refusal :=
  .next (issue1 s (slotBuffree n a k))
def execBufq (n : RingNo) (d : SReg) (s : State) : Host.Outcome State Fault Refusal := .next (issue1 s (slotBufq n d))

end Sys2Proof.Machine
end

