-- ==== Sys2Proof/Machine/Copy.lean ====
section
/-! DEFINITION. Copy jobs and the footprints of every engine job: the checks of a job (R295), probes (R303, R377), edges
(R139, R140), firing (R62, R296), the copy itself and its end (R141, R296, R297), engine errors (R288). The tile core, the
loader and the storer share them (R273). -/

namespace Sys2Proof.Machine

/-- The code of an agent in CHOWN and in TRAPST (R272, R393). -/
def agentCode (a : Agent) : Nat :=
  match a with
  | .core => 0
  | .loader => 1
  | .storer => 2

/-- Whether an agent owns a channel (R272). -/
def Tile.owns (t : Tile) (a : Agent) (c : ChNo) : Bool := fld t.chown.toNat (2 * c.val) 2 == agentCode a

/-- What a fill meets on its way: a home that cannot be reached (R135, R422), an uncorrectable error (R263). -/
def State.fillCut (s : State) (f : Fill) : Option TrapInfo :=
  match s.cutOff f.part f.spa with
  | some c => some { cause := c, slot := 4 }
  | none => (s.badAt f.spa 256).map fun k => { cause := .machineCheck, slot := 4, val := line64 k }

/-- An access that would begin a fill that cannot be made is refused. -/
def Prep.sound (r : Prep) (s : State) : Prep :=
  match r with
  | .stall u =>
    match (u.tile.fills.drop s.tile.fills.length).findSome? s.fillCut with
    | some i => .trap i
    | none => .stall u
  | .ok _ | .trap _ => r

/-- The checks of a put's or a collective's access to the scratchpad of its task when it comes after its issue: the states of the
slots, as for the task itself (R61), and the windows (R69, R70). -/
def State.latePrep (s : State) (write : Bool) (l : List (Nat × Nat)) : Prep :=
  if l.any fun p => regionOf p.1 == .sp && s.tile.slotsVerdict .core write p.1 p.2 == .bad then
    .trap { cause := .bufferState, slot := 4 }
  else (winPrep .nobody s s write l).sound s

/-- Record an engine error (R288). kind and id are its KIND and ID, val the address concerned, where there is one (R394). -/
def Tile.engErr (t : Tile) (c : Cause) (kind id : Nat) (val : Word := 0) : Tile :=
  if t.engerr.getLsbD 63 then { t with engerr := t.engerr ||| BitVec.ofNat 64 (2 ^ 62) }
  else { t with engerr := BitVec.ofNat 64 (2 ^ 63 + c.code * 2 ^ 56 + kind * 2 ^ 52 + id * 2 ^ 36), engVal := val }

/-- The owner of ring slots that an agent is (R60). -/
def agentOwner (a : Agent) : Owner :=
  match a with
  | .core => .core
  | .loader => .loader
  | .storer => .storer

/-- The footprint of a side (R294, R295). -/
def Side.foot (x : Side) (derived : Int × Int) : Int × Int := x.box.getD derived

/-- Step 4 of R295 for a side. -/
def Side.breaks (t : Tile) (x : Side) (derived : Int × Int) : Bool :=
  (x.box.any fun b => decide (derived.1 < b.1) || decide (b.2 < derived.2))
    || (x.ring.any fun n =>
      let b := x.foot derived
      decide (b.1 < 0) || decide (((t.rings[n.val]).slotBytes : Int) < b.2))

/-- Step 5 of R295 for a local side that is not a ring side: a cause and the address. -/
def Side.localTrap (t : Tile) (x : Side) (e : Nat) (derived : Int × Int) : Option TrapInfo :=
  if x.ring.isSome || x.space != 0 then none
  else
    let b := x.foot derived
    let lo := (b.1 % 2 ^ 64).toNat
    let n := (b.2 - b.1).toNat
    if x.base % min e 8 != 0 then some { cause := .align, val := BitVec.ofNat 64 x.base }
    else
      match localCheck t.priv 1 lo n with
      | some c => some (addrTrap c lo)
      | none =>
        if regionOf lo == .ctl || !(t.winLines lo (lo + n)).isEmpty then
          some { cause := .addressRange, val := BitVec.ofNat 64 lo }
        else none

/-- Probe the pages of [va, hi) one after another (R295 step 6, R303). -/
def probePages (acc : Access) (hi : Nat) : Nat → Nat → State → List Page → Except TrapInfo (State × List Page)
  | 0, _, s, ps => .ok (s, ps)
  | n + 1, va, s, ps =>
    if hi ≤ va then .ok (s, ps)
    else
      match s.translate va acc with
      | .error e => .error e
      | .ok (x, s') =>
        let stop := min hi ((va / 2 ^ x.leaf.pageBits + 1) * 2 ^ x.leaf.pageBits)
        match unleased s.leases stop s.leases.length va with
        | some a => .error (addrTrap .leaseViolation a)
        | none => probePages acc hi n stop s' (ps ++ [⟨va, stop - va, x.spa, x.leaf⟩])

/-- Probe a global box (R295 step 6): ADDRESS_RANGE first. -/
def probeBox (s : State) (acc : Access) (lo hi : Int) : Except TrapInfo (State × List Page) :=
  if lo < 0 || decide ((2 : Int) ^ 54 < hi) then .error { cause := .addressRange, val := BitVec.ofInt 64 lo }
  else probePages acc hi.toNat ((hi - lo).toNat / 2 ^ 14 + 2) lo.toNat s []

/-- The home of a virtual address among probed pages. -/
def pageSpa (ps : List Page) (va : Nat) : Nat :=
  match ps.find? fun p => decide (p.va ≤ va) && decide (va < p.va + p.len) with
  | some p => p.spa + (va - p.va)
  | none => 0

/-- The storage classes that a job's pages lie in, as a mask of R115. -/
def pageMask (s : State) (ps : List Page) : Nat := ps.foldl (fun m p => m ||| 2 ^ (spaClass s p.spa).bit) 0

/-- Probe a global side. -/
def Side.probe (s : State) (x : Side) (acc : Access) (b : Int × Int) : Except TrapInfo (State × List Page) :=
  if x.space = 1 && x.ring.isNone then probeBox s acc b.1 b.2 else .ok (s, [])

/-- Whether a window lies over a part of a ring (R68): a boundary on any class then waits for copies into the ring (R115). -/
def Tile.windowed (t : Tile) (n : Fin 8) : Bool :=
  let r := t.rings[n.val]
  !(t.winLines (r.slotAddr 0) (r.slotAddr r.nslots)).isEmpty

/-- The checks of a copy job in their order (R295): a trap, or the job with its pages. -/
def copyChecks (s : State) (a : Agent) (c : ChNo) (words : Vector Word 16) : Except TrapInfo (State × CopyJob) :=
  let t := s.tile
  let j : CopyJob := { words := words }
  let x := j.src
  let y := j.dst
  let dx := j.derived x.base (·.sstr)
  let dy := j.derived y.base (·.dstr)
  let undeclared := fun (z : Side) => z.ring.any fun n => !(t.rings[n.val]).valid
  if !t.owns a c then .error { cause := .engineState }
  else if (t.chans[c.val]).err then .error { cause := .copyDataError }
  else if decide (8 < j.esz) || j.levels == 0 || j.levels == 7 || decide (1 < x.space) || decide (1 < y.space)
      || (x.ring.isSome && x.space != 0) || (y.ring.isSome && y.space != 0) then .error { cause := .copyNest }
  else if undeclared x || undeclared y then .error { cause := .bufferIndex }
  else if x.breaks t dx || y.breaks t dy then .error { cause := .footprintViolation }
  else
    match (x.localTrap t j.elem dx).or (y.localTrap t j.elem dy) with
    | some e => .error e
    | none =>
      match x.probe s .read (x.foot dx) with
      | .error e => .error e
      | .ok (s, ps) =>
        match y.probe s .write (y.foot dy) with
        | .error e => .error e
        | .ok (s, qs) =>
          let b := y.foot dy
          let mask :=
            if y.space = 1 then pageMask s qs
            else if y.ring.any t.windowed then 31
            else if regionOf b.1.toNat == .slice && y.ring.isNone then 2
            else 1
          .ok (s, { j with pages := ps ++ qs, wmask := mask })

/-- The footprint of a copy job's sides that are not ring sides (R139, R295). -/
def CopyJob.feet (j : CopyJob) : List Foot :=
  let side := fun (x : Side) (d : Int × Int) (wr : Bool) =>
    if x.ring.isSome then []
    else
      let b := x.foot d
      [({ id := j.id, lo := b.1.toNat, hi := b.2.toNat, glob := x.space == 1, wr := wr, loadsPass := false } : Foot)]
  side j.src (j.derived j.src.base (·.sstr)) false ++ side j.dst (j.derived j.dst.base (·.dstr)) true

/-- Write back the dirty window lines under a job's global reads (R140), of Valoc's own accord: one that fails stays dirty for the
next write-back (R385). -/
def State.flushFeet (s : State) (fs : List Foot) : State :=
  let under := fun (p : MapNo × Nat) =>
    let va := s.tile.lineVa p
    fs.any fun f => f.glob && !f.wr && decide (f.lo < va + 256) && decide (va < f.hi)
  (((List.finRange 16).flatMap fun n => s.tile.linesOf n).filter under).foldl (fun s p => s.ownWriteBack p.1 p.2) s

/-- Pieces of pages that lie in different pages: the first of each page (R386). -/
def distinctPages : List Page → List Page
  | [] => []
  | p :: l =>
    p :: (distinctPages l).filter fun q => q.leaf.size != p.leaf.size || q.va / 2 ^ q.leaf.pageBits != p.va / 2 ^ p.leaf.pageBits

/-- Count each distinct page that a job's probe checked (R386). -/
def State.countPages (s : State) (ps : List Page) : State :=
  (distinctPages ps).foldl (fun s p => s.countAccess p.va ⟨p.spa, p.leaf⟩) s

/-- Join a channel's queue (R295): the job counts in cp, its pages for migration (R386), its edges hold from here (R140). -/
def State.enqueueCopy (s : State) (c : ChNo) (j : CopyJob) : State :=
  let t := s.tile
  let j := { j with id := t.jobCtr }
  let s := (s.flushFeet j.feet).countPages j.pages
  s.mapTile fun t =>
    let x := t.chans[c.val]
    { (t.count .cp) with
      jobCtr := t.jobCtr + 1
      chans := t.chans.set c.val { x with jobs := x.jobs ++ [j] }
      feet := t.feet ++ j.feet }

/-- The jobs of a channel's queue (R289). -/
def chanSize : Nat := 8

/-- The footprint of a ring side once its slot is known (R296). -/
def Side.placed (t : Tile) (id : Nat) (x : Side) (d : Int × Int) (wr : Bool) : List Foot :=
  match x.ring with
  | none => []
  | some n =>
    let r := t.rings[n.val]
    let b := x.foot d
    let at' := r.slotAddr (if wr then r.pidx.val else r.cidx.val)
    [{ id := id, lo := at' + b.1.toNat, hi := at' + b.2.toNat, glob := false, wr := wr, loadsPass := false }]

/-- The scratchpad bytes that a side of a job reaches, element by element; from is the byte that an element is read or written at. -/
def CopyJob.touches (j : CopyJob) (t : Tile) (x : Side) (side : Int × Int → Int) : List (Nat × Nat) :=
  if x.space != 0 then []
  else ((j.elems t).map fun p => ((side p).toNat, (side p).toNat + j.elem)).filter fun p => regionOf p.1 == .sp

/-- The box of some ranges: whether anything of a kind lies in it can be asked before the ranges themselves. -/
def boxOf (l : List (Nat × Nat)) : Nat × Nat :=
  match l with
  | [] => (0, 0)
  | p :: l => l.foldl (fun b q => (min b.1 q.1, max b.2 q.2)) p

/-- The verdict of R61 on the bytes of the sides of a job that are not ring sides, for the channel that reads and writes them (R152,
log 28). -/
def CopyJob.slots (j : CopyJob) (t : Tile) (c : ChNo) : Verdict :=
  let look := fun (x : Side) (side : Int × Int → Int) (wr : Bool) =>
    let l := if x.ring.isSome then [] else j.touches t x side
    if (t.slotsIn (boxOf l).1 (boxOf l).2).isEmpty then [] else l.map fun p => t.slotsVerdict (.chan c) wr p.1 p.2
  let vs := look j.src (·.1) false ++ look j.dst (·.2) true
  if vs.contains .bad then .bad else if vs.contains .later then .later else .ok

/-- Drop the footprints of a job. -/
def Tile.dropFeet (t : Tile) (id : Nat) : Tile := { t with feet := t.feet.filter fun f => f.id != id }

/-- The oldest job of a channel leaves it without a byte moved, an access of it being refused (R61, R69, R70): the cause is
recorded as an engine error of KIND 0, the slots that it holds stay as R297 leaves them (log 28). -/
def State.refuseCopy (s : State) (c : ChNo) (j : CopyJob) (i : TrapInfo) : State :=
  s.mapTile fun t =>
    let x := t.chans[c.val]
    ((({ t with chans := t.chans.set c.val { x with jobs := x.jobs.tail } }).dropFeet j.id).uncount .cp).engErr i.cause 0 c.val i.val

/-- Fire the oldest job of a channel where R62, R152 and the edges of R140 allow it (R296). One whose plain sides the slots do not
allow is refused when it would fire, its rings staying as they are (R61, log 28). -/
def State.fireCopy (s : State) (c : ChNo) : Option State :=
  let t := s.tile
  let x := t.chans[c.val]
  match x.jobs with
  | [] => none
  | j :: rest =>
    if j.fired || x.err then none
    else
      let px := j.src.placed t j.id (j.derived j.src.base (·.sstr)) false
      let py := j.dst.placed t j.id (j.derived j.dst.base (·.dstr)) true
      let slots := j.slots t c
      if t.heldUp j.id (j.feet ++ px ++ py) || slots == .later then none
      else
        let taken : Option (Tile × Option (Fin 16)) :=
          match j.src.ring with
          | none => some (t, none)
          | some n =>
            match t.take (.chan c) n with
            | .got k u => some (u, some k)
            | .notReady => none
            | .unresolved => none
        match taken with
        | none => none
        | some (t1, ki) =>
          let got : Option (Tile × Option (Fin 16)) :=
            match j.dst.ring with
            | none => some (t1, none)
            | some n =>
              match t1.acquire (.chan c) n with
              | .got k u => some (u, some k)
              | .notReady => none
              | .unresolved => none
          match got with
          | none => none
          | some (t2, ko) =>
            if slots == .bad then some (s.refuseCopy c j (trapOf .bufferState))
            else
            let j := { j with fired := true, inSlot := ki, outSlot := ko }
            let j := { j with due := t.tc + j.time t2 }
            some { s with tile := { t2 with
              chans := t2.chans.set c.val { x with jobs := j :: rest }
              feet := t2.feet ++ px ++ py } }

/-- A byte as a job of the tile reads it: the tile's own slice stores before the bank (R140). A job reads past the stable view
and first-touches no line: DESIGN CHOICE, the spec saying nothing of an engine's view (R119, log 44). -/
def State.jobByte (s : State) (a : Nat) : Byte :=
  if regionOf a == .slice then
    let off := a - 0x400000
    ((ovGet s.tile.unpub off).or (ovGet s.tile.tpub off)).getD (s.mem.get (sliceKey s.tile.cl off))
  else s.spByte a

def State.jobBytes (s : State) (a : Nat) : Nat → List Byte
  | 0 => []
  | n + 1 => s.jobByte a :: State.jobBytes s (a + 1) n

/-- The first byte of [a, a + n) at which a job's read meets an uncorrectable error (R263, R297). -/
def State.jobBad (s : State) (a n : Nat) : Option Nat :=
  if s.bad.isEmpty then none
  else
    ((List.range n).map (a + ·)).find? fun a =>
      if regionOf a == .slice then
        let off := a - 0x400000
        ((ovGet s.tile.unpub off).or (ovGet s.tile.tpub off)).isNone && s.bad.contains (sliceKey s.tile.cl off)
      else s.bad.contains (spKey s.tile.cl s.tile.tn (spPhys s.tile.spswz a))

/-- A byte of the source of a put or a collective, which is a read of the task: a predicted slot is read from its shadow slot
(R150). -/
def State.sourceByte (s : State) (a : Nat) : Byte :=
  if regionOf a == .slice then s.jobByte a else s.spByte (s.tile.shadowed a)

def State.sourceBytes (s : State) (a : Nat) : Nat → List Byte
  | 0 => []
  | n + 1 => s.sourceByte a :: State.sourceBytes s (a + 1) n

/-- The bytes of such a source that lie in predicted slots, as the shadow slots hold them now (R150). -/
def State.shadowCells (s : State) (a n : Nat) : List Host.Cell :=
  if s.tile.pslots.isEmpty then []
  else (((List.range n).map (a + ·)).filter fun x => s.tile.shadowed x != x).map fun x => (x, s.sourceByte x)

/-- The parts of a source that an engine reads itself, the others having been taken from the shadow slots. -/
def ownReads (a n : Nat) (shadow : List Host.Cell) : List (Nat × Nat) :=
  if shadow.isEmpty then [(a, a + n)]
  else (((List.range n).map (a + ·)).filter fun x => (ovGet shadow x).isNone).map fun x => (x, x + 1)

/-- The bytes of a source that an engine reads after its issue (R140, R150). -/
def State.lateBytes (s : State) (a n : Nat) (shadow : List Host.Cell) : List Byte :=
  if shadow.isEmpty then s.jobBytes a n
  else ((List.range n).map (a + ·)).map fun x => (ovGet shadow x).getD (s.jobByte x)

/-- The checks of such a read: slots and windows (R61, R69), then uncorrectable errors (R263, log 48). -/
def State.sourcePrep (s : State) (a n : Nat) (shadow : List Host.Cell) : Prep :=
  let l := ownReads a n shadow
  match s.latePrep false l with
  | .ok u =>
    match l.findSome? fun p => s.jobBad p.1 (p.2 - p.1) with
    | some x => .trap (spError 6 x)
    | none => .ok u
  | r => r

/-- The first byte of such a source with an uncorrectable error (R263). -/
def State.sourceBad (s : State) (a n : Nat) : Option Nat :=
  if s.bad.isEmpty then none
  else ((List.range n).map (a + ·)).find? fun a => (s.jobBad (if regionOf a == .slice then a else s.tile.shadowed a) 1).isSome

/-- Drop the bytes of [off, off + n) from an overlay. -/
def ovDrop (o : List Host.Cell) (off n : Nat) : List Host.Cell :=
  o.filter fun p => !(decide (off ≤ p.1) && decide (p.1 < off + n))

/-- A store by an agent of the tile other than the memory slot, or by an engine: scratchpad bytes go to their banks, those of a
window also becoming dirty (R69), slice bytes stay unpublished, for the tile alone (R127, R141). -/
def State.agentStore (s : State) (a : Nat) (bs : List Byte) : State :=
  if regionOf a == .slice then
    let off := a - 0x400000
    s.mapTile fun t => { (t.layOver (cellsAt off bs)) with unpub := ovDrop t.unpub off bs.length }
  else s.spStore a bs

/-- A copy writes bytes that are the tile's stores until they are published: slice bytes, and bytes of a window (R141). -/
def Tile.noteCopied (t : Tile) (c : ChNo) (d : Nat) (bs : List Byte) : Tile :=
  if regionOf d == .slice then { t with copied := t.copied ++ (cellsAt (d - 0x400000) bs).map fun p => (some c, p) }
  else
    let ls := t.winLines d (d + bs.length)
    if ls.isEmpty then t
    else
      let x := t.chans[c.val]
      { t with chans := t.chans.set c.val { x with lines := (x.lines ++ ls).eraseDups } }

/-- Bytes stored at a home: a store to a device that has become unreachable is discarded, and a boundary reports it (R135). -/
def State.storeAt (s : State) (k : Nat) (bs : List Byte) : State :=
  if s.peerUp k then { s with mem := s.mem.put k bs } else s.mapTile fun t => { t with peerLost := true }

/-- One element of a copy: read, then write (R296). -/
def CopyJob.element (j : CopyJob) (c : ChNo) (a d : Nat) (s : State) : State :=
  let n := j.elem
  let bs := if j.src.space = 1 then s.mem.bytes (pageSpa j.pages a) n else s.jobBytes a n
  if j.dst.space = 1 then
    s.storeAt (pageSpa j.pages d) bs
  else
    (s.agentStore d bs).mapTile fun t => t.noteCopied c d bs

/-- The first n elements of a copy performed (R296, R297). -/
def CopyJob.copy (j : CopyJob) (c : ChNo) (n : Nat) (s : State) : State :=
  ((j.elems s.tile).take n).foldl (fun s p => j.element c p.1.toNat p.2.toNat s) s

/-- The oldest job of a channel completes (R296): the output slot full, the input slot empty, one less in cp. -/
def State.finishCopy (s : State) (c : ChNo) (j : CopyJob) : State :=
  let s := j.copy c j.count s
  s.mapTile fun t =>
    let x := t.chans[c.val]
    let t := { t with chans := t.chans.set c.val { x with jobs := x.jobs.tail } }
    let t := (t.dropFeet j.id).uncount .cp
    let t := match j.dst.ring, j.outSlot with
      | some n, some k => t.publish n k
      | _, _ => t
    match j.src.ring, j.inSlot with
    | some n, some k => t.freeSlot n k
    | _, _ => t

/-- Whether a job that is done still holds its input slot for a history copy of it (R147). -/
def CopyJob.kept (j : CopyJob) (t : Tile) : Bool :=
  match j.src.ring, j.inSlot with
  | some n, some k => t.copying n k
  | _, _ => false

/-- The window checks of what a job reads and writes, a ring side lying under a window (R68, R69): reads, then writes. -/
def CopyJob.windows (j : CopyJob) (s : State) (c : ChNo) : Prep :=
  let t := s.tile
  let under := fun (l : List (Nat × Nat)) => if (t.winLines (boxOf l).1 (boxOf l).2).isEmpty then [] else l
  match winPrep (.chan c) s s false (under (j.touches t j.src (·.1))) with
  | .ok s => winPrep (.chan c) s s true (under (j.touches t j.dst (·.2)))
  | .trap i => .trap i
  | .stall s => .stall s

/-- A copy meets an uncorrectable error at an element (R297): earlier elements stand, the queue is discarded, the slots
stay as they are. -/
def State.failCopy (s : State) (c : ChNo) (j : CopyJob) (elem : Nat) : State :=
  let s := j.copy c elem s
  s.mapTile fun t =>
    let x := t.chans[c.val]
    let gone := x.jobs
    { t with
      chans := t.chans.set c.val { x with jobs := [], err := true }
      feet := t.feet.filter fun f => !gone.any fun g => g.id == f.id
      ccp := t.ccp - gone.length }

/-- The first element of a copy whose source holds an uncorrectable error (R297). -/
def State.copyMeets (s : State) (j : CopyJob) : Option Nat :=
  if s.bad.isEmpty then none
  else
    (j.elems s.tile).findIdx? fun p =>
      if j.src.space = 1 then (List.range j.elem).any fun k => s.bad.contains (pageSpa j.pages (p.1.toNat + k))
      else (s.jobBad p.1.toNat j.elem).isSome

/-- What a job cannot reach: a die (R420), or the device that it reads (R422); its stores to such a device are discarded, and a
boundary reports them (R135). -/
def State.copyCut (s : State) (j : CopyJob) : Option Cause :=
  let cut := fun (a : Nat) => s.cutOff s.part a
  if j.pages.all fun p => (cut p.spa).isNone then none
  else if j.pages.any fun p => cut p.spa == some .linkDown then some .linkDown
  else if j.src.space == 1 && (j.elems s.tile).any fun p => (cut (pageSpa j.pages p.1.toNat)).isSome then some .peerUnreachable
  else none

/-- Whether a running job whose time has come can end, or begin a fill that it waits for. -/
def State.copyEnds (s : State) (c : ChNo) (j : CopyJob) : Bool :=
  match j.windows s c with
  | .trap _ => true
  | .stall u => (Prep.stall u).goes s
  | .ok _ => (s.copyCut j).isSome || (s.copyMeets j).isSome || !j.kept s.tile

/-- COPY_JOB_COMPLETE: a running job whose time has come ends, once the windows under its sides have their lines (R69) and the
history copy of its input slot has ended (R147); it fails at an element in error (R297), and is refused where what it reads or
writes cannot be reached. -/
def State.endCopy (s : State) (c : ChNo) (j : CopyJob) : State :=
  match j.windows s c with
  | .trap i => s.refuseCopy c j i
  | .stall u => u
  | .ok s =>
    match s.copyCut j, s.copyMeets j with
    | some e, _ => s.refuseCopy c j (trapOf e)
    | none, some k => s.failCopy c j k
    | none, none => if j.kept s.tile then s else s.finishCopy c j

/-- The copied bytes that a drain of a channel leaves: none of its own, and none that its own were written over (R141). -/
def leftCopied (c : ChNo) : List (Option ChNo × Host.Cell) → List (Option ChNo × Host.Cell)
  | [] => []
  | p :: l =>
    if p.1 == some c || l.any (fun q => q.1 == some c && q.2.1 == p.2.1) then leftCopied c l else p :: leftCopied c l

/-- Publish the slice bytes that a channel's copies wrote, and nothing that the tile has stored or copied over them since (R127,
R141). -/
def State.drainCopies (s : State) (c : ChNo) : State :=
  let t := s.tile
  let own := (t.copied.filter fun p => p.1 == some c).map (·.2)
  let rest := leftCopied c t.copied
  let top := own.filter fun p => !rest.any fun q => q.2.1 == p.1
  { s with
    mem := slicePut t.cl s.mem own
    tile := { t with
      tpub := t.tpub.filter fun p => !top.any fun q => q.1 == p.1
      view := overlayView t.view (top.foldl (fun o p => ovSet o p.1 p.2) [])
      copied := rest } }

/-- What CPDRAIN meets (R298). -/
inductive DrainR where
  | bad (i : TrapInfo) (s : State)
  | wait
  | done (s : State)

/-- CPDRAIN for an agent (R141, R297, R298): the window lines that the channel's copies wrote are written back, a failure being raised
with what it keeps (R385); then its slice bytes are published. -/
def State.drain (s : State) (a : Agent) (c : ChNo) : DrainR :=
  let x := s.tile.chans[c.val]
  if !s.tile.owns a c then .bad { cause := .engineState } s
  else if x.err then
    .bad { cause := .copyDataError } (s.mapTile fun t => { t with chans := t.chans.set c.val { x with err := false } })
  else if !x.jobs.isEmpty then .wait
  else
    match s.writeBacks x.lines with
    | .error (u, i) => .bad i u
    | .ok u => .done ((u.drainCopies c).mapTile fun t => { t with chans := t.chans.set c.val { t.chans[c.val] with lines := [] } })

/-- Do something at another tile of the package, the focus staying. -/
def State.onTile (s : State) (i : TileId) (f : State → State) : State := (f (s.focus i)).focus s.tile.id

end Sys2Proof.Machine
end

