-- ==== Sys2Proof/Machine/Matrix.lean ====
section
/-! DEFINITION. The matrix array: operand fetch (R76-R78, R85), latches and sparsity (R86), pushes and closes (R79-R82),
drains (R83, R280), remote beats (R87, R88, R282-R284, R413), and the beats of the matrix slot (R275-R281). -/

namespace Sys2Proof.Machine

/-- A byte as the i-th newest writes left out would have it (R85). -/
def undone (undo : List (List Host.Cell)) (a : Nat) (now : Byte) : Nat → Byte
  | 0 => now
  | n + 1 =>
    let b := undone undo a now n
    ((undo[n]?).bind fun l => ovGet l a).getD b

/-- How many of the newest writes a block is read before, each a free choice (R85, log 9). -/
def staleDepth (key : Nat) : Nat → Nat → Nat
  | 0, d => d
  | n + 1, d => if Config.cacheFresh (key + d) then d else staleDepth key n (d + 1)

/-- The first byte of the 128-byte block of a handle's region that an address lies in (R76, R85). -/
def Handle.blockOf (h : Handle) (a : Nat) : Nat :=
  match h.spans.find? fun p => decide (p.1 ≤ a) && decide (a < p.2) with
  | some p => p.1 + (a - p.1) / 128 * 128
  | none => a

/-- The reader of a handle's bytes: the effect buffer (R151), the shadow slot (R150), and for a written handle, block by
block of 128 bytes, a version before or after each write since the last SPFENCE (R85). -/
def State.fetch (s : State) (h : Handle) (a : Nat) : Byte :=
  match s.tile.heldByte a with
  | some b => b
  | none =>
    let x := s.tile.shadowed a
    let now := s.spByte x
    if h.written then
      undone h.undo x now (staleDepth ((s.freeCtr * 2 ^ 24 + h.blockOf a) * 2 ^ 16) h.undo.length 0)
    else now

/-- A 16-bit word through a reader of bytes. -/
def word16 (rd : Nat → Byte) (a : Nat) : Nat := (rd a).toNat + 256 * (rd (a + 1)).toNat

/-- A 16-bit word of a handle. -/
def State.fetch16 (s : State) (h : Handle) (a : Nat) : Nat := word16 (s.fetch h) a

/-- The scale code of element (r, k), none without scales (R76). -/
def Handle.scaleCode (h : Handle) (rd : Nat → Byte) (r k : Nat) : Option Nat :=
  if h.scale == 0 then none else some (rd (h.scaleAt r k)).toNat

/-- The scale code of element (r, k) as the array fetches it. -/
def State.scaleOf (s : State) (h : Handle) (r k : Nat) : Option Nat := h.scaleCode (s.fetch h) r k

/-- A value times its scale (R75, R96). -/
def scaledBy (x : Num) (sc : Option Nat) : Num :=
  match sc with
  | none => x
  | some c => scaled x c

/-- One A element of a push: whether it is special, its whole value, its value in plane p (R78, R81). -/
structure AElem where
  special : Bool
  whole : Num
  part : Num

def Num.isSpecial (x : Num) : Bool :=
  match x with
  | .fin _ _ _ => false
  | _ => true

/-- The A element of row r, group g, lane l in plane p of the planes that the group uses (R75, R76, R78); the planes of a zero
count for nothing, whatever they hold (R76). -/
def State.aElem (s : State) (h : Handle) (used p r g l : Nat) : AElem :=
  if h.kgrp ≤ g then ⟨false, Num.zero, Num.zero⟩
  else
    let x := h.planedAt (s.fetch16 h) g r l
    let x := { x with bits := fun q => decide (q < used) && x.bits q }
    let sc := s.scaleOf h r (12 * g + l)
    let whole := scaledBy (h.rebuild x) sc
    let bit : Num :=
      if x.bits p && !(h.isFloat && x.exp / 2 ^ 14 == 1) then
        match h.weight x.exp p with
        | .fin n m e => .fin (n != x.sign) m e
        | y => y
      else Num.zero
    ⟨whole.isSpecial, whole, scaledBy bit sc⟩

/-- The product that a push adds: for a special element the whole product at the group's first push, else this plane's
(R81); the sign of a zero product is discarded. -/
def pushProduct (first : Bool) (a : AElem) (b : Num) : Num :=
  let x := if a.special || b.isSpecial then (if first then Num.mul a.whole b else Num.zero) else Num.mul a.part b
  if x.isZero then Num.zero else x

/-- Add one plane of A into STAGE (R79, R81, R86): groups GA to GA + S - 1, those past the last group being zeros (R78). -/
def State.pushStage (s : State) (h : Handle) (m : Mat) (latch : Latch) : Vector (Vector Num 64) 64 :=
  let used := (List.range latch.step).map fun j => h.usedPlanes (s.fetch16 h) (m.ga.val + j)
  Vector.ofFn fun i =>
    let row := m.stage[i.val]
    if h.rows ≤ i.val then row
    else
      let els := (List.range (12 * latch.step)).map fun q =>
        s.aElem h (used.getD (q / 12) 0) m.pushed i.val (m.ga.val + q / 12) (q % 12)
      latch.elems.foldl (fun (r : Vector Num 64) e =>
        match els[e.sel]? with
        | none => r
        | some a => r.set e.col.val (Num.add .rne r[e.col.val] (pushProduct (m.pushed == 0) a e.val))) row

/-- The value of a stored B element: stored group g, lane l, scaled by true index k (R75, R86). -/
def State.bElem (s : State) (h : Handle) (g c l k : Nat) : Num :=
  scaledBy (h.rebuild (h.planedAt (s.fetch16 h) g c l)) (s.scaleOf h c k)

/-- The mask of column c in dense group g (R86). -/
def State.maskOf (s : State) (h : Handle) (g c : Nat) : Nat := s.fetch16 h (h.maskAt g c)

/-- The 1 bits of a mask. -/
def onesOf (m : Nat) : List Nat := (List.range 12).filter fun l => m.testBit l

/-- Whether the masks of a step pass the checks of R86. Masks of columns at or beyond ROWS are not looked at: DESIGN CHOICE, the
spec not saying (log 18). -/
def State.metaOk (s : State) (h : Handle) (t : Nat) : Bool :=
  (h.stored ≤ t) || (List.range h.step).all fun j => (List.range h.rows).all fun c =>
    let g := t * h.step + j
    let m := s.maskOf h g c
    decide ((onesOf m).length ≤ h.nOf12) && m / 2 ^ 12 == 0 && (decide (g < h.kgrp) || m == 0)

/-- The step that a B cursor names (R86, log 18). -/
def bStep (h : Handle) (gb : Nat) : Nat := gb / h.step

/-- The elements of B group GB of a handle (R78, R79, R86). -/
def State.loadLatch (s : State) (h : Handle) (gb : Nat) : Latch :=
  let cols := (List.finRange 64).filter fun c => decide (c.val < h.rows)
  let elems :=
    if h.spn == 0 then
      cols.flatMap fun c => (List.range 12).map fun l =>
        ⟨c, l, if h.kgrp ≤ gb then Num.zero else s.bElem h gb c.val l (12 * gb + l)⟩
    else
      let t := bStep h gb
      -- a step beyond the stored groups has no mask, so that its zeros meet no A element: DESIGN CHOICE (log 18)
      if h.stored ≤ t then []
      else
        cols.flatMap fun c =>
          let at' := (List.range h.step).flatMap fun j => (onesOf (s.maskOf h (t * h.step + j) c.val)).map fun l => 12 * j + l
          (at'.zip (List.range 12)).map fun p =>
            (⟨c, p.1, s.bElem h t c.val p.2 (12 * t * h.step + p.1)⟩ : BElem)
  { valid := true, step := h.step, elems := elems }

/-- A cursor advanced, modulo 4,096 (R79). -/
def advance (g : Fin 4096) (n : Nat) : Fin 4096 := Fin.ofNat 4096 (g.val + n)

/-- Shift a B group into NEXT (R79). -/
def State.shiftMat (s : State) (h : Handle) (m : Mat) : Mat :=
  { m with next := s.loadLatch h m.gb.val, gb := advance m.gb h.step }

/-- The integer value of an exact sum of integers. -/
def Num.toInt (x : Num) : Int :=
  match x with
  | .fin n m e => Num.at' n m e (min e 0) / 2 ^ (-(min e 0)).toNat
  | _ => 0

/-- An accumulator entry plus an exact value, by the mode (R81, R87). -/
def accAdd (float : Bool) (acc : AccWord) (x : Num) : AccWord :=
  if float then BitVec.ofNat 80 (a80.encode rne (Num.add .rne (a80.decode acc.toNat) x))
  else acc + BitVec.ofInt 80 x.toInt

/-- STAGE cleared (R79). -/
def stageZero : Vector (Vector Num 64) 64 := Vector.replicate 64 (Vector.replicate 64 Num.zero)

/-- Close the K-group (R81). -/
def Mat.close (m : Mat) : Mat :=
  { m with
    acc := Vector.ofFn fun i => Vector.ofFn fun j => accAdd m.float (m.acc[i.val])[j.val] (m.stage[i.val])[j.val]
    stage := stageZero
    pushed := 0
    ga := advance m.ga m.active.step }

/-- The latch that a push uses: NEXT moves in at the first push of a group (R79). -/
def Mat.latched (m : Mat) : Mat :=
  if m.pushed == 0 && m.next.valid then { m with active := m.next, next := {} } else m

/-- A push of a handle (R79). -/
def State.pushMat (s : State) (n : HReg) (h : Handle) (m : Mat) : Mat :=
  let g := if m.pushed == 0 then some n else m.ghandle
  let m := m.latched
  { m with stage := s.pushStage h m m.active, pushed := m.pushed + 1, ghandle := g }

/-- The mode rules and plane limit for a handle that a push or shift names (R75, R80). -/
def precisionOk (m : Mat) (h : Handle) : Bool :=
  decide (h.planes ≤ h.maxPlanes) && (m.float || (!h.isFloat && h.scale == 0))

/-- The planes of the handle of the current group, mA where the group has not begun (R80). -/
def groupPlanes (t : Tile) (a : HReg) : Nat :=
  let m := t.mat
  let g := if m.pushed == 0 then a else m.ghandle.getD a
  (t.handles[g.val]).planes

/-- The checks of a push, shift and close up to the masks, in the order of R276: which of the three a beat does. -/
def beatFirst (t : Tile) (a : Option HReg) (b : Option HReg) (close : Bool) : Option Cause :=
  let m := t.mat
  let hs := a.toList ++ b.toList
  let h := fun (n : HReg) => t.handles[n.val]
  let pushes := a.any fun n => groupPlanes t n < m.pushed + 1 || (close && m.pushed + 1 != groupPlanes t n)
  if hs.any fun n => !(h n).valid then some .handleInvalid
  else if (hs.any fun n => !precisionOk m (h n)) || pushes then some .precisionInvalid
  else if a.any fun n => (h n).spn != 0 then some .sparsityMeta
  else none

/-- The checks of a push, shift and close in the order of R276. -/
def beatTrap (s : State) (t : Tile) (a : Option HReg) (b : Option HReg) (close : Bool) : Option Cause :=
  let m := t.mat
  let h := fun (n : HReg) => t.handles[n.val]
  match beatFirst t a b close with
  | some e => some e
  | none =>
    if b.any fun n => (h n).spn != 0 && !s.metaOk (h n) (bStep (h n) m.gb.val) then some .sparsityMeta
    else if a.any fun n => if m.pushed == 0 then !m.next.valid && !m.active.valid else m.ghandle != some n then
      some .engineState
    else none

/-- ACCUM_PARITY where an accumulator row of a mask that a beat reads is in error (R80). -/
def accError (t : Tile) (rows : BitVec 64) : Option TrapInfo :=
  if t.badAcc &&& rows != 0 then some { cause := .accumParity } else none

/-- The scales of the elements k of each row, from lo up to hi (R76). -/
def Handle.scaleReads (h : Handle) (lo hi : Nat) : List (Nat × Nat) :=
  if h.scale == 0 then [] else (List.range h.rows).map fun r => (h.scaleAt r lo, h.scaleAt r (hi - 1) + 1)

/-- The scratchpad ranges of a stored group that some of its planes, its head and its scales lie in (R76, R79). -/
def Handle.groupReads (h : Handle) (planes : List Nat) (g : Nat) : List (Nat × Nat) :=
  if h.stored ≤ g || planes.isEmpty then []
  else
    (if h.isFloat then [(h.groupAt g, h.groupAt g + 64 * h.head)] else [])
      ++ planes.map (fun p => (h.planeAt g p 0, h.planeAt g p 0 + 128))
      ++ h.scaleReads (12 * h.step * g) (12 * h.step * (g + 1))

/-- The masks of a step of a sparse handle (R86). -/
def Handle.maskReads (h : Handle) (t : Nat) : List (Nat × Nat) :=
  if h.spn == 0 || h.stored ≤ t then [] else [(h.maskAt (t * h.step) 0, h.maskAt (t * h.step) 0 + 128 * h.step)]

/-- What a shift of a handle reads (R79, R86). -/
def Handle.shiftReads (h : Handle) (gb : Nat) : List (Nat × Nat) :=
  let t := bStep h gb
  h.groupReads (List.range h.planes) t ++ h.maskReads t

/-- The planes that a push of a handle fetches of a group: the plane that it adds, at a group's first push with a special B element every
plane (R81), and none of a TF8 group beyond its widest fraction (R78). -/
def State.pushPlanes (s : State) (h : Handle) (m : Mat) (g : Nat) : List Nat :=
  let used := min h.planes (h.usedPlanes (s.fetch16 h) g)
  if h.kgrp ≤ g then []
  else if m.pushed == 0 && m.latched.active.elems.any fun e => e.val.isSpecial then List.range used
  else if m.pushed < used then [m.pushed]
  else []

/-- The groups of A that a push adds (R79, R86). -/
def Mat.groups (m : Mat) : List Nat := (List.range m.latched.active.step).map fun q => m.ga.val + q

/-- The heads of the groups of which a push fetches anything (R76, R79): the exponents say which planes a TF8 group has (R78). -/
def State.headReads (s : State) (h : Handle) (m : Mat) : List (Nat × Nat) :=
  if h.isFloat then
    (m.groups.filter fun g => decide (g < h.stored) && !(s.pushPlanes h m g).isEmpty).map fun g => (h.groupAt g, h.groupAt g + 64 * h.head)
  else []

/-- What a push of a handle reads of its groups. -/
def State.pushReads (s : State) (h : Handle) (m : Mat) : List (Nat × Nat) :=
  m.groups.flatMap fun g => h.groupReads (s.pushPlanes h m g) g

/-- What a beat has to read before it can make its checks: the masks of its B step (R86), the heads of its A groups (R78). -/
def beatLooks (s : State) (t : Tile) (a b : Option HReg) : List (Nat × Nat) :=
  (b.map fun n => (t.handles[n.val]).maskReads (bStep t.handles[n.val] t.mat.gb.val)).getD []
    ++ (a.map fun n => s.headReads t.handles[n.val] t.mat).getD []

/-- What a matrix beat reads of the scratchpad, the tile core's own reads: slot states and first touches (R61, R69, R70) and
uncorrectable errors (R263) come after the checks of R276 (log 28). -/
def beatPrep (c : Ctx) (s : State) (l : List (Nat × Nat)) (k : State → SlotR) : SlotR :=
  match linePrep .core c.s0 s false l with
  | .trap i => .trap i
  | .stall u => .stall u
  | .ok u =>
    match l.findSome? fun p => c.s0.badLocal .core p.1 p.2 with
    | some a => .trap (spError 5 a)
    | none => k u

/-- Use up a free value where a beat may have read stale blocks (R85). -/
def State.spend (s : State) : State := (s.fresh).2

/-- A matrix slot. -/
def matSlot (run : Ctx → State → SlotR) : Slot := { cls := 5, run := run }

/-- A beat of a push, a shift and a close, in that order (R79, R277). What its checks look at is read first, slot states and first
touches included, once the checks before them have passed (log 28). -/
def pushBeat (a : Option HReg) (b : Option HReg) (close : Bool) : Slot :=
  matSlot fun c s =>
    let t := c.pre
    let h := fun (n : HReg) => t.handles[n.val]
    match beatFirst t a b close with
    | some e => trapR e
    | none =>
    beatPrep c s (beatLooks c.s0 t a b) fun s =>
    match (beatTrap c.s0 t a b close).map trapOf |>.or (if close then accError t (BitVec.allOnes 64) else none) with
    | some e => .trap e
    | none =>
      beatPrep c s ((a.map fun n => c.s0.pushReads (h n) t.mat).getD [] ++ (b.map fun n => (h n).shiftReads t.mat.gb.val).getD []) fun s =>
        let m := t.mat
        let m := match a with
          | some n => c.s0.pushMat n (h n) m
          | none => m
        let m := match b with
          | some n => c.s0.shiftMat (h n) m
          | none => m
        let m := if close then m.close else m
        okR (s.spend.mapTile fun u => { u with mat := m })

def slotMpush (a : HReg) : Slot := pushBeat (some a) none false
def slotMpushS (a b : HReg) : Slot := pushBeat (some a) (some b) false
def slotMpushC (a : HReg) : Slot := pushBeat (some a) none true
def slotMpushSC (a b : HReg) : Slot := pushBeat (some a) (some b) true
def slotMshift (b : HReg) : Slot := pushBeat none (some b) false

/-- MHOLD: a hold beat (R74). -/
def slotMhold : Slot := matSlot fun _ s => okR s

/-- MACC (R79, R278). -/
def slotMacc : Slot :=
  matSlot fun c s =>
    let m := c.pre.mat
    if m.pushed == 0 then trapR .engineState
    else if (m.ghandle.map fun n => (c.pre.handles[n.val]).planes) != some m.pushed then trapR .precisionInvalid
    else
      match accError c.pre (BitVec.allOnes 64) with
      | some e => .trap e
      | none => okR (s.mapTile fun t => { t with mat := m.close })

/-- Every accumulator entry +0 (R79). -/
def accZero : Vector (Vector AccWord 64) 64 := Vector.replicate 64 (Vector.replicate 64 0)

/-- MZERO (R79). -/
def slotMzero : Slot :=
  matSlot fun _ s => okR (s.mapTile fun t => { t with mat := { t.mat with acc := accZero, stage := stageZero, pushed := 0 } })

/-- MSET: cursors, latches, and the clear at a change of mode (R79, R279). -/
def Mat.configure (m : Mat) (float : Bool) (ga gb : Fin 4096) : Mat :=
  let m := { m with ga := ga, gb := gb, active := {}, next := {}, pushed := 0 }
  if m.float == float then m else { m with float := float, acc := accZero, stage := stageZero }

def slotMsetFloat (ga gb : Fin 4096) : Slot :=
  matSlot fun _ s => okR (s.mapTile fun t => { t with mat := t.mat.configure true ga gb })

def slotMsetInt (ga gb : Fin 4096) : Slot :=
  matSlot fun _ s => okR (s.mapTile fun t => { t with mat := t.mat.configure false ga gb })

/-- The tag of a drain format (R280). -/
def drainTag (f : DrainFmt) : Nat :=
  match f with
  | .fp32 => 1
  | .int32 => 2
  | .bf16x2 => 3
  | .fp16x2 => 4

/-- Whether the mode allows a drain format (R83). -/
def drainOk (float : Bool) (f : DrainFmt) : Bool :=
  match f with
  | .fp32 => true
  | .int32 => !float
  | .bf16x2 | .fp16x2 => float

/-- One accumulator entry converted (R83): a float beyond the target's range as R107 has it in each rounding mode, an infinity or the
largest finite value; DEDUCED, since R83's "an infinity" is R107's case of the nearest mode (log 50). -/
def drainElem (float : Bool) (f : DrainFmt) (r : Rnd) (x : AccWord) : Nat :=
  if float then tagEncode (drainTag f) r false (a80.decode x.toNat)
  else
    match f with
    | .int32 => intEncode 2 r true (Num.ofInt x.toInt)
    | .fp32 | .bf16x2 | .fp16x2 => fp32.encode r (Num.ofInt x.toInt)

/-- The entry of a drained row (R83). -/
def drainRow (float : Bool) (f : DrainFmt) (r : Rnd) (acc : Vector AccWord 64) : Row :=
  packRow (drainTag f) fun k => if k < 64 then drainElem float f r (acc.toList.getD k 0) else 0

/-- The entries of a result queue (R84). -/
def queueSize : Nat := 16

/-- Append an entry to a queue. -/
def Tile.reserve (t : Tile) (q : QReg) (e : QEntry) : Tile :=
  { t with queues := t.queues.set q.val (t.queues[q.val] ++ [e]) }

/-- Whether a queue is full (R84). -/
def Tile.queueFull (t : Tile) (q : QReg) : Bool := decide (queueSize ≤ (t.queues[q.val]).length)

/-- MDRAIN (R83, R84, R280). -/
def slotMdrain (r : Fin 64) (q : QReg) (f : DrainFmt) (z : Bool) : Slot :=
  matSlot fun c s =>
    let m := c.pre.mat
    if !drainOk m.float f then trapR .precisionInvalid
    else if s.tile.queueFull q then trapR .queueOverflow
    else
      match accError c.pre (1#64 <<< r.val) with
      | some e => .trap e
      | none =>
        let e : QEntry :=
          { tag := drainTag f, cells := drainRow m.float f (rndOf c.rnd) m.acc[r.val], due := c.pre.tc + 2, arrived := false
            remote := none, failed := false }
        okR (s.mapTile fun t =>
          let t := t.reserve q e
          if z then { t with mat := { t.mat with acc := t.mat.acc.set r.val (Vector.replicate 64 0) } } else t)

/-- MSPARSE (R281). -/
def slotMsparse (b : HReg) : Slot :=
  matSlot fun c s =>
    let h := c.pre.handles[b.val]
    if !h.valid then trapR .handleInvalid
    else if h.spn == 0 then trapR .sparsityMeta
    else
      beatPrep c s (h.maskReads (bStep h c.pre.mat.gb.val)) fun s =>
        if !c.s0.metaOk h (bStep h c.pre.mat.gb.val) then trapR .sparsityMeta
        else beatPrep c s (h.shiftReads c.pre.mat.gb.val) fun s => okR s.spend

/-- SKEWe VALID (R88). -/
def Tile.skewValid (t : Tile) (e : Fin 2) : Bool := (t.skew[e.val]).getLsbD 63

/-- SKEWe's due distance (R88). -/
def Tile.skewOf (t : Tile) (e : Fin 2) : Nat := fld (t.skew[e.val]).toNat 0 12

/-- SKEWe's ENGINE field (R88). -/
def Tile.engineField (t : Tile) (e : Fin 2) : Nat := fld (t.skew[e.val]).toNat 48 8

/-- SKEWe's engine: the field, of 8 bits for a range of 0 to 63, is taken modulo 64: DESIGN CHOICE, the spec giving no engine for 64
to 255 (log 12). -/
def Tile.engineOf (t : Tile) (e : Fin 2) : Fin 64 := Fin.ofNat 64 (t.engineField e)

/-- A job of a weight-die engine (R413). -/
structure WdJob where
  valid : Bool
  fp : Bool
  mxfp4 : Bool
  afmt : Nat
  kgrp : Nat
  wbase : Nat

/-- The job bound to an engine (R413). -/
def wdJob (w : Vector Word 2) : WdJob :=
  let v := (w[0]).toNat
  ⟨fld v 63 1 == 1, fld v 62 1 == 1, fld v 61 1 == 1, fld v 57 4, fld v 45 12, fld (w[1]).toNat 0 22⟩

/-- The bytes of a weight die's store for weights, and after them those for their scales (R1, R413, log 12). -/
def weightBytes : Nat := 2 ^ 28

/-- A byte of a die's weight store: what was last written there, else a free value (R413, log 12). -/
def Die.weight (d : Die) (n : DieNo) (i : Nat) : Byte := (ovGet d.weights i).getD (Config.weightByte n.val i)

/-- The place of weight (k, col) of a job in the store, and that of its scale. A job whose rows run past the end of the store goes on
at its start: DESIGN CHOICE, R1 and R413 saying nothing of it (log 12). -/
def WdJob.weightAt (j : WdJob) (k col : Nat) : Nat × Nat :=
  ((64 * j.wbase + 64 * k + col) % weightBytes, weightBytes + (64 * j.wbase + 64 * (k / 32) + col) % weightBytes)

/-- Weight (k, col) of a job and its scale, through a reader of the store (R413). -/
def weightOf (rd : Nat → Byte) (j : WdJob) (k col : Nat) : Num × Nat :=
  let a := j.weightAt k col
  let code := (rd a.1).toNat
  (if j.mxfp4 then e2m1.decode code else Num.ofInt (sgnVal 8 code), (rd a.2).toNat)

/-- The row that a weight-die engine returns for an A row (R413): element k without and with its scale. -/
def engineRow (rd : Nat → Byte) (j : WdJob) (a : Nat → Num × Num) : Row :=
  Vector.ofFn fun col =>
    let ks := List.range (12 * j.kgrp)
    if j.fp then
      toF32 rne (ks.foldl (fun x k =>
        let w := weightOf rd j k col.val
        Num.add .rne x (Num.mul (a k).2 (scaled w.1 w.2))) Num.zero)
    else
      BitVec.ofInt 32 (ks.foldl (fun (x : Int) k => x + (Num.mul (a k).1 (weightOf rd j k col.val).1).toInt) 0)

/-- Whether an engine's job accepts a handle (R413). -/
def jobTakes (j : WdJob) (h : Handle) : Bool :=
  j.valid && h.fmt == j.afmt && h.kgrp == j.kgrp && (if j.mxfp4 then j.fp && (j.afmt == 3 || j.afmt == 6 || j.afmt == 7 || j.afmt == 10)
    else j.afmt == 9)

/-- Whether a tile's remote beats meet a dead link (R420). -/
def State.beatLost (s : State) : Bool := !(s.links[4 + (dieOf s.tile.cl).val]).up

/-- What a remote beat brings back: whether it failed, by its job or its link, whether its rows are FP32, the row (R87, R413,
R420). A job's read is edged and no fetch of R85: it sees the bytes as they stand (R140). -/
def State.remoteRow (s : State) (e : Fin 2) (h : Handle) (r : Nat) : Bool × Bool × Row :=
  let d := dieOf s.tile.cl
  let j := wdJob (s.die.wdjob[(s.tile.engineOf e).val])
  let elem := fun k =>
    if h.rows ≤ r then (Num.zero, Num.zero)
    else
      let x := h.rebuild (h.planedAt (word16 s.coreByte) (k / 12) r (k % 12))
      (x, scaledBy x (h.scaleCode s.coreByte r k))
  (!jobTakes j h || s.beatLost, j.fp, engineRow (fun i => s.die.weight d i) j elem)

/-- The checks of MREM up to the queue (R282). -/
def remTrap (t : Tile) (a : HReg) (e : Fin 2) : Option Cause :=
  let h := t.handles[a.val]
  if !h.valid then some .handleInvalid
  else if h.maxPlanes < h.planes then some .precisionInvalid
  else if h.spn != 0 then some .sparsityMeta
  else if !t.skewValid e then some .remoteBeat
  else none

/-- What a remote beat reads: row r of every group, and its scales (R282). -/
def Handle.rowReads (h : Handle) (r : Nat) : List (Nat × Nat) :=
  if h.rows ≤ r then []
  else
    ((List.range h.stored).flatMap fun g => (h.rowWords g r).map fun b => (b, b + 2))
      ++ (if h.scale == 0 then [] else [(h.scaleAt r 0, h.scaleAt r 0 + h.scalesPerRow)])

/-- The footprint of a remote beat: the handle's region, read (R139, R282). -/
def Handle.beatFeet (h : Handle) (id : Nat) : List Foot := h.spans.map fun p => ⟨id, p.1, p.2, false, false, false, true⟩

/-- A remote beat takes its job number and its footprint (R139). -/
def Tile.remoteFoot (t : Tile) (h : Handle) : Tile := { t with jobCtr := t.jobCtr + 1, feet := t.feet ++ h.beatFeet t.jobCtr }

/-- A remote beat of row r of a handle at its issue: the row that it brings back, or what is still to be read where an earlier job
has still to write what it reads (R140). -/
def State.sendBeat (s : State) (e : Fin 2) (h : Handle) (r : Fin 64) : (Bool × Bool × Row) × Option Ask :=
  if s.tile.heldUp s.tile.jobCtr (h.beatFeet s.tile.jobCtr) then ((s.beatLost, false, Row.zero), some ⟨h.img, r⟩)
  else (s.remoteRow e h r.val, none)

/-- MREM to a queue (R87, R282). -/
def slotMremQueue (a : HReg) (r : Fin 64) (e : Fin 2) (q : QReg) : Slot :=
  matSlot fun c s =>
    match remTrap c.pre a e with
    | some x => trapR x
    | none =>
      let h := c.pre.handles[a.val]
      if s.tile.queueFull q then trapR .queueOverflow
      else
        beatPrep c s (h.rowReads r.val) fun s =>
          let (v, ask) := s.sendBeat e h r
          okR (s.mapTile fun t =>
            (t.reserve q
              { tag := if v.2.1 then 1 else 2, cells := v.2.2, due := c.pre.tc + c.pre.skewOf e, arrived := false
                remote := some e, foot := t.jobCtr, ask := ask, failed := v.1 }).remoteFoot h)

/-- The rows of a landing FIFO (R73). -/
def landSize : Nat := 8

/-- MREM to the accumulator (R87, R282). -/
def slotMremAcc (a : HReg) (r : Fin 64) (e : Fin 2) : Slot :=
  matSlot fun c s =>
    match remTrap c.pre a e with
    | some x => trapR x
    | none =>
      let l := s.tile.mat.land[e.val]
      let h := c.pre.handles[a.val]
      if landSize ≤ l.length then trapR .queueOverflow
      else
        beatPrep c s (h.rowReads r.val) fun s =>
          let (v, ask) := s.sendBeat e h r
          okR (s.mapTile fun t =>
            let row : LandRow :=
              { row := r, due := c.pre.tc + c.pre.skewOf e, arrived := false, float := v.2.1, cells := v.2.2, foot := t.jobCtr
                ask := ask, failed := v.1 }
            { (t.remoteFoot h) with mat := { t.mat with land := t.mat.land.set e.val (l ++ [row]) } })

/-- An element of a landed row (R87). -/
def landValue (float : Bool) (x : Cell) : Num := if float then f32 x else Num.ofInt x.toInt

/-- MACC.R (R87, R283). DESIGN CHOICE (log 54): a row that failed raises REMOTE_BEAT whatever it would have held, the spec ordering that cause
and PRECISION_INVALID in no way. -/
def slotMaccR (e : Fin 2) : Slot :=
  matSlot fun c s =>
    let m := c.pre.mat
    match m.land[e.val] with
    | [] => trapR .queueUnderflow
    | x :: l =>
      if !x.arrived then .stall c.s0
      else if x.failed then trapR .remoteBeat
      else if !m.float && x.float then trapR .precisionInvalid
      else
        match accError c.pre (1#64 <<< x.row.val) with
        | some e => .trap e
        | none =>
          let row := m.acc[x.row.val]
          let new := Vector.ofFn fun j => accAdd m.float row[j.val] (landValue x.float x.cells[j.val])
          okR (s.mapTile fun t =>
            { t with mat := { t.mat with acc := t.mat.acc.set x.row.val new, land := t.mat.land.set e.val l } })

/-- MSKEW (R284): the measured tile cycles are a free value, not above SKEW: the beat comes back in time unless something outside has it
come late, which lane 0 then shows (Tile.later, log 7). -/
def slotMskew (q : QReg) (e : Fin 2) : Slot :=
  matSlot fun c s =>
    if !c.pre.skewValid e then trapR .remoteBeat
    else if s.tile.queueFull q then trapR .queueOverflow
    else
      let f := s.fresh
      let cells : Row := Vector.ofFn fun i =>
        match i.val with
        | 0 => BitVec.ofNat 32 (min (Config.delay f.1) (c.pre.skewOf e))
        | 1 => BitVec.ofNat 32 (c.pre.skewOf e)
        | 2 => BitVec.ofNat 32 (c.pre.engineField e)
        | _ => 0
      okR (f.2.mapTile fun t =>
        t.reserve q { tag := 2, cells := cells, due := c.pre.tc + c.pre.skewOf e, arrived := false
                      remote := some e, sent := some c.pre.tc, failed := c.s0.beatLost })

def execMpush (a : HReg) (s : State) : Host.Outcome State Fault Refusal := .next (issue1 s (slotMpush a))
def execMpushS (a b : HReg) (s : State) : Host.Outcome State Fault Refusal := .next (issue1 s (slotMpushS a b))
def execMpushC (a : HReg) (s : State) : Host.Outcome State Fault Refusal := .next (issue1 s (slotMpushC a))
def execMpushSC (a b : HReg) (s : State) : Host.Outcome State Fault Refusal := .next (issue1 s (slotMpushSC a b))
def execMshift (b : HReg) (s : State) : Host.Outcome State Fault Refusal := .next (issue1 s (slotMshift b))
def execMhold (s : State) : Host.Outcome State Fault Refusal := .next (issue1 s (slotMhold))
def execMacc (s : State) : Host.Outcome State Fault Refusal := .next (issue1 s (slotMacc))
def execMzero (s : State) : Host.Outcome State Fault Refusal := .next (issue1 s (slotMzero))
def execMsetFloat (ga gb : Fin 4096) (s : State) : Host.Outcome State Fault Refusal :=
  .next (issue1 s (slotMsetFloat ga gb))
def execMsetInt (ga gb : Fin 4096) (s : State) : Host.Outcome State Fault Refusal :=
  .next (issue1 s (slotMsetInt ga gb))
def execMdrain (r : Fin 64) (q : QReg) (f : DrainFmt) (z : Bool) (s : State) : Host.Outcome State Fault Refusal :=
  .next (issue1 s (slotMdrain r q f z))
def execMsparse (b : HReg) (s : State) : Host.Outcome State Fault Refusal := .next (issue1 s (slotMsparse b))
def execMremQueue (a : HReg) (r : Fin 64) (e : Fin 2) (q : QReg) (s : State) : Host.Outcome State Fault Refusal :=
  .next (issue1 s (slotMremQueue a r e q))
def execMremAcc (a : HReg) (r : Fin 64) (e : Fin 2) (s : State) : Host.Outcome State Fault Refusal :=
  .next (issue1 s (slotMremAcc a r e))
def execMaccR (e : Fin 2) (s : State) : Host.Outcome State Fault Refusal := .next (issue1 s (slotMaccR e))
def execMskew (q : QReg) (e : Fin 2) (s : State) : Host.Outcome State Fault Refusal := .next (issue1 s (slotMskew q e))

end Sys2Proof.Machine
end

