-- ==== Sys2Proof/Machine/Engine.lean ====
section
/-! DEFINITION. The engine slot: copy channels (R292-R299), circuits (R300-R302, R155), counted puts (R303), collectives
(R304-R306), prediction (R148, R307), ring and sparsity status (R308, R309), translation queries (R310, R311) and the
tile core's mailbox (R274, R312). -/

namespace Sys2Proof.Machine

/-- An engine slot. -/
def engSlot (reads : List Site) (run : Ctx → State → SlotR) : Slot := { cls := 6, reads := fun _ => reads, run := run }

/-- An engine slot that makes a resolution stall (R151, R287). -/
def engSlotR (reads : List Site) (run : Ctx → State → SlotR) : Slot :=
  { engSlot reads run with resolves := fun _ => true }

/-- A slot of the owner of a channel (R272). -/
def ownSlot (ch : ChNo) (reads : List Site) (run : Ctx → State → SlotR) : Slot :=
  engSlot reads fun c s => if c.pre.owns .core ch then run c s else trapR .engineState

/-- CPBASE (R292). -/
def slotCpbase (ch : ChNo) (d a b : SReg) : Slot :=
  ownSlot ch [.sreg d, .sreg a, .sreg b] fun c s =>
    let ctl := (c.pre.sreg d).toNat
    okR (s.mapTile fun t =>
      ((t.putSetup ch 0 (c.pre.sreg a)).putSetup ch 1 (c.pre.sreg b)).putSetup ch 2
        (BitVec.ofNat 64 (ctl - fld ctl 22 2 * 2 ^ 22)))

/-- A stride of a level word (R293). -/
def strideOk (v : Int) : Bool := decide (-(2 ^ 23) ≤ v) && decide (v < 2 ^ 23)

/-- The setup word of a level (R289). -/
def levelWord (l : Fin 8) : Fin 16 := ⟨l.val + 3, by omega⟩

/-- CPNEST (R293). -/
def slotCpnest (ch : ChNo) (l : Fin 8) (d a b : SReg) : Slot :=
  ownSlot ch [.sreg d, .sreg a, .sreg b] fun c s =>
    let n := (c.pre.sreg a).toNat
    let ss := (c.pre.sreg b).toInt
    let ds := (c.pre.sreg d).toInt
    if n = 0 || decide (65536 < n) || !strideOk ss || !strideOk ds then trapR .copyNest
    else
      okR (s.mapTile fun t => t.putSetup ch (levelWord l)
        (BitVec.ofNat 64 ((n - 1) * 2 ^ 48 + lowBits 24 ds * 2 ^ 24 + lowBits 24 ss)))

/-- CPFOOT (R294): k = 0 the read box, else the write box. -/
def slotCpfoot (ch : ChNo) (k : Fin 8) (a b : SReg) : Slot :=
  ownSlot ch [.sreg a, .sreg b] fun c s =>
    let lo := c.pre.sreg a
    let hi := c.pre.sreg b
    if hi ≤ lo then trapR .copyNest
    else
      okR (s.mapTile fun t =>
        let ctl := (t.setup[ch.val])[2]
        if k = 0 then ((t.putSetup ch 10 lo).putSetup ch 11 hi).putSetup ch 2 (ctl ||| BitVec.ofNat 64 (2 ^ 22))
        else ((t.putSetup ch 12 lo).putSetup ch 13 hi).putSetup ch 2 (ctl ||| BitVec.ofNat 64 (2 ^ 23)))

/-- The tile cycles until probes have returned (log 7). -/
def probeTime : Nat := 6

/-- CPGO (R295, R151). -/
def slotCpgo (ch : ChNo) : Slot :=
  engSlot [] fun c s =>
    match copyChecks s .core ch c.pre.setup[ch.val] with
    | .error e => .trap e
    | .ok (u, j) =>
      let go : SlotR :=
        match s.tile.spec with
        | some p => if p.fits (.cpgo ch j) then okR (u.mapTile fun t => t.hold c.pc (.cpgo ch j)) else .resolve
        | none =>
          if chanSize ≤ (s.tile.chans[ch.val]).jobs.length || ctrMax ≤ c.pre.ccp then .stall c.s0
          else okR (u.enqueueCopy ch j)
      if j.pages.isEmpty then go else waitData c probeTime [] go

/-- CPDRAIN (R298, R141). -/
def slotCpdrain (ch : ChNo) : Slot :=
  engSlotR [] fun c s =>
    match s.drain .core ch with
    | .bad i _ =>
      match c.s0.drain .core ch with
      | .bad _ u => .late u i
      | .wait => .trap i
      | .done _ => .trap i
    | .wait => .stall c.s0
    | .done u => okR u

/-- CPSTAT (R299). -/
def slotCpstat (ch : ChNo) (d : SReg) : Slot :=
  engSlot [] fun c s => okR (s.mapTile fun t => t.write (.sreg d) (c.pre.cpstat ch))

/-- The word of an end of the focus tile. -/
def Tile.endWord (t : Tile) (k : EndNo) : Word := t.ends[k.val]

/-- Whether a pending engine error is one of a failed circuit (R288). -/
def Tile.circErr (t : Tile) (k : EndNo) : Bool :=
  let e := t.engerr.toNat
  (fld e 52 4 == 3 || fld e 52 4 == 4) && fld e 36 16 == k.val

/-- The rows of a send end not yet acknowledged (R301). -/
def State.unacked (s : State) (k : EndNo) : Nat := (s.rows.filter fun m => m.src == s.tile.id && m.send == k).length

/-- The most unacknowledged rows of a send end (R301). -/
def sendMax : Nat := 32

/-- Put a row on its circuit (R301, R155, R417): it counts in tl. -/
def State.sendRow (s : State) (k : EndNo) (v : Row) (queue : Bool) : State :=
  let d := (s.tile.spec.map (·.depth)).getD 0
  let m : RowMsg := { src := s.tile.id, send := k, cells := v, depth := d, isQueue := queue }
  { s with
    rows := s.rows ++ [s.launchRow (s.tile.endWord k) m (s.rowFree s.tile.id k)]
    tile := s.tile.count .tl }

/-- A send on a circuit end, its row found by a function (R301). -/
def sendSlot (k : EndNo) (reads : List Site) (queue : Bool) (row : Ctx → State → (State → Row → SlotR) → SlotR) : Slot :=
  { engSlot reads fun c s =>
      let w := c.pre.endWord k
      if !endValid w || endRecv w then trapR .circuitUnbound
      else
        row c s fun u v =>
          if sendMax ≤ s.unacked k || ctrMax ≤ c.pre.ctl then .stall c.s0 else okR (u.sendRow k v queue)
    with meets := fun s => s.tile.circErr k }

/-- QSEND (R301): its pop comes before the reservations of its bundle (R84). -/
def slotQsend (q : QReg) (k : EndNo) : Slot :=
  { sendSlot k [] true fun c s go =>
      match s.tile.popQ q with
      | .under => trapR .queueUnderflow
      | .later => .stall c.s0
      | .failed => trapR .remoteBeat
      | .got e t => go { s with tile := t } e.cells
    with early := some q }

/-- The bytes of a row on a circuit. -/
def rowSize : Nat := 256

/-- A row from 256 bytes. -/
def rowOf (bs : List Byte) : Row := Vector.ofFn fun i => BitVec.ofNat 32 (leNat ((bs.drop (4 * i.val)).take 4))

/-- CSEND (R301). -/
def slotCsend (k : EndNo) (a : SReg) : Slot :=
  sendSlot k [.sreg a] false fun c s go =>
    let x := (c.pre.sreg a).toNat
    match accessCheck c .spOnly 4 x rowSize with
    | some e => addrR e x
    | none =>
      match memPrep c.s0 s false [(x, x + rowSize)] with
      | .trap i => .trap i
      | .stall u => .stall u
      | .ok u => go u (rowOf (u.coreBytes x rowSize))

/-- The oldest row at a receive end (R301). -/
def Tile.oldestRow (t : Tile) (k : EndNo) : Option CircRow := t.recvRows.find? fun r => r.cend == k

/-- What a receive finds (R302, R155). -/
inductive RecvR where
  | nothing
  | limit
  | begin (s : State)
  | row (s : State) (r : CircRow)

/-- Remove the first row of an end. -/
def dropRow (k : EndNo) : List CircRow → List CircRow
  | [] => []
  | r :: l => if r.cend = k then l else r :: dropRow k l

/-- Take a row, noting it and its sender in a speculation (R155, R158). -/
def Tile.takeRow (t : Tile) (k : EndNo) (r : CircRow) : Tile :=
  let note := fun (p : Spec) =>
    match r.spec with
    | none => { p with rows := p.rows ++ [r] }
    | some (i, d) => { p with rows := p.rows ++ [r], depth := max p.depth (d + 1), deps := i :: p.deps.filter fun j => j != i }
  { t with recvRows := dropRow k t.recvRows, spec := t.spec.map note }

/-- The deepest speculation (R155). -/
def depthMax : Nat := 3

/-- A speculation that begins at a receive depends on the row's sender (R155). -/
def State.dependOn (s : State) (i : TileId) : State :=
  s.mapTile fun t => { t with spec := t.spec.map fun p => { p with deps := [i] } }

/-- Look for a row at a receive end: whether it is there for this task, and what taking it begins (R155). -/
def State.receive (s : State) (k : EndNo) : RecvR :=
  match s.tile.oldestRow k with
  | none => .nothing
  | some r =>
    match r.spec with
    | none => .row (s.mapTile fun t => t.takeRow k r) r
    | some (i, d) =>
      -- DESIGN CHOICE (log 25): a depth beyond 3 is looked at before the budget
      let own := (s.tile.spec.map (·.depth)).getD 0
      if !s.tile.task.any (·.mayspec) then .nothing
      else if depthMax < max own (d + 1) then .limit
      else if s.tile.spec.isSome then .row (s.mapTile fun t => t.takeRow k r) r
      else
        match s.team with
        | none => .nothing
        | some tm => if s.hasRoom tm.rcb 11 (specLimit s) 1 then .begin ((s.beginSpec (d + 1)).dependOn i) else .nothing

/-- Put a received row into scratchpad: held in speculation but for slots acquired since its point (R287, R151). -/
def recvStore (c : Ctx) (s : State) (x : Nat) (bs : List Byte) (k : State → SlotR) : SlotR :=
  match memPrep c.s0 s true [(x, x + bs.length)] with
  | .trap i => .trap i
  | .stall u => .stall u
  | .ok u =>
    match u.tile.spec with
    | none => k (u.performStore x bs)
    | some p =>
      match u.specStores c.pc p [(x, bs)] with
      | none => .resolve
      | some (v, _) => k v

/-- A receive: absent says what happens where no row is present, done what a row does beside its write (R302). -/
def recvSlot (k : EndNo) (a : SReg) (reads : List Site) (absent : Ctx → State → SlotR) (done : State → SlotR) : Slot :=
  engSlot reads fun c s =>
    let w := c.pre.endWord k
    if !endValid w || !endRecv w then trapR .circuitUnbound
    else
      let x := (c.pre.sreg a).toNat
      match accessCheck c .spOnly 4 x rowSize with
      | some e => addrR e x
      | none =>
        match s.receive k with
        | .nothing => absent c s
        | .limit => trapR .specLimit
        | .begin _ =>
          match c.s0.receive k with
          | .begin u => .stall u
          | .nothing => .stall c.s0
          | .limit => .stall c.s0
          | .row _ _ => .stall c.s0
        | .row u r => recvStore c u x (rowBytes r.cells 64) done

/-- CRECV (R302). -/
def slotCrecv (k : EndNo) (a : SReg) : Slot := recvSlot k a [.sreg a] (fun c _ => .stall c.s0) okR

/-- CRECV.t (R302). -/
def slotCrecvT (k : EndNo) (d a : SReg) : Slot :=
  { recvSlot k a [.sreg a] (fun _ s => okR (s.mapTile fun t => t.write (.sreg d) 0)) fun s =>
      okR (s.mapTile fun t => t.write (.sreg d) 1)
    with prompt := true }

/-- LEN, CLU and CNT of a put word (R303). -/
def putLen (w : Word) : Nat := fld w.toNat 0 21
def putClu (w : Word) : Nat := fld w.toNat 39 6
def putCnt (w : Word) : Nat := fld w.toNat 31 8
def putDev (w : Word) : Nat := fld w.toNat 45 19

/-- Whether a put word is well formed (R303). -/
def putOk (w : Word) : Bool :=
  fld w.toNat 21 10 == 0 && decide (4 ≤ putLen w) && decide (putLen w ≤ 2 ^ 20) && putLen w % 4 == 0
    && decide (putClu w ≤ 47)

/-- Whether [a, a + n) leaves scratchpad and slice memory, or touches a map window (R303, R305). -/
def Tile.offLocal (t : Tile) (a n : Nat) : Bool :=
  let inside := fun (lo hi : Nat) => decide (lo ≤ a) && decide (a + n ≤ hi)
  !(inside 0 0x180000 || inside 0x400000 0xC00000) || !(t.winLines a (a + n)).isEmpty

/-- What reading the source of a put or a collective meets at issue: a slot that the tile core may not read (R61, log 28), an
uncorrectable error (R263); a predicted slot is read as its shadow slot (R150). -/
def State.sourceTrap (s : State) (a n : Nat) : Option TrapInfo :=
  if regionOf a == .sp && s.tile.slotsVerdict .core false a (a + n) == .bad then some (trapOf .bufferState)
  else (s.sourceBad a n).map fun k => { cause := .spUncorrectable, val := line64 k }

/-- Send a counted put on its way (R142, R303): its pages counted (R386), its data as it stands unless an earlier job still holds
it up (R140). -/
def State.putc (s : State) (k : SemNo) (d a b : Word) (pages : List Page) : State :=
  let n := putLen b
  let id := s.tile.jobCtr
  let fs : List Foot := [⟨id, a.toNat, a.toNat + n, false, false, false, false⟩, ⟨id, d.toNat, d.toNat + n, true, true, false, false⟩]
  let data := if s.tile.heldUp id fs then none else some (s.sourceBytes a.toNat n)
  let shadow := if data.isSome then [] else s.shadowCells a.toNat n
  let s := s.countPages pages
  { s with
    puts := s.puts ++ [{ src := s.tile.id, job := id, sem := k, word := b, lo := a.toNat, pages := pages, data := data, shadow := shadow }]
    tile := { (s.tile.count .tl) with jobCtr := id + 1, feet := s.tile.feet ++ fs } }

/-- PUTC (R303, R151). -/
def slotPutc (k : SemNo) (d a b : SReg) : Slot :=
  engSlot [.sreg d, .sreg a, .sreg b] fun c s =>
    let w := c.pre.sreg b
    let n := putLen w
    let x := (c.pre.sreg a).toNat
    let y := (c.pre.sreg d).toNat
    if !putOk w then trapR .engineState
    else
      match localCheck c.pre.priv 4 x n with
      | some e => addrR e x
      | none =>
        if c.pre.offLocal x n then addrR .addressRange x
        else
          match (s.sourceTrap x n).map Except.error |>.getD (probeBox s .write y (y + n)) with
          | .error e => .trap e
          | .ok (u, ps) =>
            waitData c probeTime [] <|
              match s.tile.spec with
              | some p =>
                let h := HeldOp.putc k (c.pre.sreg d) (c.pre.sreg a) w ps
                if p.fits h then okR (u.mapTile fun t => t.hold c.pc h) else .resolve
              | none =>
                if ctrMax ≤ c.pre.ctl then .stall c.s0
                else okR (u.putc k (c.pre.sreg d) (c.pre.sreg a) w ps)

/-- GID, NCH, FMT, MODE and NEL of a collective word (R305). -/
def colGid (w : Word) : Fin 65536 := Fin.ofNat 65536 (fld w.toNat 48 16)
def colNch (w : Word) : Nat := fld w.toNat 44 4
def colFmt (w : Word) : Nat := fld w.toNat 40 4
def colMode (w : Word) : Nat := fld w.toNat 38 2
def colNel (w : Word) : Nat := fld w.toNat 0 32

/-- The MX formats of a collective (R305). -/
def colMx (f : Nat) : Bool := f == 6 || f == 7 || f == 9 || f == 10

/-- The bytes of a member's elements, without its scales (R305, R103). -/
def colElemBytes (w : Word) : Nat := (colNel w * (tagShape (colFmt w)).2 + 7) / 8

/-- The bytes of a member's source (R305). -/
def colSrcBytes (w : Word) : Nat := colElemBytes w + (if colMx (colFmt w) then (colNel w + 31) / 32 else 0)

/-- The group that a task's bind record grants it (R304, R419). -/
def State.group (s : State) (g : Fin 65536) : Option Group := s.team.bind fun k => k.groups.find? fun x => x.gid == g

/-- The logical tile of the focus tile in the team of its task; none where the task was stolen. -/
def Tile.ownLtile (t : Tile) : Option (Fin 16) := if t.task.any (·.stolen) then none else t.team.map (·.2)

/-- The rank of a member (R419). -/
def Group.rank (g : Group) (k : Fin 16) : Nat :=
  g.rank0 + ((List.range k.val).filter fun i => g.tmask.testBit i).length

/-- The group and rank of the focus tile's task where it is a member of the declaration. -/
def State.member (s : State) (g : Fin 65536) : Option (Group × Nat) :=
  match s.group g, s.tile.ownLtile with
  | some x, some k => if x.tmask.testBit k.val then some (x, x.rank k) else none
  | _, _ => none

/-- The collectives of a tile on a group still counting in tl (R306). -/
def State.colOut (s : State) (g : Fin 65536) : Nat :=
  (s.colls.filter fun c => c.gid == g && c.members.any fun m => m.tile == s.tile.id && !m.out).length

/-- The group status (R306); SIZE and RANK are 0 where the task is no member of a granted group. -/
def State.gstat (s : State) (g : Fin 65536) : Word :=
  let x := s.member g
  let task := fun (f : Task → List (Fin 65536)) => (s.tile.task.any fun k => (f k).contains g).toNat
  BitVec.ofNat 64 (task (·.joined) * 2 ^ 63 + task (·.aborted) * 2 ^ 62 + s.colOut g % 256 * 2 ^ 40
    + (x.map (·.1.size)).getD 0 * 2 ^ 24 + (x.map (·.2)).getD 0)

/-- The group that a register names (R304, R306). -/
def groupOf (v : Word) : Fin 65536 := Fin.ofNat 65536 (fld v.toNat 0 16)

/-- GJOIN (R304, R287). -/
def slotGjoin (d a : SReg) : Slot :=
  engSlotR [.sreg a] fun c s =>
    let v := c.pre.sreg a
    let g := groupOf v
    if fld v.toNat 16 48 != 0 then trapR .engineState
    else if (c.s0.member g).isNone then trapR .collectiveMismatch
    else if c.pre.task.any fun k => k.joined.contains g then trapR .engineState
    else
      let u := s.mapTile fun t => { t with task := t.task.map fun k => { k with joined := k.joined ++ [g] } }
      okR (u.mapTile fun t => t.write (.sreg d) (u.gstat g))

/-- Whether a member writes its destination (R305). -/
def colWrites (w : Word) (rank : Nat) : Bool := colMode w == 0 || rank == 0

/-- Add a member to the first collective of its group that it has not joined yet: its k-th GRED joins the k-th (R305). -/
def addMember (g : Fin 65536) (m : Member) : List Coll → List Coll
  | [] => [{ gid := g, members := [m] }]
  | c :: l =>
    if c.gid = g ∧ !c.members.any (fun x => x.team == m.team && x.ltile == m.ltile) then
      { c with members := c.members ++ [m] } :: l
    else c :: addMember g m l

/-- The elements of a chunk (R305): its first element and the one after its last. -/
def chunkSpan (w : Word) (c : Nat) : Nat × Nat :=
  let n := colNel w
  let cs := 32 * ((n + 32 * (colNch w + 1) - 1) / (32 * (colNch w + 1)))
  (min n (c * cs), min n ((c + 1) * cs))

/-- A member counts a chunk: 1 on its semaphore, or SEM_OVERFLOW recorded (R143, R305). -/
def State.countChunk (s : State) (m : Member) (chunk : Fin 16) : State :=
  let k : SemNo := Fin.ofNat 64 (m.sem.val + chunk.val)
  let home := (((s.tileAt m.tile).task.bind fun x => s.findTeam x.team).map (·.home)).getD m.tile.cl
  let c := s.clusters[home.val]
  if 65535 < (c.sems[k.val]).val.val + 1 then
    let t := s.tileAt m.tile
    s.setTile (t.engErr .semOverflow 2 (colGid m.word).val)
  else ({ s with clusters := s.clusters.set home.val (c.addSem k 1) } : State).knock home

/-- The chunks of a collective that have no elements (R305). -/
def emptyChunks (w : Word) : List (Fin 16) :=
  (List.finRange 16).filter fun k => decide (k.val ≤ colNch w) && (chunkSpan w k.val).1 == (chunkSpan w k.val).2

/-- Issue a member's part of a collective (R305): it counts in tl, its edges hold from here. -/
def State.gred (s : State) (k : SemNo) (d a w : Word) : State :=
  match s.tile.task, s.member (colGid w), s.tile.ownLtile with
  | some x, some (g, r), some lt =>
    let id := s.tile.jobCtr
    let n := colSrcBytes w
    let fs : List Foot := ⟨id, a.toNat, a.toNat + n, false, false, false, false⟩
      :: (if colWrites w r then [⟨id, d.toNat, d.toNat + 4 * colNel w, false, true, true, false⟩] else [])
    let data := if s.tile.heldUp id fs then none else some (s.sourceBytes a.toNat n)
    let m : Member :=
      { tile := s.tile.id, team := x.team, ltile := lt, rank := r, size := g.size, sem := k, word := w, src := a.toNat
        dst := d.toNat, job := id, data := data, shadow := if data.isSome then [] else s.shadowCells a.toNat n }
    { s with
      colls := addMember g.gid m s.colls
      tile := { (s.tile.count .tl) with jobCtr := id + 1, feet := s.tile.feet ++ fs } }
  | _, _, _ => s

/-- The traps of GRED in their order (R305). -/
def gredTrap (c : Ctx) (s : State) (k : SemNo) (x y : Nat) (w : Word) : Option TrapInfo :=
  let n := colSrcBytes w
  let f := colFmt w
  let at' := fun (e : Cause) (a : Nat) => some (addrTrap e a)
  if decide (1 < colMode w) || fld w.toNat 32 6 != 0 || colNel w == 0
      || !c.pre.task.any (fun t => t.joined.contains (colGid w)) then some (trapOf .engineState)
  else if !(f == 1 || f == 3 || f == 4 || colMx f) || (colMx f && colNel w % 32 != 0) then some (trapOf .groutFormat)
  else if !(List.range (colNch w + 1)).all (fun i =>
      decide (k.val + i < 64) && s.semMine (Fin.ofNat 64 (k.val + i))) then some (trapOf .semIndex)
  else if c.pre.offLocal x n then at' .addressRange x
  else if c.pre.offLocal y (4 * colNel w) then at' .addressRange y
  else
    match localCheck c.pre.priv 4 x n, localCheck c.pre.priv 4 y (4 * colNel w) with
    | some e, _ => at' e x
    | none, some e => at' e y
    | none, none =>
      if (s.member (colGid w)).any (fun g => colWrites w g.2) && regionOf y == .sp && s.tile.slotsVerdict .core true y (y + 4 * colNel w) == .bad then some (trapOf .bufferState)
      else s.sourceTrap x n

/-- GRED (R305, R151). -/
def slotGred (k : SemNo) (d a b : SReg) : Slot :=
  engSlot [.sreg d, .sreg a, .sreg b] fun c s =>
    let w := c.pre.sreg b
    match gredTrap c s k (c.pre.sreg a).toNat (c.pre.sreg d).toNat w with
    | some e => .trap e
    | none =>
      match s.tile.spec with
      | some p =>
        let h := HeldOp.gred k (c.pre.sreg d) (c.pre.sreg a) w
        if p.fits h then okR (s.mapTile fun t => t.hold c.pc h) else .resolve
      | none => if ctrMax ≤ c.pre.ctl then .stall c.s0 else okR (s.gred k (c.pre.sreg d) (c.pre.sreg a) w)

/-- GSTAT (R306). -/
def slotGstat (d a : SReg) : Slot :=
  engSlot [.sreg a] fun c s => okR (s.mapTile fun t => t.write (.sreg d) (c.s0.gstat (groupOf (c.pre.sreg a))))

/-- GSTAT.err (R306). -/
def slotGstatErr (d : SReg) : Slot := engSlot [] fun c s => okR (s.mapTile fun t => t.write (.sreg d) c.pre.engerr)

/-- The tile cycles of a shadow write (R147, R149). -/
def Ring.shadowTime (r : Ring) : Nat :=
  engineTime (r.lines * (if fld r.prd.toNat 14 2 == 1 && r.vcnt == 2 then 3 else 2))

/-- Begin speculation at a PRED on a slot (R148 steps 1 to 4). CIDX moves past the slot now; where a BUFTAKE of the same bundle has still
to take the slot before it, the BUFTAKE moves it over both (R178, Tile.take). -/
def State.predict (s : State) (n : Fin 8) (k : Fin 16) : State :=
  let t := s.tile
  let r := t.rings[n.val]
  let s := s.beginSpec 1
  s.mapTile fun u =>
    { (u.setRing n { r with cidx := if r.cidx = k then r.next k else r.cidx }) with
      pslots := u.pslots ++ [(n, k)]
      ahead := if r.cidx = k then none else some (n, k)
      spec := u.spec.map fun p =>
        { p with ring := some n, slot := k, begun := false, shadowDue := t.predictorFree + r.shadowTime } }

/-- PRED (R148, R307), on the slot at CIDX as the memory slot of its bundle leaves the ring (R178). One that has met a filling slot at
version count 0 waits until the slot is full, whatever the count becomes. -/
def slotPred (p : PReg) (n : RingNo) : Slot :=
  engSlot [] fun c s =>
    let yes := fun (u : State) (v : Bool) => okR (u.mapTile fun t => t.write (.pred p) (boolWord v))
    match c.pre.ringNo n.val with
    | none => trapR .bufferIndex
    | some r =>
      let x := s.tile.rings[r.val]
      if !c.pre.task.any (·.mayspec) || !x.pred then trapR .engineState
      else if c.pre.predDone then yes s true
      else
        match c.pre.spec with
        | some q =>
          if !q.begun then
            if q.shadowDone then
              yes (s.mapTile fun t => { t with spec := t.spec.map fun q => { q with begun := true } }) true
            else .stall c.s0
          else
            match x.st[x.cidx.val] with
            | .full =>
              match s.tile.take .core r with
              | .got _ t => yes { s with tile := t } false
              | .notReady => .wait c.s0 (.ring n false)
              | .unresolved => .stall c.s0
            | .empty | .draining => .wait c.s0 (.ring n false)
            | .filling => if x.own[x.cidx.val] == .core then trapR .phaseInSpec else .resolve
        | none =>
          match x.st[x.cidx.val] with
          | .full =>
            match s.tile.take .core r with
            | .got _ t => yes { s with tile := t } false
            | .notReady => .wait c.s0 (.ring n false)
            | .unresolved => .stall c.s0
          | .empty | .draining => .wait c.s0 (if c.pre.wait.any (fun w => w.kind == .full n) then .full n else .ring n false)
          | .filling =>
            if x.own[x.cidx.val] == .core then trapR .phaseInSpec
            else if x.vcnt == 0 || c.pre.wait.any (fun w => w.kind == .full n) then .wait c.s0 (.full n)
            else
              match s.team with
              | none => trapR .specLimit
              | some k =>
                if s.hasRoom k.rcb 11 (specLimit s) 1 then .stall (c.s0.predict r x.cidx) else trapR .specLimit

/-- PSTAT (R307, R161). -/
def slotPstat (d : SReg) : Slot := engSlot [] fun c s => okR (s.mapTile fun t => t.write (.sreg d) c.pre.specst)

/-- RING? (R308). -/
def slotRingQuery (p : PReg) (n : RingNo) (d : SReg) : Slot :=
  engSlot [] fun c s =>
    if h : n.val < 8 then
      let r := c.pre.rings[n.val]
      okR (s.mapTile fun t => (t.write (.sreg d) r.desc).write (.pred p) (boolWord r.valid))
    else trapR .bufferIndex

/-- The first mask of a handle that breaks R86, as 128 · group + column. -/
def State.badMask (s : State) (h : Handle) : Option Nat :=
  ((List.range (h.stored * h.step)).flatMap fun g => (List.range h.rows).map fun c => (g, c)).findSome? fun p =>
    let m := s.maskOf h p.1 p.2
    if decide ((onesOf m).length ≤ h.nOf12) && m / 2 ^ 12 == 0 && (decide (p.1 < h.kgrp) || m == 0) then none
    else some (128 * p.1 + p.2)

/-- SPX.STAT (R309): the masks that it reads are reads of the tile core, with their slot states and first touches (R61, R69). -/
def slotSpxStat (p : PReg) (n : HReg) (d : SReg) : Slot :=
  engSlot [] fun c s =>
    let h := c.pre.handles[n.val]
    let out := fun (u : State) (v : Bool) (w : Word) =>
      okR (u.mapTile fun t => (t.write (.sreg d) w).write (.pred p) (boolWord v))
    if !h.valid then trapR .handleInvalid
    else if h.spn == 0 then out s false 0
    else
      beatPrep c s ((List.range h.stored).flatMap h.maskReads) fun s =>
        waitData c (2 * h.step * h.stored) [] <|
          match c.s0.badMask h with
          | none => out s.spend true (BitVec.allOnes 64)
          | some w => out s.spend false (BitVec.ofNat 64 w)

/-- PROBE (R310). -/
def slotProbe (p : PReg) (d a : SReg) : Slot :=
  engSlot [.sreg a] fun c s =>
    waitData c probeTime [] <|
      let x := c.s0.probe (c.pre.sreg a).toNat
      okR (s.mapTile fun t => (t.write (.sreg d) x.2).write (.pred p) (boolWord x.1))

/-- The bytes from an address to the end of the first leased range that holds it (R311). -/
def leaseLeft (l : List (Nat × Nat)) (va : Nat) : Option Nat :=
  (l.find? fun p => decide (p.1 ≤ va) && decide (va < p.1 + p.2)).map fun p => p.1 + p.2 - va

/-- LEASEQ (R311). -/
def slotLeaseq (p : PReg) (d a : SReg) : Slot :=
  engSlot [.sreg a] fun c s =>
    let x := leaseLeft c.s0.leases (c.pre.sreg a).toNat
    okR (s.mapTile fun t => (t.write (.sreg d) (BitVec.ofNat 64 (x.getD 0))).write (.pred p) (boolWord x.isSome))

/-- The messages of a mailbox (R274). -/
def mbxSize : Nat := 8

/-- The agent with a code (R274). -/
def agentNo (n : Nat) : Option (Fin 3) := if h : n < 3 then some ⟨n, h⟩ else none

/-- Deliver a message (R274). -/
def Tile.post (t : Tile) (a : Fin 3) (v : BitVec 32) : Tile := { t with mbx := t.mbx.set a.val (t.mbx[a.val] ++ [v]) }

/-- MBXS (R312, R130). -/
def slotMbxs (n : Fin 16) (a : SReg) : Slot :=
  engSlotR [.sreg a] fun c s =>
    match agentNo n.val with
    | none => trapR .engineState
    | some k =>
      if mbxSize ≤ (s.tile.mbx[k.val]).length then .stall c.s0
      else okR (s.tileRelease.mapTile fun t => t.post k ((c.pre.sreg a).setWidth 32))

/-- MBXR (R312). -/
def slotMbxr (d : SReg) : Slot :=
  engSlotR [] fun c s =>
    match s.tile.mbx[0] with
    | [] => .wait c.s0 .mailbox
    | v :: l => okR (s.mapTile fun t => { t with mbx := t.mbx.set 0 l }.write (.sreg d) (v.setWidth 64))

/-- MBXR.t (R312). -/
def slotMbxrT (p : PReg) (d : SReg) : Slot :=
  engSlotR [] fun _ s =>
    match s.tile.mbx[0] with
    | [] => okR (s.mapTile fun t => (t.write (.sreg d) 0).write (.pred p) 0)
    | v :: l =>
      okR (s.mapTile fun t => (({ t with mbx := t.mbx.set 0 l }.write (.sreg d) (v.setWidth 64)).write (.pred p) 1))

def execCpbase (ch : ChNo) (d a b : SReg) (s : State) : Host.Outcome State Fault Refusal :=
  .next (issue1 s (slotCpbase ch d a b))
def execCpnest (ch : ChNo) (l : Fin 8) (d a b : SReg) (s : State) : Host.Outcome State Fault Refusal :=
  .next (issue1 s (slotCpnest ch l d a b))
def execCpfoot (ch : ChNo) (k : Fin 8) (a b : SReg) (s : State) : Host.Outcome State Fault Refusal :=
  .next (issue1 s (slotCpfoot ch k a b))
def execCpgo (ch : ChNo) (s : State) : Host.Outcome State Fault Refusal := .next (issue1 s (slotCpgo ch))
def execCpdrain (ch : ChNo) (s : State) : Host.Outcome State Fault Refusal := .next (issue1 s (slotCpdrain ch))
def execCpstat (ch : ChNo) (d : SReg) (s : State) : Host.Outcome State Fault Refusal :=
  .next (issue1 s (slotCpstat ch d))
def execQsend (q : QReg) (k : EndNo) (s : State) : Host.Outcome State Fault Refusal := .next (issue1 s (slotQsend q k))
def execCsend (k : EndNo) (a : SReg) (s : State) : Host.Outcome State Fault Refusal := .next (issue1 s (slotCsend k a))
def execCrecv (k : EndNo) (a : SReg) (s : State) : Host.Outcome State Fault Refusal := .next (issue1 s (slotCrecv k a))
def execCrecvT (k : EndNo) (d a : SReg) (s : State) : Host.Outcome State Fault Refusal :=
  .next (issue1 s (slotCrecvT k d a))
def execPutc (k : SemNo) (d a b : SReg) (s : State) : Host.Outcome State Fault Refusal :=
  .next (issue1 s (slotPutc k d a b))
def execGjoin (d a : SReg) (s : State) : Host.Outcome State Fault Refusal := .next (issue1 s (slotGjoin d a))
def execGred (k : SemNo) (d a b : SReg) (s : State) : Host.Outcome State Fault Refusal :=
  .next (issue1 s (slotGred k d a b))
def execGstat (d a : SReg) (s : State) : Host.Outcome State Fault Refusal := .next (issue1 s (slotGstat d a))
def execGstatErr (d : SReg) (s : State) : Host.Outcome State Fault Refusal := .next (issue1 s (slotGstatErr d))
def execPred (p : PReg) (n : RingNo) (s : State) : Host.Outcome State Fault Refusal := .next (issue1 s (slotPred p n))
def execPstat (d : SReg) (s : State) : Host.Outcome State Fault Refusal := .next (issue1 s (slotPstat d))
def execRingQuery (p : PReg) (n : RingNo) (d : SReg) (s : State) : Host.Outcome State Fault Refusal :=
  .next (issue1 s (slotRingQuery p n d))
def execSpxStat (p : PReg) (n : HReg) (d : SReg) (s : State) : Host.Outcome State Fault Refusal :=
  .next (issue1 s (slotSpxStat p n d))
def execProbe (p : PReg) (d a : SReg) (s : State) : Host.Outcome State Fault Refusal :=
  .next (issue1 s (slotProbe p d a))
def execLeaseq (p : PReg) (d a : SReg) (s : State) : Host.Outcome State Fault Refusal :=
  .next (issue1 s (slotLeaseq p d a))
def execMbxs (n : Fin 16) (a : SReg) (s : State) : Host.Outcome State Fault Refusal := .next (issue1 s (slotMbxs n a))
def execMbxr (d : SReg) (s : State) : Host.Outcome State Fault Refusal := .next (issue1 s (slotMbxr d))
def execMbxrT (p : PReg) (d : SReg) (s : State) : Host.Outcome State Fault Refusal := .next (issue1 s (slotMbxrT p d))

end Sys2Proof.Machine
end

