-- ==== Sys2Proof/Machine/Rv32.lean ====
section
/-! DEFINITION. RV32IMC as the loader and storer cores run it (R271): its decoding and its arithmetic, taken from the RISC-V
base documents that the spec names (log 15), and the custom-0 extension (R273). -/

namespace Sys2Proof.Machine

/-- A word of a loader or storer core. -/
abbrev RvWord := BitVec 32

/-- The arithmetic of OP and OP-IMM and of the M extension. -/
inductive RvAlu where
  | add | sub | sll | slt | sltu | xor | srl | sra | or | and
  | mul | mulh | mulhsu | mulhu | div | divu | rem | remu
  deriving DecidableEq, Repr, Inhabited

/-- The branch conditions. -/
inductive RvCond where
  | eq | ne | lt | ge | ltu | geu
  deriving DecidableEq, Repr, Inhabited

/-- A decoded instruction of a loader or storer core. -/
inductive RvOp where
  | lui (rd : XReg) (imm : RvWord)
  | auipc (rd : XReg) (imm : RvWord)
  | jal (rd : XReg) (off : RvWord)
  | jalr (rd rs : XReg) (off : RvWord)
  | branch (c : RvCond) (a b : XReg) (off : RvWord)
  | load (bytes : Nat) (signed : Bool) (rd rs : XReg) (off : RvWord)
  | store (bytes : Nat) (rs src : XReg) (off : RvWord)
  | aluI (o : RvAlu) (rd rs : XReg) (imm : RvWord)
  | alu (o : RvAlu) (rd a b : XReg)
  | vl (i : Instr)
  deriving DecidableEq, Repr, Inhabited

/-- A field of a word as a register. -/
def xAt (w lo : Nat) : XReg := finAt 32 w lo

/-- A sign-extended immediate of n bits. -/
def rvS (n v : Nat) : RvWord := BitVec.ofInt 32 (sextNat v n)

def rvCondOf (f3 : Nat) : Option RvCond :=
  match f3 with
  | 0 => some .eq
  | 1 => some .ne
  | 4 => some .lt
  | 5 => some .ge
  | 6 => some .ltu
  | 7 => some .geu
  | _ => none

/-- The base operation of a funct3, f7 being 0. -/
def rvBase (f3 : Nat) : RvAlu :=
  match f3 with
  | 0 => .add
  | 1 => .sll
  | 2 => .slt
  | 3 => .sltu
  | 4 => .xor
  | 5 => .srl
  | 6 => .or
  | _ => .and

/-- The M operation of a funct3. -/
def rvMul (f3 : Nat) : RvAlu :=
  match f3 with
  | 0 => .mul
  | 1 => .mulh
  | 2 => .mulhsu
  | 3 => .mulhu
  | 4 => .div
  | 5 => .divu
  | 6 => .rem
  | _ => .remu

/-- The bytes and the sign of a load's funct3. -/
def rvLoad (f3 : Nat) : Option (Nat × Bool) :=
  match f3 with
  | 0 => some (1, true)
  | 1 => some (2, true)
  | 2 => some (4, false)
  | 4 => some (1, false)
  | 5 => some (2, false)
  | _ => none

/-- A 32-bit instruction; FENCE, FENCE.I, ECALL, EBREAK and Zicsr have no decoding (R271). -/
def rvDecode32 (w : Nat) : Option RvOp :=
  let rd := xAt w 7
  let rs1 := xAt w 15
  let rs2 := xAt w 20
  let f3 := fld w 12 3
  let f7 := fld w 25 7
  let immI := rvS 12 (fld w 20 12)
  match fld w 0 7 with
  | 0x37 => some (.lui rd (BitVec.ofNat 32 (fld w 12 20 * 2 ^ 12)))
  | 0x17 => some (.auipc rd (BitVec.ofNat 32 (fld w 12 20 * 2 ^ 12)))
  | 0x6F =>
    some (.jal rd (rvS 21 (fld w 31 1 * 2 ^ 20 + fld w 12 8 * 2 ^ 12 + fld w 20 1 * 2 ^ 11 + fld w 21 10 * 2)))
  | 0x67 => if f3 = 0 then some (.jalr rd rs1 immI) else none
  | 0x63 =>
    (rvCondOf f3).map fun c =>
      .branch c rs1 rs2 (rvS 13 (fld w 31 1 * 2 ^ 12 + fld w 7 1 * 2 ^ 11 + fld w 25 6 * 2 ^ 5 + fld w 8 4 * 2))
  | 0x03 => (rvLoad f3).map fun p => .load p.1 p.2 rd rs1 immI
  | 0x23 =>
    let off := rvS 12 (fld w 25 7 * 2 ^ 5 + fld w 7 5)
    if f3 ≤ 2 then some (.store (2 ^ f3) rs1 rs2 off) else none
  | 0x13 =>
    match f3 with
    | 1 => if f7 = 0 then some (.aluI .sll rd rs1 (BitVec.ofNat 32 (fld w 20 5))) else none
    | 5 =>
      if f7 = 0 then some (.aluI .srl rd rs1 (BitVec.ofNat 32 (fld w 20 5)))
      else if f7 = 0x20 then some (.aluI .sra rd rs1 (BitVec.ofNat 32 (fld w 20 5)))
      else none
    | _ => some (.aluI (rvBase f3) rd rs1 immI)
  | 0x33 =>
    if f7 = 0 then some (.alu (rvBase f3) rd rs1 rs2)
    else if f7 = 1 then some (.alu (rvMul f3) rd rs1 rs2)
    else if f7 = 0x20 ∧ f3 = 0 then some (.alu .sub rd rs1 rs2)
    else if f7 = 0x20 ∧ f3 = 5 then some (.alu .sra rd rs1 rs2)
    else none
  | 0x0B => (decodeVl w).map RvOp.vl
  | _ => none

/-- A register x8-x15 of a compressed instruction. -/
def xC (w lo : Nat) : XReg := Fin.ofNat 32 (8 + fld w lo 3)

/-- Compressed quadrant 0. -/
def rvC0 (w : Nat) : Option RvOp :=
  let offW := BitVec.ofNat 32 (fld w 5 1 * 2 ^ 6 + fld w 10 3 * 2 ^ 3 + fld w 6 1 * 2 ^ 2)
  match fld w 13 3 with
  | 0 =>
    let imm := fld w 7 4 * 2 ^ 6 + fld w 11 2 * 2 ^ 4 + fld w 5 1 * 2 ^ 3 + fld w 6 1 * 2 ^ 2
    if imm = 0 then none else some (.aluI .add (xC w 2) 2 (BitVec.ofNat 32 imm))
  | 2 => some (.load 4 false (xC w 2) (xC w 7) offW)
  | 6 => some (.store 4 (xC w 7) (xC w 2) offW)
  | _ => none

/-- The offset of C.J and C.JAL. -/
def rvCj (w : Nat) : RvWord :=
  rvS 12 (fld w 12 1 * 2 ^ 11 + fld w 8 1 * 2 ^ 10 + fld w 9 2 * 2 ^ 8 + fld w 6 1 * 2 ^ 7 + fld w 7 1 * 2 ^ 6
    + fld w 2 1 * 2 ^ 5 + fld w 11 1 * 2 ^ 4 + fld w 3 3 * 2)

/-- The offset of C.BEQZ and C.BNEZ. -/
def rvCb (w : Nat) : RvWord :=
  rvS 9 (fld w 12 1 * 2 ^ 8 + fld w 5 2 * 2 ^ 6 + fld w 2 1 * 2 ^ 5 + fld w 10 2 * 2 ^ 3 + fld w 3 2 * 2)

/-- Compressed quadrant 1. -/
def rvC1 (w : Nat) : Option RvOp :=
  let rd := xAt w 7
  let imm6 := fld w 12 1 * 2 ^ 5 + fld w 2 5
  match fld w 13 3 with
  | 0 => some (.aluI .add rd rd (rvS 6 imm6))
  | 1 => some (.jal 1 (rvCj w))
  | 2 => some (.aluI .add rd 0 (rvS 6 imm6))
  | 3 =>
    if imm6 = 0 then none
    else if rd = 2 then
      some (.aluI .add 2 2 (rvS 10 (fld w 12 1 * 2 ^ 9 + fld w 3 2 * 2 ^ 7 + fld w 5 1 * 2 ^ 6 + fld w 2 1 * 2 ^ 5
        + fld w 6 1 * 2 ^ 4)))
    else some (.lui rd (BitVec.ofInt 32 (sextNat imm6 6 * 2 ^ 12)))
  | 4 =>
    let r := xC w 7
    match fld w 10 2 with
    | 0 => if fld w 12 1 = 0 then some (.aluI .srl r r (BitVec.ofNat 32 imm6)) else none
    | 1 => if fld w 12 1 = 0 then some (.aluI .sra r r (BitVec.ofNat 32 imm6)) else none
    | 2 => some (.aluI .and r r (rvS 6 imm6))
    | _ =>
      if fld w 12 1 = 0 then
        some (.alu (match fld w 5 2 with
          | 0 => .sub
          | 1 => .xor
          | 2 => .or
          | _ => .and) r r (xC w 2))
      else none
  | 5 => some (.jal 0 (rvCj w))
  | 6 => some (.branch .eq (xC w 7) 0 (rvCb w))
  | _ => some (.branch .ne (xC w 7) 0 (rvCb w))

/-- Compressed quadrant 2; C.EBREAK has no decoding (R271). -/
def rvC2 (w : Nat) : Option RvOp :=
  let rd := xAt w 7
  let rs := xAt w 2
  match fld w 13 3 with
  | 0 => if fld w 12 1 = 0 then some (.aluI .sll rd rd (BitVec.ofNat 32 (fld w 2 5))) else none
  | 2 =>
    if rd = 0 then none
    else some (.load 4 false rd 2 (BitVec.ofNat 32 (fld w 2 2 * 2 ^ 6 + fld w 12 1 * 2 ^ 5 + fld w 4 3 * 2 ^ 2)))
  | 4 =>
    if fld w 12 1 = 0 then
      if rs = 0 then (if rd = 0 then none else some (.jalr 0 rd 0)) else some (.alu .add rd 0 rs)
    else if rs = 0 then (if rd = 0 then none else some (.jalr 1 rd 0))
    else some (.alu .add rd rd rs)
  | 6 => some (.store 4 2 rs (BitVec.ofNat 32 (fld w 7 2 * 2 ^ 6 + fld w 9 4 * 2 ^ 2)))
  | _ => none

/-- An instruction from its first 32 bits: its length in bytes and its operation. -/
def rvDecode (w : Nat) : Nat × Option RvOp :=
  match fld w 0 2 with
  | 0 => (2, rvC0 (w % 2 ^ 16))
  | 1 => (2, rvC1 (w % 2 ^ 16))
  | 2 => (2, rvC2 (w % 2 ^ 16))
  | _ => (4, rvDecode32 w)

/-- The arithmetic of a width. A division by zero gives all ones or the dividend; the overflowing division gives the dividend
or 0. -/
def rvAlu {n : Nat} (o : RvAlu) (a b : BitVec n) : BitVec n :=
  match o with
  | .add => a + b
  | .sub => a - b
  | .sll => a <<< (b.toNat % n)
  | .slt => BitVec.ofNat n (a.slt b).toNat
  | .sltu => BitVec.ofNat n (a.ult b).toNat
  | .xor => a ^^^ b
  | .srl => a >>> (b.toNat % n)
  | .sra => a.sshiftRight (b.toNat % n)
  | .or => a ||| b
  | .and => a &&& b
  | .mul => a * b
  | .mulh => BitVec.ofInt n (a.toInt * b.toInt / 2 ^ n)
  | .mulhsu => BitVec.ofInt n (a.toInt * (b.toNat : Int) / 2 ^ n)
  | .mulhu => BitVec.ofNat n (a.toNat * b.toNat / 2 ^ n)
  | .div => if b = 0 then BitVec.allOnes n else BitVec.ofInt n (a.toInt.tdiv b.toInt)
  | .divu => if b = 0 then BitVec.allOnes n else BitVec.ofNat n (a.toNat / b.toNat)
  | .rem => if b = 0 then a else BitVec.ofInt n (a.toInt.tmod b.toInt)
  | .remu => if b = 0 then a else BitVec.ofNat n (a.toNat % b.toNat)

/-- A branch condition. -/
def rvCond {n : Nat} (c : RvCond) (a b : BitVec n) : Bool :=
  match c with
  | .eq => a == b
  | .ne => a != b
  | .lt => a.slt b
  | .ge => !a.slt b
  | .ltu => a.ult b
  | .geu => !a.ult b

end Sys2Proof.Machine
end

