-- ==== Sys2Proof/Machine/LoaderStorer.lean ====
section
/-! DEFINITION. The loader and storer cores (R271): one instruction of theirs, their accesses to the local map, the custom-0
extension (R273), their faults (R391). -/

namespace Sys2Proof.Machine

/-- The agent that a loader or storer core is. -/
def lsAgentOf (g : LsAgent) : Agent :=
  match g with
  | .loader => .loader
  | .storer => .storer

/-- The owner of ring slots that a loader or storer core is (R60). -/
def lsOwner (g : LsAgent) : Owner := agentOwner (lsAgentOf g)

/-- The mailbox of a loader or storer core (R274). -/
def lsBox (g : LsAgent) : Fin 3 :=
  match g with
  | .loader => 1
  | .storer => 2

/-- A loader or storer core of a tile. -/
def Tile.ls (t : Tile) (g : LsAgent) : LsCore :=
  match g with
  | .loader => t.loader
  | .storer => t.storer

def Tile.setLs (t : Tile) (g : LsAgent) (c : LsCore) : Tile :=
  match g with
  | .loader => { t with loader := c }
  | .storer => { t with storer := c }

/-- A register; x0 reads as 0. -/
def LsCore.reg (c : LsCore) (r : XReg) : RvWord := if r = 0 then 0 else c.x[r.val]

/-- Write a register; a write to x0 is discarded. -/
def LsCore.setReg (c : LsCore) (r : XReg) (v : RvWord) : LsCore := if r = 0 then c else { c with x := c.x.set r.val v }

/-- Change a core of the focus tile. -/
def State.mapLs (s : State) (g : LsAgent) (f : LsCore → LsCore) : State := s.mapTile fun t => t.setLs g (f (t.ls g))

/-- The outcome of one instruction of a loader or storer core: its effect, with the next pc where it jumps; a fault; the
core stays at the instruction. -/
inductive LsR where
  | ok (s : State) (jump : Option RvWord)
  | trap (i : TrapInfo)
  | stay (s : State)

/-- A fault of a loader or storer core at its pc (R391, R393, R394). -/
def lsTrap (c : Cause) : LsR := .trap { cause := c }

/-- The end of an instruction: the pc moves on, or the core stops with its fault until its task ends (R391). -/
def lsEnd (g : LsAgent) (len : Nat) (s : State) (r : LsR) : State :=
  match r with
  | .ok u jump => u.mapLs g fun c => { c with pc := jump.getD (c.pc + BitVec.ofNat 32 len), flagged := 0 }
  | .stay u => u
  | .trap i =>
    s.mapLs g fun c =>
      { c with running := false, failed := true,
               fault := some { i with agent := agentCode (lsAgentOf g), slot := 0, val := c.pc.setWidth 64 } }

/-- The checks of R66 for a loader or storer access: the control window is a hole for them (R271). -/
def lsCheck (n a : Nat) : Option Cause :=
  match localCheck true n a n with
  | some c => some c
  | none => if regionOf a == .ctl then some .windowHole else none

/-- A slice byte as a loader or storer reads it: the stores of the tile that its agents see, then the tile's view (R119,
R130). -/
def State.lsByte (s : State) (a : Nat) : Byte :=
  if regionOf a == .slice then
    let off := a - 0x400000
    (ovGet s.tile.tpub off).getD
      (match s.tile.view.find? fun p => p.1 == off / 64 with
      | some (_, v) => v[off % 64]!
      | none => s.mem.get (sliceKey s.tile.cl off))
  else s.spByte a

def State.lsBytes (s : State) (a : Nat) : Nat → List Byte
  | 0 => []
  | n + 1 => s.lsByte a :: State.lsBytes s (a + 1) n

/-- A store of a loader or storer core, at once at its bank (R271). -/
def State.lsStore (s : State) (a : Nat) (bs : List Byte) : State :=
  s.agentStore a bs

/-- A load of a loader or storer core (R271). -/
def lsLoad (g : LsAgent) (s : State) (n : Nat) (sg : Bool) (rd : XReg) (a : Nat) : LsR :=
  match lsCheck n a with
  | some c => lsTrap c
  | none =>
    match agentPrep (lsOwner g) s s false [(a, a + n)] with
    | .trap i => .trap i
    | .stall u => .stay u
    | .ok u =>
      let u := u.touch a (a + n)
      let v := leNat (u.lsBytes a n)
      .ok (u.mapLs g fun c => c.setReg rd (if sg then rvS (8 * n) v else BitVec.ofNat 32 v)) none

/-- A store of a loader or storer core (R271). -/
def lsWrite (g : LsAgent) (s : State) (n a v : Nat) : LsR :=
  match lsCheck n a with
  | some c => lsTrap c
  | none =>
    match agentPrep (lsOwner g) s s true [(a, a + n)] with
    | .trap i => .trap i
    | .stall u => .stay u
    | .ok u => .ok ((u.touch a (a + n)).lsStore a (leBytes v n)) none

/-- The core that runs an instruction of R273: the one whose turn it is. -/
def State.lsTurn (s : State) : LsAgent :=
  match s.turn with
  | .storer => .storer
  | .loader | .core => .loader

/-- A register of the core that runs. -/
def State.xreg (s : State) (g : LsAgent) (r : XReg) : RvWord := (s.tile.ls g).reg r

/-- A declared ring named by a register (R62, R273). -/
def lsRing (g : LsAgent) (s : State) (rs : XReg) (k : Fin 8 → LsR) : LsR :=
  match s.tile.ringNo (s.xreg g rs).toNat with
  | none => lsTrap .bufferIndex
  | some n => k n

/-- The index and the byte address of a slot, as VL.RACQ and VL.RTAKE give them (R273). -/
def lsSlotWord (t : Tile) (n : Fin 8) (k : Fin 16) : RvWord :=
  BitVec.ofNat 32 (k.val * 2 ^ 24 + (t.rings[n.val]).slotAddr k.val)

/-- Acquire or take a slot (R273, R60). -/
def lsGet (g : LsAgent) (s : State) (rd rs : XReg) (f : Tile → Owner → Fin 8 → RingR) : LsR :=
  lsRing g s rs fun n =>
    match f s.tile (lsOwner g) n with
    | .got k t => .ok ({ s with tile := t }.mapLs g fun c => c.setReg rd (lsSlotWord t n k)) none
    | .notReady => .stay s
    | .unresolved => .stay s

/-- VL.RACQ (R273). -/
def lsRacq (g : LsAgent) (rd rs : XReg) (s : State) : LsR := lsGet g s rd rs Tile.acquire

/-- VL.RTAKE (R273). -/
def lsRtake (g : LsAgent) (rd rs : XReg) (s : State) : LsR := lsGet g s rd rs Tile.take

/-- VL.RPUB (R273, R60, R156). -/
def lsRpub (g : LsAgent) (rs1 rs2 : XReg) (s : State) : LsR :=
  lsRing g s rs1 fun n =>
    match (s.tile.rings[n.val]).slotNo (s.xreg g rs2).toNat with
    | none => lsTrap .bufferIndex
    | some k =>
      if s.tile.mayPublish (lsOwner g) n k then .ok (s.mapTile fun t => t.publish n k) none else lsTrap .bufferState

/-- VL.RFREE (R273, R60, R147). -/
def lsRfree (g : LsAgent) (rs1 rs2 : XReg) (s : State) : LsR :=
  lsRing g s rs1 fun n =>
    match (s.tile.rings[n.val]).slotNo (s.xreg g rs2).toNat with
    | none => lsTrap .bufferIndex
    | some k =>
      if !s.tile.mayFree (lsOwner g) n k then lsTrap .bufferState
      else if s.tile.copying n k then .stay s
      else .ok (s.mapTile fun t => t.freeSlot n k) none

/-- VL.RQ (R273, R260). -/
def lsRq (g : LsAgent) (rd rs1 : XReg) (s : State) : LsR :=
  lsRing g s rs1 fun n => .ok (s.mapLs g fun c => c.setReg rd ((s.tile.bufq n).setWidth 32)) none

/-- A 64-bit word with one 32-bit half replaced. -/
def putHalf (w : Word) (upper : Bool) (v : RvWord) : Word :=
  if upper then BitVec.ofNat 64 (v.toNat * 2 ^ 32 + w.toNat % 2 ^ 32)
  else BitVec.ofNat 64 (w.toNat / 2 ^ 32 * 2 ^ 32 + v.toNat)

/-- VL.CPSET (R273, R289): half k is bits 32·(k mod 2)+31 : 32·(k mod 2) of setup word ⌊k/2⌋. -/
def lsCpset (g : LsAgent) (rs1 : XReg) (k : Fin 32) (ch : ChNo) (s : State) : LsR :=
  if !s.tile.owns (lsAgentOf g) ch then lsTrap .engineState
  else
    let w : Fin 16 := ⟨k.val / 2, by omega⟩
    .ok (s.mapTile fun t =>
      t.putSetup ch w (putHalf (t.setup[ch.val])[w.val] (k.val % 2 == 1) (s.xreg g rs1))) none

/-- The channel that a register names (R273). -/
def lsChan (v : RvWord) : ChNo := Fin.ofNat 4 (fld v.toNat 0 2)

/-- VL.CPGO (R273, R295). -/
def lsCpgo (g : LsAgent) (rs1 : XReg) (s : State) : LsR :=
  let ch := lsChan (s.xreg g rs1)
  match copyChecks s (lsAgentOf g) ch s.tile.setup[ch.val] with
  | .error e => .trap e
  | .ok (u, j) =>
    if chanSize ≤ (s.tile.chans[ch.val]).jobs.length || ctrMax ≤ s.tile.ccp then .stay s
    else .ok (u.enqueueCopy ch j) none

/-- VL.CPDRAIN (R273, R298): a fault clears the error state (R297). -/
def lsCpdrain (g : LsAgent) (rs1 : XReg) (s : State) : LsR × State :=
  match s.drain (lsAgentOf g) (lsChan (s.xreg g rs1)) with
  | .bad i u => (.trap i, u)
  | .wait => (.stay s, s)
  | .done u => (.ok u none, s)

/-- VL.MBXS (R273, R274, R130). -/
def lsMbxs (g : LsAgent) (rs1 rs2 : XReg) (s : State) : LsR :=
  match agentNo (s.xreg g rs1).toNat with
  | none => lsTrap .engineState
  | some k =>
    if mbxSize ≤ (s.tile.mbx[k.val]).length then .stay s
    else .ok (s.mapTile fun t => t.post k (s.xreg g rs2)) none

/-- VL.MBXR (R273, R274). -/
def lsMbxr (g : LsAgent) (rd : XReg) (s : State) : LsR :=
  match s.tile.mbx[(lsBox g).val] with
  | [] => .stay s
  | v :: l => .ok ((s.mapTile fun t => { t with mbx := t.mbx.set (lsBox g).val l }).mapLs g fun c => c.setReg rd v) none

/-- VL.MBXT (R273). -/
def lsMbxt (g : LsAgent) (rd : XReg) (s : State) : LsR :=
  .ok (s.mapLs g fun c => c.setReg rd (BitVec.ofNat 32 (s.tile.mbx[(lsBox g).val]).length)) none

/-- The end of an instruction of R273 on the core whose turn it is. -/
def State.vlEnd (s : State) (f : LsAgent → State → LsR) : State := lsEnd s.lsTurn 4 s (f s.lsTurn s)

def execVlRacq (rd rs1 : XReg) (s : State) : Host.Outcome State Fault Refusal :=
  .next (s.vlEnd fun g => lsRacq g rd rs1)
def execVlRtake (rd rs1 : XReg) (s : State) : Host.Outcome State Fault Refusal :=
  .next (s.vlEnd fun g => lsRtake g rd rs1)
def execVlRpub (rs1 rs2 : XReg) (s : State) : Host.Outcome State Fault Refusal :=
  .next (s.vlEnd fun g => lsRpub g rs1 rs2)
def execVlRfree (rs1 rs2 : XReg) (s : State) : Host.Outcome State Fault Refusal :=
  .next (s.vlEnd fun g => lsRfree g rs1 rs2)
def execVlRq (rd rs1 : XReg) (s : State) : Host.Outcome State Fault Refusal := .next (s.vlEnd fun g => lsRq g rd rs1)
def execVlCpset (rs1 : XReg) (k : Fin 32) (ch : ChNo) (s : State) : Host.Outcome State Fault Refusal :=
  .next (s.vlEnd fun g => lsCpset g rs1 k ch)
def execVlCpgo (rs1 : XReg) (s : State) : Host.Outcome State Fault Refusal := .next (s.vlEnd fun g => lsCpgo g rs1)
def execVlCpdrain (rs1 : XReg) (s : State) : Host.Outcome State Fault Refusal :=
  let r := lsCpdrain s.lsTurn rs1 s
  .next (lsEnd s.lsTurn 4 r.2 r.1)
def execVlMbxs (rs1 rs2 : XReg) (s : State) : Host.Outcome State Fault Refusal :=
  .next (s.vlEnd fun g => lsMbxs g rs1 rs2)
def execVlMbxr (rd : XReg) (s : State) : Host.Outcome State Fault Refusal := .next (s.vlEnd fun g => lsMbxr g rd)
def execVlMbxt (rd : XReg) (s : State) : Host.Outcome State Fault Refusal := .next (s.vlEnd fun g => lsMbxt g rd)

/-- One of the instructions of R273 on a core; no other instruction is one. -/
def lsVl (g : LsAgent) (i : Instr) (s : State) : LsR :=
  match i with
  | .vlRacq rd rs1 => lsRacq g rd rs1 s
  | .vlRtake rd rs1 => lsRtake g rd rs1 s
  | .vlRpub rs1 rs2 => lsRpub g rs1 rs2 s
  | .vlRfree rs1 rs2 => lsRfree g rs1 rs2 s
  | .vlRq rd rs1 => lsRq g rd rs1 s
  | .vlCpset rs1 k ch => lsCpset g rs1 k ch s
  | .vlCpgo rs1 => lsCpgo g rs1 s
  | .vlCpdrain rs1 => (lsCpdrain g rs1 s).1
  | .vlMbxs rs1 rs2 => lsMbxs g rs1 rs2 s
  | .vlMbxr rd => lsMbxr g rd s
  | .vlMbxt rd => lsMbxt g rd s
  | _ => lsTrap .illegalOpcode

/-- The effect of a decoded instruction of len bytes at pc. -/
def lsRun (g : LsAgent) (len : Nat) (o : RvOp) (s : State) : LsR :=
  let c := s.tile.ls g
  let put := fun (r : XReg) (v : RvWord) => s.mapLs g fun c => c.setReg r v
  let link := c.pc + BitVec.ofNat 32 len
  match o with
  | .lui rd imm => .ok (put rd imm) none
  | .auipc rd imm => .ok (put rd (c.pc + imm)) none
  | .jal rd off => .ok (put rd link) (some (c.pc + off))
  | .jalr rd rs off => .ok (put rd link) (some ((c.reg rs + off) &&& 0xFFFFFFFE))
  | .branch k a b off => .ok s (if rvCond k (c.reg a) (c.reg b) then some (c.pc + off) else none)
  | .load n sg rd rs off => lsLoad g s n sg rd (c.reg rs + off).toNat
  | .store n rs src off => lsWrite g s n (c.reg rs + off).toNat (c.reg src).toNat
  | .aluI o rd rs imm => .ok (put rd (rvAlu o (c.reg rs) imm)) none
  | .alu o rd a b => .ok (put rd (rvAlu o (c.reg a) (c.reg b))) none
  | .vl i => lsVl g i s

/-- The bytes of an instruction store (R271). -/
def lsStoreSize : Nat := 0x4000

/-- The 32 bits at a core's pc. -/
def State.lsWord (s : State) (g : LsAgent) : Nat :=
  s.mem.num (lsKey s.tile.cl s.tile.tn (g == .storer) (s.tile.ls g).pc.toNat) 4

/-- The state in which a fault leaves the machine beside the core: VL.CPDRAIN clears the error state it reports (R297). -/
def lsFailed (g : LsAgent) (o : RvOp) (s : State) : State :=
  match o with
  | .vl (.vlCpdrain rs1) => (lsCpdrain g rs1 s).2
  | _ => s

/-- The instruction at a core's pc: its length and its operation, none where it is illegal; nothing where a part of it lies beyond
the instruction store (R271). -/
def State.lsFetch (s : State) (g : LsAgent) : Option (Nat × Option RvOp) :=
  let r := rvDecode (s.lsWord g)
  if (s.tile.ls g).pc.toNat + r.1 ≤ lsStoreSize then some r else none

/-- Whether the loader and storer cores of the focus tile go on: not while the tile stops at a bundle boundary, nor while its team is
halted, when the team issues nothing (R402, R405). -/
def State.lsGoes (s : State) : Bool :=
  !(s.tile.stopped && !s.tile.grace) && !(s.tile.team.bind fun p => s.findTeam p.1).any fun k => k.state == .halted

/-- One instruction of a core of the focus tile that runs (R271), or a cycle of a replay of it (R324). One beyond the instruction
store is WINDOW_HOLE (log 15). -/
def State.lsInstr (s : State) (g : LsAgent) : State :=
  if !(s.tile.ls g).running || !s.lsGoes then s
  else if 0 < (s.tile.ls g).hold then s.mapLs g fun c => { c with hold := c.hold - 1 }
  else
    match s.lsFetch g with
    | none => lsEnd g 2 s (lsTrap .windowHole)
    | some (n, none) => lsEnd g n s (lsTrap .illegalOpcode)
    | some (n, some o) => lsEnd g n (lsFailed g o s) (lsRun g n o s)

/-- Whether a core's instruction issues now: the core runs, and the instruction is not held (R324). -/
def State.lsIssues (s : State) (g : LsAgent) : Bool :=
  (s.tile.ls g).running && s.lsGoes && (s.tile.ls g).hold == 0
    && match s.lsFetch g with
      | none | some (_, none) => true
      | some (n, some o) =>
        match lsRun g n o s with
        | .ok _ _ | .trap _ => true
        | .stay _ => false

/-- LOADER_STORER_INSTRUCTION (R271). -/
def execLoaderStorerInstruction (g : LsAgent) (s : State) : Host.Outcome State Fault Refusal := .next (s.lsInstr g)

/-- LOADER_STORER_FAULT (R391): a core's fault is raised at the bundle at which the tile core stands; a task that
speculates defers it (R154); a clock that stands raises nothing (R321). -/
def execLoaderStorerFault (g : LsAgent) (s : State) : Host.Outcome State Fault Refusal :=
  match (s.tile.ls g).fault with
  | none => .next s
  | some i =>
    if !s.cluster.ticks || s.tile.task.isNone || s.tile.stopped || s.tile.ending.isSome then .next s
    else if s.tile.spec.isSome then .next (s.raise s.tile.pc i)
    else .next ((s.mapLs g fun c => { c with fault := none }).raise s.tile.pc i)

end Sys2Proof.Machine
end

