-- ==== Sys2Proof/Machine/Image.lean ====
section
/-! DEFINITION. Context images (R404-R407): their bytes, their check, reading one back, and CTXS and CTXL (R216). -/

namespace Sys2Proof.Machine

/-- A byte list filled up with zeros to n bytes. -/
def padTo (n : Nat) (l : List Byte) : List Byte := l ++ List.replicate (n - l.length) 0

/-- The size of the array internals of MODEL 1 (R407). -/
def asz : Nat := 196608

/-- Where the array internals begin (R406). -/
def arrayOff : Nat := 0x17000

/-- One step of CRC-64 of ECMA-182, a bit. -/
def crcBit (c : Nat) : Nat :=
  let d := 2 * c
  if 2 ^ 63 ≤ c then (d % 2 ^ 64) ^^^ 0x42F0E1EBA9EA3693 else d

/-- CRC-64 of ECMA-182 over bytes (R407, log 13). -/
def crc64 (l : List Byte) : Nat :=
  l.foldl (fun c b => (List.range 8).foldl (fun c _ => crcBit c) (c ^^^ (b.toNat * 2 ^ 56))) 0

/-- The number under which an array's internals are known, and the state that knows it (R406, log 13). -/
def State.arrayKey (s : State) (m : Mat) : Nat × State :=
  let m := { m with acc := accZero }
  match s.arrays.find? fun p => p.2 == m with
  | some p => (p.1, s)
  | none => (s.freeCtr, { s with freeCtr := s.freeCtr + 1, arrays := s.arrays ++ [(s.freeCtr, m)] })

/-- The encoding of an array's internals (R406): its number, so that two arrays have two encodings, then bytes that the spec
leaves open (log 13). -/
def arrayBytes (k : Nat) : List Byte := leBytes k 8 ++ (List.range (asz - 8)).map (Config.imageByte k)

/-- The internals that bytes stand for (R406, log 13). -/
def State.arrayOf (s : State) (bs : List Byte) : Mat :=
  match s.arrays.find? fun p => p.1 % 2 ^ 64 == leNat (bs.take 8) && bs == arrayBytes p.1 with
  | some p => p.2
  | none => Config.arrayOf bs

/-- STATUS bits 2:1 (R406). -/
def Arrival.code (a : Arrival) : Nat :=
  match a with
  | .none => 0
  | .arrived => 1
  | .released => 2

def arrivalOf (n : Nat) : Arrival :=
  match n with
  | 1 => .arrived
  | 2 => .released
  | _ => .none

/-- STATUS (R406). -/
def Tile.statusWord (t : Tile) : Nat :=
  let f := fun (g : Task → Bool) => (t.task.any g).toNat
  t.priv.toNat + 2 * t.arrival.code + 8 * f (·.mig) + 16 * f (·.mayspec) + 32 * f (·.lintel)

/-- PRED (R406). -/
def Tile.predWord (t : Tile) : Nat :=
  (List.finRange 16).foldl (fun n i =>
    n + (t.pred i).toNat * 2 ^ i.val + ((t.handles[i.val]).written).toNat * 2 ^ (16 + i.val)) 0

/-- The control words in their order (R406). -/
def Tile.controlWords (t : Tile) : List Nat :=
  [t.pc, t.statusWord, t.predWord, t.tepc.toNat, t.trapst.toNat, t.trapval.toNat, t.tscr.toNat, t.loopst.toNat,
    t.looprot.toNat, t.lcr.toNat, t.scalest.toNat, t.engerr.toNat, t.chown.toNat, t.spswz.toNat, (t.skew[0]).toNat,
    (t.skew[1]).toNat, t.loader.pc.toNat, t.storer.pc.toNat, t.dbgctl.toNat, t.dbgbp.toNat, t.specst.toNat,
    t.repst.toNat]

/-- The bytes of a mailbox: a count, then eight messages (R406). -/
def mailboxBytes (l : List (BitVec 32)) : List Byte :=
  leBytes l.length 4 ++ padTo 32 ((l.take 8).flatMap fun v => leBytes v.toNat 4)

/-- The header of a queue: its count, then sixteen tags (R406). -/
def queueHeader (l : List QEntry) : List Byte :=
  leBytes l.length 8 ++ leBytes ((List.range 16).foldl (fun n k => n + ((l[k]?).map (·.tag)).getD 0 * 16 ^ k) 0) 8

/-- The image from 0x0040 to the array internals (R406). -/
def Tile.fixedBytes (t : Tile) : List Byte :=
  padTo 192 (t.controlWords.flatMap fun w => leBytes w 8)
  ++ (t.sregs.toList.flatMap fun w => leBytes w.toNat 8)
  ++ (t.handles.toList.flatMap fun h => leBytes h.img.toNat 16)
  ++ (t.maps.toList.flatMap fun m => leBytes m.img.toNat 16)
  ++ (t.setup.toList.flatMap fun v => v.toList.flatMap fun w => leBytes w.toNat 8)
  ++ padTo 128 (t.mbx.toList.flatMap mailboxBytes)
  ++ (t.queues.toList.flatMap queueHeader)
  ++ (t.ends.toList.flatMap fun w => leBytes w.toNat 8)
  ++ padTo 64 (leBytes ((List.finRange 64).foldl (fun n k => n + (t.tags[k.val]).val * 16 ^ k.val) 0) 32)
  ++ padTo 192 (t.rings.toList.flatMap fun r => leBytes r.desc.toNat 8 ++ leBytes (r.stateWord + r.vcnt * 2 ^ 32) 8)
  ++ (t.loader.x.toList.flatMap fun w => leBytes w.toNat 4)
  ++ (t.storer.x.toList.flatMap fun w => leBytes w.toNat 4)
  ++ padTo 0x500 (t.rings.toList.flatMap fun r => leBytes (if r.pred then r.prd.toNat else 0) 8)
  ++ (t.grid.toList.flatMap fun r => r.toList.flatMap fun c => leBytes c.toNat 4)
  ++ (t.mat.acc.toList.flatMap fun r => r.toList.flatMap fun a => leBytes a.toNat 10)
  ++ (t.queues.toList.flatMap fun l => padTo 4096 ((l.take 16).flatMap fun e => rowBytes e.cells 64))

/-- A view record: type 1, the line's local address, its 64 bytes (R406, log 13). -/
def viewRecord (p : Nat × Vector Byte 64) : List Byte := leBytes 1 8 ++ leBytes (0x400000 + 64 * p.1) 8 ++ p.2.toList

/-- The two bits of a window line: untouched, clean, dirty (R406, log 13). -/
def lineState (m : MapEntry) (k : Nat) : Nat :=
  match m.line k with
  | none => 0
  | some x => if x.mask == 0 then 1 else 2

/-- A window record: type 2, the entry and its lines, the lines' states, the masks of the dirty lines (R406, log 13). -/
def windowRecord (n : MapNo) (m : MapEntry) : List Byte :=
  leBytes 2 8 ++ leBytes n.val 4 ++ leBytes m.nlines 4
  ++ leBytes ((List.range m.nlines).foldl (fun x k => x + lineState m k * 4 ^ k) 0) ((m.nlines + 3) / 4)
  ++ ((m.lines.filter fun x => x.mask != 0).flatMap fun x => leBytes x.mask.toNat 32)

/-- A record of a row held at a receive end: type 3, the end, its lanes (R406, log 13). -/
def rowRecord (r : CircRow) : List Byte := leBytes 3 8 ++ leBytes r.cend.val 8 ++ rowBytes r.cells 64

/-- The tagged records (R406). -/
def Tile.records (t : Tile) : List Byte :=
  (t.view.flatMap viewRecord)
  ++ ((List.finRange 16).flatMap fun n =>
    if (t.maps[n.val]).valid && !(t.maps[n.val]).lines.isEmpty then windowRecord n t.maps[n.val] else [])
  ++ (t.recvRows.flatMap rowRecord)

/-- Merge sorted ranges into disjoint ones, a being the range under way. -/
def mergeFrom (a : Nat × Nat) : List (Nat × Nat) → List (Nat × Nat)
  | [] => [a]
  | b :: l => if b.1 ≤ a.2 then mergeFrom (a.1, max a.2 b.2) l else a :: mergeFrom b l

/-- Merge sorted ranges into disjoint ones. -/
def mergeRanges : List (Nat × Nat) → List (Nat × Nat)
  | [] => []
  | a :: l => mergeFrom a l

/-- Put a range into a list sorted by its beginning. -/
def insertRange (a : Nat × Nat) : List (Nat × Nat) → List (Nat × Nat)
  | [] => [a]
  | b :: l => if a.1 ≤ b.1 then a :: b :: l else b :: insertRange a l

/-- The scratchpad bytes of a ring with its predictor areas (R146, R406). -/
def Ring.span (r : Ring) : Nat × Nat := (r.slotAddr 0, if r.pred then r.slotAddr (r.nslots + 3) else r.slotAddr r.nslots)

/-- The scratchpad ranges that a team's declarations cover on a tile, sorted and disjoint (R406). -/
def Tile.declared (t : Tile) (content : List (Nat × Nat)) : List (Nat × Nat) :=
  let rings := (t.rings.toList.filter (·.valid)).map Ring.span
  let wins := (t.maps.toList.filter (·.valid)).map fun m => (m.lo, m.hi)
  mergeRanges ((rings ++ content.map (fun p => (p.1, p.1 + p.2)) ++ wins).foldl (fun l r => insertRange r l) [])

/-- The scratchpad part of an image: each range's offset, length and bytes (R406, log 13). -/
def State.spPart (s : State) (rs : List (Nat × Nat)) : List Byte :=
  rs.flatMap fun r => leBytes r.1 8 ++ leBytes (r.2 - r.1) 8 ++ s.spBytes r.1 (r.2 - r.1)

/-- The header of an image (R407), CHECK given. -/
def imageHeader (vsz spsz check : Nat) : List Byte :=
  leBytes (0x7A10C7E0 + 2 ^ 48) 8 ++ leBytes (arrayOff + asz + vsz + spsz) 8 ++ leBytes (asz + 2 ^ 48) 8 ++ leBytes vsz 8
  ++ leBytes spsz 8 ++ leBytes check 8 ++ leBytes 0 16

/-- The image of the focus tile with some scratchpad ranges (R406), and the state that knows its array encoding. -/
def State.image (s : State) (rs : List (Nat × Nat)) : List Byte × State :=
  let (k, s) := s.arrayKey s.tile.mat
  let recs := s.tile.records
  let sp := s.spPart rs
  let body := s.tile.fixedBytes ++ arrayBytes k ++ recs ++ sp
  (imageHeader recs.length sp.length (crc64 (imageHeader recs.length sp.length 0 ++ body)) ++ body, s)

/-- A little-endian number in a byte list. -/
def numAt (l : List Byte) (off n : Nat) : Nat := leNat ((l.drop off).take n)

/-- The length that an image's header gives (R407). -/
def imageLen (l : List Byte) : Nat := numAt l 8 8

/-- Whether an image passes its checks (R407). -/
def imageOk (l : List Byte) : Bool :=
  numAt l 0 4 == 0x7A10C7E0 && numAt l 6 2 == 1 && numAt l 22 2 == 1 && numAt l 16 4 == asz
    && imageLen l == l.length && imageLen l == arrayOff + asz + numAt l 24 4 + numAt l 32 4
    && numAt l 40 8 == crc64 (l.take 40 ++ List.replicate 8 0 ++ l.drop 48)

/-- A control word of an image. -/
def ctlWord (l : List Byte) (k : Nat) : Nat := numAt l (0x40 + 8 * k) 8

/-- A vector read from an image. -/
def vecAt {α : Type} (n : Nat) (f : Nat → α) : Vector α n := Vector.ofFn fun i => f i.val

/-- Slot states from a state word (R59). -/
def slotStates (w : Nat) : Vector SlotSt 16 :=
  vecAt 16 fun k =>
    match fld w (2 * k) 2 with
    | 0 => .empty
    | 1 => .filling
    | 2 => .full
    | _ => .draining

/-- A ring from its descriptor, state word, version count and PRD, whose reserved bits read as 0; its owners stay (R59, R146,
R406). -/
def Ring.reload (r : Ring) (d w prd : Nat) : Ring :=
  { r with
    valid := fld d 63 1 == 1, pred := fld d 62 1 == 1, nslot := Fin.ofNat 16 (fld d 58 4)
    slotsz := Fin.ofNat 16384 (fld d 44 14), base := Fin.ofNat 32768 (fld d 29 15), pidx := Fin.ofNat 16 (fld d 25 4)
    cidx := Fin.ofNat 16 (fld d 21 4), st := slotStates w, vcnt := fld w 32 2, prd := BitVec.ofNat 64 (prd - fld prd 4 10 * 16) }

/-- A queue from its header and lanes; what an entry holds beside them stays (R406). -/
def reloadQueue (l : List Byte) (n : Nat) (old : List QEntry) : List QEntry :=
  let h := 0x680 + 16 * n
  (List.range (min 16 (numAt l h 8))).map fun k =>
    let e : QEntry := (old[k]?).getD { tag := 0, cells := Row.zero, due := 0, arrived := true, remote := none, failed := false }
    { e with
      tag := fld (numAt l (h + 8) 8) (4 * k) 4, arrived := true
      cells := rowOf ((l.drop (0xF000 + 4096 * n + 256 * k)).take 256) }

/-- A mailbox from its bytes (R406). -/
def reloadBox (l : List Byte) (k : Nat) : List (BitVec 32) :=
  let off := 0x600 + 36 * k
  (List.range (min 8 (numAt l off 4))).map fun i => BitVec.ofNat 32 (numAt l (off + 4 + 4 * i) 4)

/-- What the tagged records of an image hold. -/
structure Recs where
  view : List (Nat × Vector Byte 64) := []
  lines : List (MapNo × List (Nat × BitVec 256)) := []
  rows : List CircRow := []

/-- The touched lines of a window record: their numbers and masks. -/
def recordLines (l : List Byte) (states : Nat) (masks : Nat) : Nat → List (Nat × BitVec 256) × Nat
  | 0 => ([], 0)
  | k + 1 =>
    let (r, dirty) := recordLines l states masks k
    match fld states (2 * k) 2 with
    | 0 => (r, dirty)
    | 1 => (r ++ [(k, 0)], dirty)
    | _ => (r ++ [(k, BitVec.ofNat 256 (numAt l (masks + 32 * dirty) 32))], dirty + 1)

/-- Read the tagged records of n bytes, at most fuel of them. -/
def readRecs : Nat → List Byte → Recs
  | 0, _ => {}
  | fuel + 1, l =>
    match numAt l 0 8 with
    | 1 =>
      let r := readRecs fuel (l.drop 80)
      { r with view := ((numAt l 8 8 - 0x400000) / 64, vecAt 64 fun i => BitVec.ofNat 8 (numAt l (16 + i) 1)) :: r.view }
    | 2 =>
      let n := numAt l 12 4
      let bytes := (n + 3) / 4
      let x := recordLines l (numAt l 16 bytes) (16 + bytes) n
      let r := readRecs fuel (l.drop (16 + bytes + 32 * x.2))
      { r with lines := (Fin.ofNat 16 (numAt l 8 4), x.1) :: r.lines }
    | 3 =>
      let r := readRecs fuel (l.drop 272)
      { r with rows := ⟨Fin.ofNat 64 (numAt l 8 8), rowOf ((l.drop 16).take 256), none⟩ :: r.rows }
    | _ => {}

/-- The storage class of a window line's home, as its translation stands (R115). -/
def State.lineClass (s : State) (m : MapEntry) (k : Nat) : Nat :=
  match s.lookup s.part (m.va + 256 * k) with
  | .error _ => 2
  | .ok (l, _) => (spaClass s (l.spa (m.va + 256 * k))).bit

/-- A circuit-end word from an image: one that was never written stays 0 (R300). -/
def savedEnd (v : Nat) : Word := if v = 0 then 0 else endOf (BitVec.ofNat 64 v)

/-- The part of the tile that an image's fixed layout holds (R406), from its bytes. -/
def Tile.reloadFixed (t : Tile) (l : List Byte) : Tile :=
  let w := ctlWord l
  let bv := fun (k : Nat) => BitVec.ofNat 64 (w k)
  let st := w 1
  let ls := fun (c : LsCore) (off pc : Nat) =>
    { c with x := vecAt 32 fun i => BitVec.ofNat 32 (numAt l (off + 4 * i) 4), pc := BitVec.ofNat 32 pc }
  let flags := fun (k : Task) =>
    ({ k with mig := fld st 3 1 == 1, mayspec := fld st 4 1 == 1, lintel := fld st 5 1 == 1 } : Task)
  let hs := Vector.ofFn fun (i : Fin 16) =>
    ({ t.handles[i.val] with
      img := BitVec.ofNat 128 (numAt l (0x200 + 16 * i.val) 16)
      written := fld (w 2) (16 + i.val) 1 == 1 } : Handle)
  let rs := Vector.ofFn fun (i : Fin 8) =>
    let off := 0x940 + 16 * i.val
    (t.rings[i.val]).reload (numAt l off 8) (numAt l (off + 8) 8) (numAt l (0xB00 + 8 * i.val) 8)
  let words := fun (c : Nat) => vecAt 16 fun k =>
    setupWord k (BitVec.ofNat 64 (numAt l (0x400 + 128 * c + 8 * k) 8))
  { t with
    priv := fld st 0 1 == 1
    arrival := arrivalOf (fld st 1 2)
    task := t.task.map flags
    preds := vecAt 16 (fun i => fld (w 2) i 1 == 1)
    sregs := vecAt 32 (fun i => BitVec.ofNat 64 (numAt l (0x100 + 8 * i) 8))
    tepc := bv 3
    trapst := bv 4
    trapval := bv 5
    tscr := bv 6
    lcr := bv 9
    engerr := bv 11
    pass := BitVec.ofNat 32 (fld (w 7) 32 32)
    feed := BitVec.ofNat 32 (fld (w 7) 0 32)
    rrb := Fin.ofNat 16 (fld (w 8) 8 4)
    bmr := BitVec.ofNat 32 (fld (w 10) 32 32)
    pv := fld (w 10) 24 1 == 1
    xpend := BitVec.ofNat 8 (fld (w 10) 16 8)
    xrd := BitVec.ofNat 8 (fld (w 10) 8 8)
    chown := BitVec.ofNat 8 (w 12)
    spswz := BitVec.ofNat 24 (w 13)
    skew := vecAt 2 (fun i => bv (14 + i))
    loader := ls t.loader 0xA00 (w 16)
    storer := ls t.storer 0xA80 (w 17)
    dbgctl := BitVec.ofNat 2 (w 18)
    dbgbp := bv 19
    squashes := BitVec.ofNat 32 (fld (w 20) 32 32)
    commits := BitVec.ofNat 24 (fld (w 20) 8 24)
    replays := BitVec.ofNat 32 (fld (w 21) 32 32)
    stretch := BitVec.ofNat 32 (fld (w 21) 0 32)
    handles := hs
    maps := vecAt 16 (fun i => ({ img := BitVec.ofNat 128 (numAt l (0x300 + 16 * i) 16) } : MapEntry))
    setup := vecAt 4 words
    mbx := vecAt 3 (reloadBox l)
    queues := Vector.ofFn (fun i => reloadQueue l i.val t.queues[i.val])
    ends := vecAt 64 (fun i => savedEnd (numAt l (0x700 + 8 * i) 8))
    tags := vecAt 64 (fun i => Fin.ofNat 16 (numAt l (0x900 + i / 2) 1 / 16 ^ (i % 2)))
    rings := rs
    grid := vecAt 64 (fun r => rowOf ((l.drop (0x1000 + 256 * r)).take 256)) }

/-- Replace every item of tile state that an image holds, but its scratchpad (R216, R405). -/
def State.reload (s : State) (l : List Byte) : State :=
  let r := readRecs (numAt l 24 4) ((l.drop (arrayOff + asz)).take (numAt l 24 4))
  let m := s.arrayOf ((l.drop arrayOff).take asz)
  let acc := vecAt 64 fun i => vecAt 64 fun j => BitVec.ofNat 80 (numAt l (0x5000 + 10 * (64 * i + j)) 10)
  let s := s.mapTile fun t =>
    { (t.reloadFixed l) with mat := { m with acc := acc }, view := r.view, recvRows := r.rows }
  r.lines.foldl (fun s p =>
    let e := s.tile.maps[p.1.val]
    s.mapTile fun t =>
      t.setMap p.1 { e with lines := p.2.map fun x => ⟨x.1, x.2, s.lineClass e x.1⟩ }) s

/-- Put the scratchpad ranges of an image back, at most fuel of them (R41, R406). -/
def State.reloadSp (s : State) : Nat → List Byte → State
  | 0, _ => s
  | fuel + 1, l =>
    if l.length < 16 then s
    else
      let n := numAt l 8 8
      State.reloadSp (s.spRaw (numAt l 0 8) ((l.drop 16).take n)) fuel (l.drop (16 + n))

/-- Replace every item of tile state that an image holds, its scratchpad ranges among them (R216, R405, R406). -/
def State.reloadAll (s : State) (l : List Byte) : State :=
  (s.reload l).reloadSp l.length (l.drop (arrayOff + asz + numAt l 24 4))

/-- Bytes put at probed pages. -/
def State.putPages (s : State) (ps : List Page) (va : Nat) (bs : List Byte) : State :=
  { s with mem := ((List.range bs.length).zip bs).foldl (fun m p => m.set (pageSpa ps (va + p.1)) p.2) s.mem }

/-- Bytes stored at probed pages, those to a device that has become unreachable being discarded (R135). -/
def State.storePages (s : State) (ps : List Page) (va : Nat) (bs : List Byte) : State :=
  ((List.range bs.length).zip bs).foldl (fun s p => s.storeAt (pageSpa ps (va + p.1)) [p.2]) s

/-- What some probed pages meet on the way to them (R420, R422). -/
def State.cutPage (s : State) (ps : List Page) : Option Cause := ps.findSome? fun p => s.cutOff s.part p.spa

/-- Bytes read at probed pages. -/
def State.getPages (s : State) (ps : List Page) (va n : Nat) : List Byte :=
  (List.range n).map fun k => s.mem.get (pageSpa ps (va + k))

/-- What an image of the focus tile cannot be taken of: a grid row or an accumulator row whose parity is in error (R50, R80). -/
def Tile.imageTrap (t : Tile) : Option Cause :=
  if t.badRows != 0 then some .gridParity else if t.badAcc != 0 then some .accumParity else none

/-- The SPA of the first 64-byte line of probed pages whose bytes hold an uncorrectable error (R401). -/
def State.badPage (s : State) (ps : List Page) : Option Word :=
  ps.findSome? fun p => (s.badAt p.spa p.len).map line64

/-- The control slots of the context instructions: privileged, a resolution stall, the address a multiple of 64 (R216). DESIGN CHOICE,
for them and for CTXS and CTXL, the spec giving no order of their checks (log 13): ALIGN, for CTXS the wait for the counters and the
parity causes, CONTEXT_ERROR for a short buffer, then the causes of the pages. -/
def ctxSlot (a b : SReg) (run : Ctx → State → Nat → Nat → SlotR) : Slot :=
  { cls := 1, priv := true, resolves := fun _ => true, reads := fun _ => [.sreg a, .sreg b]
    run := fun c s =>
      let x := (c.pre.sreg a).toNat
      if x % 64 != 0 then .trap { cause := .align, val := BitVec.ofNat 64 x } else run c s x (c.pre.sreg b).toNat }

/-- CTXS (R216, R406): its writes are stores of the tile, so that one to a device that cannot be reached is reported by a boundary
(R135). -/
def slotCtxs (d a b : SReg) : Slot :=
  ctxSlot a b fun c s x n =>
    if !c.pre.drained then .stall c.s0
    else
    match c.pre.imageTrap with
    | some e => trapR e
    | none =>
      let (bs, s) := s.image []
      if n < bs.length then trapR .contextError
      else
        match probeBox s .write x (x + bs.length) with
        | .error e => .trap e
        | .ok (u, ps) =>
          if u.cutPage ps == some .linkDown then trapR .linkDown
          else okR ((u.storePages ps x bs).mapTile fun t => t.write (.sreg d) (BitVec.ofNat 64 bs.length))

/-- What CTXL leaves: the state of an image, the registers that other slots of its bundle act on taking effect once the bundle has been
issued, as a CSRW of them does (R178, R214). -/
def State.loadedBy (s : State) (v : State) : SlotR :=
  let t := s.tile
  let u := v.tile
  .ok (v.mapTile fun x => { x with spswz := t.spswz, chown := t.chown, skew := t.skew, ends := t.ends })
    { wire := fun x =>
        { x with spswz := u.spswz, chown := u.chown, skew := u.skew, ends := u.ends, pv := u.pv, xpend := u.xpend, xrd := u.xrd } }

/-- CTXL (R216, R407): every item of tile state that the image holds, the scratchpad ranges of an image that a swap wrote among them
(R406). DESIGN CHOICE (log 54): it first waits as CTXS does, R406 asking that of CTXS and of a swap. -/
def slotCtxl (d a b : SReg) : Slot :=
  ctxSlot a b fun c s x n =>
    if n < 64 then trapR .contextError
    else
      match probeBox s .read x (x + 64) with
      | .error e => .trap e
      | .ok (u, ps) =>
        let len := imageLen (u.getPages ps x 64)
        if n < len then trapR .contextError
        else
          match probeBox u .read x (x + len) with
          | .error e => .trap e
          | .ok (u, ps) =>
            let l := u.getPages ps x len
            match u.cutPage ps, u.badPage ps with
            | some e, _ => trapR e
            | none, some a => .trap { cause := .machineCheck, val := a }
            | none, none =>
              if !imageOk l then trapR .contextError
              else if !c.pre.drained then .stall c.s0
              else s.loadedBy ((u.reloadAll l).mapTile fun t => t.write (.sreg d) (BitVec.ofNat 64 (ctlWord l 0)))

def execCtxs (d a b : SReg) (s : State) : Host.Outcome State Fault Refusal := .next (issue1 s (slotCtxs d a b))
def execCtxl (d a b : SReg) (s : State) : Host.Outcome State Fault Refusal := .next (issue1 s (slotCtxl d a b))

end Sys2Proof.Machine
end

