-- ==== Sys2Proof/Machine/EngineEvents.lean ====
section
/-! DEFINITION. The steps of the engines' traffic: counted puts (R142, R303), collectives (R143, R305, R418), rows on circuits
(R301, R416), links that fail and are repaired (R414, R420). -/

namespace Sys2Proof.Machine

/-- The timestamps of a back-off after the n-th refusal in a row: router cycles of 0.5 ns (R416). -/
def backoff (bkoff n : Nat) : Nat := (bkoff * 2 ^ min (n - 1) 5 + 19) / 20

/-- Change a tile. -/
def State.atTile (s : State) (i : TileId) (f : Tile → Tile) : State := s.setTile (f (s.tileAt i))

/-- The outcome of an attempt to deliver an entry; a failure comes with the address that it concerns, if any (R394), and one that comes
later with the fills that it has begun. -/
inductive Delivery where
  | done (s : State)
  | failed (s : State) (c : Cause) (v : Word := 0)
  | refused (s : State)
  | later (s : State)

/-! ## Counted puts -/

/-- The footprints of a job of a tile (R139). -/
def Tile.feetOf (t : Tile) (id : Nat) : List Foot := t.feet.filter fun f => f.id == id

/-- What a check of an engine's access at a tile in focus comes to, the focus going back to a tile; none where the access waits for a fill
that has begun. -/
def Prep.back (r : Prep) (u : State) (i : TileId) : Option Prep :=
  match r with
  | .ok v => some (.ok (v.focus i))
  | .trap e => some (.trap e)
  | .stall v => if r.goes u then some (.stall (v.focus i)) else none

/-- The checks of a read by an engine of a job's source at a tile; none while an earlier job (R140) or a fill holds it up. -/
def State.jobPrep (s : State) (i : TileId) (job a n : Nat) (shadow : List Host.Cell) : Option Prep :=
  let u := s.focus i
  if u.tile.heldUp job (u.tile.feetOf job) then none else (u.sourcePrep a n shadow).back u s.tile.id

/-- The checks of the read that a put has still to make; none while it is held up. -/
def State.putPrep (s : State) (m : PutMsg) : Option Prep :=
  if m.data.isSome then some (.ok s) else s.jobPrep m.src m.job m.lo (putLen m.word) m.shadow

/-- The bytes of a put as it reads them (R140, R150). -/
def State.putBytes (s : State) (m : PutMsg) : List Byte :=
  m.data.getD ((s.focus m.src).lateBytes m.lo (putLen m.word) m.shadow)

/-- The virtual address at which a put's pages begin. -/
def PutMsg.va (m : PutMsg) : Nat := (m.pages.head?.map (·.va)).getD 0

/-- The partition of a tile's task. -/
def State.partAt (s : State) (i : TileId) : PartNo :=
  (((s.tileAt i).task.bind fun k => s.findTeam k.team).map (·.part)).getD 0

/-- The count of a put added at its semaphore, with the failures of R303 in their order. What another device answers comes from outside:
it counts the put unless it is to refuse it (log 44). -/
def State.putCount (s : State) (m : PutMsg) : Delivery :=
  if putDev m.word != s.device.toNat then
    if !s.devUp (putDev m.word) then .failed s .peerUnreachable
    else
      match s.refused.find? fun x => x.1 == m.src with
      | some x => .failed { s with refused := s.refused.eraseP fun y => y.1 == m.src } (causeOf x.2.val)
      | none => .done s
  else
    let cn := Fin.ofNat 48 (putClu m.word)
    let c := s.clusters[cn.val]
    let x := c.sems[m.sem.val]
    if !s.diesJoined (dieOf m.src.cl) (dieOf cn) then .failed s .linkDown
    else if !(x.granted && x.putOpen) then .failed s .semIndex
    else if !(s.parts[(s.partAt m.src).val]).clu.getLsbD cn.val then .failed s .partitionFence
    else if 65535 < x.val.val + putCnt m.word then .failed s .semOverflow
    else .done { s with clusters := s.clusters.set cn.val (c.addSem m.sem (putCnt m.word)) }

/-- A put arrives: its data at their homes, each of which it must reach (R303, R420), then its count, unless the semaphore unit's queue is
full (R142, R303, R416); data once placed stays placed. What it has still to read may be refused (R61, R69, R401) or wait for a fill. -/
def State.putArrive (s : State) (m : PutMsg) : Delivery :=
  match s.putPrep m with
  | none => .later s
  | some (.stall u) => .later u
  | some (.trap i) => .failed s i.cause i.val
  | some (.ok s) =>
    match m.pages.findSome? fun p => s.cutFrom (dieOf m.src.cl) (s.partAt m.src) p.spa with
    | some c => .failed s c
    | none =>
      let u := s.putPages m.pages m.va (s.putBytes m)
      if putDev m.word == s.device.toNat && (s.clusters[(Fin.ofNat 48 (putClu m.word) : ClusterNo).val]).jam then .refused u
      else u.putCount m

/-- A put leaves its counter and its edges end (R286, R288). -/
def State.putEnd (s : State) (m : PutMsg) (c : Option Cause) (v : Word := 0) : State :=
  let s := { s with puts := s.puts.filter fun x => !(x.src == m.src && x.job == m.job) }
  s.atTile m.src fun t =>
    let t := (t.dropFeet m.job).uncount .tl
    match c with
    | none => t
    | some c => t.engErr c 1 m.sem.val v

/-- The cluster of this device at which a put arrives (R303). -/
def State.putTo (s : State) (m : PutMsg) : Option ClusterNo :=
  if putDev m.word = s.device.toNat then some (Fin.ofNat 48 (putClu m.word)) else none

/-- The cluster that holds an arrival of its own in its queues (R431, R436). -/
def State.shut (s : State) (c : Option ClusterNo) : Option ClusterNo := c.filter fun c => !(s.clusters[c.val]).lets

/-- The routers that a put to a cluster of this device passes (R415, R438). -/
def State.putRoute (s : State) (m : PutMsg) : List ClusterNo := ((s.putTo m).map (s.route m.src.cl)).getD []

/-- One more refusal of a put (R416, R420): dropped after LIMIT + 1 of them, else resent after the back-off. -/
def State.refusePut (s : State) (m : PutMsg) : State :=
  let d := s.dies[(dieOf m.src.cl).val]
  let n := m.tries + 1
  if d.nakLimit.val < n then s.putEnd m (some .nakLimit)
  else
    let due := s.time.toNat + backoff d.nakBkoff.toNat n
    { s with puts := s.puts.map fun x => if x.src == m.src && x.job == m.job then { x with tries := n, due := due } else x }

/-- Deliver a put; one at a cluster that lets nothing in waits there. -/
def State.deliverPut (s : State) (m : PutMsg) : State :=
  match s.shut (s.putTo m) with
  | some c => s.knock c
  | none =>
  let goal := s.putRoute m
  match s.putArrive m with
  | .done u => (u.putEnd m none).noteFlits goal
  | .failed u c v => (u.putEnd m (some c) v).noteFlits goal
  | .refused u => (u.refusePut m).noteFlits goal
  | .later u => u

/-- Whether an arrival at a cluster can go on: it is let in, or it has still to ask for power. -/
def State.stirs (s : State) (c : Option ClusterNo) : Bool := (s.shut c).all s.asks

/-- The oldest put that may arrive now; tried says whether it has been refused before. -/
def State.nextPut (s : State) (tried : Bool) : Option PutMsg :=
  s.puts.find? fun m => decide (m.due ≤ s.time.toNat) && (s.putPrep m).isSome && decide (0 < m.tries) == tried
    && !s.blocked (s.putRoute m) && s.stirs (s.putTo m)

/-- PUTC_ARRIVE (R142, R303). -/
def execPutcArrive (s : State) : Host.Outcome State Fault Refusal :=
  match s.nextPut false with
  | none => .next s
  | some m => .next (s.deliverPut m)

/-! ## Rows on circuits -/

/-- Where a receive end is: on a tile, or with the saved state of a swapped team (R301). -/
inductive RecvAt where
  | live (i : TileId)
  | away (team : Fin 65536) (l : Fin 16)
  deriving DecidableEq, Repr, Inhabited

/-- Whether a tile's end receives, and, where strict, names the sender as its peer (R300, log 21). -/
def recvEnd (t : Tile) (w : Word) (strict : Bool) (cl lt : Nat) (k : EndNo) : Bool :=
  let v := ((t.saved.map (·.ends)).getD t.ends)[(endEnd w).val]
  endValid v && endRecv v
    && (!strict || (endCluster v == cl && endLtile v == lt && endEnd v == k))

/-- The receive end of a circuit: the logical tile that the send end names, of a team homed on the cluster that it names; an
end that names the sender in turn comes first (R300, R301, log 21). -/
def State.receiver (s : State) (src : TileId) (k : EndNo) (w : Word) : Option RecvAt :=
  let cl := endCluster w
  let lt := endLtile w
  let from' := ((s.tileAt src).team.map (·.2.val)).getD 0
  let good := fun (strict : Bool) (t : Tile) => recvEnd t w strict src.cl.val from' k
  let live := fun (strict : Bool) =>
    (s.tiles.find? fun t => t.cl.val == cl && t.team.any (fun p => p.2.val == lt) && good strict t).map
      fun t => RecvAt.live t.id
  let away := fun (strict : Bool) =>
    s.teams.findSome? fun x =>
      if x.home.val == cl then
        (x.saved.find? fun p => p.1.val == lt && good strict p.2).map fun p => RecvAt.away x.id p.1
      else none
  (((live true).or (away true)).or (live false)).or (away false)

/-- The tile that a receive end belongs to. -/
def State.recvTile (s : State) (r : RecvAt) : Tile :=
  match r with
  | .live i => s.tileAt i
  | .away id l =>
    (((s.findTeam id).bind fun k => k.saved.find? fun p => p.1 == l).map (·.2)).getD {}

/-- Change the tile that a receive end belongs to. -/
def State.atRecv (s : State) (r : RecvAt) (f : Tile → Tile) : State :=
  match r with
  | .live i => s.atTile i f
  | .away id l =>
    match s.findTeam id with
    | none => s
    | some k => s.setTeam { k with saved := k.saved.map fun p => if p.1 == l then (p.1, f p.2) else p }

/-- The rows that a receive end holds (R301). -/
def recvMax : Nat := 4

/-- A row reaches its peer end (R301, R420). -/
def State.rowArrive (s : State) (m : RowMsg) : Delivery :=
  let t := s.tileAt m.src
  let w := t.ends[m.send.val]
  if t.deadEnds.contains m.send || !s.diesJoined (dieOf m.src.cl) (dieOf (Fin.ofNat 48 (endCluster w))) then
    .failed s .linkDown
  else
    match s.receiver m.src m.send w with
    | none => .failed s .circuitUnbound
    | some r =>
      let held := (s.recvTile r).recvRows.filter fun x => x.cend == endEnd w
      if recvMax ≤ held.length then .refused s
      else
        let row : CircRow := ⟨endEnd w, m.cells, if m.depth = 0 then none else some (m.src, m.depth)⟩
        .done (s.atRecv r fun u => { u with recvRows := u.recvRows ++ [row] })

/-- Whether a row is the oldest of its circuit: rows arrive in send order (R144). -/
def firstOf : List RowMsg → RowMsg → Bool
  | [], _ => false
  | x :: l, m => if x.src == m.src && x.send == m.send then x == m else firstOf l m

/-- Remove the oldest row of a circuit from the rows on their way. -/
def dropFirst (src : TileId) (k : EndNo) : List RowMsg → List RowMsg
  | [] => []
  | x :: l => if x.src = src ∧ x.send = k then l else x :: dropFirst src k l

/-- Put a changed message in the place of the oldest row of its circuit. -/
def putFirst (m : RowMsg) : List RowMsg → List RowMsg
  | [] => []
  | x :: l => if x.src = m.src ∧ x.send = m.send then m :: l else x :: putFirst m l

/-- A row leaves its counter (R286, R288). -/
def State.rowEnd (s : State) (m : RowMsg) (c : Option Cause) : State :=
  let s := { s with rows := dropFirst m.src m.send s.rows }
  s.atTile m.src fun t =>
    let t := t.uncount .tl
    match c with
    | none => t
    | some c => t.engErr c (if m.isQueue then 3 else 4) m.send.val

/-- One more refusal of a row: dropped after RETRY + 1 of them, else resent after the back-off in its slot, and the rows behind it
after it (R301, R416, R417). -/
def State.refuseRow (s : State) (m : RowMsg) : State :=
  let n := m.tries + 1
  let w := (s.tileAt m.src).ends[m.send.val]
  if endRetry w < n then s.rowEnd m (some .nakLimit)
  else
    let b := (s.dies[(dieOf m.src.cl).val]).nakBkoff.toNat
    let rows := putFirst { m with tries := n } s.rows
    { s with rows := s.launchRows m.src m.send w (unitCycles * (s.time.toNat + backoff b n)) rows }

/-- The cluster at which a row arrives (R300). -/
def State.rowTo (s : State) (m : RowMsg) : ClusterNo := Fin.ofNat 48 (endCluster ((s.tileAt m.src).ends[m.send.val]))

/-- Deliver a row; one at a cluster that lets nothing in waits there. -/
def State.deliverRow (s : State) (m : RowMsg) : State :=
  match s.shut (some (s.rowTo m)) with
  | some c => s.knock c
  | none =>
  let route := s.route m.src.cl (s.rowTo m)
  match s.rowArrive m with
  | .done u => (u.rowEnd m none).noteFlits route
  | .failed u c _ => (u.rowEnd m (some c)).noteFlits route
  | .refused u => (u.refuseRow m).noteFlits route
  | .later u => u

/-- The oldest row that may arrive now; tried says whether it has been refused before. -/
def State.nextRow (s : State) (tried : Bool) : Option RowMsg :=
  s.rows.find? fun m =>
    decide (m.due ≤ s.time.toNat) && decide (0 < m.tries) == tried && firstOf s.rows m
      && !s.blocked (s.route m.src.cl (s.rowTo m)) && s.stirs (some (s.rowTo m))

/-- CIRCUIT_ROW_ARRIVE (R301, R417). -/
def execCircuitRowArrive (s : State) : Host.Outcome State Fault Refusal :=
  match s.nextRow false with
  | none => .next s
  | some m => .next (s.deliverRow m)

/-- ESCAPE_ENTRY (R415): a packet that has waited 512 router cycles goes on in the escape channel. The channels change when
an entry arrives, which the model leaves open (log 7), and no value: the state stays. -/
def execEscapeEntry (s : State) : Host.Outcome State Fault Refusal := .next s

/-! ## Collectives -/

/-- The checks of the read that a member has still to make of its source; none while it is held up (R140, R305). -/
def State.memberPrep (s : State) (m : Member) : Option Prep :=
  if m.data.isSome then some (.ok s) else s.jobPrep m.tile m.job m.src (colSrcBytes m.word) m.shadow

/-- The bytes of a member's source as it reads them. -/
def State.memberBytes (s : State) (m : Member) : List Byte :=
  m.data.getD ((s.focus m.tile).lateBytes m.src (colSrcBytes m.word) m.shadow)

/-- Element k of a packed source (R103). -/
def packedElem (fmt : Nat) (bs : List Byte) (k : Nat) : Nat :=
  let w := (tagShape fmt).2
  leNat ((bs.drop (w * k / 8)).take (max 1 (w / 8))) / 2 ^ (w * k % 8) % 2 ^ w

/-- A value as FP32, ±∞ above its range (R110). -/
def asFp32 (x : Num) : Num := fp32.decode (fp32.encode rne x)

/-- Element k of a member's source in FP32 (R110, R305). -/
def contribution (w : Word) (bs : List Byte) (k : Nat) : Num :=
  let f := colFmt w
  let x := tagDecode f (packedElem f bs k)
  if colMx f then asFp32 (scaled x (leNat ((bs.drop (colElemBytes w + k / 32)).take 1))) else asFp32 x

/-- Add an input to the join of its parent, or begin that join with it unchanged (R109, R418). -/
def joinInput (up : Nat → Nat) (p : Nat × Num) : List (Nat × Num) → List (Nat × Num)
  | [] => [(up p.1, p.2)]
  | q :: l => if q.1 = up p.1 then (q.1, asFp32 (Num.add .rne q.2 p.2)) :: l else q :: joinInput up p l

/-- One level of joins, the inputs in ascending order of their lowest rank (R418). -/
def joinLevel (up : Nat → Nat) (l : List (Nat × Num)) : List (Nat × Num) :=
  l.foldl (fun r p => joinInput up p r) []

/-- The sum of an element of this device's members, given with their clusters in ascending order of rank: the joins of the clusters, of
the dies, of CD0 (R109, R418). -/
def treeSum (l : List (Nat × Num)) : Num :=
  match joinLevel (fun _ => 0) (joinLevel (· / 12) (joinLevel id l)) with
  | [] => .zero
  | p :: _ => p.2

/-- Members in ascending order of rank. -/
def byRank (l : List Member) : List Member :=
  let ins := fun (m : Member) (r : List Member) => r.filter (fun x => x.rank ≤ m.rank) ++ [m] ++ r.filter (fun x => m.rank < x.rank)
  l.foldl (fun r m => ins m r) []

/-- The other devices that have sent partial sums, with what they say of their members (R418). -/
def Coll.devices (c : Coll) : List FarSum :=
  c.far.foldl (fun l x => if l.any fun y => y.dev == x.dev then l else l ++ [x]) []

/-- Whether the members that have come, those of other devices among them, agree with one another, no two having one rank (R305,
R419). -/
def Coll.agrees (c : Coll) : Bool :=
  match c.members with
  | [] => true
  | m :: l =>
    let ranks := c.members.map (·.rank) ++ c.devices.flatMap (·.ranks)
    l.all (fun x => x.word == m.word && x.size == m.size) && c.far.all (fun x => x.word == m.word && x.size == m.size)
      && ranks.all fun r => ranks.count r == 1

/-- Whether every member of a collective has come: SIZE of them, those of other devices counted (R419); on a device that does not join
the sums of all, where the sum of one chunk has come back (R418). -/
def Coll.whole (c : Coll) : Bool :=
  let n := (c.devices).foldl (fun n x => n + x.ranks.length) c.members.length
  !c.members.isEmpty && (!c.totals.isEmpty || c.members.all fun m => m.size == n)

/-- Whether a collective has members on several dies or devices, so that its sums pass CD0 (R418). -/
def Coll.wide (c : Coll) : Bool :=
  let ds := c.members.map fun m => dieOf m.tile.cl
  !c.far.isEmpty || !c.totals.isEmpty || ds.any fun d => ds.any fun e => e != d

/-- Whether a collective's tree has no way: its sums pass CD0, and one of its members cannot reach it (R418, R420). -/
def State.parted (s : State) (c : Coll) : Bool := c.wide && c.members.any fun m => !s.diesJoined (dieOf m.tile.cl) 0

/-- The clusters whose routers join a member's contribution (R418). -/
def Coll.joins (c : Coll) (m : Member) : List ClusterNo :=
  let die : ClusterNo := Fin.ofNat 48 (12 * (dieOf m.tile.cl).val)
  [m.tile.cl, die] ++ (if c.wide then [0] else [])

/-- The routers that a member's contribution passes (R415, R418, R438). -/
def State.joinRoute (s : State) (c : Coll) (m : Member) : List ClusterNo :=
  let die : ClusterNo := Fin.ofNat 48 (12 * (dieOf m.tile.cl).val)
  s.route m.tile.cl die ++ (if c.wide then s.route die 0 else [])

/-- A device of this device's domain by its place in the domain (R422). -/
def State.peerNo (s : State) (d : Fin 512) : Nat := s.device.toNat / 512 * 512 + d.val

/-- Whether a device that holds members of a collective is out of reach (R422). -/
def State.farLost (s : State) (c : Coll) : Bool := c.far.any fun x => !s.devUp (s.peerNo x.dev)

/-- Whether the sums of a chunk that other devices owe have come: this device has the lowest ID of those that hold a member, and each of
the others has sent its own; or their joining device has returned the sum of all (R418). -/
def State.farReady (s : State) (c : Coll) (chunk : Fin 16) : Bool :=
  c.totals.any (fun p => p.1 == chunk)
    || (c.totals.isEmpty && (c.devices).all fun x =>
      decide (s.device.toNat % 512 < x.dev.val) && c.far.any fun y => y.dev == x.dev && y.chunk == chunk)

/-- An input of a join, in the place of its lowest rank (R418). -/
def insertRank (p : Nat × Num) : List (Nat × Num) → List (Nat × Num)
  | [] => [p]
  | q :: l => if p.1 < q.1 then p :: q :: l else q :: insertRank p l

/-- The inputs of a device's join added in the order of their lowest ranks (R109, R418). -/
def joinRanks (l : List (Nat × Num)) : Num :=
  match joinLevel (fun _ => 0) (l.foldl (fun r p => insertRank p r) []) with
  | [] => .zero
  | p :: _ => p.2

/-- Element k of the FP32 bytes of a partial sum (R418). -/
def farElem (bs : List Byte) (k : Nat) : Num := fp32.decode (leNat ((bs.drop (4 * k)).take 4))

/-- The FP32 bytes of a chunk's result: the sum that another device has returned, or that of this device's members, with those of other
devices where this one joins them (R418). -/
def State.chunkBytes (s : State) (c : Coll) (w : Word) (chunk : Fin 16) : List Byte :=
  let span := chunkSpan w chunk.val
  match c.totals.find? fun p => p.1 == chunk with
  | some p => p.2
  | none =>
    let ms := (byRank c.members).map fun m => (m.tile.cl.val, s.memberBytes m)
    let low := c.members.foldl (fun n m => min n m.rank) 65536
    let far := c.far.filter fun x => x.chunk == chunk
    (List.range (span.2 - span.1)).flatMap fun k =>
      let own := treeSum (ms.map fun p => (p.1, contribution w p.2 (span.1 + k)))
      leBytes (fp32.encode rne (joinRanks ((low, own) :: far.map fun x => (x.rank, farElem x.bytes k)))) 4

/-- A write of the result at a member's destination on the focus tile: published at once (R143), over what copies of the tile have still to
publish, and seen by the tile's next accesses (R130). -/
def State.landBytes (s : State) (a : Nat) (bs : List Byte) : State :=
  if regionOf a == .slice then
    let off := a - 0x400000
    { s with
      mem := s.mem.put (sliceKey s.tile.cl off) bs
      tile := { s.tile.dropCopied (fun x => decide (off ≤ x) && decide (x < off + bs.length)) with
        unpub := ovDrop s.tile.unpub off bs.length, tpub := ovDrop s.tile.tpub off bs.length
        view := overlayView s.tile.view (cellsAt off bs) } }
  else s.spStore a bs

/-- A member whose every chunk has been counted leaves tl (R286). -/
def State.memberDone (s : State) (m : Member) : State := s.atTile m.tile fun t => (t.dropFeet m.job).uncount .tl

/-- The checks of a chunk's write at a member: slots and windows (R61, R69); none where it waits for a fill. -/
def State.landPrep (s : State) (chunk : Fin 16) (m : Member) : Option Prep :=
  let span := chunkSpan m.word chunk.val
  let u := s.focus m.tile
  if colWrites m.word m.rank && decide (span.1 < span.2) then
    (u.latePrep true [(m.dst + 4 * span.1, m.dst + 4 * span.2)]).back u s.tile.id
  else some (.ok s)

/-- A member has done with a chunk. -/
def State.countedAt (s : State) (chunk : Fin 16) (m : Member) : State × Member :=
  let m := { m with landed := m.landed ++ [chunk] }
  if colNch m.word < m.landed.length then (s.memberDone m, { m with out := true }) else (s, m)

/-- Land a chunk at one member. DEDUCED (log 44): a write that a slot or a window refuses is treated as R305 treats a count that its
semaphore refuses; one whose line has still to be filled lands when the fill has returned. -/
def State.landAt (s : State) (chunk : Fin 16) (bs : List Byte) (m : Member) : State × Member :=
  if m.landed.contains chunk || m.out then (s, m)
  else
    match s.landPrep chunk m with
    | none => (s, m)
    | some (.stall u) => (u, m)
    | some (.trap i) => (s.atTile m.tile fun t => t.engErr i.cause 2 (colGid m.word).val i.val).countedAt chunk m
    | some (.ok u) =>
      let span := chunkSpan m.word chunk.val
      let u := if colWrites m.word m.rank then u.onTile m.tile fun u => u.landBytes (m.dst + 4 * span.1) bs else u
      (u.countChunk m chunk).countedAt chunk m

/-- Land a chunk at every member. -/
def State.landAll (s : State) (chunk : Fin 16) (bs : List Byte) : List Member → State × List Member
  | [] => (s, [])
  | m :: l =>
    let (s, m) := s.landAt chunk bs m
    let (s, r) := State.landAll s chunk bs l
    (s, m :: r)

/-- Replace the first collective of a group that satisfies a condition; one whose members have all come and left goes. -/
def putColl (g : Fin 65536) (p : Coll → Bool) (new : Coll) : List Coll → List Coll
  | [] => []
  | c :: l =>
    if c.gid = g ∧ p c then (if new.whole && new.members.all (·.out) then l else new :: l)
    else c :: putColl g p new l

/-- Whether a collective may go on: every member has come, agrees, and can read its bytes (R305). -/
def State.collReady (s : State) (c : Coll) : Bool :=
  c.abort.isNone && c.whole && c.agrees && !s.parted c && c.members.all fun m => (s.memberPrep m).isSome

/-- What refuses a read that a member has still to make (R61, R401, log 48). -/
def State.readTrap (s : State) (c : Coll) : Option TrapInfo :=
  c.members.findSome? fun m =>
    match s.memberPrep m with
    | some (.trap i) => if m.out then none else some i
    | _ => none

/-- The fills that members' reads begin; none where none does. -/
def State.readFills (s : State) (l : List Member) : Option State :=
  let begins := fun (s : State) (m : Member) =>
    match s.memberPrep m with
    | some (.stall u) => some u
    | _ => none
  if l.any fun m => (begins s m).isSome then some (l.foldl (fun s m => (begins s m).getD s) s) else none

/-- Whether a chunk holds no elements (R305). -/
def emptyChunk (w : Word) (k : Fin 16) : Bool := (chunkSpan w k.val).1 == (chunkSpan w k.val).2

/-- The fills that a chunk has still to wait for, begun; a chunk without elements reads nothing. -/
def State.chunkFills (s : State) (chunk : Fin 16) (c : Coll) : Option State :=
  if c.members.all fun m => emptyChunk m.word chunk then none else s.readFills c.members

/-- Whether a chunk that is ready makes a step: a fill begins for it, or a member lands it. -/
def State.chunkMoves (s : State) (chunk : Fin 16) (c : Coll) : Bool :=
  (s.chunkFills chunk c).isSome
    || c.members.any fun m =>
      decide (chunk.val ≤ colNch m.word) && !m.landed.contains chunk && !m.out && (s.landPrep chunk m).isSome

/-- Whether a join of a collective that a member's contribution enters has a full buffer (R416, R418). -/
def State.jammed (s : State) (c : Coll) (m : Member) : Bool := (c.joins m).any fun x => (s.clusters[x.val]).jam

/-- Whether a member's contribution cannot enter its joins: a buffer is full, its back-off has not passed (R416), a router on its way is
down (R438). -/
def State.joinShut (s : State) (c : Coll) (m : Member) : Bool :=
  s.jammed c m || decide (s.time.toNat < m.due) || s.blocked (s.joinRoute c m)

/-- The home cluster of a member's team, at whose semaphores it counts (R305). -/
def State.memberHome (s : State) (m : Member) : ClusterNo := ((s.findTeam m.team).map (·.home)).getD m.tile.cl

/-- Where a chunk arrives at the members that have still to land it: their clusters, and those of their semaphores. -/
def State.goals (s : State) (chunk : Fin 16) (c : Coll) : List ClusterNo :=
  (c.members.filter fun m => !m.out && !m.landed.contains chunk).flatMap fun m => [m.tile.cl, s.memberHome m]

/-- Whether a chunk of a collective may land (R305, R416, R418), or an arrival of it has still to ask for power (R431, R436): one without
elements as soon as every member has come (R419). -/
def State.chunkReady (s : State) (chunk : Fin 16) (c : Coll) : Bool :=
  c.abort.isNone && c.whole && c.agrees && !s.parted c
    && c.members.any (fun m => chunk.val ≤ colNch m.word && !m.landed.contains chunk) && s.chunkMoves chunk c
    && (c.members.all (fun m => emptyChunk m.word chunk)
      || (s.collReady c && !s.farLost c && (s.readTrap c).isNone && s.farReady c chunk && (!c.totals.isEmpty || !c.members.any (s.joinShut c))))
    && (s.goals chunk c).all fun x => s.stirs (some x)

/-- GRED_CHUNK_LAND (R143, R305, R418); a member's cluster that lets nothing in is asked first (R431, R436). -/
def State.landChunk (s : State) (g : Fin 65536) (chunk : Fin 16) : State :=
  match s.colls.find? fun c => c.gid == g && s.chunkReady chunk c with
  | none => s
  | some c =>
    match c.members, (s.goals chunk c).filter fun x => !(s.clusters[x.val]).lets with
    | [], _ => s
    | _ :: _, x :: l => (x :: l).foldl State.knock s
    | m :: _, [] =>
      match s.chunkFills chunk c with
      | some u => u
      | none =>
      let bs := s.chunkBytes c m.word chunk
      let kept := c.members.map fun m => if (s.memberPrep m).isSome then { m with data := some (s.memberBytes m) } else m
      let (u, ms) := s.landAll chunk bs kept
      ({ u with colls := putColl g (s.chunkReady chunk) { c with members := ms } u.colls } : State).noteFlits
        (c.members.flatMap (s.joinRoute c))

def execGredChunkLand (gid : Fin 65536) (chunk : Fin 16) (s : State) : Host.Outcome State Fault Refusal :=
  .next (s.landChunk gid chunk)

/-- Abort one member's part, with the address that the cause concerns, if any (R288, R305, R306, R394). -/
def State.abortMember (c : Cause) (v : Word) (s : State) (m : Member) : State :=
  if m.out then s
  else
    let g := colGid m.word
    let sems := (List.range (colNch m.word + 1)).map fun k => (Fin.ofNat 64 (m.sem.val + k) : SemNo)
    s.atTile m.tile fun t =>
      let t := ((t.dropFeet m.job).uncount .tl).engErr c 2 g.val v
      let mark := fun (k : Task) => if k.aborted.contains g then k else { k with aborted := k.aborted ++ [g] }
      { t with task := t.task.map mark, abortSems := t.abortSems ++ sems }

/-- Abort a collective for every member that has come. -/
def State.abortColl (s : State) (p : Coll → Bool) (c : Coll) (cause : Cause) (v : Word := 0) : State :=
  let u := c.members.foldl (State.abortMember cause v) s
  let new := { c with abort := some cause, members := c.members.map fun m => { m with out := true } }
  { u with colls := putColl c.gid p new u.colls }

/-- Whether a collective whose members have all come has still to read bytes that are refused (R61, R401, log 48). -/
def State.collBad (s : State) (c : Coll) : Bool := s.collReady c && (s.readTrap c).isSome

/-- Whether a collective has an abort to make: its members differ, it has no way, it was aborted before a member came, a device that
holds members is out of reach (R422), or its bytes are refused. -/
def State.doomed (s : State) (c : Coll) : Bool :=
  (c.abort.isSome || !c.agrees || s.parted c || s.farLost c || s.collBad c) && c.members.any fun m => !m.out

/-- Why a collective is aborted, with the address concerned (R305, R394, R401, R420, R422). -/
def State.abortCause (s : State) (c : Coll) : Cause × Word :=
  if !c.agrees then (.collectiveMismatch, 0)
  else if s.parted c then (.linkDown, 0)
  else if s.farLost c then (.peerUnreachable, 0)
  else ((s.readTrap c).map fun i => (i.cause, i.val)).getD (.spUncorrectable, 0)

/-- A member whose contribution its join buffer refuses now (R416). -/
def State.nextJoin (s : State) : Option (Coll × Member) :=
  s.colls.findSome? fun c =>
    if s.collReady c && c.totals.isEmpty then
      (c.members.find? fun m => !m.out && s.jammed c m && decide (m.due ≤ s.time.toNat)).map fun m => (c, m)
    else none

/-- One more refusal of a member's contribution (R416): after LIMIT + 1 of them it is dropped and the collective, which lacks it, is
aborted with NAK_LIMIT (log 44), else it is sent again after the back-off. -/
def State.refuseJoin (s : State) (c : Coll) (m : Member) : State :=
  let d := s.dies[(dieOf m.tile.cl).val]
  let n := m.tries + 1
  let this := fun (x : Coll) => x == c
  if d.nakLimit.val < n then s.abortColl this c .nakLimit
  else
    let again := { m with tries := n, due := s.time.toNat + backoff d.nakBkoff.toNat n }
    { s with colls := putColl c.gid this { c with members := c.members.map fun x => if x == m then again else x } s.colls }

/-- NAK_RESEND (R301, R416): a refused row, put or contribution is sent again once its back-off has passed. -/
def execNakResend (s : State) : Host.Outcome State Fault Refusal :=
  match s.nextRow true with
  | some m => .next (s.deliverRow m)
  | none =>
    match s.nextPut true with
    | some m => .next (s.deliverPut m)
    | none =>
      match s.nextJoin with
      | some (c, m) => .next (s.refuseJoin c m)
      | none => .next s

/-- COLLECTIVE_ABORT (R288, R305, R401, R420): the members differ, no way joins them, bytes of theirs are bad, or, where unreachable, a member device does not
answer. -/
def State.collAbort (s : State) (g : Fin 65536) (unreachable : Bool) : State :=
  let p := fun (c : Coll) => if unreachable then c.abort.isNone && c.members.any (fun m => !m.out) else s.doomed c
  match s.colls.find? fun c => c.gid == g && p c with
  | none => s
  | some c =>
    let why := if unreachable then (.peerUnreachable, 0) else (c.abort.map fun e => (e, 0)).getD (s.abortCause c)
    s.abortColl p c why.1 why.2

def execCollectiveAbort (gid : Fin 65536) (unreachable : Bool) (s : State) : Host.Outcome State Fault Refusal :=
  .next (s.collAbort gid unreachable)

/-! ## Links -/

/-- Whether a circuit's route crosses a link (R417, R420). -/
def State.crosses (s : State) (l : LinkNo) (cl : ClusterNo) (w : Word) : Bool :=
  (s.dieWay (dieOf cl) (dieOf (Fin.ofNat 48 (endCluster w)))).contains l

/-- The send ends of a tile of a cluster whose circuits' routes have lost a link: those before, and those that cross this one. -/
def State.cutEnds (s : State) (l : LinkNo) (c : ClusterNo) (ends : Vector Word 64) (dead : List EndNo) : List EndNo :=
  dead ++ (List.finRange 64).filter fun k =>
    let w := ends[k.val]
    endValid w && !endRecv w && s.crosses l c w && !dead.contains k

/-- The circuits of a tile that cross a link are cut, those of its own team's tasks, under a stolen one, too (R420). -/
def Tile.cutOver (s : State) (l : LinkNo) (t : Tile) : Tile :=
  { t with
    deadEnds := s.cutEnds l t.cl t.ends t.deadEnds
    saved := t.saved.map fun o => { o with deadEnds := s.cutEnds l t.cl o.ends o.deadEnds } }

/-- Whether a collective's tree crosses a link: its sums pass CD0, and one of its members reaches it through the link (R418, R420). -/
def Coll.crossing (s : State) (l : LinkNo) (c : Coll) : Bool :=
  c.abort.isNone && c.wide && c.members.any fun m => (s.dieWay (dieOf m.tile.cl) 0).contains l

/-- Remote rows on their way through a weight die's link fail (R87, R420). -/
def Tile.loseRows (t : Tile) : Tile :=
  let fail := fun (x : LandRow) => if x.arrived then x else { x with failed := true }
  { t with
    queues := t.queues.map fun q => q.map fun x => if x.remote.isSome && !x.arrived then { x with failed := true } else x
    mat := { t.mat with land := t.mat.land.map fun l => l.map fail } }

/-- A link goes down, for good where its lanes have failed (R301, R414, R420): what it still carried is refused. -/
def State.linkOff (s : State) (l : LinkNo) (dead : Bool) : State :=
  let x := s.links[l.val]
  if !x.up then s
  else
    let was := s
    let s := { s with links := s.links.set l.val { x with up := false, dead := x.dead || dead, downs := x.downs + 1 } }
    if 4 ≤ l.val then
      s.mapTiles fun t => if (dieOf t.cl).val + 4 = l.val then t.loseRows else t
    else
      let crossing := fun (m : RowMsg) => was.crosses l m.src.cl ((s.tileAt m.src).ends[m.send.val])
      let s' := (s.rows.filter crossing).foldl (fun s m => s.rowEnd m (some .linkDown)) s
      let s' := s'.mapTiles (Tile.cutOver was l)
      let s' := { s' with teams := s'.teams.map fun k => Team.mapSaved k (Tile.cutOver was l) }
      let s' := (s'.colls.filter (Coll.crossing was l)).foldl (fun s c => s.abortColl (fun y => y == c) c .linkDown) s'
      let crosses := fun (m : PutMsg) (d : DieNo) => (was.dieWay (dieOf m.src.cl) d).contains l
      let far := fun (m : PutMsg) =>
        (was.putTo m).any (fun c => crosses m (dieOf c)) || m.pages.any fun p => (was.homeDie (was.partAt m.src) p.spa).any (crosses m)
      (s'.puts.filter far).foldl State.refusePut s'

/-- LINK_DOWN (R420). -/
def execLinkDown (l : LinkNo) (s : State) : Host.Outcome State Fault Refusal := .next (s.linkOff l true)

/-- A flit of a link that is up has been retried: RETRIES counts it, saturating (R414). -/
def Link.retry (x : Link) : Link :=
  if x.up then { x with retries := if x.retries = 65535 then x.retries else x.retries + 1 } else x

/-- LANE_REPAIR (R414): a link that is up goes on by a spare lane. DESIGN CHOICE (log 7): a flit was retried for it. -/
def Link.repair (x : Link) : Link := { x.retry with repaired := x.repaired || x.up }

def execLaneRepair (l : LinkNo) (s : State) : Host.Outcome State Fault Refusal :=
  .next { s with links := s.links.set l.val (s.links[l.val]).repair }

end Sys2Proof.Machine
end

