-- ==== Sys2Proof/Machine/Teams.lean ====
section
/-! DEFINITION. Tasks and teams: block starts (R23-R26), the context pool (R404), how a team leaves its tiles (R35-R41,
R405-R408), how a task ends (R21, R397), how a team ends (R33, R398), and YIELD (R39). -/

namespace Sys2Proof.Machine

/-- The tiles of a team: those that its bind record gave it (R17). -/
def State.teamTiles (s : State) (id : Fin 65536) : List Tile := s.tiles.filter fun t => t.team.any fun p => p.1 == id

/-- The tiles that run a task of a team. -/
def State.taskTiles (s : State) (id : Fin 65536) : List Tile := s.tiles.filter fun t => t.task.any fun k => k.team == id

/-- The units of 16 KiB that a number of bytes takes (R404). -/
def poolUnits (n : Nat) : Nat := (n + 16383) / 16384

/-- The first gap of n units at or after unit p, below a size (R404, log 19). -/
def firstFit (size n : Nat) : Nat → List PoolPart → Option Nat
  | p, [] => if p + n ≤ size then some p else none
  | p, a :: l => if p + n ≤ a.first then some p else firstFit size n (a.first + a.units) l

/-- Put a part into the list sorted by its first unit. -/
def insertPart (a : PoolPart) : List PoolPart → List PoolPart
  | [] => [a]
  | b :: l => if a.first < b.first then a :: b :: l else b :: insertPart a l

/-- Take room for bytes in a die's context pool: its first unit, and the die (R404). -/
def Die.reserve (d : Die) (team : Fin 65536) (bytes : Nat) : Option (Nat × Die) :=
  (firstFit d.ctxpoolsz.toNat (poolUnits bytes) 0 d.pool).map fun u =>
    (u, { d with pool := insertPart ⟨u, poolUnits bytes, team⟩ d.pool })

/-- The address of a unit of a die's context pool (R404). -/
def Die.unitSpa (d : Die) (u : Nat) : Nat := d.ctxpool.toNat + u * 16384

/-- Whether the pools of the dies have room for pieces one after another, each of a team whose home lies on a die (R404). -/
def roomFor (ds : Vector Die 4) : List (DieNo × Fin 65536 × Nat) → Bool
  | [] => true
  | (d, id, n) :: l =>
    match (ds[d.val]).reserve id n with
    | none => false
    | some (_, x) => roomFor (ds.set d.val x) l

/-- The bytes of a tile's image (R406). -/
def Tile.imageSize (t : Tile) (content : List (Nat × Nat)) : Nat :=
  arrayOff + asz + t.records.length + (t.declared content).foldl (fun n r => n + 16 + (r.2 - r.1)) 0

/-- The bytes of a team header (R408). -/
def headerSize : Nat := 4096

/-- Give a tile its own team's state back as it stood before a stolen task (R30). -/
def Tile.own (t : Tile) : Tile :=
  match t.saved with
  | none => t
  | some o =>
    { t with
      rings := o.rings, maps := o.maps, ends := o.ends, deadEnds := o.deadEnds, spswz := o.spswz, chown := o.chown, skew := o.skew
      commits := o.commits, squashes := o.squashes, replays := o.replays, stretch := o.stretch, saved := none }

/-- Whether a team has to do with what a tile runs as a stolen task: the task is the team's, or the tile is (R30, log 19). -/
def Tile.guest (t : Tile) (id : Fin 65536) : Bool :=
  t.task.any fun k => k.stolen && (k.team == id || t.team.any fun p => p.1 == id)

/-- The tiles that run a team's tasks as stolen ones, and those of the team that run another team's (R30). -/
def State.guests (s : State) (id : Fin 65536) : List Tile := s.tiles.filter fun t => t.guest id

/-- The pieces that the context of a team takes of the pools: its header and its tiles' images; the images of the stolen tasks, which
go to their own team's die (R404, R405 step 4, log 19). -/
def State.pieces (s : State) (k : Team) : List (DieNo × Fin 65536 × Nat) :=
  let own := headerSize :: (s.teamTiles k.id).map fun t => (t.own).imageSize k.content
  let guest := fun (t : Tile) =>
    (t.task.bind fun x => s.findTeam x.team).map fun o => (dieOf o.home, o.id, t.imageSize [])
  (s.guests k.id).filterMap guest ++ own.map fun n => (dieOf k.home, k.id, n)

/-- Whether the pools have room for a team's header and images (R404, R405 step 4). -/
def State.hasPool (s : State) (k : Team) : Bool := roomFor s.dies (s.pieces k)

/-- Whether what a tile runs belongs to a team: a task of it, on whichever tile, or, with no task, the tile (R30, R405). -/
def Tile.belongs (t : Tile) (id : Fin 65536) : Bool :=
  match t.task with
  | some k => k.team == id
  | none => t.team.any fun p => p.1 == id

/-- Whether a tile stops when a team stops for a cause: it runs what belongs to the team, or it is the team's and has to be given
up, a stolen task of another team with it, which goes on elsewhere (R30, R35, R405 step 1, log 19). -/
def Tile.stopsFor (t : Tile) (id : Fin 65536) (c : Cause) : Bool := t.belongs id || (c != .debugHalt && t.guest id)

/-- Squash the speculations of the tasks that stop with a team (R160). -/
def State.squashTeam (s : State) (id : Fin 65536) (c : Cause) : State :=
  (s.tiles.filter fun t => t.stopsFor id c && t.spec.isSome).foldl (fun s t => s.squash t.id) s

/-- A tile of a team that is asked to leave stops at its bundle boundary; one whose tile cycle is still to come at the time of
the request takes it first (R409), one that is in a replay completes it (R405 step 1). -/
def Tile.halt (t : Tile) (clock : Nat) (now : Bool) : Tile :=
  if t.stopped then t
  else { t with stopped := true, grace := t.task.isSome && (t.reissue || (!now && decide (t.now ≤ clock))) }

/-- Whether a cluster is in retention. -/
def State.sleeps (s : State) (c : ClusterNo) : Bool := (s.clusters[c.val]).state == .retention

/-- The tiles that stop with a team stop, those of a cluster in retention once it runs (R436); me: in this tile cycle the request is the focus
tile's own. -/
def State.stopTiles (s : State) (id : Fin 65536) (c : Cause) (me : Bool) : State :=
  s.mapTiles fun t => if t.stopsFor id c && !s.sleeps t.cl then t.halt s.clock (me && t.id == s.tile.id) else t

/-- Every cluster with a tile that stops with a team is woken (R436). -/
def State.knockFor (s : State) (id : Fin 65536) (c : Cause) : State :=
  (s.tiles.filter (·.stopsFor id c)).foldl (fun s t => s.knock t.cl) s

/-- Ask a team to leave its tiles, or to stop on them, for a cause (R35, R39, R40, R402): every task of it stops at its bundle
boundary, before speculation is squashed (R405 steps 1 and 2). me: the request is the focus tile's own, in this tile cycle. -/
def State.askLeave (s : State) (k : Team) (c : Cause) (tr : Option Trigger) (me : Bool) : State :=
  if k.state != .resident || k.leave.isSome then s
  else if c != .debugHalt && !s.hasPool k then s
  else
    (((s.knock k.home).knockFor k.id c).stopTiles k.id c me).setTeam { k with leave := some c, trigger := tr }

/-- Why a team stands still, if it does: it leaves its tiles, or a debugger has halted it. -/
def Team.stops (k : Team) : Option Cause := if k.state == .halted then some .debugHalt else k.leave

/-- The tiles of a cluster that runs again stop where a team asks them to (R436). -/
def State.stopLate (s : State) (c : ClusterNo) : State :=
  let asked := fun (t : Tile) => s.teams.any fun k => k.stops.any fun c => t.stopsFor k.id c
  s.mapTiles fun t => if t.cl == c && asked t then t.halt s.clock true else t

/-- The tiles that stopped with a team issue again, but for those that another team stops; a stall is timed anew (R400, R403). -/
def State.unstop (s : State) (id : Fin 65536) : State :=
  let held := fun (t : Tile) => s.teams.any fun k => k.id != id && k.stops.any fun c => t.stopsFor k.id c
  s.mapTiles fun t =>
    if t.stopped && t.stopsFor id .swapRequest && !held t then { t with stopped := false, grace := false, stallSince := none } else t

/-- Whether a tile stands as a context needs it (R405 steps 1 to 3): nothing under way. -/
def Tile.quiet (t : Tile) : Bool :=
  !t.grace && t.ending.isNone && t.spec.isNone && t.releasing.isNone && t.drained && t.fills.isEmpty

/-- Whether every task that stops with a team stands still (R405 step 3), in a cluster that runs (R436). -/
def State.still (s : State) (id : Fin 65536) (c : Cause) : Bool :=
  s.tiles.all fun t => !t.stopsFor id c || (t.quiet && !s.sleeps t.cl)

/-- The kind and value of a trigger wait in a team header (R408). -/
def Trigger.code (w : Trigger) : Nat :=
  match w.kind with
  | .sem k => 1 * 2 ^ 56 + k.val
  | .lintel => 2 * 2 ^ 56
  | .addr a => 3 * 2 ^ 56 + a
  | .ring n _ | .full n => 4 * 2 ^ 56 + n.val
  | .counters => 5 * 2 ^ 56
  | .mailbox => 6 * 2 ^ 56

/-- STATE of a team header (R408). -/
def TeamState.code (x : TeamState) : Nat :=
  match x with
  | .resident => 0
  | .swapReady => 1
  | .swapWaiting => 2
  | .halted => 3
  | .ending => 4

/-- The image address of a logical tile, 0 for none. -/
def Team.imageOf (k : Team) (l : Fin 16) : Nat := ((k.images.find? fun p => p.1 == l).map (·.2)).getD 0

/-- The team header (R408). The token's place holds its colour, its sum and its position, 8 bytes each (log 19). -/
def Team.header (k : Team) : List Byte :=
  let w := fun (v : Nat) => leBytes v 8
  padTo 0x40 (w (k.id.val + k.ntiles * 2 ^ 16 + k.state.code * 2 ^ 24 + k.cause * 2 ^ 32) ++ w k.rcb
    ++ w (k.home.val + k.part.val * 2 ^ 8) ++ w ((k.trigger.map Trigger.code).getD 0))
  ++ padTo 0x40 (w k.token.black.toNat ++ leBytes (lowBits 64 k.token.sum) 8 ++ w k.token.pos.val)
  ++ (k.counts.toList.flatMap fun c => leBytes (lowBits 64 c) 8)
  ++ padTo 0x300 ((List.finRange 16).flatMap fun l => w (k.imageOf l))
  ++ padTo 0xC00 (k.pool.flatMap fun e => w e.entry.toNat ++ w e.arg.toNat)

/-- Write a team's header where its context lies (R405, R408). -/
def State.writeHeader (s : State) (k : Team) : State := { s with mem := s.mem.put k.headerAt k.header }

/-- A tile that its team has left: a reset tile, its clock going on (R405 step 5). -/
def Tile.freed (t : Tile) : Tile := { Tile.reset t.cl t.tn with tc := t.tc, now := t.now, seen := t.seen }

/-- The focus tile, stopped, as its image is to hold it: nothing waits, no replay is open. -/
def Tile.parked (t : Tile) : Tile := { (t.settle) with woken := t.woken, predDone := t.predDone, stopped := false, grace := false }

/-- Why a context is not written: the pool has no room for it (R404), or the image of a team's logical tile fails (R405). -/
inductive SaveErr where
  | noRoom
  | failed (id : Fin 65536) (l : Nat)

/-- Whether the image of the focus tile cannot be taken: a row whose parity is in error (R50, R80), or a byte of its scratchpad with
an uncorrectable error (R401, R405). -/
def State.imageFails (s : State) (rs : List (Nat × Nat)) : Bool :=
  s.tile.imageTrap.isSome || rs.any fun r => (s.jobBad r.1 (r.2 - r.1)).isSome

/-- The image of the focus tile written into the context pool of a team's die, its address, and the state (R404, R405). -/
def State.putImage (s : State) (k : Team) (l : Nat) (rs : List (Nat × Nat)) : Except SaveErr (Nat × State) :=
  if s.imageFails rs then .error (.failed k.id l)
  else
    let (bs, s) := s.image rs
    let dn := dieOf k.home
    match (s.dies[dn.val]).reserve k.id bs.length with
    | none => .error .noRoom
    | some (u, d) => .ok (d.unitSpa u, { s with dies := s.dies.set dn.val d, mem := s.mem.put (d.unitSpa u) bs })

/-- No tile waits for a semaphore any more at a tile that its task has left. -/
def State.leaveAll (s : State) (i : TileId) : State := { s with clusters := s.clusters.map fun (c : Cluster) => c.leave i }

/-- Write the image of one tile of a team, keep what the image does not hold, free the tile (R405 steps 4 and 5). -/
def State.saveTile (id : Fin 65536) (s : State) (i : TileId) : Except SaveErr State :=
  let s := (s.focus i).mapTile Tile.parked
  match s.findTeam id, s.tile.team with
  | some k, some (_, l) =>
    match s.putImage k l.val (s.tile.declared k.content) with
    | .error e => .error e
    | .ok (a, s) =>
      let s := s.setTeam { k with saved := k.saved ++ [(l, s.tile)], images := k.images ++ [(l, a)] }
      .ok ((s.leaveAll i).mapTile Tile.freed)
  | _, _ => .ok s

/-- Set every scratchpad byte of the focus tile to 0 (R30, R72). -/
def State.clearSp (s : State) : State :=
  let a := spKey s.tile.cl s.tile.tn 0
  { s with mem := s.mem.clear a (a + 2 ^ 21) }

/-- Give a tile its own team's state back after a stolen task (R30). DESIGN CHOICE (log 19): from a copy kept beside the image, so that
the image's own checks (R405, R407) find nothing at a steal's end, R30 naming none. -/
def State.restoreOwn (s : State) : State :=
  match s.tile.saved with
  | none => s
  | some o =>
    let s := s.clearSp
    let dn := dieOf s.tile.cl
    let d := s.dies[dn.val]
    let s := { s with
      dies := s.dies.set dn.val { d with pool := d.pool.filter fun p => some p.first != o.unit }
      mem := o.bytes.foldl (fun m (p : Host.Cell) => m.set p.1 p.2) s.mem }
    s.mapTile Tile.own

/-- A loader or storer core that a fault had stopped runs again once the task has ended (R391). -/
def LsCore.release (c : LsCore) : LsCore := if c.failed then { c with failed := false, fault := none, running := true } else c

/-- The tile without its task: unpopped queue entries and the monitor entry are gone (R21, R397). -/
def Tile.taskless (t : Tile) : Tile :=
  { t.settle with
    task := none, ending := none, priv := false, spec := none, releasing := none, pslots := [], ahead := none, barr := false, abortSems := []
    engerr := 0, stopped := false, grace := false
    queues := Vector.replicate 8 [], loader := t.loader.release, storer := t.storer.release }

/-- Write the image of a stolen task that a tile runs into the pool of its own team's die, keep what the image does not hold, and give
the tile back to its own team (R30, R405, log 19). -/
def State.saveAway (s : State) (i : TileId) : Except SaveErr State :=
  let s := (s.focus i).mapTile Tile.parked
  match s.team with
  | some k =>
    match s.putImage k ((s.tile.task.map (·.ltile.val)).getD 0) (s.tile.declared []) with
    | .error e => .error e
    | .ok (a, s) =>
      let s := s.setTeam { k with away := k.away ++ [(s.tile, a)] }
      .ok (((s.leaveAll i).mapTile Tile.taskless).restoreOwn)
  | none => .ok s

/-- Whether a saved tile finds its ring ready (R36). -/
def Tile.ringReady (t : Tile) (n : RingNo) (acquire : Bool) : Bool :=
  (t.ringNo n.val).any fun k =>
    let r := t.rings[k.val]
    if acquire then r.st[r.pidx.val] == .empty else r.st[r.cidx.val] == .full

/-- Whether the trigger wait of a swapped team is satisfied (R36). -/
def State.triggerMet (s : State) (k : Team) : Bool :=
  match k.trigger with
  | none => true
  | some w =>
    let on := fun (f : Tile → Bool) =>
      match w.away with
      | some i => k.away.any fun p => p.1.id == i && f p.1
      | none => k.saved.any fun p => p.1 == w.ltile && f p.2
    match w.kind with
    | .sem _ => (s.clusters[k.home.val]).holds w.takes
    | .lintel => on fun t => t.arrival == .released
    | .addr _ => on (·.woken)
    | .ring n q => on fun t => t.ringReady n q
    | .full n => on fun t => t.ringReady n false
    | .counters => true
    | .mailbox => on fun t => !(t.mbx[0]).isEmpty

/-- Whether a task is a participant: its first block says so, whether or not the task has got beyond it (R22, R210). -/
def State.participant (s : State) (t : Tile) : Bool :=
  t.task.any fun k => k.lintel || (k.first && (s.descriptorAt t.pc).any (·.lintel))

/-- A participant that ends without having arrived in the generation in progress is counted as arrived (R397 step 5). -/
def State.arriveFor (s : State) (part : PartNo) (t : Tile) : State :=
  let p := s.parts[part.val]
  if s.participant t && p.partsNo != 0 && !(t.arrival != .none && t.arrGen == p.gen) then
    { s with parts := s.parts.set part.val (p.arrive s.time.toNat) }
  else s

/-- Note how the team of a launch ended: for its record, or for its node (R355, R370). -/
def State.noteEnd (s : State) (k : Team) (code : Nat) : State :=
  match k.record with
  | none => s
  | some r =>
    { s with records := s.records.map fun x =>
        if x.id != r then x
        else
          match k.node with
          | none => { x with state := .ended code }
          | some n =>
            { x with nodes := x.nodes.mapIdx fun i y => if i = n.val then { y with ended := some code } else y } }

/-- Codes of R355. -/
def stDone : Nat := 0
def stFaulted : Nat := 9

/-- END A TEAM (R33, R398): the tasks of other teams that it stopped go on; its semaphores, monitor entries, in whichever cluster (R269), circuit ends and images are released, its tiles
freed, its charges taken back, its record or node told the outcome. -/
def State.endTeam (s : State) (k : Team) (code : Nat) : State :=
  let free := fun (x : Sem) => if x.granted && x.team == k.id then { x with granted := false, putOpen := false } else x
  let dn := dieOf k.home
  let d := s.dies[dn.val]
  let clean := fun (c : Cluster) => ({ c with monitors := c.monitors.filter fun m => m.team != k.id } : Cluster)
  let s := s.unstop k.id
  let s := { s with clusters := s.clusters.map clean }
  let c := s.clusters[k.home.val]
  let s := { s with
    clusters := s.clusters.set k.home.val { c with sems := c.sems.map free }
    dies := s.dies.set dn.val { d with pool := d.pool.filter fun p => p.team != k.id } }
  let s := s.mapTiles fun t =>
    if !t.team.any fun p => p.1 == k.id then t
    else if t.task.isSome then { t with team := none, saved := none }
    else t.freed
  let s := (s.charge k.rcb 9 false k.spBytes).charge k.rcb 10 false 1
  let s := { s with teams := s.teams.filter fun x => x.id != k.id }
  s.noteEnd k code

/-- End a team whose last task has ended, if its pool has ended too (R33, R397, R398); the tasks that no tile runs end with a team
that ends by a fault, and are counted at the barrier (R397 step 5). -/
def State.checkTeam (s : State) (id : Fin 65536) : State :=
  match s.findTeam id with
  | none => s
  | some k =>
    if (k.ended || k.state == .ending) && (s.taskTiles id).isEmpty then
      let s := if k.state == .ending then k.away.foldl (fun s p => s.arriveFor k.part p.1) s else s
      s.endTeam k (if k.faulted then stFaulted else stDone)
    else s

/-- The last part of a task's end: the tile is free, the pool and the token are told (R21 step 4, R32, R397 step 4), and the
team ends with its last task. -/
def State.endTask (s : State) : State :=
  match s.tile.task with
  | none => s.mapTile fun t => { t with ending := none }
  | some k =>
    let s := s.leaveQueue
    let s :=
      match s.findTeam k.team with
      | none => s
      | some x =>
        if k.pool then s.setTeam { x with counts := x.counts.set k.pos.val (x.counts[k.pos.val] - 1) }
        else s.setTeam { x with live := x.live.filter fun l => l != k.ltile }
    let s := (s.mapTile Tile.taskless).restoreOwn
    s.checkTeam k.team

/-- The dirty lines of every window of a tile. -/
def Tile.allLines (t : Tile) : List (MapNo × Nat) := (List.finRange 16).flatMap t.linesOf

/-- Raise a cause at the RETIRE that waited (R288, R396). -/
def State.unretire (s : State) (pc : Nat) (i : TrapInfo) : State :=
  (s.mapTile fun t => { t with ending := none, pc := pc }).raise pc i

/-- Steps 2 to 4 of RETIRE (R21), once its counters are zero; a pending engine error is raised there (R288). -/
def State.finishRetire (s : State) (pc : Nat) : State :=
  let t := s.tile
  if t.engerr.getLsbD 63 then
    ({ s with tile := t.clearEngerr } : State).unretire pc t.engTrap
  else
    match s.writeBacks t.allLines with
    | .error (u, i) => u.unretire pc { i with slot := 1 }
    | .ok u =>
      match boundary ⟨u, 0, pc⟩ u allMask true with
      | .ok u => u.endTask
      | .stall => s.holdIssue
      | .fail u i => u.unretire pc { i with slot := 1 }

/-- The words of a fault record (R399). -/
def faultRecord (i : TrapInfo) (pc : Nat) (outcome : Nat) (k : Team) (c : ClusterNo) (l : Nat) (now : Nat) : List Nat :=
  [i.trapst.toNat + outcome * 2 ^ 49 + k.id.val * 2 ^ 32 + c.val * 2 ^ 26 + l * 2 ^ 22, pc, i.val.toNat, k.rcb, now,
    0, 0, 0]

/-- Write a number for a partition at a system physical address (R374). -/
def State.putSpaNum (s : State) (part : PartNo) (a v n : Nat) : State := s.putSpa part a (leBytes v n)

/-- Write a record to a partition's ring of 2^log entries, its head and tail words and its drop count given by their addresses; a full
ring drops the record (R399). -/
def State.ringRecord (s : State) (part : PartNo) (base log head tail drops : Nat) (words : List Nat) : State :=
  let h := s.spaNum part head 4
  let n := s.spaNum part tail 4
  if (n + 2 ^ 32 - h) % 2 ^ 32 = 2 ^ log then s.putSpaNum part drops ((s.spaNum part drops 4 + 1) % 2 ^ 32) 4
  else
    (s.putSpa part (base + 64 * (n % 2 ^ log)) (words.flatMap fun w => leBytes w 8)).putSpaNum part tail ((n + 1) % 2 ^ 32) 4

/-- Write a fault record for a task or its team, of a cluster and a logical tile (R399); the ring may lie in host memory (R395). -/
def State.recordFault (s : State) (k : Team) (i : TrapInfo) (pc outcome : Nat) (c : ClusterNo) (l : Nat) : State :=
  let e := (s.parts[k.part.val]).fdbase.toNat + 64 * faultDomain s k.rcb
  let w := s.spaNum k.part (e + 16) 8
  s.ringRecord k.part (w / 4096 * 4096) (w % 16) (e + 24) (e + 32) (e + 48) (faultRecord i pc outcome k c l s.time.toNat)

/-- A team that stands on its tiles and whose image cannot be written or read ends with CONTEXT_ERROR, its fault domain told (R398, R399,
R405). -/
def State.failTeam (s : State) (k : Team) (l : Nat) : State :=
  let s := s.recordFault k { cause := .contextError } 0 1 k.home l
  let s := s.mapTiles fun u => if u.task.any (fun x => x.team == k.id) then u.endWithTeam else u
  (s.setTeam { k with pool := [], state := .ending, faulted := true }).checkTeam k.id

/-- Write the context of a team whose tiles stand still (R405 steps 4 and 5): the images of stolen tasks first, which gives the tiles
that ran them their own state back. -/
def State.saveTeam (s : State) (k : Team) (c : Cause) : Except SaveErr State :=
  match ((s.guests k.id).map Tile.id).foldlM State.saveAway s with
  | .error e => .error e
  | .ok s0 =>
    let dn := dieOf k.home
    match (s0.dies[dn.val]).reserve k.id headerSize, s0.findTeam k.id with
    | some (u, d), some k =>
      let s0 := { s0 with dies := s0.dies.set dn.val d }
      let s0 := s0.setTeam { k with headerAt := d.unitSpa u, saved := [], images := [] }
      match ((s0.teamTiles k.id).map Tile.id).foldlM (State.saveTile k.id) s0 with
      | .error e => .error e
      | .ok u =>
        match u.findTeam k.id with
        | none => .error .noRoom
        | some k =>
          let k := { k with
            leave := none, cause := c.code, state := if u.triggerMet k then .swapReady else .swapWaiting
            readyAt := s.time.toNat }
          .ok (((u.setTeam k).writeHeader k).focus s.tile.id)
    | _, _ => .error .noRoom

/-- Go on with a team that is leaving: once its tiles have stopped its speculation is squashed (R160), once they stand still its
context is written, or, where the pool has lost its room, the team stays (R404, R405); a team whose image fails ends with
CONTEXT_ERROR, which may be another team's, whose stolen task a tile ran: the leaving then goes on when that task has ended. A team of
an aborting teardown tells its record (R371). A halted team waits for HALT_COMPLETE. -/
def State.tryLeave (s : State) (k : Team) : State :=
  match k.leave with
  | none => s
  | some c =>
    let s := if s.tiles.any fun t => t.stopsFor k.id c && t.grace then s else s.squashTeam k.id c
    if c == .debugHalt || k.state != .resident || !s.still k.id c then s
    else
      match s.saveTeam k c with
      | .ok u => if k.abort then u.noteEnd k 11 else u
      | .error .noRoom => (s.unstop k.id).setTeam { k with leave := none, trigger := none }
      | .error (.failed id l) =>
        if id == k.id then s.failTeam { k with leave := none, trigger := none } l
        else
          match s.findTeam id with
          | none => s
          | some o => s.failTeam o l

/-- Go on with the leaving of the team whose task the focus tile runs, and of the tile's own. -/
def State.goLeave (s : State) : State :=
  let go := fun (s : State) (k : Option Team) =>
    match k with
    | none => s
    | some k => s.tryLeave k
  let s := go s s.team
  go s (s.tile.team.bind fun p => s.findTeam p.1)

/-- Write a fault record for the focus tile's task or for its team (R399). -/
def State.writeFault (s : State) (k : Team) (i : TrapInfo) (pc outcome : Nat) : State :=
  s.recordFault k i pc outcome s.tile.cl ((s.tile.task.map (·.ltile.val)).getD 0)

/-- The focus tile's task, ending by a fault, is counted so. -/
def State.arriveEnded (s : State) : State := s.arriveFor s.part s.tile

/-- Whether the unpublished stores of a task that ends by a fault reach their home is left open (R397): a free choice. -/
def State.looseStores (s : State) : State :=
  let (n, u) := s.fresh
  if (Config.freeWord n).getLsbD 0 then u.publishSlice
  else u.mapTile fun t => { t with unpub := [], tpub := [], view := [] }

/-- END A TASK BY A FAULT, its counted operations complete (R397 steps 2 to 5, R399). -/
def State.finishFault (s : State) (pc : Nat) (rec : Option TrapInfo) (team : Bool) : State :=
  let s := if s.tile.spec.isSome then s.squash s.tile.id else s
  let s := s.looseStores
  let s := s.mapTile fun t => { t with maps := t.maps.map fun m => { m with lines := [] } }
  match s.team with
  | none => s.endTask
  | some k =>
    let s := s.arriveEnded
    let s :=
      match rec with
      | none => s
      | some i => s.writeFault k i pc team.toNat
    (s.setTeam { k with faulted := true }).endTask

/-- A tile cycle of a task that is ending (R21, R397): a RETIRE that waits for its counters is a stall (R400), at which a fault of the
loader or storer core is raised (R391). -/
def State.goEnding (s : State) (e : Ending) : State :=
  match e with
  | .retire pc =>
    match s.tile.lsFault with
    | some i => ({ s with tile := s.tile.clearLsFault } : State).unretire pc i
    | none => if !s.tile.drained || s.tile.releasing.isSome then s.holdIssue else s.finishRetire pc
  | .fault pc rec team =>
    if !s.tile.drained || s.tile.releasing.isSome then s.mapTile Tile.tick else s.finishFault pc rec team

/-- The task enters a block: its first bundle is next; a task's first block gives it its flags (R22, R26). -/
def Tile.enterBlock (t : Tile) (a : Nat) (d : Descriptor) : Tile :=
  let flag := fun (k : Task) =>
    if k.first then { k with mig := d.mig, mayspec := d.spec, lintel := d.lintel, first := false } else k
  { t.settle with pc := a + 16, task := t.task.map flag }

/-- Whether a block start meets a pending engine error (R288): its waits make a boundary. -/
def Tile.blockMeets (t : Tile) (d : Descriptor) : Bool :=
  t.engerr.getLsbD 63 && !d.waits.isEmpty && t.spec.isNone

/-- START THE BLOCK at the focus tile's program counter (R24, R26, R186); a deferred fault holds it (R154). -/
def State.startBlock (s : State) : State :=
  let t := s.tile
  let a := t.pc
  if t.releasing.isSome then s.holdIssue
  else
  match t.deferred with
  | some p => s.resolutionStall p 0
  | none =>
  match s.blockTarget a, s.descriptorAt a with
  | some c, _ => s.raise a { cause := c }
  | none, none => s.raise a { cause := .bundleForm }
  | none, some d =>
    if t.blockMeets d then
      ({ s with tile := t.clearEngerr } : State).raise a t.engTrap
    else
      match d.waits, t.spec with
      | [], _ => s.mapTile fun t => t.enterBlock a d
      | _ :: _, some p => s.resolutionStall p 0
      | w :: _, none =>
        let c : Ctx := ⟨s, 0, a⟩
        match takeCounts c s w.1 d.waits fun u => withBoundary c u semMask true okR with
        | .ok u _ => u.mapTile fun t => t.enterBlock a d
        | .wait u k =>
          match t.lsFault with
          | some i => ({ s with tile := t.clearLsFault } : State).raise a i
          | none => u.holdWait k
        | .stall u => u.holdIssue
        | .late u i | .fail u i => u.raise a i
        | .trap i => s.raise a i
        | .resolve => s.holdIssue

/-- BLOCK_START (R24); a clock that stands starts none (R321). -/
def execBlockStart (s : State) : Host.Outcome State Fault Refusal :=
  if !s.cluster.ticks || s.tile.task.isNone || s.tile.ending.isSome || s.tile.stopped
    || !isDescriptor s.tile.pc (s.codeWord s.tile.pc) then .next s
  else .next s.startBlock

/-- The priority of the team that a bind record names: a launch in the queue, or a swapped team that is ready
(R362, log 11). -/
def State.bindPriority (s : State) (w : Vector Word 4) : Option Nat :=
  if (w[0]).getLsbD 62 then
    (s.teams.find? fun k => k.id.val == fld (w[0]).toNat 40 16 && k.state == .swapReady).map fun k =>
      priority s treeDepth k.rcb
  else (s.queued.find? fun q => q.ref == (w[3]).toNat).map fun q => priority s treeDepth (q.words[5]).toNat

/-- Whether a bind record is pending (R362). -/
def bindValid (w : Vector Word 4) : Bool := (w[0]).getLsbD 63

/-- Whether two bind records name one cluster and one partition (R44). -/
def bindSame (y w : Vector Word 4) : Bool :=
  fld (y[0]).toNat 56 6 == fld (w[0]).toNat 56 6 && fld (y[0]).toNat 35 5 == fld (w[0]).toNat 35 5

/-- The priority of the team that a bind record names and when it became ready (R12, R44). -/
def State.bindOrder (s : State) (w : Vector Word 4) : Option (Nat × Nat) :=
  (s.bindPriority w).map fun p =>
    (p, if (w[0]).getLsbD 62 then
        ((s.teams.find? fun k => k.id.val == fld (w[0]).toNat 40 16).map (·.readyAt)).getD 0
      else ((s.queued.find? fun q => q.ref == (w[3]).toNat).map (·.readyAt)).getD 0)

/-- The ready teams that wait for a cluster, each with its priority and when it became ready: those whose last record, which named that
cluster, was refused with one of some answers (R12, R44). -/
def State.claims (s : State) (c : ClusterNo) (part : PartNo) (stats : List Nat) : List (Nat × Nat) :=
  let waits := fun (x : Option (ClusterNo × Nat)) => x.any fun y => y.1 == c && stats.contains y.2
  ((s.queued.filter fun q => q.part == part && waits q.waits).map fun q => (priority s treeDepth (q.words[5]).toNat, q.readyAt))
    ++ (s.teams.filter fun k => k.state == .swapReady && k.part == part && waits k.waits).map fun k =>
      (priority s treeDepth k.rcb, k.readyAt)

/-- The answers to a team that cannot be placed whole yet: a busy tile, a budget (R16, R44). -/
def notWhole : List Nat := [2, 4]

/-- The ready teams that wait for the cluster of a bind record of a die. -/
def State.claimsOn (s : State) (d : DieNo) (w : Vector Word 4) : List (Nat × Nat) :=
  if fld (w[0]).toNat 56 6 < 12 then
    s.claims (Fin.ofNat 48 (12 * d.val + fld (w[0]).toNat 56 6)) (Fin.ofNat 20 (fld (w[0]).toNat 35 5)) notWhole
  else []

/-- Whether a team goes before another: it has higher priority, or equal priority and became ready earlier (R12). -/
def goesBefore (o me : Nat × Nat) : Bool := decide (me.1 < o.1) || (me.1 == o.1 && decide (o.2 < me.2))

/-- Whether the ready team of a bind record has to wait for another: one that waits for its cluster, or whose record for it is pending
too, and that goes before it (R12, R44). -/
def State.heldBack (s : State) (d : DieNo) (w : Vector Word 4) : Bool :=
  (s.bindOrder w).any fun me =>
    (s.claimsOn d w).any (goesBefore · me)
      || (s.dies[d.val]).slots.toList.any fun y => bindSame y w && bindValid y && (s.bindOrder y).any (goesBefore · me)

/-- Whether the scheduling firmware may write a bind record for a cluster of a die: no ready team of higher effective priority waits
for that cluster (R44, R361). -/
def State.mayPlace (s : State) (d : DieNo) (w : Vector Word 4) : Bool :=
  (s.bindPriority w).all fun p => (s.claimsOn d w).all fun o => decide (o.1 ≤ p)

/-- Change what the ready team that a bind record names waits for. -/
def State.setWaits (s : State) (w : Vector Word 4) (x : Option (ClusterNo × Nat)) : State :=
  if (w[0]).getLsbD 62 then
    { s with teams := s.teams.map fun k => if k.id.val == fld (w[0]).toNat 40 16 then { k with waits := x } else k }
  else { s with queued := s.queued.map fun q => if q.ref == (w[3]).toNat then { q with waits := x } else q }

/-- Whether a team of equal or higher effective priority is queued for a team's cluster (R39): a record for it is pending, or was
refused for a busy tile, a semaphore or a budget. -/
def State.rivals (s : State) (k : Team) : Bool :=
  let mine := priority s treeDepth k.rcb
  (s.claims k.home k.part [2, 3, 4]).any (fun o => decide (mine ≤ o.1))
    || (s.dies[(dieOf k.home).val]).slots.toList.any fun w =>
      bindValid w && fld (w[0]).toNat 56 6 == k.home.val % 12 && (s.bindPriority w).any fun p => decide (mine ≤ p)

/-- YIELD (R39). The team leaves its tiles at the bundle boundary. -/
def slotYield : Slot :=
  { cls := 1, resolves := fun _ => true,
    run := fun _ s =>
      match s.team with
      | none => okR s
      | some k => if s.rivals k then okR (s.askLeave k .swapRequest none true) else okR s }

def execYield (s : State) : Host.Outcome State Fault Refusal := .next (issue1 s (slotYield))

end Sys2Proof.Machine
end

