-- ==== Sys2Proof/Machine/TaskEvents.lean ====
section
/-! DEFINITION. The steps of tasks and teams: pool tasks (R28-R31), the termination token (R32, R33), swaps and
pre-emption (R35-R40), courses (R364, R365), droop (R321). -/

namespace Sys2Proof.Machine

/-- The partition that a cluster belongs to (R441). -/
def State.partOf (s : State) (c : ClusterNo) : Option PartNo :=
  (List.finRange 20).find? fun p => (s.parts[p.val]).clu.getLsbD c.val

/-! ## Droop -/

/-- DROOP (R321, R429): a longer period of a clock that runs; no tile cycle, no due time and no value changes. -/
def State.droop (s : State) (c : ClusterNo) : State :=
  let x := s.clusters[c.val]
  match x.state with
  | .running | .quarantine | .calibrating => s.mapCluster c fun x => { x with droops := x.droops + 1 }
  | .hopping | .retention | .off => s

def execDroop (c : ClusterNo) (s : State) : Host.Outcome State Fault Refusal := .next (s.droop c)

/-! ## Pool tasks -/

/-- The registers of a task at its start (R20): s1 its argument, s2 its logical tile, s3 its team and whether it is a pool
task. -/
def startRegs (k : Task) (arg : Word) : Vector Word 32 :=
  (((Vector.replicate 32 (0 : Word)).set 1 arg).set 2 (BitVec.ofNat 64 k.ltile.val)).set 3
    (BitVec.ofNat 64 (k.team.val + k.pool.toNat * 2 ^ 16))

/-- A tile at a task's start (R20): after a tile reset but for what belongs to the tile's team, the counts of R161 and R325 among
it (log 19). -/
def Tile.begin (t : Tile) (k : Task) (entry arg : Word) : Tile :=
  { Tile.reset t.cl t.tn with
    sregs := startRegs k arg
    pc := entry.toNat
    task := some k
    team := t.team
    tc := t.tc
    now := t.now
    seen := t.seen
    tlb := t.tlb
    commits := t.commits
    squashes := t.squashes
    replays := t.replays
    stretch := t.stretch
    rings := t.rings
    ends := t.ends
    deadEnds := t.deadEnds
    recvRows := t.recvRows
    spswz := t.spswz
    chown := t.chown
    skew := t.skew
    mbx := t.mbx
    loader := t.loader
    storer := t.storer
    saved := t.saved }

/-- Whether a team's pool offers tasks: the team is on its tiles and stays there, its budget has room (R11, R29). -/
def State.offers (s : State) (k : Team) : Bool :=
  k.state == .resident && k.leave.isNone && !k.pool.isEmpty && s.hasRoom k.rcb 8 (tcLimit s) 1

/-- Whether the first block of a pool entry sets the migratable flag (R22, R29). -/
def State.mayMigrate (s : State) (e : PoolEntry) : Bool := (s.descriptorAt e.entry.toNat).any (·.mig)

/-- The pool of highest effective priority among several, each with the entry that it offers (R29). -/
def State.bestPool (s : State) (l : List (Team × PoolEntry)) : Option (Team × PoolEntry) :=
  l.foldl (fun (a : Option (Team × PoolEntry)) p =>
    match a with
    | none => some p
    | some b => if priority s treeDepth b.1.rcb < priority s treeDepth p.1.rcb then some p else a) none

/-- Whether the context pool has room for the image that a steal writes (R30, R404). -/
def State.maySteal (s : State) : Bool :=
  let t := s.tile
  let d := s.dies[(dieOf t.cl).val]
  d.ctxpoolsz != 0
    && match t.team.bind fun p => s.findTeam p.1 with
      | none => true
      | some k => (d.reserve k.id (t.imageSize k.content)).isSome

/-- Whether a tile serves: a spare tile only in the place of another, and that other one no longer (R17, R444). -/
def Cluster.serves (c : Cluster) (t : Tile) : Bool :=
  t.team.isSome || (if t.tn = 16 then c.spare.isSome else !c.spare.any fun x => x.val == t.tn.val)

/-- Whether a tile may take a task: it runs none, its clock runs, it serves, its own team stands on its tiles and neither leaves
them nor is halted (R29, R403). -/
def State.idle (s : State) : Bool :=
  let t := s.tile
  t.task.isNone && t.ending.isNone && !t.stopped && s.cluster.state == .running && s.cluster.serves t
    && (t.team.bind fun p => s.findTeam p.1).all fun k => k.state == .resident && k.leave.isNone

/-- The pool task that the focus tile, idle, takes: the first level of R29 that offers one; whether it is stolen. -/
def State.poolChoice (s : State) : Option (Team × PoolEntry × Bool) :=
  let t := s.tile
  if !s.idle then none
  else
    let own := t.team.bind fun p => s.findTeam p.1
    let first := fun (k : Team) (f : PoolEntry → Bool) => if s.offers k then (k.pool.find? f).map fun e => (k, e) else none
    match own.bind fun k => first k fun _ => true with
    | some (k, e) => some (k, e, false)
    | none =>
      if own.any (fun k => !k.pool.isEmpty) || s.teams.all (fun k => k.pool.isEmpty) || !s.maySteal || !s.cluster.steal then none
      else
        match s.partOf t.cl with
        | none => none
        | some p =>
          let others := s.teams.filter fun k => k.part == p && !own.any fun o => o.id == k.id
          let level := fun (f : Team → Bool) (g : PoolEntry → Bool) =>
            s.bestPool ((others.filter f).filterMap fun k => first k g)
          let near := level (fun k => k.home == t.cl) fun _ => true
          let die := level (fun k => k.home != t.cl && dieOf k.home == dieOf t.cl) fun _ => true
          let far := level (fun k => dieOf k.home != dieOf t.cl) s.mayMigrate
          ((near.or die).or far).map fun x => (x.1, x.2, true)

/-- Remove the first occurrence of a pool entry. -/
def dropEntry (e : PoolEntry) : List PoolEntry → List PoolEntry
  | [] => []
  | x :: l => if x = e then l else x :: dropEntry e l

/-- Save the tile's own team state before a stolen task (R30): its image lies in the context pool; none does for a task of its own
team, which the tile takes without room there (log 19). -/
def State.saveOwn (s : State) (inPool : Bool) : State :=
  let t := s.tile
  let reset := Tile.reset t.cl t.tn
  let bare := fun (u : Tile) =>
    { u with
      rings := reset.rings, maps := reset.maps, ends := reset.ends, spswz := reset.spswz, chown := reset.chown
      skew := reset.skew, deadEnds := [], commits := 0, squashes := 0, replays := 0, stretch := 0 }
  match t.team.bind fun p => s.findTeam p.1 with
  | none => s.clearSp.mapTile bare
  | some k =>
    let rs := t.declared k.content
    let (bs, s) := s.image rs
    let dn := dieOf t.cl
    match if inPool then (s.dies[dn.val]).reserve k.id bs.length else some (0, s.dies[dn.val]) with
    | none => s
    | some (u, d) =>
      let cell := fun (a : Nat) =>
        let key := spKey t.cl t.tn (spPhys t.spswz a)
        ((key, s.mem.get key) : Host.Cell)
      let bytes := rs.flatMap fun r => (List.range (r.2 - r.1)).map fun n => cell (r.1 + n)
      let own : OwnState :=
        { rings := t.rings, maps := t.maps, ends := t.ends, deadEnds := t.deadEnds, spswz := t.spswz, chown := t.chown, skew := t.skew
          bytes := bytes, unit := if inPool then some u else none, commits := t.commits, squashes := t.squashes, replays := t.replays, stretch := t.stretch }
      let s := { s with dies := s.dies.set dn.val d, mem := if inPool then s.mem.put (d.unitSpa u) bs else s.mem }
      s.clearSp.mapTile fun u => { bare u with saved := some own }

/-- A position below the spawner's, or a tile outside the team, starts a pool task: the spawner's position turns black
(R32). -/
def Team.blacken (k : Team) (e : PoolEntry) (starter : Option Nat) : Team :=
  match starter with
  | some j => if j < e.pos.val then { k with black := k.black.set e.pos.val true } else k
  | none => { k with black := k.black.set e.pos.val true }

/-- START A POOL TASK on the focus tile (R20, R28-R32). -/
def State.startPool (s : State) (k : Team) (e : PoolEntry) (stolen : Bool) : State :=
  let own := (s.tile.team.map (·.2)).getD 0
  let s := s.setTeam { (k.blacken e (if stolen then none else some own.val)) with pool := dropEntry e k.pool }
  let s := if stolen then s.saveOwn true else s
  let task : Task :=
    { team := k.id, ltile := e.ltile, pool := true, pos := if stolen then e.pos else own, stolen := stolen, no := s.nextTask }
  ({ s with nextTask := s.nextTask + 1 } : State).mapTile fun t => t.begin task e.entry e.arg

/-- Whether the focus tile, idle, may go on with the oldest of the tasks of a team that has returned which tiles of other teams ran when
it left (R36, log 19): a tile of the team itself does without more; another needs room for its own team's image (R30), and another die a
migratable task (R29). -/
def State.mayResume (s : State) (k : Team) : Bool :=
  let t := s.tile
  k.state == .resident && k.leave.isNone && s.hasRoom k.rcb 8 (tcLimit s) 1
    && match k.away with
      | [] => false
      | p :: _ =>
        t.team.any (fun x => x.1 == k.id)
          || (s.partOf t.cl == some k.part && (dieOf k.home == dieOf t.cl || p.1.task.any (·.mig)) && (t.team.isNone || s.maySteal))

/-- The team whose interrupted stolen task the focus tile goes on with: its own team first, then the team of highest effective priority.
DESIGN CHOICE (log 19): such a task comes before the pools of R29, which gives no order between them. -/
def State.awayChoice (s : State) : Option Team :=
  if s.teams.all (fun k => k.away.isEmpty) || !s.idle then none
  else
    let mine := fun (k : Team) => s.tile.team.any fun x => x.1 == k.id
    let better := fun (a b : Team) =>
      mine a || (!mine b && decide (priority s treeDepth b.rcb ≤ priority s treeDepth a.rcb))
    (s.teams.filter s.mayResume).foldl (fun (a : Option Team) k =>
      match a with
      | none => some k
      | some b => if better b k then some b else some k) none

/-- The images of a team that have been read give their place in the context pool back (R404). -/
def State.freeImage (s : State) (k : Team) (a : Nat) : State :=
  let dn := dieOf k.home
  let d := s.dies[dn.val]
  { s with dies := s.dies.set dn.val { d with pool := d.pool.filter fun p => p.team != k.id || d.unitSpa p.first != a } }

/-- The history copies in progress end as many tile cycles later as they would have (R147), counted by another tile (log 19). -/
def Ring.retime (old now : Nat) (r : Ring) : Ring := { r with hist := r.hist.map fun h => (h.1, h.2 - old + now) }

/-- RESTORE ONE IMAGE onto the focus tile (R36, R41, R405): none where it cannot be read or its checks fail (R401, R407). What
stays in the cluster is not the image's: Lintel arrivals (R38), monitor entries. -/
def State.reloadTile (s : State) (old : Tile) (a : Nat) : Option State :=
  let n := imageLen (s.mem.bytes a 64)
  let l := s.mem.bytes a n
  if (s.badAt a n).isSome || !imageOk l then none
  else
    let now := s.tile
    let s := { s with
      tile := { old with
        cl := now.cl, tn := now.tn, tc := now.tc, now := now.now, seen := now.seen, tlb := now.tlb, busy := 0
        rings := old.rings.map (Ring.retime old.tc now.tc) } }
    let rest := old.recvRows.drop (readRecs (numAt l 24 4) ((l.drop (arrayOff + asz)).take (numAt l 24 4))).rows.length
    let s := s.clearSp.reloadAll l
    let s := s.mapTile fun t =>
      { t with pc := ctlWord l 0, recvRows := t.recvRows ++ rest, arrival := old.arrival, arrGen := old.arrGen }
    let move := fun (m : Monitor) => if s.ownsMonitor m then { m with tile := now.id } else m
    some { s with clusters := s.clusters.map fun (c : Cluster) => { c with monitors := c.monitors.map move } }

/-- A task that a tile of another team ran goes on, from its image, on the focus tile, as a stolen task (R30, R36, log 19). -/
def State.resumeAway (s : State) (k : Team) : State :=
  match k.away with
  | [] => s
  | (old, a) :: l =>
    let s := s.setTeam { k with away := l }
    let s := s.saveOwn (s.tile.team.any fun x => x.1 != k.id)
    let now := s.tile
    match s.reloadTile old a with
    | none => s.failTeam k ((old.task.map (·.ltile.val)).getD 0)
    | some u =>
      (u.freeImage k a).mapTile fun t =>
        { t with
          team := now.team, saved := now.saved, mbx := now.mbx, loader := now.loader, storer := now.storer
          task := old.task.map fun x => { x with stolen := true } }

/-- POOL_TASK_START (R29). DESIGN CHOICE (log 19): a returned team's interrupted stolen task comes before a task of a pool, that of the
tile's own team among them, R29 and R36 giving no order between them. -/
def execPoolTaskStart (s : State) : Host.Outcome State Fault Refusal :=
  match s.awayChoice, s.poolChoice with
  | some k, _ => .next (s.resumeAway k)
  | none, some (k, e, stolen) => .next (s.startPool k e stolen)
  | none, none => .next s

/-! ## The termination token -/

/-- The ring position after another (R32). -/
def Team.nextPos (k : Team) (p : Fin 16) : Fin 16 := if p.val + 1 < k.ntiles then p + 1 else 0

/-- Position p forwards the token; position 0 ends the pool or starts a round (R32, R33). -/
def Team.forward (k : Team) : Team :=
  let p := k.token.pos
  let c := k.counts[p.val]
  let dark := k.black[p.val]
  let white := k.black.set p.val false
  if p = 0 then
    if k.token.round && !k.token.black && !dark && k.token.sum + c == 0 then { k with ended := true }
    else { k with black := white, token := { pos := k.nextPos 0, black := dark, sum := 0, round := true } }
  else
    { k with black := white, token := { k.token with pos := k.nextPos p, black := k.token.black || dark, sum := k.token.sum + c } }

/-- Whether the token of a team lies at an idle position (R29, R32). -/
def State.tokenReady (s : State) (k : Team) : Bool :=
  k.state == .resident && k.leave.isNone && !k.ended && k.pool.isEmpty
    && s.tiles.any fun t => t.team == some (k.id, k.token.pos) && t.task.isNone

/-- TOKEN_FORWARD (R32, R33). -/
def State.tokenStep (s : State) (id : Fin 65536) : State :=
  match s.findTeam id with
  | none => s
  | some k => if s.tokenReady k then (s.setTeam k.forward).checkTeam id else s

def execTokenForward (team : Fin 65536) (s : State) : Host.Outcome State Fault Refusal := .next (s.tokenStep team)

/-! ## Swaps and pre-emption -/

/-- The team whose task on the focus tile has waited for longer than its wait-swap threshold, and may leave (R35, R403,
R404). -/
def State.waitedLong (s : State) : Option (Team × WaitRec) :=
  let t := s.tile
  match s.team, t.wait with
  | some k, some w =>
    let limit := waitSwap s k.rcb
    if t.ending.isNone && !t.stopped && limit != 0 && decide (limit < s.time.toNat - w.since)
        && k.state == .resident && k.leave.isNone && s.hasPool k then some (k, w)
    else none
  | _, _ => none

/-- The counts that a tile waits for on semaphores of its home cluster. -/
def State.takesOf (s : State) : List (SemNo × Nat) :=
  (((s.clusters[s.homeCl.val]).waiters.find? fun w => w.tile == s.tile.id).map (·.takes)).getD []

/-- WAIT_SWAP (R35, R36). -/
def State.swapWaiter (s : State) : State :=
  match s.waitedLong with
  | none => s
  | some (k, w) =>
    let task := s.tile.task
    let tr : Trigger :=
      { ltile := (s.tile.team.map (·.2)).getD 0, away := if task.any (·.stolen) then some s.tile.id else none, kind := w.kind
        takes := s.takesOf }
    s.askLeave k .swapRequest (some tr) true

def execWaitSwap (s : State) : Host.Outcome State Fault Refusal := .next s.swapWaiter

/-- PREEMPT (R40): the scheduling firmware pre-empts a resident team. -/
def State.preempt (s : State) (id : Fin 65536) : State :=
  match s.findTeam id with
  | none => s
  | some k => s.askLeave k .preempt none false

def execPreempt (team : Fin 65536) (s : State) : Host.Outcome State Fault Refusal := .next (s.preempt team)

/-- Whether the scheduler observes a swapped team's trigger wait satisfied (R36). -/
def State.nowReady (s : State) (k : Team) : Bool := k.state == .swapWaiting && s.triggerMet k

/-- SWAP_TRIGGER_SATISFIED (R36, R408). -/
def State.makeReady (s : State) (id : Fin 65536) : State :=
  match s.findTeam id with
  | none => s
  | some k =>
    if !s.nowReady k then s
    else
      let k := { k with state := .swapReady, readyAt := s.time.toNat }
      (s.setTeam k).writeHeader k

def execSwapTriggerSatisfied (team : Fin 65536) (s : State) : Host.Outcome State Fault Refusal :=
  .next (s.makeReady team)

/-! ## Courses -/

/-- The fields of LTCFG and LTORD (R364). -/
def Partition.delta (p : Partition) : Nat := fld p.ltcfg.toNat 38 10
def Partition.courses (p : Partition) : Nat := fld p.ltcfg.toNat 34 4
def Partition.root (p : Partition) : ClusterNo := Fin.ofNat 48 (fld p.ltcfg.toNat 28 6)
def Partition.order (p : Partition) (k : Nat) : Nat := fld p.ltord.toNat (4 * k) 4

/-- n root tile cycles in units of the timestamp, rounded up: the clock is in units of 25 MHz (R4, R365). -/
def rootTime (freq n : Nat) : Nat := (4 * n + freq - 1) / freq

/-- LTWIN's BOUND in ns, computed anew at each clock change of the root: ⌈Δ·NC·1000/f⌉ + 150, f being 25 times the frequency
code (R364, R365). -/
def State.ltwin (s : State) (p : PartNo) : BitVec 32 :=
  let x := s.parts[p.val]
  let f := (s.clusters[x.root.val]).freq
  BitVec.ofNat 32 ((40 * x.delta * x.courses + f - 1) / f + 150)

/-- Whether a release can go on: its next course has come (R365), or a cluster that it waits for lets it in or has to be woken (R436). -/
def State.releaseGoes (s : State) (p : PartNo) (r : Release) : Bool :=
  let x := s.parts[p.val]
  let f := (s.clusters[x.root.val]).freq
  if r.held.isEmpty then decide (r.last + rootTime f (x.delta * r.k) ≤ s.time.toNat)
  else r.held.any fun c => (s.clusters[c.val]).lets || s.asks c

/-- The release of a partition that is due, the oldest (R365). -/
def State.releaseDue (s : State) (p : PartNo) : Option Release := (s.parts[p.val]).releases.find? (s.releaseGoes p)

/-- Whether entry k of ORDER releases a course: it is the course's first entry, or k is NC and the course has none
(R365). -/
def Partition.frees (p : Partition) (k course : Nat) : Bool :=
  let l := (List.range (p.courses + 1)).map p.order
  if l.contains course then p.order k == course && !(l.take k).contains course else k == p.courses

/-- Release the participants of a partition that arrived in a generation and whose course is an entry's (R365). -/
def releaseTile (s : State) (p : PartNo) (r : Release) (team : Option Team) (t : Tile) : Tile :=
  let mine := team.any fun k => k.part == p && (s.parts[p.val]).frees r.k k.course.val
  if mine && t.arrival == .arrived && t.arrGen == r.gen then { t with arrival := .released } else t

/-- What a release in progress leaves: its next entry, or, where clusters have not let an entry in, that entry for them. -/
def Release.rest (r : Release) (courses : Nat) (shut : List ClusterNo) : List Release :=
  (if r.held.isEmpty && decide (r.k + 1 ≤ courses) then [{ r with k := r.k + 1 }] else [])
    ++ if shut.isEmpty then [] else [{ r with held := shut }]

/-- COURSE_RELEASE (R365): the participants whose course it is, those of a cluster that lets nothing in once it does, asked to run (R431,
R436). -/
def State.releaseCourse (s : State) (p : PartNo) : State :=
  match s.releaseDue p with
  | none => s
  | some r =>
    let x := s.parts[p.val]
    let lets := fun (c : ClusterNo) => (s.clusters[c.val]).lets
    let new := fun (t : Tile) => releaseTile s p r (t.task.bind fun k => s.findTeam k.team) t
    let to' := fun (t : Tile) => (new t).arrival != t.arrival && (r.held.isEmpty || r.held.contains t.cl)
    let away := fun (k : Team) => if r.held.isEmpty then k.mapSaved (releaseTile s p r (some k)) else k
    let shut := (((s.tiles.filter to').map (·.cl)).filter fun c => !lets c).eraseDups
    let rest := x.releases.flatMap fun y => if y == r then r.rest x.courses shut else [y]
    let u := { s with parts := s.parts.set p.val { x with releases := rest }, teams := s.teams.map away }
    shut.foldl State.knock (u.mapTiles fun t => if to' t && lets t.cl then new t else t)

def execCourseRelease (p : PartNo) (s : State) : Host.Outcome State Fault Refusal := .next (s.releaseCourse p)

end Sys2Proof.Machine
end

