-- ==== Sys2Proof/Machine/Bind.lean ====
section
/-! DEFINITION. Bind records (R361-R363): a queued team bound with its declarations (R357), a swapped team returned
(R36, R41, R405). -/

namespace Sys2Proof.Machine

/-- A byte of a partition's record's snapshot, or, where the snapshot does not hold it, of memory as it stands (R353, R374). -/
def State.snapByte (s : State) (part : PartNo) (r : List Host.Cell) (a : Nat) : Byte := (ovGet r a).getD (s.spaByte part a)

/-- A little-endian number of a snapshot. -/
def State.snapNum (s : State) (part : PartNo) (r : List Host.Cell) (a : Nat) : Nat → Nat
  | 0 => 0
  | n + 1 => (s.snapByte part r a).toNat + 256 * s.snapNum part r (a + 1) n

/-- Word n of the table at an address of a snapshot. -/
def State.snapWord (s : State) (part : PartNo) (r : List Host.Cell) (a n : Nat) : Nat := s.snapNum part r (a + 8 * n) 8

/-- The leaf for an address of a partition, walked from its root (R376); none where there is none, or the address lies beyond
the 54 bits that are walked (R373). -/
def State.leafOf (s : State) (part : PartNo) (va : Nat) : Option Leaf :=
  if 2 ^ 54 ≤ va then none
  else
  match walk s part va 4 (s.parts[part.val]).ptroot.toNat [] with
  | .error _ => none
  | .ok (l, _) => some l

/-- A byte at a virtual address of a partition; where no page holds it, a value that the spec leaves open. -/
def State.vaByte (s : State) (part : PartNo) (free va : Nat) : Byte :=
  match s.leafOf part va with
  | none => (Config.freeCell free va).setWidth 8
  | some l => s.mem.get (s.home part (l.spa va))

/-- Bytes at a virtual address of a partition. -/
def State.vaBytes (s : State) (part : PartNo) (free va n : Nat) : List Byte :=
  (List.range n).map fun k => s.vaByte part free (va + k)

/-- The words of a declaration table, and the partition whose addresses they give (R357, R374). -/
structure Decl where
  part : PartNo
  word : Nat → Nat

/-- The rings of a declaration table: descriptor and predictor register (R357). -/
def Decl.ring (d : Decl) (n : Nat) : Ring :=
  let r := Ring.reload {} (d.word (16 + 2 * n)) 0 (d.word (17 + 2 * n))
  if r.valid then r else {}

/-- The CONTENT entries: offset, length, source (R357). -/
def State.contents (s : State) (d : Decl) : List (Nat × Nat × Nat) :=
  (List.range (d.word 13)).map fun k =>
    let w := s.spaNum d.part (d.word 12 + 16 * k) 8
    (fld w 0 21, fld w 32 32, s.spaNum d.part (d.word 12 + 16 * k + 8) 8)

/-- The groups that a table grants (R357, R419). -/
def State.groupsOf (s : State) (d : Decl) : List Group :=
  (List.range (d.word 11)).map fun k =>
    let w := s.spaNum d.part (d.word 10 + 8 * k) 8
    { gid := Fin.ofNat 65536 (fld w 48 16), size := fld w 32 16, rank0 := fld w 16 16, tmask := fld w 0 16 }

/-- The scratchpad bytes that a declaration covers on one tile (R11, R406). -/
def Decl.bytes (d : Decl) (content : List (Nat × Nat × Nat)) : Nat :=
  let t : Tile := { rings := vecAt 8 d.ring }
  (t.declared (content.map fun c => (c.1, c.2.1))).foldl (fun n r => n + (r.2 - r.1)) 0

/-! ## Bind records -/

/-- The fields of a bind record (R362). -/
def bindCluster (d : DieNo) (w : Vector Word 4) : Nat := 12 * d.val + fld (w[0]).toNat 56 6
def bindTeamNo (w : Vector Word 4) : Fin 65536 := Fin.ofNat 65536 (fld (w[0]).toNat 40 16)
def bindPart (w : Vector Word 4) : Nat := fld (w[0]).toNat 35 5
def bindTile (w : Vector Word 4) (k : Nat) : Nat := fld ((w[1]).toNat + 2 ^ 64 * (w[2]).toNat) (5 * k) 5

/-- Answer a slot: STAT written, VALID cleared (R362). A team that could not be placed waits for the cluster (R16, R39, R44). -/
def State.answer (s : State) (d : DieNo) (i : Fin 64) (stat : Nat) : State :=
  let x := s.dies[d.val]
  let w := x.slots[i.val]
  let v := (w[0]).toNat
  let v := v - fld v 63 1 * 2 ^ 63 - fld v 32 3 * 2 ^ 32 + stat * 2 ^ 32
  let s := { s with dies := s.dies.set d.val { x with slots := x.slots.set i.val (w.set 0 (BitVec.ofNat 64 v)) } }
  if 2 ≤ stat ∧ stat ≤ 4 ∧ fld (w[0]).toNat 56 6 < 12 then s.setWaits w (some (Fin.ofNat 48 (bindCluster d w), stat)) else s

/-- The tiles that a record maps logical tiles to, each named once; none where one does not exist (R362). -/
def mapTilesOf (cl : ClusterNo) (w : Vector Word 4) : List (Fin 16) → Option (List (Fin 16 × TileId))
  | [] => some []
  | k :: l =>
    match mapTilesOf cl w l with
    | none => none
    | some r =>
      if h : bindTile w k.val < 17 then
        let i : TileId := ⟨cl, ⟨bindTile w k.val, h⟩⟩
        if r.any fun p => p.2 == i then none else some ((k, i) :: r)
      else none

/-- Whether a tile may take a task: no team is on it and none runs there; a spare tile only where the spare-tile map
verifies and the spare has not failed (R363, R444, R446). -/
def State.tileFree (s : State) (i : TileId) : Bool :=
  let t := s.tileAt i
  t.team.isNone && t.task.isNone && (i.tn != 16 || (s.nvs.spares && !(s.clusters[i.cl.val]).spareBad))

/-- Whether a cluster is in a partition, and not in quarantine (R363). -/
def State.clusterOk (s : State) (c : ClusterNo) (p : PartNo) : Bool :=
  (s.parts[p.val]).clu.getLsbD c.val && !(s.clusters[c.val]).quarantined

/-- Whether a partition that drains is to lose a cluster (R442). -/
def Partition.leaving (p : Partition) (c : ClusterNo) : Bool := p.draining && p.clu.getLsbD c.val && !p.reqClu.getLsbD c.val

/-- Whether every page of [va, hi) is resident in a partition and may be read there, at most fuel of them: steps 3, 5 and 6
of R377 (R14, R378). -/
def State.resident (s : State) (part : PartNo) (hi : Nat) : Nat → Nat → Bool
  | 0, _ => true
  | n + 1, va =>
    if hi ≤ va then true
    else
      match s.leafOf part va with
      | none => false
      | some l => l.ptag == part.val && l.r && s.resident part hi n ((va / 2 ^ l.pageBits + 1) * 2 ^ l.pageBits)

/-- Every entry of the region's effective lease list has its form and is resident (R14, R355 code 6, R378). -/
def State.leasesHeld (s : State) (part : PartNo) (rcb : Nat) : Bool :=
  (Machine.leases s treeDepth rcb).all fun r =>
    r.1 % 2 ^ 14 == 0 && r.2 % 2 ^ 14 == 0 && r.2 != 0 && s.resident part (r.1 + r.2) (r.2 / 2 ^ 14 + 2) r.1

/-- What a bind meets (R363): a refusal, a cluster whose clock stands, leases that are not resident (R14), or the tiles. -/
inductive BindR where
  | refuse (stat : Nat)
  | later (c : ClusterNo)
  | hold
  | go (tiles : List (Fin 16 × TileId))

/-- Wait for a cluster that does not run; a cluster in quarantine has been refused before (R433, R435, R436). -/
def State.awaitCluster (s : State) (c : ClusterNo) (tiles : List (Fin 16 × TileId)) : BindR :=
  match (s.clusters[c.val]).state with
  | .running => .go tiles
  | .retention | .off | .hopping | .calibrating | .quarantine => .later c

/-- The first semaphores of a mask, and whether another team holds one of them (R363). -/
def Cluster.semTaken (c : Cluster) (grant : Nat) : Bool :=
  (List.finRange 64).any fun k => grant.testBit k.val && (c.sems[k.val]).granted

/-- The checks of a bind in their order (R363). -/
def State.bindChecks (s : State) (q : QTeam) (d : Decl) (n : Nat) (w : Vector Word 4) (die : DieNo) : BindR :=
  let cn := bindCluster die w
  let c : ClusterNo := Fin.ofNat 48 cn
  let rcb := (q.words[5]).toNat
  let real := decide (fld (w[0]).toNat 56 6 < 12)
  match mapTilesOf c w ((List.finRange 16).take n) with
  | none => .refuse 2
  | some tiles =>
    if !real then .refuse 6
    else if tiles.any fun p => !s.tileFree p.2 then .refuse 2
    else if (s.clusters[c.val]).semTaken (d.word 3) then .refuse 3
    else if !(s.hasRoom rcb 8 (tcLimit s) 1 && s.hasRoom rcb 9 (spLimit s) (n * d.bytes (s.contents d))
        && s.hasRoom rcb 10 (teamLimit s) 1) then .refuse 4
    else if bindPart w != q.part.val || !s.clusterOk c q.part then .refuse 6
    else if !s.leasesHeld q.part rcb then .hold
    else s.awaitCluster c tiles

/-- Semaphores granted at a bind, with their starting values (R206, R357, R363). -/
def State.grantSems (s : State) (snap : List Host.Cell) (d : Decl) (c : ClusterNo) (id : Fin 65536) : State :=
  let x := s.clusters[c.val]
  let start := fun (k : Nat) => if d.word 5 = 0 then 0 else s.snapNum d.part snap (d.word 5 + 2 * k) 2
  let give := fun (k : Fin 64) =>
    if (d.word 3).testBit k.val then
      ({ val := Fin.ofNat 65536 (start k.val), granted := true, team := id, putOpen := (d.word 4).testBit k.val } : Sem)
    else x.sems[k.val]
  { s with clusters := s.clusters.set c.val { x with sems := Vector.ofFn give } }

/-- The bytes of an instruction store (R271). -/
def lsSize : Nat := 16384

/-- Load the instruction store of a core of the focus tile from its image; 0 names none (R357). -/
def State.loadStore (s : State) (part : PartNo) (storer : Bool) (va : Nat) : State :=
  if va = 0 then s
  else
    let (n, s) := s.fresh
    let k := lsKey s.tile.cl s.tile.tn storer 0
    { s with mem := (s.mem.clear k (k + lsSize)).put k (s.vaBytes part n va lsSize) }

/-- Copy the declared contents into the focus tile's scratchpad (R357). -/
def State.loadContents (s : State) (part : PartNo) (l : List (Nat × Nat × Nat)) : State :=
  let (n, s) := s.fresh
  l.foldl (fun u c => u.spRaw c.1 (s.vaBytes part n c.2.2 c.2.1)) s

/-- WRITE THE DECLARATIONS TO ONE TILE and start its task (R20, R72, R357, R363). -/
def State.bindOne (s : State) (q : QTeam) (d : Decl) (id : Fin 65536) (p : Fin 16 × TileId) : State :=
  let s := (s.focus p.2).clearSp
  let at' := fun (e : Nat) => savedEnd (s.spaNum d.part (d.word 9 + 8 * (64 * p.1.val + e)) 8)
  let core := fun (img : Nat) => ({ running := img != 0 } : LsCore)
  let task : Task := { team := id, ltile := p.1, pos := p.1, no := s.nextTask }
  let t : Tile :=
    { Tile.reset p.2.cl p.2.tn with
      tc := s.tile.tc
      now := s.tile.now
      seen := s.tile.seen
      tlb := s.tile.tlb
      team := some (id, p.1)
      rings := vecAt 8 d.ring
      ends := if d.word 9 = 0 then Vector.replicate 64 0 else vecAt 64 at'
      spswz := BitVec.ofNat 24 (d.word 0)
      chown := chownOf (BitVec.ofNat 64 (fld (d.word 0) 32 8))
      skew := vecAt 2 (fun k => skewOf (BitVec.ofNat 64 (d.word (6 + k))))
      loader := core (d.word 1)
      storer := core (d.word 2) }
  let s := { s with tile := t.begin task q.words[3] q.arg, nextTask := s.nextTask + 1 }
  ((s.loadContents q.part (s.contents d)).loadStore q.part false (d.word 1)).loadStore q.part true (d.word 2)

/-- BIND A TEAM (R16-R20, R363). -/
def State.bind (s : State) (q : QTeam) (snap : List Host.Cell) (d : Decl) (w : Vector Word 4) (die : DieNo)
    (tiles : List (Fin 16 × TileId)) : State :=
  let id := bindTeamNo w
  let c : ClusterNo := Fin.ofNat 48 (bindCluster die w)
  let rcb := (q.words[5]).toNat
  let content := s.contents d
  let sp := tiles.length * d.bytes content
  let k : Team :=
    { id := id, rcb := rcb, home := c, part := q.part, ntiles := tiles.length
      tmap := vecAt 16 (fun k => Fin.ofNat 17 (bindTile w k))
      readyAt := q.readyAt, live := tiles.map (·.1), course := Fin.ofNat 16 (fld (d.word 8) 0 4)
      groups := s.groupsOf d, content := content.map (fun c => (c.1, c.2.1))
      ldimg := BitVec.ofNat 64 (d.word 1), stimg := BitVec.ofNat 64 (d.word 2), spBytes := sp
      record := some q.record, node := q.node }
  let s := (s.charge rcb 9 true sp).charge rcb 10 true 1
  let s := s.grantSems snap d c id
  let s := { s with teams := s.teams ++ [k], queued := s.queued.filter fun x => x.ref != q.ref }
  let here := s.tile.id
  (tiles.foldl (fun s p => s.bindOne q d id p) s).focus here

/-- The snapshot of a queued launch (R353). -/
def State.snapOf (s : State) (q : QTeam) : List Host.Cell := ((s.records.find? fun r => r.id == q.record).map (·.snap)).getD []

/-- A bind that waits for its cluster: at most it asks for power; none where it has asked before (R435, R436). -/
def State.askPower (s : State) (c : ClusterNo) : Option State := if s.asks c then some (s.knock c) else none

/-- Whether dispatch refuses every record of a kind that names a cluster with FENCED (R437, R442): the cluster is in quarantine, or a
partition that drains is to lose it, to which a swapped team still returns. -/
def State.fenced (s : State) (die : DieNo) (w : Vector Word 4) (ret : Bool) : Bool :=
  let c : ClusterNo := Fin.ofNat 48 (bindCluster die w)
  decide (fld (w[0]).toNat 56 6 < 12)
    && ((s.clusters[c.val]).quarantined || (!ret && s.parts.toList.any fun x => x.leaving c))

/-- The slot that dispatch takes next: the first pending one whose team need not wait for another's, or that is refused with FENCED
whatever it names (R12, R44, R363, R437, R442). -/
def State.nextSlot (s : State) (d : DieNo) : Option (Fin 64) :=
  let l := (s.dies[d.val]).slots
  (List.finRange 64).find? fun i =>
    let w := l[i.val]
    bindValid w && (s.fenced d w ((w[0]).getLsbD 62) || !s.heldBack d w)

/-- Dispatch takes a slot that is to bind a team (R363), the next one; none while it waits for its cluster or its leases
(R14). A record
that names no queued launch, or a team identifier in use, places nothing (log 11). -/
def State.bindStep (s : State) (die : DieNo) (i : Fin 64) : Option State :=
  let x := s.dies[die.val]
  let w := x.slots[i.val]
  if s.nextSlot die != some i || (w[0]).getLsbD 62 then none
  else
    match s.queued.find? fun q => q.ref == (w[3]).toNat with
    | none => some (s.answer die i (if s.fenced die w false then 6 else 0))
    | some q =>
      if s.fenced die w false then some (s.answer die i 6)
      else if (s.findTeam (bindTeamNo w)).isSome then some (s.answer die i 0)
      else
        let snap := s.snapOf q
        let d : Decl := ⟨q.part, s.snapWord q.part snap (q.words[6]).toNat⟩
        match s.bindChecks q d (fld (q.words[7]).toNat 0 5) w die with
        | .refuse n => some (s.answer die i n)
        | .later c => s.askPower c
        | .hold => none
        | .go tiles => some ((s.bind q snap d w die tiles).answer die i 1)

/-- BIND_TEAM (R363). -/
def execBindTeam (d : DieNo) (slot : Fin 64) (s : State) : Host.Outcome State Fault Refusal :=
  .next ((s.bindStep d slot).getD s)

/-! ## Returns -/

/-- Whether a team stands swapped out. -/
def Team.swapped (k : Team) : Bool := k.state == .swapReady || k.state == .swapWaiting

/-- The checks of a return in their order (R11, R363). -/
def State.returnChecks (s : State) (k : Team) (w : Vector Word 4) (die : DieNo) : BindR :=
  let cn := bindCluster die w
  let real := decide (fld (w[0]).toNat 56 6 < 12)
  match mapTilesOf (Fin.ofNat 48 cn) w (k.saved.map (·.1)) with
  | none => .refuse 2
  | some tiles =>
    if tiles.any fun p => !s.tileFree p.2 then .refuse 2
    else if !s.hasRoom k.rcb 8 (tcLimit s) 1 then .refuse 4
    else if real && cn != k.home.val then .refuse 5
    else if !real || bindPart w != k.part.val || !s.clusterOk k.home k.part then .refuse 6
    else if !s.leasesHeld k.part k.rcb then .hold
    else s.awaitCluster k.home tiles

/-- RESTORE ONE IMAGE of a team onto the tile that a record names (R36, R41, R405): none where it cannot be read or its checks
fail (R401, R407). The instruction stores come from the launch's images (R406). -/
def State.returnTile (k : Team) (s : Option State) (p : Fin 16 × TileId) : Option State :=
  s.bind fun s =>
    match k.saved.find? fun q => q.1 == p.1 with
    | none => some s
    | some (_, old) =>
      ((s.focus p.2).reloadTile old (k.imageOf p.1)).map fun s =>
        (s.loadStore k.part false k.ldimg.toNat).loadStore k.part true k.stimg.toNat

/-- A return whose images fail: the team ends with CONTEXT_ERROR, its fault domain told; its participants count as arrived (R397
step 5, R398, R399, R405). -/
def State.failReturn (s : State) (k : Team) : State :=
  let s := s.recordFault k { cause := .contextError } 0 1 k.home ((k.saved.head?.map (·.1.val)).getD 0)
  let s := (k.saved.map (·.2) ++ k.away.map (·.1)).foldl (fun s t => s.arriveFor k.part t) s
  s.endTeam { k with faulted := true } stFaulted

/-- RETURN A TEAM (R36, R37, R405): its place in the context pool is free again, but for the images of tasks that wait for a
tile outside the team (log 19). -/
def State.returnTeam (s : State) (k : Team) (w : Vector Word 4) (tiles : List (Fin 16 × TileId)) : State :=
  let here := s.tile.id
  match tiles.foldl (State.returnTile k) (some s) with
  | none => s.failReturn k
  | some u =>
    let dn := dieOf k.home
    let d := u.dies[dn.val]
    let u := { u with dies := u.dies.set dn.val { d with pool := d.pool.filter fun p => p.team != k.id || k.away.any fun x => x.2 == d.unitSpa p.first } }
    let k := { k with
      state := .resident, cause := 0, trigger := none, waits := none, saved := [], images := [], headerAt := 0
      tmap := vecAt 16 (fun i => Fin.ofNat 17 (bindTile w i)) }
    (u.setTeam k).focus here

/-- Dispatch takes a slot that is to return a team (R363), the next one; none while it waits for its cluster or its leases
(R14). A record that names no swapped team, or one of an aborting teardown, places nothing (log 11). -/
def State.returnStep (s : State) (die : DieNo) (i : Fin 64) : Option State :=
  let x := s.dies[die.val]
  let w := x.slots[i.val]
  if s.nextSlot die != some i || !(w[0]).getLsbD 62 then none
  else
    match s.findTeam (bindTeamNo w) with
    | none => some (s.answer die i (if s.fenced die w true then 6 else 0))
    | some k =>
      if s.fenced die w true then some (s.answer die i 6)
      else if !k.swapped || k.abort then some (s.answer die i 0)
      else
        match s.returnChecks k w die with
        | .refuse n => some (s.answer die i n)
        | .later c => s.askPower c
        | .hold => none
        | .go tiles => some ((s.returnTeam k w tiles).answer die i 1)

/-- BIND_RETURN (R363). -/
def execBindReturn (d : DieNo) (slot : Fin 64) (s : State) : Host.Outcome State Fault Refusal :=
  .next ((s.returnStep d slot).getD s)

end Sys2Proof.Machine
end

