-- ==== Sys2Proof/Machine/Records.lean ====
section
/-! DEFINITION. Command records: their snapshots (R353), the checks of launch records (R355-R358) and of graphs (R366,
R367), the accesses of graph nodes and completions (R355, R370). -/

namespace Sys2Proof.Machine

/-! ## Accesses in a function's partition -/

/-- The partition of a function (R443). -/
def State.fnPart (s : State) (f : FnNo) : PartNo := Fin.ofNat 20 (s.fns[f.val]).part.toNat

/-- The home of a node's access, with the checks of R377 but the lease check (R370); none where one fails. -/
def State.nodeSpa (s : State) (part : PartNo) (va : Nat) (acc : Access) : Option Nat :=
  if 2 ^ 54 ≤ va then none
  else
    match s.leafOf part va with
    | none => none
    | some l =>
      let spa := l.spa va
      let ok :=
        match acc with
        | .read => l.r
        | .write => l.w
        | .atomic | .hostAtomic => l.r && l.w && l.a
      if l.ptag == part.val && ok && s.peerUp spa then some (s.home part spa) else none

/-- A little-endian number read for a node; none where the access fails or meets an uncorrectable error (R368, R370). -/
def State.nodeRead (s : State) (part : PartNo) (va n : Nat) : Option Nat :=
  match s.nodeSpa part va .read with
  | none => none
  | some a => if (s.badAt a n).isSome then none else some (s.mem.num a n)

/-- Bytes of a number written for a node at one place; false where the access fails (R370). -/
def State.nodeWrite (s : State) (part : PartNo) (va v n : Nat) (acc : Access) : State × Bool :=
  match s.nodeSpa part va acc with
  | none => (s, false)
  | some a => ({ s with mem := s.mem.putNum a v n }, true)

/-- Copy n bytes one after another up to a failure; bytes written stand (R366, R370). -/
def State.nodeCopy (part : PartNo) (src dst : Nat) : Nat → State → State × Bool
  | 0, s => (s, true)
  | n + 1, s =>
    match s.nodeRead part src 1 with
    | none => (s, false)
    | some v =>
      match s.nodeWrite part dst v 1 .write with
      | (u, false) => (u, false)
      | (u, true) => State.nodeCopy part (src + 1) (dst + 1) n u

/-! ## Snapshots -/

/-- The bytes at a system physical address with their addresses, read for a partition (R374). -/
def State.cellsAt (s : State) (part : PartNo) (a n : Nat) : List Host.Cell :=
  (List.range n).map fun k => (a + k, s.spaByte part (a + k))

/-- What a declaration table's snapshot holds: itself and its SEMINIT array (R353). -/
def State.declCells (s : State) (part : PartNo) (a : Nat) : List Host.Cell :=
  let i := s.spaNum part (a + 40) 8
  s.cellsAt part a 256 ++ (if i = 0 then [] else s.cellsAt part i 128)

/-- What a launch record's snapshot holds. -/
def State.launchCells (s : State) (part : PartNo) (a : Nat) : List Host.Cell :=
  s.cellsAt part a 128 ++ s.declCells part (s.spaNum part (a + 48) 8)

/-- What a graph record names (R353): its arrays, and the launches of its launch nodes. -/
def State.graphCells (s : State) (part : PartNo) (a : Nat) : List Host.Cell :=
  let nodes := s.spaNum part (a + 24) 8
  let succs := s.spaNum part (a + 32) 8
  let counts := s.spaNum part (a + 40) 8
  let n := fld counts 0 13
  let launches := (List.range n).filter fun k => s.spaNum part (nodes + 64 * k + 7) 1 == 1
  s.cellsAt part nodes (64 * n) ++ s.cellsAt part succs (2 * fld counts 16 16)
    ++ launches.flatMap fun k => s.launchCells part (s.spaNum part (nodes + 64 * k + 8) 8)

/-- The snapshot of the record at an address of a partition (R353). -/
def State.snapshot (s : State) (part : PartNo) (a : Nat) : List Host.Cell :=
  match s.spaNum part (a + 7) 1 with
  | 1 => s.launchCells part a
  | 2 => s.cellsAt part a 128 ++ s.graphCells part a
  | _ => s.cellsAt part a 128

/-- Parts of a snapshot area of a size that hold n bytes, from offset p on, outside the parts that are taken; fewer than n where
there is no room (R353, log 33). The first number bounds the steps. -/
def freeParts (size : Nat) (taken : List (Nat × Nat)) : Nat → Nat → Nat → List (Nat × Nat)
  | 0, _, _ => []
  | k + 1, p, n =>
    match taken.find? fun r => decide (r.1 ≤ p) && decide (p < r.1 + r.2) with
    | some r => freeParts size taken k (r.1 + r.2) n
    | none =>
      let stop := taken.foldl (fun m r => if p < r.1 then min m r.1 else m) size
      let m := min n (stop - p)
      if m = 0 then [] else (p, m) :: freeParts size taken k (p + m) (n - m)

/-- Write a snapshot's bytes into its parts of the snapshot area (R353). -/
def State.putSnap (s : State) (part : PartNo) (area : Nat) : List (Nat × Nat) → List Byte → State
  | [], _ => s
  | r :: l, bs =>
    let s := (List.range r.2).foldl (fun s k => (s.nodeWrite part (area + r.1 + k) (bs.getD k 0).toNat 1 .write).1) s
    State.putSnap s part area l (bs.drop r.2)

/-! ## Fields of records -/

def Rec.num (r : Rec) (k lo n : Nat) : Nat := fld ((r.words[k]!).toNat) lo n
def Rec.kind (r : Rec) : Nat := r.num 0 56 8
def Rec.waitPrev (r : Rec) : Bool := r.num 0 55 1 == 1
def Rec.intr (r : Rec) : Bool := r.num 0 54 1 == 1
def Rec.seq (r : Rec) : Nat := r.num 0 32 16

/-- Whether a function has selected a feature (R372). -/
def Fn.has (f : Fn) (k : Nat) : Bool := f.ack && f.feat.getLsbD k

/-- Whether a function is a virtual one (R443). -/
def isVf (f : FnNo) : Bool := decide (2 ≤ f.val)

/-- The port of a function (R443): 1 for function 1 and the virtual functions of port 1. -/
def portOf (f : FnNo) : Bool := f.val == 1 || decide (98 ≤ f.val)

/-- Whether words k to the end of a list are 0. -/
def zeroFrom (k : Nat) (l : List Nat) : Bool := (l.drop k).all fun v => v == 0

/-! ## The checks of a launch record (R358) -/

/-- The bits of a skew register that are reserved (R88). -/
def skewSpare (v : Nat) : Bool := fld v 56 7 == 0 && fld v 12 36 == 0

/-- The bits of a declaration table that its map does not name are 0, and so are those of the register images in it that are reserved
(R88, R357). -/
def Decl.formed (d : Decl) : Bool :=
  fld (d.word 0) 40 24 == 0 && fld (d.word 0) 24 8 == 0 && fld (d.word 8) 4 60 == 0 && d.word 14 == 0 && d.word 15 == 0
    && skewSpare (d.word 6) && skewSpare (d.word 7)
    && (List.range 8).all fun n => fld (d.word (16 + 2 * n)) 0 21 == 0 && fld (d.word (17 + 2 * n)) 4 10 == 0

/-- The record of a launch is well formed (R355 code 1, R356). -/
def launchFormed (w : List Nat) (d : Decl) : Bool :=
  let w0 := w.getD 0 0
  let n := w.getD 7 0
  fld w0 56 8 == 1 && fld w0 48 6 == 0 && fld w0 0 32 == 0 && decide (1 ≤ n) && decide (n ≤ 16) && zeroFrom 8 w && d.formed

/-- The region has an address, is active and in the function's partition (R355 code 2, R374). -/
def State.regionOk (s : State) (f : Fn) (rcb : Nat) : Bool :=
  f.valid && decide (rcb + 96 ≤ 2 ^ 59) && fld (rcbWord s rcb 7) 0 1 == 1 && fld (rcbWord s rcb 6) 0 5 == f.part.toNat

/-- Whether two ranges share a byte. -/
def meets (a b : Nat × Nat) : Bool := decide (a.1 < b.2) && decide (b.1 < a.2)

/-- Whether no two ranges of a list share a byte. -/
def disjoint : List (Nat × Nat) → Bool
  | [] => true
  | a :: l => !l.any (meets a) && disjoint l

/-- The bytes of a scratchpad (R54). -/
def spEnd : Nat := 0x180000

/-- The layout of a declaration is good (R355 code 4). -/
def Decl.laidOut (d : Decl) (content : List (Nat × Nat × Nat)) : Bool :=
  let rings := ((List.range 8).map d.ring).filter (·.valid)
  let spans := rings.map Ring.span
  let parts := content.map fun c => (c.1, c.1 + c.2.1)
  disjoint spans && disjoint parts && (spans ++ parts).all (fun r => decide (r.2 ≤ spEnd))
    && rings.all (fun r => r.pidx == 0 && r.cidx == 0)
    && (List.range 64).all fun k => !(d.word 4).testBit k || (d.word 3).testBit k

/-- Every predictable ring has a KIND and a FMT of R146 (R355 code 5). -/
def Decl.predicts (d : Decl) : Bool :=
  (List.range 8).all fun n =>
    let r := d.ring n
    let f := fld r.prd.toNat 0 4
    !(r.valid && r.pred) || (decide (fld r.prd.toNat 14 2 ≤ 1) && ((decide (1 ≤ f) && decide (f ≤ 9)) || f == 13))

/-- THE CHECKS OF A LAUNCH RECORD in their order: a status of R355, 0 where it passes (R358). -/
def State.launchStatus (s : State) (f : Fn) (part : PartNo) (snap : List Host.Cell) (w : List Nat) : Nat :=
  let d : Decl := ⟨part, s.snapWord part snap (w.getD 6 0)⟩
  let content := s.contents d
  if !launchFormed w d then 1
  else if !s.regionOk f (w.getD 5 0) then 2
  else if !isDescriptor (w.getD 3 0) (s.codeWord (w.getD 3 0)) then 3
  else if !d.laidOut content then 4
  else if !d.predicts then 5
  else if !s.leasesHeld part (w.getD 5 0) then 6
  else 0

/-! ## Graphs -/

namespace Node

def num (x : Node) (k lo n : Nat) : Nat := fld ((x.words[k]!).toNat) lo n
def kind (x : Node) : Nat := x.num 0 56 8
def word (x : Node) (k : Nat) : Nat := (x.words[k]!).toNat
/-- First and last node of a body (R366). -/
def first (x : Node) : Nat := x.num 2 0 16
def last (x : Node) : Nat := x.num 2 16 16
/-- Whether the node has a body. -/
def hasBody (x : Node) : Bool := x.kind == 5 || x.kind == 6
def isDone (x : Node) : Bool :=
  match x.state with
  | .done _ => true
  | .idle | .body | .running => false

/-- Whether a node's own words fit its kind (R366, R367). -/
def formed (x : Node) (n : Nat) : Bool :=
  let w := x.words.toList.map BitVec.toNat
  let body := decide (x.first ≤ x.last) && decide (x.last < n) && fld (x.word 2) 32 32 == 0
  fld (x.word 0) 32 23 == 0
    && match x.kind with
      | 1 => zeroFrom 3 w
      | 2 => zeroFrom 4 w && x.word 3 % 4 == 0
      | 3 => zeroFrom 1 w
      | 4 => zeroFrom 4 w && x.word 1 % 8 == 0 && decide (x.word 3 ≤ 1)
      | 5 => zeroFrom 3 w && x.word 1 % 4 == 0 && body
      | 6 =>
        zeroFrom 5 w && x.word 1 % 4 == 0 && body && decide (1 ≤ x.word 3) && decide (x.word 3 < 2 ^ 32)
          && x.word 4 % 4 == 0
      | _ => false

end Node

/-- A node of a record. -/
def Rec.node (r : Rec) (k : Nat) : Node := r.nodes.getD k { words := Vector.replicate 8 0 }

/-- The successors of a node (R366). -/
def Rec.succsOf (r : Rec) (k : Nat) : List Nat :=
  let x := r.node k
  (r.succs.drop (x.num 0 0 16)).take (x.num 0 16 16)

/-- The predecessors of a node. -/
def Rec.predsOf (r : Rec) (k : Nat) : List Nat :=
  (List.range r.nodes.length).filter fun m => (r.succsOf m).contains k

/-- Whether a node lies in the body of another. -/
def Rec.inBody (r : Rec) (owner k : Nat) : Bool :=
  let x := r.node owner
  x.hasBody && decide (x.first ≤ k) && decide (k ≤ x.last)

/-- The nodes whose bodies hold a node. -/
def Rec.owners (r : Rec) (k : Nat) : List Nat := (List.range r.nodes.length).filter fun m => r.inBody m k

/-- Whether a node belongs to the body of another itself, and not to that of a cond or loop inside that body (R367: bodies nest). -/
def Rec.direct (r : Rec) (m k : Nat) : Bool :=
  r.inBody m k && !(List.range r.nodes.length).any fun j => r.inBody m j && r.inBody j k

/-- Whether a body that a node belongs to is running (R368). -/
def Rec.inRun (r : Rec) (k : Nat) : Bool :=
  (List.range r.nodes.length).any fun m => (r.node m).state == .body && r.direct m k

/-- Whether the body of a node shares a node with another's that is running, and that does not hold the node itself: R367 lets two
bodies be one, or one lie in the other without its cond or loop, and they run one after the other (log 33). -/
def Rec.bodyBusy (r : Rec) (k : Nat) : Bool :=
  (List.range r.nodes.length).any fun m =>
    m != k && (r.node m).state == .body && !r.inBody m k
      && decide ((r.node m).first ≤ (r.node k).last) && decide ((r.node k).first ≤ (r.node m).last)

/-- Nodes left after n rounds of removing those whose predecessors are gone: a cycle leaves some (R367). -/
def Rec.cyclic (r : Rec) : Nat → List Nat → List Nat
  | 0, l => l
  | n + 1, l =>
    let stay := l.filter fun k => (r.predsOf k).any l.contains
    if stay.length = l.length then l else Rec.cyclic r n stay

/-- Whether two bodies are neither disjoint nor nested. -/
def crossed (a b : Node) : Bool :=
  let apart := decide (a.last < b.first) || decide (b.last < a.first)
  let inside := fun (x y : Node) => decide (y.first ≤ x.first) && decide (x.last ≤ y.last)
  !(apart || inside a b || inside b a)

/-- Whether a graph keeps R367. -/
def Rec.graphOk (r : Rec) : Bool :=
  let n := r.nodes.length
  let all := List.range n
  let owners := all.filter fun k => (r.node k).hasBody
  r.nodes.all (fun x => x.formed n && decide (x.num 0 0 16 + x.num 0 16 16 ≤ r.succs.length))
    && r.succs.all (fun k => decide (k < n))
    && (r.cyclic n all).isEmpty
    && owners.all (fun a => !r.inBody a a && owners.all fun b => !crossed (r.node a) (r.node b))
    && all.all fun u => (r.succsOf u).all fun v => owners.all fun b => r.inBody b u == r.inBody b v

/-- The nodes and successors of a graph record, from its snapshot (R366, R369). -/
def State.readGraph (s : State) (r : Rec) : Rec :=
  let nodes := (r.words[3]).toNat
  let succs := (r.words[4]).toNat
  let node := fun (k : Nat) => ({ words := vecAt 8 fun i => BitVec.ofNat 64 (s.snapWord (s.fnPart r.fn) r.snap (nodes + 64 * k) i) } : Node)
  { r with
    nodes := (List.range (r.num 5 0 13)).map node
    succs := (List.range (r.num 5 16 16)).map fun k => s.snapNum (s.fnPart r.fn) r.snap (succs + 2 * k) 2 }

/-- The words of a graph record fit (R356), and it uses only features that were selected (R372). -/
def Rec.graphFormed (r : Rec) (f : Fn) : Bool :=
  let n := r.num 5 0 13
  f.has 0 && r.num 0 48 6 == 0 && r.num 0 0 32 == 0 && r.num 5 13 3 == 0 && r.num 5 32 32 == 0
    && decide (1 ≤ n) && decide (n ≤ 4096) && zeroFrom 6 (r.words.toList.map BitVec.toNat)

/-- A region-retire record's words fit, and the feature was selected (R356, R372). -/
def Rec.retireFormed (r : Rec) (f : Fn) : Bool :=
  f.has 2 && r.num 0 48 6 == 0 && r.num 0 0 32 == 0 && zeroFrom 4 (r.words.toList.map BitVec.toNat)

/-- Features that any record may use: completion interrupts, queues of virtual functions (R372). -/
def Rec.allowed (r : Rec) (f : Fn) : Bool := (!r.intr || f.has 3) && (!isVf r.fn || f.has 4)

/-- Change a record. -/
def State.mapRec (s : State) (id : Nat) (f : Rec → Rec) : State :=
  { s with records := s.records.map fun r => if r.id = id then f r else r }

def State.findRec (s : State) (id : Nat) : Option Rec := s.records.find? fun r => r.id == id

/-- Change a node of a record. -/
def Rec.setNode (r : Rec) (k : Nat) (f : Node → Node) : Rec :=
  { r with nodes := r.nodes.mapIdx fun i x => if i = k then f x else x }

/-- Whether a node runs. -/
def Node.isRunning (x : Node) : Bool := x.state == .running

/-- Whether every node outside every body is complete. -/
def Rec.allDone (r : Rec) : Bool := (List.range r.nodes.length).all fun k => !(r.owners k).isEmpty || (r.node k).isDone

/-- The graph record completes: with the first failed node's status once the running ones have ended, or DONE (R370). -/
def Rec.settleGraph (r : Rec) : Rec :=
  if r.state != .running || r.nodes.isEmpty then r
  else
    match r.failed with
    | some c => if r.nodes.any Node.isRunning then r else { r with state := .ended c }
    | none => if r.allDone then { r with state := .ended 0 } else r

end Sys2Proof.Machine
end

