-- ==== Sys2Proof/Machine/LaunchEvents.lean ====
section
/-! DEFINITION. The steps of queues, records and graphs: doorbells (R352, R353), starts and completions (R354, R355, R358),
nodes (R366-R370), teardown (R371), the selection of the host interface (R372), and the retirement of a region (R356). -/

namespace Sys2Proof.Machine

/-! ## Doorbells -/

/-- A queue of a function. -/
def State.queue (s : State) (f : FnNo) (q : QueueNo) : Queue := (s.fns[f.val]).queues[q.val]

def State.setQueue (s : State) (f : FnNo) (q : QueueNo) (x : Queue) : State :=
  let y := s.fns[f.val]
  { s with fns := s.fns.set f.val { y with queues := y.queues.set q.val x } }

/-- Whether a teardown of a queue is in progress. -/
def State.tears (s : State) (f : FnNo) (q : QueueNo) : Bool := s.tearing.any fun t => t.fn == f && t.q == q

/-- The records of a queue that have not completed, in order. -/
def State.recsOf (s : State) (f : FnNo) (q : QueueNo) : List Rec := s.records.filter fun r => r.fn == f && r.q == q

/-- The die of a PCIe port (R412). -/
def portDie (p : Bool) : DieNo := if p then 2 else 0

/-- Whether a queue accepts a doorbell (R352, R371, R372, R443, R446): the die of its function's port must be on. -/
def State.hears (s : State) (f : FnNo) (q : QueueNo) : Bool :=
  (s.queue f q).enable && (s.fns[f.val]).ack && !s.tears f q && s.nvs.identity && s.dieOn (portDie (portOf f)) && q.val ≤ (s.fns[f.val]).nq.toNat

/-- SUBMIT the record at a ring index (R353): its snapshot, which goes to the snapshot area too, or SNAPSHOT_FULL where the area has
no room for it. -/
def State.submit (s : State) (f : FnNo) (q : QueueNo) (index : Nat) : State :=
  let x := s.queue f q
  let a := x.base.toNat + 128 * (index % 2 ^ x.log.toNat)
  let snap := s.snapshot (s.fnPart f) a
  let taken := (s.recsOf f q).flatMap (·.area)
  let area := freeParts x.snapsz.toNat taken (2 * taken.length + 2) 0 snap.length
  let fits := area.foldl (fun n r => n + r.2) 0 == snap.length
  let r : Rec :=
    { id := s.nextRec, fn := f, q := q, prev := x.lastRec, words := vecAt 16 (fun k => BitVec.ofNat 64 (s.spaNum (s.fnPart f) (a + 8 * k) 8))
      snap := if fits then snap else [], area := if fits then area else []
      state := if fits then .waiting else .ended 8 }
  let s := { (s.setQueue f q { x with lastSeq := BitVec.ofNat 16 r.seq, lastRec := some r.id }) with
    records := s.records ++ [r], nextRec := s.nextRec + 1 }
  s.putSnap (s.fnPart f) x.snap.toNat r.area (snap.map (·.2))

/-- DOORBELL (R352, R353). -/
def State.doorbell (s : State) (f : FnNo) (q : QueueNo) (tail : Fin 131072) : State :=
  let x := s.queue f q
  let n := (tail.val + 131072 - x.tail.val) % 131072
  let held := (tail.val + 131072 - x.head.val) % 131072
  if !s.hears f q || decide (2 ^ x.log.toNat < held) then s
  else
    let s := (List.range n).foldl (fun s k => s.submit f q (x.tail.val + k)) s
    s.setQueue f q { (s.queue f q) with tail := tail, head := tail }

def execDoorbell (f : FnNo) (q : QueueNo) (tail : Fin 131072) (s : State) : Host.Outcome State Fault Refusal :=
  .next (s.doorbell f q tail)

/-! ## Region retirement -/

/-- A tile with nothing of its task under way. -/
def Tile.scrub (t : Tile) : Tile :=
  { Tile.reset t.cl t.tn with
    tc := t.tc, now := t.now, seen := t.seen, tlb := t.tlb, task := t.task, team := t.team, saved := t.saved, rings := t.rings, ends := t.ends
    deadEnds := t.deadEnds, recvRows := t.recvRows, spswz := t.spswz, chown := t.chown, skew := t.skew, mbx := t.mbx
    loader := t.loader, storer := t.storer, commits := t.commits, squashes := t.squashes, replays := t.replays
    stretch := t.stretch }

/-- Discard a tile's task without any step of its end (R356, R398): what it has under way is gone. -/
def State.dropTask (s : State) (i : TileId) : State :=
  let s := if (s.tileAt i).spec.isSome then s.squash i else s
  let gone := fun (c : Coll) => ({ c with members := c.members.filter fun m => m.tile != i } : Coll)
  let s := { s with
    puts := s.puts.filter fun m => m.src != i
    rows := s.rows.filter fun m => m.src != i
    colls := (s.colls.map gone).filter fun c => !c.members.isEmpty }
  ((s.focus i).mapTile Tile.scrub).endTask

/-- Discard a team wherever it is (R356, R398): resident, or swapped. -/
def State.discardTeam (s : State) (id : Fin 65536) (code : Nat) : State :=
  match s.findTeam id with
  | none => s
  | some k =>
    let here := s.tile.id
    let s := s.setTeam { k with ended := false, state := .resident, leave := none, pool := [] }
    let s := ((s.taskTiles id).map Tile.id).foldl State.dropTask s
    (match s.findTeam id with
      | none => s
      | some k => s.endTeam k code).focus here

/-- Remove a queued launch, its record or node told the outcome (R356, R371). -/
def State.unqueue (s : State) (code : Nat) (q : QTeam) : State :=
  let s := { s with queued := s.queued.filter fun x => x.ref != q.ref }
  s.mapRec q.record fun r =>
    match q.node with
    | none => { r with state := .ended code }
    | some n => r.setNode n.val fun x => { x with ended := some code }

/-- RETIRE A REGION and its subtree (R356). -/
def State.retireRegion (s : State) (rcb : Nat) : State :=
  let under := fun (r : Nat) => (regionPath s treeDepth r).contains rcb
  let teams := (s.teams.filter fun k => under k.rcb).map (·.id)
  let waits := s.queued.filter fun q => under (q.words[5]).toNat
  let s := teams.foldl (fun s id => s.discardTeam id 12) s
  let s := waits.foldl (fun s q => s.unqueue 12 q) s
  let w := rcbWord s rcb 7
  { s with mem := s.mem.putNum (rcb + 56) (w - w % 2) 8 }

/-! ## Starts and completions of records -/

/-- The next record of a queue to start: the first that has not started, its predecessor complete where it asks so (R354). -/
def startable (l : List Rec) : Option Rec :=
  (l.find? fun r => r.state == .waiting).filter fun r => !(r.waitPrev && l.any fun x => r.prev == some x.id)

/-- Queue a launch as one team (R358). -/
def State.enqueueTeam (s : State) (r : Rec) (node : Option (Fin 4096)) (w : List Nat) (arg : Word) (part : PartNo) :
    State :=
  let q : QTeam :=
    { ref := s.nextRef, record := r.id, node := node, words := vecAt 16 (fun k => BitVec.ofNat 64 (w.getD k 0)), arg := arg
      part := part, readyAt := s.time.toNat }
  { s with queued := s.queued ++ [q], nextRef := s.nextRef + 1 }

/-- The words of a record as numbers. -/
def Rec.nums (r : Rec) : List Nat := r.words.toList.map BitVec.toNat

/-- START A RECORD: its checks, then a queued team, a running graph, or a retired region (R356, R358, R367, R443). -/
def State.startRec (s : State) (r : Rec) : State :=
  let f := s.fns[r.fn.val]
  let bad := fun (c : Nat) => s.mapRec r.id fun r => { r with state := .ended c }
  let part := s.fnPart r.fn
  if !r.allowed f then bad 1
  else
    match r.kind with
    | 1 =>
      match s.launchStatus f part r.snap r.nums with
      | 0 => (s.mapRec r.id fun r => { r with state := .running }).enqueueTeam r none r.nums r.words[4] part
      | c => bad c
    | 2 =>
      let g := s.readGraph r
      if !r.graphFormed f || (g.nodes.any (fun x => x.hasBody) && !f.has 1) then bad 1
      else if !f.valid then bad 2
      else if !g.graphOk then bad 7
      else s.mapRec r.id fun _ => { g with state := .running }
    | 3 =>
      if !r.retireFormed f then bad 1
      else if !s.regionOk f (r.words[3]).toNat then bad 2
      else (s.retireRegion (r.words[3]).toNat).mapRec r.id fun r => { r with state := .ended 0 }
    | _ => bad 1

/-- RECORD_START (R354, R358). -/
def State.recordStart (s : State) (f : FnNo) (q : QueueNo) : State :=
  match startable (s.recsOf f q) with
  | none => s
  | some r => s.startRec r

def execRecordStart (f : FnNo) (q : QueueNo) (s : State) : Host.Outcome State Fault Refusal := .next (s.recordStart f q)

/-- COMPLETE A RECORD (R355): the status word, then SIGVAL; an MSI-X message where asked. -/
def State.completeRec (s : State) (r : Rec) (code : Nat) : State :=
  let part := s.fnPart r.fn
  let va := (r.words[1]).toNat
  let s :=
    if va = 0 then s
    else
      let s := (s.nodeWrite part (va + 8) (code * 2 ^ 56 + r.seq * 2 ^ 32) 8 .write).1
      (s.nodeWrite part va (r.words[2]).toNat 8 .write).1
  let x := s.queue r.fn r.q
  let s := if r.intr && (s.fns[r.fn.val]).has 3 then s.setQueue r.fn r.q { x with msix := x.msix + 1 } else s
  { s with records := s.records.filter fun y => y.id != r.id }

/-- RECORD_COMPLETE (R355). -/
def State.recordComplete (s : State) (id : Nat) : State :=
  match s.findRec id with
  | none => s
  | some r =>
    match r.state with
    | .ended c => s.completeRec r c
    | .waiting | .running => s

def execRecordComplete (rec : Nat) (s : State) : Host.Outcome State Fault Refusal := .next (s.recordComplete rec)

/-! ## Graph nodes -/

/-- Whether a node may start or be evaluated for the first time: its record runs without a failure, its predecessors are
complete, its body, if it is in one, is running (R368, R370). -/
def Rec.nodeReady (r : Rec) (k : Nat) : Bool :=
  r.state == .running && r.failed.isNone && decide (k < r.nodes.length) && (r.node k).state == .idle
    && (r.predsOf k).all (fun m => (r.node m).isDone)
    && ((r.owners k).isEmpty || r.inRun k) && !((r.node k).hasBody && r.bodyBusy k)

/-- A node that has run to its outcome (R366). -/
def Rec.ran (r : Rec) (k code : Nat) : Rec := r.setNode k fun x => { x with state := .running, ended := some code }

/-- START A NODE of kind launch, copy, barrier or signal (R366, R368, R370). -/
def State.startNode (s : State) (r : Rec) (k : Fin 4096) : State :=
  let x := r.node k.val
  let part := s.fnPart r.fn
  let ran := fun (s : State) (code : Nat) => s.mapRec r.id fun r => r.ran k.val code
  let did := fun (p : State × Bool) => ran p.1 (if p.2 then 0 else 9)
  match x.kind with
  | 1 =>
    let w := (List.range 16).map (s.snapWord (s.fnPart r.fn) r.snap (x.word 1))
    match s.launchStatus (s.fns[r.fn.val]) part r.snap w with
    | 0 =>
      let arg := if x.num 0 55 1 = 1 then x.words[2] else BitVec.ofNat 64 (w.getD 4 0)
      (s.mapRec r.id fun r => r.setNode k.val fun y => { y with state := .running }).enqueueTeam r (some k) w arg part
    | c => ran s c
  | 2 => did (State.nodeCopy part (x.word 1) (x.word 2) (x.word 3) s)
  | 4 =>
    match (if x.word 3 = 0 then some (x.word 2)
      else (s.nodeRead part (x.word 1) 8).map fun old => (old + x.word 2) % 2 ^ 64) with
    | none => ran s 9
    | some new => did (s.nodeWrite part (x.word 1) new 8 .atomic)
  | _ => ran s 0

/-- NODE_START (R366, R368). -/
def State.nodeStart (s : State) (id : Nat) (k : Fin 4096) : State :=
  match s.findRec id with
  | none => s
  | some r => if r.nodeReady k.val && !(r.node k.val).hasBody then s.startNode r k else s

def execNodeStart (rec : Nat) (node : Fin 4096) (s : State) : Host.Outcome State Fault Refusal := .next (s.nodeStart rec node)

/-- The status of a graph record after one more failure: the first node's, or ABORTED where a teardown that cancelled nodes has
swapped a team out (R370, R371). -/
def failedWith (old : Option Nat) (code : Nat) : Option Nat :=
  match old, code with
  | some 10, 11 => some 11
  | some c, _ => some c
  | none, c => some c

/-- A node completes; the first failure cancels what has not started (R366, R370). -/
def Rec.finish (r : Rec) (k code : Nat) : Rec :=
  let r := r.setNode k fun x => { x with state := .done code, ended := none }
  let r := if code = 0 then r else { r with failed := failedWith r.failed code }
  r.settleGraph

/-- Whether every node of a node's body is complete. -/
def Rec.bodyDone (r : Rec) (k : Nat) : Bool :=
  (List.range r.nodes.length).all fun m => !r.direct k m || (r.node m).isDone

/-- NODE_COMPLETE (R366, R370): a node that has its outcome, or a cond whose body has run. -/
def State.nodeComplete (s : State) (id : Nat) (k : Fin 4096) : State :=
  s.mapRec id fun r =>
    let x := r.node k.val
    match x.state, x.ended with
    | .running, some c => r.finish k.val c
    | .body, _ => if x.kind == 5 && r.failed.isNone && r.bodyDone k.val then r.finish k.val 0 else r
    | _, _ => r

def execNodeComplete (rec : Nat) (node : Fin 4096) (s : State) : Host.Outcome State Fault Refusal :=
  .next (s.nodeComplete rec node)

/-- The nodes of a body as they stand before an iteration (R368). -/
def Rec.freshBody (r : Rec) (k : Nat) : Rec :=
  { r with nodes := r.nodes.mapIdx fun m x => if r.inBody k m then { words := x.words } else x }

/-- COND_EVALUATE (R368): the body runs once where the word at PRED is not 0. -/
def State.condEvaluate (s : State) (id : Nat) (k : Fin 4096) : State :=
  match s.findRec id with
  | none => s
  | some r =>
    let x := r.node k.val
    if !(x.kind == 5 && r.nodeReady k.val) then s
    else
      match s.nodeRead (s.fnPart r.fn) (x.word 1) 4 with
      | none => s.mapRec id fun r => r.ran k.val 9
      | some 0 => s.mapRec id fun r => r.ran k.val 0
      | some _ => s.mapRec id fun r => (r.freshBody k.val).setNode k.val fun x => { x with state := .body }

def execCondEvaluate (rec : Nat) (node : Fin 4096) (s : State) : Host.Outcome State Fault Refusal :=
  .next (s.condEvaluate rec node)

/-- Whether a loop evaluates: for the first time, or after every node of its body (R368). -/
def Rec.loopDue (r : Rec) (k : Nat) : Bool :=
  (r.node k).kind == 6
    && (r.nodeReady k || (r.state == .running && r.failed.isNone && (r.node k).state == .body && r.bodyDone k))

/-- LOOP_EVALUATE (R368): the body runs again, or the loop stops and writes its iteration count. -/
def State.loopEvaluate (s : State) (id : Nat) (k : Fin 4096) : State :=
  match s.findRec id with
  | none => s
  | some r =>
    let x := r.node k.val
    let part := s.fnPart r.fn
    if !r.loopDue k.val then s
    else
      let n := if x.state == .body then x.iters + 1 else x.iters
      match s.nodeRead part (x.word 1) 4 with
      | none => s.mapRec id fun r => r.ran k.val 9
      | some v =>
        if v = 0 || n = x.word 3 then
          let p := if x.word 4 = 0 then (s, true) else s.nodeWrite part (x.word 4) n 4 .write
          p.1.mapRec id fun r => (r.ran k.val (if p.2 then 0 else 9)).setNode k.val fun x => { x with iters := n }
        else s.mapRec id fun r => (r.freshBody k.val).setNode k.val fun x => { x with state := .body, iters := n }

def execLoopEvaluate (rec : Nat) (node : Fin 4096) (s : State) : Host.Outcome State Fault Refusal :=
  .next (s.loopEvaluate rec node)

/-! ## Teardown -/

/-- Cancel what a record has not started or dispatched (R371 steps 1 and 3). -/
def State.cancelRec (s : State) (r : Rec) : State :=
  match r.state with
  | .waiting => s.mapRec r.id fun r => { r with state := .ended 10 }
  | .ended _ => s
  | .running =>
    let s := (s.queued.filter fun q => q.record == r.id).foldl (fun s q => s.unqueue 10 q) s
    s.mapRec r.id fun r =>
      if r.nodes.isEmpty || r.failed.isSome then r
      else
        let left := (List.range r.nodes.length).any fun k =>
          ((r.node k).state == .idle && ((r.owners k).isEmpty || r.inRun k))
            || ((r.node k).kind == 6 && (r.node k).state == .body)
        if left then ({ r with failed := some 10 } : Rec).settleGraph else r

/-- A dispatched team of an aborting teardown is swapped out and not returned (R371 step 2), one that a debugger has halted too. -/
def State.abortTeam (s : State) (id : Fin 65536) : State :=
  match s.findTeam id with
  | none => s
  | some k =>
    let k := { k with abort := true }
    if k.swapped then (s.setTeam k).noteEnd k 11
    else if k.state == .halted || k.leave == some .debugHalt then
      let k := { k with state := .resident, leave := some .swapRequest }
      ((s.stopTiles id .swapRequest false).setTeam k).tryLeave k
    else (s.setTeam k).askLeave k .swapRequest none false

/-- A write that sets TEARDOWN (R371); one made during a teardown has no effect. -/
def State.tearDown (s : State) (f : FnNo) (q : QueueNo) (abort reset : Bool) : State :=
  if s.tears f q then s
  else
    let new : Teardown := { fn := f, q := q, abort := abort, reset := reset }
    let s := { s with tearing := s.tearing ++ [new] }
    let rs := s.recsOf f q
    let s := rs.foldl State.cancelRec s
    if abort then ((s.teams.filter fun k => rs.any fun r => k.record == some r.id).map (·.id)).foldl State.abortTeam s else s

/-- Whether a teardown can end: every record of the queue has completed (R371 step 4). -/
def State.torn (s : State) (t : Teardown) : Bool := (s.recsOf t.fn t.q).isEmpty

/-- The end of a teardown: the acknowledgement word, then ENABLE or the queue's counts (R371 step 5). -/
def State.finishTear (s : State) (t : Teardown) : State :=
  let x := s.queue t.fn t.q
  let s := s.putSpaNum (s.fnPart t.fn) x.ack.toNat (2 ^ 63 + x.lastSeq.toNat) 8
  let s := { s with tearing := s.tearing.filter fun y => y != t }
  s.setQueue t.fn t.q (if t.reset then { x with head := 0, tail := 0 } else { x with enable := false })

/-- A write of TEARDOWN with the bits beside it: it begins a teardown, or, one being in progress, the teardown goes on to
its end where it can. -/
def State.tearStep (s : State) (f : FnNo) (q : QueueNo) (abort reset : Bool) : State :=
  match s.tearing.find? fun t => t.fn == f && t.q == q with
  | none => s.tearDown f q abort reset
  | some t => if s.torn t then s.finishTear t else s

/-- QUEUE_TEARDOWN (R371). -/
def execQueueTeardown (f : FnNo) (q : QueueNo) (s : State) : Host.Outcome State Fault Refusal :=
  .next (s.tearStep f q false false)

/-- QUEUE_ABORT (R371). -/
def execQueueAbort (f : FnNo) (q : QueueNo) (s : State) : Host.Outcome State Fault Refusal :=
  .next (s.tearStep f q true false)

/-- QUEUE_RESET (R371). -/
def execQueueReset (f : FnNo) (q : QueueNo) (abort : Bool) (s : State) : Host.Outcome State Fault Refusal :=
  .next (s.tearStep f q abort true)

/-! ## The host interface version -/

/-- The least minor of a feature (R372). -/
def featureMinor (k : Nat) : Nat :=
  match k with
  | 1 => 1
  | 4 => 2
  | _ => 0

/-- A version register: MAJOR, MINMIN, MINMAX, FEAT (R372). -/
def verWord (major lo hi feat : Nat) : Word := BitVec.ofNat 64 (major * 2 ^ 48 + lo * 2 ^ 40 + hi * 2 ^ 32 + feat)

/-- HIFVER (R372), and D2DVER of every link (R414). -/
def hifver : Word := verWord 2 0 3 0x1F
def d2dver : Word := verWord 1 0 1 0

/-- Whether a selection fits a version register: its MAJOR, a MINOR in its range, features that it offers, each from a minor no later
(R372). -/
def verTakes (ver : Word) (from' : Nat → Nat) (v : Word) : Bool :=
  let minor := fld v.toNat 40 8
  fld v.toNat 48 16 == fld ver.toNat 48 16 && decide (fld ver.toNat 40 8 ≤ minor) && decide (minor ≤ fld ver.toNat 32 8)
    && (List.range 32).all fun k => !v.getLsbD k || (ver.getLsbD k && decide (from' k ≤ minor))

/-- Whether a selection of the host interface is accepted (R372). -/
def hifOk (v : Word) : Bool := verTakes hifver featureMinor v

/-- HIFSEL_SELECT (R372). -/
def State.hifsel (s : State) (f : FnNo) (v : Word) : State :=
  let x := s.fns[f.val]
  if x.queues.toList.any (·.enable) then s
  else
    { s with fns := s.fns.set f.val { x with
        major := BitVec.ofNat 16 (fld v.toNat 48 16), minor := BitVec.ofNat 8 (fld v.toNat 40 8)
        feat := BitVec.ofNat 32 (fld v.toNat 0 32), ack := hifOk v } }

def execHifselSelect (f : FnNo) (v : Word) (s : State) : Host.Outcome State Fault Refusal := .next (s.hifsel f v)

end Sys2Proof.Machine
end

