-- ==== Sys2Proof/Machine/WindowEvents.lean ====
section
/-! DEFINITION. The steps of translation (R381, R382, R389), of the debugger (R402, R403, R410) and of partitions
(R441, R442). -/

namespace Sys2Proof.Machine

/-! ## Translation -/

/-- Change a partition. -/
def State.setPart (s : State) (p : PartNo) (x : Partition) : State := { s with parts := s.parts.set p.val x }

/-- Whether an address lies in what an invalidation names (R381): of size 3 or ALL, any page of the partition. -/
def inSpan (inv : Fin 4 × BitVec 40 × Bool) (va : Nat) : Bool :=
  let w := 11 * inv.1.val
  inv.2.2 || inv.1 == 3 || va / 2 ^ (14 + w) == inv.2.1.toNat / 2 ^ w

/-- Whether an invalidation drops an entry (R381). One of any size drops every leaf under the 64 GiB that hold its address, so that
it stands for the whole range of a merge (R384): a TLB may drop more than the leaves whose page holds it (R380). -/
def TlbEntry.dropped (e : TlbEntry) (p : PartNo) (inv : Fin 4 × BitVec 40 × Bool) : Bool :=
  e.part == p && (inv.2.2
    || (e.size == inv.1 && e.holds p (inv.2.1.toNat * 2 ^ 14))
    || (inv.1 == 3 && e.vpn.toNat / 2 ^ 22 == inv.2.1.toNat / 2 ^ 22))

/-- The pages that a held operation has probed (R151). -/
def HeldOp.pages (h : HeldOp) : List Page :=
  match h with
  | .putc _ _ _ _ ps => ps
  | .cpgo _ j => j.pages
  | .store _ | .sems _ _ | .gred _ _ _ _ | .spawn _ _ | .bufFree _ _ | .bufPub _ _ => []

/-- The effects that a tile holds, speculating or releasing them. -/
def Tile.heldOps (t : Tile) : List Held :=
  ((t.spec.map (·.held)).getD []) ++ (t.releasing.map (·.held)).getD []

/-- Whether an access of a tile that may have used a dropped leaf is still under way (R382). -/
def State.busyTile (s : State) (p : PartNo) (inv : Fin 4 × BitVec 40 × Bool) (t : Tile) : Bool :=
  let mine := (t.task.bind fun k => s.findTeam k.team).any fun k => k.part == p
  t.fills.any (fun f => f.part == p && inSpan inv f.va)
    || mine
    && (t.chans.toList.any (fun c => c.jobs.any fun j => j.pages.any fun x => inSpan inv x.va)
      || t.heldOps.any (fun h => h.op.pages.any fun x => inSpan inv x.va)
      || s.puts.any fun m => m.src == t.id && m.pages.any fun x => inSpan inv x.va)

/-- A write of TLBINV (R381): discarded while an invalidation is in progress. -/
def State.invalidate (s : State) (p : PartNo) (inv : Fin 4 × BitVec 40 × Bool) : State :=
  let x := s.parts[p.val]
  if x.inv.isSome then s else s.setPart p { x with inv := some inv }

/-- TLB_INVALIDATE (R381). -/
def execTlbInvalidate (p : PartNo) (size : Fin 4) (vpn : BitVec 40) (s : State) : Host.Outcome State Fault Refusal :=
  .next (s.invalidate p (size, vpn, false))

/-- TLB_INVALIDATE_ALL (R381). -/
def execTlbInvalidateAll (p : PartNo) (s : State) : Host.Outcome State Fault Refusal :=
  .next (s.invalidate p (3, 0, true))

/-- Whether a partition's invalidation completes: no access that it waits for is under way (R382). -/
def State.invDue (s : State) (p : PartNo) : Option (Fin 4 × BitVec 40 × Bool) :=
  match (s.parts[p.val]).inv with
  | none => none
  | some inv => if s.tiles.any (s.busyTile p inv) then none else some inv

/-- TLB_INVALIDATION_COMPLETE (R381, R382): the leaves are gone from every TLB, the partition's table pointers too. -/
def State.invDone (s : State) (p : PartNo) : State :=
  match s.invDue p with
  | none => s
  | some inv =>
    let keep := fun (l : List TlbEntry) => l.filter fun e => !e.dropped p inv
    let x := s.parts[p.val]
    let s := s.setPart p { x with inv := none, invDone := x.invDone + 1 }
    let inCluster := fun (c : Cluster) => ({ c with tlb := keep c.tlb } : Cluster)
    let inDie := fun (d : Die) => ({ d with tlb := keep d.tlb, ptrs := d.ptrs.filter fun q => q.part != p } : Die)
    let s := { s with clusters := s.clusters.map inCluster, dies := s.dies.map inDie }
    s.mapTiles fun t => { t with tlb := keep t.tlb }

def execTlbInvalidationComplete (p : PartNo) (s : State) : Host.Outcome State Fault Refusal := .next (s.invDone p)

/-- MIGACK (R389): the page leaves every die's queue and counter table. -/
def State.migAck (s : State) (p : PartNo) (size : Fin 4) (vpn : BitVec 40) : State :=
  let keep := fun (m : MigCount) => !(m.part == p && m.size == size && m.vpn == vpn)
  { s with dies := s.dies.map fun d => { d with mig := d.mig.filter keep } }

def execMigack (p : PartNo) (size : Fin 4) (vpn : BitVec 40) (s : State) : Host.Outcome State Fault Refusal :=
  .next (s.migAck p size vpn)

/-! ## Debug halts -/

/-- End a request of HALTCTL with a result (R403). -/
def State.haltAnswer (s : State) (d : DieNo) (result : Nat) : State :=
  let x := s.dies[d.val]
  { s with dies := s.dies.set d.val { x with haltBusy := false, haltResult := BitVec.ofNat 2 result } }

/-- The team that HALTCTL names where it is on its tiles of the die (R403). -/
def State.haltTarget (s : State) (d : DieNo) (id : Fin 65536) : Option Team :=
  (s.findTeam id).filter fun k => dieOf k.home == d && !k.swapped

/-- A write of HALTCTL with GO (R403): the team's number is stored. -/
def State.haltWrite (s : State) (d : DieNo) (id : Fin 65536) (act : State → State) : State :=
  let x := s.dies[d.val]
  if x.haltBusy then s else act { s with dies := s.dies.set d.val { x with haltTeam := id } }

/-- HALT_REQUEST (R403). -/
def State.haltRequest (s : State) (d : DieNo) (id : Fin 65536) : State :=
  s.haltWrite d id fun s =>
    match s.haltTarget d id with
    | none => s.haltAnswer d 1
    | some k =>
      match k.state with
      | .halted => s.haltAnswer d 2
      | .ending => s.haltAnswer d 3
      | .resident | .swapReady | .swapWaiting =>
        let x := s.dies[d.val]
        let s := { s with dies := s.dies.set d.val { x with haltBusy := true, haltFor := id } }
        s.askLeave k .debugHalt none false

def execHaltRequest (d : DieNo) (team : Fin 65536) (s : State) : Host.Outcome State Fault Refusal :=
  .next (s.haltRequest d team)

/-- RESUME_REQUEST (R403). A team of a teardown that aborts, halted until now, is swapped out (R371). -/
def State.resumeRequest (s : State) (d : DieNo) (id : Fin 65536) : State :=
  s.haltWrite d id fun s =>
    match s.haltTarget d id with
    | none => s.haltAnswer d 1
    | some k =>
      match k.state with
      | .halted =>
        let k := { k with state := .resident, cause := 0 }
        let s := ((s.unstop id).setTeam k).haltAnswer d 0
        if k.abort then s.askLeave k .swapRequest none false else s
      | .ending => s.haltAnswer d 3
      | .resident | .swapReady | .swapWaiting => s.haltAnswer d 2

def execResumeRequest (d : DieNo) (team : Fin 65536) (s : State) : Host.Outcome State Fault Refusal :=
  .next (s.resumeRequest d team)

/-- What a halt in progress on a die does next: none while its team's tiles have still to stop (R402, R403). A team that
left its tiles in the meantime, or ended, ends the request. -/
def State.haltStep (s : State) (d : DieNo) : Option State :=
  let x := s.dies[d.val]
  if !x.haltBusy then none
  else
    match s.findTeam x.haltFor with
    | none => some (s.haltAnswer d 3)
    | some k =>
      match k.state, k.leave with
      | .ending, _ => some (s.haltAnswer d 3)
      | .swapReady, _ => some (s.haltAnswer d 1)
      | .swapWaiting, _ => some (s.haltAnswer d 1)
      | .halted, _ => some (s.haltAnswer d 0)
      | .resident, none => some (s.askLeave k .debugHalt none false)
      | .resident, some c =>
        if c == .debugHalt && s.still k.id c then
          some ((s.setTeam { k with state := .halted, cause := c.code, leave := none }).haltAnswer d 0)
        else none

/-- HALT_COMPLETE (R403). -/
def execHaltComplete (d : DieNo) (s : State) : Host.Outcome State Fault Refusal := .next ((s.haltStep d).getD s)

/-- Whether writes to a tile's aperture take effect: the team whose task runs there is halted, or, with no task, the tile's own team,
or the tile is free (R410). -/
def State.tileOpen (s : State) (t : Tile) : Bool :=
  match (t.task.map (·.team)).or (t.team.map (·.1)) with
  | none => true
  | some id => (s.findTeam id).any fun k => k.state == .halted

/-- A word written into the live image of the focus tile (R406, R410). -/
def State.pokeImage (s : State) (off : Nat) (v : Word) : State :=
  let (l, s) := s.image []
  let l := l.take off ++ leBytes v.toNat 8 ++ l.drop (off + 8)
  (s.reload l).mapTile fun t => { t with pc := ctlWord l 0 }

/-- A word written into a tile's aperture (R410): scratchpad, control window, or live image. -/
def State.poke (s : State) (off : Nat) (v : Word) : State :=
  if off + 8 ≤ spEnd then s.spPut off (leBytes v.toNat 8)
  else if off < 0x200000 then s
  else if off < 0x300000 then s.mapTile fun t => t.csrWrite ((off - 0x200000) / 8) v
  else
    let o := off - 0x300000
    if 0x40 ≤ o ∧ o + 8 ≤ arrayOff + asz then s.pokeImage o v else s

/-- APERTURE_WRITE (R410): an aligned word; discarded while the tile is neither free nor halted. -/
def State.apertureWrite (s : State) (i : TileId) (off : Nat) (v : Word) : State :=
  if s.tileOpen (s.tileAt i) then s.onTile i fun s => s.poke (off / 8 * 8) v else s

def execApertureWrite (c : ClusterNo) (t : TileNo) (off : Fin 4194304) (v : Word) (s : State) :
    Host.Outcome State Fault Refusal :=
  if !(s.clusters[c.val]).lets then .next (s.knock c) else .next (s.apertureWrite ⟨c, t⟩ off.val v)

/-! ## Partitions -/

/-- The clusters that a request would take from a partition (R442). -/
def Partition.lost (x : Partition) (clu : BitVec 48) : BitVec 48 := x.clu &&& ~~~clu

/-- Whether a cluster is home to a team (R442). -/
def State.homed (s : State) (c : ClusterNo) : Bool := s.teams.any fun k => k.home == c

/-- Whether a pending bind slot names a cluster (R442). -/
def State.slotPending (s : State) (c : ClusterNo) : Bool :=
  ((s.dies[(dieOf c).val]).slots).toList.any fun w => (w[0]).getLsbD 63 && fld (w[0]).toNat 56 6 == c.val % 12

/-- Clusters of a set. -/
def clustersOf (m : BitVec 48) : List ClusterNo := (List.finRange 48).filter fun c => m.getLsbD c.val

/-- A write of PREQ with GO (R442 steps 1 to 4). -/
def State.partRequest (s : State) (p : PartNo) (clu : BitVec 48) (drain : Bool) : State :=
  let x := s.parts[p.val]
  let lost := x.lost clu
  let foreign := (clustersOf clu).any fun c => (s.partOf c).any fun o => o != p
  if foreign || (x.partsNo != 0 && lost.getLsbD (fld x.ltcfg.toNat 28 6)) then s.setPart p { x with result := 2 }
  else if x.draining then s.setPart p { x with result := 1 }
  else if !drain && (clustersOf lost).any (fun c => s.homed c || s.slotPending c) then s.setPart p { x with result := 1 }
  else s.setPart p { x with draining := true, reqClu := clu }

/-- PARTITION_REQUEST (R442). -/
def execPartitionRequest (p : PartNo) (clu : BitVec 48) (s : State) : Host.Outcome State Fault Refusal :=
  .next (s.partRequest p clu false)

/-- PARTITION_DRAIN_REQUEST (R442). -/
def execPartitionDrainRequest (p : PartNo) (clu : BitVec 48) (s : State) : Host.Outcome State Fault Refusal :=
  .next (s.partRequest p clu true)

/-- A cluster that has left its partition: no semaphore, waiter, monitor entry (R442 step 5). -/
def Cluster.cleared (c : Cluster) : Cluster := { c with sems := Vector.replicate 64 {}, waiters := [], monitors := [] }

/-- Clear what a leaving cluster holds: semaphores, monitor table, scratchpads, slice memory (R442 step 5). -/
def State.clearCluster (s : State) (c : ClusterNo) : State :=
  let sp := spKey c 0 0
  let sl := sliceKey c 0
  { s with
    clusters := s.clusters.set c.val (s.clusters[c.val]).cleared
    mem := (s.mem.clear sp (sp + 17 * 2 ^ 21)).clear sl (sl + 2 ^ 23) }

/-- Whether a partition's change may be applied: no team is homed on a leaving cluster (R442 step 5). -/
def State.applyDue (s : State) (p : PartNo) : Bool :=
  let x := s.parts[p.val]
  x.draining && !(clustersOf (x.lost x.reqClu)).any s.homed

/-- The clusters that another partition holds (R442). -/
def State.foreign (s : State) (p : PartNo) : BitVec 48 :=
  (List.finRange 20).foldl (fun m q => if q = p then m else m ||| (s.parts[q.val]).clu) 0

/-- PARTITION_APPLY (R442 step 5): clusters that join are of no partition. -/
def State.partApply (s : State) (p : PartNo) : State :=
  let x := s.parts[p.val]
  if !s.applyDue p then s
  else
    ((clustersOf (x.lost x.reqClu)).foldl State.clearCluster s).setPart p
      { x with clu := x.reqClu &&& ~~~s.foreign p, done := x.done + 1, draining := false, result := 0 }

def execPartitionApply (p : PartNo) (s : State) : Host.Outcome State Fault Refusal := .next (s.partApply p)

end Sys2Proof.Machine
end

