-- ==== Sys2Proof/Machine/KilnEvents.lean ====
section
/-! DEFINITION. Kiln (R429-R440): the voltage rule, hops, canary and calibration, table records, power-up, retention and
quarantine, routers, throttling; and the signing keys (R447). -/

namespace Sys2Proof.Machine

/-! ## Voltage and clock -/

/-- The anchor frequencies in units of 25 MHz (R434). -/
def anchors : List Nat := [16, 32, 48, 64, 80, 88, 96, 112]

/-- The band of a temperature (R434). -/
def bandOf (t : Nat) : Nat := if t < 40 then 0 else if t < 65 then 1 else if t < 85 then 2 else 3

/-- VMIN of a band and an anchor (R434). -/
def KRecord.at (k : KRecord) (band a : Nat) : Nat := (k.vmin[8 * band + a]!).toNat

/-- The anchors that enclose a frequency: the lower one's index (R430). -/
def enclosing (f : Nat) : Nat := ((List.range 7).filter fun a => anchors.getD a 0 ≤ f).getLastD 0

/-- V of R430 in mV at a frequency in units of 25 MHz. -/
def Cluster.voltFor (c : Cluster) (f : Nat) : Nat :=
  if !c.krec.good then 950
  else
    let a := enclosing f
    let b := bandOf c.temp.toNat
    let lo := anchors.getD a 0
    let hi := anchors.getD (a + 1) 0
    let w := hi - lo
    let n := c.krec.at b a * (hi - f) + c.krec.at b (a + 1) * (f - lo) + (c.krec.guard.toNat + c.krec.drift.toNat) * w
    (n + 5 * w - 1) / (5 * w) * 5

/-- The DLDO output for a clock: V, held in its range (R429, R430). -/
def Cluster.output (c : Cluster) (f : Nat) : Nat := max 500 (min 950 (c.voltFor f))

/-- The voltage follows the band of the temperature and DRIFT at the cluster's clock (R430). -/
def Cluster.retune (c : Cluster) : Cluster := { c with volt := c.output c.freq }

/-- The least FMAX of the regions whose teams are resident on a cluster (R360, R430). -/
def State.fmax (s : State) (c : ClusterNo) : Nat :=
  (s.teams.filter fun k => k.home == c && !k.swapped).foldl (fun m k => min m (fld (rcbWord s k.rcb 1) 24 8)) 112

/-- Whether an aborted hop holds a cluster's next hop off (R431). -/
def Cluster.waits (x : Cluster) (now : Nat) : Bool := x.retry.any fun r => decide (now < r.2)

/-- Whether Kiln may run a cluster at a clock (R429, R430, R434). -/
def State.mayRun (s : State) (c : ClusterNo) (f : Nat) : Bool :=
  let x := s.clusters[c.val]
  decide (16 ≤ f) && decide (f ≤ 112) && decide (f ≤ x.fcap) && decide (f ≤ s.fmax c) && decide (x.voltFor f ≤ 950)
    && (x.krec.good || decide (f ≤ 64))

/-- Write an event record (R440). -/
def State.logEvent (s : State) (code : Nat) (c : ClusterNo) : State :=
  let x := s.clusters[c.val]
  let w0 := BitVec.ofNat 64 (code * 2 ^ 56 + c.val * 2 ^ 50 + s.time.toNat % 2 ^ 48)
  let w1 := BitVec.ofNat 64 (x.freq * 2 ^ 56 + x.volt * 2 ^ 44)
  let p := s.power
  let n := p.evtail.toNat % 256
  let r : Vector Word 2 := (Vector.replicate 2 w1).set 0 w0
  { s with power := { p with events := p.events.set! n r, evtail := p.evtail + 1 } }

/-- Begin a hop: the clock stops; before one upward the voltage rises (R430). -/
def Cluster.startHop (x : Cluster) (f : Nat) : Cluster :=
  { x with
    state := .hopping, hop := some { old := x.freq, new := f, quar := x.state == .quarantine }
    volt := if x.freq < f then x.output f else x.volt, retry := none }

/-- What a cluster is when its hop has ended: it runs, goes on to test an anchor (R433), or is in quarantine (R437). -/
def Cluster.landed (x : Cluster) : ClkState :=
  if x.hop.any (·.quar) then .quarantine else if x.cal.isSome then .calibrating else .running

/-- End a hop: the clock resumes at a new one, at that clock's voltage (R430), from which a pattern's voltages fall (R433); a cluster
that Kiln had lowered to below that clock is held no longer (R439). -/
def Cluster.endHop (x : Cluster) (f : Nat) : Cluster :=
  { x with
    state := x.landed, hop := none, freq := f, volt := x.output f, held := x.held.filter fun g => decide (f < g)
    cal := x.cal.map fun r => { r with top := x.output f } }

/-- The time that power must stay low before clusters are raised: 1 ms (R439). -/
def coolTime : Nat := 100000

/-- Whether module power has stayed at least 5 % below the limit for 1 ms (R439). -/
def State.cool (s : State) : Bool := s.power.coolSince.any fun t => decide (t + coolTime ≤ s.time.toNat)

/-- Whether a cluster's clock may rise (R439): the module does not draw too much, the cluster is not too hot, and one that Kiln has lowered
waits until power has stayed low. -/
def State.mayRise (s : State) (x : Cluster) : Bool :=
  !s.power.above && decide (x.temp.toNat ≤ s.power.tjmax) && (x.held.isNone || s.cool)

/-- The greatest permitted clock below one (R430). -/
def State.below (s : State) (c : ClusterNo) (f : Nat) : Option Nat := ((List.range f).filter (s.mayRun c)).getLast?

/-- The clock to which Kiln moves a cluster that it may no longer run at its own (R430). DESIGN CHOICE (log 22): where no clock is
permitted the cluster's clock stands until one is, the spec saying of that case only that Kiln never runs a cluster above its bounds. -/
def State.forcedHop (s : State) (c : ClusterNo) : Option Nat :=
  let x := s.clusters[c.val]
  if s.mayRun c x.freq || x.waits s.time.toNat then none else some ((s.below c x.freq).getD x.freq)

/-- The clock at which a hop ends: the one it was for, or, where that is no longer permitted, the greatest permitted below it; none
while none is (R430, log 22). One upward ends at the old clock where no clock may rise any more (R439). One to the anchor of a calibration ends
there (R433, log 22). -/
def State.landsAt (s : State) (c : ClusterNo) (h : Hop) : Option Nat :=
  let x := s.clusters[c.val]
  let f := if h.new ≤ h.old || s.mayRise x then h.new else h.old
  if x.cal.isSome then some h.new else if s.mayRun c f then some f else s.below c f

/-- Whether Kiln may begin a hop of a cluster to a clock (R430, R431, R439). -/
def State.mayHop (s : State) (c : ClusterNo) (f : Nat) : Bool :=
  let x := s.clusters[c.val]
  s.mayRun c f && f != x.freq && !x.waits s.time.toNat && (decide (f < x.freq) || s.mayRise x)

/-- FREQUENCY_HOP (R321, R430): on a cluster whose clock runs the hop begins, but not while an aborted one is held off (R431); on one
that hops to that clock it ends. -/
def State.hopTo (s : State) (c : ClusterNo) (f : Nat) : State :=
  let x := s.clusters[c.val]
  match x.state, x.hop with
  | .running, _ | .quarantine, _ =>
    if s.mayHop c f || s.forcedHop c == some f then s.mapCluster c fun x => x.startHop f else s
  | .hopping, some h =>
    if h.new != f then s
    else
      match s.landsAt c h with
      | none => s
      | some g => s.mapCluster c fun x => x.endHop g
  | _, _ => s

def execFrequencyHop (c : ClusterNo) (freq : Fin 128) (s : State) : Host.Outcome State Fault Refusal :=
  .next (s.hopTo c freq.val)

/-- The least time from an aborted hop to its retry: 10 µs (R431). -/
def retryAfter : Nat := 1000

/-- HOP_ABORT (R431): a droop during the hop; the cluster has its old clock again, and the voltage of that clock (R430, log 22). -/
def State.abortHop (s : State) (c : ClusterNo) : State :=
  let x := s.clusters[c.val]
  match x.state, x.hop with
  | .hopping, some h =>
    let back := fun (x : Cluster) =>
      ({ x.retune with
        state := x.landed, hop := none, aborts := x.aborts + 1, droops := x.droops + 1
        retry := some (h.new, s.time.toNat + retryAfter) } : Cluster)
    (s.mapCluster c back).logEvent 1 c
  | _, _ => s

def execHopAbort (c : ClusterNo) (s : State) : Host.Outcome State Fault Refusal := .next (s.abortHop c)

/-- Whether an aborted hop may be tried again (R431): a clock that may not rise for now waits (R439). -/
def State.retryDue (s : State) (c : ClusterNo) : Option Nat :=
  let x := s.clusters[c.val]
  match x.retry with
  | some (f, t) => if x.ticks && decide (t ≤ s.time.toNat) && (decide (f ≤ x.freq) || s.mayRise x) then some f else none
  | none => none

/-- HOP_RETRY (R431); a clock that is no longer permitted is given up (R430). -/
def State.retryHop (s : State) (c : ClusterNo) : State :=
  match s.retryDue c with
  | none => s
  | some f =>
    if s.mayRun c f then s.mapCluster c fun x => x.startHop f else s.mapCluster c fun x => { x with retry := none }

def execHopRetry (c : ClusterNo) (s : State) : Host.Outcome State Fault Refusal := .next (s.retryHop c)

/-! ## Canary, replay rate, drift -/

/-- Kiln raises the voltage and DRIFT by 5 mV (R432), the DLDO giving at most 950 mV (R429). -/
def Cluster.raise (x : Cluster) (now : Nat) : Cluster :=
  { x with volt := min 950 (x.volt + 5), krec := { x.krec with drift := x.krec.drift + 5 }, warnAt := now }

/-- CANARY_WARNING (R432): in canary mode. -/
def State.canaryWarn (s : State) (c : ClusterNo) : State :=
  if !(s.clusters[c.val]).canary then s else (s.mapCluster c fun x => x.raise s.time.toNat).logEvent 2 c

def execCanaryWarning (c : ClusterNo) (s : State) : Host.Outcome State Fault Refusal := .next (s.canaryWarn c)

/-- Whether a cluster's tile cores have replayed more than 1,024 times in 1 ms (R432). -/
def State.replaysHigh (s : State) (c : ClusterNo) : Bool :=
  decide (1024 < ((s.clusters[c.val]).replayLog.filter fun x => s.time.toNat < x + 100000).length)

/-- REPLAY_RATE_RAISE (R432): the replays that raised are counted once. -/
def State.rateRaise (s : State) (c : ClusterNo) : State :=
  if !s.replaysHigh c then s
  else (s.mapCluster c fun x => { (x.raise s.time.toNat) with replayLog := [] }).logEvent 3 c

def execReplayRateRaise (c : ClusterNo) (s : State) : Host.Outcome State Fault Refusal := .next (s.rateRaise c)

/-- Whether Kiln lowers DRIFT: after 10 hours without a warning or a raise (R432), and not where, with CALIB and CANARY clear, it uses
the record unchanged (R433). -/
def Cluster.decays (x : Cluster) (now : Nat) : Bool := (x.calib || x.canary) && decide (x.warnAt + 10 * hour ≤ now)

/-- DRIFT_DECAY (R432, R433): once for each 10 hours; the voltage of a cluster whose clock runs follows. -/
def State.decay (s : State) (c : ClusterNo) : State :=
  let x := s.clusters[c.val]
  if !x.decays s.time.toNat then s
  else
    let d := x.krec.drift.toNat - 5
    let y := { x with krec := { x.krec with drift := BitVec.ofNat 16 d }, warnAt := x.warnAt + 10 * hour }
    s.mapCluster c fun _ => if x.ticks then y.retune else y

def execDriftDecay (c : ClusterNo) (s : State) : Host.Outcome State Fault Refusal := .next (s.decay c)

/-! ## Calibration -/

/-- Whether a cluster is idle: it has no resident team (R433). -/
def State.idleCluster (s : State) (c : ClusterNo) : Bool := !s.teams.any fun k => k.home == c && !k.swapped

/-- The frequency of an anchor (R434). -/
def anchorFreq (a : Fin 8) : Nat := anchors.getD a.val 16

/-- Record VMIN of an anchor in the band of the temperature (R433, R434). -/
def Cluster.setVmin (x : Cluster) (a : Fin 8) (v : Nat) : Cluster :=
  { x with krec := { x.krec with vmin := x.krec.vmin.set! (8 * bandOf x.temp.toNat + a.val) (BitVec.ofNat 16 v) } }

/-- The cluster is to test an anchor, from the voltage for its frequency (R430, R433). -/
def Cluster.testAt (x : Cluster) (back : Nat) (a : Fin 8) : Cluster :=
  let v := x.output (anchorFreq a)
  { x with state := .calibrating, volt := if x.freq = anchorFreq a then v else x.volt, cal := some ⟨back, a, v⟩ }

/-- The cluster runs again, at the clock that it had, to which it hops where it has left it, and the voltage for it (R430, R433). -/
def Cluster.endCal (x : Cluster) : Cluster :=
  let f := (x.cal.map (·.back)).getD x.freq
  let y : Cluster := { x with cal := none, retry := none }
  if f = x.freq then ({ y with state := .running } : Cluster).retune else y.startHop f

/-- Whether a calibration's next event is a hop: to the anchor that it is to test (R430, R433). -/
def Cluster.calHop (x : Cluster) : Option Nat :=
  x.cal.bind fun r => if x.freq = anchorFreq r.anchor then none else some (anchorFreq r.anchor)

/-- One pattern of a calibration (R433): one that passes lowers the voltage by 5 mV; where it fails, or the DLDO gives no less (R429),
VMIN of the anchor is the last voltage that passed, and the next anchor follows, a record that is good after the last. One that fails at
the first voltage has no such voltage: none. -/
def Cluster.pattern (x : Cluster) (r : CalRun) (pass : Bool) : Option Cluster :=
  let done := fun (v : Nat) =>
    let x := x.setVmin r.anchor v
    if h : r.anchor.val + 1 < 8 then x.testAt r.back ⟨r.anchor.val + 1, h⟩
    else ({ x with krec := { x.krec with good := true } } : Cluster).endCal
  if pass then some (if x.volt ≤ 500 then done x.volt else { x with volt := x.volt - 5 })
  else if r.top ≤ x.volt then none
  else some (done (x.volt + 5))

/-- What the silicon answers to a whole calibration (R433, R437): for each anchor a last passing voltage, a free multiple of 5 mV from
500 to the voltage at which its patterns begin. -/
def measured (free : Nat) (x : Cluster) : Cluster :=
  let w := (Config.freeWord free).toNat
  let v := fun (a : Fin 8) =>
    let top := x.output (anchorFreq a)
    top - 5 * (fld w (7 * a.val) 7 % ((top - 500) / 5 + 1))
  let x := (List.finRange 8).foldl (fun y a => y.setVmin a (v a)) x
  { x with krec := { x.krec with good := true } }

/-- CALIBRATION (R433, R440): on an idle running cluster in calibration mode it begins; a calibrating one hops to the anchor's frequency
(R430), where no aborted hop is held off (R431), and there a pattern runs, whose outcome is the silicon's; a failure is logged. -/
def State.calibrate (s : State) (c : ClusterNo) : State :=
  let x := s.clusters[c.val]
  match x.state, x.cal with
  | .running, _ =>
    if x.calib && s.idleCluster c && x.retry.isNone then s.mapCluster c fun x => x.testAt x.freq 0 else s
  | .calibrating, some r =>
    match x.calHop with
    | some f => if x.waits s.time.toNat then s else s.mapCluster c fun x => x.startHop f
    | none =>
      let (n, s) := s.fresh
      match (s.clusters[c.val]).pattern r ((Config.freeWord n).getLsbD 63) with
      | some y => s.mapCluster c fun _ => y
      | none => (s.mapCluster c Cluster.endCal).logEvent 6 c
  | .calibrating, none => s.mapCluster c Cluster.endCal
  | .hopping, _ | .retention, _ | .quarantine, _ | .off, _ => s

def execCalibration (c : ClusterNo) (s : State) : Host.Outcome State Fault Refusal := .next (s.calibrate c)

/-- Whether a calibration that is to stop must wait: for the hop back an aborted hop must be held off no longer (R430, R431). -/
def Cluster.stuckCal (x : Cluster) (now : Nat) : Bool := x.cal.any (fun r => r.back != x.freq) && x.waits now

/-- CALIBRATION_PREEMPT (R433): the pattern stops, the voltage is restored. -/
def State.stopCalibration (s : State) (c : ClusterNo) : State :=
  let x := s.clusters[c.val]
  if x.state != .calibrating || x.stuckCal s.time.toNat then s
  else s.mapCluster c Cluster.endCal

def execCalibrationPreempt (c : ClusterNo) (s : State) : Host.Outcome State Fault Refusal :=
  .next (s.stopCalibration c)

/-- Take one index of a signing key, a block of 64 being reserved first; none where no index is left (R447). -/
def Key.sign (k : Key) : Option Key :=
  if k.left = 0 then none
  else
    some { left := k.left - 1, next := k.next + 1, reserved := if k.next < k.reserved then k.reserved else k.next + 64 }

/-- KILN_RECORD_UPDATE (R434, R447): at most once per hour, while the die's record key can sign; a record that is not good stays
until calibration has written a new one. Where its signature entry lies is left open (log 14). -/
def State.updateRecord (s : State) (c : ClusterNo) : State :=
  let x := s.clusters[c.val]
  let d := dieOf c
  let now := s.time.toNat
  if now < x.krecNext || !x.krec.good then s
  else
    match (s.nvs.dieKeys[d.val]).sign with
    | none => s
    | some key =>
      let (a, s) := s.fresh
      let (b, s) := s.fresh
      let r : KRecord :=
        { x.krec with
          sigref := vecAt 2 fun k => Config.freeWord (if k = 0 then a else b)
          mode := BitVec.ofNat 2 (2 * x.calib.toNat + x.canary.toNat), time := BitVec.ofNat 48 now
          hours := x.krec.hours + BitVec.ofNat 32 (now / hour), good := true }
      let s := s.mapCluster c fun x => { x with krecNext := now + hour }
      let s := { s with nvs := s.nvs.setHeader (6 + c.val) 0 96 (Config.freeWord a) }
      { s with nvs := { s.nvs with kiln := s.nvs.kiln.set c.val r, dieKeys := s.nvs.dieKeys.set d.val key } }

def execKilnRecordUpdate (c : ClusterNo) (s : State) : Host.Outcome State Fault Refusal := .next (s.updateRecord c)

/-! ## Power-up, retention, quarantine -/

/-- The time that a cluster takes to power up at most: 2 µs (R435). -/
def riseTime : Nat := 200

/-- The tiles of a cluster take part in the turns (log 4). -/
def State.listTiles (s : State) (c : ClusterNo) : State :=
  (List.finRange 17).foldl (fun s t => s.setTile (s.tileAt ⟨c, t⟩)) s

/-- A cluster that powers up from off runs, at its reset clock (R429, R435) and the voltage for it (R430), which is 950 mV where its
table record's signature failed (R434); a die whose trim record failed stays off (R446). -/
def State.powerUp (s : State) (c : ClusterNo) : State :=
  if (s.clusters[c.val]).state != .off || !s.nvs.trim[(dieOf c).val] then s
  else
    (s.mapCluster c fun x =>
      ({ x with state := .running, issuedAt := s.time.toNat } : Cluster).retune).listTiles c

/-- Whether the in-rush arbiter lets the next request go (R435, R439). -/
def State.grantDue (s : State) : Option PowerReq :=
  let busy := s.power.rising.filter fun p => s.time.toNat < p.2
  match s.power.inrush with
  | [] => none
  | (_, r) :: _ => if busy.length < s.power.inmax then some r else none

/-- POWER_UP_GRANT (R435). -/
def State.grant (s : State) : State :=
  match s.grantDue with
  | none => s
  | some r =>
    let p := s.power
    let now := s.time.toNat
    let s := { s with power := { p with
      inrush := p.inrush.drop 1, rising := (p.rising.filter fun x => now < x.2) ++ [(r, now + riseTime)] } }
    match r with
    | .cluster c => s.powerUp c
    | .macros _ _ => s

def execPowerUpGrant (s : State) : Host.Outcome State Fault Refusal := .next s.grant

/-- Whether a tile holds nothing under way, so that its cluster may stop (R436, log 22). -/
def Tile.still (t : Tile) : Bool :=
  t.flights.isEmpty && t.ops.isEmpty && t.fills.isEmpty && t.cpCount == 0 && t.ctl == 0 && t.ending.isNone && !t.stopped
    && t.spec.isNone && !t.loader.running && !t.storer.running && t.rings.toList.all fun r => r.hist.isEmpty

/-- No issue for this long lets a cluster go into retention: 100 µs (R436). -/
def retainAfter : Nat := 10000

/-- RETENTION_ENTRY (R436). -/
def State.retain (s : State) (c : ClusterNo) : State :=
  let x := s.clusters[c.val]
  let still := (s.tiles.filter fun t => t.cl == c).all Tile.still
  if x.reten && x.state == .running && decide (x.issuedAt + retainAfter ≤ s.time.toNat) && still then
    s.mapCluster c fun x => { x with state := .retention }
  else s

def execRetentionEntry (c : ClusterNo) (s : State) : Host.Outcome State Fault Refusal := .next (s.retain c)

/-- Whether the arbiter has let a cluster power up, within the time that this takes (R435). -/
def State.granted (s : State) (c : ClusterNo) : Bool :=
  s.power.rising.any fun p => p.1 == .cluster c && decide (s.time.toNat < p.2)

/-- End a team as Lost (R398, R399, R437): its fault domain receives a record, its contexts go without a boundary. -/
def State.loseTeam (s : State) (id : Fin 65536) : State :=
  match s.findTeam id with
  | none => s
  | some k =>
    let at' : Option (Fin 16 × Tile) :=
      match s.teamTiles id with
      | t :: _ => some ((t.team.map (·.2)).getD 0, t)
      | [] => k.saved.head?
    let pc := (at'.map (·.2.pc)).getD 0
    (s.recordFault k { cause := .retentionLoss } pc 2 k.home ((at'.map (·.1.val)).getD 0)).discardTeam id stFaulted

/-- A cluster goes into quarantine (R437): one that hops is in it when its hop has ended, one that calibrates does so no longer. -/
def Cluster.toQuarantine (x : Cluster) : Cluster :=
  let y : Cluster := { x with cal := none, lost := false }
  match x.hop with
  | some h => { y with hop := some { h with quar := true } }
  | none => ({ y with state := .quarantine } : Cluster).retune

/-- A cluster that has lost a retention element: quarantine, its teams lost (R437). -/
def State.quarantine (s : State) (c : ClusterNo) : State :=
  let ids := (s.teams.filter fun k => k.home == c).map (·.id)
  let s := s.mapCluster c Cluster.toQuarantine
  (ids.foldl State.loseTeam s).logEvent 4 c

/-- RETENTION_WAKE (R436, R437), with which the tiles stop that a team has asked to in the meantime: the parity check comes when the arbiter has let the cluster power up; before that an
arrival asks for power, and an element may lose its value. -/
def State.wakeUp (s : State) (c : ClusterNo) (lost : Bool) : State :=
  let x := s.clusters[c.val]
  if x.state != .retention then s
  else if !s.granted c then (s.mapCluster c fun x => { x with lost := x.lost || lost }).knock c
  else if x.lost || lost then s.quarantine c
  else
    (s.mapCluster c fun x => ({ x with state := .running, issuedAt := s.time.toNat } : Cluster).retune).stopLate c

def execRetentionWake (c : ClusterNo) (lost : Bool) (s : State) : Host.Outcome State Fault Refusal := .next (s.wakeUp c lost)

/-- QUARANTINE_RELEASE (R437, R429): the cluster is calibrated; whether it passes at every anchor is the silicon's answer. -/
def State.release (s : State) (c : ClusterNo) : State :=
  if (s.clusters[c.val]).state != .quarantine then s
  else
    let (n, s) := s.fresh
    if (Config.freeWord n).getLsbD 63 then
      (s.mapCluster c fun x =>
        ({ (measured n x) with state := .running, issuedAt := s.time.toNat } : Cluster).retune).logEvent 5 c
    else s.logEvent 6 c

def execQuarantineRelease (c : ClusterNo) (s : State) : Host.Outcome State Fault Refusal := .next (s.release c)

/-! ## Routers -/

/-- Whether a flit is on its way to a cluster or through its router, or a wake request to it (R438): a put's, a row's, a member's
contribution to a join, a fill's to another die. DESIGN CHOICE (log 22): no flit is seen of an access to the die's own
memory, or beyond the link by which one reaches another die, the spec giving the memories no place on the mesh. -/
def State.callers (s : State) (c : ClusterNo) : Bool :=
  s.puts.any (fun m => (s.putRoute m).contains c) || s.rows.any (fun m => (s.route m.src.cl (s.rowTo m)).contains c)
    || s.colls.any (fun x => x.abort.isNone && x.members.any fun m => !m.out && (s.joinRoute x m).contains c)
    || s.tiles.any (s.fillPasses c) || s.power.inrush.any fun x => x.2 == .cluster c

/-- The time for which a router must have held no flit: 256 router cycles (R438). -/
def quietTime : Nat := (256 + unitCycles - 1) / unitCycles

/-- ROUTER_POWER_DOWN (R438): intent, then, the next cycle quiet, the commitment; a flit or a wake request cancels it. -/
def State.routerDown (s : State) (c : ClusterNo) : State :=
  let x := s.clusters[c.val]
  let asleep := x.state == .retention || x.state == .off
  match x.router with
  | .up => if asleep && !s.callers c && decide (x.flitAt + quietTime ≤ s.time.toNat) then s.mapCluster c fun x => { x with router := .intent } else s
  | .intent => s.mapCluster c fun x => { x with router := if asleep && !s.callers c then .down else .up }
  | .down => s

def execRouterPowerDown (c : ClusterNo) (s : State) : Host.Outcome State Fault Refusal := .next (s.routerDown c)

/-- ROUTER_WAKE (R438). -/
def execRouterWake (c : ClusterNo) (s : State) : Host.Outcome State Fault Refusal :=
  .next (s.mapCluster c fun x => { x with router := .up })

/-! ## Operator limits -/

/-- Lower a cluster's clock by one step, not below 400 MHz, in a hop (R430, R439). -/
def Cluster.lower (x : Cluster) : Cluster :=
  if !x.ticks || x.freq ≤ 16 then x
  else { (x.startHop (x.freq - 1)) with held := some (x.held.getD x.freq) }

/-- The greatest clock among the clusters that run. -/
def State.fastest (s : State) : Nat :=
  s.clusters.toList.foldl (fun m (x : Cluster) => if x.ticks then max m x.freq else m) 0

/-- The time between two steps down: 100 µs (R439). -/
def throttleEvery : Nat := 10000

/-- WATTS exceeds PWRLIM, from the time it does until it is below; and the time from which it is at least 5 % below (R439). -/
def Power.judge (p : Power) (now : Nat) : Power :=
  { p with
    above := decide (p.pwrlim < p.watts) || (p.above && decide (p.pwrlim ≤ p.watts))
    coolSince := if 100 * p.watts ≤ 95 * p.pwrlim then some (p.coolSince.getD now) else none }

/-- Whether a cluster is to be lowered (R439): one of the fastest while the module draws too much, or one that is too hot; none whose
aborted hop is held off (R431). -/
def State.tooMuch (s : State) (x : Cluster) : Bool :=
  x.ticks && decide (16 < x.freq) && !x.waits s.time.toNat
    && ((s.power.above && x.freq == s.fastest) || decide (s.power.tjmax < x.temp.toNat))

/-- POWER_THROTTLE (R439). -/
def State.throttle (s : State) : State :=
  let now := s.time.toNat
  let cs := (List.finRange 48).filter fun c => s.tooMuch s.clusters[c.val]
  if cs.isEmpty || s.power.throttleAt.any (fun t => now < t + throttleEvery) then s
  else
    let s := { s with power := { s.power with throttleAt := some now } }
    cs.foldl (fun s c => (s.mapCluster c Cluster.lower).logEvent 7 c) s

def execPowerThrottle (s : State) : Host.Outcome State Fault Refusal := .next s.throttle

/-- Whether a cluster is one that Kiln has lowered and may raise: its clock runs and may rise (R439), and no hop is held off (R431). -/
def State.mayRaise (s : State) (x : Cluster) : Bool := x.held.isSome && x.ticks && !x.waits s.time.toNat && s.mayRise x

/-- Raise a lowered cluster by one step, in a hop, until it has its clock again or the greatest that is permitted (R430,
R439). -/
def State.restoreCluster (s : State) (c : ClusterNo) : State :=
  let x := s.clusters[c.val]
  match x.held with
  | none => s
  | some f =>
    let n := x.freq + 1
    if !s.mayRaise x then s
    else if f ≤ x.freq || !s.mayRun c n then s.mapCluster c fun x => { x with held := none }
    else s.mapCluster c fun x => x.startHop n

/-- POWER_RESTORE (R439): once power has stayed at least 5 % below the limit for 1 ms, the clusters that were lowered are raised. -/
def State.restorePower (s : State) : State := (List.finRange 48).foldl State.restoreCluster s

def execPowerRestore (s : State) : Host.Outcome State Fault Refusal := .next s.restorePower

end Sys2Proof.Machine
end

