-- ==== Sys2Proof/Machine/Atomics.lean ====
section
/-! DEFINITION. Atomics at the home of their address (R133, R265-R267), waiting on a slice address and waking (R134,
R268-R270). -/

namespace Sys2Proof.Machine

/-- The bytes of an atomic (R265). -/
def atomBytes (wide : Bool) : Nat := if wide then 8 else 4

/-- An old value widened to 64 bits: zeros in the .u forms, else its sign (R265). -/
def atomOld (wide u : Bool) (v : Nat) : Word :=
  if wide then BitVec.ofNat 64 v else if u then BitVec.ofNat 64 v else BitVec.ofInt 64 (sgnVal 32 v)

/-- Place the tile's own unpublished stores to the 64-byte slice line of an offset at the bank and drop its view of the
line; the stores are then at the bank and no longer held back (R133, R134). -/
def State.flushSliceLine (s : State) (off : Nat) : State :=
  let line := off / 64
  let mine := fun (p : Host.Cell) => p.1 / 64 == line
  let t := s.tile
  let m := slicePut t.cl (slicePut t.cl s.mem (t.tpub.filter mine)) (t.unpub.filter mine)
  { s with
    mem := m
    tile := { t.dropCopied fun a => a / 64 == line with
      unpub := t.unpub.filter fun p => !mine p
      tpub := t.tpub.filter fun p => !mine p
      view := t.view.filter fun p => p.1 != line } }

/-- Place the dirty bytes of a window line that lie in the 64-byte line of a home at that home, leaving them clean (R133). -/
def State.flushPart (spa : Nat) (s : State) (p : MapNo × Nat) : State :=
  let m := s.tile.maps[p.1.val]
  match m.line p.2 with
  | none => s
  | some x =>
    if x.mask == 0 then s
    else
      match s.translate (s.tile.lineVa p) .write with
      | .error _ => s
      | .ok (tr, _) =>
        if tr.spa ≤ spa ∧ spa < tr.spa + 256 then
          let these : BitVec 256 := (BitVec.ofNat 256 (2 ^ 64 - 1)) <<< (64 * ((spa - tr.spa) / 64))
          let u := s.putLine (m.lo + 256 * p.2) tr.spa (x.mask &&& these) 256
          u.mapTile fun t => t.setMap p.1 { m with lines := MapEntry.putLine m.lines { x with mask := x.mask &&& ~~~these } }
        else s

/-- Place the tile's own stores to the 64-byte line of a global home at that home, through whichever windows they were made
(R68, R133). -/
def State.flushWindows (s : State) (spa : Nat) : State :=
  ((List.finRange 16).flatMap fun n => s.tile.linesOf n).foldl (State.flushPart spa) s

/-- The home of an atomic (R266). -/
inductive Home where
  | sp (a : Nat)
  | slice (off : Nat)
  | global (n : MapNo) (a : Nat) (tr : Trans)

/-- The value at a home (R133). -/
def State.homeValue (s : State) (h : Home) (n : Nat) : Nat :=
  match h with
  | .sp a => leNat (s.spBytes a n)
  | .slice off => s.mem.num (sliceKey s.tile.cl off) n
  | .global _ _ tr => s.mem.num tr.spa n

/-- Put a value at a home (R133). -/
def State.putHome (s : State) (h : Home) (v n : Nat) : State :=
  match h with
  | .sp a => s.spPut a (leBytes v n)
  | .slice off => { s with mem := s.mem.putNum (sliceKey s.tile.cl off) v n }
  | .global _ _ tr => { s with mem := s.mem.putNum tr.spa v n }

/-- What an atomic meets at a home with an uncorrectable error: SP_UNCORRECTABLE in the tile's cluster (R263), MACHINE_CHECK
elsewhere (log 48). -/
def State.homeError (s : State) (h : Home) (n : Nat) : Option TrapInfo :=
  match h with
  | .sp a => (s.badAt (spKey s.tile.cl s.tile.tn (spPhys s.tile.spswz a)) n).map fun _ => spError 4 a
  | .slice off => (s.badAt (sliceKey s.tile.cl off) n).map fun _ => spError 4 (0x400000 + off)
  | .global _ _ tr => (s.badAt tr.spa n).map fun k => { cause := .machineCheck, slot := 4, val := line64 k }

/-- Place the tile's own unpublished stores to the line of a home at that home (R133). -/
def State.flushHome (s : State) (h : Home) : State :=
  match h with
  | .sp _ => s
  | .slice off => s.flushSliceLine off
  | .global _ _ tr => s.flushWindows tr.spa

/-- The home of an atomic and the checks on the way to it, steps 2 to 6 of R247 (R266). -/
def findHome (c : Ctx) (s : State) (a n : Nat) (host : Bool) : Except TrapInfo (Home × State) :=
  let err := fun (x : Cause) => Except.error (addrTrap x a)
  match accessCheck c .spSlice n a n with
  | some .align => err .atomicAlign
  | some x => err x
  | none =>
    if regionOf a == .slice then .ok (.slice (a - 0x400000), s)
    else if c.pre.slotsVerdict .core true a (a + n) == .bad then .error (trapOf .bufferState)
    else
      match c.pre.window a with
      | none => .ok (.sp a, s)
      | some k =>
        let m := c.pre.maps[k.val]
        if !m.wr then err .mapEntry
        else
          let va := m.va + (a - m.lo)
          match s.translate va (if host then .atomic else .hostAtomic) with
          | .error e => .error e
          | .ok (tr, u) =>
            match u.cutOff u.part tr.spa with
            | some e => .error (trapOf e)
            | none => .ok (.global k a tr, u.countAccess va tr)

/-- The tile cycles in which a home answers (log 7). -/
def homeTime (c : Ctx) (h : Home) : Nat :=
  match h with
  | .sp _ => 6
  | .slice _ => 10
  | .global _ _ tr => if tr.leaf.lc == 0 then class0Fill else nsToTc c.s0.cluster.freq (classBound tr.leaf.lc)

/-- A boundary where an ordering attribute asks for one (R123). -/
def ordBoundary (on : Bool) (c : Ctx) (s : State) (m : StMask) (k : State → SlotR) : SlotR :=
  if on then withBoundary c s (classes m) true k else k s

/-- An atomic: its checks, its boundary before, the operation once at the home, its boundary after (R265-R267, R123). At the footprint
edges of R140 it counts as a store and as a load: it waits for jobs that read or write its bytes (log 44).
f gives the new value from the old one and the operand, both cut to the size; host says whether host memory performs
it (R266). -/
def atomic (d a : SReg) (o : Ord4) (_sc : Scope) (m : StMask) (wide u host : Bool) (reads : List SReg)
    (f : Ctx → Nat → Nat → Nat) : Slot :=
  { memSlotR (fun _ => .sreg a :: reads.map Site.sreg) fun c s =>
      let n := atomBytes wide
      let x := (c.pre.sreg a).toNat
      match findHome c s x n host with
      | .error e => .trap e
      | .ok (h, _) =>
        if c.pre.edge true x (x + n) || c.pre.edge false x (x + n) then .stall c.s0
        else
        waitData c (homeTime c h) [] <|
          ordBoundary (o == .rel || o == .ar) c s m fun v =>
            match findHome c v x n host with
            | .error e => .trap e
            | .ok (h, v) =>
              match v.homeError h n with
              | some e => .trap e
              | none =>
                let v := v.flushHome h
                let old := v.homeValue h n
                let new := f c old ((c.pre.sreg d).toNat % 2 ^ (8 * n)) % 2 ^ (8 * n)
                let v := v.putHome h new n
                let v := v.mapTile fun t => t.write (.sreg d) (atomOld wide u old)
                ordBoundary (o == .acq || o == .ar) c v m okR
    with meets := fun _ => o != .rlx }

/-- The signed or unsigned order of an atomic's operands. -/
def atomLess (wide u : Bool) (x y : Nat) : Bool :=
  if u then decide (x < y) else decide (sgnVal (8 * atomBytes wide) x < sgnVal (8 * atomBytes wide) y)

def slotAadd (d a : SReg) (o : Ord4) (sc : Scope) (m : StMask) (wide : Bool) : Slot :=
  atomic d a o sc m wide false true [d] fun _ old v => old + v

def slotAand (d a : SReg) (o : Ord4) (sc : Scope) (m : StMask) (wide : Bool) : Slot :=
  atomic d a o sc m wide false false [d] fun _ old v => old &&& v

def slotAor (d a : SReg) (o : Ord4) (sc : Scope) (m : StMask) (wide : Bool) : Slot :=
  atomic d a o sc m wide false false [d] fun _ old v => old ||| v

def slotAmin (d a : SReg) (o : Ord4) (sc : Scope) (m : StMask) (wide : Bool) (u : Bool) : Slot :=
  atomic d a o sc m wide u false [d] fun _ old v => if atomLess wide u v old then v else old

def slotAmax (d a : SReg) (o : Ord4) (sc : Scope) (m : StMask) (wide : Bool) (u : Bool) : Slot :=
  atomic d a o sc m wide u false [d] fun _ old v => if atomLess wide u old v then v else old

def slotAxch (d a : SReg) (o : Ord4) (sc : Scope) (m : StMask) (wide : Bool) : Slot :=
  atomic d a o sc m wide false true [d] fun _ _ v => v

/-- ACAS: s[D + 1] where the old value is s[D] (R265). -/
def slotAcas (d a : SReg) (o : Ord4) (sc : Scope) (m : StMask) (wide : Bool) : Slot :=
  atomic d a o sc m wide false true [d, d + 1] fun c old v => if old = v then (c.pre.sreg (d + 1)).toNat else old

/-- ADECP: one less where the old value is positive (R265). -/
def slotAdecp (d a : SReg) (o : Ord4) (sc : Scope) (m : StMask) (wide : Bool) : Slot :=
  atomic d a o sc m wide false false [] fun _ old _ => if 0 < sgnVal (8 * atomBytes wide) old then old - 1 else old

/-- The checks of a slice address for WAITA, WAKE1 and WAKEA (R269, R270). -/
def monitorCheck (c : Ctx) (a n : Nat) : Option Cause :=
  match localCheck c.pre.priv n a n with
  | some x => some x
  | none => if regionOf a == .slice then none else some .monitorMisuse

/-- The monitor-table entries of a cluster (R268). -/
def monitorSize : Nat := 8

/-- The monitor table of the focus tile's cluster. -/
def State.monitors (s : State) : List Monitor := s.cluster.monitors

def State.setMonitors (s : State) (l : List Monitor) : State := s.setCluster { s.cluster with monitors := l }

/-- Whether the focus tile's task holds an entry on an address, in whichever cluster it took it (R269). -/
def State.watches (s : State) (a : Nat) : Bool :=
  s.clusters.toList.any fun c => c.monitors.any fun m => s.ownsMonitor m && m.addr == a

/-- WAITA's end: its predicate, then its boundary (R269, R123). -/
def waitaDone (c : Ctx) (s : State) (p : PReg) (v : Bool) : SlotR :=
  withBoundary c s 2 true fun u => okR (u.mapTile fun t => t.write (.pred p) (boolWord v))

/-- WAITA (R269, R134), a load at the footprint edges of R140 (log 44). -/
def slotWaita (a b : SReg) (p : PReg) (wide : Bool) : Slot :=
  { memSlotR (fun _ => [.sreg a, .sreg b]) fun c s =>
      let n := atomBytes wide
      let x := (c.pre.sreg a).toNat
      match monitorCheck c x n with
      | some e => addrR e x
      | none =>
        if c.pre.edge false x (x + n) then .stall c.s0
        else if c.pre.woken then waitaDone c s p true
        else if s.watches x then .wait c.s0 (.addr x)
        else
          let s := s.flushSliceLine (x - 0x400000)
          let old := s.homeValue (.slice (x - 0x400000)) n
          match s.homeError (.slice (x - 0x400000)) n with
          | some e => .trap e
          | none =>
            if old != (c.pre.sreg b).toNat % 2 ^ (8 * n) then waitaDone c s p true
            else if monitorSize ≤ s.monitors.length then waitaDone c s p false
            else
              match s.tile.task with
              | none => waitaDone c s p false
              | some k =>
                let u := c.s0.flushSliceLine (x - 0x400000)
                .wait (u.setMonitors (u.monitors ++ [⟨x, n, k.team, s.tile.id, k.no⟩])) (.addr x)
    with meets := fun _ => true }

/-- A tile, resident or saved with its team, whose WAITA a wake has reached (R269, R36). -/
def wakeTile (m : Monitor) (t : Tile) : Tile :=
  if t.task.any fun x => x.no == m.task then { t with woken := true } else t

/-- Wake the waiter of a monitor entry, wherever its task is. -/
def State.wake (s : State) (m : Monitor) : State :=
  let s := s.mapTiles (wakeTile m)
  { s with teams := s.teams.map fun k =>
      if k.id == m.team then k.mapSaved (wakeTile m) else k }

/-- Wake entries on an address, all or the oldest (R270). -/
def wakeSlot (a d : SReg) (all : Bool) : Slot :=
  { memSlotR (fun _ => [.sreg a]) fun c s =>
      let x := (c.pre.sreg a).toNat
      match monitorCheck c x 1 with
      | some e => addrR e x
      | none =>
        withBoundary c s 2 true fun u =>
          let hit := u.monitors.filter fun m => m.addr == x
          let woken := if all then hit else hit.take 1
          let u := u.setMonitors (u.monitors.filter fun m => !woken.contains m)
          let u := woken.foldl State.wake u
          okR (u.mapTile fun t => t.write (.sreg d) (BitVec.ofNat 64 woken.length))
    with meets := fun _ => true }

/-- WAKE1 (R270). -/
def slotWake1 (a d : SReg) : Slot := wakeSlot a d false

/-- WAKEA (R270). -/
def slotWakea (a d : SReg) : Slot := wakeSlot a d true

def execAadd (d a : SReg) (o : Ord4) (sc : Scope) (m : StMask) (wide : Bool)
    (s : State) : Host.Outcome State Fault Refusal :=
  .next (issue1 s (slotAadd d a o sc m wide))
def execAand (d a : SReg) (o : Ord4) (sc : Scope) (m : StMask) (wide : Bool)
    (s : State) : Host.Outcome State Fault Refusal :=
  .next (issue1 s (slotAand d a o sc m wide))
def execAor (d a : SReg) (o : Ord4) (sc : Scope) (m : StMask) (wide : Bool)
    (s : State) : Host.Outcome State Fault Refusal :=
  .next (issue1 s (slotAor d a o sc m wide))
def execAmin (d a : SReg) (o : Ord4) (sc : Scope) (m : StMask) (wide : Bool) (u : Bool)
    (s : State) : Host.Outcome State Fault Refusal :=
  .next (issue1 s (slotAmin d a o sc m wide u))
def execAmax (d a : SReg) (o : Ord4) (sc : Scope) (m : StMask) (wide : Bool) (u : Bool)
    (s : State) : Host.Outcome State Fault Refusal :=
  .next (issue1 s (slotAmax d a o sc m wide u))
def execAxch (d a : SReg) (o : Ord4) (sc : Scope) (m : StMask) (wide : Bool)
    (s : State) : Host.Outcome State Fault Refusal :=
  .next (issue1 s (slotAxch d a o sc m wide))
def execAcas (d a : SReg) (o : Ord4) (sc : Scope) (m : StMask) (wide : Bool)
    (s : State) : Host.Outcome State Fault Refusal :=
  .next (issue1 s (slotAcas d a o sc m wide))
def execAdecp (d a : SReg) (o : Ord4) (sc : Scope) (m : StMask) (wide : Bool)
    (s : State) : Host.Outcome State Fault Refusal :=
  .next (issue1 s (slotAdecp d a o sc m wide))
def execWaita (a b : SReg) (p : PReg) (wide : Bool) (s : State) : Host.Outcome State Fault Refusal :=
  .next (issue1 s (slotWaita a b p wide))
def execWake1 (a d : SReg) (s : State) : Host.Outcome State Fault Refusal := .next (issue1 s (slotWake1 a d))
def execWakea (a d : SReg) (s : State) : Host.Outcome State Fault Refusal := .next (issue1 s (slotWakea a d))

end Sys2Proof.Machine
end

