-- ==== Sys2Proof/Machine/Scalar.lean ====
section
/-! DEFINITION. The scalar slot: arithmetic and logic, comparisons, predicates (R217-R222). Results are read by the next
bundle (R198, R313). -/

namespace Sys2Proof.Machine

/-- A scalar slot that writes one site from the tile before the bundle (R178). -/
def scalarSlot (w : Site) (reads : List Site) (f : Tile → Word) : Slot :=
  { cls := 2, reads := fun _ => reads, run := fun c s => okR (s.mapTile fun t => t.write w (f c.pre)) }

/-- A register-form instruction (R217). -/
def alu (d a b : SReg) (f : Word → Word → Word) : Slot :=
  scalarSlot (.sreg d) [.sreg a, .sreg b] fun t => f (t.sreg a) (t.sreg b)

/-- A one-source instruction (R217). -/
def alu1 (d a : SReg) (f : Word → Word) : Slot := scalarSlot (.sreg d) [.sreg a] fun t => f (t.sreg a)

/-- The leading zeros of a word (R217). -/
def clz64 (a : Word) : Nat := if a = 0 then 64 else 63 - Nat.log2 a.toNat

/-- The 1 bits of a word (R217). -/
def popc64 (a : Word) : Nat := (List.range 64).foldl (fun n i => n + (a.getLsbD i).toNat) 0

def slotAdd (d a b : SReg) : Slot := alu d a b fun x y => x + y
def slotSub (d a b : SReg) : Slot := alu d a b fun x y => x - y
def slotMul (d a b : SReg) : Slot := alu d a b fun x y => x * y
def slotMulh (d a b : SReg) : Slot := alu d a b fun x y => BitVec.ofInt 64 (x.toInt * y.toInt / 2 ^ 64)
def slotMulhu (d a b : SReg) : Slot := alu d a b fun x y => BitVec.ofNat 64 (x.toNat * y.toNat / 2 ^ 64)
def slotAnd (d a b : SReg) : Slot := alu d a b fun x y => x &&& y
def slotOr (d a b : SReg) : Slot := alu d a b fun x y => x ||| y
def slotXor (d a b : SReg) : Slot := alu d a b fun x y => x ^^^ y
def slotShl (d a b : SReg) : Slot := alu d a b fun x y => x <<< (y.toNat % 64)
def slotShr (d a b : SReg) : Slot := alu d a b fun x y => x >>> (y.toNat % 64)
def slotSar (d a b : SReg) : Slot := alu d a b fun x y => x.sshiftRight (y.toNat % 64)
def slotMin (d a b : SReg) : Slot := alu d a b fun x y => if x.slt y then x else y
def slotMax (d a b : SReg) : Slot := alu d a b fun x y => if x.slt y then y else x
def slotMinu (d a b : SReg) : Slot := alu d a b fun x y => if x.ult y then x else y
def slotMaxu (d a b : SReg) : Slot := alu d a b fun x y => if x.ult y then y else x

/-- SEL: pN ? a : b (R217). -/
def slotSel (d a b : SReg) (n : PReg) : Slot :=
  scalarSlot (.sreg d) [.sreg a, .sreg b, .pred n] fun t => if t.pred n then t.sreg a else t.sreg b

def slotClz (d a : SReg) : Slot := alu1 d a fun x => BitVec.ofNat 64 (clz64 x)
def slotPopc (d a : SReg) : Slot := alu1 d a fun x => BitVec.ofNat 64 (popc64 x)

/-- LEA: a + (b << k) + (n << k) (R217). -/
def slotLea (d a b : SReg) (k : Fin 8) (n : Fin 16) : Slot :=
  alu d a b fun x y => x + y <<< k.val + BitVec.ofNat 64 (n.val * 2 ^ k.val)

/-- CMP (R220). -/
def slotCmp (cc : IntCC) (p : PReg) (a b : SReg) : Slot :=
  scalarSlot (.pred p) [.sreg a, .sreg b] fun t => boolWord (intCond cc (t.sreg a) (t.sreg b))

def slotAddi (d a : SReg) (imm : Int) : Slot := alu1 d a fun x => x + BitVec.ofInt 64 imm
def slotAndi (d a : SReg) (imm : Int) : Slot := alu1 d a fun x => x &&& BitVec.ofInt 64 imm
def slotOri (d a : SReg) (imm : Nat) : Slot := alu1 d a fun x => x ||| BitVec.ofNat 64 imm
def slotXori (d a : SReg) (imm : Nat) : Slot := alu1 d a fun x => x ^^^ BitVec.ofNat 64 imm
def slotShli (d a : SReg) (imm : Nat) : Slot := alu1 d a fun x => x <<< (imm % 64)
def slotShri (d a : SReg) (imm : Nat) : Slot := alu1 d a fun x => x >>> (imm % 64)
def slotSari (d a : SReg) (imm : Nat) : Slot := alu1 d a fun x => x.sshiftRight (imm % 64)

/-- CMPI (R220). -/
def slotCmpi (cc : IntCC) (p : PReg) (a : SReg) (imm : Int) : Slot :=
  scalarSlot (.pred p) [.sreg a] fun t => boolWord (intCond cc (t.sreg a) (BitVec.ofInt 64 imm))

/-- LI (R219). -/
def slotLi (d : SReg) (imm : Int) : Slot := scalarSlot (.sreg d) [] fun _ => BitVec.ofInt 64 imm

def slotPand (d a b : PReg) : Slot := scalarSlot (.pred d) [.pred a, .pred b] fun t => boolWord (t.pred a && t.pred b)
def slotPor (d a b : PReg) : Slot := scalarSlot (.pred d) [.pred a, .pred b] fun t => boolWord (t.pred a || t.pred b)
def slotPnot (d a : PReg) : Slot := scalarSlot (.pred d) [.pred a] fun t => boolWord (!t.pred a)
def slotPmov (d a : PReg) : Slot := scalarSlot (.pred d) [.pred a] fun t => boolWord (t.pred a)

def execAdd (d a b : SReg) (s : State) : Host.Outcome State Fault Refusal := .next (issue1 s (slotAdd d a b))
def execSub (d a b : SReg) (s : State) : Host.Outcome State Fault Refusal := .next (issue1 s (slotSub d a b))
def execMul (d a b : SReg) (s : State) : Host.Outcome State Fault Refusal := .next (issue1 s (slotMul d a b))
def execMulh (d a b : SReg) (s : State) : Host.Outcome State Fault Refusal := .next (issue1 s (slotMulh d a b))
def execMulhu (d a b : SReg) (s : State) : Host.Outcome State Fault Refusal := .next (issue1 s (slotMulhu d a b))
def execAnd (d a b : SReg) (s : State) : Host.Outcome State Fault Refusal := .next (issue1 s (slotAnd d a b))
def execOr (d a b : SReg) (s : State) : Host.Outcome State Fault Refusal := .next (issue1 s (slotOr d a b))
def execXor (d a b : SReg) (s : State) : Host.Outcome State Fault Refusal := .next (issue1 s (slotXor d a b))
def execShl (d a b : SReg) (s : State) : Host.Outcome State Fault Refusal := .next (issue1 s (slotShl d a b))
def execShr (d a b : SReg) (s : State) : Host.Outcome State Fault Refusal := .next (issue1 s (slotShr d a b))
def execSar (d a b : SReg) (s : State) : Host.Outcome State Fault Refusal := .next (issue1 s (slotSar d a b))
def execMin (d a b : SReg) (s : State) : Host.Outcome State Fault Refusal := .next (issue1 s (slotMin d a b))
def execMax (d a b : SReg) (s : State) : Host.Outcome State Fault Refusal := .next (issue1 s (slotMax d a b))
def execMinu (d a b : SReg) (s : State) : Host.Outcome State Fault Refusal := .next (issue1 s (slotMinu d a b))
def execMaxu (d a b : SReg) (s : State) : Host.Outcome State Fault Refusal := .next (issue1 s (slotMaxu d a b))
def execSel (d a b : SReg) (n : PReg) (s : State) : Host.Outcome State Fault Refusal :=
  .next (issue1 s (slotSel d a b n))
def execClz (d a : SReg) (s : State) : Host.Outcome State Fault Refusal := .next (issue1 s (slotClz d a))
def execPopc (d a : SReg) (s : State) : Host.Outcome State Fault Refusal := .next (issue1 s (slotPopc d a))
def execLea (d a b : SReg) (k : Fin 8) (n : Fin 16) (s : State) : Host.Outcome State Fault Refusal :=
  .next (issue1 s (slotLea d a b k n))
def execCmp (cc : IntCC) (p : PReg) (a b : SReg) (s : State) : Host.Outcome State Fault Refusal :=
  .next (issue1 s (slotCmp cc p a b))
def execAddi (d a : SReg) (imm : Int) (s : State) : Host.Outcome State Fault Refusal :=
  .next (issue1 s (slotAddi d a imm))
def execAndi (d a : SReg) (imm : Int) (s : State) : Host.Outcome State Fault Refusal :=
  .next (issue1 s (slotAndi d a imm))
def execOri (d a : SReg) (imm : Nat) (s : State) : Host.Outcome State Fault Refusal :=
  .next (issue1 s (slotOri d a imm))
def execXori (d a : SReg) (imm : Nat) (s : State) : Host.Outcome State Fault Refusal :=
  .next (issue1 s (slotXori d a imm))
def execShli (d a : SReg) (imm : Nat) (s : State) : Host.Outcome State Fault Refusal :=
  .next (issue1 s (slotShli d a imm))
def execShri (d a : SReg) (imm : Nat) (s : State) : Host.Outcome State Fault Refusal :=
  .next (issue1 s (slotShri d a imm))
def execSari (d a : SReg) (imm : Nat) (s : State) : Host.Outcome State Fault Refusal :=
  .next (issue1 s (slotSari d a imm))
def execCmpi (cc : IntCC) (p : PReg) (a : SReg) (imm : Int) (s : State) : Host.Outcome State Fault Refusal :=
  .next (issue1 s (slotCmpi cc p a imm))
def execLi (d : SReg) (imm : Int) (s : State) : Host.Outcome State Fault Refusal := .next (issue1 s (slotLi d imm))
def execPand (d a b : PReg) (s : State) : Host.Outcome State Fault Refusal := .next (issue1 s (slotPand d a b))
def execPor (d a b : PReg) (s : State) : Host.Outcome State Fault Refusal := .next (issue1 s (slotPor d a b))
def execPnot (d a : PReg) (s : State) : Host.Outcome State Fault Refusal := .next (issue1 s (slotPnot d a))
def execPmov (d a : PReg) (s : State) : Host.Outcome State Fault Refusal := .next (issue1 s (slotPmov d a))

end Sys2Proof.Machine
end

