-- ==== Sys2Proof/Machine/Bundle.lean ====
section
/-! DEFINITION. The slot of every instruction of the tile core: what a bundle of several slots issues (R178). -/

namespace Sys2Proof.Machine

/-- No instruction of the tile core: nothing that a bundle decodes to. -/
def idleSlot : Slot := { cls := 0, run := fun _ s => okR s }

/-- The slot that an instruction is in a bundle. -/
def slotOf (i : Instr) : Slot :=
  match i with
  | .brp p imm => slotBrp p imm
  | .brnp p imm => slotBrnp p imm
  | .jmpWord imm => slotJmpWord imm
  | .jmpBlock imm => slotJmpBlock imm
  | .jmpi a imm => slotJmpi a imm
  | .jmpiB a => slotJmpiB a
  | .callb l imm => slotCallb l imm
  | .retb a => slotRetb a
  | .loopb imm => slotLoopb imm
  | .lsetPass a imm => slotLsetPass a imm
  | .lsetFeed a imm => slotLsetFeed a imm
  | .lsetRrb imm => slotLsetRrb imm
  | .lsetStg imm => slotLsetStg imm
  | .wait ld st cp tl => slotWait ld st cp tl
  | .semw k cnt a => slotSemw k cnt a
  | .sems k cnt a => slotSems k cnt a
  | .semt k cnt d => slotSemt k cnt d
  | .bara => slotBara
  | .barw => slotBarw
  | .barr => slotBarr
  | .phase sc m => slotPhase sc m
  | .fence sc m => slotFence sc m
  | .spawn d a b => slotSpawn d a b
  | .yield => slotYield
  | .retire => slotRetire
  | .trap imm => slotTrap imm
  | .pcommit => slotPcommit
  | .csrr d csr => slotCsrr d csr
  | .csrw d a csr => slotCsrw d a csr
  | .tret => slotTret
  | .ctxs d a b => slotCtxs d a b
  | .ctxl d a b => slotCtxl d a b
  | .add d a b => slotAdd d a b
  | .sub d a b => slotSub d a b
  | .mul d a b => slotMul d a b
  | .mulh d a b => slotMulh d a b
  | .mulhu d a b => slotMulhu d a b
  | .and d a b => slotAnd d a b
  | .or d a b => slotOr d a b
  | .xor d a b => slotXor d a b
  | .shl d a b => slotShl d a b
  | .shr d a b => slotShr d a b
  | .sar d a b => slotSar d a b
  | .min d a b => slotMin d a b
  | .max d a b => slotMax d a b
  | .minu d a b => slotMinu d a b
  | .maxu d a b => slotMaxu d a b
  | .sel d a b n => slotSel d a b n
  | .clz d a => slotClz d a
  | .popc d a => slotPopc d a
  | .lea d a b k n => slotLea d a b k n
  | .cmp cc p a b => slotCmp cc p a b
  | .addi d a imm => slotAddi d a imm
  | .andi d a imm => slotAndi d a imm
  | .ori d a imm => slotOri d a imm
  | .xori d a imm => slotXori d a imm
  | .shli d a imm => slotShli d a imm
  | .shri d a imm => slotShri d a imm
  | .sari d a imm => slotSari d a imm
  | .cmpi cc p a imm => slotCmpi cc p a imm
  | .li d imm => slotLi d imm
  | .pand d a b => slotPand d a b
  | .por d a b => slotPor d a b
  | .pnot d a => slotPnot d a
  | .pmov d a => slotPmov d a
  | .fadd d a b => slotFadd d a b
  | .fsub d a b => slotFsub d a b
  | .fmul d a b => slotFmul d a b
  | .fma d a b => slotFma d a b
  | .fnma d a b => slotFnma d a b
  | .fmax d a b => slotFmax d a b
  | .fmin d a b => slotFmin d a b
  | .fabs d a => slotFabs d a
  | .fneg d a => slotFneg d a
  | .fcmp cc p a b all => slotFcmp cc p a b all
  | .fsel d a b => slotFsel d a b
  | .frcp d a => slotFrcp d a
  | .frsq d a => slotFrsq d a
  | .fexp2 d a => slotFexp2 d a
  | .vadd d a b => slotVadd d a b
  | .vsub d a b => slotVsub d a b
  | .vmul d a b => slotVmul d a b
  | .vmulh d a b u => slotVmulh d a b u
  | .vand d a b => slotVand d a b
  | .vor d a b => slotVor d a b
  | .vxor d a b => slotVxor d a b
  | .vshl d a n => slotVshl d a n
  | .vshr d a n => slotVshr d a n
  | .vsar d a n => slotVsar d a n
  | .vmin d a b u => slotVmin d a b u
  | .vmax d a b u => slotVmax d a b u
  | .vcmp cc p a b all => slotVcmp cc p a b all
  | .vsel d a b => slotVsel d a b
  | .vabs d a => slotVabs d a
  | .vsat d a u wd => slotVsat d a u wd
  | .cvt d a p t => slotCvt d a p t
  | .dqn d a p sw => slotDqn d a p sw
  | .bmax d a b => slotBmax d a b
  | .scsel d a fuse e b f => slotScsel d a fuse e b f
  | .tag d a t => slotTag d a t
  | .vperm d a b => slotVperm d a b
  | .vrot d a k => slotVrot d a k
  | .vbcst d a t => slotVbcst d a t
  | .vmov d a => slotVmov d a
  | .vred op d a => slotVred op d a
  | .qpop d q => slotQpop d q
  | .spk d a n => slotSpk d a n
  | .spx d a n => slotSpx d a n
  | .lds sz d a imm => slotLds sz d a imm
  | .sts sz d a imm => slotSts sz d a imm
  | .ldv d a imm => slotLdv d a imm
  | .stv d a imm => slotStv d a imm
  | .ldtt d a imm => slotLdtt d a imm
  | .stbp d a imm => slotStbp d a imm
  | .ldbp d a imm => slotLdbp d a imm
  | .hset n a => slotHset n a
  | .hget n a => slotHget n a
  | .spfence => slotSpfence
  | .bufacq n d e => slotBufacq n d e
  | .bufpub n a k => slotBufpub n a k
  | .buftake n d e => slotBuftake n d e
  | .buffree n a k => slotBuffree n a k
  | .bufq n d => slotBufq n d
  | .mapw n a => slotMapw n a
  | .mapf n => slotMapf n
  | .mapi n => slotMapi n
  | .mapiDiscard n => slotMapiDiscard n
  | .qst q a => slotQst q a
  | .qstHalf q a => slotQstHalf q a
  | .aadd d a o sc m wide => slotAadd d a o sc m wide
  | .aand d a o sc m wide => slotAand d a o sc m wide
  | .aor d a o sc m wide => slotAor d a o sc m wide
  | .amin d a o sc m wide u => slotAmin d a o sc m wide u
  | .amax d a o sc m wide u => slotAmax d a o sc m wide u
  | .axch d a o sc m wide => slotAxch d a o sc m wide
  | .acas d a o sc m wide => slotAcas d a o sc m wide
  | .adecp d a o sc m wide => slotAdecp d a o sc m wide
  | .waita a b p wide => slotWaita a b p wide
  | .wake1 a d => slotWake1 a d
  | .wakea a d => slotWakea a d
  | .mhold => slotMhold
  | .mpush a => slotMpush a
  | .mpushS a b => slotMpushS a b
  | .mpushC a => slotMpushC a
  | .mpushSC a b => slotMpushSC a b
  | .mshift b => slotMshift b
  | .macc => slotMacc
  | .maccR e => slotMaccR e
  | .mdrain r q f z => slotMdrain r q f z
  | .mzero => slotMzero
  | .msetFloat ga gb => slotMsetFloat ga gb
  | .msetInt ga gb => slotMsetInt ga gb
  | .msparse b => slotMsparse b
  | .mremQueue a r e q => slotMremQueue a r e q
  | .mremAcc a r e => slotMremAcc a r e
  | .mskew q e => slotMskew q e
  | .qnt d a f b => slotQnt d a f b
  | .cpbase c d a b => slotCpbase c d a b
  | .cpnest c l d a b => slotCpnest c l d a b
  | .cpfoot c k a b => slotCpfoot c k a b
  | .cpgo c => slotCpgo c
  | .cpdrain c => slotCpdrain c
  | .cpstat c d => slotCpstat c d
  | .qsend q k => slotQsend q k
  | .csend k a => slotCsend k a
  | .crecv k a => slotCrecv k a
  | .crecvT k d a => slotCrecvT k d a
  | .putc k d a b => slotPutc k d a b
  | .gred k d a b => slotGred k d a b
  | .gjoin d a => slotGjoin d a
  | .gstat d a => slotGstat d a
  | .gstatErr d => slotGstatErr d
  | .pred p n => slotPred p n
  | .pstat d => slotPstat d
  | .ringQuery p n d => slotRingQuery p n d
  | .spxStat p n d => slotSpxStat p n d
  | .probe p d a => slotProbe p d a
  | .leaseq p d a => slotLeaseq p d a
  | .mbxs n a => slotMbxs n a
  | .mbxr d => slotMbxr d
  | .mbxrT p d => slotMbxrT p d
  | .vlRacq .. | .vlRtake .. | .vlRpub .. | .vlRfree .. | .vlRq .. | .vlCpset .. | .vlCpgo .. | .vlCpdrain ..
  | .vlMbxs .. | .vlMbxr .. | .vlMbxt .. | .blockStart .. | .semWaitServed .. | .resultLand ..
  | .drainEntryArrive .. | .remoteRowLand .. | .operationComplete .. | .windowFillReturn ..
  | .spontaneousWriteback .. | .copyJobFire .. | .copyJobComplete .. | .copyDataErrorEvent .. | .putcArrive ..
  | .gredChunkLand .. | .collectiveAbort .. | .circuitRowArrive .. | .nakResend .. | .escapeEntry ..
  | .historyCopyComplete .. | .shadowWriteComplete .. | .toleranceCompare .. | .specCommit .. | .specSquash ..
  | .timingReplay .. | .droop .. | .loaderStorerInstruction .. | .loaderStorerFault .. | .watchdog ..
  | .poolTaskStart .. | .tokenForward .. | .waitSwap .. | .preempt .. | .swapTriggerSatisfied .. | .bindTeam ..
  | .bindReturn .. | .courseRelease .. | .doorbell .. | .recordStart .. | .recordComplete .. | .nodeStart ..
  | .nodeComplete .. | .condEvaluate .. | .loopEvaluate .. | .queueTeardown .. | .queueAbort .. | .queueReset ..
  | .hifselSelect .. | .tlbInvalidate .. | .tlbInvalidateAll .. | .tlbInvalidationComplete .. | .migack ..
  | .haltRequest .. | .resumeRequest .. | .haltComplete .. | .partitionApply .. | .partitionRequest ..
  | .partitionDrainRequest .. | .apertureWrite .. | .frequencyHop .. | .hopAbort .. | .hopRetry ..
  | .canaryWarning .. | .replayRateRaise .. | .driftDecay .. | .calibration .. | .calibrationPreempt ..
  | .kilnRecordUpdate .. | .powerUpGrant .. | .retentionEntry .. | .retentionWake .. | .quarantineRelease ..
  | .routerPowerDown .. | .routerWake .. | .powerThrottle .. | .powerRestore .. | .linkDown .. | .laneRepair ..
  | .sixatasTraining .. | .heartbeatTimeout .. | .spareTileTakeover .. | .telemetryClear .. | .moduleReset ..
  | .firmwareStage .. | .attestationRequest .. | .attestationComplete .. | .registerWrite .. | .hostPcieWrite ..
  | .peerAccessArrive .. | .tlbEntryDrop .. | .correctedSoftError .. | .modulePowerLoss .. => idleSlot

/-- The cause of a bundle that does not decode (R189). -/
def rejectCause (r : Reject) : Cause :=
  match r with
  | .packetCross => .packetCross
  | .illegalSlot => .illegalSlot
  | .bundleForm => .bundleForm
  | .headerMisuse => .headerMisuse
  | .illegalOpcode => .illegalOpcode

/-- The class of the first word of a bundle that raises its decoding error; 0 where no one slot does (R393, log 20). -/
def rejectClass (rd : Nat → Nat) (a : Nat) (r : Reject) : Nat :=
  let ws := (List.range ((extent rd a 8 1).getD 1)).map fun k => rd (a + 4 * k)
  match r with
  | .illegalSlot => ((ws.find? fun w => clsOf w == 7 || w == 0).map clsOf).getD 0
  | .illegalOpcode => ((ws.find? fun w => clsOf w != 0 && (decodeSlot .plain w).isNone).map clsOf).getD 0
  | .packetCross | .bundleForm | .headerMisuse => 0

/-- The breakpoint of a tile stands at its program counter (R402). -/
def Tile.breaks (t : Tile) : Bool := t.dbgctl.getLsbD 1 && t.dbgbp.toNat == t.pc

/-- What a bundle at the program counter that does not decode raises: BREAKPOINT, where one stands there, before it takes
effect (R402), else its decoding error (R189); held while a committed speculation has effects to release (R157) or a deferred fault
stands (R154). -/
def State.rejected (s : State) (r : Reject) : State :=
  let a := s.tile.pc
  if s.tile.releasing.isSome then s.holdIssue
  else
    match s.tile.deferred with
    | some p => s.resolutionStall p 0
    | none =>
      s.raise a
        (if s.tile.breaks then { cause := .breakpoint } else { cause := rejectCause r, slot := rejectClass s.codeWord a r })

/-- What the tile core of a task does at the program counter: it starts the block there, or issues the bundle (R26, R177,
R189). -/
def State.issueHere (s : State) : State :=
  let a := s.tile.pc
  if isDescriptor a (s.codeWord a) then s.startBlock
  else
    match decodeBundle s.codeWord a with
    | .error r => s.rejected r
    | .ok b =>
      if b.pad then s.mapTile fun t => { t with pc := afterPad a }
      else issue s b.words b.rnd (b.slots.map fun p => (p.1, slotOf p.2))

end Sys2Proof.Machine
end

