-- ==== Sys2Proof/Machine/TileEvents.lean ====
section
/-! DEFINITION. The steps of a tile beside its bundles: results and rows that land (R225, R83, R88), counted operations that
complete (R315), window fills and write-backs (R319, R71), copy jobs (R296, R297), semaphore waiters (R25), timing-error
replay (R322), droop (R321), the watchdog (R400), TLB entries dropped (R380). A step that is not due, or whose condition
does not hold, changes nothing (log 5). -/

namespace Sys2Proof.Machine

/-- RESULT_LAND (R225, R313): the oldest results that are due land. -/
def Tile.resultLand (t : Tile) : Tile :=
  match t.flights.find? fun f => decide (f.due ≤ t.tc) with
  | none => t
  | some f => { (t.landFlight f) with flights := t.flights.eraseP fun g => decide (g.due ≤ t.tc) }

def execResultLand (s : State) : Host.Outcome State Fault Refusal := .next (s.mapTile Tile.resultLand)

/-- An entry of a queue that is due arrives; remote ones are REMOTE_ROW_LAND's. -/
def QEntry.arrive (now : Nat) (e : QEntry) : QEntry :=
  if e.remote.isNone && decide (e.due ≤ now) then { e with arrived := true } else e

/-- DRAIN_ENTRY_ARRIVE (R83, R84). -/
def Tile.drainArrive (t : Tile) (q : QReg) : Tile :=
  { t with queues := t.queues.set q.val ((t.queues[q.val]).map fun e => e.arrive t.tc) }

def execDrainEntryArrive (q : QReg) (s : State) : Host.Outcome State Fault Refusal :=
  .next (s.mapTile fun t => t.drainArrive q)

/-- Whether what a remote beat has still to read is held up by an earlier job of the tile (R140). -/
def Tile.beatHeld (t : Tile) (foot : Nat) (ask : Option Ask) : Bool :=
  ask.any fun a => t.heldUp foot (({ img := a.img } : Handle).beatFeet foot)

/-- Whether a queue entry of an engine lands now. -/
def QEntry.lands (e : Fin 2) (t : Tile) (x : QEntry) : Bool :=
  x.remote == some e && !x.arrived && decide (x.due ≤ t.tc) && !t.beatHeld x.foot x.ask

/-- Whether a row of a landing FIFO lands now. -/
def LandRow.lands (t : Tile) (x : LandRow) : Bool := !x.arrived && decide (x.due ≤ t.tc) && !t.beatHeld x.foot x.ask

/-- An entry of an engine lands, reading now what an earlier job held up (R140). -/
def State.landEntry (s : State) (e : Fin 2) (x : QEntry) : QEntry :=
  match x.ask with
  | none => { x with arrived := true }
  | some a =>
    let v := s.remoteRow e { img := a.img } a.row.val
    { x with arrived := true, ask := none, tag := if v.2.1 then 1 else 2, cells := v.2.2, failed := x.failed || v.1 }

/-- A row of a landing FIFO lands in the same way. -/
def State.landRow (s : State) (e : Fin 2) (x : LandRow) : LandRow :=
  match x.ask with
  | none => { x with arrived := true }
  | some a =>
    let v := s.remoteRow e { img := a.img } a.row.val
    { x with arrived := true, ask := none, float := v.2.1, cells := v.2.2, failed := x.failed || v.1 }

/-- REMOTE_ROW_LAND (R87, R88, R284): the rows of an engine that are due land, their footprints end (R139). -/
def State.remoteLand (s : State) (e : Fin 2) : State :=
  let t := s.tile
  let qs := t.queues.toList.flatMap fun q => (q.filter fun x => x.lands e t).map (·.foot)
  let ls := ((t.mat.land[e.val]).filter fun x => x.lands t).map (·.foot)
  { s with tile := { t with
    queues := t.queues.map fun q => q.map fun x => if x.lands e t then s.landEntry e x else x
    mat := { t.mat with
      land := t.mat.land.set e.val ((t.mat.land[e.val]).map fun x => if x.lands t then s.landRow e x else x) }
    feet := t.feet.filter fun f => !(f.remote && (qs ++ ls).contains f.id) } }

def execRemoteRowLand (e : Fin 2) (s : State) : Host.Outcome State Fault Refusal :=
  .next (s.remoteLand e)

/-- OPERATION_COMPLETE (R248, R315, R316): the oldest counted operation that is due leaves its counter. -/
def Tile.opComplete (t : Tile) : Tile :=
  match t.ops.find? fun o => decide (o.due ≤ t.tc) with
  | none => t
  | some o => { (t.uncount o.ctr) with ops := t.ops.eraseP fun x => decide (x.due ≤ t.tc) }

def execOperationComplete (s : State) : Host.Outcome State Fault Refusal := .next (s.mapTile Tile.opComplete)

/-- The bytes that a fill brings into the scratchpad behind its line (R69). The map unit is no agent of the tile: no handle counts as
written, and what is fetched from now on sees the bytes of the fill (R85). -/
def State.fillBytes (s : State) (f : Fill) : State :=
  let m := s.tile.maps[f.entry.val]
  let a := m.lo + 256 * f.line
  let kept := fun (l : List Host.Cell) => l.filter fun p => !(decide (a ≤ p.1) && decide (p.1 < a + 256))
  (s.spRaw a (s.mem.bytes f.spa 256)).mapTile fun t =>
    { t with handles := t.handles.map fun h => { h with undo := h.undo.map kept } }

/-- The line of a fill is clean (R69). -/
def Tile.fillLine (t : Tile) (cls : Nat) (f : Fill) : Tile :=
  let m := t.maps[f.entry.val]
  t.setMap f.entry { m with lines := MapEntry.putLine m.lines ⟨f.line, 0, cls⟩ }

/-- A fill that cannot be made faults the access that began it (R135, R263, R422); an engine or the predictor meets the same again when
it comes back to the line, and is refused there. -/
def State.fillFault (s : State) (f : Fill) (i : TrapInfo) : State :=
  match f.who with
  | .loader => lsEnd .loader 0 s (.trap i)
  | .storer => lsEnd .storer 0 s (.trap i)
  | .chan c =>
    match (s.tile.chans[c.val]).jobs with
    | j :: _ => if i.cause == .machineCheck then s.failCopy c j 0 else s.refuseCopy c j i
    | [] => s
  | .nobody | .queueUnit | .weightDie | .predictor => s
  | .core =>
    if s.tile.task.isNone || s.tile.stopped || s.tile.ending.isSome then s else s.raise s.tile.pc i

/-- WINDOW_FILL_RETURN (R69, R319): the oldest fill that is due returns; the data of the load that waits for it is
readable from its own time on, and the access is counted on its page (R386). One that meets an uncorrectable error is abandoned, the line staying untouched (R263). -/
def State.fillReturn (s : State) : State :=
  let t := s.tile
  match t.fills.find? fun f => decide (f.due ≤ t.tc) with
  | none => s
  | some f =>
    let s := s.mapTile fun t => { t with fills := t.fills.eraseP fun f => decide (f.due ≤ t.tc) }
    match s.fillCut f with
    | some i => s.fillFault f i
    | none =>
      ((s.fillBytes f).countFor f.part f.va ⟨f.spa, f.leaf⟩).mapTile fun t =>
        let t := t.fillLine (spaClass s f.spa).bit f
        if f.who == .core then { t with filled := ((f.entry, f.line), f.ready) :: t.filled } else t

/-- WINDOW_FILL_RETURN (R319): nothing while the cluster's clock stands (R321). -/
def execWindowFillReturn (s : State) : Host.Outcome State Fault Refusal :=
  .next (if s.cluster.ticks then s.fillReturn else s)

/-- SPONTANEOUS_WRITEBACK (R71, R385): a dirty line is written back of Valoc's own accord. -/
def execSpontaneousWriteback (n : MapNo) (line : Fin 8192) (s : State) : Host.Outcome State Fault Refusal :=
  let m := s.tile.maps[n.val]
  if m.valid && (m.line line.val).any (fun x => x.mask != 0) then .next (s.ownWriteBack n line.val) else .next s

/-- COPY_JOB_FIRE (R62, R296). -/
def execCopyJobFire (c : ChNo) (s : State) : Host.Outcome State Fault Refusal := .next ((s.fireCopy c).getD s)

/-- COPY_JOB_COMPLETE (R296, R147, R156), or the end of a copy at an element in error (R297). -/
def State.copyDone (s : State) (c : ChNo) : State :=
  match (s.tile.chans[c.val]).jobs with
  | j :: _ => if j.fired && decide (j.due ≤ s.tile.tc) then s.endCopy c j else s
  | [] => s

def execCopyJobComplete (c : ChNo) (s : State) : Host.Outcome State Fault Refusal := .next (s.copyDone c)

/-- COPY_DATA_ERROR_EVENT (R297): the running job of a channel meets an uncorrectable error at an element. -/
def State.copyError (s : State) (c : ChNo) (elem : Nat) : State :=
  match (s.tile.chans[c.val]).jobs with
  | j :: _ => if j.fired && decide (elem < j.count) then s.failCopy c j elem else s
  | [] => s

def execCopyDataErrorEvent (c : ChNo) (elem : Nat) (s : State) : Host.Outcome State Fault Refusal :=
  .next (s.copyError c elem)

/-- The first waiter of a list on a semaphore that its turn has come to and that has not been called (R25). -/
def State.nextServed (s : State) (c : Cluster) (k : SemNo) : List Waiter → List Waiter → Option Waiter
  | _, [] => none
  | before, w :: l =>
    if !w.called && (w.takes.any fun p => p.1 == k) && s.canGo w.tile && s.inTurn c before w.takes then some w
    else State.nextServed s c k (before ++ [w]) l

/-- The waiter on a semaphore of a cluster that may be served; one whose tile has stopped or is ending passes its turn on
(R25). -/
def State.servable (s : State) (c : ClusterNo) (k : SemNo) : Option Waiter :=
  let x := s.clusters[c.val]
  s.nextServed x k [] x.waiters

/-- A waiter is called: its place stands, and it is called once while its counts are there (log 23). -/
def Cluster.call (c : Cluster) (i : TileId) : Cluster :=
  { c with waiters := c.waiters.map fun w => if w.tile == i then { w with called := true } else w }

/-- SEM_WAIT_SERVED (R24, R25, R37): the first waiter on a semaphore whose turn has come goes on at its bundle or block, which
takes all its counts in one step with its other effects (R207). -/
def State.serve (s : State) (c : ClusterNo) (k : SemNo) : State :=
  match s.servable c k with
  | none => s
  | some w =>
    let s := { s with clusters := s.clusters.set c.val ((s.clusters[c.val]).call w.tile) }
    ({ s.focus w.tile with turn := .core } : State).issueHere

def execSemWaitServed (c : ClusterNo) (k : SemNo) (s : State) : Host.Outcome State Fault Refusal := .next (s.serve c k)

/-- Whether a bundle would issue, or trap, and not be held; again says so of one that goes on in a speculation that it has begun. -/
def State.issuesWith (again : State → Bool) (s : State) (rnd : Nat) (xs : List (PReg × Slot)) : Bool :=
  let t := s.tile
  if t.releasing.isSome || t.deferred.isSome then false
  else if (preTrap s t.pc xs).isSome then true
  else if xs.any fun p => t.outstanding (.pred p.1) then false
  else if engMeets s xs then true
  else if t.spec.isSome && (liveSlots t xs).any fun x => x.resolves t then false
  else if (bundleReads t xs).any t.outstanding then false
  else
    match runSlots ⟨s, rnd, t.pc⟩ (popFirst xs) { s := s } with
    | .done _ | .trap _ | .fail _ _ => true
    | .stall u => goesOn s u xs && again u
    | .resolve | .wait _ _ => false

/-- Whether a bundle would issue, or trap, and not be held (R314, R322). -/
def State.issues (s : State) (rnd : Nat) (xs : List (PReg × Slot)) : Bool :=
  s.issuesWith (fun u => u.issuesWith (fun _ => false) rnd xs) rnd xs

/-- Whether the bundle at the program counter would issue, or trap, now (R322): the windows of a held bundle, and a clock that
stands, flag nothing (R321). -/
def State.issuing (s : State) : Bool :=
  let t := s.tile
  if !s.cluster.ticks || t.task.isNone || (t.stopped && !t.grace) || t.ending.isSome || isDescriptor t.pc (s.codeWord t.pc) then
    false
  else
    match decodeBundle s.codeWord t.pc with
    | .error _ => t.releasing.isNone && t.deferred.isNone
    | .ok b => !b.pad && s.issues b.rnd (b.slots.map fun p => (p.1, slotOf p.2))

/-- The flagged windows in a row that raise REPLAY_STORM (R324). -/
def stormAt : Nat := 8

/-- Count a replay in the tile's cluster, a storm too (R445). -/
def State.countReplay (s : State) (storm : Bool) : State :=
  let c := s.cluster
  s.setCluster (if storm then { c with storms := satUp c.storms } else { c with replays := satUp c.replays })

/-- The replays of its tile cores that a cluster remembers (R432): those of the last 1 ms. -/
def State.logReplay (s : State) : State :=
  let now := s.time.toNat
  let c := s.cluster
  s.setCluster { c with replayLog := now :: c.replayLog.filter fun x => now < x + 100000 }

/-- The tile core's bundle is flagged: squashed, refetched, to be issued again at half rate (R322, R323). A flag in the
reissue's own window comes in its second cycle. The squashed bundle did nothing, so its accesses happen once, at the reissue that
commits (R121). -/
def State.replayCore (s : State) : State :=
  let t := s.tile
  if !s.issuing then s
  else if stormAt ≤ t.flagged + 1 then
    ((s.countReplay true).mapTile fun t => { t with tc := t.tc + 1 }).raise t.pc { cause := .replayStorm }
  else
    ((s.countReplay false).logReplay).mapTile fun t =>
      { t with
        tc := t.tc + (if t.reissue then 4 else 3), replays := t.replays + 1, flagged := t.flagged + 1, reissue := true }

/-- A loader's or storer's instruction is flagged as it issues: it is replayed, 4 of its cycles later (R324), and its accesses happen
once, in the execution that commits (R121). -/
def State.replayLs (s : State) (g : LsAgent) : State :=
  let c := s.tile.ls g
  if !s.cluster.ticks || !s.lsIssues g then s
  else if stormAt ≤ c.flagged + 1 then lsEnd g 0 (s.countReplay true) (lsTrap .replayStorm)
  else (s.countReplay false).mapLs g fun c => { c with flagged := c.flagged + 1, hold := 4 }

/-- TIMING_REPLAY (R322-R325): the agent whose turn it is replays. -/
def execTimingReplay (s : State) : Host.Outcome State Fault Refusal :=
  match s.turn with
  | .core => .next s.replayCore
  | .loader => .next (s.replayLs .loader)
  | .storer => .next (s.replayLs .storer)

/-- WATCHDOG (R400): a bundle has been stalled, outside every wait of R34, for longer than its fault domain's WDOG: a RETIRE that
waits for its counters too (R21), none of a team that has stopped (R402), none while the clock stands (R321). -/
def State.watchdogDue (s : State) : Bool :=
  let limit := fld (s.fdWord 5) 0 32
  let on : Bool :=
    match s.tile.ending with
    | none | some (.retire _) => true
    | some (.fault _ _ _) => false
  s.cluster.ticks && s.tile.task.isSome && on && !(s.tile.stopped && !s.tile.grace) && limit != 0
    && s.tile.stallSince.any fun t0 => decide (limit < s.time.toNat - t0)

def execWatchdog (s : State) : Host.Outcome State Fault Refusal :=
  if s.watchdogDue then
    match s.tile.ending with
    | some (.retire pc) => .next (s.unretire pc { cause := .watchdog })
    | some (.fault _ _ _) | none => .next (s.raise s.tile.pc { cause := .watchdog })
  else .next s

/-- TLB_ENTRY_DROP (R380): the i-th entry of a tile's, its cluster's or its die's TLB is dropped. -/
def State.dropTlb (s : State) (c : ClusterNo) (t : TileNo) (level : Fin 3) (i : Nat) : State :=
  match level with
  | 0 => s.setTile { s.tileAt ⟨c, t⟩ with tlb := (s.tileAt ⟨c, t⟩).tlb.eraseIdx i }
  | 1 =>
    let x := s.clusters[c.val]
    { s with clusters := s.clusters.set c.val { x with tlb := x.tlb.eraseIdx i } }
  | 2 =>
    let d := dieOf c
    let x := s.dies[d.val]
    { s with dies := s.dies.set d.val { x with tlb := x.tlb.eraseIdx i } }

def execTlbEntryDrop (c : ClusterNo) (t : TileNo) (level : Fin 3) (i : Nat) (s : State) :
    Host.Outcome State Fault Refusal := .next (s.dropTlb c t level i)

end Sys2Proof.Machine
end

