-- ==== Sys2Proof/Machine/FleetEvents.lean ====
section
/-! DEFINITION. The steps of the fleet: module reset and power loss (R446, R447), firmware (R448), attestation (R449), parts
that take over (R444), telemetry (R401, R445), Sixatas ports (R421, R423), registers without behaviour of their own (R67 and
the maps of their chapters), and the accesses of the host and of other devices (R137, R422, R424). -/

namespace Sys2Proof.Machine

/-! ## Module reset and power -/

/-- Whether a memory key lies outside the package: host memory, or code as the host placed it (R374, log 1). -/
def outside (k : Nat) : Bool := decide (2 ^ 64 ≤ k)

/-- The machine with nothing left but what survives a module reset: the NVS, with the hour of service for which a Kiln table stays as it
is (R434), host memory, what is still to come (R446). -/
def State.cold (s : State) : State :=
  let left := fun (c : Fin 48) =>
    ({ State.reset.clusters[c.val] with krecNext := (s.clusters[c.val]).krecNext - s.time.toNat } : Cluster)
  { State.reset with
    clusters := Vector.ofFn left
    nvs := s.nvs, device := s.device, mem := s.mem.filter (fun p => outside p.1), agenda := s.agenda
    bad := s.bad.filter outside, ambient := s.ambient, freeCtr := s.freeCtr, powered := s.powered }

/-- The two dies of a link; a weight die is on with its compute die (R414). -/
def linkDies (l : LinkNo) : DieNo × DieNo :=
  match l with
  | 0 => (0, 1)
  | 1 => (1, 3)
  | 2 => (3, 2)
  | 3 => (2, 0)
  | 4 => (0, 0)
  | 5 => (1, 1)
  | 6 => (2, 2)
  | 7 => (3, 3)

/-- The selection that a management core writes at module reset: the highest minor (R414). -/
def bestSel : Sel := { major := 1, minor := 1, ack := true }

/-- The firmware that a management core runs after reset: a staged image, or, where the image's signature fails, the other
slot's (R446, R448). -/
def Nvs.boot (n : Nvs) : Nvs :=
  let n :=
    match n.staged with
    | none => n
    | some k => { n with staged := none, minSvn := (n.fw[k.val]).svn, active := Vector.replicate 4 k }
  { n with active := n.active.map fun k => if (n.fw[k.val]).good then k else 1 - k }

/-- The requests for power after a module reset: every cluster of a die that is on, in order, then the weight dies (R435,
log 22). -/
def State.firstPower (s : State) : List (Nat × PowerReq) :=
  ((List.finRange 48).filter (fun c => s.dieOn (dieOf c))).map (fun c => (0, PowerReq.cluster c))
    ++ ((List.finRange 4).filter s.dieOn).map fun d => (0, PowerReq.macros d 0)

/-- MODULE_RESET (R444, R446): the records' signatures decide which dies leave reset, which table each cluster runs by, and
whether the spare-tile map stands. -/
def State.moduleReset (s : State) : State :=
  let s := { s.cold with nvs := s.nvs.boot, powered := true }
  let up := fun (l : Fin 8) =>
    let on := s.dieOn (linkDies l).1 && s.dieOn (linkDies l).2
    if on then ({ up := true, sel := bestSel } : Link) else {}
  let tables := fun (c : Fin 48) => ({ (s.clusters[c.val]) with
    krec := s.nvs.kiln[c.val], spare := if s.nvs.spares then s.nvs.spareMap[c.val] else none } : Cluster)
  { s with
    links := Vector.ofFn up, clusters := Vector.ofFn tables
    power := { s.power with inrush := s.firstPower } }

def execModuleReset (s : State) : Host.Outcome State Fault Refusal := .next s.moduleReset

/-- The indices of a key after a power loss: those of an interrupted block are skipped (R447). -/
def Key.skip (k : Key) : Key := { k with next := max k.next k.reserved, left := k.left - (max k.next k.reserved - k.next) }

/-- MODULE_POWER_LOSS (R447). -/
def State.powerLoss (s : State) : State :=
  let n := s.nvs
  { s.cold with powered := false, nvs := { n with idKey := n.idKey.skip, dieKeys := n.dieKeys.map Key.skip } }

def execModulePowerLoss (s : State) : Host.Outcome State Fault Refusal := .next s.powerLoss

/-! ## Firmware and attestation -/

/-- The slot that no die runs, if there is one (R448). -/
def Nvs.idle (n : Nvs) : Option (Fin 2) := [0, 1].find? fun k => n.active.toList.all (· != k)

/-- FIRMWARE_STAGE (R448): the image goes to the inactive slot; a good one of a sufficient version waits for the next
reset. Whether its signature verifies is left open (log 14). DESIGN CHOICE (log 14): while the dies run the images of both slots, no slot is
inactive, and the write is discarded. -/
def State.stage (s : State) (svn : BitVec 16) : State :=
  match s.nvs.idle with
  | none => s
  | some k =>
    let (n, s) := s.fresh
    let (m, s) := s.fresh
    let good := Config.signatureGood n
    let w := Config.freeWord m
    let v := s.nvs
    { s with nvs := { v.setHeader (54 + k.val) svn (fld w.toNat 0 32) w with
        fw := v.fw.set k.val { svn := svn, good := good }
        staged := if good && decide (v.minSvn ≤ svn) then some k else none } }

def execFirmwareStage (svn : BitVec 16) (s : State) : Host.Outcome State Fault Refusal := .next (s.stage svn)

/-- ATTESTATION_REQUEST (R449): a write of GO; discarded while a request is in progress. -/
def execAttestationRequest (s : State) : Host.Outcome State Fault Refusal :=
  let a := s.attest
  .next (if a.busy then s else { s with attest := { a with busy := true, done := false, refused := false } })

/-- The report (R449): its length, the digests, the nonce, the index used, the signature, at most 8 KiB; how long the digests and the
signature are and what they hold is left open, and so is the layout (log 14). -/
def reportBytes (free : Nat) (nonce : Vector Word 4) (index : Nat) : List Byte :=
  let w := (Config.freeWord free).toNat
  let digests := fld w 0 32 % 4073
  let sig := fld w 32 32 % 4073
  let body := fun (k n : Nat) => (List.range n).map fun i => Config.reportByte free (k + i)
  leBytes (48 + digests + sig) 8 ++ body 0 digests ++ (nonce.toList.flatMap fun x => leBytes x.toNat 8) ++ leBytes index 8
    ++ body 4073 sig

/-- ATTESTATION_COMPLETE (R446, R447, R449): the report signed and written, or refused. A buffer in host memory is reached as partition
0 reaches it: DESIGN CHOICE, the operator's request naming no partition (log 14). -/
def State.attestDone (s : State) : State :=
  let a := s.attest
  if !a.busy then s
  else
    match (if s.nvs.identity then s.nvs.idKey.sign else none) with
    | none => { s with attest := { a with busy := false, refused := true } }
    | some key =>
      let (n, s) := s.fresh
      let s := s.putSpa 0 (a.buf.toNat / 4096 * 4096) (reportBytes n a.nonce s.nvs.idKey.next)
      { s with
        nvs := { s.nvs with idKey := key }
        attest := { a with busy := false, done := true } }

def execAttestationComplete (s : State) : Host.Outcome State Fault Refusal := .next s.attestDone

/-! ## Parts that take over, telemetry -/

/-- Change a die. -/
def State.mapDie (s : State) (d : DieNo) (f : Die → Die) : State := { s with dies := s.dies.set d.val (f s.dies[d.val]) }

/-- The core after another in the order of R444. -/
def nextCore (d : DieNo) : DieNo :=
  match d with
  | 0 => 1
  | 1 => 3
  | 3 => 2
  | 2 => 0

/-- The first core after a die whose own heart beats, at most n cores on (R444). -/
def State.substitute (s : State) : Nat → DieNo → DieNo
  | 0, d => nextCore d
  | n + 1, d => if ((s.dies[(nextCore d).val]).duty).isNone then nextCore d else s.substitute n (nextCore d)

/-- HEARTBEAT_TIMEOUT (R444): the next core takes the failed die's slot table, bind decisions and Kiln duty, and whatever the failed core
had taken of others. -/
def State.takeDuty (s : State) (d : DieNo) : State :=
  let s := s.mapDie d fun x => { x with duty := some (s.substitute 2 d) }
  let again := fun (x : Die) => if x.duty == some d then { x with duty := some (s.substitute 2 d) } else x
  { s with dies := s.dies.map again }

def execHeartbeatTimeout (d : DieNo) (s : State) : Host.Outcome State Fault Refusal := .next (s.takeDuty d)

/-- The tile of a cluster that has raised the causes of R444 four times in one hour. -/
def State.worn (s : State) (c : ClusterNo) : Option TileNo :=
  let l := (s.clusters[c.val]).errLog
  let now := s.time.toNat
  (List.finRange 17).find? fun t => decide (4 ≤ (l.filter fun x => x.1 == t && decide (now < x.2 + hour)).length)

/-- SPARE_TILE_TAKEOVER (R444, R446): the spare-tile map record names the failed tile, and the spare tile stands in for it in
later binds; a second failure in the cluster places it in quarantine (R437), that of a spare in use being one. -/
def State.takeSpare (s : State) (c : ClusterNo) (t : TileNo) : State :=
  let x := s.clusters[c.val]
  let s := s.mapCluster c fun x => { x with errLog := x.errLog.filter fun p => p.1 != t }
  let (n, s) := s.fresh
  if h : t.val < 16 then
    let t : Fin 16 := ⟨t.val, h⟩
    if !s.nvs.spares then s
    else
      match x.spare with
      | none =>
        if x.spareBad then s.quarantine c
        else
          let v := s.nvs.setHeader 1 (s.nvs.headers[1]).svn (s.nvs.headers[1]).len.toNat (Config.freeWord n)
          { (s.mapCluster c fun x => { x with spare := some t }) with
            nvs := { v with spareMap := v.spareMap.set c.val (some t) } }
      | some u => if u = t then s else s.quarantine c
  else if x.spare.isSome then s.quarantine c
  else s.mapCluster c fun x => { x with spareBad := true }

def execSpareTileTakeover (c : ClusterNo) (t : TileNo) (s : State) : Host.Outcome State Fault Refusal :=
  .next (s.takeSpare c t)

/-- A management core goes into reset, its duty covered as R444 gives, one die at a time; or it comes out of it with its own duty, the
staged firmware its own from then on (R448). -/
def State.coreReset (s : State) (d : DieNo) (on : Bool) : State :=
  if on then
    if s.dies.toList.any (·.coreDown) then s else (s.takeDuty d).mapDie d fun x => { x with coreDown := true, mgmt := {} }
  else if !(s.dies[d.val]).coreDown then s
  else
    let s := s.mapDie d fun x => { x with coreDown := false, duty := none }
    match s.nvs.staged with
    | none => s
    | some k =>
      let v := s.nvs
      let active := v.active.set d.val k
      { s with nvs := { v with
          active := active, minSvn := (v.fw[k.val]).svn, staged := if active.toList.all (· == k) then none else some k } }

/-- TELEMETRY_CLEAR (R445). -/
def execTelemetryClear (c : ClusterNo) (s : State) : Host.Outcome State Fault Refusal :=
  .next (s.mapCluster c fun x => { x with sramce := 0, sramue := 0, parity := 0, replays := 0, storms := 0 })

/-- CORRECTED_SOFT_ERROR (R401, R445): no value changes. -/
def execCorrectedSoftError (c : ClusterNo) (s : State) : Host.Outcome State Fault Refusal :=
  .next (s.mapCluster c fun x => { x with sramce := satUp x.sramce })

/-! ## Sixatas ports -/

/-- A selection as it lies in a SEL register (R372). -/
def selOf (v : Word) (ok : Bool) : Sel :=
  { major := BitVec.ofNat 16 (fld v.toNat 48 16), minor := BitVec.ofNat 8 (fld v.toNat 40 8)
    feat := BitVec.ofNat 32 (fld v.toNat 0 32), ack := ok }

/-- SIXATAS_TRAINING (R421, R423): with this end's selection accepted, a partner of the same MAJOR brings the port up at the
highest minor and with the features that both select; the ports of a die that stays off stay down (R446), each die having six of them
(R412). -/
def State.train (s : State) (p : PortNo) (peer : BitVec 19) (v : Word) : State :=
  let x := s.ports[p.val]
  let o := selOf v true
  let new : Port :=
    if x.sel.ack && o.major == x.sel.major && s.dieOn (Fin.ofNat 4 (p.val / 6)) then
      { x with
        up := true, peer := peer, minor := if o.minor < x.sel.minor then o.minor else x.sel.minor
        feat := (o.feat &&& x.sel.feat).setWidth 16 }
    else { x with up := false }
  { s with ports := s.ports.set p.val new }

def execSixatasTraining (p : PortNo) (peer : BitVec 19) (peerSel : Word) (s : State) :
    Host.Outcome State Fault Refusal := .next (s.train p peer peerSel)

/-! ## Registers -/

/-- A value held between two bounds. -/
def bound (lo hi v : Nat) : Nat := max lo (min hi v)

/-- The bits of a word from lo on, n of them, in their place. -/
def keep (v : Word) (lo n : Nat) : Word := BitVec.ofNat 64 (fld v.toNat lo n * 2 ^ lo)

/-- Change a partition. -/
def State.mapPart (s : State) (p : PartNo) (f : Partition → Partition) : State := s.setPart p (f s.parts[p.val])

/-- Change a queue. -/
def State.mapQueue (s : State) (f : FnNo) (q : QueueNo) (g : Queue → Queue) : State := s.setQueue f q (g (s.queue f q))

/-- A write of KCTL (R429): one that sets QCLR outside quarantine is discarded. -/
def State.writeKctl (s : State) (c : ClusterNo) (v : Word) : State :=
  let q := v.getLsbD 10
  if q && (s.clusters[c.val]).state != .quarantine then s
  else
    let warn := fun (x : Cluster) => if x.calib || x.canary then x.warnAt else s.time.toNat
    let s := s.mapCluster c fun x =>
      { x with
        warnAt := warn x, reten := v.getLsbD 9, calib := v.getLsbD 8, canary := v.getLsbD 7, fcap := bound 16 112 (fld v.toNat 0 7) }
    if q then s.release c else s

/-- A write of a word of WDJOB (R413): a valid job's fields stay but for VALID. -/
def Die.writeJob (d : Die) (e : Fin 64) (w : Fin 2) (v : Word) : Die :=
  let x := d.wdjob[e.val]
  let on := (x[0]).getLsbD 63
  match w with
  | 0 =>
    let old := x[0]
    let new := if on then (if v.getLsbD 63 then old else BitVec.ofNat 64 (fld old.toNat 0 63)) else keep v 45 19
    { d with wdjob := d.wdjob.set e.val (x.set 0 new) }
  | 1 => if on then d else { d with wdjob := d.wdjob.set e.val (x.set 1 (keep v 0 22)) }

/-- Whether a byte of the weight store belongs to a job's weights or scales (R413). -/
def WdJob.holds (j : WdJob) (i : Nat) : Bool :=
  let from' := 64 * j.wbase
  if i < weightBytes then decide ((i + weightBytes - from') % weightBytes < 64 * (12 * j.kgrp))
  else decide ((i - from') % weightBytes < 64 * ((12 * j.kgrp + 31) / 32))

/-- A write of a byte of a die's weight store: one to the weights of a bound engine is discarded (R413). -/
def Die.writeWeight (d : Die) (i : Nat) (b : Byte) : Die :=
  let bound := d.wdjob.toList.any fun w => (wdJob w).valid && (wdJob w).holds i
  if bound || decide (2 * weightBytes ≤ i) then d else { d with weights := ovSet d.weights i b }

/-- A write of a word of a bind slot: discarded while the slot is pending; STAT is dispatch's (R362). -/
def Die.writeSlot (d : Die) (i : Fin 64) (w : Fin 4) (v : Word) : Die :=
  let x := d.slots[i.val]
  if (x[0]).getLsbD 63 then d
  else
    let new := if w = 0 then BitVec.ofNat 64 (fld v.toNat 35 29 * 2 ^ 35 + fld (x[0]).toNat 32 3 * 2 ^ 32) else v
    { d with slots := d.slots.set i.val (x.set w.val new) }

/-- A write of a router's slot entry during a revolution: one of port 6 or 7 is discarded; what the entry was stands until the
next revolution (R417). -/
def Die.writeRouter (d : Die) (rev : Nat) (r : Fin 12) (o : Fin 6) (k : Fin 64) (v : Word) : Die :=
  let i := fld v.toNat 0 3
  let a := 512 * r.val + 64 * o.val + k.val
  if 6 ≤ i then d
  else
    let was := d.routerWas.filter fun x => x.1 == rev
    { d with
      router := d.router.set a (BitVec.ofNat 8 (fld v.toNat 7 1 * 2 ^ 7 + i))
      routerWas := if was.any fun x => x.2.1 == a then was else was ++ [(rev, a, d.router.get a)] }

/-- A write of a die-to-die selection (R414): the link carries traffic once it is accepted, unless its lanes have failed
(R420); one that is not accepted takes the link down. -/
def State.writeD2d (s : State) (l : LinkNo) (v : Word) : State :=
  let ok := verTakes d2dver (fun _ => 0) v
  let x := s.links[l.val]
  let on := ok && !x.dead && s.dieOn (linkDies l).1 && s.dieOn (linkDies l).2
  let s := if on then s else s.linkOff l false
  { s with links := s.links.set l.val { (s.links[l.val]) with sel := selOf v ok, up := on } }

/-- SXVER of every port (R421); it offers every feature that SXST can name: DESIGN CHOICE, the spec naming none (log 51). -/
def sxver : Word := verWord 1 0 2 0xFFFF

/-- A write of a Sixatas selection (R421): the port trains only while it stands accepted. -/
def State.writeSx (s : State) (p : PortNo) (v : Word) : State :=
  let ok := verTakes sxver (fun _ => 0) v
  let x := s.ports[p.val]
  { s with ports := s.ports.set p.val { x with sel := selOf v ok, up := x.up && ok } }

/-- A write of FNMAP (R443): discarded while a queue is enabled, or where the partition's port is not the function's. -/
def State.writeFn (s : State) (f : FnNo) (v : Word) : State :=
  let x := s.fns[f.val]
  let p := fld v.toNat 48 5
  if x.queues.toList.any (·.enable) || decide (20 ≤ p) || (s.parts[p]?).any (fun y => y.port != portOf f) then s
  else
    { s with fns := s.fns.set f.val { x with
        valid := v.getLsbD 63, part := BitVec.ofNat 5 p, nq := BitVec.ofNat 4 (fld v.toNat 0 4) } }

/-- A write of a queue's control word (R352, R371, R443). -/
def State.writeQctl (s : State) (f : FnNo) (q : QueueNo) (v : Word) : State :=
  let x := s.fns[f.val]
  let may := x.valid && decide (q.val ≤ x.nq.toNat)
  let s := s.mapQueue f q fun y => { y with enable := v.getLsbD 63 && may }
  if v.getLsbD 0 then s.tearDown f q (v.getLsbD 1) (v.getLsbD 2) else s

/-- A write of a queue register that may be written only while the queue is not enabled (R352). -/
def State.whileOff (s : State) (f : FnNo) (q : QueueNo) (g : Queue → Queue) : State :=
  if (s.queue f q).enable then s else s.mapQueue f q g

/-- REGISTER_WRITE (R67): what a write of each register stores. -/
def State.regWrite (s : State) (r : MReg) (v : Word) : State :=
  match r with
  | .ptroot p => s.mapPart p fun x => { x with ptroot := keep v 10 49 }
  | .hmbase p => s.mapPart p fun x => { x with hmbase := v }
  | .migcfg p => s.mapPart p fun x =>
    if x.migtail != x.mighead then x
    else { x with miglog := BitVec.ofNat 5 (fld v.toNat 16 5), migthr := BitVec.ofNat 16 (fld v.toNat 0 16) }
  | .migbase p => s.mapPart p fun x => if x.migtail != x.mighead then x else { x with migbase := v }
  | .mighead p => s.mapPart p fun x => { x with mighead := BitVec.ofNat 32 (fld v.toNat 0 32) }
  | .migstat p => s.mapPart p fun x => { x with migovf := x.migovf && !v.getLsbD 63 }
  | .fdbase p => s.mapPart p fun x => { x with fdbase := v }
  | .ltcfg p => s.mapPart p fun x => if x.arrivals != 0 then x else { x with ltcfg := keep v 28 36 }
  | .ltord p => s.mapPart p fun x => if x.arrivals != 0 then x else { x with ltord := v }
  | .pcfg p => s.mapPart p fun x => { x with port := v.getLsbD 48 }
  | .kctl c => s.writeKctl c v
  | .pwrcfg =>
    let n := fld v.toNat 40 4
    { s with power := ({ s.power with
        pwrlim := bound 800 2600 (fld v.toNat 52 12), tjmax := fld v.toNat 44 8, inmax := if n = 0 then 1 else n } : Power).judge s.time.toNat }
  | .nakcfg d => s.mapDie d fun x =>
    { x with
      nakLimit := Fin.ofNat 16 (max 1 (fld v.toNat 16 4)), nakBkoff := BitVec.ofNat 16 (max 1 (fld v.toNat 0 16)) }
  | .wdjob d e w => s.mapDie d fun x => x.writeJob e w v
  | .bindSlot d i w =>
    if w = 0 && v.getLsbD 63 && !s.mayPlace d (((s.dies[d.val]).slots[i.val]).set 0 v) then s
    else
      let x := s.dies[d.val]
      let u := s.mapDie d fun x => x.writeSlot i w v
      if w = 0 && v.getLsbD 63 && !bindValid x.slots[i.val] then u.setWaits ((x.slots[i.val]).set 0 v) none else u
  | .haltctl d =>
    let id := Fin.ofNat 65536 (fld v.toNat 0 16)
    if v.getLsbD 63 then (if v.getLsbD 62 then s.resumeRequest d id else s.haltRequest d id)
    else s.mapDie d fun x => { x with haltTeam := id }
  | .routerSlot d r o k => s.mapDie d fun x => x.writeRouter (unitCycles * s.time.toNat / revCycles) r o k v
  | .ctxpool d => s.mapDie d fun x => if x.pool.isEmpty then { x with ctxpool := keep v 14 45 } else x
  | .ctxpoolsz d => s.mapDie d fun x =>
    if x.pool.isEmpty then { x with ctxpoolsz := BitVec.ofNat 32 (fld v.toNat 0 32) } else x
  | .d2dsel l => s.writeD2d l v
  | .sxsel p => s.writeSx p v
  | .sxroute d =>
    { s with routes := s.routes.set d.val (keep v 63 1 ||| keep v 48 5 ||| keep v 0 24) }
  | .fnmap f => s.writeFn f v
  | .qbase f q => s.whileOff f q fun x => { x with base := v }
  | .qlog f q => s.whileOff f q fun x => { x with log := BitVec.ofNat 5 (fld v.toNat 0 5) }
  | .qctl f q => s.writeQctl f q v
  | .qack f q => s.mapQueue f q fun x => { x with ack := v }
  | .qsnap f q => s.whileOff f q fun x => { x with snap := v }
  | .qsnapsz f q => s.whileOff f q fun x => { x with snapsz := BitVec.ofNat 32 (fld v.toNat 0 32) }
  | .attNonce i =>
    if s.attest.busy then s else { s with attest := { s.attest with nonce := s.attest.nonce.set i.val v } }
  | .attBuf => if s.attest.busy then s else { s with attest := { s.attest with buf := v } }

def execRegisterWrite (r : MReg) (v : Word) (s : State) : Host.Outcome State Fault Refusal := .next (s.regWrite r v)

/-! ## The host and other devices -/

/-- The bytes of a host or peer atomic. -/
def wideBytes (wide : Bool) : Nat := if wide then 8 else 4

/-- An atomic on device memory: the new value from the old one (R422, R424). -/
def State.outerAtomic (s : State) (spa : Nat) (wide : Bool) (f : Nat → Nat) : State :=
  let n := wideBytes wide
  { s with mem := s.mem.putNum spa (f (s.mem.num spa n) % 2 ^ (8 * n)) n }

/-- The value that a compare-and-swap leaves. -/
def casTo (wide : Bool) (cmp v : Word) (old : Nat) : Nat :=
  if old = cmp.toNat % 2 ^ (8 * wideBytes wide) then v.toNat else old

/-- Whether the host reaches device memory at an address: a PCIe port's die is on, and from it the die of the byte's stack can be reached
(R374, R412, R420, R446). -/
def State.hostReaches (s : State) (spa : Nat) : Bool :=
  let d : DieNo := Fin.ofNat 4 (dmDie spa)
  s.dieOn d && [portDie false, portDie true].any fun p => s.dieOn p && s.diesJoined p d

/-- HOST_PCIE_WRITE (R137, R424): it takes effect at its home: in device memory, or, the host's own, at a host bus address. -/
def State.hostWrite (s : State) (spa : Nat) (op : PcieOp) : State :=
  let dm := fun (u : State) => if spaClass s spa == .dm && s.hostReaches spa then u else s
  match op with
  | .hostMem a bs => { s with mem := s.mem.put (hostKey a.toNat) bs }
  | .write bs => dm { s with mem := s.mem.put spa bs }
  | .fetchAdd w v => dm (s.outerAtomic spa w fun x => x + v.toNat)
  | .swap w v => dm (s.outerAtomic spa w fun _ => v.toNat)
  | .cas w c v => dm (s.outerAtomic spa w (casTo w c v))

def execHostPcieWrite (spa : BitVec 59) (op : PcieOp) (s : State) : Host.Outcome State Fault Refusal :=
  .next (s.hostWrite spa.toNat op)

/-- The value that an atomic of a peer leaves (R265). -/
def peerNew (op : PeerAtom) (wide : Bool) (old v : Nat) : Nat :=
  match op with
  | .and => old &&& v
  | .or => old ||| v
  | .min => if atomLess wide false v old then v else old
  | .minu => if atomLess wide true v old then v else old
  | .max => if atomLess wide false old v then v else old
  | .maxu => if atomLess wide true old v then v else old
  | .decp => if 0 < sgnVal (8 * atomBytes wide) old then old - 1 else old

/-- The count of a peer's put added at its semaphore (R142, R303): refused by a full unit (R416), by one that is not open to puts, or by
a sum over the maximum, which are the sender's to report. -/
def State.peerCount (s : State) (c : ClusterNo) (k : SemNo) (n : Nat) : State :=
  let x := s.clusters[c.val]
  let m := x.sems[k.val]
  if x.jam || !(m.granted && m.putOpen) || decide (65535 < m.val.val + n) then s else s.mapCluster c fun x => x.addSem k n

/-- Give the first collective of a group that lacks something of another device what has come; a partial sum that is before every member
here begins one (R305, R418). -/
def farPut (g : Fin 65536) (lacks : Coll → Bool) (f : Coll → Coll) (new : List Coll) : List Coll → List Coll
  | [] => new
  | c :: l => if c.gid = g ∧ lacks c then f c :: l else c :: farPut g lacks f new l

/-- PEER_ACCESS_ARRIVE (R142, R418, R422): another device's access to this device's memory, a counted put of it, a partial sum of its
members of a group, the sum that the joining device returns, an abort of a collective (R305). No sum crosses to or from a device that this one
does not reach (R422). -/
def State.peerAccess (s : State) (spa : Nat) (op : PeerOp) : State :=
  let dm := fun (u : State) => if spaClass s spa == .dm then u else s
  let reached := fun (d : Fin 512) (u : State) => if s.devUp (s.peerNo d) then u else s
  match op with
  | .fill _ => s
  | .writeBack bs => dm { s with mem := s.mem.put spa bs }
  | .put bs c k n => (dm { s with mem := s.mem.put spa bs }).peerCount c k n
  | .atomicAdd w v => dm (s.outerAtomic spa w fun x => x + v.toNat)
  | .atomicSwap w v => dm (s.outerAtomic spa w fun _ => v.toNat)
  | .atomicCas w c v => dm (s.outerAtomic spa w (casTo w c v))
  | .atomic op w v => dm (s.outerAtomic spa w fun x => peerNew op w x (v.toNat % 2 ^ (8 * wideBytes w)))
  | .join g k d w n r bs =>
    let x : FarSum := ⟨d, k, w, n, r, bs⟩
    let add := fun (c : Coll) => ({ c with far := c.far ++ [x] } : Coll)
    reached d { s with colls := farPut g (fun c => !c.far.any fun y => y.dev == d && y.chunk == k) add [add ⟨g, [], [], [], none⟩] s.colls }
  | .sum g k d bs =>
    let add := fun (c : Coll) => ({ c with totals := c.totals ++ [(k, bs)] } : Coll)
    reached d { s with colls := farPut g (fun c => !c.totals.any fun p => p.1 == k) add [] s.colls }
  | .abort g d code =>
    let stop := fun (c : Coll) => ({ c with abort := some (causeOf code.val) } : Coll)
    reached d { s with colls := farPut g (fun c => c.abort.isNone) stop [stop ⟨g, [], [], [], none⟩] s.colls }

def execPeerAccessArrive (spa : BitVec 59) (op : PeerOp) (s : State) : Host.Outcome State Fault Refusal :=
  .next (s.peerAccess spa.toNat op)

end Sys2Proof.Machine
end

