-- ==== Sys2Proof/Machine/Rv64.lean ====
section
/-! DEFINITION. RV64GC as the management cores run it (R1): its decoding, its integer, atomic and floating-point arithmetic, one
instruction of one core. All of it is taken from the RISC-V base documents that the name stands for, the spec saying no more of it
(log 53). -/

namespace Sys2Proof.Machine

/-! ## Instructions -/

/-- A floating-point format: single, or double. -/
inductive RvFmt where
  | s | d
  deriving DecidableEq, Repr, Inhabited

/-- The rounding modes of an fcsr: the four of R106, and to nearest with ties away from zero. -/
inductive RvRm where
  | of (m : RMode)
  | rmm
  deriving DecidableEq, Repr, Inhabited

/-- The arithmetic of floating-point registers. -/
inductive RvFop where
  | add | sub | mul | div | sqrt
  | sgnj | sgnjn | sgnjx
  | min | max
  deriving DecidableEq, Repr, Inhabited

/-- The floating-point comparisons. -/
inductive RvFcmp where
  | le | lt | eq
  deriving DecidableEq, Repr, Inhabited

/-- The atomic operations of the A extension. -/
inductive RvAmo where
  | swap | add | xor | and | or | min | max | minu | maxu
  deriving DecidableEq, Repr, Inhabited

/-- What an instruction of Zicsr does to its register. -/
inductive RvCsrOp where
  | write | set | clear
  deriving DecidableEq, Repr, Inhabited

/-- A decoded instruction of a management core. An rm of 7 takes the mode of the fcsr. -/
inductive Rv64Op where
  | lui (rd : XReg) (imm : Word)
  | auipc (rd : XReg) (imm : Word)
  | jal (rd : XReg) (off : Word)
  | jalr (rd rs : XReg) (off : Word)
  | branch (c : RvCond) (a b : XReg) (off : Word)
  | load (bytes : Nat) (signed : Bool) (rd rs : XReg) (off : Word)
  | store (bytes : Nat) (rs src : XReg) (off : Word)
  | aluI (o : RvAlu) (rd rs : XReg) (imm : Word)
  | alu (o : RvAlu) (rd a b : XReg)
  | aluIW (o : RvAlu) (rd rs : XReg) (imm : RvWord)
  | aluW (o : RvAlu) (rd a b : XReg)
  | fence
  | lr (bytes : Nat) (rd rs : XReg)
  | sc (bytes : Nat) (rd rs src : XReg)
  | amo (o : RvAmo) (bytes : Nat) (rd rs src : XReg)
  | csr (o : RvCsrOp) (rd : XReg) (src : XReg ⊕ Fin 32) (n : Nat)
  | fload (m : RvFmt) (rd rs : XReg) (off : Word)
  | fstore (m : RvFmt) (rs src : XReg) (off : Word)
  | fma (m : RvFmt) (negMul negAdd : Bool) (rd a b c : XReg) (rm : Nat)
  | fop (o : RvFop) (m : RvFmt) (rd a b : XReg) (rm : Nat)
  | fcmp (o : RvFcmp) (m : RvFmt) (rd a b : XReg)
  | fclass (m : RvFmt) (rd a : XReg)
  | fcvt (to' : RvFmt) (rd a : XReg) (rm : Nat)
  | toInt (wide unsigned : Bool) (m : RvFmt) (rd a : XReg) (rm : Nat)
  | ofInt (wide unsigned : Bool) (m : RvFmt) (rd a : XReg) (rm : Nat)
  | fmvOut (m : RvFmt) (rd a : XReg)
  | fmvIn (m : RvFmt) (rd a : XReg)
  deriving DecidableEq, Repr, Inhabited

/-! ## Decoding -/

/-- A sign-extended immediate of n bits. -/
def rv64S (n v : Nat) : Word := BitVec.ofInt 64 (sextNat v n)

/-- An instruction that RV32IMC shares, its immediates sign-extended; custom-0 is none of a management core's. -/
def RvOp.widen (o : RvOp) : Option Rv64Op :=
  match o with
  | .lui rd i => some (.lui rd (i.signExtend 64))
  | .auipc rd i => some (.auipc rd (i.signExtend 64))
  | .jal rd i => some (.jal rd (i.signExtend 64))
  | .jalr rd rs i => some (.jalr rd rs (i.signExtend 64))
  | .branch c a b i => some (.branch c a b (i.signExtend 64))
  | .load n sg rd rs i => some (.load n (sg || n == 4) rd rs (i.signExtend 64))
  | .store n rs src i => some (.store n rs src (i.signExtend 64))
  | .aluI k rd rs i => some (.aluI k rd rs (i.signExtend 64))
  | .alu k rd a b => some (.alu k rd a b)
  | .vl _ => none

def rvFmtOf (n : Nat) : Option RvFmt :=
  match n with
  | 0 => some .s
  | 1 => some .d
  | _ => none

/-- A shift by an immediate; its bits above the shift amount name the arithmetic one. -/
def rvShift (f3 top arith : Nat) (k : RvAlu → Rv64Op) : Option Rv64Op :=
  if f3 = 1 ∧ top = 0 then some (k .sll)
  else if f3 = 5 ∧ top = 0 then some (k .srl)
  else if f3 = 5 ∧ top = arith then some (k .sra)
  else none

def rvAmoOf (f5 : Nat) : Option RvAmo :=
  match f5 with
  | 0x00 => some .add
  | 0x01 => some .swap
  | 0x04 => some .xor
  | 0x08 => some .or
  | 0x0C => some .and
  | 0x10 => some .min
  | 0x14 => some .max
  | 0x18 => some .minu
  | 0x1C => some .maxu
  | _ => none

def rvCsrOf (f3 : Nat) : Option RvCsrOp :=
  match f3 % 4 with
  | 1 => some .write
  | 2 => some .set
  | 3 => some .clear
  | _ => none

/-- OP-FP: the operation of funct5, rs2 and rm. -/
def rvFpOp (f5 rs2 rm : Nat) (m : RvFmt) (rd a b : XReg) : Option Rv64Op :=
  let one := fun (o : RvFop) (r : Nat) => some (Rv64Op.fop o m rd a b r)
  let wide := decide (2 ≤ rs2)
  let uns := rs2 % 2 == 1
  match f5 with
  | 0x00 => one .add rm
  | 0x01 => one .sub rm
  | 0x02 => one .mul rm
  | 0x03 => one .div rm
  | 0x0B => if rs2 = 0 then one .sqrt rm else none
  | 0x04 =>
    match rm with
    | 0 => one .sgnj 0
    | 1 => one .sgnjn 0
    | 2 => one .sgnjx 0
    | _ => none
  | 0x05 =>
    match rm with
    | 0 => one .min 0
    | 1 => one .max 0
    | _ => none
  | 0x14 =>
    match rm with
    | 0 => some (.fcmp .le m rd a b)
    | 1 => some (.fcmp .lt m rd a b)
    | 2 => some (.fcmp .eq m rd a b)
    | _ => none
  | 0x08 => if (m == .s && rs2 == 1) || (m == .d && rs2 == 0) then some (.fcvt m rd a rm) else none
  | 0x18 => if rs2 < 4 then some (.toInt wide uns m rd a rm) else none
  | 0x1A => if rs2 < 4 then some (.ofInt wide uns m rd a rm) else none
  | 0x1C =>
    if rs2 ≠ 0 then none
    else
      match rm with
      | 0 => some (.fmvOut m rd a)
      | 1 => some (.fclass m rd a)
      | _ => none
  | 0x1E => if rs2 = 0 ∧ rm = 0 then some (.fmvIn m rd a) else none
  | _ => none

/-- A 32-bit instruction. ECALL and EBREAK have no decoding: the core waits at them (log 53). -/
def rv64Decode32 (w : Nat) : Option Rv64Op :=
  let rd := xAt w 7
  let rs1 := xAt w 15
  let rs2 := xAt w 20
  let f3 := fld w 12 3
  let immI := rv64S 12 (fld w 20 12)
  let immS := rv64S 12 (fld w 25 7 * 2 ^ 5 + fld w 7 5)
  let n := 2 ^ (f3 % 4)
  let fma := fun (negMul negAdd : Bool) =>
    (rvFmtOf (fld w 25 2)).map fun m => Rv64Op.fma m negMul negAdd rd rs1 rs2 (xAt w 27) f3
  match fld w 0 7 with
  | 0x03 => if f3 = 3 then some (.load 8 false rd rs1 immI) else if f3 = 6 then some (.load 4 false rd rs1 immI) else (rvDecode32 w).bind RvOp.widen
  | 0x23 => if f3 = 3 then some (.store 8 rs1 rs2 immS) else (rvDecode32 w).bind RvOp.widen
  | 0x13 =>
    if f3 % 4 = 1 then rvShift f3 (fld w 26 6) 0x10 fun o => .aluI o rd rs1 (BitVec.ofNat 64 (fld w 20 6))
    else (rvDecode32 w).bind RvOp.widen
  | 0x1B =>
    if f3 = 0 then some (.aluIW .add rd rs1 (rvS 12 (fld w 20 12)))
    else rvShift f3 (fld w 25 7) 0x20 fun o => .aluIW o rd rs1 (BitVec.ofNat 32 (fld w 20 5))
  | 0x3B =>
    match fld w 25 7, f3 with
    | 0, 0 => some (.aluW .add rd rs1 rs2)
    | 0x20, 0 => some (.aluW .sub rd rs1 rs2)
    | 0, 1 => some (.aluW .sll rd rs1 rs2)
    | 0, 5 => some (.aluW .srl rd rs1 rs2)
    | 0x20, 5 => some (.aluW .sra rd rs1 rs2)
    | 1, 0 => some (.aluW .mul rd rs1 rs2)
    | 1, _ => if 4 ≤ f3 then some (.aluW (rvMul f3) rd rs1 rs2) else none
    | _, _ => none
  | 0x0F => if f3 ≤ 1 then some .fence else none
  | 0x2F =>
    if f3 ≠ 2 ∧ f3 ≠ 3 then none
    else
      match fld w 27 5 with
      | 0x02 => if rs2 = 0 then some (.lr n rd rs1) else none
      | 0x03 => some (.sc n rd rs1 rs2)
      | f5 => (rvAmoOf f5).map fun o => .amo o n rd rs1 rs2
  | 0x73 => (rvCsrOf f3).map fun o => .csr o rd (if f3 < 4 then .inl rs1 else .inr rs1) (fld w 20 12)
  | 0x07 => if f3 = 2 then some (.fload .s rd rs1 immI) else if f3 = 3 then some (.fload .d rd rs1 immI) else none
  | 0x27 => if f3 = 2 then some (.fstore .s rs1 rs2 immS) else if f3 = 3 then some (.fstore .d rs1 rs2 immS) else none
  | 0x43 => fma false false
  | 0x47 => fma false true
  | 0x4B => fma true false
  | 0x4F => fma true true
  | 0x53 => (rvFmtOf (fld w 25 2)).bind fun m => rvFpOp (fld w 27 5) (fld w 20 5) f3 m rd rs1 rs2
  | _ => (rvDecode32 w).bind RvOp.widen

/-- Compressed quadrant 0. -/
def rv64C0 (w : Nat) : Option Rv64Op :=
  let off := BitVec.ofNat 64 (fld w 5 2 * 2 ^ 6 + fld w 10 3 * 2 ^ 3)
  match fld w 13 3 with
  | 1 => some (.fload .d (xC w 2) (xC w 7) off)
  | 3 => some (.load 8 false (xC w 2) (xC w 7) off)
  | 5 => some (.fstore .d (xC w 7) (xC w 2) off)
  | 7 => some (.store 8 (xC w 7) (xC w 2) off)
  | _ => (rvC0 w).bind RvOp.widen

/-- Compressed quadrant 1. -/
def rv64C1 (w : Nat) : Option Rv64Op :=
  let rd := xAt w 7
  let r := xC w 7
  let imm6 := fld w 12 1 * 2 ^ 5 + fld w 2 5
  let shamt := BitVec.ofNat 64 imm6
  match fld w 13 3 with
  | 1 => if rd = 0 then none else some (.aluIW .add rd rd (rvS 6 imm6))
  | 4 =>
    match fld w 10 2 with
    | 0 => some (.aluI .srl r r shamt)
    | 1 => some (.aluI .sra r r shamt)
    | 2 => (rvC1 w).bind RvOp.widen
    | _ =>
      if fld w 12 1 = 0 then (rvC1 w).bind RvOp.widen
      else
        match fld w 5 2 with
        | 0 => some (.aluW .sub r r (xC w 2))
        | 1 => some (.aluW .add r r (xC w 2))
        | _ => none
  | _ => (rvC1 w).bind RvOp.widen

/-- Compressed quadrant 2. C.EBREAK has no decoding. -/
def rv64C2 (w : Nat) : Option Rv64Op :=
  let rd := xAt w 7
  let rs := xAt w 2
  let ld := BitVec.ofNat 64 (fld w 2 3 * 2 ^ 6 + fld w 12 1 * 2 ^ 5 + fld w 5 2 * 2 ^ 3)
  let st := BitVec.ofNat 64 (fld w 7 3 * 2 ^ 6 + fld w 10 3 * 2 ^ 3)
  match fld w 13 3 with
  | 0 => some (.aluI .sll rd rd (BitVec.ofNat 64 (fld w 12 1 * 2 ^ 5 + fld w 2 5)))
  | 1 => some (.fload .d rd 2 ld)
  | 3 => if rd = 0 then none else some (.load 8 false rd 2 ld)
  | 5 => some (.fstore .d 2 rs st)
  | 7 => some (.store 8 2 rs st)
  | _ => (rvC2 w).bind RvOp.widen

/-- The bytes of an instruction by its first 16 bits. -/
def rv64Len (w : Nat) : Nat := if fld w 0 2 = 3 then 4 else 2

/-- An instruction from its own bits. -/
def rv64Decode (w : Nat) : Option Rv64Op :=
  match fld w 0 2 with
  | 0 => rv64C0 w
  | 1 => rv64C1 w
  | 2 => rv64C2 w
  | _ => rv64Decode32 w

/-! ## Floating point -/

/-- FP64 (IEEE 754). -/
def fp64 : FpFmt := ⟨11, 52, 1023, .ieee⟩

def RvFmt.fmt (m : RvFmt) : FpFmt :=
  match m with
  | .s => fp32
  | .d => fp64

/-- The flags that an operation raises, as bits of the fcsr: inexact, underflow, overflow, division by zero, invalid. -/
structure RvFlags where
  nx : Bool := false
  uf : Bool := false
  of : Bool := false
  dz : Bool := false
  nv : Bool := false
  deriving DecidableEq, Repr, Inhabited

def RvFlags.bits (x : RvFlags) : Nat :=
  x.nx.toNat + x.uf.toNat * 2 + x.of.toNat * 4 + x.dz.toNat * 8 + x.nv.toNat * 16

/-- m · 2^e rounded to a multiple of 2^q, as that multiple. -/
def RvRm.roundAt (r : RvRm) (neg : Bool) (m : Nat) (e q : Int) : Nat :=
  match r with
  | .of k => Machine.roundAt k neg m e q
  | .rmm => if q ≤ e then m * 2 ^ (e - q).toNat else (2 * m / 2 ^ (q - e).toNat + 1) / 2

/-- Whether m · 2^e is a multiple of 2^q. -/
def exactAt (m : Nat) (e q : Int) : Bool := decide (q ≤ e) || m % 2 ^ (q - e).toNat == 0

/-- Whether a value above the largest finite one becomes an infinity. -/
def RvRm.toInf (r : RvRm) (neg : Bool) : Bool :=
  match r with
  | .of .rz => false
  | .of .ru => !neg
  | .of .rd => neg
  | .of .rne | .rmm => true

/-- A value rounded once into a format, and the flags of that; tininess is judged after the rounding. -/
def RvFmt.round (f : RvFmt) (r : RvRm) (x : Num) : Nat × RvFlags :=
  let k := f.fmt
  match x with
  | .fin n m e =>
    if m = 0 then (k.encode rne x, {})
    else
      let sgn := if n then 2 ^ (k.eb + k.fb) else 0
      let least : Int := 1 - (k.bias : Int)
      let top : Int := (Nat.log2 m : Int) + e
      let q := max top least - k.fb
      let c := r.roundAt n m e q
      let code := if c < 2 ^ k.fb then c else (q + k.fb + k.bias).toNat * 2 ^ k.fb + (c - 2 ^ k.fb)
      let nx := !exactAt m e q
      if k.maxCode < code then
        (sgn + (if r.toInf n then k.maxCode + 1 else k.maxCode), { of := true, nx := true })
      else
        let tiny := decide (top + 1 < least) || (decide (top + 1 = least) && decide (r.roundAt n m e (top - k.fb) < 2 ^ (k.fb + 1)))
        (sgn + code, { nx := nx, uf := nx && tiny })
  | _ => (k.encode rne x, {})

/-- x / y with its specials. -/
def Num.div (x y : Num) : Num :=
  match x, y with
  | .nan, _ => .nan
  | _, .nan => .nan
  | .inf _, .inf _ => .nan
  | .inf a, .fin b _ _ => .inf (a != b)
  | .fin a _ _, .inf b => .fin (a != b) 0 0
  | .fin a m e, .fin b k f =>
    if k = 0 then (if m = 0 then .nan else .inf (a != b))
    else
      let s := Nat.log2 k + 128
      .fin (a != b) (if m = 0 then 0 else sticky (m * 2 ^ s / k) (m * 2 ^ s % k == 0)) (e - f - s - 1)

/-- √x with its specials. -/
def Num.sqrt (x : Num) : Num :=
  match x with
  | .nan => .nan
  | .inf n => if n then .nan else .inf false
  | .fin n m e =>
    if m = 0 then x
    else if n then .nan
    else
      let p := e % 2
      let v := m * 2 ^ (128 + p.toNat)
      let r := sqrtBits v (Nat.log2 v / 2 + 1) 0
      .fin false (sticky r (r * r == v)) ((e - p) / 2 - 64 - 1)

/-- The code in a floating-point register; a single that its upper half does not box is the canonical NaN. -/
def RvFmt.unbox (m : RvFmt) (w : Word) : Nat :=
  match m with
  | .d => w.toNat
  | .s => if fld w.toNat 32 32 = 2 ^ 32 - 1 then fld w.toNat 0 32 else fp32.nanCode

/-- What a code makes of a floating-point register. -/
def RvFmt.box (m : RvFmt) (code : Nat) : Word :=
  match m with
  | .d => BitVec.ofNat 64 code
  | .s => BitVec.ofNat 64 ((2 ^ 32 - 1) * 2 ^ 32 + code % 2 ^ 32)

/-- A signalling NaN. -/
def RvFmt.snan (m : RvFmt) (code : Nat) : Bool := (m.fmt.decode code).isNan && fld code (m.fmt.fb - 1) 1 == 0

/-- The sign bit of a code. -/
def RvFmt.sign (m : RvFmt) (code : Nat) : Nat := fld code (m.fmt.eb + m.fmt.fb) 1

/-- A rounded result of operands with some codes: invalid where an operand signals or the result is a NaN out of none. -/
def RvFmt.finish (m : RvFmt) (r : RvRm) (ins : List Nat) (x : Num) : Nat × RvFlags :=
  let (c, g) := m.round r x
  (c, { g with nv := ins.any m.snan || (x.isNan && !ins.any fun y => (m.fmt.decode y).isNan) })

/-- The mode of exact zeros. -/
def RvRm.zero (r : RvRm) : RMode :=
  match r with
  | .of k => k
  | .rmm => .rne

/-- The smaller or the larger of two codes: the other one where one is a NaN. -/
def RvFmt.pick (m : RvFmt) (f : Num → Num → Num) (a b : Nat) : Nat × RvFlags :=
  let x := m.fmt.decode a
  let y := m.fmt.decode b
  (if x.isNan && y.isNan then m.fmt.nanCode
   else if x.isNan then b
   else if y.isNan then a
   else if f x y = x then a else b,
   { nv := m.snan a || m.snan b })

/-- The arithmetic of two registers (of the first alone, for a root). -/
def RvFmt.fop (m : RvFmt) (o : RvFop) (r : RvRm) (a b : Nat) : Nat × RvFlags :=
  let x := m.fmt.decode a
  let y := m.fmt.decode b
  let h := 2 ^ (m.fmt.eb + m.fmt.fb)
  let signed := fun (n : Nat) => (a % h + n % 2 * h, ({} : RvFlags))
  match o with
  | .add => m.finish r [a, b] (Num.add r.zero x y)
  | .sub => m.finish r [a, b] (Num.add r.zero x y.neg)
  | .mul => m.finish r [a, b] (x.mul y)
  | .div =>
    let (c, g) := m.finish r [a, b] (x.div y)
    let byZero :=
      match x, y with
      | .fin _ k _, .fin _ l _ => k != 0 && l == 0
      | _, _ => false
    (c, { g with dz := byZero })
  | .sqrt => m.finish r [a] x.sqrt
  | .sgnj => signed (m.sign b)
  | .sgnjn => signed (m.sign b + 1)
  | .sgnjx => signed (m.sign a + m.sign b)
  | .min => m.pick Num.min' a b
  | .max => m.pick Num.max a b

/-- a · b + c, rounded once; invalid too for infinity times zero. -/
def RvFmt.fma (m : RvFmt) (negMul negAdd : Bool) (r : RvRm) (a b c : Nat) : Nat × RvFlags :=
  let turn := fun (n : Bool) (x : Num) => if n then x.neg else x
  let x := m.fmt.decode a
  let y := m.fmt.decode b
  let p := x.mul y
  let (k, g) := m.finish r [a, b, c] (Num.add r.zero (turn negMul p) (turn negAdd (m.fmt.decode c)))
  (k, { g with nv := g.nv || (p.isNan && !x.isNan && !y.isNan) })

/-- A comparison; only that for equality is quiet. -/
def RvFmt.cmp (m : RvFmt) (o : RvFcmp) (a b : Nat) : Bool × RvFlags :=
  let x := m.fmt.decode a
  let y := m.fmt.decode b
  let nan := x.isNan || y.isNan
  match o with
  | .eq => (x.eqv y, { nv := m.snan a || m.snan b })
  | .lt => (x.lt y, { nv := nan })
  | .le => (x.lt y || x.eqv y, { nv := nan })

/-- The class of a code. -/
def RvFmt.classOf (m : RvFmt) (a : Nat) : Nat :=
  let neg := m.sign a == 1
  let e := fld a m.fmt.fb m.fmt.eb
  match m.fmt.decode a with
  | .nan => if m.snan a then 2 ^ 8 else 2 ^ 9
  | .inf n => if n then 2 ^ 0 else 2 ^ 7
  | .fin _ k _ =>
    if k = 0 then (if neg then 2 ^ 3 else 2 ^ 4)
    else if e = 0 then (if neg then 2 ^ 2 else 2 ^ 5)
    else if neg then 2 ^ 1 else 2 ^ 6

/-- A value as an integer of n bits, within its range. -/
def rvToInt (n : Nat) (unsigned : Bool) (r : RvRm) (x : Num) : Int × RvFlags :=
  let lo : Int := if unsigned then 0 else -(2 ^ (n - 1))
  let hi : Int := if unsigned then 2 ^ n - 1 else 2 ^ (n - 1) - 1
  match x with
  | .nan => (hi, { nv := true })
  | .inf g => (if g then lo else hi, { nv := true })
  | .fin g m e =>
    let k := r.roundAt g m e 0
    let v : Int := if g then -(k : Int) else k
    if v < lo then (lo, { nv := true })
    else if hi < v then (hi, { nv := true })
    else (v, { nx := !exactAt m e 0 })

/-! ## One instruction -/

/-- A register; x0 reads as 0. -/
def MgmtCore.reg (c : MgmtCore) (r : XReg) : Word := if r = 0 then 0 else c.x[r.val]

/-- Write a register; a write to x0 is discarded. -/
def MgmtCore.setReg (c : MgmtCore) (r : XReg) (v : Word) : MgmtCore := if r = 0 then c else { c with x := c.x.set r.val v }

/-- Write a floating-point register. -/
def MgmtCore.setF (c : MgmtCore) (r : XReg) (v : Word) : MgmtCore := { c with f := c.f.set r.val v }

/-- Flags join the fcsr. -/
def MgmtCore.raise (c : MgmtCore) (g : RvFlags) : MgmtCore := { c with fcsr := c.fcsr ||| BitVec.ofNat 32 g.bits }

/-- The rounding mode that an instruction names; the fcsr's for 7. -/
def MgmtCore.rm (c : MgmtCore) (n : Nat) : Option RvRm :=
  match if n = 7 then fld c.fcsr.toNat 5 3 else n with
  | 0 => some (.of .rne)
  | 1 => some (.of .rz)
  | 2 => some (.of .rd)
  | 3 => some (.of .ru)
  | 4 => some .rmm
  | _ => none

/-- The place and the width of a field of the fcsr by its register number. -/
def csrField (n : Nat) : Option (Nat × Nat) :=
  match n with
  | 1 => some (0, 5)
  | 2 => some (5, 3)
  | 3 => some (0, 8)
  | _ => none

/-- Whether a management core reaches bytes of memory, its address being an SPA: device memory on a die joined to its own, without an
uncorrectable error (R263, R374, R420). -/
def State.coreReaches (s : State) (d : DieNo) (a n : Nat) : Bool :=
  let at' : DieNo := Fin.ofNat 4 (dmDie a)
  spaClass s a == .dm && spaClass s (a + n - 1) == .dm && s.dieOn at' && s.diesJoined d at'
    && !s.bad.any fun k => decide (a ≤ k) && decide (k < a + n)

/-- The outcome of an instruction: its effect, with the next pc where it jumps; or the core waits at it. -/
inductive Rv64R where
  | ok (s : State) (jump : Option Word)
  | stay
  deriving Inhabited

/-- The address of an access. -/
def MgmtCore.ea (c : MgmtCore) (rs : XReg) (off : Word) : Nat := (c.reg rs + off).toNat

/-- The result of a load. -/
def rvLoaded (n : Nat) (sg : Bool) (v : Nat) : Word := if sg then rv64S (8 * n) v else BitVec.ofNat 64 v

/-- The value that an atomic of n bytes leaves. -/
def rvAmo (o : RvAmo) (n old v : Nat) : Nat :=
  let less := fun (a b : Nat) => decide (sextNat a (8 * n) < sextNat b (8 * n))
  match o with
  | .swap => v
  | .add => (old + v) % 2 ^ (8 * n)
  | .xor => old ^^^ v
  | .and => old &&& v
  | .or => old ||| v
  | .min => if less v old then v else old
  | .max => if less old v then v else old
  | .minu => if v < old then v else old
  | .maxu => if old < v then v else old

/-- One instruction of a die's management core. -/
def State.rvRun (s : State) (d : DieNo) (len : Nat) (i : Rv64Op) : Rv64R :=
  let c := (s.dies[d.val]).mgmt
  let put := fun (u : State) (f : MgmtCore → MgmtCore) => u.mapDie d fun y => { y with mgmt := f y.mgmt }
  let sets := fun (rd : XReg) (v : Word) => Rv64R.ok (put s fun y => y.setReg rd v) none
  let next := c.pc + BitVec.ofNat 64 len
  let mem := fun (a n : Nat) (aligned : Bool) (k : Nat → Rv64R) =>
    if s.coreReaches d a n && (!aligned || a % n == 0) then k (s.mem.num a n) else .stay
  let store := fun (u : State) (a v n : Nat) => ({ u with mem := u.mem.putNum a v n } : State)
  let src := fun (m : RvFmt) (r : XReg) => m.unbox c.f[r.val]
  let fset := fun (m : RvFmt) (rd : XReg) (x : Nat × RvFlags) =>
    Rv64R.ok (put s fun y => (y.setF rd (m.box x.1)).raise x.2) none
  let withRm := fun (n : Nat) (k : RvRm → Rv64R) =>
    match c.rm n with
    | none => .stay
    | some r => k r
  match i with
  | .lui rd v => sets rd v
  | .auipc rd v => sets rd (c.pc + v)
  | .jal rd off => .ok (put s fun y => y.setReg rd next) (some (c.pc + off))
  | .jalr rd rs off => .ok (put s fun y => y.setReg rd next) (some ((c.reg rs + off) &&& ~~~1#64))
  | .branch k a b off => .ok s (if rvCond k (c.reg a) (c.reg b) then some (c.pc + off) else none)
  | .load n sg rd rs off => mem (c.ea rs off) n false fun v => sets rd (rvLoaded n sg v)
  | .store n rs r off => mem (c.ea rs off) n false fun _ => .ok (store s (c.ea rs off) (c.reg r).toNat n) none
  | .aluI o rd rs v => sets rd (rvAlu o (c.reg rs) v)
  | .alu o rd a b => sets rd (rvAlu o (c.reg a) (c.reg b))
  | .aluIW o rd rs v => sets rd ((rvAlu o ((c.reg rs).setWidth 32) v).signExtend 64)
  | .aluW o rd a b => sets rd ((rvAlu o ((c.reg a).setWidth 32) ((c.reg b).setWidth 32)).signExtend 64)
  | .fence => .ok s none
  | .lr n rd rs =>
    let a := c.ea rs 0
    mem a n true fun v =>
      .ok (put s fun y => { y.setReg rd (rvLoaded n true v) with resv := some (a, s.mem.bytes a n) }) none
  | .sc n rd rs r =>
    let a := c.ea rs 0
    mem a n true fun v =>
      let (k, u) := s.fresh
      let holds := c.resv == some (a, leBytes v n) && (Config.freeWord k).getLsbD 63
      let u := put u fun y => { y.setReg rd (if holds then 0 else 1) with resv := none }
      .ok (if holds then store u a (c.reg r).toNat n else u) none
  | .amo o n rd rs r =>
    let a := c.ea rs 0
    mem a n true fun v =>
      .ok (store (put s fun y => y.setReg rd (rvLoaded n true v)) a (rvAmo o n v ((c.reg r).toNat % 2 ^ (8 * n))) n) none
  | .csr o rd from' n =>
    match csrField n with
    | none => .stay
    | some (lo, w) =>
      let old := fld c.fcsr.toNat lo w
      let v := (match from' with
        | .inl r => (c.reg r).toNat
        | .inr k => k.val) % 2 ^ w
      let new :=
        match o with
        | .write => v
        | .set => old ||| v
        | .clear => old - (old &&& v)
      let rest := c.fcsr.toNat - old * 2 ^ lo
      .ok (put s fun y => { y.setReg rd (BitVec.ofNat 64 old) with fcsr := BitVec.ofNat 32 (rest + new * 2 ^ lo) }) none
  | .fload m rd rs off =>
    let n := (m.fmt.eb + m.fmt.fb + 1) / 8
    mem (c.ea rs off) n false fun v => .ok (put s fun y => y.setF rd (m.box v)) none
  | .fstore m rs r off =>
    let n := (m.fmt.eb + m.fmt.fb + 1) / 8
    mem (c.ea rs off) n false fun _ => .ok (store s (c.ea rs off) (c.f[r.val]).toNat n) none
  | .fma m negMul negAdd rd a b e rm => withRm rm fun r => fset m rd (m.fma negMul negAdd r (src m a) (src m b) (src m e))
  | .fop o m rd a b rm => withRm rm fun r => fset m rd (m.fop o r (src m a) (src m b))
  | .fcmp o m rd a b =>
    let x := m.cmp o (src m a) (src m b)
    .ok (put s fun y => (y.setReg rd (BitVec.ofNat 64 x.1.toNat)).raise x.2) none
  | .fclass m rd a => sets rd (BitVec.ofNat 64 (m.classOf (src m a)))
  | .fcvt m rd a rm =>
    let k : RvFmt := if m = .s then .d else .s
    withRm rm fun r =>
      let x := m.round r (k.fmt.decode (src k a))
      fset m rd (x.1, { x.2 with nv := k.snan (src k a) })
  | .toInt wide unsigned m rd a rm =>
    withRm rm fun r =>
      let n := if wide then 64 else 32
      let x := rvToInt n unsigned r (m.fmt.decode (src m a))
      .ok (put s fun y => (y.setReg rd ((BitVec.ofInt n x.1).signExtend 64)).raise x.2) none
  | .ofInt wide unsigned m rd a rm =>
    withRm rm fun r =>
      let n := if wide then 64 else 32
      let v := (c.reg a).setWidth n
      fset m rd (m.round r (Num.ofInt (if unsigned then (v.toNat : Int) else v.toInt)))
  | .fmvOut m rd a =>
    sets rd (match m with
      | .s => ((c.f[a.val]).setWidth 32).signExtend 64
      | .d => c.f[a.val])
  | .fmvIn m rd a => .ok (put s fun y => y.setF rd (m.box (c.reg a).toNat)) none

/-- One instruction of a management core: it fetches at its pc, and waits there where it cannot reach the bytes of the instruction or
of its access, where they are no instruction of RV64GC, or where they ask its environment for something: what comes of that is an input
(Ambient.mgmt, log 53). A core in reset, or of a die that is off, runs nothing (R446, R448). -/
def State.mgmtStep (s : State) (d : DieNo) : State :=
  let die := s.dies[d.val]
  let a := die.mgmt.pc.toNat
  if die.coreDown || !s.dieOn d || !s.coreReaches d a 2 then s
  else
    let len := rv64Len (s.mem.num a 2)
    if !s.coreReaches d a len then s
    else
      match (rv64Decode (s.mem.num a len)).map fun i => s.rvRun d len i with
      | some (.ok u jump) =>
        u.mapDie d fun y => { y with mgmt := { y.mgmt with pc := jump.getD (die.mgmt.pc + BitVec.ofNat 64 len) } }
      | some .stay | none => s

end Sys2Proof.Machine
end

