-- ==== Sys2Proof/Machine/SpecEvents.lean ====
section
/-! DEFINITION. The steps of speculation: the history copy (R147), the shadow slot (R149), the tolerance compare (R156),
commit (R157) and squash (R158). -/

namespace Sys2Proof.Machine

/-- The fields of a predictor register (R146). -/
def prdFmt (w : Word) : Nat := fld w.toNat 0 4
def prdLinear (w : Word) : Bool := fld w.toNat 14 2 == 1
def prdRtol (w : Word) : Num := fp32.decode (fld w.toNat 16 16 * 2 ^ 16)
def prdAtol (w : Word) : Num := fp32.decode (fld w.toNat 32 32)

/-- The bytes of one element of a format of R146. -/
def elemBytes (fmt : Nat) : Nat := (tagShape fmt).2 / 8

/-- An element as FP32: exact but for INT32, which is rounded (R149). -/
def toFp32 (fmt code : Nat) : Num := fp32.decode (fp32.encode rne (tagDecode fmt code))

/-- A value rounded to FP32 with RNE. -/
def rne32 (x : Num) : Num := fp32.decode (fp32.encode rne x)

/-- fp32_sub_rne (R149, R156). -/
def sub32 (x y : Num) : Num := rne32 (Num.add .rne x y.neg)

/-- The predicted element (R149). -/
def predictElem (linear : Bool) (vcnt fmt h1 h2 : Nat) : Nat :=
  if !linear || vcnt == 1 then h1
  else tagEncode fmt rne false (sub32 (rne32 (Num.mul (.fin false 1 1) (toFp32 fmt h1))) (toFp32 fmt h2))

/-- The predicted slot's bytes from those of H1 and H2 (R149). -/
def predictBytes (linear : Bool) (vcnt fmt : Nat) (h1 h2 : List Byte) : List Byte :=
  let w := elemBytes fmt
  (List.range (h1.length / w)).flatMap fun k =>
    leBytes (predictElem linear vcnt fmt (leNat ((h1.drop (w * k)).take w)) (leNat ((h2.drop (w * k)).take w))) w

/-! ## The predictor's accesses -/

/-- The window checks of an access of the predictor to some areas, each read or written (R69): the lines that it may touch are filled
first. DESIGN CHOICE (log 28): one that a window refuses holds nothing up, the spec naming no trap of the predictor's. -/
def State.predPrep : List (Bool × Nat × Nat) → State → Prep
  | [], s => .ok s
  | (write, x) :: l, s =>
    match (winPrep .predictor s s write [x]).sound s with
    | .ok u => State.predPrep l u
    | .trap _ => State.predPrep l s
    | .stall u => .stall u

/-- A write of the predictor; one that a window refuses has no effect (R69). -/
def State.predPut (s : State) (a : Nat) (bs : List Byte) : State :=
  match (winPrep .predictor s s true [(a, a + bs.length)]).sound s with
  | .trap _ => s
  | .ok _ | .stall _ => s.spStore a bs

/-- A step of the predictor, made once the lines that it touches are there; predPrep refuses none. -/
def Prep.made (r : Prep) (s : State) (go : State → State) : State :=
  match r with
  | .ok u => go u
  | .stall u => u
  | .trap _ => s

/-- The bytes of a slot-sized area of a ring. -/
def Ring.area (r : Ring) (a : Nat) : Nat × Nat := (a, a + r.slotBytes)

/-- The accesses of the oldest history copy of a ring (R147). -/
def State.historyPrep (s : State) (b : Fin 8) : Prep :=
  let r := s.tile.rings[b.val]
  State.predPrep
    ((false, r.area r.hist1) :: (r.hist.head?.map fun h => (false, r.area (r.slotAddr h.1.val))).toList
      ++ [(true, r.area r.hist2), (true, r.area r.hist1)]) s

/-- The accesses that write the shadow slot of a ring: H2 is read for a linear ring of two versions alone (R147, R149). -/
def State.shadowPrep (s : State) (n : Fin 8) : Prep :=
  let r := s.tile.rings[n.val]
  State.predPrep
    ((false, r.area r.hist1) :: (if prdLinear r.prd && r.vcnt == 2 then [(false, r.area r.hist2)] else [])
      ++ [(true, r.area r.shadow)]) s

/-- The accesses of a tolerance compare (R156). -/
def State.comparePrep (s : State) (p : Spec) (n : Fin 8) : Prep :=
  let r := s.tile.rings[n.val]
  State.predPrep [(false, r.area (r.slotAddr p.slot.val)), (false, r.area r.shadow)] s

/-- HISTORY_COPY_COMPLETE (R147): H1 moves into H2, the published slot into H1, one more version. -/
def State.historyDone (s : State) (b : Fin 8) : State :=
  let r := s.tile.rings[b.val]
  match r.hist with
  | [] => s
  | h :: l =>
    if s.tile.tc < h.2 then s
    else
      (s.historyPrep b).made s fun s =>
        let n := r.slotBytes
        let old := s.spBytes r.hist1 n
        let new := s.spBytes (r.slotAddr h.1.val) n
        ((s.predPut r.hist2 old).predPut r.hist1 new).mapTile fun t =>
          t.setRing b { r with hist := l, vcnt := min 2 (r.vcnt + 1) }

def execHistoryCopyComplete (b : Fin 8) (s : State) : Host.Outcome State Fault Refusal := .next (s.historyDone b)

/-- SHADOW_WRITE_COMPLETE (R148 step 5, R149); a slot published in the meantime is compared from now on (R156). -/
def State.shadowWrite (s : State) : State :=
  match s.tile.spec with
  | none => s
  | some p =>
    match p.ring with
    | none => s
    | some n =>
      let r := s.tile.rings[n.val]
      if p.shadowDone || decide (s.tile.tc < p.shadowDue) then s
      else
        (s.shadowPrep n).made s fun s =>
        let size := r.slotBytes
        let bs := predictBytes (prdLinear r.prd) r.vcnt (prdFmt r.prd) (s.spBytes r.hist1 size) (s.spBytes r.hist2 size)
        let due := s.tile.compareDue n
        (s.predPut r.shadow bs).mapTile fun t =>
          { t with spec := some { p with shadowDone := true, cmpDue := if p.published then due else 0 } }

def execShadowWriteComplete (s : State) : Host.Outcome State Fault Refusal := .next s.shadowWrite

/-- Whether a value is finite. -/
def Num.finite (x : Num) : Bool :=
  match x with
  | .fin _ _ _ => true
  | .nan => false
  | .inf _ => false

/-- x ≤ y for values without NaN. -/
def numLe (x y : Num) : Bool := Num.lt x y || Num.eqv x y

/-- Whether one element passes the tolerance test (R156). -/
def within32 (atol rtol r p : Num) : Bool :=
  match r, p with
  | .nan, .nan => true
  | .inf a, .inf b => a == b
  | _, _ =>
    Num.finite r && Num.finite p
      && numLe (sub32 r p).abs (rne32 (Num.add .rne atol (rne32 (Num.mul rtol r.abs))))

/-- Whether every element of a prediction passes (R156). -/
def compareBytes (prd : Word) (real shadow : List Byte) : Bool :=
  let fmt := prdFmt prd
  let w := elemBytes fmt
  (List.range (real.length / w)).all fun k =>
    let at' := fun (l : List Byte) => toFp32 fmt (leNat ((l.drop (w * k)).take w))
    within32 (prdAtol prd) (prdRtol prd) (at' real) (at' shadow)

/-- TOLERANCE_COMPARE (R156): the verdict on the prediction. -/
def State.compare (s : State) : State :=
  match s.tile.spec with
  | none => s
  | some p =>
    match p.ring with
    | none => s
    | some n =>
      let r := s.tile.rings[n.val]
      if !p.published || !p.shadowDone || p.verdict.isSome || decide (s.tile.tc < p.cmpDue) then s
      else
        (s.comparePrep p n).made s fun s =>
        let size := r.slotBytes
        let ok := compareBytes r.prd (s.spBytes (r.slotAddr p.slot.val) size) (s.spBytes r.shadow size)
        s.mapTile fun t => { t with spec := some { p with verdict := some ok } }

def execToleranceCompare (s : State) : Host.Outcome State Fault Refusal := .next s.compare

/-- What the release of a held effect meets: done, refused with the publication it keeps (R157), a request for power
before it can go on (R436), or a stall that the effect would make if it were issued now (R145). -/
inductive Released where
  | done (s : State)
  | refused (s : State) (i : TrapInfo)
  | asking (s : State)
  | later

/-- A held effect that needs a place in a counter (R315). -/
def State.counting (s : State) (c : Ctr) (u : State) : Released := if ctrMax ≤ s.tile.ctr c then .later else .done u

/-- Release one held effect, as if it were issued now: it stalls where its instruction would (R145, R157): on a footprint edge
(R140), a full counter (R315), a full queue of jobs (R295), a boundary's stores (R124), a history copy (R147). -/
def State.releaseHeld (s : State) (h : Held) : Released :=
  let refusal := fun (c : Cause) => ({ cause := c, slot := 1, val := BitVec.ofNat 64 h.pc, deferred := true } : TrapInfo)
  match h.op with
  | .store l =>
    if l.any fun x => s.tile.edge true x.1 (x.1 + x.2.length) then .later
    else s.counting .st ((s.performStores l).mapTile fun t => t.countUntil .st (t.tc + storeDelay))
  | .sems k n =>
    if s.homeShut then (if s.asks s.homeCl || s.blocked s.homeRoute then .asking s.callHome else .later)
    else match boundary ⟨s, 0, h.pc⟩ s semMask true with
    | .stall => .later
    | .fail u i => .refused u { i with deferred := true }
    | .ok u =>
      if 65535 < (u.sem k).val.val + n then .refused u (refusal .semOverflow)
      else .done ((u.mapHome fun c => c.addSem k n).knock u.homeCl)
  | .putc k d a b ps => s.counting .tl (s.putc k d a b ps)
  | .cpgo c j => if chanSize ≤ (s.tile.chans[c.val]).jobs.length then .later else s.counting .cp (s.enqueueCopy c j)
  | .gred k d a b => s.counting .tl (s.gred k d a b)
  | .spawn e x =>
    match s.tile.task with
    | none => .done s
    | some k => if poolSize ≤ s.poolLen then .refused s (refusal .spawnFull) else .done (s.spawn k e x)
  | .bufFree n k => if s.tile.copying n k then .later else .done (s.tileRelease.mapTile fun t => t.freeSlot n k)
  | .bufPub n k => if s.tile.storing then .later else .done (s.tileRelease.mapTile fun t => t.publish n k)

/-- A row of a committed sender is an ordinary row (R155). -/
def CircRow.settle (i : TileId) (r : CircRow) : CircRow := if r.spec.any (fun x => x.1 == i) then { r with spec := none } else r

/-- What the commit of a tile's task means for another tile: its rows are ordinary, it is no longer depended on (R155,
R157). -/
def Tile.onCommit (i : TileId) (t : Tile) : Tile :=
  { t with
    recvRows := t.recvRows.map (CircRow.settle i)
    spec := t.spec.map fun p => { p with rows := p.rows.map (CircRow.settle i), deps := p.deps.filter fun d => d != i } }

/-- The rows of a committed task become ordinary wherever they are (R155). -/
def State.settleRows (s : State) (i : TileId) : State :=
  let s := s.mapTiles (Tile.onCommit i)
  { s with
    rows := s.rows.map fun m => if m.src == i then { m with depth := 0 } else m
    teams := s.teams.map fun k => k.mapSaved (Tile.onCommit i) }

/-- Whether a task commits now: its prediction has passed, every task that it depends on has committed (R157). -/
def Spec.commits (p : Spec) : Bool := (p.ring.isNone || p.verdict == some true) && p.deps.isEmpty

/-- A deferred fault of another agent is no longer pending once it has been raised (R288, R391). -/
def Tile.clearDeferred (t : Tile) (i : TrapInfo) : Tile :=
  match i.agent with
  | 3 => t.clearEngerr
  | 1 => { t with loader := { t.loader with fault := none } }
  | 2 => { t with storer := { t.storer with fault := none } }
  | _ => t

/-- COMMIT the focus tile's speculation (R157): its rows become ordinary, its held effects are to be released. The history copies
of the slots that it published begin here: DESIGN CHOICE, R147 starting them with the BUFPUB, which R152 may still undo (log 25). -/
def State.commitSpec (s : State) (p : Spec) : State :=
  (s.mapTile fun t =>
    p.pubbed.foldl (fun t x => t.startHistory x.1 x.2)
      { t with
        spec := none, commits := t.commits + 1, predDone := t.predDone || !p.begun
        stallSince := none, releasing := some ⟨p.held, p.fault⟩ }).settleRows s.tile.id

/-- The end of a commit (R157): the slot of the budget is freed, a refusal or the deferred fault is raised at the bundle at which the
task stands. -/
def State.endRelease (s : State) (r : Releasing) (refused : Option TrapInfo) : State :=
  let s := s.mapTile fun t => { t with releasing := none }
  let s :=
    match s.team with
    | none => s
    | some k => s.charge k.rcb 11 false 1
  match refused, r.fault with
  | some i, _ => s.deliver i s.tile.pc
  | none, some f => (s.mapTile fun t => t.clearDeferred f).deliver f s.tile.pc
  | none, none => s

/-- One step of releasing the held effects of a commit, in program order (R145, R157); none while the next one has to wait. -/
def State.releaseNext (s : State) (r : Releasing) : Option State :=
  match r.held with
  | [] => some (s.endRelease r none)
  | h :: l =>
    match s.releaseHeld h with
    | .done u => some (u.mapTile fun t => { t with releasing := some { r with held := l } })
    | .refused u i => some (u.endRelease r (some i))
    | .asking u => some u
    | .later => none

/-- SPEC_COMMIT (R157): the commit, or the next of its held effects; nothing while the cluster's clock stands (R321). -/
def execSpecCommit (s : State) : Host.Outcome State Fault Refusal :=
  if !s.cluster.ticks then .next s
  else
    match s.tile.releasing with
    | some r => .next ((s.releaseNext r).getD s)
    | none =>
      match s.tile.spec with
      | none => .next s
      | some p => if p.commits then .next (s.commitSpec p) else .next s

/-- SPEC_SQUASH (R158): the task's own compare has failed; nothing while the cluster's clock stands (R321). -/
def execSpecSquash (s : State) : Host.Outcome State Fault Refusal :=
  match s.tile.spec with
  | none => .next s
  | some p => if s.cluster.ticks && p.verdict == some false then .next (s.squash s.tile.id) else .next s

end Sys2Proof.Machine
end

