-- ==== Sys2Proof/Machine/Dispatch.lean ====
section
/-! DEFINITION. The dispatch of every instruction and step to its meaning. -/

namespace Sys2Proof.Machine

/-- The meaning of every instruction. -/
def exec (i : Instr) (s : State) : Host.Outcome State Fault Refusal :=
  match i with
  | .brp p imm => Sys2Proof.Machine.execBrp p imm s
  | .brnp p imm => Sys2Proof.Machine.execBrnp p imm s
  | .jmpWord imm => Sys2Proof.Machine.execJmpWord imm s
  | .jmpBlock imm => Sys2Proof.Machine.execJmpBlock imm s
  | .jmpi a imm => Sys2Proof.Machine.execJmpi a imm s
  | .jmpiB a => Sys2Proof.Machine.execJmpiB a s
  | .callb l imm => Sys2Proof.Machine.execCallb l imm s
  | .retb a => Sys2Proof.Machine.execRetb a s
  | .loopb imm => Sys2Proof.Machine.execLoopb imm s
  | .lsetPass a imm => Sys2Proof.Machine.execLsetPass a imm s
  | .lsetFeed a imm => Sys2Proof.Machine.execLsetFeed a imm s
  | .lsetRrb imm => Sys2Proof.Machine.execLsetRrb imm s
  | .lsetStg imm => Sys2Proof.Machine.execLsetStg imm s
  | .wait ld st cp tl => Sys2Proof.Machine.execWait ld st cp tl s
  | .semw k cnt a => Sys2Proof.Machine.execSemw k cnt a s
  | .sems k cnt a => Sys2Proof.Machine.execSems k cnt a s
  | .semt k cnt d => Sys2Proof.Machine.execSemt k cnt d s
  | .bara => Sys2Proof.Machine.execBara s
  | .barw => Sys2Proof.Machine.execBarw s
  | .barr => Sys2Proof.Machine.execBarr s
  | .phase sc m => Sys2Proof.Machine.execPhase sc m s
  | .fence sc m => Sys2Proof.Machine.execFence sc m s
  | .spawn d a b => Sys2Proof.Machine.execSpawn d a b s
  | .yield => Sys2Proof.Machine.execYield s
  | .retire => Sys2Proof.Machine.execRetire s
  | .trap imm => Sys2Proof.Machine.execTrap imm s
  | .pcommit => Sys2Proof.Machine.execPcommit s
  | .csrr d csr => Sys2Proof.Machine.execCsrr d csr s
  | .csrw d a csr => Sys2Proof.Machine.execCsrw d a csr s
  | .tret => Sys2Proof.Machine.execTret s
  | .ctxs d a b => Sys2Proof.Machine.execCtxs d a b s
  | .ctxl d a b => Sys2Proof.Machine.execCtxl d a b s
  | .add d a b => Sys2Proof.Machine.execAdd d a b s
  | .sub d a b => Sys2Proof.Machine.execSub d a b s
  | .mul d a b => Sys2Proof.Machine.execMul d a b s
  | .mulh d a b => Sys2Proof.Machine.execMulh d a b s
  | .mulhu d a b => Sys2Proof.Machine.execMulhu d a b s
  | .and d a b => Sys2Proof.Machine.execAnd d a b s
  | .or d a b => Sys2Proof.Machine.execOr d a b s
  | .xor d a b => Sys2Proof.Machine.execXor d a b s
  | .shl d a b => Sys2Proof.Machine.execShl d a b s
  | .shr d a b => Sys2Proof.Machine.execShr d a b s
  | .sar d a b => Sys2Proof.Machine.execSar d a b s
  | .min d a b => Sys2Proof.Machine.execMin d a b s
  | .max d a b => Sys2Proof.Machine.execMax d a b s
  | .minu d a b => Sys2Proof.Machine.execMinu d a b s
  | .maxu d a b => Sys2Proof.Machine.execMaxu d a b s
  | .sel d a b n => Sys2Proof.Machine.execSel d a b n s
  | .clz d a => Sys2Proof.Machine.execClz d a s
  | .popc d a => Sys2Proof.Machine.execPopc d a s
  | .lea d a b k n => Sys2Proof.Machine.execLea d a b k n s
  | .cmp cc p a b => Sys2Proof.Machine.execCmp cc p a b s
  | .addi d a imm => Sys2Proof.Machine.execAddi d a imm s
  | .andi d a imm => Sys2Proof.Machine.execAndi d a imm s
  | .ori d a imm => Sys2Proof.Machine.execOri d a imm s
  | .xori d a imm => Sys2Proof.Machine.execXori d a imm s
  | .shli d a imm => Sys2Proof.Machine.execShli d a imm s
  | .shri d a imm => Sys2Proof.Machine.execShri d a imm s
  | .sari d a imm => Sys2Proof.Machine.execSari d a imm s
  | .cmpi cc p a imm => Sys2Proof.Machine.execCmpi cc p a imm s
  | .li d imm => Sys2Proof.Machine.execLi d imm s
  | .pand d a b => Sys2Proof.Machine.execPand d a b s
  | .por d a b => Sys2Proof.Machine.execPor d a b s
  | .pnot d a => Sys2Proof.Machine.execPnot d a s
  | .pmov d a => Sys2Proof.Machine.execPmov d a s
  | .fadd d a b => Sys2Proof.Machine.execFadd d a b s
  | .fsub d a b => Sys2Proof.Machine.execFsub d a b s
  | .fmul d a b => Sys2Proof.Machine.execFmul d a b s
  | .fma d a b => Sys2Proof.Machine.execFma d a b s
  | .fnma d a b => Sys2Proof.Machine.execFnma d a b s
  | .fmax d a b => Sys2Proof.Machine.execFmax d a b s
  | .fmin d a b => Sys2Proof.Machine.execFmin d a b s
  | .fabs d a => Sys2Proof.Machine.execFabs d a s
  | .fneg d a => Sys2Proof.Machine.execFneg d a s
  | .fcmp cc p a b all => Sys2Proof.Machine.execFcmp cc p a b all s
  | .fsel d a b => Sys2Proof.Machine.execFsel d a b s
  | .frcp d a => Sys2Proof.Machine.execFrcp d a s
  | .frsq d a => Sys2Proof.Machine.execFrsq d a s
  | .fexp2 d a => Sys2Proof.Machine.execFexp2 d a s
  | .vadd d a b => Sys2Proof.Machine.execVadd d a b s
  | .vsub d a b => Sys2Proof.Machine.execVsub d a b s
  | .vmul d a b => Sys2Proof.Machine.execVmul d a b s
  | .vmulh d a b u => Sys2Proof.Machine.execVmulh d a b u s
  | .vand d a b => Sys2Proof.Machine.execVand d a b s
  | .vor d a b => Sys2Proof.Machine.execVor d a b s
  | .vxor d a b => Sys2Proof.Machine.execVxor d a b s
  | .vshl d a n => Sys2Proof.Machine.execVshl d a n s
  | .vshr d a n => Sys2Proof.Machine.execVshr d a n s
  | .vsar d a n => Sys2Proof.Machine.execVsar d a n s
  | .vmin d a b u => Sys2Proof.Machine.execVmin d a b u s
  | .vmax d a b u => Sys2Proof.Machine.execVmax d a b u s
  | .vcmp cc p a b all => Sys2Proof.Machine.execVcmp cc p a b all s
  | .vsel d a b => Sys2Proof.Machine.execVsel d a b s
  | .vabs d a => Sys2Proof.Machine.execVabs d a s
  | .vsat d a u wd => Sys2Proof.Machine.execVsat d a u wd s
  | .cvt d a p t => Sys2Proof.Machine.execCvt d a p t s
  | .dqn d a p sw => Sys2Proof.Machine.execDqn d a p sw s
  | .bmax d a b => Sys2Proof.Machine.execBmax d a b s
  | .scsel d a fuse e b f => Sys2Proof.Machine.execScsel d a fuse e b f s
  | .tag d a t => Sys2Proof.Machine.execTag d a t s
  | .vperm d a b => Sys2Proof.Machine.execVperm d a b s
  | .vrot d a k => Sys2Proof.Machine.execVrot d a k s
  | .vbcst d a t => Sys2Proof.Machine.execVbcst d a t s
  | .vmov d a => Sys2Proof.Machine.execVmov d a s
  | .vred op d a => Sys2Proof.Machine.execVred op d a s
  | .qpop d q => Sys2Proof.Machine.execQpop d q s
  | .spk d a n => Sys2Proof.Machine.execSpk d a n s
  | .spx d a n => Sys2Proof.Machine.execSpx d a n s
  | .lds sz d a imm => Sys2Proof.Machine.execLds sz d a imm s
  | .sts sz d a imm => Sys2Proof.Machine.execSts sz d a imm s
  | .ldv d a imm => Sys2Proof.Machine.execLdv d a imm s
  | .stv d a imm => Sys2Proof.Machine.execStv d a imm s
  | .ldtt d a imm => Sys2Proof.Machine.execLdtt d a imm s
  | .stbp d a imm => Sys2Proof.Machine.execStbp d a imm s
  | .ldbp d a imm => Sys2Proof.Machine.execLdbp d a imm s
  | .hset n a => Sys2Proof.Machine.execHset n a s
  | .hget n a => Sys2Proof.Machine.execHget n a s
  | .spfence => Sys2Proof.Machine.execSpfence s
  | .bufacq n d e => Sys2Proof.Machine.execBufacq n d e s
  | .bufpub n a k => Sys2Proof.Machine.execBufpub n a k s
  | .buftake n d e => Sys2Proof.Machine.execBuftake n d e s
  | .buffree n a k => Sys2Proof.Machine.execBuffree n a k s
  | .bufq n d => Sys2Proof.Machine.execBufq n d s
  | .mapw n a => Sys2Proof.Machine.execMapw n a s
  | .mapf n => Sys2Proof.Machine.execMapf n s
  | .mapi n => Sys2Proof.Machine.execMapi n s
  | .mapiDiscard n => Sys2Proof.Machine.execMapiDiscard n s
  | .qst q a => Sys2Proof.Machine.execQst q a s
  | .qstHalf q a => Sys2Proof.Machine.execQstHalf q a s
  | .aadd d a o sc m wide => Sys2Proof.Machine.execAadd d a o sc m wide s
  | .aand d a o sc m wide => Sys2Proof.Machine.execAand d a o sc m wide s
  | .aor d a o sc m wide => Sys2Proof.Machine.execAor d a o sc m wide s
  | .amin d a o sc m wide u => Sys2Proof.Machine.execAmin d a o sc m wide u s
  | .amax d a o sc m wide u => Sys2Proof.Machine.execAmax d a o sc m wide u s
  | .axch d a o sc m wide => Sys2Proof.Machine.execAxch d a o sc m wide s
  | .acas d a o sc m wide => Sys2Proof.Machine.execAcas d a o sc m wide s
  | .adecp d a o sc m wide => Sys2Proof.Machine.execAdecp d a o sc m wide s
  | .waita a b p wide => Sys2Proof.Machine.execWaita a b p wide s
  | .wake1 a d => Sys2Proof.Machine.execWake1 a d s
  | .wakea a d => Sys2Proof.Machine.execWakea a d s
  | .mhold => Sys2Proof.Machine.execMhold s
  | .mpush a => Sys2Proof.Machine.execMpush a s
  | .mpushS a b => Sys2Proof.Machine.execMpushS a b s
  | .mpushC a => Sys2Proof.Machine.execMpushC a s
  | .mpushSC a b => Sys2Proof.Machine.execMpushSC a b s
  | .mshift b => Sys2Proof.Machine.execMshift b s
  | .macc => Sys2Proof.Machine.execMacc s
  | .maccR e => Sys2Proof.Machine.execMaccR e s
  | .mdrain r q f z => Sys2Proof.Machine.execMdrain r q f z s
  | .mzero => Sys2Proof.Machine.execMzero s
  | .msetFloat ga gb => Sys2Proof.Machine.execMsetFloat ga gb s
  | .msetInt ga gb => Sys2Proof.Machine.execMsetInt ga gb s
  | .msparse b => Sys2Proof.Machine.execMsparse b s
  | .mremQueue a r e q => Sys2Proof.Machine.execMremQueue a r e q s
  | .mremAcc a r e => Sys2Proof.Machine.execMremAcc a r e s
  | .mskew q e => Sys2Proof.Machine.execMskew q e s
  | .qnt d a f b => Sys2Proof.Machine.execQnt d a f b s
  | .cpbase c d a b => Sys2Proof.Machine.execCpbase c d a b s
  | .cpnest c l d a b => Sys2Proof.Machine.execCpnest c l d a b s
  | .cpfoot c k a b => Sys2Proof.Machine.execCpfoot c k a b s
  | .cpgo c => Sys2Proof.Machine.execCpgo c s
  | .cpdrain c => Sys2Proof.Machine.execCpdrain c s
  | .cpstat c d => Sys2Proof.Machine.execCpstat c d s
  | .qsend q k => Sys2Proof.Machine.execQsend q k s
  | .csend k a => Sys2Proof.Machine.execCsend k a s
  | .crecv k a => Sys2Proof.Machine.execCrecv k a s
  | .crecvT k d a => Sys2Proof.Machine.execCrecvT k d a s
  | .putc k d a b => Sys2Proof.Machine.execPutc k d a b s
  | .gred k d a b => Sys2Proof.Machine.execGred k d a b s
  | .gjoin d a => Sys2Proof.Machine.execGjoin d a s
  | .gstat d a => Sys2Proof.Machine.execGstat d a s
  | .gstatErr d => Sys2Proof.Machine.execGstatErr d s
  | .pred p n => Sys2Proof.Machine.execPred p n s
  | .pstat d => Sys2Proof.Machine.execPstat d s
  | .ringQuery p n d => Sys2Proof.Machine.execRingQuery p n d s
  | .spxStat p n d => Sys2Proof.Machine.execSpxStat p n d s
  | .probe p d a => Sys2Proof.Machine.execProbe p d a s
  | .leaseq p d a => Sys2Proof.Machine.execLeaseq p d a s
  | .mbxs n a => Sys2Proof.Machine.execMbxs n a s
  | .mbxr d => Sys2Proof.Machine.execMbxr d s
  | .mbxrT p d => Sys2Proof.Machine.execMbxrT p d s
  | .vlRacq rd rs1 => Sys2Proof.Machine.execVlRacq rd rs1 s
  | .vlRtake rd rs1 => Sys2Proof.Machine.execVlRtake rd rs1 s
  | .vlRpub rs1 rs2 => Sys2Proof.Machine.execVlRpub rs1 rs2 s
  | .vlRfree rs1 rs2 => Sys2Proof.Machine.execVlRfree rs1 rs2 s
  | .vlRq rd rs1 => Sys2Proof.Machine.execVlRq rd rs1 s
  | .vlCpset rs1 k ch => Sys2Proof.Machine.execVlCpset rs1 k ch s
  | .vlCpgo rs1 => Sys2Proof.Machine.execVlCpgo rs1 s
  | .vlCpdrain rs1 => Sys2Proof.Machine.execVlCpdrain rs1 s
  | .vlMbxs rs1 rs2 => Sys2Proof.Machine.execVlMbxs rs1 rs2 s
  | .vlMbxr rd => Sys2Proof.Machine.execVlMbxr rd s
  | .vlMbxt rd => Sys2Proof.Machine.execVlMbxt rd s
  | .blockStart => Sys2Proof.Machine.execBlockStart s
  | .semWaitServed c k => Sys2Proof.Machine.execSemWaitServed c k s
  | .resultLand => Sys2Proof.Machine.execResultLand s
  | .drainEntryArrive q => Sys2Proof.Machine.execDrainEntryArrive q s
  | .remoteRowLand e => Sys2Proof.Machine.execRemoteRowLand e s
  | .operationComplete => Sys2Proof.Machine.execOperationComplete s
  | .windowFillReturn => Sys2Proof.Machine.execWindowFillReturn s
  | .spontaneousWriteback n line => Sys2Proof.Machine.execSpontaneousWriteback n line s
  | .copyJobFire c => Sys2Proof.Machine.execCopyJobFire c s
  | .copyJobComplete c => Sys2Proof.Machine.execCopyJobComplete c s
  | .copyDataErrorEvent c elem => Sys2Proof.Machine.execCopyDataErrorEvent c elem s
  | .putcArrive => Sys2Proof.Machine.execPutcArrive s
  | .gredChunkLand gid chunk => Sys2Proof.Machine.execGredChunkLand gid chunk s
  | .collectiveAbort gid unreachable => Sys2Proof.Machine.execCollectiveAbort gid unreachable s
  | .circuitRowArrive => Sys2Proof.Machine.execCircuitRowArrive s
  | .nakResend => Sys2Proof.Machine.execNakResend s
  | .escapeEntry => Sys2Proof.Machine.execEscapeEntry s
  | .historyCopyComplete b => Sys2Proof.Machine.execHistoryCopyComplete b s
  | .shadowWriteComplete => Sys2Proof.Machine.execShadowWriteComplete s
  | .toleranceCompare => Sys2Proof.Machine.execToleranceCompare s
  | .specCommit => Sys2Proof.Machine.execSpecCommit s
  | .specSquash => Sys2Proof.Machine.execSpecSquash s
  | .timingReplay => Sys2Proof.Machine.execTimingReplay s
  | .droop c => Sys2Proof.Machine.execDroop c s
  | .loaderStorerInstruction g => Sys2Proof.Machine.execLoaderStorerInstruction g s
  | .loaderStorerFault g => Sys2Proof.Machine.execLoaderStorerFault g s
  | .watchdog => Sys2Proof.Machine.execWatchdog s
  | .poolTaskStart => Sys2Proof.Machine.execPoolTaskStart s
  | .tokenForward team => Sys2Proof.Machine.execTokenForward team s
  | .waitSwap => Sys2Proof.Machine.execWaitSwap s
  | .preempt team => Sys2Proof.Machine.execPreempt team s
  | .swapTriggerSatisfied team => Sys2Proof.Machine.execSwapTriggerSatisfied team s
  | .bindTeam d slot => Sys2Proof.Machine.execBindTeam d slot s
  | .bindReturn d slot => Sys2Proof.Machine.execBindReturn d slot s
  | .courseRelease p => Sys2Proof.Machine.execCourseRelease p s
  | .doorbell f q tail => Sys2Proof.Machine.execDoorbell f q tail s
  | .recordStart f q => Sys2Proof.Machine.execRecordStart f q s
  | .recordComplete rec => Sys2Proof.Machine.execRecordComplete rec s
  | .nodeStart rec node => Sys2Proof.Machine.execNodeStart rec node s
  | .nodeComplete rec node => Sys2Proof.Machine.execNodeComplete rec node s
  | .condEvaluate rec node => Sys2Proof.Machine.execCondEvaluate rec node s
  | .loopEvaluate rec node => Sys2Proof.Machine.execLoopEvaluate rec node s
  | .queueTeardown f q => Sys2Proof.Machine.execQueueTeardown f q s
  | .queueAbort f q => Sys2Proof.Machine.execQueueAbort f q s
  | .queueReset f q abort => Sys2Proof.Machine.execQueueReset f q abort s
  | .hifselSelect f v => Sys2Proof.Machine.execHifselSelect f v s
  | .tlbInvalidate p size vpn => Sys2Proof.Machine.execTlbInvalidate p size vpn s
  | .tlbInvalidateAll p => Sys2Proof.Machine.execTlbInvalidateAll p s
  | .tlbInvalidationComplete p => Sys2Proof.Machine.execTlbInvalidationComplete p s
  | .migack p size vpn => Sys2Proof.Machine.execMigack p size vpn s
  | .haltRequest d team => Sys2Proof.Machine.execHaltRequest d team s
  | .resumeRequest d team => Sys2Proof.Machine.execResumeRequest d team s
  | .haltComplete d => Sys2Proof.Machine.execHaltComplete d s
  | .partitionApply p => Sys2Proof.Machine.execPartitionApply p s
  | .partitionRequest p clu => Sys2Proof.Machine.execPartitionRequest p clu s
  | .partitionDrainRequest p clu => Sys2Proof.Machine.execPartitionDrainRequest p clu s
  | .apertureWrite c t off v => Sys2Proof.Machine.execApertureWrite c t off v s
  | .frequencyHop c freq => Sys2Proof.Machine.execFrequencyHop c freq s
  | .hopAbort c => Sys2Proof.Machine.execHopAbort c s
  | .hopRetry c => Sys2Proof.Machine.execHopRetry c s
  | .canaryWarning c => Sys2Proof.Machine.execCanaryWarning c s
  | .replayRateRaise c => Sys2Proof.Machine.execReplayRateRaise c s
  | .driftDecay c => Sys2Proof.Machine.execDriftDecay c s
  | .calibration c => Sys2Proof.Machine.execCalibration c s
  | .calibrationPreempt c => Sys2Proof.Machine.execCalibrationPreempt c s
  | .kilnRecordUpdate c => Sys2Proof.Machine.execKilnRecordUpdate c s
  | .powerUpGrant => Sys2Proof.Machine.execPowerUpGrant s
  | .retentionEntry c => Sys2Proof.Machine.execRetentionEntry c s
  | .retentionWake c lost => Sys2Proof.Machine.execRetentionWake c lost s
  | .quarantineRelease c => Sys2Proof.Machine.execQuarantineRelease c s
  | .routerPowerDown c => Sys2Proof.Machine.execRouterPowerDown c s
  | .routerWake c => Sys2Proof.Machine.execRouterWake c s
  | .powerThrottle => Sys2Proof.Machine.execPowerThrottle s
  | .powerRestore => Sys2Proof.Machine.execPowerRestore s
  | .linkDown l => Sys2Proof.Machine.execLinkDown l s
  | .laneRepair l => Sys2Proof.Machine.execLaneRepair l s
  | .sixatasTraining p peer peerSel => Sys2Proof.Machine.execSixatasTraining p peer peerSel s
  | .heartbeatTimeout d => Sys2Proof.Machine.execHeartbeatTimeout d s
  | .spareTileTakeover c t => Sys2Proof.Machine.execSpareTileTakeover c t s
  | .telemetryClear c => Sys2Proof.Machine.execTelemetryClear c s
  | .moduleReset => Sys2Proof.Machine.execModuleReset s
  | .firmwareStage svn => Sys2Proof.Machine.execFirmwareStage svn s
  | .attestationRequest => Sys2Proof.Machine.execAttestationRequest s
  | .attestationComplete => Sys2Proof.Machine.execAttestationComplete s
  | .registerWrite r v => Sys2Proof.Machine.execRegisterWrite r v s
  | .hostPcieWrite spa op => Sys2Proof.Machine.execHostPcieWrite spa op s
  | .peerAccessArrive spa op => Sys2Proof.Machine.execPeerAccessArrive spa op s
  | .tlbEntryDrop c t level n => Sys2Proof.Machine.execTlbEntryDrop c t level n s
  | .correctedSoftError c => Sys2Proof.Machine.execCorrectedSoftError c s
  | .modulePowerLoss => Sys2Proof.Machine.execModulePowerLoss s

end Sys2Proof.Machine
end

