-- ==== Sys2Proof/Machine/Turn.lean ====
section
/-! DEFINITION. The turn of an agent: what the tile core of the focus, or its loader or storer core, does next; whose turn
comes after it; how time passes (log 4). -/

namespace Sys2Proof.Machine

/-- The tile core issues the bundle at its program counter, or starts the block there (R26, R177, R189). DESIGN CHOICE (log 20): a
first word whose B bit is 0 and that no branch has come to (behind a descriptor, at a handler's entry, behind a pad) begins a
bundle all the same, the spec naming no trap for it. -/
def coreFetch (s : State) : Host.Outcome State Fault Refusal :=
  let a := s.tile.pc
  if isDescriptor a (s.codeWord a) then exec .blockStart s
  else
    match decodeBundle s.codeWord a with
    | .error r => .next (s.rejected r)
    | .ok b =>
      if b.pad then .next (s.mapTile fun t => { t with pc := afterPad a })
      else
        match b.words, b.slots with
        | 1, [(_, i)] => exec i s
        | n, xs => .next (issue s n b.rnd (xs.map fun p => (p.1, slotOf p.2)))

/-- The tile core of an idle tile: it takes a pool task, forwards a token that it holds, or lets a tile cycle pass (R29,
R32). -/
def idleTurn (s : State) : Host.Outcome State Fault Refusal :=
  if s.awayChoice.isSome || s.poolChoice.isSome then exec .poolTaskStart (s.mapTile Tile.tick)
  else
    match s.tile.team.bind fun p => (s.findTeam p.1).filter fun k => k.token.pos == p.2 && s.tokenReady k with
    | some k => exec (.tokenForward k.id) (s.mapTile Tile.tick)
    | none => .next (s.mapTile Tile.tick)

/-- One turn of the tile core of the focus. -/
def coreTurn (s : State) : Host.Outcome State Fault Refusal :=
  match s.tile.ending with
  | some e => .next (s.goEnding e)
  | none =>
    if s.tile.stopped && !s.tile.grace then .next ((s.mapTile Tile.tick).goLeave)
    else if s.tile.task.isNone then idleTurn s
    else if s.tile.grace then coreFetch (s.mapTile fun t => { t with grace := false })
    else coreFetch s

/-- One turn of the agent whose turn it is; the agents of a cluster whose clock stands do nothing. -/
def agentTurn (s : State) : Host.Outcome State Fault Refusal :=
  if !s.cluster.ticks then .next s
  else
    match s.turn with
    | .core => coreTurn s
    | .loader => exec (.loaderStorerInstruction .loader) s
    | .storer => exec (.loaderStorerInstruction .storer) s

/-! ## Time (R4, log 4) -/

/-- A time becomes the present. -/
def State.setClock (s : State) (n : Nat) : State :=
  { s with time := BitVec.ofNat 64 (n / clockParts), subtime := n % clockParts }

/-- One tile cycle of a cluster (R4): the period of its clock, which is in units of 25 MHz. -/
def Cluster.period (c : Cluster) : Nat := 4 * clockParts / max c.freq 1

/-- When a tile's next tile cycle begins: at an edge of its cluster's clock, so that the tiles of a cluster keep step. -/
def State.dueAt (s : State) (t : Tile) : Nat :=
  let p := (s.clusters[t.cl.val]).period
  (max t.now s.clock + p - 1) / p * p

/-- The tile whose tile cycle begins next, of those in a cluster whose clock runs: the first in the order of tiles of those
that begin together (R64); the time at which it begins. -/
def State.nextTile (s : State) : Option (TileId × Nat) :=
  ((s.tiles.filter fun t => (s.clusters[t.cl.val]).ticks).map fun t => (t.id, s.dueAt t)).foldl
    (fun (a : Option (TileId × Nat)) p =>
      match a with
      | none => some p
      | some b => if p.2 < b.2 || (p.2 == b.2 && decide (p.1.rank < b.1.rank)) then some p else a) none

/-- The turn goes to the tile whose tile cycle begins next; with every clock standing, a unit of the timestamp passes. -/
def State.goOn (s : State) : State :=
  match s.nextTile with
  | none => { s with time := s.time + 1 }
  | some (i, n) => ({ s with turn := .core } : State).focus i |>.setClock n

/-- Whose turn is next: the tile's loader core, its storer core, where they go on, the core of the next tile. -/
def State.rotate (s : State) : State :=
  let t := s.tile
  let on := s.lsGoes
  match s.turn, t.loader.running && on, t.storer.running && on with
  | .core, true, _ => { s with turn := .loader }
  | .core, false, true => { s with turn := .storer }
  | .loader, _, true => { s with turn := .storer }
  | _, _, _ => s.goOn

/-- The tile-cycle budget is charged for the tile cycles of a resident task, replay cycles among them, but not of a halted
team (R11, R323, R402). -/
def State.chargeCycles (s : State) (team : Option Team) (n : Nat) : State :=
  match team with
  | none => s
  | some k => if k.state == .halted then s else s.charge k.rcb 8 true n

/-- The tile cycles that the focus tile has spent are charged to the region of its task, as it stood before, and put its next
tile cycle off. -/
def State.account (s0 s : State) : State :=
  let t := s.tile
  if t.tc ≤ t.seen then s
  else
    let team := (s0.tileAt t.id).task.bind fun k => s0.findTeam k.team
    let n := t.tc - t.seen
    let due := s.dueAt t + n * s.cluster.period
    (s.chargeCycles team n).mapTile fun t => { t with now := due, seen := t.tc }

/-- A bundle that was issued keeps its cluster out of retention (R436). -/
def State.noteIssue (s0 s : State) : State :=
  if s0.turn == .core && s0.tile.task.isSome && s.tile.wait.isNone && s.tile.stallSince.isNone && !s.tile.stopped then
    s.setCluster { s.cluster with issuedAt := s.time.toNat }
  else s

/-- What a turn leaves beside the agent's own effect: charges, time, the next turn. -/
def afterTurn (s0 s : State) : State := (s0.account (s0.noteIssue s)).rotate

/-- What a step that is no turn leaves: the tile cycles that it took of the focus tile, a replay's (R322) or a served
bundle's (R25), are charged and put its turn off. -/
def afterEvent (s0 s : State) : State :=
  let u := s0.account s
  if u.tile.seen = s.tile.seen || u.turn != .core then u else u.goOn

end Sys2Proof.Machine
end

