-- ==== Sys2Proof/Machine/Events.lean ====
section
/-! DEFINITION. The internal steps that are due, in a fixed order (log 6): those of the focus tile, of its traffic, of teams
and barriers, of dispatch, records and graphs, of translation, the debugger and partitions, of Kiln. Each is a step of the
opcode table, taken once its condition holds; none of them waits for a turn. And what one step of the machine is: an input
that has arrived, an internal step that is due, or a turn of an agent (log 4, log 5). -/

namespace Sys2Proof

/-- Whether a constructor is a step of the opcode table that no core fetches: no encoding holds it (log 5). -/
def Instr.isEvent (i : Instr) : Bool := (encode i).isNone

/-- The cluster at which an input arrives (R436). -/
def Instr.target (i : Instr) : Option ClusterNo :=
  match i with
  | .apertureWrite c _ _ _ => some c
  | .telemetryClear c => some c
  | .registerWrite (.kctl c) _ => some c
  | .peerAccessArrive _ (.put _ c _ _) => some c
  | _ => none

end Sys2Proof

namespace Sys2Proof.Machine

/-- The outcome of a step. -/
abbrev Out := Host.Outcome State Fault Refusal

/-- The first of a list of choices that is there. -/
def firstOut : List (Unit → Option Out) → Option Out
  | [] => none
  | f :: l =>
    match f () with
    | some o => some o
    | none => firstOut l

/-- A step where its condition holds. -/
def due (b : Bool) (o : Unit → Out) : Option Out := if b then some (o ()) else none

/-- A step for the first item of a list that it is due for. -/
def dueFor {α : Type} (l : List α) (p : α → Bool) (o : α → Out) : Option Out :=
  match l.find? p with
  | some x => some (o x)
  | none => none

/-! ## The focus tile -/

/-- Results, drain entries, remote rows, counted operations and fills that are due (R225, R83, R88, R315, R319). -/
def landings (s : State) : Option Out :=
  let t := s.tile
  firstOut [
    fun _ => due (t.flights.any fun f => f.due ≤ t.tc) fun _ => execResultLand s,
    fun _ => dueFor (List.finRange 8)
      (fun q => (t.queues[q.val]).any fun e => !e.arrived && e.remote.isNone && decide (e.due ≤ t.tc))
      fun q => execDrainEntryArrive q s,
    fun _ => dueFor (List.finRange 2)
      (fun e => (t.queues.toList.any fun q => q.any fun x => x.lands e t) || (t.mat.land[e.val]).any fun x => x.lands t)
      fun e => execRemoteRowLand e s,
    fun _ => due (t.ops.any fun o => o.due ≤ t.tc) fun _ => execOperationComplete s,
    fun _ => due (t.fills.any fun f => f.due ≤ t.tc) fun _ => execWindowFillReturn s ]

/-- The steps of a speculation (R147, R148, R156-R158). -/
def specSteps (s : State) : Option Out :=
  let t := s.tile
  firstOut [
    fun _ => dueFor (List.finRange 8)
      (fun b => ((t.rings[b.val]).hist.head?).any (fun h => decide (h.2 ≤ t.tc)) && (s.historyPrep b).goes s) fun b => execHistoryCopyComplete b s,
    fun _ => due (t.spec.any fun p =>
        p.ring.any (fun n => (s.shadowPrep n).goes s) && !p.shadowDone && decide (p.shadowDue ≤ t.tc)) fun _ =>
      execShadowWriteComplete s,
    fun _ => due (t.spec.any fun p =>
        p.ring.any (fun n => (s.comparePrep p n).goes s) && p.published && p.shadowDone && p.verdict.isNone
          && decide (p.cmpDue ≤ t.tc)) fun _ =>
      execToleranceCompare s,
    fun _ => due (t.spec.any fun p => p.verdict == some false) fun _ => execSpecSquash s,
    fun _ => due (match t.releasing with
      | some r => (s.releaseNext r).isSome
      | none => t.spec.any Spec.commits) fun _ => execSpecCommit s ]

/-- The steps of copy channels (R296). -/
def copySteps (s : State) : Option Out :=
  let t := s.tile
  firstOut [
    fun _ => dueFor (List.finRange 4)
      (fun c => ((t.chans[c.val]).jobs.head?).any fun j => j.fired && decide (j.due ≤ t.tc) && s.copyEnds c j) fun c =>
        execCopyJobComplete c s,
    fun _ => dueFor (List.finRange 4) (fun c => !(t.chans[c.val]).jobs.isEmpty && (s.fireCopy c).isSome) fun c =>
      execCopyJobFire c s ]

/-- Waits and stalls that have lasted too long (R35, R400). -/
def limits (s : State) : Option Out :=
  firstOut [
    fun _ => due s.watchdogDue fun _ => execWatchdog s,
    fun _ => due (s.tile.wait.isSome && s.waitedLong.isSome) fun _ => execWaitSwap s ]

/-- The steps of the focus tile: they need its cluster's clock. -/
def tileSteps (s : State) : Option Out :=
  if !s.cluster.ticks then none
  else firstOut [fun _ => landings s, fun _ => specSteps s, fun _ => copySteps s, fun _ => limits s]

/-! ## Traffic, teams, barriers -/

/-- The semaphores that a cluster's waiters wait on. -/
def Cluster.wanted (c : Cluster) : List SemNo := c.waiters.flatMap fun w => w.takes.map (·.1)

/-- A waiter of a running cluster that can be served: its cluster and semaphore (R25). -/
def State.served (s : State) (c : ClusterNo) : Option SemNo :=
  let x := s.clusters[c.val]
  if x.waiters.isEmpty || !x.ticks then none else x.wanted.find? fun k => (s.servable c k).isSome

/-- A chunk of a collective that may land (R305). -/
def State.landable (s : State) (c : Coll) : Option (Fin 16) := (List.finRange 16).find? fun k => s.chunkReady k c

/-- Waiters, puts, rows, collectives (R25, R303, R301, R305, R416). -/
def trafficSteps (s : State) : Option Out :=
  firstOut [
    fun _ =>
      match (List.finRange 48).findSome? fun c => (s.served c).map fun k => (c, k) with
      | some (c, k) => some (execSemWaitServed c k s)
      | none => none,
    fun _ => due (!s.puts.isEmpty && (s.nextPut false).isSome) fun _ => execPutcArrive s,
    fun _ => due (!s.rows.isEmpty && (s.nextRow false).isSome) fun _ => execCircuitRowArrive s,
    fun _ => due ((!s.rows.isEmpty && (s.nextRow true).isSome) || (!s.puts.isEmpty && (s.nextPut true).isSome)
        || (!s.colls.isEmpty && s.nextJoin.isSome)) fun _ => execNakResend s,
    fun _ => dueFor s.colls s.doomed fun c => execCollectiveAbort c.gid false s,
    fun _ =>
      match s.colls.findSome? fun c => (s.landable c).map fun k => (c.gid, k) with
      | some (g, k) => some (execGredChunkLand g k s)
      | none => none ]

/-- Swapped teams that become ready, courses that are released (R36, R365). -/
def teamSteps (s : State) : Option Out :=
  firstOut [
    fun _ => dueFor s.teams s.nowReady fun k => execSwapTriggerSatisfied k.id s,
    fun _ => dueFor (List.finRange 20) (fun p => !(s.parts[p.val]).releases.isEmpty && (s.releaseDue p).isSome) fun p =>
      execCourseRelease p s ]

/-! ## Dispatch, records, graphs -/

/-- The next slot of a die, if it can go on. -/
def State.slotStep (s : State) (d : DieNo) : Option Out :=
  match s.nextSlot d with
  | none => none
  | some i =>
    if (s.bindStep d i).isSome then some (execBindTeam d i s)
    else if (s.returnStep d i).isSome then some (execBindReturn d i s)
    else none

/-- The step that a node of a record can take (R366, R368). -/
def State.nodeStep (s : State) (r : Rec) (k : Fin 4096) : Option Out :=
  let x := r.node k.val
  if (x.state == .running && x.ended.isSome) || (x.state == .body && x.kind == 5 && r.failed.isNone && r.bodyDone k.val) then
    some (execNodeComplete r.id k s)
  else if r.loopDue k.val then some (execLoopEvaluate r.id k s)
  else if r.nodeReady k.val then some (if x.kind = 5 then execCondEvaluate r.id k s else execNodeStart r.id k s)
  else none

/-- The step that a record can take (R354, R355). -/
def State.recStep (s : State) (r : Rec) : Option Out :=
  match r.state with
  | .ended _ => some (execRecordComplete r.id s)
  | .waiting => if ((startable (s.recsOf r.fn r.q)).any fun x => x.id == r.id) then some (execRecordStart r.fn r.q s) else none
  | .running => (List.range r.nodes.length).findSome? fun k => s.nodeStep r (Fin.ofNat 4096 k)

/-- The end of a teardown (R371). -/
def State.tearEnd (s : State) (t : Teardown) : Option Out :=
  if !s.torn t then none
  else if t.reset then some (execQueueReset t.fn t.q t.abort s)
  else if t.abort then some (execQueueAbort t.fn t.q s)
  else some (execQueueTeardown t.fn t.q s)

/-- Bind slots, records, teardowns. -/
def launchSteps (s : State) : Option Out :=
  firstOut [
    fun _ => s.records.findSome? s.recStep,
    fun _ => s.tearing.findSome? s.tearEnd,
    fun _ => (List.finRange 4).findSome? s.slotStep ]

/-! ## Translation, debugger, partitions, attestation -/

/-- Invalidations, halts, partitions' changes, attestation reports (R382, R403, R442, R449). -/
def windowSteps (s : State) : Option Out :=
  firstOut [
    fun _ => dueFor (List.finRange 20) (fun p => (s.parts[p.val]).inv.isSome && (s.invDue p).isSome) fun p =>
      execTlbInvalidationComplete p s,
    fun _ => dueFor (List.finRange 4) (fun d => (s.dies[d.val]).haltBusy && (s.haltStep d).isSome) fun d =>
      execHaltComplete d s,
    fun _ => dueFor (List.finRange 20) s.applyDue fun p => execPartitionApply p s,
    fun _ => due s.attest.busy fun _ => execAttestationComplete s ]

/-! ## Kiln -/

/-- The step that a cluster's clock or power can take (R430-R438). -/
def State.clockStep (s : State) (c : ClusterNo) : Option Out :=
  let x := s.clusters[c.val]
  match x.state with
  | .hopping =>
    match x.hop with
    | some h => if (s.landsAt c h).isSome then some (execFrequencyHop c (Fin.ofNat 128 h.new) s) else none
    | none => none
  | .calibrating =>
    if s.slotPending c then (if x.stuckCal s.time.toNat then none else some (execCalibrationPreempt c s))
    else if x.calHop.isSome && x.waits s.time.toNat then none
    else some (execCalibration c s)
  | .retention =>
    if s.granted c then some (execRetentionWake c false s)
    else if x.router == .down && s.callers c then some (execRouterWake c s)
    else none
  | .off => if x.router == .down && s.callers c then some (execRouterWake c s) else none
  | .running | .quarantine =>
    if x.router != .up then some (execRouterWake c s)
    else if (s.forcedHop c).isSome then some (execFrequencyHop c (Fin.ofNat 128 ((s.forcedHop c).getD 0)) s)
    else if x.retry.isSome && (s.retryDue c).isSome then some (execHopRetry c s)
    else if !x.replayLog.isEmpty && s.replaysHigh c then some (execReplayRateRaise c s)
    else none

/-- The step that a cluster can take (R430-R438): Kiln lowers DRIFT whatever the cluster does (R432). -/
def State.clusterStep (s : State) (c : ClusterNo) : Option Out :=
  match s.clockStep c with
  | some o => some o
  | none => if (s.clusters[c.val]).decays s.time.toNat then some (execDriftDecay c s) else none

/-- Whether Kiln raises lowered clusters now (R439). -/
def State.restoreDue (s : State) : Bool := s.cool && s.clusters.toList.any s.mayRaise

/-- Whether Kiln lowers clusters now (R439). -/
def State.throttleDue (s : State) : Bool :=
  s.clusters.toList.any s.tooMuch && !s.power.throttleAt.any fun t => s.time.toNat < t + throttleEvery

/-- Kiln's steps and the in-rush arbiter's. -/
def kilnSteps (s : State) : Option Out :=
  firstOut [
    fun _ => due (!s.power.inrush.isEmpty && s.grantDue.isSome) fun _ => execPowerUpGrant s,
    fun _ => (List.finRange 48).findSome? s.clusterStep,
    fun _ => (List.finRange 48).findSome? fun c =>
      if (s.clusters[c.val]).errLog.isEmpty then none else (s.worn c).map fun t => execSpareTileTakeover c t s,
    fun _ => due s.throttleDue fun _ => execPowerThrottle s,
    fun _ => due s.restoreDue fun _ => execPowerRestore s ]

/-- The internal step that is due, if any. -/
def internal (s : State) : Option Out :=
  firstOut [
    fun _ => tileSteps s, fun _ => trafficSteps s, fun _ => teamSteps s, fun _ => launchSteps s, fun _ => windowSteps s,
    fun _ => kilnSteps s ]

/-! ## One step -/

/-- A turn and what it leaves. -/
def turnStep (s : State) : Host.Outcome State Fault Refusal :=
  match agentTurn s with
  | .next t => .next (afterTurn s t)
  | .fault f => .fault f
  | .refused r => .refused r

/-- The step of a machine without power: only a module reset brings it back. -/
def darkStep (s : State) : Host.Outcome State Fault Refusal :=
  match s.agenda with
  | [] => .fault .poweredOff
  | .moduleReset :: l => exec .moduleReset { s with agenda := l }
  | _ :: l => .next { s with agenda := l }

/-- A remote entry comes some tile cycles later; that of a null beat shows it in lane 0 (R88, R284). -/
def QEntry.later (x : QEntry) (n : Nat) : QEntry :=
  let due := x.due + n
  match x.sent with
  | none => { x with due := due }
  | some t0 => { x with due := due, cells := x.cells.set 0 (BitVec.ofNat 32 (min (due - t0) (2 ^ 31 - 1))) }

/-- The rows that an engine still owes a tile come some tile cycles later (R88). -/
def Tile.later (t : Tile) (e : Fin 2) (n : Nat) : Tile :=
  let entry := fun (x : QEntry) => if x.remote == some e && !x.arrived then x.later n else x
  let row := fun (x : LandRow) => if x.arrived then x else { x with due := x.due + n }
  { t with
    queues := t.queues.map fun q => q.map entry
    mat := { t.mat with land := t.mat.land.set e.val ((t.mat.land[e.val]).map row) } }

/-- One thing comes upon the package (R50, R80, R263, R319, R361, R413, R416, R429, R439). -/
def State.strike (s : State) (x : Ambient) : State :=
  let put := fun (m : BitVec 64) (r : Fin 64) (bad : Bool) => if bad then m ||| (1#64 <<< r.val) else m &&& ~~~(1#64 <<< r.val)
  match x with
  | .row i r bad => let t := s.tileAt i; s.setTile { t with badRows := put t.badRows r bad }
  | .acc i r bad => let t := s.tileAt i; s.setTile { t with badAcc := put t.badAcc r bad }
  | .byte k bad => { s with bad := (if bad then [k] else []) ++ s.bad.filter fun y => y != k }
  | .temp c v => s.mapCluster c fun y =>
    let y := { y with temp := v }
    if y.ticks then y.retune else y
  | .watts n => { s with power := ({ s.power with watts := n } : Power).judge s.time.toNat }
  | .steal c ok => s.mapCluster c fun y => { y with steal := ok }
  | .jam c full => s.mapCluster c fun y => { y with jam := full }
  | .weight d i b => s.mapDie d fun y => y.writeWeight i b
  | .refuse i code => { s with refused := s.refused ++ [(i, code)] }
  | .late i e n => let t := s.tileAt i; s.setTile (t.later e n)
  | .slice c off b => { s with mem := s.mem.set (sliceKey c off.val) b }
  | .flit l => { s with links := s.links.set l.val (s.links[l.val]).retry }
  | .mgmt d m => s.mapDie d fun y => { y with mgmt := m }
  | .mgmtRun d => s.mgmtStep d
  | .coreReset d on => s.coreReset d on
  | .fill i n => let t := s.tileAt i; s.setTile { t with fills := t.fills.map fun f => f.returnIn t.tc n }

/-- What the next such thing that is due leaves (log 48). -/
def State.ambientDue (s : State) : Option State :=
  match s.ambient with
  | [] => none
  | (t, x) :: l => if t ≤ s.time.toNat then some (({ s with ambient := l } : State).strike x) else none

/-- A step that is no turn and what it leaves. -/
def settled (s : State) (o : Out) : Out :=
  match o with
  | .next t => .next (afterEvent s t)
  | .fault f => .fault f
  | .refused r => .refused r

/-- An internal step that is due, or else a turn. -/
def goAhead (s : State) : Out :=
  match internal s with
  | some o => settled s o
  | none => turnStep s

/-- An input that waits before a cluster wakes it (R436), or, where the cluster is off, only the router that is down (R438). -/
def State.callAt (s : State) (c : ClusterNo) : State := if (s.clusters[c.val]).state == .off then s.wakeRouters [c] else s.knock c

/-- One step. What is due to come upon the package comes first. An input stands at the head of the agenda; one at a cluster that lets
nothing in waits there (R431, R436, R438), and one that it lets in passes its router; an item that is no step of the opcode table but an instruction is dropped (log 5). -/
def oneStep (s : State) : Host.Outcome State Fault Refusal :=
  if !s.powered then darkStep s
  else
    match s.ambientDue, s.agenda with
    | some u, _ => .next u
    | none, i :: l =>
      match i.target.filter fun c => !(s.clusters[c.val]).lets with
      | some c => goAhead (s.callAt c)
      | none => if i.isEvent then settled s (exec i (({ s with agenda := l } : State).noteFlits i.target.toList)) else .next { s with agenda := l }
    | none, [] => goAhead s

end Sys2Proof.Machine
end

