-- ==== Sys2Proof/Machine/Step.lean ====
section
/-! DEFINITION. One step of the machine, and how one instruction is placed where the next step fetches it (log 1). -/

namespace Sys2Proof.Machine

/-- One step (log 4, log 5, log 6). -/
def step (s : State) : Host.Outcome State Fault Refusal := oneStep s

/-- One instruction at the program counter of a task on a running cluster, or, for an instruction of a loader or storer
core, at the pc of a running loader whose turn it is; the word after it begins a bundle. -/
def State.withFetchWord (s : State) (nbits w : Nat) : State :=
  let running := { s with
    clusters := s.clusters.set s.tile.cl.val { s.cluster with state := .running }, powered := true, agenda := [], ambient := [] }
  let vl :=
    match decodeTableWord nbits w with
    | some i => (encodeVl i).isSome
    | none => false
  if vl then
    let c := { s.tile.loader with running := true, fault := none, hold := 0 }
    let team := s.tile.team.filter fun p => !(s.findTeam p.1).any fun k => k.state == .halted
    { running with
      mem := s.mem.putNum (lsKey s.tile.cl s.tile.tn false c.pc.toNat) w 4
      turn := .loader
      tile := { s.tile with loader := c, stopped := false, team := team } }
  else
    let task := s.tile.task.getD { team := 0, ltile := 0 }
    { running with
      mem := (s.mem.putNum (codeKey s.tile.pc) w 4).putNum (codeKey (s.tile.pc + 4)) 0xD0000000 4
      turn := .core
      tile := { s.tile with task := some task, stopped := false, ending := none } }

end Sys2Proof.Machine
end

