-- ==== Sys2Proof/Safety.lean ====
section
/-! DEFINITION. The terms in which claims speak of a run: when a bundle of one instruction issues, what it leaves, memory in
canonical form. -/

namespace Sys2Proof

open Machine

/-- The memory of a state keeps its canonical form. -/
def Safe (s : State) : Prop := s.mem.wf = true

/-- Nothing stands before the bundle of an instruction: no held effects to release (R157), no breakpoint or single step (R402),
no fault of the loader or storer (R391), no pending engine error that it meets (R288), the privilege it needs (R192), no
deferred fault and no resolution stall (R154), no source outstanding (R314). -/
structure Ready (s : State) (i : Instr) : Prop where
  released : s.tile.releasing = none
  unbroken : s.tile.dbgctl.getLsbD 1 = false ∨ s.tile.dbgbp.toNat ≠ s.tile.pc
  unstepped : s.tile.dbgctl.getLsbD 0 = false ∨ s.tile.priv = true
  loader : s.tile.loader.fault = none
  storer : s.tile.storer.fault = none
  engine : s.tile.engerr.getLsbD 63 = true → (slotOf i).meets s = false
  allowed : (slotOf i).priv = true → s.tile.priv = true
  resolved : ∀ p, s.tile.spec = some p → p.fault = none ∧ (slotOf i).resolves s.tile = false
  present : ∀ w, w ∈ (slotOf i).reads s.tile → s.tile.outstanding w = false

/-- Nothing stands before the bundle of an instruction, and it reads no grid row whose parity is in error (R50). -/
structure Clear (s : State) (i : Instr) : Prop extends Ready s i where
  sound : ∀ w, w ∈ (slotOf i).reads s.tile → s.tile.spoilt w = false

/-- A bundle of one word has issued at s; u is what its slot has left, fx what it asks of the bundle's end: SCALEST (R228),
the control-window registers that take effect now (R214), the program counter (R187, R199), the tile cycles, those of a taken branch
without issue being stretch (R201, R320, R322, log 24). -/
def Machine.State.moved (s u : State) (fx : Fx := {}) : State :=
  u.mapTile fun t =>
    let v := (fx.wire (t.endScale fx.scx)).settle
    { v with
      pc := fx.next s.tile.pc 1, tc := s.tile.tc + issueCost s.tile.reissue fx.branch.isSome
      stretch := if fx.branch.isSome then v.stretch + 2 else v.stretch }

/-- The instruction completes with the effect u, and the task goes on behind it or where it branches. -/
def Does (s : State) (i : Instr) (u : State) (fx : Fx := {}) : Prop := exec i s = .next (s.moved u fx)

/-- What a slot sees when its instruction stands alone. -/
abbrev Machine.State.alone (s : State) : Ctx := ⟨s, 0, s.tile.pc⟩

/-- The instruction writes v to the scalar register d and nothing else (R217). -/
def SetsReg (s : State) (i : Instr) (d : SReg) (v : Word) : Prop :=
  Clear s i → Does s i (s.mapTile fun t => t.write (.sreg d) v)

/-- The instruction writes v to the predicate p and nothing else (R220, R221). -/
def SetsPred (s : State) (i : Instr) (p : PReg) (v : Bool) : Prop :=
  Clear s i → Does s i (s.mapTile fun t => t.write (.pred p) (boolWord v))

/-- The instruction writes a scalar register, then a predicate (R307 to R312). -/
def SetsBoth (s : State) (i : Instr) (d : SReg) (v : Word) (p : PReg) (b : Bool) : Prop :=
  Clear s i → Does s i (s.mapTile fun t => (t.write (.sreg d) v).write (.pred p) (boolWord b))

/-- The instruction branches to a word or a block (R199), its other effect being u. -/
def Goes (s : State) (i : Instr) (u : State) (block : Bool) (a : Nat) : Prop :=
  Clear s i → Does s i u { branch := some (block, a) }

/-- The instruction sends row v under a tag to the grid operand d, its cells after lat tile cycles (R224, R225). -/
def SendsRow (s : State) (i : Instr) (d : GridOp) (tag : Nat) (v : Row) (lat : Nat) : Prop :=
  Clear s i → s.tile.dstOk d tag = .ok () → Does s i (s.mapTile fun t => t.putRow s.tile d tag v lat)

/-- The instruction changes the focus tile only. -/
def Turns (s : State) (i : Instr) (f : Tile → Tile) : Prop := Clear s i → Does s i (s.mapTile f)

/-- The memory slot is free (R248), and an access of the tile core to some byte ranges passes its checks from step 4 of R247
on and meets no wait, leaving u. -/
def Machine.State.lets (s : State) (write : Bool) (ranges : List (Nat × Nat)) (u : State) : Prop :=
  s.tile.busy ≤ s.tile.tc ∧ memPrep s s write ranges = .ok u

/-- What a load leaves: the slice lines of its ranges in the stable view (R119), its results in flight, counted until they
land (R315). -/
def Machine.State.loading (u : State) (ranges : List (Nat × Nat)) (due : Nat) (l : State → List (Site × Option Word)) :
    State :=
  (u.touchAll ranges).mapTile fun t => (t.fly { due := due, isLoad := true, writes := l (u.touchAll ranges) }).count .ld

/-- What stores leave outside speculation: performed in order, counted until a tile cycle (R56, R315). -/
def Machine.State.storing (u : State) (l : List (Nat × List Byte)) (due : Nat) : State :=
  (u.performStores l).mapTile fun t => t.countUntil .st due

/-- The byte ranges of some stores. -/
def rangesOf (l : List (Nat × List Byte)) : List (Nat × Nat) := l.map fun p => (p.1, p.1 + p.2.length)

/-- The data that a slot waits for is there: the window lines that a fill has brought for it, else its time is over (R256, R267,
R319). -/
def Machine.Tile.dataThere (t : Tile) (ranges : List (Nat × Nat) := []) : Prop :=
  (t.filledAll ranges ≠ 0 ∧ t.filledAll ranges ≤ t.tc)
    ∨ (t.filledAll ranges = 0 ∧ t.fillReady ≠ 0 ∧ t.fillReady ≤ t.tc)

/-- What a bundle at s reads of the scratchpad for a beat, v being what its reads so far have left, meets no trap and no wait, leaving u
(R61, R69, R70, R263). -/
def Machine.State.reads (s v : State) (l : List (Nat × Nat)) (u : State) : Prop :=
  linePrep .core s v false l = .ok u ∧ (l.findSome? fun p => s.badLocal .core p.1 p.2) = none

/-- The stores of the tile that a boundary waits for have been performed, none of them was lost, and no line of the mask is
dirty (R124, R135). -/
def Machine.State.calm (s : State) (mask : Nat) : Prop :=
  s.tile.storesPending mask = false ∧ (s.tile.peerLost && mask.testBit 3) = false
    ∧ s.writeBacks (s.tile.linesFor mask) = .ok s

/-- What a boundary without a line to write back leaves (R124, R130): the slice stores published, or, without SL in its mask, those
of the core released to the tile's agents; the phase ended. -/
def Machine.State.bounded (s : State) (mask : Nat) (phase : Bool) : State :=
  let u := if mask.testBit 1 then s.publishSlice else if mask.testBit 0 then s.tileRelease else s
  if phase then u.mapTile fun t => t.endPhase mask else u

end Sys2Proof
end

