-- ==== Sys2Proof/WellFormed.lean ====
section
/-! DEFINITION. The well-formed instructions: the operand values that an encoding of the spec can carry. -/

namespace Sys2Proof

/-- A signed immediate of an n-bit IMM field, alone or under EXT (R181). -/
def immSOk (n : Nat) (i : Int) : Bool := decide (-(2 ^ (n + 26)) ≤ i) && decide (i < 2 ^ (n + 26))

/-- An unsigned immediate of an n-bit IMM field, alone or under EXT (R181). -/
def immUOk (n i : Nat) : Bool := decide (i < 2 ^ (n + 27))

/-- The immediate of CMPI (R220). -/
def immCOk (cc : IntCC) (n : Nat) (i : Int) : Bool :=
  match cc with
  | .ltu | .geu => decide (0 ≤ i) && immUOk n i.toNat
  | .eq | .ne | .lt | .ge => immSOk n i

/-- An immediate beside a grid field: a header lends EXT or a high index bit, not both (R180, R181). -/
def immGridOk (idx : Fin 64) (i : Int) : Bool :=
  immSOk 10 i && (decide (idx.val < 32) || (immExtS 10 i).isNone)

/-- The count of SEMW and SEMS: CNT, or a register when CNT is 0 (R206). -/
def cntOk (cnt : Fin 256) (a : SReg) : Bool := a == 0 || cnt == 0

/-- Whether an encoding of the spec carries these operands. Steps without an encoding are unrestricted. -/
def Instr.wf (i : Instr) : Bool :=
  match i with
  | .brp _ imm | .brnp _ imm | .jmpWord imm | .jmpBlock imm | .jmpi _ imm | .callb _ imm | .loopb imm
  | .lsetPass _ imm | .lsetFeed _ imm => immSOk 13 imm
  | .lsetRrb imm | .lsetStg imm => immUOk 13 imm
  | .semw _ cnt a | .sems _ cnt a => cntOk cnt a
  | .semt _ cnt _ => cnt != 0
  | .trap imm => immUOk 22 imm
  | .addi _ _ imm | .andi _ _ imm => immSOk 12 imm
  | .ori _ _ imm | .xori _ _ imm => immUOk 12 imm
  | .shli _ _ imm | .shri _ _ imm | .sari _ _ imm => decide (imm < 64)
  | .cmpi cc _ _ imm => immCOk cc 10 imm
  | .li _ imm => immSOk 17 imm
  | .cvt d _ _ t => cvtOk d t.val
  | .scsel _ a fuse _ b _ => fuse || (a == ⟨.h, 0⟩ && !b)
  | .tag _ _ t | .vbcst _ _ t => t != 12
  | .spk _ _ n | .spx _ _ n => spOk n.val
  | .lds _ _ _ imm | .sts _ _ _ imm => immSOk 10 imm
  | .ldv d _ imm | .stv d _ imm | .stbp d _ imm | .ldbp d _ imm => immGridOk d.idx imm
  | .ldtt d _ imm => immGridOk d imm
  | .bufpub _ a k | .buffree _ a k => a == 0 || k == 0
  | .acas d _ _ _ _ _ => d != 31
  | .cpnest _ l _ _ _ => decide (l.val < 6)
  | .cpfoot _ k _ _ => decide (k.val < 2)
  | _ => true

end Sys2Proof
end

