-- ==== Sys2Proof/Certificates/Slice0/Obligations.lean ====
section
/-! DEFINITION. The statements about the machine, each from the rules of spec/ that its docstring names. -/

open Sys2Proof

open Sys2Proof.Machine

/-! ## The scalar slot -/

/-- R217, R218, R219: the sums, products and addresses that scalar arithmetic writes, at the end of its bundle. R217:
what scalar logic and shifts write; a shift amount is taken modulo 64. R217: minimum, maximum, selection by a
predicate, and the counts of leading zeros and of 1 bits. -/
def Obligations.ScalarResults : Prop :=
  (∀ (s : State) (d a b : SReg),
    let x := s.tile.sreg a
    let y := s.tile.sreg b
    SetsReg s (.add d a b) d (x + y) ∧ SetsReg s (.sub d a b) d (x - y) ∧ SetsReg s (.mul d a b) d (x * y)
    ∧ SetsReg s (.mulh d a b) d (BitVec.ofInt 64 (x.toInt * y.toInt / 2 ^ 64))
    ∧ SetsReg s (.mulhu d a b) d (BitVec.ofNat 64 (x.toNat * y.toNat / 2 ^ 64))
    ∧ (∀ (k : Fin 8) (n : Fin 16),
        SetsReg s (.lea d a b k n) d (x + y <<< k.val + BitVec.ofNat 64 (n.val * 2 ^ k.val)))
    ∧ (∀ imm : Int, SetsReg s (.addi d a imm) d (x + BitVec.ofInt 64 imm) ∧ SetsReg s (.li d imm) d (BitVec.ofInt 64 imm)))
  ∧ (∀ (s : State) (d a b : SReg),
    let x := s.tile.sreg a
    let y := s.tile.sreg b
    SetsReg s (.and d a b) d (x &&& y) ∧ SetsReg s (.or d a b) d (x ||| y) ∧ SetsReg s (.xor d a b) d (x ^^^ y)
    ∧ SetsReg s (.shl d a b) d (x <<< (y.toNat % 64)) ∧ SetsReg s (.shr d a b) d (x >>> (y.toNat % 64))
    ∧ SetsReg s (.sar d a b) d (x.sshiftRight (y.toNat % 64))
    ∧ (∀ imm : Int, SetsReg s (.andi d a imm) d (x &&& BitVec.ofInt 64 imm))
    ∧ ∀ n : Nat, SetsReg s (.ori d a n) d (x ||| BitVec.ofNat 64 n) ∧ SetsReg s (.xori d a n) d (x ^^^ BitVec.ofNat 64 n)
      ∧ SetsReg s (.shli d a n) d (x <<< (n % 64)) ∧ SetsReg s (.shri d a n) d (x >>> (n % 64))
      ∧ SetsReg s (.sari d a n) d (x.sshiftRight (n % 64)))
  ∧ (∀ (s : State) (d a b : SReg) (n : PReg),
    let x := s.tile.sreg a
    let y := s.tile.sreg b
    SetsReg s (.min d a b) d (if x.toInt < y.toInt then x else y)
    ∧ SetsReg s (.max d a b) d (if x.toInt < y.toInt then y else x)
    ∧ SetsReg s (.minu d a b) d (if x.toNat < y.toNat then x else y)
    ∧ SetsReg s (.maxu d a b) d (if x.toNat < y.toNat then y else x)
    ∧ SetsReg s (.sel d a b n) d (if s.tile.pred n then x else y)
    ∧ SetsReg s (.clz d a) d (BitVec.ofNat 64 (if x = 0 then 64 else 63 - Nat.log2 x.toNat))
    ∧ SetsReg s (.popc d a) d (BitVec.ofNat 64 ((List.range 64).countP fun i => x.getLsbD i)))

/-- R220, R221: what comparisons and predicate instructions write to a predicate. -/
def Obligations.Predicates : Prop := ∀ (s : State) (p q r : PReg) (a b : SReg) (cc : IntCC) (imm : Int),
  let x := s.tile.sreg a
  let y := s.tile.sreg b
  let holds := fun (c : IntCC) (y : Word) =>
    match c with
    | .eq => decide (x = y)
    | .ne => decide (x ≠ y)
    | .lt => decide (x.toInt < y.toInt)
    | .ge => decide (y.toInt ≤ x.toInt)
    | .ltu => decide (x.toNat < y.toNat)
    | .geu => decide (y.toNat ≤ x.toNat)
  SetsPred s (.cmp cc p a b) p (holds cc y) ∧ SetsPred s (.cmpi cc p a imm) p (holds cc (BitVec.ofInt 64 imm))
  ∧ SetsPred s (.pand p q r) p (s.tile.pred q && s.tile.pred r) ∧ SetsPred s (.por p q r) p (s.tile.pred q || s.tile.pred r)
  ∧ SetsPred s (.pnot p q) p (!s.tile.pred q) ∧ SetsPred s (.pmov p q) p (s.tile.pred q)

/-- R51, R178: what an instruction with a scalar or predicate destination leaves. The instructions are those of
ScalarResults and of Predicates: the destination holds its value, or, being s0, reads 0, or, being p0, true; every other
register and predicate, the grid, the array, the special registers and every byte of memory stay; the task goes on at the
next word. An instruction that changes its tile alone leaves every byte of memory, every other tile, and every semaphore
and monitor. -/
def Obligations.ScalarFrame : Prop :=
  (∀ (s t : State) (i : Instr) (d : SReg) (v : Word), Clear s i → SetsReg s i d v → exec i s = .next t →
    t.tile.sreg d = (if d = 0 then 0 else v) ∧ (∀ r, r ≠ d → t.tile.sreg r = s.tile.sreg r)
    ∧ (∀ p, t.tile.pred p = s.tile.pred p) ∧ t.tile.pc = s.tile.pc + 4
    ∧ t.tile.grid = s.tile.grid ∧ t.tile.tags = s.tile.tags ∧ t.tile.lcr = s.tile.lcr ∧ t.tile.bmr = s.tile.bmr
    ∧ t.tile.mat = s.tile.mat ∧ t.tile.handles = s.tile.handles ∧ t.tile.queues = s.tile.queues
    ∧ t.tile.maps = s.tile.maps ∧ t.tile.rings = s.tile.rings ∧ t.tile.pass = s.tile.pass ∧ t.tile.feed = s.tile.feed
    ∧ t.tile.rrb = s.tile.rrb ∧ t.tile.priv = s.tile.priv ∧ t.tile.tepc = s.tile.tepc ∧ t.tile.trapst = s.tile.trapst
    ∧ t.tile.trapval = s.tile.trapval ∧ t.tile.tscr = s.tile.tscr ∧ t.tile.engerr = s.tile.engerr
    ∧ t.clusters = s.clusters ∧ t.others = s.others ∧ t.teams = s.teams ∧ ∀ k, t.mem.get k = s.mem.get k)
  ∧ (∀ (s t : State) (i : Instr) (p : PReg) (v : Bool), Clear s i → SetsPred s i p v → exec i s = .next t →
    t.tile.pred p = (if p = 0 then true else v) ∧ (∀ q, q ≠ p → t.tile.pred q = s.tile.pred q)
    ∧ (∀ r, t.tile.sreg r = s.tile.sreg r) ∧ t.tile.pc = s.tile.pc + 4 ∧ t.tile.grid = s.tile.grid
    ∧ t.tile.tags = s.tile.tags ∧ t.tile.lcr = s.tile.lcr ∧ t.tile.mat = s.tile.mat ∧ t.tile.handles = s.tile.handles
    ∧ t.tile.queues = s.tile.queues ∧ t.tile.maps = s.tile.maps ∧ t.tile.rings = s.tile.rings
    ∧ t.tile.rrb = s.tile.rrb ∧ t.tile.priv = s.tile.priv ∧ t.tile.tepc = s.tile.tepc ∧ t.tile.trapst = s.tile.trapst
    ∧ t.mem = s.mem)
  ∧ (∀ (s t : State) (i : Instr) (f : Tile → Tile) (fx : Fx), Does s i (s.mapTile f) fx → exec i s = .next t →
    t.clusters = s.clusters ∧ t.others = s.others ∧ t.teams = s.teams ∧ t.dies = s.dies ∧ t.parts = s.parts
    ∧ t.records = s.records ∧ t.puts = s.puts ∧ t.rows = s.rows ∧ ∀ k, t.mem.get k = s.mem.get k)

/-! ## The control slot -/

/-- R199, R187, R201: a branch whose condition fails goes on at the next word; one whose condition holds, and a jump,
goes to a target that begins a bundle, two tile cycles later than the next word would come. R199, R200, R188:
transfers to a block whose descriptor passes its checks; CALLB writes the address of the bundle, rounded down to 64,
plus 64. R187, R188: a branch that is taken, or a jump, to a word that begins no bundle traps BUNDLE_START, a transfer to what
is no descriptor BLOCK_ALIGN, at the branch. That a BRP or BRNP which is not taken looks at no target is the model's choice
(log 17). -/
def Obligations.Branches : Prop :=
  (∀ (s : State) (p : PReg) (a : SReg) (imm : Int),
    let near := pcPlus s.tile.pc (4 * imm)
    (Clear s (.brp p imm) → s.tile.pred p = false → Does s (.brp p imm) s)
    ∧ (Clear s (.brnp p imm) → s.tile.pred p = true → Does s (.brnp p imm) s)
    ∧ (s.wordTarget near = none →
        (s.tile.pred p = true → Goes s (.brp p imm) s false near) ∧ (s.tile.pred p = false → Goes s (.brnp p imm) s false near)
        ∧ Goes s (.jmpWord imm) s false near)
    ∧ (s.wordTarget (s.tile.addr a imm) = none → Goes s (.jmpi a imm) s false (s.tile.addr a imm)))
  ∧ (∀ (s : State) (l : SReg) (imm : Int),
    let here := s.tile.pc / 64 * 64
    let far := pcPlus here (64 * imm)
    let there := (s.tile.sreg l).toNat
    let linked := s.mapTile fun t => t.write (.sreg l) (BitVec.ofNat 64 (here + 64))
    (s.blockTarget far = none → Goes s (.jmpBlock imm) s true far)
    ∧ (linked.blockTarget far = none → Goes s (.callb l imm) linked true far)
    ∧ (s.blockTarget there = none → Goes s (.jmpiB l) s true there ∧ Goes s (.retb l) s true there))
  ∧ (∀ (s : State) (imm : Int) (p : PReg) (a l : SReg),
    let raises := fun (i : Instr) (c : Cause) => Clear s i → exec i s = .next (s.raise s.tile.pc { cause := c, slot := 1 })
    let near := pcPlus s.tile.pc (4 * imm)
    let far := pcPlus (s.tile.pc / 64 * 64) (64 * imm)
    let there := (s.tile.sreg a).toNat
    let noBundle := fun (x : Nat) => x % 4 ≠ 0 ∨ (s.codeWord x).testBit 31 = false
    let noBlock := fun (x : Nat) => isDescriptor x (s.codeWord x) = false
    (noBundle near → raises (.jmpWord imm) .bundleStart ∧ (s.tile.pred p = true → raises (.brp p imm) .bundleStart)
        ∧ (s.tile.pred p = false → raises (.brnp p imm) .bundleStart) ∧ (s.tile.pass ≠ 0 → raises (.loopb imm) .bundleStart))
    ∧ (noBundle (s.tile.addr a imm) → raises (.jmpi a imm) .bundleStart)
    ∧ (noBlock far → raises (.jmpBlock imm) .blockAlign ∧ raises (.callb l imm) .blockAlign)
    ∧ (noBlock there → raises (.jmpiB a) .blockAlign ∧ raises (.retb a) .blockAlign))

/-- R203, R204: LOOPB rotates the stage predicates, lowers RRB, FEED and PASS, and branches while PASS was not 0; LSET
writes a count in range, RRB below 16, or the stage predicates from 8 bits. R204: what LOOPB leaves in the loop
registers: stage predicates 9 to 15 take the one below, 8 takes whether FEED was not 0, RRB falls by one modulo 16,
FEED and PASS fall by one unless they are 0. That a LOOPB with PASS 0 looks at no target (log 17), and that p11 to p15 take
part in the rotation (R51 and R204 against the program of R351, log 52), are the model's choices. -/
def Obligations.Loops : Prop :=
  (∀ (s : State) (a : SReg) (imm : Int) (n : Nat),
    let back := s.mapTile fun t => t.loopBack s.tile
    let near := pcPlus s.tile.pc (4 * imm)
    let v := s.tile.addr a imm
    (s.tile.pass = 0 → Clear s (.loopb imm) → Does s (.loopb imm) back)
    ∧ (s.tile.pass ≠ 0 → back.wordTarget near = none → Goes s (.loopb imm) back false near)
    ∧ (v < 2 ^ 32 → Turns s (.lsetPass a imm) (fun t => { t with pass := BitVec.ofNat 32 v })
        ∧ Turns s (.lsetFeed a imm) (fun t => { t with feed := BitVec.ofNat 32 v }))
    ∧ (n < 16 → Turns s (.lsetRrb n) fun t => { t with rrb := Fin.ofNat 16 n })
    ∧ (n < 256 → Turns s (.lsetStg n) fun t => t.setStg n))
  ∧ (∀ t : Tile,
    let u := t.loopBack t
    (∀ k : Fin 7, u.pred (stageP ⟨k.val + 1, by omega⟩) = t.pred (stageP ⟨k.val, by omega⟩))
    ∧ u.pred (stageP 0) = (t.feed != 0) ∧ u.rrb.val = (t.rrb.val + 15) % 16
    ∧ u.feed.toNat = t.feed.toNat - 1 ∧ u.pass.toNat = t.pass.toNat - 1
    ∧ (∀ p : PReg, p.val < 8 → u.pred p = t.pred p))

/-- R205, R159, R39: WAIT with every bounded counter within its bound, PCOMMIT outside speculation, and YIELD of a
task whose team has no rival, go on with no other effect; YIELD of a task whose team has a rival goes on, and asks its
team to leave its tiles. R124, R125, R211: PHASE and FENCE with no store to wait for and no dirty line of the mask
publish the tile's slice stores where the mask names SL, whatever their scope, which is the model's choice (R124 and R127
speak of the agents in scope, log 8); PHASE ends the tile's phase besides. A
mask of 0 names all five classes (R115). R130: one that names SP and not SL shows the core's slice stores to the
tile's other agents. -/
def Obligations.WaitsAndBoundaries : Prop :=
  (∀ (s : State) (ld st cp tl : Fin 32),
    let bound := fun (b : Fin 32) (n : Nat) => b = 31 ∨ (b.val ≤ 24 ∧ n ≤ b.val)
    (bound ld s.tile.cld → bound st s.tile.cst → bound cp s.tile.ccp → bound tl s.tile.ctl →
      Clear s (.wait ld st cp tl) → Does s (.wait ld st cp tl) s)
    ∧ (Clear s .pcommit → Does s .pcommit s)
    ∧ ((∀ k, s.team = some k → s.rivals k = false) → Clear s .yield → Does s .yield s)
    ∧ ∀ k, s.team = some k → s.rivals k = true → Clear s .yield →
        Does s .yield (s.askLeave k .swapRequest none true))
  ∧ (∀ (s : State) (sc : Scope) (m : StMask),
    let mask := if m.val = 0 then 31 else m.val
    s.calm mask → (Clear s (.phase sc m) → Does s (.phase sc m) (s.bounded mask true))
      ∧ (Clear s (.fence sc m) → Does s (.fence sc m) (s.bounded mask false)))

/-- R206 to R208, R123: semaphore instructions on a semaphore of the task's team, outside speculation, with no store
to wait for; the count is the immediate or, from a register other than s0, its value up to 65,535. SEMW of 0 waits for
nothing; SEMW takes its count where it is there and no waiter goes before, and leaves the queue; SEMS adds its count where the sum is at most 65,535; SEMT takes its count and writes 1, or writes 0; the home cluster lets the access in (R431, R436). R206: a semaphore
instruction on a semaphore that the task's team does not hold traps SEM_INDEX at the bundle. -/
def Obligations.Semaphores : Prop :=
  (∀ (s : State) (k : SemNo) (cnt : Fin 256) (a d : SReg),
    let n := if a = 0 then cnt.val else (s.tile.sreg a).toNat
    let bounded := fun (u : State) => u.bounded 3 true
    s.tile.spec = none → s.calm 3 → s.semMine k = true → n ≤ 65535 → s.homeShut = false →
      (n = 0 → Clear s (.semw k cnt a) → Does s (.semw k cnt a) (bounded s))
      ∧ (n ≠ 0 → s.mayTake [(k, n)] = true → Clear s (.semw k cnt a) → Does s (.semw k cnt a)
          (bounded (s.mapHome fun c => (c.takeSems [(k, n)]).leave s.tile.id)))
      ∧ (((bounded s).sem k).val.val + n ≤ 65535 → Clear s (.sems k cnt a) → Does s (.sems k cnt a)
          (((bounded s).mapHome fun c => c.addSem k n).knock (bounded s).homeCl))
      ∧ (s.semtTakes k cnt.val = true → Clear s (.semt k cnt d) → Does s (.semt k cnt d)
          ((bounded (s.mapHome fun c => c.takeSems [(k, cnt.val)])).mapTile fun t => t.write (.sreg d) 1))
      ∧ (s.semtTakes k cnt.val = false → SetsReg s (.semt k cnt d) d 0))
  ∧ (∀ (s : State) (k : SemNo) (n : Fin 256) (a : SReg) (i : Instr),
    i = .semw k n a ∨ i = .sems k n a ∨ i = .semt k n a → s.semMine k = false → Clear s i →
      exec i s = .next (s.raise s.tile.pc { cause := .semIndex, slot := 1 }))

/-- R210, R364, R365: BARA of a participant in state NONE counts its arrival after its boundary; BARW of a released one
goes on in state NONE; BARR does both, its arrival once. -/
def Obligations.Lintel : Prop := ∀ s : State,
  let u := s.bounded 31 true
  let free := u.mapTile fun t => { t with arrival := .none, barr := false }
  s.calm 31 →
    (s.mayArrive = true → Clear s .bara → Does s .bara u.arrive)
    ∧ (s.tile.task.any (·.lintel) = true → s.tile.arrival = .released → Clear s .barw → Does s .barw free)
    ∧ (s.tile.barr = true → s.tile.arrival = .released → Clear s .barr → Does s .barr free)
    ∧ (s.tile.barr = false → s.mayArrive = true → Clear s .barr →
        exec .barr s = .next ((u.arrive.mapTile fun t => { t with barr := true }).holdWait .lintel))

/-- R28, R212, R32: SPAWN outside speculation places the entry in its team's pool, counts it for the spawner's ring
position and writes the pool's length. R21, R213: RETIRE ends the task once its bundle has issued; TRAP raises
TRAP_INSTRUCTION with its immediate, the bundle after it to be resumed. -/
def Obligations.TaskSteps : Prop :=
  (∀ (s : State) (d a b : SReg) (x : Task),
    s.tile.spec = none → s.tile.task = some x → s.poolLen < 64 →
    isDescriptor (s.tile.sreg a).toNat (s.codeWord (s.tile.sreg a).toNat) = true → Clear s (.spawn d a b) →
      Does s (.spawn d a b) ((s.spawn x (s.tile.sreg a) (s.tile.sreg b)).mapTile fun t =>
        t.write (.sreg d) (BitVec.ofNat 64 (s.poolLen + 1))))
  ∧ (∀ (s : State) (imm : Nat),
    (Clear s .retire → exec .retire s = .next ((s.moved s).mapTile fun t => { t with ending := some (.retire s.tile.pc) }))
    ∧ (Clear s (.trap imm) → s.tile.spec = none → exec (.trap imm) s =
        .next ((s.moved s).deliver { cause := .trapInstruction, slot := 1, val := BitVec.ofNat 64 imm, bundle := some s.tile.pc }
          (s.tile.pc + 4))))

/-- R214, R215, R67: in a handler CSRR reads a control-window register, CSRW reads and writes it, TRET leaves the
handler for the bundle at TEPC. R214, R228, R55, R272, R88, R300: SCALEST, SPSWZ, CHOWN, with an owner of 3 stored as 0, the skew
registers and the circuit ends change when the bundle of the CSRW has issued, after what the bundle does to SCALEST; a write
of the setup of a channel that the tile core does not own traps ENGINE_STATE. R192: outside a
handler CSRR, CSRW, TRET, CTXS and CTXL trap PRIVILEGED, whatever else is pending but a breakpoint or a fault of the
loader or storer. -/
def Obligations.Privileged : Prop :=
  (∀ (s : State) (d a : SReg) (n : Fin 4096),
    let v := s.tile.sreg a
    let old := s.mapTile fun t => t.write (.sreg d) (s.csrRead n.val)
    let setup := fun (c : ChNo) => 64 + 16 * c.val ≤ n.val ∧ n.val < 80 + 16 * c.val
    let late := n.val = 4 ∨ n.val = 8 ∨ n.val = 9 ∨ n.val = 16 ∨ n.val = 17 ∨ (128 ≤ n.val ∧ n.val < 192)
    SetsReg s (.csrr d n) d (s.csrRead n.val)
    ∧ (¬late → (∀ c : ChNo, setup c → fld s.tile.chown.toNat (2 * c.val) 2 = 0) →
        Turns s (.csrw d a n) fun t => (t.write (.sreg d) (s.csrRead n.val)).csrWrite n.val v)
    ∧ (late → Clear s (.csrw d a n) → Does s (.csrw d a n) old { wire := fun t => t.csrWrite n.val v })
    ∧ (n.val = 8 → Clear s (.csrw d a n) → Does s (.csrw d a n) old { wire := fun t => { t with spswz := v.setWidth 24 } })
    ∧ (n.val = 9 → Clear s (.csrw d a n) → Does s (.csrw d a n) old { wire := fun t => { t with chown := chownOf v } })
    ∧ (∀ c : ChNo, setup c → fld s.tile.chown.toNat (2 * c.val) 2 ≠ 0 → Clear s (.csrw d a n) →
        exec (.csrw d a n) s = .next (s.raise s.tile.pc { cause := .engineState, slot := 1 }))
    ∧ (s.wordTarget s.tile.tepc.toNat = none →
        Goes s .tret (s.mapTile fun t => { t with priv := false }) false s.tile.tepc.toNat))
  ∧ (∀ (s : State) (d a b : SReg) (n : Fin 4096) (i : Instr),
    i = .csrr d n ∨ i = .csrw d a n ∨ i = .tret ∨ i = .ctxs d a b ∨ i = .ctxl d a b →
    s.tile.priv = false → s.tile.releasing = none → s.tile.dbgctl = 0 → s.tile.loader.fault = none → s.tile.storer.fault = none →
      exec i s = .next (s.raise s.tile.pc { cause := .privileged, slot := 1 }))

/-- R216, R405 to R407: CTXS of a drained tile writes the tile's image, which fits, where its pages are, and its length to D;
CTXL replaces the tile's state by a good image's and writes the image's program counter to D. R50, R80: CTXS of a tile
with a grid row or an accumulator row in error raises GRID_PARITY or ACCUM_PARITY. That CTXS raises those causes (log 48), and the
layout and the CRC of the image (log 13), are the model's choices. R135: stores of CTXS to a device that cannot be reached are
discarded; R420: none of its pages lies on a die that cannot. -/
def Obligations.Contexts : Prop := ∀ (s u w : State) (d a b : SReg) (ps qs : List Page),
  let x := (s.tile.sreg a).toNat
  let n := (s.tile.sreg b).toNat
  let img := s.image []
  let l := w.getPages qs x (imageLen (u.getPages ps x 64))
  x % 64 = 0 → s.tile.drained = true →
    (s.tile.imageTrap = none → img.1.length ≤ n → probeBox img.2 .write x (x + img.1.length) = .ok (u, ps) →
      u.cutPage ps ≠ some .linkDown → Clear s (.ctxs d a b) →
      Does s (.ctxs d a b) ((u.storePages ps x img.1).mapTile fun t => t.write (.sreg d) (BitVec.ofNat 64 img.1.length)))
    ∧ (64 ≤ n → probeBox s .read x (x + 64) = .ok (u, ps) → imageLen (u.getPages ps x 64) ≤ n →
        probeBox u .read x (x + imageLen (u.getPages ps x 64)) = .ok (w, qs) → w.cutPage qs = none → w.badPage qs = none →
        imageOk l = true → Clear s (.ctxl d a b) → 
        let v := (w.reloadAll l).mapTile fun t => t.write (.sreg d) (BitVec.ofNat 64 (ctlWord l 0))
        let y := v.tile
        Does s (.ctxl d a b)
          (v.mapTile fun t => { t with spswz := s.tile.spswz, chown := s.tile.chown, skew := s.tile.skew, ends := s.tile.ends })
          { wire := fun t =>
              { t with spswz := y.spswz, chown := y.chown, skew := y.skew, ends := y.ends, pv := y.pv, xpend := y.xpend, xrd := y.xrd } })
    ∧ (s.tile.badRows ≠ 0 → Clear s (.ctxs d a b) →
        exec (.ctxs d a b) s = .next (s.raise s.tile.pc { cause := .gridParity, slot := 1 }))
    ∧ (s.tile.badRows = 0 → s.tile.badAcc ≠ 0 → Clear s (.ctxs d a b) →
        exec (.ctxs d a b) s = .next (s.raise s.tile.pc { cause := .accumParity, slot := 1 }))

/-! ## The vector slot -/

/-- R229, R224, R225: what floating lane arithmetic on rows tagged FP32 sends to D as FP32, each lane rounded once to
nearest even: sums, differences, products, fused multiply-adds with D as the third source, maxima and minima. R229,
R230: the one-source floating instructions; the reciprocal, the reciprocal root and the power of two are read eight
tile cycles after they issue. R224, R105, R48: a floating instruction of two sources traps FORMAT_MIXED where a column
or diagonal source meets rows of different tags, else FORMAT_TAG where a source is not FP32, with the first such tag
in the order of the sources. That TRAPVAL of FORMAT_MIXED is the tag of row 0 is the model's choice (R394 says only the tag
found, log 47). -/
def Obligations.FloatLanes : Prop :=
  (∀ (s : State) (d a b : GridOp),
    let x := s.tile.row a
    let y := s.tile.row b
    let z := s.tile.row d
    let sends := fun (i : Instr) (f : Fin 64 → Machine.Num) => SendsRow s i d 1 (Vector.ofFn fun k => toF32 rne (f k)) 4
    s.tile.tag a = some 1 → s.tile.tag b = some 1 →
      sends (.fadd d a b) (fun k => Machine.Num.add .rne (f32 x[k]) (f32 y[k]))
      ∧ sends (.fsub d a b) (fun k => Machine.Num.add .rne (f32 x[k]) (f32 y[k]).neg)
      ∧ sends (.fmul d a b) (fun k => Machine.Num.mul (f32 x[k]) (f32 y[k]))
      ∧ sends (.fmax d a b) (fun k => Machine.Num.max (f32 x[k]) (f32 y[k]))
      ∧ sends (.fmin d a b) (fun k => Machine.Num.min' (f32 x[k]) (f32 y[k]))
      ∧ (s.tile.tag d = some 1 →
        sends (.fma d a b) (fun k => Machine.Num.add .rne (Machine.Num.mul (f32 x[k]) (f32 y[k])) (f32 z[k]))
        ∧ sends (.fnma d a b) (fun k => Machine.Num.add .rne (Machine.Num.mul (f32 x[k]) (f32 y[k])).neg (f32 z[k]))))
  ∧ (∀ (s : State) (d a : GridOp),
    let x := s.tile.row a
    let sends := fun (i : Instr) (lat : Nat) (f : Machine.Num → Machine.Num) =>
      SendsRow s i d 1 (Vector.ofFn fun k => toF32 rne (f (f32 x[k]))) lat
    s.tile.tag a = some 1 →
      sends (.fabs d a) 4 Machine.Num.abs ∧ sends (.fneg d a) 4 Machine.Num.neg
      ∧ sends (.frcp d a) 8 recip ∧ sends (.frsq d a) 8 rsqrt ∧ sends (.fexp2 d a) 8 exp2)
  ∧ (∀ (s : State) (d a b : GridOp) (i : Instr),
    let raises := fun (c : Cause) (tag : Nat) =>
      exec i s = .next (s.raise s.tile.pc { cause := c, val := BitVec.ofNat 64 tag, slot := 3 })
    i = .fadd d a b ∨ i = .fsub d a b ∨ i = .fmul d a b ∨ i = .fmax d a b ∨ i = .fmin d a b → Clear s i →
      (s.tile.tag a = none ∨ s.tile.tag b = none → raises .formatMixed s.tile.tags[0].val)
      ∧ ∀ x y : Fin 16, s.tile.tag a = some x → s.tile.tag b = some y →
        (x ≠ 1 → raises .formatTag x.val) ∧ (x = 1 → y ≠ 1 → raises .formatTag y.val))

/-- R233: a lane compare sends LCR its 64 lane results and the predicate their OR, or under .all their AND. R227,
R233: lane i's result is bit i of the condition register; the predicate is their OR or their AND. -/
def Obligations.LaneCompares : Prop :=
  (∀ (s : State) (p : PReg) (a b : GridOp) (all : Bool) (fc : FpCC) (ic : IntCC),
    let x := s.tile.row a
    let y := s.tile.row b
    let flies := fun (i : Instr) (lat : Nat) (f : Fin 64 → Bool) =>
      Turns s i fun t => t.fly { due := s.tile.tc + lat, isLoad := false,
                                 writes := [(.lcr, some (lcrOf f)), (.pred p, some (boolWord (lanePred all f)))] }
    (s.tile.tag a = some 1 → s.tile.tag b = some 1 →
      flies (.fcmp fc p a b all) 4 fun k => fpCond fc (f32 x[k]) (f32 y[k]))
    ∧ (s.tile.tag a = some 2 → s.tile.tag b = some 2 →
      flies (.vcmp ic p a b all) 2 fun k => intCond ic x[k] y[k]))
  ∧ (∀ f : Fin 64 → Bool,
    (∀ k : Fin 64, (lcrOf f).getLsbD k.val = f k) ∧ (lanePred true f = true ↔ ∀ k, f k = true)
    ∧ (lanePred false f = true ↔ ∃ k, f k = true))

/-- R231: what integer lane arithmetic on rows tagged INT32 sends to D as INT32, results kept to their low 32 bits.
R232: bitwise instructions on rows of any tag but A80 send the common tag, or RAW32 where the tags differ; the
zero-filling shifts keep the tag of a row of INT32, RAW32 or 15. -/
def Obligations.IntegerLanes : Prop :=
  (∀ (s : State) (d a b : GridOp) (u : Bool) (n : Fin 32),
    let x := s.tile.row a
    let y := s.tile.row b
    let sends := fun (i : Instr) (f : Fin 64 → Cell) => SendsRow s i d 2 (Vector.ofFn f) 2
    let less := fun (v w : Cell) => if u then v.toNat < w.toNat else v.toInt < w.toInt
    s.tile.tag a = some 2 →
      (s.tile.tag b = some 2 →
        sends (.vadd d a b) (fun k => x[k] + y[k]) ∧ sends (.vsub d a b) (fun k => x[k] - y[k])
        ∧ sends (.vmul d a b) (fun k => x[k] * y[k])
        ∧ sends (.vmulh d a b u) (fun k => if u then BitVec.ofNat 32 (x[k].toNat * y[k].toNat / 2 ^ 32)
            else BitVec.ofInt 32 (x[k].toInt * y[k].toInt / 2 ^ 32))
        ∧ sends (.vmin d a b u) (fun k => if less x[k] y[k] then x[k] else y[k])
        ∧ sends (.vmax d a b u) (fun k => if less x[k] y[k] then y[k] else x[k]))
      ∧ sends (.vabs d a) (fun k => if x[k].toInt < 0 then -x[k] else x[k])
      ∧ sends (.vsar d a n) (fun k => x[k].sshiftRight n.val)
      ∧ sends (.vsat d a u n) (fun k =>
          let lo : Int := if u then 0 else -(2 ^ n.val)
          let hi : Int := if u then 2 ^ (n.val + 1) - 1 else 2 ^ n.val - 1
          BitVec.ofInt 32 (if x[k].toInt < lo then lo else if hi < x[k].toInt then hi else x[k].toInt)))
  ∧ (∀ (s : State) (d a b : GridOp) (x y : Fin 16) (n : Fin 32),
    let v := s.tile.row a
    let w := s.tile.row b
    let tag := if x = y then x.val else 0
    s.tile.tag a = some x → s.tile.tag b = some y →
      (x.val ≠ 12 → y.val ≠ 12 →
        SendsRow s (.vand d a b) d tag (Vector.ofFn fun k : Fin 64 => v[k] &&& w[k]) 2
        ∧ SendsRow s (.vor d a b) d tag (Vector.ofFn fun k : Fin 64 => v[k] ||| w[k]) 2
        ∧ SendsRow s (.vxor d a b) d tag (Vector.ofFn fun k : Fin 64 => v[k] ^^^ w[k]) 2)
      ∧ (x.val = 2 ∨ x.val = 0 ∨ x.val = 15 →
        SendsRow s (.vshl d a n) d x.val (Vector.ofFn fun k : Fin 64 => v[k] <<< n.val) 2
        ∧ SendsRow s (.vshr d a n) d x.val (Vector.ofFn fun k : Fin 64 => v[k] >>> n.val) 2))

/-- R234, R242: selection by the lane condition register, moves, retagging, permutation, rotation and broadcast. R243,
R244: a reduction sends the tree's result to all lanes; QPOP takes the oldest entry of a queue. R245: SPK sends, step
by step, the elements of each group of 12 that are kept, the others 0 behind them; SPX sends the 12-bit masks that say
which. -/
def Obligations.LaneMoves : Prop :=
  (∀ (s : State) (d a b : GridOp) (r : SReg) (x : Fin 16) (t : Fin 16) (k : Fin 64),
    let v := s.tile.row a
    let w := s.tile.row b
    let pick : Row := Vector.ofFn fun i => if s.tile.lcr.getLsbD i.val then v[i] else w[i]
    s.tile.tag a = some x →
      (x.val ≠ 12 → s.tile.tag b = some x → SendsRow s (.vsel d a b) d x.val pick 2)
      ∧ (x.val = 1 → s.tile.tag b = some 1 → SendsRow s (.fsel d a b) d 1 pick 4)
      ∧ SendsRow s (.vmov d a) d x.val v 2 ∧ SendsRow s (.tag d a t) d t.val v 2
      ∧ (s.tile.tag b = some 2 → SendsRow s (.vperm d a b) d x.val
          (Vector.ofFn fun i : Fin 64 => v[(w[i].toNat % 64)]'(Nat.mod_lt _ (by decide))) 2)
      ∧ SendsRow s (.vrot d a k) d x.val (Vector.ofFn fun i : Fin 64 => v[i + k]) 2
      ∧ SendsRow s (.vbcst d r t) d t.val (Vector.replicate 64 ((s.tile.sreg r).setWidth 32)) 2)
  ∧ (∀ (s : State) (d a : GridOp) (op : RedOp) (q : QReg) (e : QEntry) (l : List QEntry),
    let step := fun (x y : Cell) =>
      match op with
      | .fadd => toF32 rne (Machine.Num.add .rne (f32 x) (f32 y))
      | .fmax => toF32 rne (Machine.Num.max (f32 x) (f32 y))
      | .fmin => toF32 rne (Machine.Num.min' (f32 x) (f32 y))
      | .add => x + y
      | .max => if x.toInt < y.toInt then y else x
      | .min => if x.toInt < y.toInt then x else y
    let float := op = .fadd ∨ op = .fmax ∨ op = .fmin
    (s.tile.tag a = some (if float then 1 else 2) →
      SendsRow s (.vred op d a) d (if float then 1 else 2)
        (Vector.replicate 64 (treeFold step 6 (s.tile.row a).toList)) (if float then 4 else 2))
    ∧ (s.tile.queues[q.val] = e :: l → e.arrived = true → e.failed = false → s.tile.dstOk d e.tag = .ok () →
        Turns s (.qpop d q) fun t => ({ t with queues := t.queues.set q.val l }).putRow s.tile d e.tag e.cells 1))
  ∧ (∀ (s : State) (d a : GridOp) (x : Fin 16) (n : Fin 8),
    let v := s.tile.row a
    let k := spCount n.val
    let st := spSteps (elemCount x.val) k
    let kept := fun g => spKeep (fun i => tagDecode x.val (elemOf x.val v i)) k g
    s.tile.tag a = some x → spTag x.val = true →
      SendsRow s (.spk d a n) d x.val (packRow x.val fun i =>
        (((List.range st.2).flatMap fun j => (kept (i / 12 * st.2 + j)).map fun l =>
          elemOf x.val v (12 * (i / 12 * st.2 + j) + l)).getD (i % 12) 0)
          * (if i / 12 < st.1 then 1 else 0)) 2
      ∧ SendsRow s (.spx d a n) d 5 (packRow 5 fun g =>
        if g < st.1 * st.2 then (kept g).foldl (fun m l => m + 2 ^ l) 0 else 0) 2)

/-- R235, R236: CVT between packings, from an A80 pair to half a row of FP32, and from half a row of FP32 or INT32 to an A80
pair, whose two rows it sends. -/
def Obligations.Conversions : Prop := ∀ (s : State) (d a : GridOp) (x t : Fin 16) (p : Fin 8) (v : Row),
  s.tile.tag a = some x → 1 ≤ x.val → x.val ≤ 13 →
    (x.val ≠ 12 → t.val ≠ 12 → cvtRow rne x.val t.val p.val (s.tile.row a) (s.tile.kept d t.val) = some v →
      SendsRow s (.cvt d a p t) d t.val v 4)
    ∧ (s.tile.isPair a = true → t.val = 1 → p.val < 2 →
      SendsRow s (.cvt d a p t) d 1 (packRow 1 fun k =>
        if 32 * p.val ≤ k ∧ k < 32 * p.val + 32 then
          fp32.encode rne (a80.decode (pairGet (s.tile.row a) (s.tile.row (pairOdd a)) (k - 32 * p.val)))
        else s.tile.kept d 1 k) 4)
    ∧ (x.val = 1 ∨ x.val = 2 → t.val = 12 → p.val < 2 →
      let rows := pairRows fun k => a80.encode rne (tagDecode x.val (elemOf x.val (s.tile.row a) (32 * p.val + k)))
      Turns s (.cvt d a p t) fun u => (u.putRow s.tile d 12 rows.1 4).putRow s.tile (pairOdd d) 12 rows.2 4)

/-- R237 to R240, R228: BMAX keeps the largest magnitude of a half row in BMR and sends it to all lanes; SCSEL sends the
scale chosen for BMR and leaves it for the next bundle, or, fused, replaces BMR as BMAX does; QNT quantises a half row by
the scale; DQN rebuilds 64 elements with theirs. -/
def Obligations.BlockScales : Prop := ∀ (s : State) (d a : GridOp) (b : Bool) (e : Fin 16) (f : MxFmt) (p : Fin 8) (n : Fin 32),
  let v := s.tile.row a
  let m := toF32 rne (blockMax v b)
  let x := chooseScale f (f32 s.tile.bmr)
  let scales := patch s.tile d 14 e.val 1 fun _ => x
  (s.tile.tag a = some 1 → s.tile.dstOk d 1 = .ok () →
      Turns s (.bmax d a b) fun t => ({ t with bmr := m }).putRow s.tile d 1 (Vector.replicate 64 m) 4)
  ∧ (s.tile.dstOk d 14 = .ok () → Clear s (.scsel d a false e b f) →
      Does s (.scsel d a false e b f) (s.mapTile fun t => t.putRow s.tile d 14 scales 4) { scx := some x })
  ∧ (s.tile.tag a = some 1 → s.tile.dstOk d 14 = .ok () → Clear s (.scsel d a true e b f) →
      Does s (.scsel d a true e b f)
        (s.mapTile fun t => ({ t with bmr := m }).putRow s.tile d 14 scales 4) { scx := some x })
  ∧ (s.tile.tag a = some 1 → SendsRow s (.qnt d a f b) d (mxTag f)
      (patch s.tile d (mxTag f) (32 * b.toNat) 32 fun k =>
        quantise f rne s.tile.xrd.toNat (f32 (v.toList.getD (32 * b.toNat + k) 0))) 4)
  ∧ ∀ x : Fin 16, s.tile.tag a = some x → isMx x.val = true → s.tile.tag (scaleRow n) = some 14 →
      p.val < elemCount x.val / 64 → SendsRow s (.dqn d a p n) d 1
        (Vector.ofFn fun k : Fin 64 => toF32 rne (scaled (tagDecode x.val (elemOf x.val v (64 * p.val + k.val)))
          (elemOf 14 (s.tile.row (scaleRow n)) ((64 * p.val + k.val) / 32)))) 4

/-- R46, R47: lane i of a vector operand: h names a row, v a column, d and a the two diagonals; logical rows 16 to 31 turn
with RRB in every direction, every other row standing for itself; a loop-back branch lowers RRB by one modulo 16. -/
def Obligations.GridDirections : Prop := ∀ (t : Tile) (k : Fin 64) (i : Fin 64),
  let phys := fun (j : Fin 64) => if 16 ≤ j.val ∧ j.val < 32 then (⟨(j.val - 16 + t.rrb.val) % 16 + 16, by omega⟩ : Fin 64) else j
  (t.row ⟨.h, k⟩)[i] = t.cell (phys k) i ∧ (t.row ⟨.v, k⟩)[i] = t.cell (phys i) k
  ∧ (t.row ⟨.d, k⟩)[i] = t.cell (phys i) (i + k) ∧ (t.row ⟨.a, k⟩)[i] = t.cell (phys i) (k - i)
  ∧ (t.loopBack t).rrb.val = (t.rrb.val + 15) % 16

/-- R225, R49: what an instruction that sends a row leaves: every register, predicate, queue, special register and byte of
memory; every tag but that of its destination, an h row; every cell of the grid until the row lands. R50: an instruction
that reads a grid row whose parity is in error raises GRID_PARITY at its bundle, and nothing else comes of it; that a destination of which CVT,
QNT or SCSEL keeps elements is such a row is the model's choice (log 48). -/
def Obligations.VectorFrame : Prop :=
  (∀ (s : State) (i : Instr) (r c : Fin 64),
    exec i s = .next (issue1 s (slotOf i)) → Ready s i → .cell r c ∈ (slotOf i).reads s.tile → s.tile.badRows.getLsbD r.val = true →
      exec i s = .next (s.raise s.tile.pc { cause := .gridParity, slot := (slotOf i).cls }))
  ∧ (∀ (s t : State) (i : Instr) (d : GridOp) (tag : Nat) (v : Row) (lat : Nat),
  SendsRow s i d tag v lat → s.tile.dstOk d tag = .ok () → Clear s i → exec i s = .next t →
    (∀ r, t.tile.sreg r = s.tile.sreg r) ∧ (∀ p, t.tile.pred p = s.tile.pred p) ∧ t.tile.grid = s.tile.grid
    ∧ (∀ r : Fin 64, ¬(d.dir = .h ∧ physRow s.tile.rrb d.idx = r) → t.tile.tags[r] = s.tile.tags[r])
    ∧ (d.dir = .h → t.tile.tags[physRow s.tile.rrb d.idx] = Fin.ofNat 16 tag)
    ∧ t.tile.lcr = s.tile.lcr ∧ t.tile.bmr = s.tile.bmr ∧ t.tile.queues = s.tile.queues ∧ t.tile.mat = s.tile.mat
    ∧ t.tile.handles = s.tile.handles ∧ t.tile.maps = s.tile.maps ∧ t.tile.rings = s.tile.rings
    ∧ t.tile.pass = s.tile.pass ∧ t.tile.feed = s.tile.feed ∧ t.tile.rrb = s.tile.rrb ∧ t.tile.priv = s.tile.priv
    ∧ t.tile.tepc = s.tile.tepc ∧ t.tile.trapst = s.tile.trapst ∧ t.tile.pc = s.tile.pc + 4
    ∧ t.clusters = s.clusters ∧ t.others = s.others ∧ t.teams = s.teams ∧ t.mem = s.mem)

/-! ## The memory slot -/

/-- R247, R61, R70, R140: an access to scratchpad bytes that lie in no slot of a declared ring, in no window and on no edge
of a job passes every check from the slot states on, and leaves the state as it is. R263, R394: but a read of such bytes
whose bank holds an uncorrectable error at a raises SP_UNCORRECTABLE, TRAPVAL naming the 64-byte line. -/
def Obligations.PlainAccess : Prop := ∀ (s : State) (write : Bool) (lo hi : Nat),
  let bad := fun (a : Nat) => s.bad.contains (spKey s.tile.cl s.tile.tn (spPhys s.tile.spswz (s.tile.shadowed a)))
  lo < hi → hi ≤ 0x180000 → s.tile.slotsIn lo hi = [] → s.tile.winLines lo hi = [] →
  (∀ f, f ∈ s.tile.feet → f.glob = false → f.hi ≤ lo ∨ hi ≤ f.lo) →
    (write = true ∨ (∀ a, lo ≤ a → a < hi → bad a = false) → memPrep s s write [(lo, hi)] = .ok s)
    ∧ (∀ a, s.tile.spec = none → write = false → lo ≤ a → a < hi → bad a = true → (∀ b, lo ≤ b → b < a → bad b = false) →
        memPrep s s write [(lo, hi)] = .trap { cause := .spUncorrectable, slot := 4, val := BitVec.ofNat 64 (a / 64 * 64) })

/-- R249, R250, R251, R58: loads of a register (0-extended, little-endian), of a row, of a transposed tile of elements whose
rows lie 64 elements apart, and of a control-window register; fewer than 24 loads are outstanding. That a control-window
register's value lands after 6 tile cycles is the model's choice, R249 and R313 giving no time for it (log 7). -/
def Obligations.Loads : Prop := ∀ (s u : State) (z : Size) (d : SReg) (g : GridOp) (h : Fin 64) (a : SReg) (imm : Int),
  let x := s.tile.addr a imm
  let n := Size.bytes z
  s.tile.cld < 24 →
    (accessCheck s.alone .any n x n = none → regionOf x ≠ .ctl → s.lets false [(x, x + n)] u → Clear s (.lds z d a imm) →
      Does s (.lds z d a imm) (u.loading [(x, x + n)] (s.tile.loadDue x (x + n)) fun v => [(.sreg d, some (BitVec.ofNat 64 (v.coreNum x n)))]))
    ∧ (accessCheck s.alone .any n x n = none → regionOf x = .ctl → s.lets false [] u → Clear s (.lds z d a imm) →
      Does s (.lds z d a imm) (u.loading [] (s.tile.tc + 6) fun _ =>
        [(.sreg d, some (BitVec.ofNat 64 ((s.csrRead ((x - 0x0F000000) / 8)).toNat / 2 ^ (8 * (x % 8)) % 2 ^ (8 * n))))]))
    ∧ (accessCheck s.alone .spSlice 4 x 256 = none → s.tile.tag g ≠ none → s.lets false [(x, x + 256)] u →
      Clear s (.ldv g a imm) → Does s (.ldv g a imm) (u.loading [(x, x + 256)] (s.tile.loadDue x (x + 256)) fun v =>
        (List.finRange 64).map fun i => (.cell (laneCell s.tile.rrb g i).1 (laneCell s.tile.rrb g i).2,
          some (BitVec.ofNat 64 (v.coreNum (x + 4 * i.val) 4)))))
    ∧ ∀ tag : Fin 16, s.tile.tag ⟨.h, h⟩ = some tag → ldttWidth tag.val ≠ 0 →
      let w := ldttWidth tag.val
      let words := (List.range 64).map fun r => x + 64 * w * r
      let ranges := words.map fun b => (b, b + 4)
      let due := max (s.tile.tc + 2 + 4 * bankLoad s.tile.spswz words) (s.tile.filledAll ranges)
      accessCheck s.alone .spOnly 4 x (63 * (64 * w) + 4) = none → s.lets false ranges u → Clear s (.ldtt h a imm) →
        Does s (.ldtt h a imm) ((u.loading ranges due fun v =>
          rowLoad s.alone ⟨.h, h⟩ fun i =>
            ((packRow tag.val fun e => v.coreNum (x + 64 * w * (e % 64) + w * (e / 64)) w)[i.val]).toNat).mapTile
          fun t => { t with busy := due })

/-- R249, R250, R264, R256, R67: stores of a register, a row, the oldest entry of a result queue or half of it, and a
handle, outside speculation with fewer than 24 stores outstanding; a store to the control window writes its register
only where it has 8 bytes. That a store stays counted in st for 4 tile cycles is the model's choice, the spec giving no figure (log 7). R214, R55,
R272: SCALEST, SPSWZ, CHOWN, the skew registers and the circuit ends change at the end of
its bundle; a store to the setup of a channel that the tile core does not own traps ENGINE_STATE. -/
def Obligations.Stores : Prop := ∀ (s u : State) (z : Size) (d : SReg) (g : GridOp) (q : QReg) (h : HReg) (a : SReg) (imm : Int)
    (e : QEntry) (l : List QEntry),
  let x := s.tile.addr a imm
  let y := (s.tile.sreg a).toNat
  let n := Size.bytes z
  let due := s.tile.tc + 4
  let popped := { s with tile := { s.tile with queues := s.tile.queues.set q.val l } }
  let reg := [(x, leBytes (s.tile.sreg d).toNat n)]
  let row := [(x, rowBytes (s.tile.row g) 64)]
  let img := [(y, leBytes (s.tile.handles[h.val]).img.toNat 16)]
  s.tile.spec = none → s.tile.cst < 24 → s.tile.busy ≤ s.tile.tc →
    (accessCheck s.alone .any n x n = none → regionOf x ≠ .ctl → memPrep s s true (rangesOf reg) = .ok u → u.tile.spec = none →
      Clear s (.sts z d a imm) → Does s (.sts z d a imm) (u.storing reg due))
    ∧ (accessCheck s.alone .any n x n = none → regionOf x = .ctl → Clear s (.sts z d a imm) →
      let k := (x - 0x0F000000) / 8
      let v := s.tile.sreg d
      let counted := s.mapTile fun t => t.countUntil .st due
      let setup := fun (c : ChNo) => 64 + 16 * c.val ≤ k ∧ k < 80 + 16 * c.val
      let late := k = 4 ∨ k = 8 ∨ k = 9 ∨ k = 16 ∨ k = 17 ∨ (128 ≤ k ∧ k < 192)
      (n ≠ 8 → Does s (.sts z d a imm) counted)
      ∧ (n = 8 → ¬late → (∀ c : ChNo, setup c → fld s.tile.chown.toNat (2 * c.val) 2 = 0) →
          Does s (.sts z d a imm) (counted.mapTile fun t => t.csrWrite k v))
      ∧ (n = 8 → late → Does s (.sts z d a imm) counted { wire := fun t => t.csrWrite k v })
      ∧ (n = 8 → k = 8 → Does s (.sts z d a imm) counted { wire := fun t => { t with spswz := v.setWidth 24 } })
      ∧ (n = 8 → k = 9 → Does s (.sts z d a imm) counted { wire := fun t => { t with chown := chownOf v } })
      ∧ ∀ c : ChNo, n = 8 → setup c → fld s.tile.chown.toNat (2 * c.val) 2 ≠ 0 →
          exec (.sts z d a imm) s = .next (s.raise s.tile.pc { cause := .engineState, slot := 4 }))
    ∧ (accessCheck s.alone .spSlice 4 x 256 = none → s.tile.tag g ≠ none → memPrep s s true (rangesOf row) = .ok u →
      u.tile.spec = none → Clear s (.stv g a imm) → Does s (.stv g a imm) (u.storing row due))
    ∧ (accessCheck s.alone .spSlice 16 y 16 = none → memPrep s s true (rangesOf img) = .ok u → u.tile.spec = none →
      Clear s (.hget h a) → Does s (.hget h a) (u.storing img due))
    ∧ (s.tile.queues[q.val] = e :: l → e.arrived = true → e.failed = false →
      ∀ w : Nat × Instr, w = (64, .qst q a) ∨ w = (32, .qstHalf q a) →
        let part := [(y, rowBytes e.cells w.1)]
        accessCheck s.alone .spSlice 4 y (4 * w.1) = none → memPrep s popped true (rangesOf part) = .ok u → u.tile.spec = none →
          Clear s w.2 → Does s w.2 (u.storing part due))

/-- R56, R69, R127: what a store to the scratchpad leaves of memory: its bytes hold what was stored, the first of them at
the lowest address, and every other byte of every memory stays; a store to the slice leaves every memory as it is, its
bytes being held back in the tile, where the other bytes held back stay. A store of a register, of a row or of a handle to
a place in the scratchpad that no ring, window or job has writes its bytes at its address and no others (R249, R250, R256). -/
def Obligations.StoreFrame : Prop :=
  (∀ (s : State) (a : Nat) (bs : List Byte), Safe s →
    let u := s.performStore a bs
    (a + bs.length ≤ 0x180000 →
      (∀ k, k < bs.length → some (u.spByte (a + k)) = bs[k]?)
      ∧ (∀ b, b < a ∨ a + bs.length ≤ b → u.spByte b = s.spByte b)
      ∧ ∀ key, (∀ k, k < bs.length → key ≠ spKey s.tile.cl s.tile.tn (spPhys s.tile.spswz (a + k))) →
          u.mem.get key = s.mem.get key)
    ∧ (0x400000 ≤ a → a < 0xC00000 → u.mem = s.mem
        ∧ (∀ k, k < bs.length → ovGet u.tile.unpub (a - 0x400000 + k) = bs[k]?)
        ∧ ∀ b, b < a - 0x400000 ∨ a - 0x400000 + bs.length ≤ b → ovGet u.tile.unpub b = ovGet s.tile.unpub b))
  ∧ (∀ (s t : State) (i : Instr) (a : Nat) (bs : List Byte),
    let stores :=
      (∃ z d b imm, i = .sts z d b imm ∧ a = s.tile.addr b imm ∧ bs = leBytes (s.tile.sreg d).toNat (Size.bytes z)
        ∧ accessCheck s.alone .any (Size.bytes z) a (Size.bytes z) = none)
      ∨ (∃ g b imm, i = .stv g b imm ∧ a = s.tile.addr b imm ∧ bs = rowBytes (s.tile.row g) 64 ∧ s.tile.tag g ≠ none
        ∧ accessCheck s.alone .spSlice 4 a 256 = none)
      ∨ (∃ (h : HReg) (b : SReg), i = .hget h b ∧ a = (s.tile.sreg b).toNat
        ∧ bs = leBytes (s.tile.handles[h.val]).img.toNat 16 ∧ accessCheck s.alone .spSlice 16 a 16 = none)
    stores → Safe s → Clear s i → s.tile.spec = none → s.tile.cst < 24 → s.tile.busy ≤ s.tile.tc →
    a + bs.length ≤ 0x180000 → s.tile.slotsIn a (a + bs.length) = [] → s.tile.winLines a (a + bs.length) = [] →
    (∀ f, f ∈ s.tile.feet → f.glob = false → f.hi ≤ a ∨ a + bs.length ≤ f.lo) → exec i s = .next t →
      (∀ k, k < bs.length → some (t.spByte (a + k)) = bs[k]?)
      ∧ (∀ b, b < a ∨ a + bs.length ≤ b → t.spByte b = s.spByte b)
      ∧ (∀ key, (∀ k, k < bs.length → key ≠ spKey s.tile.cl s.tile.tn (spPhys s.tile.spswz (a + k))) →
          t.mem.get key = s.mem.get key)
      ∧ (∀ r, t.tile.sreg r = s.tile.sreg r) ∧ (∀ p, t.tile.pred p = s.tile.pred p) ∧ t.tile.grid = s.tile.grid)

/-- R253 to R255: STBP lays a row's elements into the planes of a handle's region, LDBP rebuilds them; the memory slot is
busy until they are done. -/
def Obligations.PlaneMoves : Prop := ∀ (s u : State) (d : GridOp) (a : SReg) (imm : Int) (tag : Fin 16) (o : PlaneOp),
  let w := s.tile.addr a imm
  let v := s.tile.row d
  let pieces := (List.range o.n).flatMap fun k =>
    if o.mask then [(o.h.maskAt (o.g0 + k) o.row, bytes16 (elemOf 5 v k))]
    else o.h.rowWrites (o.g0 + k) o.row fun l => elemOf tag.val v (12 * k + l)
  let words := (List.range o.n).flatMap fun k =>
    if o.mask then [o.h.maskAt (o.g0 + k) o.row] else o.h.rowWords (o.g0 + k) o.row
  let due := fun (l : List Nat) =>
    max (s.tile.tc + 2 + 4 * bankLoad s.tile.spswz l) (s.tile.filledAll (l.map fun b => (b, b + 2)))
  let out := if o.mask then 5 else o.h.fmt
  (s.tile.tag d = some tag → planeOp s.tile w (some tag.val) = .ok o → s.lets true (rangesOf pieces) u →
    u.tile.spec = none → s.tile.cst < 24 → Clear s (.stbp d a imm) → Does s (.stbp d a imm)
      ((u.storing pieces (due (pieces.map (·.1)))).mapTile fun t => { t with busy := due (pieces.map (·.1)) }))
  ∧ (planeOp s.tile w none = .ok o → s.tile.dstOk d out = .ok () → s.tile.cld < 24 →
    s.lets false (words.map fun b => (b, b + 2)) u → Clear s (.ldbp d a imm) → Does s (.ldbp d a imm)
      ((u.loading (words.map fun b => (b, b + 2)) (due words) fun v =>
        let rd := fun b => v.coreNum b 2
        rowLoad s.alone d fun i => ((packRow out fun e =>
          if o.mask then (if e < o.n then rd (o.h.maskAt (o.g0 + e) o.row) else 0)
          else if e < 12 * o.n then tagEncode out rne false (o.h.rebuild (o.h.planedAt rd (o.g0 + e / 12) o.row (e % 12)))
          else 0)[i.val]).toNat).mapTile fun t => { (t.retag s.tile.rrb d out) with busy := due words }))

/-- R256, R53, R257, R85, R261, R262, R68: HSET defines a handle from an image that passes its checks or undefines it,
its generation one more; SPFENCE advances the generation of every handle that was written to; MAPW installs or clears
an entry; MAPF, MAPI and MAPI.discard of an entry with no dirty line. R261, R262, R69: MAPF, MAPI and MAPW of an entry with dirty
lines write them back, counted in st, MAPI and MAPW forgetting the lines then. That an invalidated handle's other fields read 0
(log 28), and the tile cycles for which a write-back counts in st (log 7), are the model's choices. -/
def Obligations.HandlesAndMaps : Prop :=
  (∀ (s u : State) (h : HReg) (n : MapNo) (a : SReg),
    let x := (s.tile.sreg a).toNat
    let v := u.touch x (x + 16)
    let img : Image := BitVec.ofNat 128 (v.coreNum x 16)
    s.tile.busy ≤ s.tile.tc →
      (accessCheck s.alone .spSlice 16 x 16 = none → memPrep s s false [(x, x + 16)] = .ok u →
        s.tile.dataThere [(x, x + 16)] →
          (img.getLsbD 127 = false ∨ handleOk img = true → Clear s (.hset h a) → Does s (.hset h a)
            (v.mapTile fun t => { t with handles := t.handles.set h.val ((t.handles[h.val]).redefine img) }))
          ∧ (mapOk s.tile n img = true → (s.tile.maps[n.val]).dirty = false → Clear s (.mapw n a) → Does s (.mapw n a)
            (v.mapTile fun t => t.remap n (if img.getLsbD 127 then { img := img } else {}))))
      ∧ (s.tile.storing = false → Turns s .spfence fun t => { t with handles := t.handles.map Handle.fence })
      ∧ ((s.tile.maps[n.val]).valid = true →
          ((s.tile.maps[n.val]).dirty = false → Turns s (.mapf n) id ∧ Turns s (.mapi n) fun t => t.untouch n)
          ∧ Turns s (.mapiDiscard n) fun t => t.untouch n))
  ∧ (∀ (s u w : State) (n : MapNo) (a : SReg),
    let counted := fun (t : Tile) => t.countUntil .st (t.tc + 4)
    let x := (s.tile.sreg a).toNat
    let v := u.touch x (x + 16)
    let img : Image := BitVec.ofNat 128 (v.coreNum x 16)
    s.tile.busy ≤ s.tile.tc → (s.tile.maps[n.val]).dirty = true → s.tile.cst < 24 →
      ((s.tile.maps[n.val]).valid = true → s.writeBacks (s.tile.linesOf n) = .ok u →
        (Clear s (.mapf n) → Does s (.mapf n) (u.mapTile counted))
        ∧ (Clear s (.mapi n) → Does s (.mapi n) (u.mapTile fun t => (counted t).untouch n)))
      ∧ (accessCheck s.alone .spSlice 16 x 16 = none → memPrep s s false [(x, x + 16)] = .ok u →
        s.tile.dataThere [(x, x + 16)] → mapOk s.tile n img = true → v.writeBacks (s.tile.linesOf n) = .ok w →
        Clear s (.mapw n a) → Does s (.mapw n a)
          (w.mapTile fun t => (counted t).remap n (if img.getLsbD 127 then { img := img } else {}))))

/-- R258 to R260, R60 to R62: the buffer instructions on a declared ring outside speculation: BUFACQ takes the empty slot at
PIDX to fill, BUFTAKE the full one at CIDX to drain, each writing the slot's number and address; BUFPUB makes a slot the
core fills full, BUFFREE one it drains empty; BUFQ reads the ring's state. -/
def Obligations.Buffers : Prop := ∀ (s : State) (n : RingNo) (r : Fin 8) (a d e : SReg) (k j : Fin 16),
  let ring := s.tile.rings[r.val]
  let gives := fun (x : Ring) (i : Fin 16) (t : Tile) =>
    ((t.setRing r x).write (.sreg d) (BitVec.ofNat 64 i.val)).write (.sreg e)
      (BitVec.ofNat 64 (ring.base.val * 64 + i.val * ((ring.slotsz.val + 1) * 64)))
  s.tile.busy ≤ s.tile.tc → s.tile.ringNo n.val = some r → s.tile.spec = none →
    (ring.st[ring.pidx.val] = .empty → Turns s (.bufacq n d e) (gives
      { (ring.setSlot ring.pidx .filling .core) with pidx := ring.next ring.pidx } ring.pidx))
    ∧ (ring.st[ring.cidx.val] = .full → Turns s (.buftake n d e) (gives
      { (ring.setSlot ring.cidx .draining .core) with cidx := ring.next ring.cidx } ring.cidx))
    ∧ (ring.slotNo (if a = 0 then k.val else (s.tile.sreg a).toNat) = some j → ring.own[j.val] = .core →
        (ring.st[j.val] = .filling → s.tile.storing = false → Clear s (.bufpub n a k) → Does s (.bufpub n a k)
          (s.tileRelease.mapTile fun t => (t.setRing r (ring.setSlot j .full .nobody)).startHistory r j))
        ∧ (ring.st[j.val] = .draining → s.tile.copying r j = false → Clear s (.buffree n a k) → Does s (.buffree n a k)
          (s.tileRelease.mapTile fun t => t.freeSlot r j)))
    ∧ SetsReg s (.bufq n d) d (s.tile.bufq r)

/-- R265 to R267, R133: an atomic reads its home once, writes the new value there and the old one,
widened, to D: sum, AND, OR, minimum, maximum, exchange, exchange where the old value is D's, one less where it is
positive. R123, R265: with rel or ar a boundary of its classes comes before the access, with acq or ar one comes after it. R268 to R270, R134:
WAITA of a waiter that a wake has reached, or whose value differs from B, writes true to
its predicate, and false where the monitor table is full; WAKE1 takes the oldest waiter on an address from the table
and wakes it, WAKEA all; D counts them. -/
def Obligations.Atomics : Prop :=
  (∀ (s u v : State) (d a : SReg) (o : Ord4) (sc : Scope) (m : StMask) (wide u' : Bool) (h h' : Home),
    let n := if wide then 8 else 4
    let x := (s.tile.sreg a).toNat
    let c := (s.tile.sreg d).toNat % 2 ^ (8 * n)
    let mask := classes m
    let before := o = .rel ∨ o = .ar
    let after := o = .acq ∨ o = .ar
    let w := u.flushHome h
    let old := w.homeValue h n
    let less := fun (u' : Bool) (p q : Nat) => if u' then p < q else sgnVal (8 * n) p < sgnVal (8 * n) q
    let cleans := fun (v : State) => v.writeBacks (v.tile.linesFor mask) = .ok v
    let does := fun (i : Instr) (host u' : Bool) (new : Nat) =>
      let done := (w.putHome h (new % 2 ^ (8 * n)) n).mapTile fun t => t.write (.sreg d) (atomOld wide u' old)
      findHome s.alone s x n host = .ok (h', v) → findHome s.alone (if before then s.bounded mask true else s) x n host = .ok (h, u) →
      u.homeError h n = none → (o ≠ .rlx → s.tile.storesPending mask = false ∧ (s.tile.peerLost && mask.testBit 3) = false) →
      (before → cleans s) → (after → cleans done) → Clear s i → Does s i (if after then done.bounded mask true else done)
    s.tile.busy ≤ s.tile.tc → s.tile.edge true x (x + n) = false → s.tile.edge false x (x + n) = false → s.tile.dataThere →
      does (.aadd d a o sc m wide) true false (old + c) ∧ does (.aand d a o sc m wide) false false (old &&& c)
      ∧ does (.aor d a o sc m wide) false false (old ||| c)
      ∧ does (.amin d a o sc m wide u') false u' (if less u' c old then c else old)
      ∧ does (.amax d a o sc m wide u') false u' (if less u' old c then c else old)
      ∧ does (.axch d a o sc m wide) true false c
      ∧ does (.acas d a o sc m wide) true false (if old = c then (s.tile.sreg (d + 1)).toNat else old)
      ∧ does (.adecp d a o sc m wide) false false (if 0 < sgnVal (8 * n) old then old - 1 else old))
  ∧ (∀ (s : State) (a b d : SReg) (p : PReg) (wide : Bool),
    let n := if wide then 8 else 4
    let x := (s.tile.sreg a).toNat
    let w := s.flushSliceLine (x - 0x400000)
    let differs := w.homeValue (.slice (x - 0x400000)) n ≠ (s.tile.sreg b).toNat % 2 ^ (8 * n)
    let ends := fun (v : State) (r : Bool) => Clear s (.waita a b p wide) → Does s (.waita a b p wide)
      ((v.bounded 2 true).mapTile fun t => t.write (.pred p) (boolWord r))
    let u := s.bounded 2 true
    let hit := u.monitors.filter fun m => m.addr == x
    let wakes := fun (i : Instr) (l : List Monitor) => Clear s i → Does s i
      ((l.foldl State.wake (u.setMonitors (u.monitors.filter fun m => !l.contains m))).mapTile fun t =>
        t.write (.sreg d) (BitVec.ofNat 64 l.length))
    s.tile.busy ≤ s.tile.tc → s.calm 2 →
      (monitorCheck s.alone x n = none → s.tile.edge false x (x + n) = false →
        (s.tile.woken = true → ends s true)
        ∧ (s.tile.woken = false → s.watches x = false → w.calm 2 →
          w.homeError (.slice (x - 0x400000)) n = none →
          (differs → ends w true) ∧ (¬differs → 8 ≤ s.monitors.length → ends w false)))
      ∧ (monitorCheck s.alone x 1 = none → wakes (.wake1 a d) (hit.take 1) ∧ wakes (.wakea a d) hit))

/-! ## The matrix slot -/

/-- R79 to R81, R276 to R278: a beat whose checks pass, and whose reads of the scratchpad meet no trap and no wait (R61, R69,
R263), those that its checks look at first, does its push, its shift and its close in that order; MACC closes a group whose planes have all been pushed; MHOLD does nothing; MSPARSE
checks. R79, R83, R84, R279, R280: MZERO clears the accumulator, STAGE and the count of pushes; MSET sets cursors and
mode, a change of mode clearing the accumulator and STAGE; MDRAIN appends the converted row to its queue, readable two
tile cycles later, and .z clears the row. R79, R81: closing a K-group adds STAGE into the accumulator, each entry
rounded once to A80 or as an exact integer of 80 bits, clears STAGE and the count of pushes, and advances GA by the
step of the active group. R79, R81, R86: at a group's first push NEXT moves to ACTIVE where it is valid and the handle is noted; every push adds
to each entry of STAGE, for each B element of its column that has an A element, the product of that element's plane and the B element, or, where
one of the two is special, their whole product at the first push and nothing later, and adds 1 to the count of pushes; rows beyond the handle's
stay. A shift puts B group GB of the handle into NEXT, for each column of the handle its 12 lanes, zeros beyond the last group, or those
that the masks of the step name, and advances GB by the handle's step modulo 4,096. R80: MACC where an accumulator row's parity is in error raises ACCUM_PARITY. -/
def Obligations.MatrixInstructions : Prop :=
  (∀ (s v u : State) (a b : HReg) (h : HReg),
    let t := s.tile
    let m := t.mat
    let ha := t.handles[a.val]
    let hb := t.handles[b.val]
    let leaves := fun (i : Instr) (m : Mat) => Clear s i → Does s i (u.spend.mapTile fun u => { u with mat := m })
    let pushed := s.pushMat a ha m
    let push := s.pushReads ha m
    let shift := hb.shiftReads m.gb.val
    let passes := fun (a b : Option HReg) (close : Bool) (l : List (Nat × Nat)) =>
      beatTrap s t a b close = none ∧ (close = true → t.badAcc = 0) ∧ s.reads s (beatLooks s t a b) v ∧ s.reads v l u
    let full := m.pushed ≠ 0 ∧ m.ghandle = some h ∧ (t.handles[h.val]).planes = m.pushed
    (passes (some a) none false push → leaves (.mpush a) pushed)
    ∧ (passes (some a) (some b) false (push ++ shift) → leaves (.mpushS a b) (s.shiftMat hb pushed))
    ∧ (passes (some a) none true push → leaves (.mpushC a) pushed.close)
    ∧ (passes (some a) (some b) true (push ++ shift) → leaves (.mpushSC a b) (s.shiftMat hb pushed).close)
    ∧ (passes none (some b) false shift → leaves (.mshift b) (s.shiftMat hb m))
    ∧ (full → t.badAcc = 0 → Turns s .macc fun t => { t with mat := m.close })
    ∧ (full → t.badAcc ≠ 0 → Clear s .macc → exec .macc s = .next (s.raise t.pc { cause := .accumParity, slot := 5 }))
    ∧ Turns s .mhold id
    ∧ (hb.valid = true → hb.spn ≠ 0 → s.metaOk hb (bStep hb m.gb.val) = true →
        s.reads s (hb.maskReads (bStep hb m.gb.val)) v → s.reads v shift u →
        Clear s (.msparse b) → Does s (.msparse b) u.spend))
  ∧ (∀ (s : State) (ga gb : Fin 4096) (r : Fin 64) (q : QReg) (f : DrainFmt) (z : Bool),
    let m := s.tile.mat
    let sets := fun (i : Instr) (float : Bool) => Turns s i fun t =>
      { t with mat :=
        if m.float = float then { m with ga := ga, gb := gb, active := {}, next := {}, pushed := 0 }
        else { m with ga := ga, gb := gb, active := {}, next := {}, pushed := 0, float := float, acc := accZero, stage := stageZero } }
    Turns s .mzero (fun t => { t with mat := { m with acc := accZero, stage := stageZero, pushed := 0 } })
    ∧ sets (.msetFloat ga gb) true ∧ sets (.msetInt ga gb) false
    ∧ (drainOk m.float f = true → (s.tile.queues[q.val]).length < 16 → s.tile.badAcc.getLsbD r.val = false → Turns s (.mdrain r q f z) fun t =>
        let e : QEntry :=
          { tag := drainTag f, cells := drainRow m.float f rne m.acc[r.val], due := s.tile.tc + 2, arrived := false
            remote := none, failed := false }
        { t with
          queues := t.queues.set q.val (t.queues[q.val] ++ [e])
          mat := if z then { m with acc := m.acc.set r.val (Vector.replicate 64 0) } else m }))
  ∧ (∀ (m : Mat) (i j : Fin 64),
    let u := m.close
    let x := (m.stage[i])[j]
    ((u.acc[i])[j] = if m.float then BitVec.ofNat 80 (a80.encode rne (Machine.Num.add .rne (a80.decode ((m.acc[i])[j]).toNat) x))
        else (m.acc[i])[j] + BitVec.ofInt 80 x.toInt)
    ∧ (u.stage[i])[j] = Machine.Num.zero ∧ u.pushed = 0 ∧ u.ga.val = (m.ga.val + m.active.step) % 4096
    ∧ u.gb = m.gb ∧ u.next = m.next ∧ u.land = m.land ∧ u.float = m.float)
  ∧ (∀ (s : State) (n : HReg) (h : Handle) (m : Mat) (i j : Fin 64),
    let u := s.pushMat n h m
    let moves := m.pushed = 0 ∧ m.next.valid = true
    let act := if moves then m.next else m.active
    let el := fun (q : Nat) =>
      let g := m.ga.val + q / 12
      s.aElem h (h.usedPlanes (s.fetch16 h) g) m.pushed i.val g (q % 12)
    let whole := fun (a : AElem) (b : Machine.Num) => if m.pushed = 0 then Machine.Num.mul a.whole b else Machine.Num.zero
    let product := fun (a : AElem) (b : Machine.Num) =>
      let x := if a.special || b.isSpecial then whole a b else Machine.Num.mul a.part b
      if x.isZero then Machine.Num.zero else x
    let adds := fun (x : Machine.Num) (e : BElem) =>
      if e.col = j ∧ e.sel < 12 * act.step then Machine.Num.add .rne x (product (el e.sel) e.val) else x
    u.pushed = m.pushed + 1 ∧ u.active = act ∧ u.next = (if moves then {} else m.next)
    ∧ u.ghandle = (if m.pushed = 0 then some n else m.ghandle) ∧ u.ga = m.ga ∧ u.gb = m.gb ∧ u.acc = m.acc ∧ u.land = m.land
    ∧ u.float = m.float ∧ (u.stage[i])[j] = (if i.val < h.rows then act.elems.foldl adds (m.stage[i])[j] else (m.stage[i])[j]))
  ∧ (∀ (s : State) (h : Handle) (m : Mat) (e : BElem),
    let u := s.shiftMat h m
    let gb := m.gb.val
    let t := gb / h.step
    let ones := fun (c : Nat) =>
      (List.range h.step).flatMap fun j => ((List.range 12).filter (s.maskOf h (t * h.step + j) c).testBit).map (12 * j + ·)
    u.next.valid = true ∧ u.next.step = h.step ∧ u.gb.val = (gb + h.step) % 4096 ∧ u.active = m.active ∧ u.stage = m.stage ∧ u.acc = m.acc
    ∧ u.pushed = m.pushed ∧ u.ga = m.ga ∧ u.ghandle = m.ghandle ∧ u.land = m.land ∧ u.float = m.float
    ∧ (h.spn = 0 → (e ∈ u.next.elems ↔ e.col.val < h.rows ∧ e.sel < 12
        ∧ e.val = if h.kgrp ≤ gb then Machine.Num.zero else s.bElem h gb e.col.val e.sel (12 * gb + e.sel)))
    ∧ (h.spn ≠ 0 → h.stored ≤ t → u.next.elems = [])
    ∧ (h.spn ≠ 0 → t < h.stored → (e ∈ u.next.elems ↔ e.col.val < h.rows
        ∧ ∃ p, p < 12 ∧ (ones e.col.val)[p]? = some e.sel ∧ e.val = s.bElem h t e.col.val p (12 * t * h.step + e.sel))))

/-- R87, R88, R282 to R284: MREM to a queue or to a landing FIFO reserves an entry that a valid SKEW makes due, its row read at
issue unless an earlier job has still to write it (R140); MACC.R adds the oldest landed row to its accumulator row; MSKEW
reserves an entry with the tile cycles measured, SKEW and ENGINE; that what it measures, a free value, is not above SKEW, so that the null
beat is back when its entry is due, is the model's choice (log 7): a late one is an input and shows itself in lane 0. -/
def Obligations.RemoteBeats : Prop := ∀ (s u : State) (a : HReg) (r : Fin 64) (e : Fin 2) (q : QReg) (x : LandRow) (l : List LandRow),
  let t := s.tile
  let h := t.handles[a.val]
  let m := t.mat
  let due := t.tc + t.skewOf e
  let held := u.tile.heldUp u.tile.jobCtr (h.beatFeet u.tile.jobCtr)
  let v := if held then (u.beatLost, false, Row.zero) else u.remoteRow e h r.val
  let ask : Option Ask := if held then some ⟨h.img, r⟩ else none
  let entry : QEntry :=
    { tag := if v.2.1 then 1 else 2, cells := v.2.2, due := due, arrived := false, remote := some e, foot := u.tile.jobCtr
      ask := ask, failed := v.1 }
  let row : LandRow :=
    { row := r, due := due, arrived := false, float := v.2.1, cells := v.2.2, foot := u.tile.jobCtr, ask := ask, failed := v.1 }
  let skew : Row := Vector.ofFn fun i =>
    if i.val = 0 then BitVec.ofNat 32 (min (Config.delay s.freeCtr) (t.skewOf e))
    else if i.val = 1 then BitVec.ofNat 32 (t.skewOf e) else if i.val = 2 then BitVec.ofNat 32 (fld (t.skew[e.val]).toNat 48 8) else 0
  let sound := remTrap t a e = none ∧ s.reads s (h.rowReads r.val) u
  (sound → (t.queues[q.val]).length < 16 → Clear s (.mremQueue a r e q) → Does s (.mremQueue a r e q)
      (u.mapTile fun t => (t.reserve q entry).remoteFoot h))
  ∧ (sound → (m.land[e.val]).length < 8 → Clear s (.mremAcc a r e) → Does s (.mremAcc a r e)
      (u.mapTile fun t =>
        { (t.remoteFoot h) with mat := { t.mat with land := t.mat.land.set e.val (m.land[e.val] ++ [row]) } }))
  ∧ (m.land[e.val] = x :: l → x.arrived = true → x.failed = false → (m.float = true ∨ x.float = false) →
      t.badAcc.getLsbD x.row.val = false → Turns s (.maccR e) fun t => { t with mat := { m with
        acc := m.acc.set x.row.val (Vector.ofFn fun j => accAdd m.float (m.acc[x.row.val])[j] (landValue x.float x.cells[j]))
        land := m.land.set e.val l } })
  ∧ (t.skewValid e = true → (t.queues[q.val]).length < 16 → Clear s (.mskew q e) → Does s (.mskew q e)
      ((s.fresh).2.mapTile fun t =>
        t.reserve q { tag := 2, cells := skew, due := due, arrived := false, remote := some e, sent := some t.tc, failed := s.beatLost }))

/-! ## The engine slot -/

/-- R289 to R299, R272: on a channel that the core owns CPBASE, CPNEST and CPFOOT write setup words, CPGO queues a job that
passes its checks, CPDRAIN of an idle channel without an error writes back the window lines and publishes the slice bytes that
its copies wrote (R141); CPSTAT reads
a channel's state. -/
def Obligations.CopyChannels : Prop := ∀ (s u : State) (ch : ChNo) (l k : Fin 8) (d a b : SReg) (j : CopyJob),
  let x := s.tile.sreg a
  let y := s.tile.sreg b
  let z := s.tile.sreg d
  let ctl := (s.tile.setup[ch.val])[2]
  let lv : Fin 16 := ⟨l.val + 3, by omega⟩
  (s.tile.owns .core ch = true →
    Turns s (.cpbase ch d a b) (fun t => ((t.putSetup ch 0 x).putSetup ch 1 y).putSetup ch 2
      (BitVec.ofNat 64 (z.toNat - fld z.toNat 22 2 * 2 ^ 22)))
    ∧ (1 ≤ x.toNat → x.toNat ≤ 65536 → strideOk y.toInt = true → strideOk z.toInt = true →
      Turns s (.cpnest ch l d a b) fun t => t.putSetup ch lv
        (BitVec.ofNat 64 ((x.toNat - 1) * 2 ^ 48 + lowBits 24 z.toInt * 2 ^ 24 + lowBits 24 y.toInt)))
    ∧ (x.toNat < y.toNat → Turns s (.cpfoot ch k a b) fun t =>
        if k = 0 then ((t.putSetup ch 10 x).putSetup ch 11 y).putSetup ch 2 (ctl ||| BitVec.ofNat 64 (2 ^ 22))
        else ((t.putSetup ch 12 x).putSetup ch 13 y).putSetup ch 2 (ctl ||| BitVec.ofNat 64 (2 ^ 23)))
    ∧ (∀ v, (s.tile.chans[ch.val]).err = false → (s.tile.chans[ch.val]).jobs = [] →
        s.writeBacks (s.tile.chans[ch.val]).lines = .ok v → Clear s (.cpdrain ch) → Does s (.cpdrain ch)
          ((v.drainCopies ch).mapTile fun t => { t with chans := t.chans.set ch.val { (t.chans[ch.val]) with lines := [] } })))
  ∧ (copyChecks s .core ch s.tile.setup[ch.val] = .ok (u, j) → s.tile.spec = none → (s.tile.chans[ch.val]).jobs.length < 8 →
      s.tile.ccp < 24 → (j.pages = [] ∨ s.tile.dataThere) → Clear s (.cpgo ch) →
        Does s (.cpgo ch) (u.enqueueCopy ch j))
  ∧ SetsReg s (.cpstat ch d) d (s.tile.cpstat ch)

/-- R300 to R303, R142: sends of a queue's oldest entry or of 256 scratchpad bytes on a valid send end with fewer than 32
rows unacknowledged; receives of the oldest row at a receive end into the scratchpad; CRECV.t without a row writes 0;
PUTC. All outside speculation. -/
def Obligations.Circuits : Prop := ∀ (s u : State) (q : QReg) (k : EndNo) (m : SemNo) (d a b : SReg) (e : QEntry)
    (l : List QEntry) (r : CircRow) (ps : List Page),
  let x := (s.tile.sreg a).toNat
  let w := s.tile.endWord k
  let sends := endValid w = true ∧ endRecv w = false ∧ s.unacked k < 32 ∧ s.tile.ctl < 24
  let gets := endValid w = true ∧ endRecv w = true ∧ accessCheck s.alone .spOnly 4 x 256 = none
  let taken := s.mapTile fun t => t.takeRow k r
  s.tile.spec = none →
    (sends → s.tile.queues[q.val] = e :: l → e.arrived = true → e.failed = false → Clear s (.qsend q k) →
      Does s (.qsend q k) (({ s with tile := { s.tile with queues := s.tile.queues.set q.val l } } : State).sendRow k e.cells true))
    ∧ (sends → accessCheck s.alone .spOnly 4 x 256 = none → memPrep s s false [(x, x + 256)] = .ok u →
      Clear s (.csend k a) → Does s (.csend k a) (u.sendRow k (rowOf (u.coreBytes x 256)) false))
    ∧ (gets → s.tile.oldestRow k = some r → r.spec = none → memPrep s taken true [(x, x + (rowBytes r.cells 64).length)] = .ok u →
      u.tile.spec = none → (Clear s (.crecv k a) → Does s (.crecv k a) (u.performStore x (rowBytes r.cells 64)))
        ∧ (Clear s (.crecvT k d a) → Does s (.crecvT k d a)
          ((u.performStore x (rowBytes r.cells 64)).mapTile fun t => t.write (.sreg d) 1)))
    ∧ (gets → s.tile.oldestRow k = none → SetsReg s (.crecvT k d a) d 0)
    ∧ (putOk (s.tile.sreg b) = true → localCheck s.tile.priv 4 x (putLen (s.tile.sreg b)) = none →
        s.tile.offLocal x (putLen (s.tile.sreg b)) = false → s.sourceTrap x (putLen (s.tile.sreg b)) = none →
        probeBox s .write (s.tile.sreg d).toNat ((s.tile.sreg d).toNat + putLen (s.tile.sreg b) : Nat) = .ok (u, ps) →
        s.tile.dataThere → s.tile.ctl < 24 → Clear s (.putc m d a b) →
          Does s (.putc m d a b) (u.putc m (s.tile.sreg d) (s.tile.sreg a) (s.tile.sreg b) ps))

/-- R304 to R306, R288: GJOIN of a granted group that the task has not joined adds it and writes the group's status; GRED
outside speculation issues the member's part; GSTAT reads the status, GSTAT.err the engine error register. -/
def Obligations.Groups : Prop := ∀ (s : State) (k : SemNo) (d a b : SReg),
  let v := s.tile.sreg a
  let g := groupOf v
  let u := s.mapTile fun t => { t with task := t.task.map fun x => { x with joined := x.joined ++ [g] } }
  (v.toNat < 65536 → (s.member g).isSome = true → (s.tile.task.any fun x => x.joined.contains g) = false →
      Clear s (.gjoin d a) → Does s (.gjoin d a) (u.mapTile fun t => t.write (.sreg d) (u.gstat g)))
  ∧ (gredTrap s.alone s k v.toNat (s.tile.sreg d).toNat (s.tile.sreg b) = none → s.tile.spec = none → s.tile.ctl < 24 →
      Clear s (.gred k d a b) → Does s (.gred k d a b) (s.gred k (s.tile.sreg d) v (s.tile.sreg b)))
  ∧ SetsReg s (.gstat d a) d (s.gstat g) ∧ SetsReg s (.gstatErr d) d s.tile.engerr

/-- R148, R307, R161: PRED of a task that may speculate, on a declared predictable ring, outside speculation: the slot at CIDX
being full, it is taken and the predicate written false; it being filled by another agent with a history, and no wait for
it being full having begun, the bundle stays and speculation begins; at its next attempt once the shadow slot is complete the predicate is written true. PSTAT
reads SPECST. -/
def Obligations.Predictions : Prop := ∀ (s : State) (p : PReg) (n : RingNo) (r : Fin 8) (d : SReg) (q : Spec) (k : Team),
  let x := s.tile.rings[r.val]
  let may := s.tile.ringNo n.val = some r ∧ (s.tile.task.any (·.mayspec)) = true ∧ x.pred = true ∧ s.tile.predDone = false
  (may → s.tile.spec = none → x.st[x.cidx.val] = .full → Turns s (.pred p n) fun t =>
      (t.setRing r { (x.setSlot x.cidx .draining .core) with cidx := x.next x.cidx }).write (.pred p) (boolWord false))
  ∧ (may → s.tile.spec = none → x.st[x.cidx.val] = .filling → x.own[x.cidx.val] ≠ .core → x.vcnt ≠ 0 → s.team = some k →
      s.tile.wait.any (fun w => w.kind == .full n) = false → s.hasRoom k.rcb 11 (specLimit s) 1 = true → Clear s (.pred p n) → exec (.pred p n) s = .next (s.predict r x.cidx).holdIssue)
  ∧ (may → s.tile.spec = some q → q.begun = false → q.shadowDone = true → Turns s (.pred p n) fun t =>
      ({ t with spec := t.spec.map fun (q : Spec) => { q with begun := true } } : Tile).write (.pred p) (boolWord true))
  ∧ SetsReg s (.pstat d) d s.tile.specst

/-- R308 to R312, R274: ring and sparsity status, translation queries and the mailbox of the tile core. -/
def Obligations.Queries : Prop := ∀ (s u : State) (p : PReg) (n : RingNo) (h : HReg) (d a : SReg) (k : Fin 16) (box : Fin 3)
    (v : BitVec 32) (l : List (BitVec 32)),
  let x := (s.tile.sreg a).toNat
  let hd := s.tile.handles[h.val]
  let ready := s.tile.dataThere
  (∀ i : Fin 8, n.val = i.val → SetsBoth s (.ringQuery p n d) d (s.tile.rings[i.val]).desc p (s.tile.rings[i.val]).valid)
  ∧ (hd.valid = true → hd.spn = 0 → SetsBoth s (.spxStat p h d) d 0 p false)
  ∧ (hd.valid = true → hd.spn ≠ 0 → s.reads s ((List.range hd.stored).flatMap hd.maskReads) u → ready →
      Clear s (.spxStat p h d) → Does s (.spxStat p h d) (u.spend.mapTile fun t =>
        (t.write (.sreg d) (((s.badMask hd).map (BitVec.ofNat 64)).getD (BitVec.allOnes 64))).write (.pred p)
          (boolWord (s.badMask hd).isNone)))
  ∧ (ready → SetsBoth s (.probe p d a) d (s.probe x).2 p (s.probe x).1)
  ∧ SetsBoth s (.leaseq p d a) d (BitVec.ofNat 64 ((leaseLeft s.leases x).getD 0)) p (leaseLeft s.leases x).isSome
  ∧ (k.val = box.val → (s.tile.mbx[box.val]).length < 8 → Clear s (.mbxs k a) → Does s (.mbxs k a)
      (s.tileRelease.mapTile fun t =>
        { t with mbx := t.mbx.set box.val (t.mbx[box.val] ++ [(s.tile.sreg a).setWidth 32]) }))
  ∧ (s.tile.mbx[0] = v :: l →
      Turns s (.mbxr d) (fun t => ({ t with mbx := t.mbx.set 0 l }).write (.sreg d) (v.setWidth 64))
      ∧ Turns s (.mbxrT p d) fun t => (({ t with mbx := t.mbx.set 0 l }).write (.sreg d) (v.setWidth 64)).write (.pred p) 1)
  ∧ (s.tile.mbx[0] = [] → Turns s (.mbxrT p d) fun t => (t.write (.sreg d) 0).write (.pred p) 0)

/-! ## The loader and storer cores -/

/-- R273, R60, R62, R289, R274: the custom instructions of the core g whose turn it is, each moving its pc by 4: a slot
acquired or taken, its number in bits 31:24 and its address below; a slot published or freed; a ring's state; half a setup
word; a copy queued or drained; a message sent or received; the number of messages. -/
def Obligations.LoaderStorer : Prop := ∀ (s u : State) (g : LsAgent) (d a b : XReg) (n : Fin 8) (k : Fin 16) (h : Fin 32)
    (ch : ChNo) (box : Fin 3) (t : Tile) (j : CopyJob) (v : BitVec 32) (l : List (BitVec 32)),
  let own := lsOwner g
  let x := s.xreg g a
  let c := lsChan x
  let ends := fun (i : Instr) (u : State) =>
    exec i s = .next (u.mapLs g fun q => { q with pc := q.pc + 4, flagged := 0 })
  let gives := fun (t : Tile) => ({ s with tile := t } : State).mapLs g fun q =>
    q.setReg d (BitVec.ofNat 32 (k.val * 2 ^ 24 + (t.rings[n.val]).slotAddr k.val))
  let half := fun (w : Word) => if h.val % 2 = 1 then BitVec.ofNat 64 (x.toNat * 2 ^ 32 + w.toNat % 2 ^ 32)
    else BitVec.ofNat 64 (w.toNat / 2 ^ 32 * 2 ^ 32 + x.toNat)
  let w : Fin 16 := ⟨h.val / 2, by omega⟩
  s.lsTurn = g →
    (s.tile.ringNo x.toNat = some n →
      (s.tile.acquire own n = .got k t → ends (.vlRacq d a) (gives t))
      ∧ (s.tile.take own n = .got k t → ends (.vlRtake d a) (gives t))
      ∧ ((s.tile.rings[n.val]).slotNo (s.xreg g b).toNat = some k →
          (s.tile.mayPublish own n k = true → ends (.vlRpub a b) (s.mapTile fun t => t.publish n k))
          ∧ (s.tile.mayFree own n k = true → s.tile.copying n k = false → ends (.vlRfree a b) (s.mapTile fun t => t.freeSlot n k)))
      ∧ ends (.vlRq d a) (s.mapLs g fun q => q.setReg d ((s.tile.bufq n).setWidth 32)))
    ∧ (s.tile.owns (lsAgentOf g) ch = true → ends (.vlCpset a h ch) (s.mapTile fun t =>
        t.putSetup ch w (half (t.setup[ch.val])[w.val])))
    ∧ (copyChecks s (lsAgentOf g) c s.tile.setup[c.val] = .ok (u, j) → (s.tile.chans[c.val]).jobs.length < 8 → s.tile.ccp < 24 →
        ends (.vlCpgo a) (u.enqueueCopy c j))
    ∧ (∀ v, s.tile.owns (lsAgentOf g) c = true → (s.tile.chans[c.val]).err = false → (s.tile.chans[c.val]).jobs = [] →
        s.writeBacks (s.tile.chans[c.val]).lines = .ok v → ends (.vlCpdrain a) ((v.drainCopies c).mapTile fun t =>
          { t with chans := t.chans.set c.val { (t.chans[c.val]) with lines := [] } }))
    ∧ (x.toNat = box.val → (s.tile.mbx[box.val]).length < 8 → ends (.vlMbxs a b) (s.mapTile fun t =>
        { t with mbx := t.mbx.set box.val (t.mbx[box.val] ++ [s.xreg g b]) }))
    ∧ (s.tile.mbx[(lsBox g).val] = v :: l → ends (.vlMbxr d)
        ((s.mapTile fun t => { t with mbx := t.mbx.set (lsBox g).val l }).mapLs g fun q => q.setReg d v))
    ∧ ends (.vlMbxt d) (s.mapLs g fun q => q.setReg d (BitVec.ofNat 32 (s.tile.mbx[(lsBox g).val]).length))

/-! ## Steps of a tile -/

/-- R225, R313, R315, R83, R88, R69, R319, R71: results, counted operations and fills land when they are due, the oldest first;
a queue's entries and an engine's rows arrive when they are due, footprints of remote beats ending (R139), what an earlier job
held up being read now (R140); a fill's line is clean, its access counted on its page (R386); a dirty line may be written back
at any time, one whose translation fails staying dirty. R135, R420: the home of a fill can be reached. R263: a fill that meets an uncorrectable error is
abandoned, its line staying untouched, and the accessing bundle raises MACHINE_CHECK. -/
def Obligations.TileLandings : Prop := ∀ (s : State) (fa fb : List Flight) (f : Flight) (oa ob : List PendOp) (o : PendOp)
    (q : QReg) (e : Fin 2) (wa wb : List Fill) (w : Fill) (n : MapNo) (line : Fin 8192) (x : WinLine),
  let t := s.tile
  let row := fun (a : Ask) => s.remoteRow e { img := a.img } a.row.val
  let entered := fun (x : QEntry) => match x.ask with
    | none => { x with arrived := true }
    | some a => { x with arrived := true, ask := none, tag := if (row a).2.1 then 1 else 2, cells := (row a).2.2
                         failed := x.failed || (row a).1 }
  let landed := fun (x : LandRow) => match x.ask with
    | none => { x with arrived := true }
    | some a => { x with arrived := true, ask := none, float := (row a).2.1, cells := (row a).2.2, failed := x.failed || (row a).1 }
  let feet := t.queues.toList.flatMap (fun q => (q.filter fun x => x.lands e t).map (·.foot))
    ++ ((t.mat.land[e.val]).filter fun x => x.lands t).map (·.foot)
  let m := t.maps[w.entry.val]
  let old := fun (l : List Host.Cell) => l.filter fun p => decide (p.1 < m.lo + 256 * w.line ∨ m.lo + 256 * w.line + 256 ≤ p.1)
  let fetched := ((s.mapTile fun t => { t with fills := wa ++ wb }).spRaw (m.lo + 256 * w.line) (s.mem.bytes w.spa 256)).mapTile
    fun t => { t with handles := t.handles.map fun h => { h with undo := h.undo.map old } }
  (t.flights = fa ++ f :: fb → (∀ g, g ∈ fa → t.tc < g.due) → f.due ≤ t.tc →
      exec .resultLand s = .next (s.mapTile fun t => { (t.landFlight f) with flights := fa ++ fb }))
  ∧ (t.ops = oa ++ o :: ob → (∀ p, p ∈ oa → t.tc < p.due) → o.due ≤ t.tc →
      exec .operationComplete s = .next (s.mapTile fun t => { (t.uncount o.ctr) with ops := oa ++ ob }))
  ∧ exec (.drainEntryArrive q) s = .next (s.mapTile fun t => { t with
      queues := t.queues.set q.val ((t.queues[q.val]).map fun x =>
        if x.remote = none ∧ x.due ≤ t.tc then { x with arrived := true } else x) })
  ∧ exec (.remoteRowLand e) s = .next (s.mapTile fun t => { t with
      queues := t.queues.map fun q => q.map fun x => if x.lands e t then entered x else x
      mat := { t.mat with land := t.mat.land.set e.val ((t.mat.land[e.val]).map fun x => if x.lands t then landed x else x) }
      feet := t.feet.filter fun f => !(f.remote && feet.contains f.id) })
  ∧ (s.cluster.ticks = true → t.fills = wa ++ w :: wb → (∀ g, g ∈ wa → t.tc < g.due) → w.due ≤ t.tc → s.cutOff w.part w.spa = none →
      ((∀ k, w.spa ≤ k → k < w.spa + 256 → s.bad.contains k = false) →
        exec .windowFillReturn s = .next ((fetched.countFor w.part w.va ⟨w.spa, w.leaf⟩).mapTile fun t =>
          let t := t.fillLine (spaClass s w.spa).bit w
          if w.who = .core then { t with filled := ((w.entry, w.line), w.ready) :: t.filled } else t))
      ∧ (∀ k, w.spa ≤ k → k < w.spa + 256 → s.bad.contains k = true → (∀ i, w.spa ≤ i → i < k → s.bad.contains i = false) →
          w.who = .core → t.task.isSome = true → t.stopped = false → t.ending = none →
          exec .windowFillReturn s = .next ((s.mapTile fun t => { t with fills := wa ++ wb }).raise t.pc
            { cause := .machineCheck, slot := 4, val := BitVec.ofNat 64 (k / 64 * 64) })))
  ∧ ((t.maps[n.val]).valid = true → (t.maps[n.val]).line line.val = some x → x.mask ≠ 0 →
      (∀ u, s.writeBack n line.val = .ok u → exec (.spontaneousWriteback n line) s = .next u)
      ∧ (∀ u, s.writeBack n line.val = .error u → exec (.spontaneousWriteback n line) s = .next s))

/-- R62, R140, R296, R297, R380: the oldest job of a channel fires, no earlier job's footprint and no slot state (R61, R152) in its
way, with the slots that its ring sides take and acquire; a fired job that is due, no window line under its sides wanting a fill
(R69) and no history copy its input slot (R147), copies every element, fills its output slot, empties its input
slot and leaves cp, its pages being within reach (R420, R422); one that meets an uncorrectable error keeps the elements before it and loses its queue; a TLB drops an
entry. -/
def Obligations.CopySteps : Prop := ∀ (s : State) (c : ChNo) (j : CopyJob) (l : List CopyJob) (u v : Tile)
    (ki ko : Option (Fin 16)) (elem : Nat) (cl : ClusterNo) (tn : TileNo) (i : Nat),
  let t := s.tile
  let x := t.chans[c.val]
  let px := j.src.placed t j.id (j.derived j.src.base (·.sstr)) false
  let py := j.dst.placed t j.id (j.derived j.dst.base (·.dstr)) true
  let takes := match j.src.ring with
    | none => u = t ∧ ki = none
    | some n => ∃ k, t.take (.chan c) n = .got k u ∧ ki = some k
  let gets := match j.dst.ring with
    | none => v = u ∧ ko = none
    | some n => ∃ k, u.acquire (.chan c) n = .got k v ∧ ko = some k
  let fills := fun (t : Tile) => match j.dst.ring, j.outSlot with
    | some n, some k => t.publish n k
    | _, _ => t
  let empties := fun (t : Tile) => match j.src.ring, j.inSlot with
    | some n, some k => t.freeSlot n k
    | _, _ => t
  let fails := fun (elem : Nat) => (j.copy c elem s).mapTile fun t =>
    let gone := (t.chans[c.val]).jobs
    { t with
      chans := t.chans.set c.val { (t.chans[c.val]) with jobs := [], err := true }
      feet := t.feet.filter fun f => !gone.any fun g => g.id == f.id
      ccp := t.ccp - gone.length }
  x.jobs = j :: l →
    (j.fired = false → x.err = false → t.heldUp j.id (j.feet ++ px ++ py) = false → j.slots t c = .ok → takes → gets →
      let g := { j with fired := true, inSlot := ki, outSlot := ko }
      exec (.copyJobFire c) s = .next { s with tile := { v with
        chans := v.chans.set c.val { x with jobs := { g with due := t.tc + g.time v } :: l }
        feet := v.feet ++ px ++ py } })
    ∧ (j.fired = true → j.due ≤ t.tc → j.windows s c = .ok s → s.copyCut j = none → j.kept t = false → s.copyMeets j = none → exec (.copyJobComplete c) s = .next ((j.copy c j.count s).mapTile fun t =>
        let x : Chan := { (t.chans[c.val]) with jobs := (t.chans[c.val]).jobs.tail }
        empties (fills ((({ t with chans := t.chans.set c.val x } : Tile).dropFeet j.id).uncount .cp))))
    ∧ (j.fired = true → elem < j.count → exec (.copyDataErrorEvent c elem) s = .next (fails elem))
    ∧ (j.fired = true → j.due ≤ t.tc → j.windows s c = .ok s → s.copyCut j = none → s.copyMeets j = some elem → exec (.copyJobComplete c) s = .next (fails elem))
    ∧ exec (.tlbEntryDrop cl tn 0 i) s =
        .next (s.setTile { (s.tileAt ⟨cl, tn⟩) with tlb := (s.tileAt ⟨cl, tn⟩).tlb.eraseIdx i })
    ∧ exec (.tlbEntryDrop cl tn 1 i) s = .next { s with
        clusters := s.clusters.set cl.val { (s.clusters[cl.val]) with tlb := (s.clusters[cl.val]).tlb.eraseIdx i } }
    ∧ exec (.tlbEntryDrop cl tn 2 i) s = .next { s with
        dies := s.dies.set (dieOf cl).val { (s.dies[(dieOf cl).val]) with tlb := (s.dies[(dieOf cl).val]).tlb.eraseIdx i } }

/-- R147, R149, R156, R157: the steps of speculation that are due: a history copy moves H1 to H2 and the published
slot to H1; the shadow slot receives the predicted bytes; the compare of a published slot with the shadow gives its
verdict; a speculation whose prediction passed, and which depends on no task, commits, its held effects then released one
after another, a held store first waiting for no edge and no counter; with the last of them its slot of the budget is freed and
its deferred fault raised. That each effect is released in a step of its own, a store once no edge and no full counter holds it up, and that the
history copies of the slots published in speculation begin at the commit, is the model's (log 25); that a released store counts in st until 4 tile
cycles later is the model's choice (log 7). R69: no window line under the predictor's areas wants a fill. R158: a squash restores the tile to its speculation point: the bundle
there, and every register, predicate, grid row and array cell of the checkpoint; nothing is in flight, and the squash
is counted. -/
def Obligations.SpeculationSteps : Prop :=
  (∀ (s : State) (b : Fin 8) (h : Fin 16 × Nat) (l : List (Fin 16 × Nat)) (p : Spec),
    let t := s.tile
    let r := t.rings[b.val]
    let n := r.slotBytes
    let predicted := predictBytes (prdLinear r.prd) r.vcnt (prdFmt r.prd) (s.spBytes r.hist1 n) (s.spBytes r.hist2 n)
    (r.hist = h :: l → h.2 ≤ t.tc → s.historyPrep b = .ok s → exec (.historyCopyComplete b) s =
        .next (((s.spStore r.hist2 (s.spBytes r.hist1 n)).spStore r.hist1 (s.spBytes (r.slotAddr h.1.val) n)).mapTile fun t =>
          t.setRing b { r with hist := l, vcnt := min 2 (r.vcnt + 1) }))
    ∧ (t.spec = some p → p.ring = some b → p.shadowDone = false → p.shadowDue ≤ t.tc → s.shadowPrep b = .ok s →
        exec .shadowWriteComplete s = .next ((s.spStore r.shadow predicted).mapTile fun u =>
          { u with spec := some { p with shadowDone := true, cmpDue := if p.published then t.compareDue b else 0 } }))
    ∧ (t.spec = some p → p.ring = some b → p.published = true → p.shadowDone = true → p.verdict = none → p.cmpDue ≤ t.tc →
        s.comparePrep p b = .ok s → exec .toleranceCompare s = .next (s.mapTile fun t => { t with spec := some { p with
          verdict := some (compareBytes r.prd (s.spBytes (r.slotAddr p.slot.val) n) (s.spBytes r.shadow n)) } }))
    ∧ (s.cluster.ticks = true → t.releasing = none → t.spec = some p → (p.ring = none ∨ p.verdict = some true) → p.deps = [] →
        exec .specCommit s = .next ((s.mapTile fun t => p.pubbed.foldl (fun t x => t.startHistory x.1 x.2) { t with
            spec := none, commits := t.commits + 1, predDone := t.predDone || !p.begun, stallSince := none
            releasing := some ⟨p.held, p.fault⟩ }).settleRows t.id)))
  ∧ (∀ (s u : State) (r : Releasing) (e : Held) (l : List Held) (ps : List (Nat × List Byte)) (k : Team), s.tile.releasing = some r →
    let freed := (s.mapTile fun t => { t with releasing := none }).charge k.rcb 11 false 1
    (s.cluster.ticks = true → r.held = e :: l → s.releaseHeld e = .done u →
        exec .specCommit s = .next (u.mapTile fun t => { t with releasing := some { r with held := l } }))
    ∧ (e.op = .store ps → (∀ x, x ∈ ps → s.tile.edge true x.1 (x.1 + x.2.length) = false) → s.tile.cst < 24 →
        s.releaseHeld e = .done ((s.performStores ps).mapTile fun t => t.countUntil .st (t.tc + 4)))
    ∧ (s.cluster.ticks = true → r.held = [] → s.team = some k → exec .specCommit s = .next (match r.fault with
        | none => freed
        | some f => (freed.mapTile fun t => t.clearDeferred f).deliver f freed.tile.pc)))
  ∧ (∀ (s : State) (p : Spec), s.tile.spec = some p → p.verdict = some false → s.cluster.ticks = true →
    ∃ u, exec .specSquash s = .next u ∧ u.tile.id = s.tile.id ∧ u.tile.spec = none ∧ u.tile.pc = p.pt
      ∧ u.tile.sregs = p.chk.sregs ∧ u.tile.preds = p.chk.preds ∧ u.tile.pass = p.chk.pass ∧ u.tile.feed = p.chk.feed
      ∧ u.tile.rrb = p.chk.rrb ∧ u.tile.grid = p.chk.grid ∧ u.tile.tags = p.chk.tags ∧ u.tile.lcr = p.chk.lcr
      ∧ u.tile.bmr = p.chk.bmr ∧ u.tile.handles = p.chk.handles ∧ u.tile.mat = p.chk.mat ∧ u.tile.queues = p.chk.queues
      ∧ u.tile.maps = p.chk.maps ∧ u.tile.setup = p.chk.setup ∧ u.tile.flights = [] ∧ u.tile.squashes = s.tile.squashes + 1)

/-- R322 to R325, R321, R400, R391, R154, R24, R25, R26: a flagged bundle is replayed, the eighth flag in a row raising
REPLAY_STORM. R121: the flagged bundle is squashed before any of its accesses: memory, the tile's view and its stores, its queues,
arrays and registers stay, and it is to be issued again at its place; so with an instruction of a loader or storer core, which
is issued 4 of its cycles later (R324). A droop changes the droop count alone; a stall longer than WDOG raises WATCHDOG; a fault of the loader or
storer is raised at the bundle; the first waiter on a semaphore, its counts there, is called and goes on at its bundle, which is
executed again: the model's choice (log 23), R24 and R25 giving the order and the taking; a block
starts at once, or once its waits' counts are there, taken all at once, its boundary performed. -/
def Obligations.TimingAndBlocks : Prop := ∀ (s : State) (c : ClusterNo) (k : SemNo) (g : LsAgent) (e : TrapInfo) (x : Task)
    (t0 : Nat) (w : Waiter) (l : List Waiter) (d : Descriptor) (ws : SemNo × Nat) (wl : List (SemNo × Nat)),
  let t := s.tile
  let cl := s.clusters[c.val]
  let limit := fld (s.fdWord 5) 0 32
  let flagged := s.issuing
  let starts := s.cluster.ticks = true ∧ t.task = some x ∧ t.ending = none ∧ t.stopped = false ∧ t.releasing = none
    ∧ (∀ p, t.spec = some p → p.fault = none) ∧ isDescriptor t.pc (s.codeWord t.pc) = true
    ∧ s.blockTarget t.pc = none ∧ s.descriptorAt t.pc = some d
  (s.turn = .core → flagged = true → t.flagged < 7 → exec .timingReplay s =
      .next (((s.countReplay false).logReplay).mapTile fun t => { t with
        tc := t.tc + (if t.reissue then 4 else 3), replays := t.replays + 1, flagged := t.flagged + 1, reissue := true }))
  ∧ (s.turn = .core → flagged = true → 7 ≤ t.flagged → exec .timingReplay s =
      .next (((s.countReplay true).mapTile fun t => { t with tc := t.tc + 1 }).raise t.pc { cause := .replayStorm }))
  ∧ (s.turn = .core → flagged = true → t.flagged < 7 → ∃ u, exec .timingReplay s = .next u ∧ u.mem = s.mem ∧ u.tile.view = t.view
      ∧ u.tile.unpub = t.unpub ∧ u.tile.tpub = t.tpub ∧ u.tile.maps = t.maps ∧ u.tile.ops = t.ops ∧ u.tile.flights = t.flights
      ∧ u.tile.toArch = t.toArch ∧ u.tile.pc = t.pc ∧ u.tile.reissue = true ∧ u.puts = s.puts ∧ u.rows = s.rows ∧ u.teams = s.teams)
  ∧ (s.turn = (match g with | .loader => .loader | .storer => .storer) → s.cluster.ticks = true → s.lsIssues g = true →
      (t.ls g).flagged < 7 → exec .timingReplay s = .next
        ((s.countReplay false).mapLs g fun c => { c with flagged := c.flagged + 1, hold := 4 }))
  ∧ (cl.state = .running ∨ cl.state = .quarantine ∨ cl.state = .calibrating → exec (.droop c) s =
      .next { s with clusters := s.clusters.set c.val { cl with droops := cl.droops + 1 } })
  ∧ (s.cluster.ticks = true → t.task = some x → t.ending = none → (t.stopped = false ∨ t.grace = true) → t.stallSince = some t0 → limit ≠ 0 → limit < s.time.toNat - t0 →
      exec .watchdog s = .next (s.raise t.pc { cause := .watchdog }))
  ∧ (s.cluster.ticks = true → (t.ls g).fault = some e → t.task = some x → t.stopped = false → t.ending = none → t.spec = none →
      exec (.loaderStorerFault g) s = .next ((s.mapLs g fun c => { c with fault := none }).raise t.pc e))
  ∧ (cl.waiters = w :: l → w.called = false → (∃ n, (k, n) ∈ w.takes) → cl.holds w.takes = true → s.canGo w.tile = true →
      exec (.semWaitServed c k) s = .next ({ (({ s with clusters := s.clusters.set c.val (cl.call w.tile) } : State).focus
        w.tile) with turn := .core }).issueHere)
  ∧ (starts → d.waits = [] → exec .blockStart s = .next (s.mapTile fun u => u.enterBlock t.pc d))
  ∧ (starts → d.waits = ws :: wl → t.spec = none → t.engerr.getLsbD 63 = false → s.calm 3 →
      s.homeShut = false → (∃ p, p ∈ d.waits ∧ p.2 ≠ 0) → s.mayTake d.waits = true → exec .blockStart s =
        .next (((s.mapHome fun c => (c.takeSems d.waits).leave t.id).bounded 3 true).mapTile fun u =>
          u.enterBlock t.pc d))

/-- R271: an instruction of a loader or storer core at its pc in the instruction store: arithmetic, a branch, a jump with its
link, a load and a store, each with its effect on registers, memory and pc. -/
def Obligations.LoaderStorerBase : Prop := ∀ (s u : State) (g : LsAgent) (n : Nat) (o : RvAlu) (k : RvCond) (d a b : XReg)
    (imm : RvWord) (w : Nat) (sg : Bool),
  let c := s.tile.ls g
  let runs := fun (op : RvOp) => rvDecode (s.lsWord g) = (n, some op)
  let ends := fun (u : State) (pc : RvWord) =>
    exec (.loaderStorerInstruction g) s = .next (u.mapLs g fun c => { c with pc := pc, flagged := 0 })
  let follows := fun (u : State) => exec (.loaderStorerInstruction g) s =
    .next (u.mapLs g fun c => { c with pc := c.pc + BitVec.ofNat 32 n, flagged := 0 })
  let sets := fun (v : RvWord) => s.mapLs g fun c => c.setReg d v
  let next := c.pc + BitVec.ofNat 32 n
  let at' := (c.reg a + imm).toNat
  c.running = true → c.hold = 0 → s.lsGoes = true → c.pc.toNat + n ≤ 0x4000 →
    (runs (.alu o d a b) → ends (sets (rvAlu o (c.reg a) (c.reg b))) next)
    ∧ (runs (.aluI o d a imm) → ends (sets (rvAlu o (c.reg a) imm)) next)
    ∧ (runs (.lui d imm) → ends (sets imm) next) ∧ (runs (.auipc d imm) → ends (sets (c.pc + imm)) next)
    ∧ (runs (.branch k a b imm) → ends s (if rvCond k (c.reg a) (c.reg b) then c.pc + imm else next))
    ∧ (runs (.jal d imm) → ends (sets next) (c.pc + imm))
    ∧ (runs (.jalr d a imm) → ends (sets next) ((c.reg a + imm) &&& 0xFFFFFFFE))
    ∧ (runs (.load w sg d a imm) → lsCheck w at' = none → agentPrep (lsOwner g) s s false [(at', at' + w)] = .ok u →
        let v := leNat ((u.touch at' (at' + w)).lsBytes at' w)
        follows ((u.touch at' (at' + w)).mapLs g fun c => c.setReg d (if sg then rvS (8 * w) v else BitVec.ofNat 32 v)))
    ∧ (runs (.store w a b imm) → lsCheck w at' = none → agentPrep (lsOwner g) s s true [(at', at' + w)] = .ok u →
        follows ((u.touch at' (at' + w)).lsStore at' (leBytes (c.reg b).toNat w)))

/-! ## Traffic, teams, records -/

/-- R142, R303, R301, R416, R415, R414, R420: a put that is due, and whose read of its source, if it has still to make it,
leaves the state v, places its bytes and counts at its semaphore, or ends with
SEM_OVERFLOW once the bytes are placed, or is refused by a full semaphore unit; a row that is due joins its receive end, which holds fewer than four, or is refused
and waits for its back-off; a resent row goes as a first one; a packet in the escape channel changes no state; a link that
goes down is counted, one that is repaired goes on. No router on the way is down (R438). That a packet in the escape channel
changes no state (log 7), that a full semaphore unit refuses a put once its data is placed and before its sum is looked at (log 27),
and that a repaired lane counts a retried flit (log 7), are the model's choices. -/
def Obligations.Traffic : Prop := ∀ (s v : State) (m : PutMsg) (ml : List PutMsg) (r : RowMsg)
    (rl : List RowMsg) (at' : RecvAt) (l : LinkNo),
  let cn := Fin.ofNat 48 (putClu m.word)
  let c := v.clusters[cn.val]
  let x := c.sems[m.sem.val]
  let placed := v.putPages m.pages m.va (v.putBytes m)
  let lands := s.puts = m :: ml ∧ m.due ≤ s.time.toNat ∧ m.tries = 0 ∧ s.putPrep m = some (.ok v) ∧ (s.clusters[cn.val]).lets = true
    ∧ (∀ p, p ∈ m.pages → v.cutFrom (dieOf m.src.cl) (v.partAt m.src) p.spa = none) ∧ s.blocked (s.putRoute m) = false
    ∧ putDev m.word = s.device.toNat ∧ putDev m.word = v.device.toNat
    ∧ v.diesJoined (dieOf m.src.cl) (dieOf cn) = true ∧ x.granted = true ∧ x.putOpen = true
    ∧ (v.parts[(v.partAt m.src).val]).clu.getLsbD cn.val = true
  let t := s.tileAt r.src
  let w := t.ends[r.send.val]
  let held := (s.recvTile at').recvRows.filter fun x => x.cend == endEnd w
  let row : CircRow := ⟨endEnd w, r.cells, if r.depth = 0 then none else some (r.src, r.depth)⟩
  let comes := s.rows = r :: rl ∧ r.due ≤ s.time.toNat ∧ (s.clusters[(s.rowTo r).val]).lets = true
    ∧ t.deadEnds.contains r.send = false ∧ s.diesJoined (dieOf r.src.cl) (dieOf (Fin.ofNat 48 (endCluster w))) = true
    ∧ s.receiver r.src r.send w = some at' ∧ s.blocked (s.route r.src.cl (s.rowTo r)) = false
  let passes := fun (u : State) => u.noteFlits (s.route r.src.cl (s.rowTo r))
  let reaches := fun (u : State) => u.noteFlits (s.putRoute m)
  let arrived := passes ((s.atRecv at' fun u => { u with recvRows := u.recvRows ++ [row] }).rowEnd r none)
  let link := s.links[l.val]
  (lands → c.jam = false → x.val.val + putCnt m.word ≤ 65535 → exec .putcArrive s = .next (reaches (({ placed with
      clusters := v.clusters.set cn.val (c.addSem m.sem (putCnt m.word)) } : State).putEnd m none)))
  ∧ (lands → c.jam = false → 65535 < x.val.val + putCnt m.word →
      exec .putcArrive s = .next (reaches (placed.putEnd m (some .semOverflow))))
  ∧ (lands → c.jam = true → exec .putcArrive s = .next (reaches (placed.refusePut m)))
  ∧ (comes → r.tries = 0 → held.length < 4 → exec .circuitRowArrive s = .next arrived)
  ∧ (comes → r.tries = 0 → 4 ≤ held.length → exec .circuitRowArrive s = .next (passes (s.refuseRow r)))
  ∧ (comes → 0 < r.tries → held.length < 4 → exec .nakResend s = .next arrived)
  ∧ exec .escapeEntry s = .next s
  ∧ (link.up = true → ∃ u, exec (.linkDown l) s = .next u
      ∧ u.links = s.links.set l.val { link with up := false, dead := true, downs := link.downs + 1 })
  ∧ (link.up = true → exec (.laneRepair l) s = .next { s with links := s.links.set l.val { link with
      repaired := true, retries := if link.retries = 65535 then link.retries else link.retries + 1 } })

/-- R143, R305, R306, R288, R416, R418: a chunk of a collective whose members have come, agree and have their bytes, and whose
join buffers take them, lands at every member, its bytes the FP32 sums of the members' elements joined on the tree; a collective
whose members differ, which no way joins, whose bytes are refused or in error, or whose member device does not answer, is
aborted for every member that has come. The clusters where the chunk lands let it in (R431, R436). That a collective which no way
joins (log 49, R420 speaking of what is under way), or whose bytes are refused or in error (log 48, R401 naming no agent's late read), or
whose contribution is dropped (log 44), is aborted, and with which cause, are the model's choices. -/
def Obligations.Collectives : Prop := ∀ (s : State) (c : Coll) (l : List Coll) (m : Member) (ms : List Member) (k : Fin 16),
  s.colls = c :: l → c.members = m :: ms →
    let sum := s.chunkBytes c m.word k
    let kept := c.members.map fun m => if (s.memberPrep m).isSome then { m with data := some (s.memberBytes m) } else m
    let landed := s.landAll k sum kept
    let ends := fun (p : Coll → Bool) (cause : Cause) (v : Word) =>
      let u := c.members.foldl (State.abortMember cause v) s
      let new := { c with abort := some cause, members := c.members.map fun m => { m with out := true } }
      ({ u with colls := putColl c.gid p new u.colls } : State)
    (s.chunkReady k c = true → s.chunkFills k c = none → (∀ x, x ∈ s.goals k c → (s.clusters[x.val]).lets = true) →
      exec (.gredChunkLand c.gid k) s = .next (({ landed.1 with
        colls := putColl c.gid (s.chunkReady k) { c with members := landed.2 } landed.1.colls } : State).noteFlits
          (c.members.flatMap (s.joinRoute c))))
    ∧ (∀ why, s.doomed c = true → c.abort = some why → exec (.collectiveAbort c.gid false) s = .next (ends (fun c => s.doomed c) why 0))
    ∧ (s.doomed c = true → c.abort = none → exec (.collectiveAbort c.gid false) s =
        .next (ends (fun c => s.doomed c)
          (if c.agrees = false then .collectiveMismatch else if s.parted c = true then .linkDown
            else if s.farLost c = true then .peerUnreachable else ((s.readTrap c).map (·.cause)).getD .spUncorrectable)
          (if c.agrees = false ∨ s.parted c = true ∨ s.farLost c = true then 0 else ((s.readTrap c).map (·.val)).getD 0)))
    ∧ (c.abort = none → (∃ m, m ∈ c.members ∧ m.out = false) → exec (.collectiveAbort c.gid true) s =
        .next (ends (fun c => c.abort.isNone && c.members.any fun m => !m.out) .peerUnreachable 0))

/-- R29, R20, R30, R32, R33, R35, R39, R40, R36, R365: an idle tile starts the first task of its own team's pool, or one that it
steals; the token leaves an idle position with the position's count and colour, which turns white; a task that has waited
too long, and the scheduling firmware, make a resident team leave its tiles, and stop what runs on them or of it, one whose tile cycle is still to come taking it first
(R409), one in a replay completing it (R405), one of a cluster in retention when it has been woken (R436); a swapped team whose wait is satisfied becomes
ready; a course releases the participants that it names, where their clusters let that in. -/
def Obligations.TeamSteps : Prop := ∀ (s : State) (k : Team) (e : PoolEntry) (l : List PoolEntry) (i : Fin 16) (w : WaitRec)
    (stolen : Bool) (p : PartNo) (r : Release),
  let t := s.tile
  let asks := fun (c : Cause) (tr : Option Trigger) (me : Bool) =>
    let u := (s.tiles.filter (·.stopsFor k.id c)).foldl (fun s t => s.knock t.cl) (s.knock k.home)
    let halts := fun (t : Tile) => { t with
      stopped := true, grace := t.task.isSome && (t.reissue || (!(me && t.id == u.tile.id) && decide (t.now ≤ u.clock))) }
    (u.mapTiles fun t => if t.stopsFor k.id c && (s.clusters[t.cl.val]).state != .retention && !t.stopped then halts t else t).setTeam { k with leave := some c, trigger := tr }
  let free := t.task = none ∧ t.ending = none ∧ t.stopped = false ∧ s.cluster.state = .running ∧ s.cluster.serves t = true
  let own : Task := { team := k.id, ltile := e.ltile, pool := true, pos := i, no := s.nextTask }
  let leaves := k.state = .resident ∧ k.leave = none ∧ s.hasPool k = true
  let pos := k.token.pos
  let white := k.black.set pos.val false
  let go := fun (t : Tile) => releaseTile s p r (t.task.bind fun k => s.findTeam k.team) t
  let x := s.parts[p.val]
  (free → t.team = some (k.id, i) → s.findTeam k.id = some k → s.offers k = true → k.pool = e :: l → s.awayChoice = none →
      exec .poolTaskStart s = .next (({ (s.setTeam { (k.blacken e (some i.val)) with pool := dropEntry e k.pool }) with
        nextTask := s.nextTask + 1 } : State).mapTile fun t => t.begin own e.entry e.arg))
  ∧ (s.awayChoice = none → s.poolChoice = some (k, e, stolen) → exec .poolTaskStart s = .next (s.startPool k e stolen))
  ∧ (s.findTeam k.id = some k → s.tokenReady k = true → exec (.tokenForward k.id) s = .next ((s.setTeam k.forward).checkTeam k.id))
  ∧ (pos ≠ 0 → k.forward = { k with black := white, token := { k.token with
      pos := k.nextPos pos, black := k.token.black || k.black[pos.val], sum := k.token.sum + k.counts[pos.val] } })
  ∧ (s.waitedLong = some (k, w) → exec .waitSwap s = .next (asks .swapRequest (some
      { ltile := (t.team.map (·.2)).getD 0, away := if t.task.any (·.stolen) then some t.id else none, kind := w.kind
        takes := s.takesOf }) true))
  ∧ (s.findTeam k.id = some k → leaves → exec (.preempt k.id) s = .next (asks .preempt none false))
  ∧ (s.findTeam k.id = some k → k.state = .swapWaiting → s.triggerMet k = true → exec (.swapTriggerSatisfied k.id) s =
      .next ((s.setTeam { k with state := .swapReady, readyAt := s.time.toNat }).writeHeader
        { k with state := .swapReady, readyAt := s.time.toNat }))
  ∧ (s.releaseDue p = some r → r.held = [] → (∀ t, t ∈ s.tiles → (go t).arrival ≠ t.arrival → (s.clusters[t.cl.val]).lets = true) →
      ∃ u, exec (.courseRelease p) s = .next u ∧ u.tile = go t ∧ u.others = s.others.map go
        ∧ u.mem = s.mem ∧ u.parts = s.parts.set p.val { x with
          releases := x.releases.flatMap fun y => if y = r then (if r.k + 1 ≤ x.courses then [{ r with k := r.k + 1 }] else []) else [y] })

/-- R361 to R363, R12, R44, R36, R41, R405: dispatch takes the first pending slot of a die whose team need not wait for another's: a
launch that passes its checks is bound on the tiles that the record names and STAT is 1, one that fails a check is answered with
its STAT; a swapped team that is ready is returned in the same way. R437, R442: a slot that names a cluster in quarantine, or a
launch for one that its partition is to lose, is refused with FENCED, whatever else it names. -/
def Obligations.Binding : Prop := ∀ (s : State) (d : DieNo) (i : Fin 64) (q : QTeam) (tiles : List (Fin 16 × TileId)) (n : Nat)
    (k : Team),
  let w := (s.dies[d.val]).slots[i.val]
  let snap := s.snapOf q
  let decl : Decl := ⟨q.part, s.snapWord q.part snap (q.words[6]).toNat⟩
  let tests := s.bindChecks q decl (fld (q.words[7]).toNat 0 5) w d
  let binds := (w[0]).getLsbD 62 = false ∧ (s.queued.find? fun q => q.ref == (w[3]).toNat) = some q
    ∧ s.findTeam (bindTeamNo w) = none ∧ s.fenced d w false = false
  let returns := (w[0]).getLsbD 62 = true ∧ s.findTeam (bindTeamNo w) = some k ∧ k.swapped = true ∧ k.abort = false
    ∧ s.fenced d w true = false
  s.nextSlot d = some i →
    (binds → tests = .go tiles → exec (.bindTeam d i) s = .next ((s.bind q snap decl w d tiles).answer d i 1))
    ∧ (binds → tests = .refuse n → exec (.bindTeam d i) s = .next (s.answer d i n))
    ∧ (returns → s.returnChecks k w d = .go tiles → exec (.bindReturn d i) s = .next ((s.returnTeam k w tiles).answer d i 1))
    ∧ (returns → s.returnChecks k w d = .refuse n → exec (.bindReturn d i) s = .next (s.answer d i n))
    ∧ ((w[0]).getLsbD 62 = false → s.fenced d w false = true → exec (.bindTeam d i) s = .next (s.answer d i 6))
    ∧ ((w[0]).getLsbD 62 = true → s.fenced d w true = true → exec (.bindReturn d i) s = .next (s.answer d i 6))

/-- R352 to R356, R358, R371, R372: a doorbell submits the records up to its tail; a launch record that passes its checks queues
its team, a graph record runs its graph, a region-retire record retires its region; a record that has ended writes its status word and SIGVAL where SIGVA is not 0, and leaves its queue; a teardown
cancels what its queue has not started and, its records complete, writes the acknowledgement word; a selection is stored,
with ACK where it is one that the interface offers. -/
def Obligations.Queues : Prop := ∀ (s : State) (f : FnNo) (q : QueueNo) (tail : Fin 131072) (r : Rec) (c : Nat) (abort : Bool)
    (td : Teardown) (v : Word),
  let x := s.queue f q
  let n := (tail.val + 131072 - x.tail.val) % 131072
  let fn := s.fns[f.val]
  let part := s.fnPart f
  let told := (List.range n).foldl (fun s k => s.submit f q (x.tail.val + k)) s
  let graph := s.readGraph r
  let va := (r.words[1]).toNat
  let status := (s.nodeWrite (s.fnPart r.fn) (va + 8) (c * 2 ^ 56 + r.seq * 2 ^ 32) 8 .write).1
  let written := (status.nodeWrite (s.fnPart r.fn) va (r.words[2]).toNat 8 .write).1
  let sends := fun (u : State) => if r.intr && (s.fns[r.fn.val]).has 3 then
    u.setQueue r.fn r.q { (s.queue r.fn r.q) with msix := (s.queue r.fn r.q).msix + 1 } else u
  let begins := fun (abort reset : Bool) => s.tearDown f q abort reset
  let idle := (s.tearing.find? fun t => t.fn == f && t.q == q) = none
  let ends := fun (y : Queue) =>
    ({ (s.putSpaNum part x.ack.toNat (2 ^ 63 + x.lastSeq.toNat) 8) with
      tearing := s.tearing.filter fun y => y != td } : State).setQueue f q y
  let finished := (s.tearing.find? fun t => t.fn == f && t.q == q) = some td ∧ s.recsOf f q = [] ∧ td.fn = f ∧ td.q = q
  (s.hears f q = true → (tail.val + 131072 - x.head.val) % 131072 ≤ 2 ^ x.log.toNat → exec (.doorbell f q tail) s =
      .next (told.setQueue f q { (told.queue f q) with tail := tail, head := tail }))
  ∧ (startable (s.recsOf f q) = some r → r.fn = f → r.allowed fn = true → r.kind = 1 →
      s.launchStatus fn part r.snap r.nums = 0 → exec (.recordStart f q) s =
        .next ((s.mapRec r.id fun r => { r with state := .running }).enqueueTeam r none r.nums r.words[4] part))
  ∧ (startable (s.recsOf f q) = some r → r.fn = f → r.allowed fn = true → r.kind = 2 → r.graphFormed fn = true →
      (graph.nodes.any (·.hasBody) = true → fn.has 1 = true) → fn.valid = true → graph.graphOk = true →
      exec (.recordStart f q) s = .next (s.mapRec r.id fun _ => { graph with state := .running }))
  ∧ (startable (s.recsOf f q) = some r → r.fn = f → r.allowed fn = true → r.kind = 3 → r.retireFormed fn = true →
      s.regionOk fn (r.words[3]).toNat = true → exec (.recordStart f q) s =
        .next ((s.retireRegion (r.words[3]).toNat).mapRec r.id fun r => { r with state := .ended 0 }))
  ∧ (s.findRec r.id = some r → r.state = .ended c → exec (.recordComplete r.id) s = .next
      { sends (if va = 0 then s else written) with records := s.records.filter fun y => y.id != r.id })
  ∧ (idle → exec (.queueTeardown f q) s = .next (begins false false) ∧ exec (.queueAbort f q) s = .next (begins true false)
      ∧ exec (.queueReset f q abort) s = .next (begins abort true))
  ∧ (finished → ∀ i, i = .queueTeardown f q ∨ i = .queueAbort f q ∨ i = .queueReset f q abort →
      exec i s = .next (ends (if td.reset then { x with head := 0, tail := 0 } else { x with enable := false })))
  ∧ ((∀ y, y ∈ fn.queues.toList → y.enable = false) → exec (.hifselSelect f v) s = .next { s with fns := s.fns.set f.val { fn with
      major := BitVec.ofNat 16 (fld v.toNat 48 16), minor := BitVec.ofNat 8 (fld v.toNat 40 8)
      feat := BitVec.ofNat 32 (fld v.toNat 0 32), ack := hifOk v } })

/-- R366, R368, R370: a launch node queues its team, a copy node copies its bytes, a signal node writes or adds its word, a barrier node does nothing; a node
that has its outcome completes, the first failure cancelling what has not started; a cond runs its body where its word is
not 0; a loop runs its body until its word is 0 or its iterations are done. -/
def Obligations.GraphNodes : Prop := ∀ (s u : State) (r : Rec) (k : Fin 4096) (v c : Nat),
  let x := r.node k.val
  let part := s.fnPart r.fn
  let launch := (List.range 16).map (s.snapWord (s.fnPart r.fn) r.snap (x.word 1))
  let ran := fun (s : State) (code : Nat) => s.mapRec r.id fun r => r.ran k.val code
  let iters := if x.state = .body then x.iters + 1 else x.iters
  let again := fun (r : Rec) => (r.freshBody k.val).setNode k.val fun x => { x with state := .body }
  s.findRec r.id = some r → (∀ y, y ∈ s.records → y.id = r.id → y = r) →
    (r.nodeReady k.val = true →
      (x.kind = 1 → s.launchStatus (s.fns[r.fn.val]) part r.snap launch = 0 → exec (.nodeStart r.id k) s =
        .next ((s.mapRec r.id fun r => r.setNode k.val fun y => { y with state := .running }).enqueueTeam r (some k) launch
          (if x.num 0 55 1 = 1 then x.words[2] else BitVec.ofNat 64 (launch.getD 4 0)) part))
      ∧ (x.kind = 3 → exec (.nodeStart r.id k) s = .next (ran s 0))
      ∧ (x.kind = 2 → State.nodeCopy part (x.word 1) (x.word 2) (x.word 3) s = (u, true) →
          exec (.nodeStart r.id k) s = .next (ran u 0))
      ∧ (x.kind = 4 → (x.word 3 = 0 ∨ (s.nodeRead part (x.word 1) 8).isSome = true) → s.nodeWrite part (x.word 1)
          (if x.word 3 = 0 then x.word 2 else ((s.nodeRead part (x.word 1) 8).getD 0 + x.word 2) % 2 ^ 64) 8 .atomic = (u, true) →
          exec (.nodeStart r.id k) s = .next (ran u 0))
      ∧ (x.kind = 5 → s.nodeRead part (x.word 1) 4 = some v → exec (.condEvaluate r.id k) s =
          .next (if v = 0 then ran s 0 else s.mapRec r.id again)))
    ∧ (x.state = .running → x.ended = some c → exec (.nodeComplete r.id k) s = .next (s.mapRec r.id fun r => r.finish k.val c))
    ∧ (r.loopDue k.val = true → s.nodeRead part (x.word 1) 4 = some v → v ≠ 0 → iters ≠ x.word 3 →
        exec (.loopEvaluate r.id k) s = .next (s.mapRec r.id fun r =>
          (r.freshBody k.val).setNode k.val fun x => { x with state := .body, iters := iters }))
    ∧ (r.loopDue k.val = true → s.nodeRead part (x.word 1) 4 = some v → v = 0 ∨ iters = x.word 3 →
        (x.word 4 = 0 ∧ u = s ∨ x.word 4 ≠ 0 ∧ s.nodeWrite part (x.word 4) iters 4 .write = (u, true)) →
        exec (.loopEvaluate r.id k) s = .next (u.mapRec r.id fun r =>
          (r.ran k.val 0).setNode k.val fun x => { x with iters := iters }))

/-! ## Windows, Kiln, the fleet -/

/-- R381, R382, R389, R402, R403, R410, R441, R442: an invalidation begins where none is in progress and, no access of its
partition under way, drops its leaves from every TLB; MIGACK takes a page out of every migration table; a halt stops a
resident team, a resume lets it go on; an aperture write reaches a free tile's scratchpad; a request for clusters that no
other partition has is applied, the lost clusters cleared, once no team is homed on them. That the leaves go from the
TLBs when the invalidation completes (log 38), and that a cluster which another partition has gained in the meantime stays out of the new set (log 49, R442 step 5
writing the new set), are the model's choices. -/
def Obligations.WindowSteps : Prop := ∀ (s : State) (p : PartNo) (size : Fin 4) (vpn : BitVec 40) (all : Bool) (d : DieNo) (k : Team)
    (c : ClusterNo) (tn : TileNo) (off : Fin 4194304) (v : Word) (clu : BitVec 48) (drain : Bool),
  let x := s.parts[p.val]
  let inv := (size, vpn, all)
  let keep := fun (l : List TlbEntry) => l.filter fun e => !e.dropped p inv
  let y := s.dies[d.val]
  let named := { s with dies := s.dies.set d.val { y with haltTeam := k.id } }
  let busy := { s with dies := s.dies.set d.val { y with haltTeam := k.id, haltBusy := true, haltFor := k.id } }
  let halting := busy.knock k.home
  let answer := fun (u : State) (n : Nat) => u.haltAnswer d n
  let target := s.findTeam k.id = some k ∧ dieOf k.home = d
  let i : TileId := ⟨c, tn⟩
  let lost := x.clu &&& ~~~clu
  let foreign := (clustersOf clu).any fun c => (s.partOf c).any fun o => o != p
  let asks : Instr := if drain then .partitionDrainRequest p clu else .partitionRequest p clu
  (x.inv = none → exec (.tlbInvalidate p size vpn) s = .next (s.setPart p { x with inv := some (size, vpn, false) })
      ∧ exec (.tlbInvalidateAll p) s = .next (s.setPart p { x with inv := some (3, 0, true) }))
  ∧ (x.inv = some inv → (∀ t, t ∈ s.tiles → s.busyTile p inv t = false) → ∃ u, exec (.tlbInvalidationComplete p) s = .next u
      ∧ u.parts = s.parts.set p.val { x with inv := none, invDone := x.invDone + 1 }
      ∧ u.tile = { s.tile with tlb := keep s.tile.tlb }
      ∧ u.clusters = s.clusters.map (fun c => { c with tlb := keep c.tlb }) ∧ u.mem = s.mem
      ∧ u.dies = s.dies.map fun d => { d with tlb := keep d.tlb, ptrs := d.ptrs.filter fun q => q.part != p })
  ∧ exec (.migack p size vpn) s = .next { s with dies := s.dies.map fun d => { d with
      mig := d.mig.filter fun m => !(m.part == p && m.size == size && m.vpn == vpn) } }
  ∧ (y.haltBusy = false → s.findTeam k.id = none → exec (.haltRequest d k.id) s = .next (answer named 1)
      ∧ exec (.resumeRequest d k.id) s = .next (answer named 1))
  ∧ (y.haltBusy = false → target → k.state = .resident → k.leave = none → exec (.haltRequest d k.id) s =
      .next ((halting.mapTiles fun t =>
        if t.belongs k.id && !t.stopped then
          { t with stopped := true, grace := t.task.isSome && (t.reissue || decide (t.now ≤ halting.clock)) }
        else t).setTeam { k with leave := some .debugHalt, trigger := none }))
  ∧ (y.haltBusy = false → target → k.state = .halted → k.abort = false → exec (.resumeRequest d k.id) s =
      .next (answer ((named.unstop k.id).setTeam { k with state := .resident, cause := 0 }) 0))
  ∧ (y.haltBusy = true → s.findTeam y.haltFor = some k → k.state = .resident → k.leave = some .debugHalt →
      s.still k.id .debugHalt = true → exec (.haltComplete d) s =
        .next (answer (s.setTeam { k with state := .halted, cause := 61, leave := none }) 0))
  ∧ ((s.clusters[c.val]).lets = true → (s.tileAt i).team = none → (s.tileAt i).task = none → off.val / 8 * 8 + 8 ≤ 0x180000 →
      exec (.apertureWrite c tn off v) s = .next (s.onTile i fun s => s.spPut (off.val / 8 * 8) (leBytes v.toNat 8)))
  ∧ (foreign = false → x.ltcfg = 0 → x.draining = false →
      (drain = true ∨ ∀ c, c ∈ clustersOf lost → s.homed c = false ∧ s.slotPending c = false) →
      exec asks s = .next (s.setPart p { x with draining := true, reqClu := clu }))
  ∧ (x.draining = true → x.reqClu = clu → (∀ c, c ∈ clustersOf lost → s.homed c = false) → exec (.partitionApply p) s =
      .next (((clustersOf lost).foldl State.clearCluster s).setPart p
        { x with clu := clu &&& ~~~s.foreign p, done := x.done + 1, draining := false, result := 0 }))

/-- R321, R430 to R434, R439, R447: a permitted hop, one upward only where the clock may rise, stops the clock, the voltage risen first for one
upward, and ends with the new clock, the voltage fallen last for one downward; a droop aborts it, to be retried no sooner than 10 µs on; a canary
warning and a high replay rate raise voltage and DRIFT by 5 mV, ten quiet hours lower DRIFT by 5 mV where CALIB or CANARY is set; calibration
takes an idle cluster through the anchors, to each of which it hops, lowering the voltage by 5 mV at each pattern that passes (a free value), and
records the last voltage that passed; where none did it fails and is logged; its end, or a preemption, restores clock and voltage, in a hop where
the clock has changed; a table record is signed at most once an hour. That a hop has two events and a calibration one for each pattern and each
hop, and that what the silicon answers is a free value, is the model's (log 22). -/
def Obligations.KilnSteps : Prop := ∀ (s : State) (c : ClusterNo) (f : Fin 128) (h : Hop) (n t0 : Nat) (key : Key)
    (r : CalRun),
  let x := s.clusters[c.val]
  let now := s.time.toNat
  let sets := fun (y : Cluster) => s.mapCluster c fun _ => y
  let spent := fun (u : State) => { u with freeCtr := s.freeCtr + 1 }
  let pass := (Config.freeWord s.freeCtr).getLsbD 63
  let raised := { x with
    volt := min 950 (x.volt + 5), krec := { x.krec with drift := x.krec.drift + 5 }, warnAt := now }
  let held := fun (y : Cluster) (f : Nat) => max 500 (min 950 (y.voltFor f))
  let at' := fun (y : Cluster) => held y x.freq
  let tuned := fun (y : Cluster) => { y with volt := at' y }
  let hops := fun (y : Cluster) (f : Nat) => { y with
    state := .hopping, hop := some ⟨y.freq, f, y.state == .quarantine⟩, volt := if y.freq < f then held y f else y.volt, retry := none }
  let tests := fun (y : Cluster) (a : Fin 8) (back : Nat) =>
    { y with
      state := .calibrating, volt := if y.freq = anchorFreq a then held y (anchorFreq a) else y.volt
      cal := some ⟨back, a, held y (anchorFreq a)⟩ }
  let ends := fun (y : Cluster) =>
    let z := { y with cal := none, retry := none }
    if r.back = y.freq then { z with state := .running, volt := held z y.freq } else hops z r.back
  let found := x.setVmin r.anchor (x.volt + 5)
  let clock := x.state = .running ∨ x.state = .quarantine
  (clock → s.mayRun c f.val = true → f.val ≠ x.freq → x.waits now = false → (f.val < x.freq ∨ s.mayRise x = true) →
      exec (.frequencyHop c f) s = .next (sets (hops x f.val)))
  ∧ (x.state = .hopping → x.hop = some h → x.cal = none → h.new = f.val → s.mayRun c f.val = true → (h.new ≤ h.old ∨ s.mayRise x = true) →
      exec (.frequencyHop c f) s = .next (sets { x with
        state := if h.quar then .quarantine else .running, hop := none, freq := h.new, volt := held x h.new
        held := x.held.filter fun g => decide (h.new < g) }))
  ∧ (x.state = .hopping → x.hop = some h → x.cal = none → exec (.hopAbort c) s = .next ((sets { x with
      state := if h.quar then .quarantine else .running, hop := none, volt := at' x, aborts := x.aborts + 1, droops := x.droops + 1
      retry := some (h.new, now + 1000) }).logEvent 1 c))
  ∧ (clock → x.retry = some (n, t0) → t0 ≤ now → s.mayRun c n = true → (n ≤ x.freq ∨ s.mayRise x = true) →
      exec (.hopRetry c) s = .next (sets (hops x n)))
  ∧ (x.canary = true → exec (.canaryWarning c) s = .next ((sets raised).logEvent 2 c))
  ∧ (1024 < (x.replayLog.filter fun t => now < t + 100000).length → exec (.replayRateRaise c) s =
      .next ((sets { raised with replayLog := [] }).logEvent 3 c))
  ∧ ((x.calib || x.canary) = true → x.warnAt + 3600000000000 ≤ now → exec (.driftDecay c) s = .next (sets
      (let y := { x with krec := { x.krec with drift := BitVec.ofNat 16 (x.krec.drift.toNat - 5) }, warnAt := x.warnAt + 3600000000000 }
        if x.ticks then tuned y else y)))
  ∧ (x.state = .running → x.calib = true → s.idleCluster c = true → x.retry = none → exec (.calibration c) s = .next (sets (tests x 0 x.freq)))
  ∧ (x.state = .calibrating → x.cal = some r → x.waits now = false → x.freq ≠ anchorFreq r.anchor →
      exec (.calibration c) s = .next (sets (hops x (anchorFreq r.anchor))))
  ∧ (x.state = .hopping → x.hop = some h → h.quar = false → x.cal = some r → h.new = f.val → exec (.frequencyHop c f) s = .next (sets { x with
      state := .calibrating, hop := none, freq := h.new, volt := held x h.new, held := x.held.filter fun g => decide (h.new < g)
      cal := some { r with top := held x h.new } }))
  ∧ (x.state = .calibrating → x.cal = some r → x.waits now = false → exec (.calibrationPreempt c) s = .next (sets (ends x)))
  ∧ (x.state = .calibrating → x.cal = some r → x.freq = anchorFreq r.anchor →
      (pass = true → 500 < x.volt → exec (.calibration c) s = .next (spent (sets { x with volt := x.volt - 5 })))
      ∧ (pass = false → x.volt < r.top →
        (∀ a : Fin 8, a.val = r.anchor.val + 1 → exec (.calibration c) s = .next (spent (sets (tests found a r.back))))
        ∧ (r.anchor.val = 7 → exec (.calibration c) s =
          .next (spent (sets (ends { found with krec := { found.krec with good := true } })))))
      ∧ (pass = false → r.top ≤ x.volt → exec (.calibration c) s = .next ((spent (sets (ends x))).logEvent 6 c)))
  ∧ (x.krecNext ≤ now → x.krec.good = true → (s.nvs.dieKeys[(dieOf c).val]).sign = some key →
      exec (.kilnRecordUpdate c) s = .next { (sets { x with krecNext := now + 360000000000 }) with
        freeCtr := s.freeCtr + 2
        nvs := { (s.nvs.setHeader (6 + c.val) 0 96 (Config.freeWord s.freeCtr)) with
          kiln := s.nvs.kiln.set c.val { x.krec with
            sigref := vecAt 2 fun k => Config.freeWord (s.freeCtr + (if k = 0 then 0 else 1))
            mode := BitVec.ofNat 2 (2 * x.calib.toNat + x.canary.toNat), time := BitVec.ofNat 48 now
            hours := x.krec.hours + BitVec.ofNat 32 (now / 360000000000), good := true }
          dieKeys := s.nvs.dieKeys.set (dieOf c).val key } })

/-- R435 to R439: the in-rush arbiter lets at most INMAX parts power up together; an idle cluster goes into retention after
100 µs, wakes when it is let, the tiles stopping that a team has asked to in the meantime, or is quarantined with its teams lost; a quarantined cluster that passes its patterns (a
free value) runs again; a router that has held no flit for 256 router cycles goes down in two quiet steps and wakes; the clocks are lowered step by step while the
module draws too much, at most every 100 µs, and raised again after 1 ms below the limit. -/
def Obligations.PowerSteps : Prop := ∀ (s : State) (c : ClusterNo) (l : List (Nat × PowerReq)) (d : DieNo) (g : Nat) (lost : Bool)
    (t0 : Nat),
  let x := s.clusters[c.val]
  let p := s.power
  let now := s.time.toNat
  let rising := p.rising.filter fun x => now < x.2
  let sets := fun (y : Cluster) => s.mapCluster c fun _ => y
  let tuned := fun (y : Cluster) => { y with volt := max 500 (min 950 (y.voltFor y.freq)) }
  let taken := fun (r : PowerReq) => { s with power := { p with inrush := l, rising := rising ++ [(r, now + 200)] } }
  let asleep := x.state = .retention ∨ x.state = .off
  let cs := (List.finRange 48).filter fun c => s.tooMuch s.clusters[c.val]
  let hops := fun (y : Cluster) (f : Nat) => { y with
    state := .hopping, hop := some ⟨y.freq, f, y.state == .quarantine⟩, retry := none
    volt := if y.freq < f then max 500 (min 950 (y.voltFor f)) else y.volt }
  let fenced := tuned { x with state := .quarantine, cal := none, lost := false }
  let starts := rising.length < p.inmax
  (starts → p.inrush = (t0, .cluster c) :: l → x.state = .off → s.nvs.trim[(dieOf c).val] = true → exec .powerUpGrant s =
      .next (((taken (.cluster c)).mapCluster c fun x =>
        tuned { x with state := .running, issuedAt := now }).listTiles c))
  ∧ (starts → p.inrush = (t0, .macros d g) :: l → exec .powerUpGrant s = .next (taken (.macros d g)))
  ∧ (x.reten = true → x.state = .running → x.issuedAt + 10000 ≤ now → (∀ t, t ∈ s.tiles → t.cl = c → t.still = true) →
      exec (.retentionEntry c) s = .next (sets { x with state := .retention }))
  ∧ (x.state = .retention → s.granted c = true → x.lost = false → exec (.retentionWake c false) s =
      .next ((sets (tuned { x with state := .running, issuedAt := now })).mapTiles fun t =>
        if t.cl = c ∧ (s.teams.any fun k => k.stops.any fun c => t.stopsFor k.id c) = true then t.halt s.clock true else t))
  ∧ (x.state = .retention → x.hop = none → s.granted c = true → (x.lost || lost) = true → exec (.retentionWake c lost) s =
      .next ((((s.teams.filter fun k => k.home == c).map (·.id)).foldl State.loseTeam
        (sets fenced)).logEvent 4 c))
  ∧ (x.state = .quarantine → ((Config.freeWord s.freeCtr).getLsbD 63 = true → exec (.quarantineRelease c) s =
        .next (({ (sets (tuned { measured s.freeCtr x with
            state := .running, issuedAt := now })) with
          freeCtr := s.freeCtr + 1 } : State).logEvent 5 c))
      ∧ ((Config.freeWord s.freeCtr).getLsbD 63 = false → exec (.quarantineRelease c) s =
        .next (({ s with freeCtr := s.freeCtr + 1 } : State).logEvent 6 c)))
  ∧ (asleep → s.callers c = false → x.router = .up → x.flitAt + 13 ≤ now → exec (.routerPowerDown c) s = .next (sets { x with router := .intent }))
  ∧ (asleep → s.callers c = false → x.router = .intent → exec (.routerPowerDown c) s = .next (sets { x with router := .down }))
  ∧ (x.router = .intent → s.callers c = true → exec (.routerPowerDown c) s = .next (sets { x with router := .up }))
  ∧ exec (.routerWake c) s = .next (sets { x with router := .up })
  ∧ (cs ≠ [] → (∀ t, p.throttleAt = some t → t + 10000 ≤ now) → exec .powerThrottle s =
      .next (cs.foldl (fun s c => (s.mapCluster c Cluster.lower).logEvent 7 c)
        { s with power := { p with throttleAt := some now } }))
  ∧ (p.coolSince = some t0 → t0 + 100000 ≤ now → p.above = false → ∀ f, x.held = some f → x.freq < f → x.ticks = true →
      x.waits now = false → x.temp.toNat ≤ p.tjmax → s.mayRun c (x.freq + 1) = true → s.restoreCluster c = sets (hops x (x.freq + 1)))
  ∧ exec .powerRestore s = .next ((List.finRange 48).foldl State.restoreCluster s)

/-- R421, R423, R444 to R449, R401, R422, R424, R137: a port whose selection is accepted trains with a partner of its MAJOR; the
next core takes a silent one's duty and what that one had taken; the spare tile stands in for a failed one, a second failure,
or that of the spare in use, placing the cluster in quarantine, its teams lost (R437, log 22); telemetry counters clear;
firmware is staged in the slot that no die runs (the model's choice where the dies run both: log 14), attestation asked for and completed, its report holding the nonce and the index used; the host and other devices
write device memory, the host its own too; another device's counted put adds its count (R142). -/
def Obligations.FleetSteps : Prop := ∀ (s : State) (p : PortNo) (peer : BitVec 19) (v : Word) (d : DieNo) (c : ClusterNo) (t u : Fin 16)
    (m : TileNo) (k' : SemNo) (cnt : Nat) (hb : Word) (svn : BitVec 16) (key : Key) (spa : BitVec 59) (bs : List Byte) (w : Bool),
  let x := s.ports[p.val]
  let o := selOf v true
  let y := s.clusters[c.val]
  let sets := fun (y : Cluster) => s.mapCluster c fun _ => y
  let noted := { y with errLog := y.errLog.filter fun e => e.1 != m }
  let fenced := { noted with state := .quarantine, cal := none, lost := false, volt := max 500 (min 950 (noted.voltFor y.freq)) }
  let a := s.attest
  let good := Config.signatureGood s.freeCtr
  let header := Config.freeWord (s.freeCtr + 1)
  let k : Fin 2 := if s.nvs.active[0] = 0 then 1 else 0
  let n := if w then 8 else 4
  let changed := fun (f : Nat → Nat) => { s with mem := s.mem.putNum spa.toNat (f (s.mem.num spa.toNat n) % 2 ^ (8 * n)) n }
  let wrote := { s with mem := s.mem.put spa.toNat bs }
  (x.sel.ack = true → o.major = x.sel.major → s.nvs.trim[(Fin.ofNat 4 (p.val / 6) : DieNo)] = true → exec (.sixatasTraining p peer v) s = .next { s with ports := s.ports.set p.val { x with
      up := true, peer := peer, minor := if o.minor < x.sel.minor then o.minor else x.sel.minor
      feat := (o.feat &&& x.sel.feat).setWidth 16 } })
  ∧ (s.dies[(nextCore d).val].duty = none → exec (.heartbeatTimeout d) s = .next { s with
      dies := (s.dies.set d.val { (s.dies[d.val]) with duty := some (nextCore d) }).map fun x =>
        if x.duty = some d then { x with duty := some (nextCore d) } else x })
  ∧ (s.nvs.spares = true → (y.spare = none → y.spareBad = false → m.val = t.val → exec (.spareTileTakeover c m) s = .next
        { (sets { noted with spare := some t }) with
          freeCtr := s.freeCtr + 1
          nvs := { (s.nvs.setHeader 1 (s.nvs.headers[1]).svn (s.nvs.headers[1]).len.toNat (Config.freeWord s.freeCtr)) with
            spareMap := s.nvs.spareMap.set c.val (some t) } })
      ∧ (y.spare = some u → u.val ≠ m.val → y.hop = none → exec (.spareTileTakeover c m) s = .next
        ((((s.teams.filter fun k => k.home == c).map (·.id)).foldl State.loseTeam
          { (sets fenced) with freeCtr := s.freeCtr + 1 }).logEvent 4 c)))
  ∧ exec (.telemetryClear c) s = .next (sets { y with sramce := 0, sramue := 0, parity := 0, replays := 0, storms := 0 })
  ∧ (y.sramce ≠ BitVec.allOnes 64 → exec (.correctedSoftError c) s = .next (sets { y with sramce := y.sramce + 1 }))
  ∧ ((∃ d : DieNo, s.nvs.active[d.val] = k) → exec (.firmwareStage svn) s = .next s)
  ∧ ((∀ d : DieNo, s.nvs.active[d.val] ≠ k) → exec (.firmwareStage svn) s = .next { s with freeCtr := s.freeCtr + 2, nvs := { (s.nvs.setHeader (54 + k.val) svn
        (fld header.toNat 0 32) header) with
      fw := s.nvs.fw.set k.val { svn := svn, good := good }
      staged := if good && decide (s.nvs.minSvn ≤ svn) then some k else none } })
  ∧ (a.busy = false → exec .attestationRequest s = .next { s with attest := { a with busy := true, done := false, refused := false } })
  ∧ (a.busy = true → s.nvs.identity = true → s.nvs.idKey.sign = some key → exec .attestationComplete s = .next
      { (s.putSpa 0 (a.buf.toNat / 4096 * 4096) (reportBytes s.freeCtr a.nonce s.nvs.idKey.next)) with
      freeCtr := s.freeCtr + 1
      nvs := { s.nvs with idKey := key }, attest := { a with busy := false, done := true } })
  ∧ (a.busy = true → (s.nvs.identity = false ∨ s.nvs.idKey.left = 0) → exec .attestationComplete s = .next { s with
      attest := { a with busy := false, refused := true } })
  ∧ exec (.hostPcieWrite spa (.hostMem hb bs)) s = .next { s with mem := s.mem.put (hostKey hb.toNat) bs }
  ∧ (spaClass s spa.toNat = .dm → y.jam = false → (y.sems[k'.val]).granted = true → (y.sems[k'.val]).putOpen = true →
      (y.sems[k'.val]).val.val + cnt ≤ 65535 → exec (.peerAccessArrive spa (.put bs c k' cnt)) s =
        .next { wrote with clusters := s.clusters.set c.val (y.addSem k' cnt) })
  ∧ (spaClass s spa.toNat = .dm → exec (.peerAccessArrive spa (.writeBack bs)) s = .next wrote
      ∧ exec (.peerAccessArrive spa (.atomicAdd w v)) s = .next (changed (· + v.toNat))
      ∧ exec (.peerAccessArrive spa (.atomicSwap w v)) s = .next (changed fun _ => v.toNat))
  ∧ (spaClass s spa.toNat = .dm → s.hostReaches spa.toNat = true → exec (.hostPcieWrite spa (.write bs)) s = .next wrote
      ∧ exec (.hostPcieWrite spa (.fetchAdd w v)) s = .next (changed (· + v.toNat))
      ∧ exec (.hostPcieWrite spa (.swap w v)) s = .next (changed fun _ => v.toNat))

/-- R67, R352, R364, R374, R381, R389, R395, R429, R439, R446, R447: a register write stores what the register holds: each of
these its fields, in their ranges; a module reset brings back the reset state but for what the NVS, host memory and the
host's code hold, and asks for power for every cluster of a die whose trim record verifies; a power loss leaves a module
without power, the reserved indices of its keys skipped. -/
def Obligations.RegistersAndReset : Prop := ∀ (s : State) (p : PartNo) (f : FnNo) (q : QueueNo) (v : Word),
  let x := s.parts[p.val]
  let sets := fun (r : MReg) (y : Partition) => exec (.registerWrite r v) s = .next (s.setPart p y)
  let n := fld v.toNat 40 4
  let lim := max 800 (min 2600 (fld v.toNat 52 12))
  sets (.ptroot p) { x with ptroot := BitVec.ofNat 64 (fld v.toNat 10 49 * 2 ^ 10) }
  ∧ sets (.fdbase p) { x with fdbase := v } ∧ sets (.hmbase p) { x with hmbase := v }
  ∧ sets (.mighead p) { x with mighead := BitVec.ofNat 32 (fld v.toNat 0 32) }
  ∧ sets (.ltcfg p) (if x.arrivals = 0 then { x with ltcfg := BitVec.ofNat 64 (fld v.toNat 28 36 * 2 ^ 28) } else x)
  ∧ sets (.ltord p) (if x.arrivals = 0 then { x with ltord := v } else x)
  ∧ exec (.registerWrite .pwrcfg v) s = .next { s with power := { s.power with
      pwrlim := lim, tjmax := fld v.toNat 44 8, inmax := if n = 0 then 1 else n
      above := decide (lim < s.power.watts) || (s.power.above && decide (lim ≤ s.power.watts)) } }
  ∧ exec (.registerWrite (.qbase f q) v) s =
      .next (if (s.queue f q).enable then s else s.setQueue f q { (s.queue f q) with base := v })
  ∧ (∃ u, exec .moduleReset s = .next u ∧ u.powered = true ∧ u.tile = State.reset.tile ∧ u.others = [] ∧ u.teams = []
      ∧ u.records = [] ∧ u.parts = State.reset.parts ∧ u.dies = State.reset.dies ∧ u.time = 0
      ∧ u.power.inrush = s.firstPower ∧ u.nvs = s.nvs.boot ∧ u.mem = s.mem.filter fun c => outside c.1)
  ∧ (∃ u, exec .modulePowerLoss s = .next u ∧ u.powered = false ∧ u.nvs.idKey = s.nvs.idKey.skip
      ∧ u.nvs.dieKeys = s.nvs.dieKeys.map Key.skip ∧ u.mem = s.mem.filter fun c => outside c.1)

/-! ## Encodings, steps, exceptions -/

/-- R174, R180, R190 to R197, R273: words written out field by field from the encoding tables decode to the instructions
they stand for, as do the first bundles of the worked example of the bundle formats chapter. -/
def Obligations.DecodeWords : Prop :=
  let block := fun (a : Nat) => [0x7A000003, 0, 0, 0, 0x82030100, 0x28084100, 0x30040104, 0x80000000, 0x940FC000].getD (a / 4) 0
  -- control C1: B, class, OPC, SA, PS, IMM
  decodeTableWord 32 0b1_001_000000_00000_1000_1111111111110 = some (.brp 8 (-2))
  -- scalar S1: B, class, OPC, SD, SA, SB, X
  ∧ decodeTableWord 32 0b1_010_000001_00001_00010_00011_0000000 = some (.sub 1 2 3)
  -- scalar S3: B, class, OPC, CC, PD, SA, SB, 0
  ∧ decodeTableWord 32 0b1_010_010011_100_1001_00110_00111_00000 = some (.cmp .ltu 9 6 7)
  -- vector V1: B, class, OPC, GD, GA, GB, X
  ∧ decodeTableWord 32 0b1_011_000101_00_00001_01_00010_10_00011_0 = some (.fmax ⟨.h, 1⟩ ⟨.v, 2⟩ ⟨.d, 3⟩)
  -- memory M1: B, class, OPC, SD, SA, W, IMM
  ∧ decodeTableWord 32 0b1_100_000000_00101_00100_11_1111111000 = some (.lds .d 5 4 (-8))
  -- matrix X1: B, class, OPC, MA, MB, 0
  ∧ decodeTableWord 32 0b1_101_0010_0001_0010_0000000000000000 = some (.mpushS 1 2)
  -- engine E1: B, class, OPC, CH, LVL, SD, SA, SB, X
  ∧ decodeTableWord 32 0b1_110_000101_10_000_00111_00000_00000_00 = some (.cpstat 2 7)
  -- custom-0: funct7, rs2, rs1, funct3, rd, opcode
  ∧ decodeTableWord 32 0b0000000_00000_00011_000_00101_0001011 = some (.vlRacq 5 3)
  ∧ isDescriptor 0 (block 0) = true
  ∧ decodeBundle block 16 = .ok ⟨3, false, 2, [(0, .addi 4 4 256), (3, .fadd ⟨.h, 40⟩ ⟨.h, 1⟩ ⟨.h, 2⟩)]⟩
  ∧ decodeBundle block 28 = .ok ⟨1, true, 0, []⟩

/-- R174 to R181, R184, R190 to R197, R273: the words that encode gives for a well-formed instruction of a tile core decode,
standing at a bundle's place with another bundle behind them, to that instruction alone, unguarded, with every operand as it
was; the word of one of a loader or storer core decodes to it. -/
def Obligations.RoundTrip : Prop := ∀ (i : Instr) (ws : List Nat) (w : Nat), i.wf = true →
  (encodeVl i = none → encode i = some ws → ∀ (rd : Nat → Nat) (a : Nat), a % 32 = 0 →
    (∀ k, k < ws.length → ws[k]? = some (rd (a + 4 * k))) → (rd (a + 4 * ws.length)).testBit 31 = true →
    decodeBundle rd a = .ok ⟨ws.length, false, 0, [(0, i)]⟩)
  ∧ (encodeVl i = some w → rvDecode w = (4, some (.vl i)))

/-- R24, R26, R177, R189, R271 (and log 4, log 5, log 20, log 48): with no input, nothing from the surroundings and no internal
step due, a step is the turn of the agent whose turn it is. The tile core executes the instruction that stands alone at its
program counter, or issues the slots of the bundle there, or goes on behind a pad, raises what decoding finds, a breakpoint
there coming first, or starts the block; so does a core that is stopped but has its current bundle to finish. A loader or
storer core executes the custom instruction at its pc. What follows the turn, charges, time and the next turn, is afterTurn. A
step of the opcode table that is due, or that stands at the head of the agenda, its cluster letting it in, is executed alone,
and followed by afterEvent. -/
def Obligations.StepRunsDecoded : Prop := ∀ (s t : State),
  let a := s.tile.pc
  let rd := s.codeWord
  let now := s.mapTile fun t => { t with grace := false }
  let runs := fun (u : State) => step s = .next (afterTurn s u)
  s.powered = true → s.ambientDue = none →
    (s.agenda = [] → internal s = none → s.cluster.ticks = true →
      (s.turn = .core → s.tile.ending = none → s.tile.stopped = false ∨ s.tile.grace = true → s.tile.task.isSome = true →
        (isDescriptor a (rd a) = true → exec .blockStart now = .next t → runs t)
        ∧ (isDescriptor a (rd a) = false →
          (∀ (g : PReg) (i : Instr) (n : Nat), decodeBundle rd a = .ok ⟨1, false, n, [(g, i)]⟩ → exec i now = .next t → runs t)
          ∧ (∀ b : Bundle, decodeBundle rd a = .ok b → b.pad = false → b.words ≠ 1 →
              runs (issue now b.words b.rnd (b.slots.map fun p => (p.1, slotOf p.2))))
          ∧ (∀ b : Bundle, decodeBundle rd a = .ok b → b.pad = true →
              runs (now.mapTile fun t => { t with pc := (a / 32 + 1) * 32 }))
          ∧ (∀ r : Reject, decodeBundle rd a = .error r → s.tile.releasing = none → s.tile.deferred = none → runs (now.raise a
              (if s.tile.dbgctl.getLsbD 1 && s.tile.dbgbp.toNat == a then { cause := .breakpoint }
               else { cause := rejectCause r, slot := rejectClass rd a r })))))
      ∧ (∀ (g : LsAgent) (i : Instr), s.turn = (match g with | .loader => .loader | .storer => .storer) →
          (s.tile.ls g).running = true → (s.tile.ls g).hold = 0 → s.lsGoes = true → (s.tile.ls g).pc.toNat + 4 ≤ 0x4000 → rvDecode (s.lsWord g) = (4, some (.vl i)) →
          (encodeVl i).isSome = true → exec i s = .next t → runs t))
    ∧ (s.agenda = [] → internal s = some (.next t) → step s = .next (afterEvent s t))
    ∧ (∀ (i : Instr) (l : List Instr), s.agenda = i :: l → i.isEvent = true →
        (∀ c, i.target = some c → (s.clusters[c.val]).lets = true) →
        exec i { s with agenda := l } = .next t → step s = .next (afterEvent s t))

/-- R393, R394, R396 to R398, R400, R445, R25, R322: taking an exception records the cause, agent, SUB, DEF and slot in TRAPST
and the value in TRAPVAL, counts it where the cluster's telemetry does and where a tile's errors call for the spare (R444), takes the task out of a
semaphore's queue and frees its monitor entry (R269). A cause
that may enter a handler, raised outside one, enters the block at HANDLER where HMASK names it, saving in TEPC the bundle to
resume and raising PRIV, as a taken branch does, one tile cycle later from a reissued bundle, the two cycles in which the task
issues nothing counting as stretch (R320, log 24); inside a handler it is a double
fault, which ends the team, TRAPVAL the code; without a handler, or of a kind that none takes, it ends the task, or the team where it is such a
cause. A cause that is not raised to software does no more. -/
def Obligations.TrapEntry : Prop := ∀ (s : State) (i : TrapInfo) (resume : Nat),
  let c := i.cause
  let u := s.deliver i resume
  let counted := s.tally c
  let home := (counted.clusters[s.homeCl.val]).leave s.tile.id
  let left := { counted with clusters := counted.clusters.set s.homeCl.val home }
  let mine := fun (m : Monitor) => s.tile.task.any fun x => x.no == m.task
  let out := { left with clusters := left.clusters.map fun (c : Cluster) => { c with monitors := c.monitors.filter fun m => !mine m } }
  let noted := { s.cluster with
    errLog := (s.tile.tn, s.time.toNat) :: s.cluster.errLog.filter fun x => s.time.toNat < x.2 + 360000000000 }
  let seen := out.mapTile fun t => { t.settle with trapst := i.trapst, trapval := i.val }
  let enters := s.fdWord 0 ≠ 0 ∧ fld (s.fdWord 1) c.code 1 = 1
  (i.agent < 4 → i.slot < 8 →
    fld i.trapst.toNat 58 6 = c.code ∧ fld i.trapst.toNat 56 2 = i.agent ∧ fld i.trapst.toNat 55 1 = i.sub.toNat
    ∧ fld i.trapst.toNat 54 1 = i.deferred.toNat ∧ fld i.trapst.toNat 51 3 = i.slot ∧ fld i.trapst.toNat 0 51 = 0)
  ∧ (counted = match c with
      | .spUncorrectable => s.setCluster { noted with sramue := satUp s.cluster.sramue }
      | .machineCheck => s.setCluster { s.cluster with sramue := satUp s.cluster.sramue }
      | .gridParity | .accumParity => s.setCluster { noted with parity := satUp s.cluster.parity }
      | _ => s)
  ∧ (c.silent = true → u = seen)
  ∧ (c.handled = true → s.tile.priv = false → enters → u = seen.mapTile fun t => { t with
      tepc := BitVec.ofNat 64 resume, priv := true, pc := s.fdWord 0 + 16
      tc := s.tile.tc + (if s.tile.reissue then 4 else 3), stretch := t.stretch + 2 })
  ∧ (c.handled = true → s.tile.priv = false → ¬enters → u = seen.mapTile fun t => { t with
      ending := some (.fault (i.bundle.getD t.pc) (some i) false) })
  ∧ (c.handled = true → s.tile.priv = true → u.mem = s.mem ∧ u.tile.sregs = s.tile.sregs
      ∧ u.tile.tepc = s.tile.tepc ∧ u.tile.trapval = BitVec.ofNat 64 c.code
      ∧ (i.agent < 4 → i.slot < 8 → fld u.tile.trapst.toNat 58 6 = 63)
      ∧ ∃ d, u.tile.ending = some (.fault (i.bundle.getD s.tile.pc) (some d) true) ∧ d.cause = .doubleFault)
  ∧ (c.handled = false → c.silent = false → u.mem = s.mem ∧ u.tile = { seen.tile with
      ending := some (.fault (i.bundle.getD s.tile.pc) (some i) c.endsTeam) })

/-- Every step of the opcode table answers a next state in every state, and so does the machine's step, but for a module
without power to which nothing is to come. -/
def Obligations.Total : Prop := ∀ (i : Instr) (s : State),
  (∃ t, exec i s = .next t) ∧ (s.powered = true ∨ s.agenda ≠ [] → ∃ t, step s = .next t)
  ∧ (s.powered = false → s.agenda = [] → step s = .fault .poweredOff)

/-- The memory keeps its canonical form in every step. -/
def Obligations.MemoryCanonical : Prop := ∀ s t : State, Safe s → step s = .next t → Safe t

/-- R72, R59, R55, R68: after a reset memory is in canonical form and reads 0 everywhere; every tile's scalar registers and
predicates but p0, its rotating base, its grid and tags, its handles, windows, rings and SPSWZ are 0 or invalid; the focus
is the reset tile 0 of cluster 0. That unlisted memory reads 0, the focus and PRIV at reset are the model's choices
(log 3, log 2). -/
def Obligations.ResetState : Prop := ∀ (cl : ClusterNo) (tn : TileNo),
  let t := Tile.reset cl tn
  Safe State.reset ∧ (∀ k, State.reset.mem.get k = 0) ∧ State.reset.tile = Tile.reset 0 0 ∧ State.reset.tileAt ⟨cl, tn⟩ = t
  ∧ (∀ r, t.sreg r = 0) ∧ t.pred 0 = true ∧ (∀ p, p ≠ 0 → t.pred p = false) ∧ t.rrb = 0
  ∧ (∀ r c, t.cell r c = 0) ∧ (∀ r : Fin 64, t.tags[r] = 0)
  ∧ (∀ h : HReg, (t.handles[h.val]).valid = false ∧ (t.handles[h.val]).gen = 0)
  ∧ (∀ n : MapNo, (t.maps[n.val]).valid = false) ∧ (∀ r : Fin 8, (t.rings[r.val]).valid = false) ∧ t.spswz = 0
  ∧ t.priv = false

/-! ## Storage and scales -/

/-- R54: the scratchpad holds 1.5 MiB at local addresses from 0, in 32 banks of 768 lines of 64 bytes; where the byte at
address x lies, its bank and its line, in an unswizzled segment and in a swizzled one. -/
def Obligations.ScratchpadBanks : Prop := ∀ (swz : BitVec 24) (x : Nat),
  let y := spPhys swz x
  let segment := x / 2 ^ 16 % 2 ^ 5
  let low := x / 2 ^ 6 % 2 ^ 5      -- x[10:6]
  let high := x / 2 ^ 11 % 2 ^ 5    -- x[15:11]
  let line := x / 2 ^ 11 % 2 ^ 10   -- x[20:11]
  (regionOf x = .sp ↔ x < 0x180000)
  ∧ (x < 0x180000 → line < 768 ∧ y / 2 ^ 11 = line ∧ y % 64 = x % 64
    ∧ (swz.getLsbD segment = false → y / 64 % 32 = low) ∧ (swz.getLsbD segment = true → y / 64 % 32 = low ^^^ high))
  ∧ (∀ s : State, s.tile.spswz = swz → s.spByte x = s.mem.get (spKey s.tile.cl s.tile.tn y))

/-- R96, R111: the value of a scale byte, and the scale chosen for a block whose maximum magnitude is m. -/
def Obligations.BlockNumbers : Prop := ∀ (f : MxFmt) (x : Machine.Num) (n : Nat) (neg : Bool) (m : Nat) (e k : Int),
  let emax : Int :=
    match f with
    | .e4m3 => 8
    | .e5m2 => 15
    | .e2m1 => 2
    | .int8 => 6
  (n ≤ 254 → scaled (.fin neg m e) n = .fin neg m (e + ((n : Int) - 127))) ∧ scaled x 255 = .nan
  ∧ chooseScale f .nan = 255 ∧ chooseScale f (.inf neg) = 255 ∧ chooseScale f (.fin neg 0 e) = 0
  ∧ (∀ j : Nat, 2 ^ j ≤ m → m < 2 ^ (j + 1) → k = j + e →
      (chooseScale f (.fin neg m e) : Int) = max 0 (min 254 (k - emax + 127)))
end

