-- ==== Sys2Proof/Laws/Image.lean ====
section
/-! SUPPORT. The lengths of the parts of an image (R406, R407). -/

namespace Sys2Proof.Machine

/-- The bytes of a little-endian number are as many as it is asked for. -/
theorem leBytes_length (v n : Nat) : (leBytes v n).length = n := by
  induction n generalizing v with
  | zero => rfl
  | succ n ih => simp [leBytes, ih]

/-- Pieces of one length. -/
theorem flatMap_length {α β : Type} (l : List α) (f : α → List β) (n : Nat) (h : ∀ x, x ∈ l → (f x).length = n) :
    (l.flatMap f).length = l.length * n := by
  induction l with
  | nil => simp
  | cons a l ih =>
    rw [List.flatMap_cons, List.length_append, h a (List.mem_cons_self ..), ih fun x hx => h x (List.mem_cons_of_mem _ hx)]
    simp [Nat.add_mul, Nat.add_comm]

/-- Bytes that fit are filled up to the length. -/
theorem padTo_length (n : Nat) (l : List Byte) (h : l.length ≤ n) : (padTo n l).length = n := by
  simp [padTo]; omega

/-- The fixed part lies between the header and the array internals (R406). -/
theorem Tile.fixedBytes_length (t : Tile) : t.fixedBytes.length = 94144 := by
  have w := fun {n : Nat} (v : Vector Word n) => flatMap_length v.toList (fun w => leBytes w.toNat 8) 8 fun _ _ => leBytes_length _ _
  have h1 : (t.controlWords.flatMap fun w => leBytes w 8).length = 176 := flatMap_length _ _ 8 fun _ _ => leBytes_length _ _
  have hs := flatMap_length t.setup.toList (fun v => v.toList.flatMap fun w => leBytes w.toNat 8) 128 fun v _ => by rw [w v]; simp
  have hb := flatMap_length t.mbx.toList mailboxBytes 36 fun l _ => by
    rw [mailboxBytes, List.length_append, leBytes_length, padTo_length]
    rw [flatMap_length _ _ 4 fun _ _ => leBytes_length _ _, List.length_take]; omega
  have hq := flatMap_length t.queues.toList queueHeader 16 fun l _ => by
    rw [queueHeader, List.length_append, leBytes_length, leBytes_length]
  have hr := flatMap_length t.rings.toList (fun r => leBytes r.desc.toNat 8 ++ leBytes (r.stateWord + r.vcnt * 2 ^ 32) 8) 16 fun r _ => by
    rw [List.length_append, leBytes_length, leBytes_length]
  have hp := flatMap_length t.rings.toList (fun r => leBytes (if r.pred then r.prd.toNat else 0) 8) 8 fun r _ => leBytes_length _ _
  have hg := flatMap_length t.grid.toList (fun r => r.toList.flatMap fun c => leBytes c.toNat 4) 256 fun r _ => by
    rw [flatMap_length _ _ 4 fun _ _ => leBytes_length _ _]; simp
  have ha := flatMap_length t.mat.acc.toList (fun r => r.toList.flatMap fun c => leBytes c.toNat 10) 640 fun r _ => by
    rw [flatMap_length _ _ 10 fun _ _ => leBytes_length _ _]; simp
  have hl := flatMap_length t.queues.toList (fun l => padTo 4096 ((l.take 16).flatMap fun e => rowBytes e.cells 64)) 4096 fun l _ => by
    refine padTo_length _ _ ?_
    rw [flatMap_length _ _ 256 fun e _ => by simp [rowBytes, flatMap_length _ _ 4 fun _ _ => leBytes_length _ _], List.length_take]; omega
  unfold Tile.fixedBytes
  simp only [List.length_append]
  rw [padTo_length _ _ (by rw [h1]; decide), w t.sregs, flatMap_length _ _ 16 fun _ _ => leBytes_length _ _,
    flatMap_length _ _ 16 fun _ _ => leBytes_length _ _, hs, padTo_length _ _ (by rw [hb]; simp), hq, w t.ends,
    padTo_length _ _ (by rw [leBytes_length]; decide), padTo_length _ _ (by rw [hr]; simp),
    flatMap_length _ _ 4 fun _ _ => leBytes_length _ _, flatMap_length _ _ 4 fun _ _ => leBytes_length _ _,
    padTo_length _ _ (by rw [hp]; simp), hg, ha, hl]
  simp

/-- An image is as long as its header says (R407). -/
theorem State.image_length (s : State) (rs : List (Nat × Nat)) :
    (s.image rs).1.length = arrayOff + asz + s.tile.records.length + (s.spPart rs).length := by
  have ht : (s.arrayKey s.tile.mat).2.tile = s.tile := by unfold State.arrayKey; simp only; split <;> rfl
  have hm : (s.arrayKey s.tile.mat).2.mem = s.mem := by unfold State.arrayKey; simp only; split <;> rfl
  have hb : ∀ n a, ((s.arrayKey s.tile.mat).2).spBytes a n = s.spBytes a n := by
    intro n
    induction n with
    | zero => intro a; rfl
    | succ n ih => intro a; simp only [State.spBytes, State.spByte, ht, hm, ih]
  have hp : ((s.arrayKey s.tile.mat).2).spPart rs = s.spPart rs := by simp only [State.spPart, hb]
  simp only [State.image, ht, hp, List.length_append, imageHeader, leBytes_length, Tile.fixedBytes_length, arrayBytes,
    List.length_map, List.length_range, arrayOff, asz]
  omega

end Sys2Proof.Machine
end

