-- ==== Sys2Proof/Laws/Issue.lean ====
section
/-! SUPPORT. What issuing an instruction that stands alone comes to: where nothing stands before it, its slot's outcome
decides. -/

namespace Sys2Proof

open Machine

/-- p0 is true (R51). -/
@[simp] theorem Machine.Tile.pred_zero (t : Tile) : t.pred 0 = true := rfl

/-- p0 is never outstanding (R51, R314). -/
@[simp] theorem Machine.Tile.outstanding_pred_zero (t : Tile) : t.outstanding (.pred 0) = false := rfl

/-- s0 is never outstanding (R51, R314). -/
@[simp] theorem Machine.Tile.outstanding_sreg_zero (t : Tile) : t.outstanding (.sreg 0) = false := rfl

/-- A slot that stands alone sees the tile as it is. -/
@[simp] theorem Machine.State.alone_pre (s : State) : s.alone.pre = s.tile := rfl

/-- The slot of a bundle of one instruction is live. -/
theorem liveSlots_alone (t : Tile) (x : Slot) : liveSlots t [(0, x)] = [x] := rfl

/-- Nothing traps before the bundle of an instruction that is ready. -/
theorem preTrap_ready {s : State} {i : Instr} (h : Ready s i) : preTrap s s.tile.pc [(0, slotOf i)] = none := by
  have hb : (s.tile.dbgctl.getLsbD 1 && s.tile.dbgbp.toNat == s.tile.pc) = false := by
    rcases h.unbroken with hb | hb
    · rw [hb]; rfl
    · simp [hb]
  have hp : (!s.tile.priv && (slotOf i).priv) = false := by
    cases hq : (slotOf i).priv with
    | false => simp
    | true => simp [h.allowed hq]
  have hl : s.tile.lsFault = none := by simp [Tile.lsFault, h.loader, h.storer]
  simp only [preTrap, hb, hl, List.any_cons, List.any_nil, Bool.or_false, hp]
  rfl

/-- A pending engine error is not met by an instruction that is ready (R288). -/
theorem engMeets_ready {s : State} {i : Instr} (h : Ready s i) : engMeets s [(0, slotOf i)] = false := by
  cases hq : s.tile.engerr.getLsbD 63 with
  | false => rw [engMeets, hq]; rfl
  | true => simp [engMeets, liveSlots_alone, h.engine hq]

/-- The bundle of an instruction that is ready goes as its slot goes. -/
theorem issue1_ready {s : State} {i : Instr} (h : Ready s i) :
    issue1 s (slotOf i) =
      match runSlots s.alone (popFirst [(0, slotOf i)]) { s := s } with
      | .trap i => s.raise s.tile.pc i
      | .fail u i => u.raise s.tile.pc i
      | .stall u => if goesOn s u [(0, slotOf i)] then issueWith State.holdIssue u 1 0 [(0, slotOf i)] else u.holdIssue
      | .resolve =>
        match s.tile.spec with
        | none => s.holdIssue
        | some p => s.resolutionStall p (resolverRun s.alone (popFirst [(0, slotOf i)]) s)
      | .wait u k => u.holdWait k
      | .done r =>
        match r.late with
        | some (u, i) => u.raise s.tile.pc i
        | none => commit s.alone 1 r.s r.fx := by
  have hd : s.tile.deferred = none := by
    cases hq : s.tile.spec with
    | none => simp [Tile.deferred, hq]
    | some p => simp [Tile.deferred, hq, h.resolved p hq]
  have hf : (s.tile.spec.filter fun _ => (liveSlots s.tile [(0, slotOf i)]).any fun x => x.resolves s.tile) = none := by
    cases hq : s.tile.spec with
    | none => rfl
    | some p => simp [liveSlots_alone, h.resolved p hq]
  have ho : (bundleReads s.tile [(0, slotOf i)]).any s.tile.outstanding = false :=
    List.any_eq_false.mpr fun w hw => by
      rcases List.mem_cons.mp (show w ∈ Site.pred 0 :: ((slotOf i).reads s.tile ++ []) from hw) with rfl | hw
      · simp
      · simp [h.present w (by simpa using hw)]
  have hp : ([(0, slotOf i)].any fun p => s.tile.outstanding (.pred p.1)) = false := by simp
  simp only [issue1, issue, issueWith, h.released, hd, preTrap_ready h, hp, engMeets_ready h, hf, ho]
  rfl

/-- One slot has nothing to be ordered. -/
theorem popFirst_alone (x : Slot) : popFirst [(0, x)] = [(0, x)] := by
  cases hx : x.early <;> simp [popFirst, hx]

/-- A clear instruction that stands alone goes as its slot goes. -/
theorem runSlots_clear {s : State} {i : Instr} (h : Clear s i) :
    runSlots s.alone (popFirst [(0, slotOf i)]) { s := s } =
      match (slotOf i).run s.alone s with
      | .ok u fx => .done { s := u, fx := ({} : Fx).merge fx }
      | .trap e => .trap { e with slot := (slotOf i).cls }
      | .fail u e => .fail u { e with slot := (slotOf i).cls }
      | .late u e => .done { s := s, late := some (u, { e with slot := (slotOf i).cls }) }
      | .stall u => .stall u
      | .resolve => .resolve
      | .wait u k => .wait u k := by
  have hr : ((slotOf i).reads s.tile).any s.tile.spoilt = false :=
    List.any_eq_false.mpr fun w hw => by simp [h.sound w hw]
  rw [popFirst_alone]
  simp only [runSlots, Ctx.pre, State.alone, Tile.pred_zero, hr]
  cases (slotOf i).run { s0 := s, rnd := 0, pc := s.tile.pc } s <;> cases (slotOf i).early <;>
    first | rfl | exact ite_self _

/-- The bundle of a clear instruction whose slot has an effect, and asks for no trap and no end of the task, moves on. -/
theorem does_of_run {s u : State} {i : Instr} {fx : Fx} (hx : exec i s = .next (issue1 s (slotOf i))) (h : Clear s i)
    (hr : (slotOf i).run s.alone s = .ok u fx) (ht : fx.trapImm = none) (hq : fx.retire = false) : Does s i u fx := by
  unfold Does
  have hm : ({} : Fx).merge fx = fx := by
    cases fx; simp [Fx.merge]
  have hd : (s.tile.dbgctl.getLsbD 0 && !s.tile.priv) = false := by
    rcases h.unstepped with hb | hb
    · rw [hb]; rfl
    · simp [hb]
  rw [hx, issue1_ready h.toReady, runSlots_clear h, hr]
  simp only [hm]
  simp only [commit, ht, hq, Ctx.pre, hd]
  rfl

/-- An instruction whose slot writes one scalar register does that alone (R217). -/
theorem setsReg_of_run {s : State} {i : Instr} {d : SReg} {v w : Word} (hx : exec i s = .next (issue1 s (slotOf i)))
    (hr : (slotOf i).run s.alone s = .ok (s.mapTile fun t => t.write (.sreg d) w) {}) (hv : w = v) : SetsReg s i d v :=
  hv ▸ fun h => does_of_run hx h hr rfl rfl

/-- An instruction whose slot writes one predicate does that alone (R220, R222). -/
theorem setsPred_of_run {s : State} {i : Instr} {p : PReg} {v w : Bool} (hx : exec i s = .next (issue1 s (slotOf i)))
    (hr : (slotOf i).run s.alone s = .ok (s.mapTile fun t => t.write (.pred p) (boolWord w)) {}) (hv : w = v) :
    SetsPred s i p v :=
  hv ▸ fun h => does_of_run hx h hr rfl rfl

/-- The bundle of a clear instruction whose slot traps raises the cause at the bundle, with the slot's class (R179, R393). -/
theorem traps_of_run {s : State} {i : Instr} {e : TrapInfo} (hx : exec i s = .next (issue1 s (slotOf i))) (h : Clear s i)
    (hr : (slotOf i).run s.alone s = .trap e) :
    exec i s = .next (s.raise s.tile.pc { e with slot := (slotOf i).cls }) := by
  rw [hx, issue1_ready h.toReady, runSlots_clear h, hr]

/-- A tile on which nothing is pending, as a test finds it by evaluation. -/
abbrev Machine.Tile.Plain (t : Tile) : Prop :=
  t.releasing = none ∧ t.dbgctl = 0 ∧ t.loader.fault = none ∧ t.storer.fault = none ∧ t.engerr.getLsbD 63 = false

/-- What an instruction asks of a plain tile. -/
abbrev Machine.Slot.Fits (x : Slot) (t : Tile) : Prop :=
  (x.priv = true → t.priv = true) ∧ (t.spec.all fun p => p.fault.isNone && !x.resolves t) = true

/-- An instruction on a plain tile that it fits, its sources at hand, is ready. -/
theorem ready_of {s : State} {i : Instr} (ht : s.tile.Plain) (hx : (slotOf i).Fits s.tile)
    (hr : ∀ w, w ∈ (slotOf i).reads s.tile → s.tile.outstanding w = false) : Ready s i where
  released := ht.1
  unbroken := .inl (ht.2.1 ▸ rfl)
  unstepped := .inl (ht.2.1 ▸ rfl)
  loader := ht.2.2.1
  storer := ht.2.2.2.1
  engine := fun h => Bool.noConfusion (ht.2.2.2.2.symm.trans h)
  allowed := hx.1
  resolved := fun p hp => by simpa [hp] using hx.2
  present := hr

/-- An instruction on a plain tile that it fits, its sources at hand and sound, is clear. -/
theorem clear_of {s : State} {i : Instr} (ht : s.tile.Plain) (hx : (slotOf i).Fits s.tile)
    (hr : ∀ w, w ∈ (slotOf i).reads s.tile → s.tile.outstanding w = false ∧ s.tile.spoilt w = false) : Clear s i where
  toReady := ready_of ht hx fun w hw => (hr w hw).1
  sound := fun w hw => (hr w hw).2

end Sys2Proof
end

