-- ==== Sys2Proof/Laws/Memory.lean ====
section
/-! SUPPORT. Memory keeps its canonical form under every operation; a read after a write. -/

namespace Sys2Proof.Machine

/-- A memory above a bound lies above every lower one. -/
theorem Memory.above_mono {m : Memory} {a b : Nat} (h : b ≤ a) (hm : Memory.above a m = true) : Memory.above b m = true := by
  cases m with
  | nil => rfl
  | cons c l =>
    simp only [Memory.above, Bool.and_eq_true, decide_eq_true_eq] at hm ⊢
    exact ⟨⟨Nat.le_trans h hm.1.1, hm.1.2⟩, hm.2⟩

/-- A key below every key of a memory reads blank. -/
theorem Memory.get_below {m : Memory} {lo k : Nat} (hm : Memory.above lo m = true) (hk : k < lo) : m.get k = Memory.blank := by
  induction m generalizing lo with
  | nil => rfl
  | cons c l ih =>
    simp only [Memory.above, Bool.and_eq_true, decide_eq_true_eq] at hm
    have hne : c.1 ≠ k := by omega
    simp only [Memory.get, hne, if_false]
    exact ih hm.2 (by omega)

/-- Writing at or above a bound keeps the form above it. -/
theorem Memory.above_set {m : Memory} {lo k : Nat} (v : Byte) (hk : lo ≤ k) (hm : Memory.above lo m = true) :
    Memory.above lo (m.set k v) = true := by
  induction m generalizing lo with
  | nil =>
    simp only [Memory.set]
    split
    · rfl
    · rename_i h; simp [Memory.above, hk, h]
  | cons c l ih =>
    obtain ⟨a, b⟩ := c
    simp only [Memory.above, Bool.and_eq_true, decide_eq_true_eq] at hm
    obtain ⟨⟨h1, h2⟩, h3⟩ := hm
    simp only [Memory.set]
    split
    · rename_i hlt
      split
      · simp [Memory.above, h1, h2, h3]
      · rename_i hv
        simp only [Memory.above, Bool.and_eq_true, decide_eq_true_eq]
        exact ⟨⟨hk, by simpa using hv⟩, ⟨by omega, h2⟩, h3⟩
    · split
      · rename_i heq
        split
        · exact above_mono (by omega) h3
        · rename_i hv
          subst heq
          simp only [Memory.above, Bool.and_eq_true, decide_eq_true_eq]
          exact ⟨⟨h1, by simpa using hv⟩, h3⟩
      · simp only [Memory.above, Bool.and_eq_true, decide_eq_true_eq]
        exact ⟨⟨h1, h2⟩, ih (by omega) h3⟩

/-- Writing a byte keeps the canonical form. -/
theorem Memory.wf_set {m : Memory} (k : Nat) (v : Byte) (hm : m.wf = true) : (m.set k v).wf = true :=
  above_set v (Nat.zero_le k) hm

/-- A read after a write of one byte. -/
theorem Memory.get_set {m : Memory} {lo : Nat} (k j : Nat) (v : Byte) (hm : Memory.above lo m = true) :
    (m.set k v).get j = if j = k then v else m.get j := by
  induction m generalizing lo with
  | nil =>
    simp only [Memory.set]
    split
    · rename_i h; subst h; simp [Memory.get]
    · by_cases hj : j = k
      · subst hj; simp [Memory.get]
      · have : k ≠ j := fun h => hj h.symm
        simp [Memory.get, hj, this]
  | cons c l ih =>
    obtain ⟨a, b⟩ := c
    simp only [Memory.above, Bool.and_eq_true, decide_eq_true_eq] at hm
    obtain ⟨⟨h1, h2⟩, h3⟩ := hm
    have hbelow : ∀ x, x ≤ a → Memory.get l x = Memory.blank := fun x hx => get_below h3 (by omega)
    by_cases hj : j = k
    · subst hj
      simp only [Memory.set, if_true]
      split
      · rename_i hlt
        split
        · rename_i hv
          have hne : a ≠ j := by omega
          simp only [Memory.get, hne, if_false, hv]
          exact hbelow j (by omega)
        · simp [Memory.get]
      · split
        · rename_i heq
          split
          · rename_i hv; rw [hv]; exact hbelow j (by omega)
          · simp [Memory.get]
        · rename_i hne
          simp only [Memory.get, hne, if_false]
          rw [ih h3]; simp
    · have hkj : k ≠ j := fun h => hj h.symm
      simp only [Memory.set, hj, if_false]
      split
      · split
        · rfl
        · simp [Memory.get, hkj]
      · split
        · rename_i heq
          subst heq
          split
          · simp only [Memory.get, hkj, if_false]
          · simp [Memory.get, hkj]
        · simp only [Memory.get]
          rw [ih h3]; simp [hj]

/-- A byte reads as it was written. -/
theorem Memory.get_set_same {m : Memory} (k : Nat) (v : Byte) (hm : m.wf = true) : (m.set k v).get k = v := by
  simp [get_set k k v hm]

/-- A write leaves every other byte. -/
theorem Memory.get_set_other {m : Memory} {k j : Nat} (v : Byte) (hm : m.wf = true) (hj : j ≠ k) :
    (m.set k v).get j = m.get j := by
  simp [get_set k j v hm, hj]

/-- Writing bytes keeps the canonical form. -/
theorem Memory.wf_put {m : Memory} (k : Nat) (l : List Byte) (hm : m.wf = true) : (m.put k l).wf = true := by
  induction l generalizing m k with
  | nil => exact hm
  | cons b l ih => exact ih _ (wf_set k b hm)

/-- A read after a write of some bytes. -/
theorem Memory.get_put {m : Memory} (k j : Nat) (l : List Byte) (hm : m.wf = true) :
    (m.put k l).get j = if k ≤ j then (l[j - k]?).getD (m.get j) else m.get j := by
  induction l generalizing m k with
  | nil => simp [Memory.put]
  | cons b l ih =>
    simp only [Memory.put]
    rw [ih _ (wf_set k b hm), get_set k j b hm]
    by_cases h1 : k + 1 ≤ j
    · have h2 : j - k = (j - (k + 1)) + 1 := by omega
      have h3 : k ≤ j := by omega
      have h4 : j ≠ k := by omega
      simp only [h1, h3, h4, if_true, if_false]
      rw [h2, List.getElem?_cons_succ]
    · by_cases h2 : j = k
      · subst h2; simp [h1]
      · have h3 : ¬ k ≤ j := by omega
        simp [h1, h2, h3]

/-- Writing a number keeps the canonical form. -/
theorem Memory.wf_putNum {m : Memory} (k v n : Nat) (hm : m.wf = true) : (m.putNum k v n).wf = true := wf_put k _ hm

/-- Dropping cells keeps the form above a bound. -/
theorem Memory.above_filter {m : Memory} {lo : Nat} (p : Host.Cell → Bool) (hm : Memory.above lo m = true) :
    Memory.above lo (m.filter p) = true := by
  induction m generalizing lo with
  | nil => rfl
  | cons c l ih =>
    simp only [Memory.above, Bool.and_eq_true, decide_eq_true_eq] at hm
    obtain ⟨⟨h1, h2⟩, h3⟩ := hm
    simp only [List.filter_cons]
    split
    · simp only [Memory.above, Bool.and_eq_true, decide_eq_true_eq]
      exact ⟨⟨h1, h2⟩, ih h3⟩
    · exact above_mono (by omega) (ih h3)

/-- Dropping cells keeps the canonical form. -/
theorem Memory.wf_filter {m : Memory} (p : Host.Cell → Bool) (hm : m.wf = true) : Memory.wf (m.filter p) = true :=
  above_filter p hm

/-- Clearing a range keeps the form above a bound. -/
theorem Memory.above_clear {m : Memory} {lo : Nat} (a b : Nat) (hm : Memory.above lo m = true) :
    Memory.above lo (m.clear a b) = true := by
  induction m generalizing lo with
  | nil => rfl
  | cons c l ih =>
    simp only [Memory.above, Bool.and_eq_true, decide_eq_true_eq] at hm
    obtain ⟨⟨h1, h2⟩, h3⟩ := hm
    simp only [Memory.clear]
    split
    · exact above_mono (by omega) (ih h3)
    · simp only [Memory.above, Bool.and_eq_true, decide_eq_true_eq]
      exact ⟨⟨h1, h2⟩, ih h3⟩

/-- Clearing a range keeps the canonical form. -/
theorem Memory.wf_clear {m : Memory} (a b : Nat) (hm : m.wf = true) : (m.clear a b).wf = true := above_clear a b hm

/-- Clearing a range and dropping cells leave a read of what stays. -/
theorem Memory.get_clear {m : Memory} (a b k : Nat) : (m.clear a b).get k = if a ≤ k ∧ k < b then Memory.blank else m.get k := by
  induction m with
  | nil => simp [Memory.clear, Memory.get]
  | cons c l ih =>
    simp only [Memory.clear]
    by_cases hc : a ≤ c.1 ∧ c.1 < b
    · simp only [hc, and_self, if_true, ih, Memory.get]
      by_cases hk : c.1 = k
      · subst hk; simp [hc]
      · simp [hk]
    · by_cases hk : c.1 = k
      · subst hk; simp [hc, Memory.get]
      · simp [hc, Memory.get, hk, ih]

/-- An overlay read after a write. -/
theorem ovGet_set (o : List Host.Cell) (k j : Nat) (v : Byte) : ovGet (ovSet o k v) j = if j = k then some v else ovGet o j := by
  induction o with
  | nil =>
    by_cases h : j = k
    · simp [ovSet, ovGet, h]
    · simp [ovSet, ovGet, h, Ne.symm h]
  | cons c l ih =>
    obtain ⟨a, b⟩ := c
    by_cases h : j = k
    · subst h
      simp only [ovSet]
      split
      · simp [ovGet]
      · split
        · simp [ovGet]
        · rename_i hne; simp [ovGet, hne, ih]
    · have hk : k ≠ j := Ne.symm h
      simp only [ovSet]
      split
      · simp [ovGet, hk]
      · split
        · rename_i heq; subst heq; simp [ovGet, hk]
        · simp only [ovGet, ih, h, if_false]

/-- An overlay read after a write of some bytes. -/
theorem ovGet_put (o : List Host.Cell) (k j : Nat) (l : List Byte) :
    ovGet (ovPut o k l) j = if k ≤ j then (l[j - k]?).orElse (fun _ => ovGet o j) else ovGet o j := by
  induction l generalizing o k with
  | nil => simp [ovPut]
  | cons b l ih =>
    simp only [ovPut]
    rw [ih, ovGet_set]
    by_cases h1 : k + 1 ≤ j
    · have h2 : j - k = (j - (k + 1)) + 1 := by omega
      have h3 : k ≤ j := by omega
      have h4 : j ≠ k := by omega
      simp only [h1, h3, h4, if_true, if_false]
      rw [h2, List.getElem?_cons_succ]
    · by_cases h2 : j = k
      · subst h2; simp [h1]
      · have h3 : ¬ k ≤ j := by omega
        simp [h1, h2, h3]

end Sys2Proof.Machine
end

