-- ==== Sys2Proof/Laws/Order.lean ====
section
/-! SUPPORT. What a boundary comes to on a tile with nothing to wait for and nothing to write back. -/

namespace Sys2Proof

open Machine

/-- A calm boundary is performed at once (R124). -/
theorem withBoundary_calm {s : State} {m : Nat} {ph : Bool} {k : State → SlotR} (h : s.calm m) :
    withBoundary s.alone s m ph k = k (s.bounded m ph) := by
  simp only [withBoundary, boundary, State.alone_pre, h.1, h.2.1, h.2.2, State.bounded]
  rfl

/-- The same from a state that the slot has changed in other parts. -/
theorem withBoundary_calm_from {s u : State} {m : Nat} {ph : Bool} {k : State → SlotR} (h : s.calm m)
    (hu : u.writeBacks (u.tile.linesFor m) = .ok u) : withBoundary s.alone u m ph k = k (u.bounded m ph) := by
  simp only [withBoundary, boundary, State.alone_pre, h.1, h.2.1, hu, State.bounded]
  rfl

/-- Writing lines back commutes with a change of the state with which writing one line back commutes. -/
theorem writeBacks_comm (f : State → State)
    (hv : ∀ s n k, (f s).writeBack n k = match s.writeBack n k with | .error e => .error (f e.1, e.2) | .ok u => .ok (f u)) :
    ∀ l s, (f s).writeBacks l = match s.writeBacks l with | .error e => .error (f e.1, e.2) | .ok u => .ok (f u) := by
  intro l
  induction l with
  | nil => intro s; rfl
  | cons a l ih =>
    intro s
    obtain ⟨n, k⟩ := a
    simp only [State.writeBacks, hv]
    cases s.writeBack n k with
    | error e => rfl
    | ok u => simp [ih]

end Sys2Proof
end

