-- ==== Sys2Proof/Laws/Rv64.lean ====
section
/-! SUPPORT. What one instruction of a management core can touch: its own die's core, memory, the counter of free values. -/

namespace Sys2Proof.Machine

/-- The parts of a state that an instruction of a management core may change. -/
def State.coreOnly (s u : State) : Prop :=
  ∃ (dies : Vector Die 4) (m : Memory) (k : Nat), u = { s with dies := dies, mem := m, freeCtr := k }

theorem State.coreOnly_refl (s : State) : s.coreOnly s := ⟨s.dies, s.mem, s.freeCtr, rfl⟩

theorem State.coreOnly_mapDie {s u : State} (d : DieNo) (f : Die → Die) (h : s.coreOnly u) : s.coreOnly (u.mapDie d f) := by
  obtain ⟨dies, m, k, rfl⟩ := h
  exact ⟨_, m, k, rfl⟩

theorem State.coreOnly_mem {s u : State} (m : Memory) (h : s.coreOnly u) : s.coreOnly { u with mem := m } := by
  obtain ⟨dies, _, k, rfl⟩ := h
  exact ⟨dies, m, k, rfl⟩

theorem State.coreOnly_fresh {s u : State} (h : s.coreOnly u) : s.coreOnly u.fresh.2 := by
  obtain ⟨dies, m, k, rfl⟩ := h
  exact ⟨dies, m, _, rfl⟩

/-- An instruction that ends touches nothing else. -/
theorem State.rvRun_coreOnly {s u : State} {d : DieNo} {len : Nat} {i : Rv64Op} {j : Option Word}
    (h : s.rvRun d len i = .ok u j) : s.coreOnly u := by
  have r := s.coreOnly_refl
  cases i <;> simp only [State.rvRun] at h <;> repeat' split at h
  all_goals first
    | cases h; done
    | (cases h
       first
       | exact r
       | exact State.coreOnly_mapDie _ _ r
       | exact State.coreOnly_mem _ r
       | exact State.coreOnly_mem _ (State.coreOnly_mapDie _ _ r)
       | exact State.coreOnly_mapDie _ _ (State.coreOnly_fresh r)
       | exact State.coreOnly_mem _ (State.coreOnly_mapDie _ _ (State.coreOnly_fresh r)))

/-- So does a step of a management core. -/
theorem State.mgmtStep_coreOnly (s : State) (d : DieNo) : s.coreOnly (s.mgmtStep d) := by
  simp only [State.mgmtStep]
  split
  · exact s.coreOnly_refl
  · split
    · exact s.coreOnly_refl
    · split
      · rename_i u j h
        obtain ⟨i, -, hi⟩ := Option.map_eq_some_iff.mp h
        exact State.coreOnly_mapDie _ _ (State.rvRun_coreOnly hi)
      · exact s.coreOnly_refl
      · exact s.coreOnly_refl

end Sys2Proof.Machine
end

