-- ==== Sys2Proof/Laws/Scratchpad.lean ====
section
/-! SUPPORT. The scratchpad: no two bytes share a place behind bank and line; what writing bytes there does to memory. -/

namespace Sys2Proof.Machine

/-- The bank of a byte, below 32. -/
theorem xor_bank_lt (x y : Nat) : (x / 2 ^ 6 % 2 ^ 5) ^^^ (y / 2 ^ 11 % 2 ^ 5) < 32 :=
  Nat.xor_lt_two_pow (n := 5) (by omega) (by omega)

/-- The line, bank and offset of a byte; the bank is turned by the line where the segment is swizzled. -/
theorem spPhys_parts (swz : BitVec 24) (x : Nat) :
    ∃ bank, bank < 32 ∧ spPhys swz x = x / 2 ^ 11 * 2 ^ 11 + bank * 64 + x % 64
      ∧ bank = (x / 2 ^ 6 % 2 ^ 5) ^^^ (if swz.getLsbD (x / 2 ^ 11 / 2 ^ 5 % 2 ^ 5) then x / 2 ^ 11 % 2 ^ 5 else 0) := by
  have hseg : x / 2 ^ 11 / 2 ^ 5 % 2 ^ 5 = x / 2 ^ 16 % 2 ^ 5 := by omega
  have hp : spPhys swz x = x / 2 ^ 11 * 2 ^ 11
      + (if swz.getLsbD (x / 2 ^ 16 % 2 ^ 5) then (x / 2 ^ 6 % 2 ^ 5) ^^^ (x / 2 ^ 11 % 2 ^ 5) else x / 2 ^ 6 % 2 ^ 5) * 64 + x % 64 := rfl
  rw [hseg, hp]
  cases swz.getLsbD (x / 2 ^ 16 % 2 ^ 5) with
  | true => exact ⟨_, xor_bank_lt x x, rfl, rfl⟩
  | false => exact ⟨x / 2 ^ 6 % 2 ^ 5, by omega, rfl, (Nat.xor_zero _).symm⟩

/-- Different bytes lie in different places (R54). -/
theorem spPhys_inj (swz : BitVec 24) {x y : Nat} (h : spPhys swz x = spPhys swz y) : x = y := by
  obtain ⟨b, hb, hx, ex⟩ := spPhys_parts swz x
  obtain ⟨c, hc, hy, ey⟩ := spPhys_parts swz y
  have hl : x / 2 ^ 11 = y / 2 ^ 11 := by omega
  have hm : x % 64 = y % 64 := by omega
  have hbc : b = c := by omega
  have hk : x / 2 ^ 6 % 2 ^ 5 = y / 2 ^ 6 % 2 ^ 5 := by
    rw [ex, ey, hl] at hbc
    have h2 := congrArg (· ^^^ (if swz.getLsbD (y / 2 ^ 11 / 2 ^ 5 % 2 ^ 5) then y / 2 ^ 11 % 2 ^ 5 else 0)) hbc
    simpa only [Nat.xor_assoc, Nat.xor_self, Nat.xor_zero] using h2
  omega

/-- Two scratchpad bytes of one tile with one key are one byte. -/
theorem spKey_inj {cl : ClusterNo} {tn : TileNo} {x y : Nat} (h : spKey cl tn x = spKey cl tn y) : x = y := by
  simp only [spKey] at h; omega

/-- Putting bytes into the banks keeps the tile. -/
theorem State.spRaw_tile (s : State) (a : Nat) (l : List Byte) : (s.spRaw a l).tile = s.tile := by
  induction l generalizing s a with
  | nil => rfl
  | cons b l ih => rw [State.spRaw, ih]

/-- Putting bytes into the banks keeps the canonical form. -/
theorem State.spRaw_wf (s : State) (a : Nat) (l : List Byte) (h : s.mem.wf = true) : (s.spRaw a l).mem.wf = true := by
  induction l generalizing s a with
  | nil => exact h
  | cons b l ih => exact ih _ _ (Memory.wf_set _ b h)

/-- A key that is the place of none of the bytes put keeps its byte. -/
theorem State.spRaw_get_other (s : State) (a : Nat) (l : List Byte) (key : Nat) (h : s.mem.wf = true)
    (hk : ∀ k, k < l.length → key ≠ spKey s.tile.cl s.tile.tn (spPhys s.tile.spswz (a + k))) :
    (s.spRaw a l).mem.get key = s.mem.get key := by
  induction l generalizing s a with
  | nil => rfl
  | cons b l ih =>
    rw [State.spRaw, ih]
    · exact Memory.get_set_other b h (hk 0 (by simp))
    · exact Memory.wf_set _ b h
    · intro k hlt
      have := hk (k + 1) (by simpa using hlt)
      rwa [show a + (k + 1) = a + 1 + k by omega] at this

/-- The bytes put read as they were put. -/
theorem State.spRaw_get (s : State) (a : Nat) (l : List Byte) (h : s.mem.wf = true) (k : Nat) (hk : k < l.length) :
    some ((s.spRaw a l).spByte (a + k)) = l[k]? := by
  induction l generalizing s a k with
  | nil => simp at hk
  | cons b l ih =>
    cases k with
    | zero =>
      simp only [State.spByte, State.spRaw, State.spRaw_tile, Nat.add_zero, List.getElem?_cons_zero]
      rw [State.spRaw_get_other]
      · simp [Memory.get_set_same _ _ h]
      · exact Memory.wf_set _ b h
      · intro j hj heq
        have := spPhys_inj _ (spKey_inj heq)
        omega
    | succ k =>
      have hj : k < l.length := by simpa using hk
      have := ih { s with mem := s.mem.set (spKey s.tile.cl s.tile.tn (spPhys s.tile.spswz a)) b } (a + 1) (Memory.wf_set _ b h) k hj
      rw [List.getElem?_cons_succ, ← this, State.spRaw, show a + (k + 1) = a + 1 + k by omega]

end Sys2Proof.Machine
end

