-- ==== Sys2Proof/Laws/Slots.lean ====
section
/-! SUPPORT. What the shared operations of the memory slot come to: the slot is free, a load is under way, a store is
performed; where a cluster lets something in; the first of a list that is due. -/

namespace Sys2Proof

open Machine

/-- A memory slot that is free runs (R248). -/
theorem memSlot_run {s u : State} {reads : Tile → List Site} {run : Ctx → State → SlotR} (h : s.tile.busy ≤ s.tile.tc) :
    (memSlot reads run).run s.alone u = run s.alone u := by
  simp [memSlot, Nat.not_lt.mpr h]

/-- A load whose checks pass is under way (R250, R315). -/
theorem loadR_ok {s u : State} {ranges : List (Nat × Nat)} {due : Nat} {val : State → List (Site × Option Word)}
    (h : memPrep s s false ranges = .ok u) (hc : s.tile.cld < 24) :
    loadR s.alone s ranges due val = .ok (u.loading ranges due val) {} := by
  have : ¬ ctrMax ≤ s.tile.cld := by simp [ctrMax]; omega
  simp [loadR, h, this, okR, State.loading]

/-- A store outside speculation whose checks pass is performed (R56, R315). -/
theorem storeR_ok {s v u : State} {l : List (Nat × List Byte)} {due : Nat} (h : memPrep s v true (rangesOf l) = .ok u)
    (hs : u.tile.spec = none) (hc : s.tile.cst < 24) : storeR s.alone v l due = .ok (u.storing l due) {} := by
  have : ¬ ctrMax ≤ s.tile.cst := by simp [ctrMax]; omega
  simp only [rangesOf] at h
  simp [storeR, h, this, okR, State.storing, hs]

/-- Data that a slot waits for is there (R256, R267, R319). -/
theorem waitData_ready {s : State} {n : Nat} {l : List (Nat × Nat)} {k : SlotR} (h : s.tile.dataThere l) :
    waitData s.alone n l k = k := by
  rcases h with ⟨h1, h2⟩ | ⟨h1, h2, h3⟩
  · simp [waitData, h1, Nat.not_lt.mpr h2]
  · simp [waitData, h1, h2, Nat.not_lt.mpr h3]

/-- A cluster that lets packets in is not shut (R416). -/
theorem shut_of_lets {s : State} {c : ClusterNo} (h : (s.clusters[c.val]).lets = true) : s.shut (some c) = none := by
  simp [State.shut, Option.filter, h]

/-- The first element that a test accepts is found. -/
theorem find_first {α : Type} (p : α → Bool) (a b : List α) (x : α) (ha : ∀ g ∈ a, p g = false) (hx : p x = true) :
    (a ++ x :: b).find? p = some x := by
  induction a with
  | nil => simp [hx]
  | cons y l ih => simp [ha y (by simp), ih (fun g hg => ha g (by simp [hg]))]

/-- The first element that a test accepts is taken out. -/
theorem erase_first {α : Type} (p : α → Bool) (a b : List α) (x : α) (ha : ∀ g ∈ a, p g = false) (hx : p x = true) :
    (a ++ x :: b).eraseP p = a ++ b := by
  induction a with
  | nil => simp [hx]
  | cons y l ih => simp [ha y (by simp), ih (fun g hg => ha g (by simp [hg]))]

end Sys2Proof
end

