-- ==== Sys2Proof/Laws/State.lean ====
section
/-! SUPPORT. What each update of the machine and of a tile leaves of each field, and what it makes of the one it changes. -/

namespace Sys2Proof.Machine

/-! ## Updates of the machine -/

@[simp] theorem State.mapTile_tile (s : State) (f : Tile → Tile) : (s.mapTile f).tile = f s.tile := rfl
@[simp] theorem State.mapTile_others (s : State) (f : Tile → Tile) : (s.mapTile f).others = s.others := rfl
@[simp] theorem State.mapTile_turn (s : State) (f : Tile → Tile) : (s.mapTile f).turn = s.turn := rfl
@[simp] theorem State.mapTile_clusters (s : State) (f : Tile → Tile) : (s.mapTile f).clusters = s.clusters := rfl
@[simp] theorem State.mapTile_dies (s : State) (f : Tile → Tile) : (s.mapTile f).dies = s.dies := rfl
@[simp] theorem State.mapTile_parts (s : State) (f : Tile → Tile) : (s.mapTile f).parts = s.parts := rfl
@[simp] theorem State.mapTile_teams (s : State) (f : Tile → Tile) : (s.mapTile f).teams = s.teams := rfl
@[simp] theorem State.mapTile_puts (s : State) (f : Tile → Tile) : (s.mapTile f).puts = s.puts := rfl
@[simp] theorem State.mapTile_rows (s : State) (f : Tile → Tile) : (s.mapTile f).rows = s.rows := rfl
@[simp] theorem State.mapTile_colls (s : State) (f : Tile → Tile) : (s.mapTile f).colls = s.colls := rfl
@[simp] theorem State.mapTile_queued (s : State) (f : Tile → Tile) : (s.mapTile f).queued = s.queued := rfl
@[simp] theorem State.mapTile_records (s : State) (f : Tile → Tile) : (s.mapTile f).records = s.records := rfl
@[simp] theorem State.mapTile_tearing (s : State) (f : Tile → Tile) : (s.mapTile f).tearing = s.tearing := rfl
@[simp] theorem State.mapTile_nextRec (s : State) (f : Tile → Tile) : (s.mapTile f).nextRec = s.nextRec := rfl
@[simp] theorem State.mapTile_nextRef (s : State) (f : Tile → Tile) : (s.mapTile f).nextRef = s.nextRef := rfl
@[simp] theorem State.mapTile_nextTask (s : State) (f : Tile → Tile) : (s.mapTile f).nextTask = s.nextTask := rfl
@[simp] theorem State.mapTile_fns (s : State) (f : Tile → Tile) : (s.mapTile f).fns = s.fns := rfl
@[simp] theorem State.mapTile_links (s : State) (f : Tile → Tile) : (s.mapTile f).links = s.links := rfl
@[simp] theorem State.mapTile_ports (s : State) (f : Tile → Tile) : (s.mapTile f).ports = s.ports := rfl
@[simp] theorem State.mapTile_routes (s : State) (f : Tile → Tile) : (s.mapTile f).routes = s.routes := rfl
@[simp] theorem State.mapTile_power (s : State) (f : Tile → Tile) : (s.mapTile f).power = s.power := rfl
@[simp] theorem State.mapTile_nvs (s : State) (f : Tile → Tile) : (s.mapTile f).nvs = s.nvs := rfl
@[simp] theorem State.mapTile_attest (s : State) (f : Tile → Tile) : (s.mapTile f).attest = s.attest := rfl
@[simp] theorem State.mapTile_arrays (s : State) (f : Tile → Tile) : (s.mapTile f).arrays = s.arrays := rfl
@[simp] theorem State.mapTile_mem (s : State) (f : Tile → Tile) : (s.mapTile f).mem = s.mem := rfl
@[simp] theorem State.mapTile_bad (s : State) (f : Tile → Tile) : (s.mapTile f).bad = s.bad := rfl
@[simp] theorem State.mapTile_ambient (s : State) (f : Tile → Tile) : (s.mapTile f).ambient = s.ambient := rfl
@[simp] theorem State.mapTile_device (s : State) (f : Tile → Tile) : (s.mapTile f).device = s.device := rfl
@[simp] theorem State.mapTile_time (s : State) (f : Tile → Tile) : (s.mapTile f).time = s.time := rfl
@[simp] theorem State.mapTile_subtime (s : State) (f : Tile → Tile) : (s.mapTile f).subtime = s.subtime := rfl
@[simp] theorem State.mapTile_agenda (s : State) (f : Tile → Tile) : (s.mapTile f).agenda = s.agenda := rfl
@[simp] theorem State.mapTile_freeCtr (s : State) (f : Tile → Tile) : (s.mapTile f).freeCtr = s.freeCtr := rfl
@[simp] theorem State.mapTile_powered (s : State) (f : Tile → Tile) : (s.mapTile f).powered = s.powered := rfl

@[simp] theorem State.mapTiles_tile (s : State) (f : Tile → Tile) : (s.mapTiles f).tile = f s.tile := rfl
@[simp] theorem State.mapTiles_others (s : State) (f : Tile → Tile) : (s.mapTiles f).others = s.others.map f := rfl
@[simp] theorem State.mapTiles_turn (s : State) (f : Tile → Tile) : (s.mapTiles f).turn = s.turn := rfl
@[simp] theorem State.mapTiles_clusters (s : State) (f : Tile → Tile) : (s.mapTiles f).clusters = s.clusters := rfl
@[simp] theorem State.mapTiles_dies (s : State) (f : Tile → Tile) : (s.mapTiles f).dies = s.dies := rfl
@[simp] theorem State.mapTiles_parts (s : State) (f : Tile → Tile) : (s.mapTiles f).parts = s.parts := rfl
@[simp] theorem State.mapTiles_teams (s : State) (f : Tile → Tile) : (s.mapTiles f).teams = s.teams := rfl
@[simp] theorem State.mapTiles_puts (s : State) (f : Tile → Tile) : (s.mapTiles f).puts = s.puts := rfl
@[simp] theorem State.mapTiles_rows (s : State) (f : Tile → Tile) : (s.mapTiles f).rows = s.rows := rfl
@[simp] theorem State.mapTiles_colls (s : State) (f : Tile → Tile) : (s.mapTiles f).colls = s.colls := rfl
@[simp] theorem State.mapTiles_queued (s : State) (f : Tile → Tile) : (s.mapTiles f).queued = s.queued := rfl
@[simp] theorem State.mapTiles_records (s : State) (f : Tile → Tile) : (s.mapTiles f).records = s.records := rfl
@[simp] theorem State.mapTiles_tearing (s : State) (f : Tile → Tile) : (s.mapTiles f).tearing = s.tearing := rfl
@[simp] theorem State.mapTiles_nextRec (s : State) (f : Tile → Tile) : (s.mapTiles f).nextRec = s.nextRec := rfl
@[simp] theorem State.mapTiles_nextRef (s : State) (f : Tile → Tile) : (s.mapTiles f).nextRef = s.nextRef := rfl
@[simp] theorem State.mapTiles_nextTask (s : State) (f : Tile → Tile) : (s.mapTiles f).nextTask = s.nextTask := rfl
@[simp] theorem State.mapTiles_fns (s : State) (f : Tile → Tile) : (s.mapTiles f).fns = s.fns := rfl
@[simp] theorem State.mapTiles_links (s : State) (f : Tile → Tile) : (s.mapTiles f).links = s.links := rfl
@[simp] theorem State.mapTiles_ports (s : State) (f : Tile → Tile) : (s.mapTiles f).ports = s.ports := rfl
@[simp] theorem State.mapTiles_routes (s : State) (f : Tile → Tile) : (s.mapTiles f).routes = s.routes := rfl
@[simp] theorem State.mapTiles_power (s : State) (f : Tile → Tile) : (s.mapTiles f).power = s.power := rfl
@[simp] theorem State.mapTiles_nvs (s : State) (f : Tile → Tile) : (s.mapTiles f).nvs = s.nvs := rfl
@[simp] theorem State.mapTiles_attest (s : State) (f : Tile → Tile) : (s.mapTiles f).attest = s.attest := rfl
@[simp] theorem State.mapTiles_arrays (s : State) (f : Tile → Tile) : (s.mapTiles f).arrays = s.arrays := rfl
@[simp] theorem State.mapTiles_mem (s : State) (f : Tile → Tile) : (s.mapTiles f).mem = s.mem := rfl
@[simp] theorem State.mapTiles_bad (s : State) (f : Tile → Tile) : (s.mapTiles f).bad = s.bad := rfl
@[simp] theorem State.mapTiles_ambient (s : State) (f : Tile → Tile) : (s.mapTiles f).ambient = s.ambient := rfl
@[simp] theorem State.mapTiles_device (s : State) (f : Tile → Tile) : (s.mapTiles f).device = s.device := rfl
@[simp] theorem State.mapTiles_time (s : State) (f : Tile → Tile) : (s.mapTiles f).time = s.time := rfl
@[simp] theorem State.mapTiles_subtime (s : State) (f : Tile → Tile) : (s.mapTiles f).subtime = s.subtime := rfl
@[simp] theorem State.mapTiles_agenda (s : State) (f : Tile → Tile) : (s.mapTiles f).agenda = s.agenda := rfl
@[simp] theorem State.mapTiles_freeCtr (s : State) (f : Tile → Tile) : (s.mapTiles f).freeCtr = s.freeCtr := rfl
@[simp] theorem State.mapTiles_powered (s : State) (f : Tile → Tile) : (s.mapTiles f).powered = s.powered := rfl

@[simp] theorem State.setCluster_tile (s : State) (x : Cluster) : (s.setCluster x).tile = s.tile := rfl
@[simp] theorem State.setCluster_others (s : State) (x : Cluster) : (s.setCluster x).others = s.others := rfl
@[simp] theorem State.setCluster_turn (s : State) (x : Cluster) : (s.setCluster x).turn = s.turn := rfl
@[simp] theorem State.setCluster_clusters (s : State) (x : Cluster) : (s.setCluster x).clusters = s.clusters.set s.tile.cl.val x := rfl
@[simp] theorem State.setCluster_dies (s : State) (x : Cluster) : (s.setCluster x).dies = s.dies := rfl
@[simp] theorem State.setCluster_parts (s : State) (x : Cluster) : (s.setCluster x).parts = s.parts := rfl
@[simp] theorem State.setCluster_teams (s : State) (x : Cluster) : (s.setCluster x).teams = s.teams := rfl
@[simp] theorem State.setCluster_puts (s : State) (x : Cluster) : (s.setCluster x).puts = s.puts := rfl
@[simp] theorem State.setCluster_rows (s : State) (x : Cluster) : (s.setCluster x).rows = s.rows := rfl
@[simp] theorem State.setCluster_colls (s : State) (x : Cluster) : (s.setCluster x).colls = s.colls := rfl
@[simp] theorem State.setCluster_queued (s : State) (x : Cluster) : (s.setCluster x).queued = s.queued := rfl
@[simp] theorem State.setCluster_records (s : State) (x : Cluster) : (s.setCluster x).records = s.records := rfl
@[simp] theorem State.setCluster_tearing (s : State) (x : Cluster) : (s.setCluster x).tearing = s.tearing := rfl
@[simp] theorem State.setCluster_nextRec (s : State) (x : Cluster) : (s.setCluster x).nextRec = s.nextRec := rfl
@[simp] theorem State.setCluster_nextRef (s : State) (x : Cluster) : (s.setCluster x).nextRef = s.nextRef := rfl
@[simp] theorem State.setCluster_nextTask (s : State) (x : Cluster) : (s.setCluster x).nextTask = s.nextTask := rfl
@[simp] theorem State.setCluster_fns (s : State) (x : Cluster) : (s.setCluster x).fns = s.fns := rfl
@[simp] theorem State.setCluster_links (s : State) (x : Cluster) : (s.setCluster x).links = s.links := rfl
@[simp] theorem State.setCluster_ports (s : State) (x : Cluster) : (s.setCluster x).ports = s.ports := rfl
@[simp] theorem State.setCluster_routes (s : State) (x : Cluster) : (s.setCluster x).routes = s.routes := rfl
@[simp] theorem State.setCluster_power (s : State) (x : Cluster) : (s.setCluster x).power = s.power := rfl
@[simp] theorem State.setCluster_nvs (s : State) (x : Cluster) : (s.setCluster x).nvs = s.nvs := rfl
@[simp] theorem State.setCluster_attest (s : State) (x : Cluster) : (s.setCluster x).attest = s.attest := rfl
@[simp] theorem State.setCluster_arrays (s : State) (x : Cluster) : (s.setCluster x).arrays = s.arrays := rfl
@[simp] theorem State.setCluster_mem (s : State) (x : Cluster) : (s.setCluster x).mem = s.mem := rfl
@[simp] theorem State.setCluster_bad (s : State) (x : Cluster) : (s.setCluster x).bad = s.bad := rfl
@[simp] theorem State.setCluster_ambient (s : State) (x : Cluster) : (s.setCluster x).ambient = s.ambient := rfl
@[simp] theorem State.setCluster_device (s : State) (x : Cluster) : (s.setCluster x).device = s.device := rfl
@[simp] theorem State.setCluster_time (s : State) (x : Cluster) : (s.setCluster x).time = s.time := rfl
@[simp] theorem State.setCluster_subtime (s : State) (x : Cluster) : (s.setCluster x).subtime = s.subtime := rfl
@[simp] theorem State.setCluster_agenda (s : State) (x : Cluster) : (s.setCluster x).agenda = s.agenda := rfl
@[simp] theorem State.setCluster_freeCtr (s : State) (x : Cluster) : (s.setCluster x).freeCtr = s.freeCtr := rfl
@[simp] theorem State.setCluster_powered (s : State) (x : Cluster) : (s.setCluster x).powered = s.powered := rfl

@[simp] theorem State.mapCluster_tile (s : State) (c : ClusterNo) (f : Cluster → Cluster) : (s.mapCluster c f).tile = s.tile := rfl
@[simp] theorem State.mapCluster_others (s : State) (c : ClusterNo) (f : Cluster → Cluster) : (s.mapCluster c f).others = s.others := rfl
@[simp] theorem State.mapCluster_turn (s : State) (c : ClusterNo) (f : Cluster → Cluster) : (s.mapCluster c f).turn = s.turn := rfl
@[simp] theorem State.mapCluster_dies (s : State) (c : ClusterNo) (f : Cluster → Cluster) : (s.mapCluster c f).dies = s.dies := rfl
@[simp] theorem State.mapCluster_parts (s : State) (c : ClusterNo) (f : Cluster → Cluster) : (s.mapCluster c f).parts = s.parts := rfl
@[simp] theorem State.mapCluster_teams (s : State) (c : ClusterNo) (f : Cluster → Cluster) : (s.mapCluster c f).teams = s.teams := rfl
@[simp] theorem State.mapCluster_puts (s : State) (c : ClusterNo) (f : Cluster → Cluster) : (s.mapCluster c f).puts = s.puts := rfl
@[simp] theorem State.mapCluster_rows (s : State) (c : ClusterNo) (f : Cluster → Cluster) : (s.mapCluster c f).rows = s.rows := rfl
@[simp] theorem State.mapCluster_colls (s : State) (c : ClusterNo) (f : Cluster → Cluster) : (s.mapCluster c f).colls = s.colls := rfl
@[simp] theorem State.mapCluster_queued (s : State) (c : ClusterNo) (f : Cluster → Cluster) : (s.mapCluster c f).queued = s.queued := rfl
@[simp] theorem State.mapCluster_records (s : State) (c : ClusterNo) (f : Cluster → Cluster) : (s.mapCluster c f).records = s.records := rfl
@[simp] theorem State.mapCluster_tearing (s : State) (c : ClusterNo) (f : Cluster → Cluster) : (s.mapCluster c f).tearing = s.tearing := rfl
@[simp] theorem State.mapCluster_nextRec (s : State) (c : ClusterNo) (f : Cluster → Cluster) : (s.mapCluster c f).nextRec = s.nextRec := rfl
@[simp] theorem State.mapCluster_nextRef (s : State) (c : ClusterNo) (f : Cluster → Cluster) : (s.mapCluster c f).nextRef = s.nextRef := rfl
@[simp] theorem State.mapCluster_nextTask (s : State) (c : ClusterNo) (f : Cluster → Cluster) : (s.mapCluster c f).nextTask = s.nextTask := rfl
@[simp] theorem State.mapCluster_fns (s : State) (c : ClusterNo) (f : Cluster → Cluster) : (s.mapCluster c f).fns = s.fns := rfl
@[simp] theorem State.mapCluster_links (s : State) (c : ClusterNo) (f : Cluster → Cluster) : (s.mapCluster c f).links = s.links := rfl
@[simp] theorem State.mapCluster_ports (s : State) (c : ClusterNo) (f : Cluster → Cluster) : (s.mapCluster c f).ports = s.ports := rfl
@[simp] theorem State.mapCluster_routes (s : State) (c : ClusterNo) (f : Cluster → Cluster) : (s.mapCluster c f).routes = s.routes := rfl
@[simp] theorem State.mapCluster_power (s : State) (c : ClusterNo) (f : Cluster → Cluster) : (s.mapCluster c f).power = s.power := rfl
@[simp] theorem State.mapCluster_nvs (s : State) (c : ClusterNo) (f : Cluster → Cluster) : (s.mapCluster c f).nvs = s.nvs := rfl
@[simp] theorem State.mapCluster_attest (s : State) (c : ClusterNo) (f : Cluster → Cluster) : (s.mapCluster c f).attest = s.attest := rfl
@[simp] theorem State.mapCluster_arrays (s : State) (c : ClusterNo) (f : Cluster → Cluster) : (s.mapCluster c f).arrays = s.arrays := rfl
@[simp] theorem State.mapCluster_mem (s : State) (c : ClusterNo) (f : Cluster → Cluster) : (s.mapCluster c f).mem = s.mem := rfl
@[simp] theorem State.mapCluster_bad (s : State) (c : ClusterNo) (f : Cluster → Cluster) : (s.mapCluster c f).bad = s.bad := rfl
@[simp] theorem State.mapCluster_ambient (s : State) (c : ClusterNo) (f : Cluster → Cluster) : (s.mapCluster c f).ambient = s.ambient := rfl
@[simp] theorem State.mapCluster_device (s : State) (c : ClusterNo) (f : Cluster → Cluster) : (s.mapCluster c f).device = s.device := rfl
@[simp] theorem State.mapCluster_time (s : State) (c : ClusterNo) (f : Cluster → Cluster) : (s.mapCluster c f).time = s.time := rfl
@[simp] theorem State.mapCluster_subtime (s : State) (c : ClusterNo) (f : Cluster → Cluster) : (s.mapCluster c f).subtime = s.subtime := rfl
@[simp] theorem State.mapCluster_agenda (s : State) (c : ClusterNo) (f : Cluster → Cluster) : (s.mapCluster c f).agenda = s.agenda := rfl
@[simp] theorem State.mapCluster_freeCtr (s : State) (c : ClusterNo) (f : Cluster → Cluster) : (s.mapCluster c f).freeCtr = s.freeCtr := rfl
@[simp] theorem State.mapCluster_powered (s : State) (c : ClusterNo) (f : Cluster → Cluster) : (s.mapCluster c f).powered = s.powered := rfl

@[simp] theorem State.setDie_tile (s : State) (x : Die) : (s.setDie x).tile = s.tile := rfl
@[simp] theorem State.setDie_others (s : State) (x : Die) : (s.setDie x).others = s.others := rfl
@[simp] theorem State.setDie_turn (s : State) (x : Die) : (s.setDie x).turn = s.turn := rfl
@[simp] theorem State.setDie_clusters (s : State) (x : Die) : (s.setDie x).clusters = s.clusters := rfl
@[simp] theorem State.setDie_parts (s : State) (x : Die) : (s.setDie x).parts = s.parts := rfl
@[simp] theorem State.setDie_teams (s : State) (x : Die) : (s.setDie x).teams = s.teams := rfl
@[simp] theorem State.setDie_puts (s : State) (x : Die) : (s.setDie x).puts = s.puts := rfl
@[simp] theorem State.setDie_rows (s : State) (x : Die) : (s.setDie x).rows = s.rows := rfl
@[simp] theorem State.setDie_colls (s : State) (x : Die) : (s.setDie x).colls = s.colls := rfl
@[simp] theorem State.setDie_queued (s : State) (x : Die) : (s.setDie x).queued = s.queued := rfl
@[simp] theorem State.setDie_records (s : State) (x : Die) : (s.setDie x).records = s.records := rfl
@[simp] theorem State.setDie_tearing (s : State) (x : Die) : (s.setDie x).tearing = s.tearing := rfl
@[simp] theorem State.setDie_nextRec (s : State) (x : Die) : (s.setDie x).nextRec = s.nextRec := rfl
@[simp] theorem State.setDie_nextRef (s : State) (x : Die) : (s.setDie x).nextRef = s.nextRef := rfl
@[simp] theorem State.setDie_nextTask (s : State) (x : Die) : (s.setDie x).nextTask = s.nextTask := rfl
@[simp] theorem State.setDie_fns (s : State) (x : Die) : (s.setDie x).fns = s.fns := rfl
@[simp] theorem State.setDie_links (s : State) (x : Die) : (s.setDie x).links = s.links := rfl
@[simp] theorem State.setDie_ports (s : State) (x : Die) : (s.setDie x).ports = s.ports := rfl
@[simp] theorem State.setDie_routes (s : State) (x : Die) : (s.setDie x).routes = s.routes := rfl
@[simp] theorem State.setDie_power (s : State) (x : Die) : (s.setDie x).power = s.power := rfl
@[simp] theorem State.setDie_nvs (s : State) (x : Die) : (s.setDie x).nvs = s.nvs := rfl
@[simp] theorem State.setDie_attest (s : State) (x : Die) : (s.setDie x).attest = s.attest := rfl
@[simp] theorem State.setDie_arrays (s : State) (x : Die) : (s.setDie x).arrays = s.arrays := rfl
@[simp] theorem State.setDie_mem (s : State) (x : Die) : (s.setDie x).mem = s.mem := rfl
@[simp] theorem State.setDie_bad (s : State) (x : Die) : (s.setDie x).bad = s.bad := rfl
@[simp] theorem State.setDie_ambient (s : State) (x : Die) : (s.setDie x).ambient = s.ambient := rfl
@[simp] theorem State.setDie_device (s : State) (x : Die) : (s.setDie x).device = s.device := rfl
@[simp] theorem State.setDie_time (s : State) (x : Die) : (s.setDie x).time = s.time := rfl
@[simp] theorem State.setDie_subtime (s : State) (x : Die) : (s.setDie x).subtime = s.subtime := rfl
@[simp] theorem State.setDie_agenda (s : State) (x : Die) : (s.setDie x).agenda = s.agenda := rfl
@[simp] theorem State.setDie_freeCtr (s : State) (x : Die) : (s.setDie x).freeCtr = s.freeCtr := rfl
@[simp] theorem State.setDie_powered (s : State) (x : Die) : (s.setDie x).powered = s.powered := rfl

@[simp] theorem State.setPart_tile (s : State) (p : PartNo) (x : Partition) : (s.setPart p x).tile = s.tile := rfl
@[simp] theorem State.setPart_others (s : State) (p : PartNo) (x : Partition) : (s.setPart p x).others = s.others := rfl
@[simp] theorem State.setPart_turn (s : State) (p : PartNo) (x : Partition) : (s.setPart p x).turn = s.turn := rfl
@[simp] theorem State.setPart_clusters (s : State) (p : PartNo) (x : Partition) : (s.setPart p x).clusters = s.clusters := rfl
@[simp] theorem State.setPart_dies (s : State) (p : PartNo) (x : Partition) : (s.setPart p x).dies = s.dies := rfl
@[simp] theorem State.setPart_parts (s : State) (p : PartNo) (x : Partition) : (s.setPart p x).parts = s.parts.set p.val x := rfl
@[simp] theorem State.setPart_teams (s : State) (p : PartNo) (x : Partition) : (s.setPart p x).teams = s.teams := rfl
@[simp] theorem State.setPart_puts (s : State) (p : PartNo) (x : Partition) : (s.setPart p x).puts = s.puts := rfl
@[simp] theorem State.setPart_rows (s : State) (p : PartNo) (x : Partition) : (s.setPart p x).rows = s.rows := rfl
@[simp] theorem State.setPart_colls (s : State) (p : PartNo) (x : Partition) : (s.setPart p x).colls = s.colls := rfl
@[simp] theorem State.setPart_queued (s : State) (p : PartNo) (x : Partition) : (s.setPart p x).queued = s.queued := rfl
@[simp] theorem State.setPart_records (s : State) (p : PartNo) (x : Partition) : (s.setPart p x).records = s.records := rfl
@[simp] theorem State.setPart_tearing (s : State) (p : PartNo) (x : Partition) : (s.setPart p x).tearing = s.tearing := rfl
@[simp] theorem State.setPart_nextRec (s : State) (p : PartNo) (x : Partition) : (s.setPart p x).nextRec = s.nextRec := rfl
@[simp] theorem State.setPart_nextRef (s : State) (p : PartNo) (x : Partition) : (s.setPart p x).nextRef = s.nextRef := rfl
@[simp] theorem State.setPart_nextTask (s : State) (p : PartNo) (x : Partition) : (s.setPart p x).nextTask = s.nextTask := rfl
@[simp] theorem State.setPart_fns (s : State) (p : PartNo) (x : Partition) : (s.setPart p x).fns = s.fns := rfl
@[simp] theorem State.setPart_links (s : State) (p : PartNo) (x : Partition) : (s.setPart p x).links = s.links := rfl
@[simp] theorem State.setPart_ports (s : State) (p : PartNo) (x : Partition) : (s.setPart p x).ports = s.ports := rfl
@[simp] theorem State.setPart_routes (s : State) (p : PartNo) (x : Partition) : (s.setPart p x).routes = s.routes := rfl
@[simp] theorem State.setPart_power (s : State) (p : PartNo) (x : Partition) : (s.setPart p x).power = s.power := rfl
@[simp] theorem State.setPart_nvs (s : State) (p : PartNo) (x : Partition) : (s.setPart p x).nvs = s.nvs := rfl
@[simp] theorem State.setPart_attest (s : State) (p : PartNo) (x : Partition) : (s.setPart p x).attest = s.attest := rfl
@[simp] theorem State.setPart_arrays (s : State) (p : PartNo) (x : Partition) : (s.setPart p x).arrays = s.arrays := rfl
@[simp] theorem State.setPart_mem (s : State) (p : PartNo) (x : Partition) : (s.setPart p x).mem = s.mem := rfl
@[simp] theorem State.setPart_bad (s : State) (p : PartNo) (x : Partition) : (s.setPart p x).bad = s.bad := rfl
@[simp] theorem State.setPart_ambient (s : State) (p : PartNo) (x : Partition) : (s.setPart p x).ambient = s.ambient := rfl
@[simp] theorem State.setPart_device (s : State) (p : PartNo) (x : Partition) : (s.setPart p x).device = s.device := rfl
@[simp] theorem State.setPart_time (s : State) (p : PartNo) (x : Partition) : (s.setPart p x).time = s.time := rfl
@[simp] theorem State.setPart_subtime (s : State) (p : PartNo) (x : Partition) : (s.setPart p x).subtime = s.subtime := rfl
@[simp] theorem State.setPart_agenda (s : State) (p : PartNo) (x : Partition) : (s.setPart p x).agenda = s.agenda := rfl
@[simp] theorem State.setPart_freeCtr (s : State) (p : PartNo) (x : Partition) : (s.setPart p x).freeCtr = s.freeCtr := rfl
@[simp] theorem State.setPart_powered (s : State) (p : PartNo) (x : Partition) : (s.setPart p x).powered = s.powered := rfl

@[simp] theorem State.setTeam_tile (s : State) (x : Team) : (s.setTeam x).tile = s.tile := rfl
@[simp] theorem State.setTeam_others (s : State) (x : Team) : (s.setTeam x).others = s.others := rfl
@[simp] theorem State.setTeam_turn (s : State) (x : Team) : (s.setTeam x).turn = s.turn := rfl
@[simp] theorem State.setTeam_clusters (s : State) (x : Team) : (s.setTeam x).clusters = s.clusters := rfl
@[simp] theorem State.setTeam_dies (s : State) (x : Team) : (s.setTeam x).dies = s.dies := rfl
@[simp] theorem State.setTeam_parts (s : State) (x : Team) : (s.setTeam x).parts = s.parts := rfl
@[simp] theorem State.setTeam_puts (s : State) (x : Team) : (s.setTeam x).puts = s.puts := rfl
@[simp] theorem State.setTeam_rows (s : State) (x : Team) : (s.setTeam x).rows = s.rows := rfl
@[simp] theorem State.setTeam_colls (s : State) (x : Team) : (s.setTeam x).colls = s.colls := rfl
@[simp] theorem State.setTeam_queued (s : State) (x : Team) : (s.setTeam x).queued = s.queued := rfl
@[simp] theorem State.setTeam_records (s : State) (x : Team) : (s.setTeam x).records = s.records := rfl
@[simp] theorem State.setTeam_tearing (s : State) (x : Team) : (s.setTeam x).tearing = s.tearing := rfl
@[simp] theorem State.setTeam_nextRec (s : State) (x : Team) : (s.setTeam x).nextRec = s.nextRec := rfl
@[simp] theorem State.setTeam_nextRef (s : State) (x : Team) : (s.setTeam x).nextRef = s.nextRef := rfl
@[simp] theorem State.setTeam_nextTask (s : State) (x : Team) : (s.setTeam x).nextTask = s.nextTask := rfl
@[simp] theorem State.setTeam_fns (s : State) (x : Team) : (s.setTeam x).fns = s.fns := rfl
@[simp] theorem State.setTeam_links (s : State) (x : Team) : (s.setTeam x).links = s.links := rfl
@[simp] theorem State.setTeam_ports (s : State) (x : Team) : (s.setTeam x).ports = s.ports := rfl
@[simp] theorem State.setTeam_routes (s : State) (x : Team) : (s.setTeam x).routes = s.routes := rfl
@[simp] theorem State.setTeam_power (s : State) (x : Team) : (s.setTeam x).power = s.power := rfl
@[simp] theorem State.setTeam_nvs (s : State) (x : Team) : (s.setTeam x).nvs = s.nvs := rfl
@[simp] theorem State.setTeam_attest (s : State) (x : Team) : (s.setTeam x).attest = s.attest := rfl
@[simp] theorem State.setTeam_arrays (s : State) (x : Team) : (s.setTeam x).arrays = s.arrays := rfl
@[simp] theorem State.setTeam_mem (s : State) (x : Team) : (s.setTeam x).mem = s.mem := rfl
@[simp] theorem State.setTeam_bad (s : State) (x : Team) : (s.setTeam x).bad = s.bad := rfl
@[simp] theorem State.setTeam_ambient (s : State) (x : Team) : (s.setTeam x).ambient = s.ambient := rfl
@[simp] theorem State.setTeam_device (s : State) (x : Team) : (s.setTeam x).device = s.device := rfl
@[simp] theorem State.setTeam_time (s : State) (x : Team) : (s.setTeam x).time = s.time := rfl
@[simp] theorem State.setTeam_subtime (s : State) (x : Team) : (s.setTeam x).subtime = s.subtime := rfl
@[simp] theorem State.setTeam_agenda (s : State) (x : Team) : (s.setTeam x).agenda = s.agenda := rfl
@[simp] theorem State.setTeam_freeCtr (s : State) (x : Team) : (s.setTeam x).freeCtr = s.freeCtr := rfl
@[simp] theorem State.setTeam_powered (s : State) (x : Team) : (s.setTeam x).powered = s.powered := rfl

@[simp] theorem State.mapRec_tile (s : State) (n : Nat) (f : Rec → Rec) : (s.mapRec n f).tile = s.tile := rfl
@[simp] theorem State.mapRec_others (s : State) (n : Nat) (f : Rec → Rec) : (s.mapRec n f).others = s.others := rfl
@[simp] theorem State.mapRec_turn (s : State) (n : Nat) (f : Rec → Rec) : (s.mapRec n f).turn = s.turn := rfl
@[simp] theorem State.mapRec_clusters (s : State) (n : Nat) (f : Rec → Rec) : (s.mapRec n f).clusters = s.clusters := rfl
@[simp] theorem State.mapRec_dies (s : State) (n : Nat) (f : Rec → Rec) : (s.mapRec n f).dies = s.dies := rfl
@[simp] theorem State.mapRec_parts (s : State) (n : Nat) (f : Rec → Rec) : (s.mapRec n f).parts = s.parts := rfl
@[simp] theorem State.mapRec_teams (s : State) (n : Nat) (f : Rec → Rec) : (s.mapRec n f).teams = s.teams := rfl
@[simp] theorem State.mapRec_puts (s : State) (n : Nat) (f : Rec → Rec) : (s.mapRec n f).puts = s.puts := rfl
@[simp] theorem State.mapRec_rows (s : State) (n : Nat) (f : Rec → Rec) : (s.mapRec n f).rows = s.rows := rfl
@[simp] theorem State.mapRec_colls (s : State) (n : Nat) (f : Rec → Rec) : (s.mapRec n f).colls = s.colls := rfl
@[simp] theorem State.mapRec_queued (s : State) (n : Nat) (f : Rec → Rec) : (s.mapRec n f).queued = s.queued := rfl
@[simp] theorem State.mapRec_tearing (s : State) (n : Nat) (f : Rec → Rec) : (s.mapRec n f).tearing = s.tearing := rfl
@[simp] theorem State.mapRec_nextRec (s : State) (n : Nat) (f : Rec → Rec) : (s.mapRec n f).nextRec = s.nextRec := rfl
@[simp] theorem State.mapRec_nextRef (s : State) (n : Nat) (f : Rec → Rec) : (s.mapRec n f).nextRef = s.nextRef := rfl
@[simp] theorem State.mapRec_nextTask (s : State) (n : Nat) (f : Rec → Rec) : (s.mapRec n f).nextTask = s.nextTask := rfl
@[simp] theorem State.mapRec_fns (s : State) (n : Nat) (f : Rec → Rec) : (s.mapRec n f).fns = s.fns := rfl
@[simp] theorem State.mapRec_links (s : State) (n : Nat) (f : Rec → Rec) : (s.mapRec n f).links = s.links := rfl
@[simp] theorem State.mapRec_ports (s : State) (n : Nat) (f : Rec → Rec) : (s.mapRec n f).ports = s.ports := rfl
@[simp] theorem State.mapRec_routes (s : State) (n : Nat) (f : Rec → Rec) : (s.mapRec n f).routes = s.routes := rfl
@[simp] theorem State.mapRec_power (s : State) (n : Nat) (f : Rec → Rec) : (s.mapRec n f).power = s.power := rfl
@[simp] theorem State.mapRec_nvs (s : State) (n : Nat) (f : Rec → Rec) : (s.mapRec n f).nvs = s.nvs := rfl
@[simp] theorem State.mapRec_attest (s : State) (n : Nat) (f : Rec → Rec) : (s.mapRec n f).attest = s.attest := rfl
@[simp] theorem State.mapRec_arrays (s : State) (n : Nat) (f : Rec → Rec) : (s.mapRec n f).arrays = s.arrays := rfl
@[simp] theorem State.mapRec_mem (s : State) (n : Nat) (f : Rec → Rec) : (s.mapRec n f).mem = s.mem := rfl
@[simp] theorem State.mapRec_bad (s : State) (n : Nat) (f : Rec → Rec) : (s.mapRec n f).bad = s.bad := rfl
@[simp] theorem State.mapRec_ambient (s : State) (n : Nat) (f : Rec → Rec) : (s.mapRec n f).ambient = s.ambient := rfl
@[simp] theorem State.mapRec_device (s : State) (n : Nat) (f : Rec → Rec) : (s.mapRec n f).device = s.device := rfl
@[simp] theorem State.mapRec_time (s : State) (n : Nat) (f : Rec → Rec) : (s.mapRec n f).time = s.time := rfl
@[simp] theorem State.mapRec_subtime (s : State) (n : Nat) (f : Rec → Rec) : (s.mapRec n f).subtime = s.subtime := rfl
@[simp] theorem State.mapRec_agenda (s : State) (n : Nat) (f : Rec → Rec) : (s.mapRec n f).agenda = s.agenda := rfl
@[simp] theorem State.mapRec_freeCtr (s : State) (n : Nat) (f : Rec → Rec) : (s.mapRec n f).freeCtr = s.freeCtr := rfl
@[simp] theorem State.mapRec_powered (s : State) (n : Nat) (f : Rec → Rec) : (s.mapRec n f).powered = s.powered := rfl

/-! ## Updates of a tile -/

@[simp] theorem Tile.setRing_toArch (t : Tile) (n : Fin 8) (r : Ring) : (t.setRing n r).toArch = t.toArch := rfl
@[simp] theorem Tile.setRing_cl (t : Tile) (n : Fin 8) (r : Ring) : (t.setRing n r).cl = t.cl := rfl
@[simp] theorem Tile.setRing_tn (t : Tile) (n : Fin 8) (r : Ring) : (t.setRing n r).tn = t.tn := rfl
@[simp] theorem Tile.setRing_pc (t : Tile) (n : Fin 8) (r : Ring) : (t.setRing n r).pc = t.pc := rfl
@[simp] theorem Tile.setRing_priv (t : Tile) (n : Fin 8) (r : Ring) : (t.setRing n r).priv = t.priv := rfl
@[simp] theorem Tile.setRing_task (t : Tile) (n : Fin 8) (r : Ring) : (t.setRing n r).task = t.task := rfl
@[simp] theorem Tile.setRing_team (t : Tile) (n : Fin 8) (r : Ring) : (t.setRing n r).team = t.team := rfl
@[simp] theorem Tile.setRing_stopped (t : Tile) (n : Fin 8) (r : Ring) : (t.setRing n r).stopped = t.stopped := rfl
@[simp] theorem Tile.setRing_grace (t : Tile) (n : Fin 8) (r : Ring) : (t.setRing n r).grace = t.grace := rfl
@[simp] theorem Tile.setRing_ending (t : Tile) (n : Fin 8) (r : Ring) : (t.setRing n r).ending = t.ending := rfl
@[simp] theorem Tile.setRing_arrival (t : Tile) (n : Fin 8) (r : Ring) : (t.setRing n r).arrival = t.arrival := rfl
@[simp] theorem Tile.setRing_arrGen (t : Tile) (n : Fin 8) (r : Ring) : (t.setRing n r).arrGen = t.arrGen := rfl
@[simp] theorem Tile.setRing_barr (t : Tile) (n : Fin 8) (r : Ring) : (t.setRing n r).barr = t.barr := rfl
@[simp] theorem Tile.setRing_abortSems (t : Tile) (n : Fin 8) (r : Ring) : (t.setRing n r).abortSems = t.abortSems := rfl
@[simp] theorem Tile.setRing_pslots (t : Tile) (n : Fin 8) (r : Ring) : (t.setRing n r).pslots = t.pslots := rfl
@[simp] theorem Tile.setRing_ahead (t : Tile) (n : Fin 8) (r : Ring) : (t.setRing n r).ahead = t.ahead := rfl
@[simp] theorem Tile.setRing_tc (t : Tile) (n : Fin 8) (r : Ring) : (t.setRing n r).tc = t.tc := rfl
@[simp] theorem Tile.setRing_now (t : Tile) (n : Fin 8) (r : Ring) : (t.setRing n r).now = t.now := rfl
@[simp] theorem Tile.setRing_seen (t : Tile) (n : Fin 8) (r : Ring) : (t.setRing n r).seen = t.seen := rfl
@[simp] theorem Tile.setRing_flights (t : Tile) (n : Fin 8) (r : Ring) : (t.setRing n r).flights = t.flights := rfl
@[simp] theorem Tile.setRing_ops (t : Tile) (n : Fin 8) (r : Ring) : (t.setRing n r).ops = t.ops := rfl
@[simp] theorem Tile.setRing_fills (t : Tile) (n : Fin 8) (r : Ring) : (t.setRing n r).fills = t.fills := rfl
@[simp] theorem Tile.setRing_fillReady (t : Tile) (n : Fin 8) (r : Ring) : (t.setRing n r).fillReady = t.fillReady := rfl
@[simp] theorem Tile.setRing_filled (t : Tile) (n : Fin 8) (r : Ring) : (t.setRing n r).filled = t.filled := rfl
@[simp] theorem Tile.setRing_busy (t : Tile) (n : Fin 8) (r : Ring) : (t.setRing n r).busy = t.busy := rfl
@[simp] theorem Tile.setRing_tepc (t : Tile) (n : Fin 8) (r : Ring) : (t.setRing n r).tepc = t.tepc := rfl
@[simp] theorem Tile.setRing_trapst (t : Tile) (n : Fin 8) (r : Ring) : (t.setRing n r).trapst = t.trapst := rfl
@[simp] theorem Tile.setRing_trapval (t : Tile) (n : Fin 8) (r : Ring) : (t.setRing n r).trapval = t.trapval := rfl
@[simp] theorem Tile.setRing_tscr (t : Tile) (n : Fin 8) (r : Ring) : (t.setRing n r).tscr = t.tscr := rfl
@[simp] theorem Tile.setRing_dbgctl (t : Tile) (n : Fin 8) (r : Ring) : (t.setRing n r).dbgctl = t.dbgctl := rfl
@[simp] theorem Tile.setRing_dbgbp (t : Tile) (n : Fin 8) (r : Ring) : (t.setRing n r).dbgbp = t.dbgbp := rfl
@[simp] theorem Tile.setRing_spswz (t : Tile) (n : Fin 8) (r : Ring) : (t.setRing n r).spswz = t.spswz := rfl
@[simp] theorem Tile.setRing_chown (t : Tile) (n : Fin 8) (r : Ring) : (t.setRing n r).chown = t.chown := rfl
@[simp] theorem Tile.setRing_skew (t : Tile) (n : Fin 8) (r : Ring) : (t.setRing n r).skew = t.skew := rfl
@[simp] theorem Tile.setRing_engerr (t : Tile) (n : Fin 8) (r : Ring) : (t.setRing n r).engerr = t.engerr := rfl
@[simp] theorem Tile.setRing_rings (t : Tile) (n : Fin 8) (r : Ring) : (t.setRing n r).rings = t.rings.set n.val r := rfl
@[simp] theorem Tile.setRing_ends (t : Tile) (n : Fin 8) (r : Ring) : (t.setRing n r).ends = t.ends := rfl
@[simp] theorem Tile.setRing_deadEnds (t : Tile) (n : Fin 8) (r : Ring) : (t.setRing n r).deadEnds = t.deadEnds := rfl
@[simp] theorem Tile.setRing_recvRows (t : Tile) (n : Fin 8) (r : Ring) : (t.setRing n r).recvRows = t.recvRows := rfl
@[simp] theorem Tile.setRing_mbx (t : Tile) (n : Fin 8) (r : Ring) : (t.setRing n r).mbx = t.mbx := rfl
@[simp] theorem Tile.setRing_chans (t : Tile) (n : Fin 8) (r : Ring) : (t.setRing n r).chans = t.chans := rfl
@[simp] theorem Tile.setRing_feet (t : Tile) (n : Fin 8) (r : Ring) : (t.setRing n r).feet = t.feet := rfl
@[simp] theorem Tile.setRing_jobCtr (t : Tile) (n : Fin 8) (r : Ring) : (t.setRing n r).jobCtr = t.jobCtr := rfl
@[simp] theorem Tile.setRing_view (t : Tile) (n : Fin 8) (r : Ring) : (t.setRing n r).view = t.view := rfl
@[simp] theorem Tile.setRing_unpub (t : Tile) (n : Fin 8) (r : Ring) : (t.setRing n r).unpub = t.unpub := rfl
@[simp] theorem Tile.setRing_tpub (t : Tile) (n : Fin 8) (r : Ring) : (t.setRing n r).tpub = t.tpub := rfl
@[simp] theorem Tile.setRing_spec (t : Tile) (n : Fin 8) (r : Ring) : (t.setRing n r).spec = t.spec := rfl
@[simp] theorem Tile.setRing_releasing (t : Tile) (n : Fin 8) (r : Ring) : (t.setRing n r).releasing = t.releasing := rfl
@[simp] theorem Tile.setRing_commits (t : Tile) (n : Fin 8) (r : Ring) : (t.setRing n r).commits = t.commits := rfl
@[simp] theorem Tile.setRing_squashes (t : Tile) (n : Fin 8) (r : Ring) : (t.setRing n r).squashes = t.squashes := rfl
@[simp] theorem Tile.setRing_replays (t : Tile) (n : Fin 8) (r : Ring) : (t.setRing n r).replays = t.replays := rfl
@[simp] theorem Tile.setRing_stretch (t : Tile) (n : Fin 8) (r : Ring) : (t.setRing n r).stretch = t.stretch := rfl
@[simp] theorem Tile.setRing_flagged (t : Tile) (n : Fin 8) (r : Ring) : (t.setRing n r).flagged = t.flagged := rfl
@[simp] theorem Tile.setRing_reissue (t : Tile) (n : Fin 8) (r : Ring) : (t.setRing n r).reissue = t.reissue := rfl
@[simp] theorem Tile.setRing_wait (t : Tile) (n : Fin 8) (r : Ring) : (t.setRing n r).wait = t.wait := rfl
@[simp] theorem Tile.setRing_woken (t : Tile) (n : Fin 8) (r : Ring) : (t.setRing n r).woken = t.woken := rfl
@[simp] theorem Tile.setRing_predDone (t : Tile) (n : Fin 8) (r : Ring) : (t.setRing n r).predDone = t.predDone := rfl
@[simp] theorem Tile.setRing_stallSince (t : Tile) (n : Fin 8) (r : Ring) : (t.setRing n r).stallSince = t.stallSince := rfl
@[simp] theorem Tile.setRing_loader (t : Tile) (n : Fin 8) (r : Ring) : (t.setRing n r).loader = t.loader := rfl
@[simp] theorem Tile.setRing_storer (t : Tile) (n : Fin 8) (r : Ring) : (t.setRing n r).storer = t.storer := rfl
@[simp] theorem Tile.setRing_tlb (t : Tile) (n : Fin 8) (r : Ring) : (t.setRing n r).tlb = t.tlb := rfl
@[simp] theorem Tile.setRing_saved (t : Tile) (n : Fin 8) (r : Ring) : (t.setRing n r).saved = t.saved := rfl
@[simp] theorem Tile.setRing_peerLost (t : Tile) (n : Fin 8) (r : Ring) : (t.setRing n r).peerLost = t.peerLost := rfl
@[simp] theorem Tile.setRing_badRows (t : Tile) (n : Fin 8) (r : Ring) : (t.setRing n r).badRows = t.badRows := rfl
@[simp] theorem Tile.setRing_badAcc (t : Tile) (n : Fin 8) (r : Ring) : (t.setRing n r).badAcc = t.badAcc := rfl

@[simp] theorem Tile.settle_toArch (t : Tile) : t.settle.toArch = t.toArch := rfl
@[simp] theorem Tile.settle_cl (t : Tile) : t.settle.cl = t.cl := rfl
@[simp] theorem Tile.settle_tn (t : Tile) : t.settle.tn = t.tn := rfl
@[simp] theorem Tile.settle_pc (t : Tile) : t.settle.pc = t.pc := rfl
@[simp] theorem Tile.settle_priv (t : Tile) : t.settle.priv = t.priv := rfl
@[simp] theorem Tile.settle_task (t : Tile) : t.settle.task = t.task := rfl
@[simp] theorem Tile.settle_team (t : Tile) : t.settle.team = t.team := rfl
@[simp] theorem Tile.settle_stopped (t : Tile) : t.settle.stopped = t.stopped := rfl
@[simp] theorem Tile.settle_grace (t : Tile) : t.settle.grace = t.grace := rfl
@[simp] theorem Tile.settle_ending (t : Tile) : t.settle.ending = t.ending := rfl
@[simp] theorem Tile.settle_arrival (t : Tile) : t.settle.arrival = t.arrival := rfl
@[simp] theorem Tile.settle_arrGen (t : Tile) : t.settle.arrGen = t.arrGen := rfl
@[simp] theorem Tile.settle_barr (t : Tile) : t.settle.barr = t.barr := rfl
@[simp] theorem Tile.settle_abortSems (t : Tile) : t.settle.abortSems = t.abortSems := rfl
@[simp] theorem Tile.settle_pslots (t : Tile) : t.settle.pslots = t.pslots := rfl
@[simp] theorem Tile.settle_ahead (t : Tile) : t.settle.ahead = t.ahead := rfl
@[simp] theorem Tile.settle_tc (t : Tile) : t.settle.tc = t.tc := rfl
@[simp] theorem Tile.settle_now (t : Tile) : t.settle.now = t.now := rfl
@[simp] theorem Tile.settle_seen (t : Tile) : t.settle.seen = t.seen := rfl
@[simp] theorem Tile.settle_flights (t : Tile) : t.settle.flights = t.flights := rfl
@[simp] theorem Tile.settle_ops (t : Tile) : t.settle.ops = t.ops := rfl
@[simp] theorem Tile.settle_fills (t : Tile) : t.settle.fills = t.fills := rfl
@[simp] theorem Tile.settle_busy (t : Tile) : t.settle.busy = t.busy := rfl
@[simp] theorem Tile.settle_tepc (t : Tile) : t.settle.tepc = t.tepc := rfl
@[simp] theorem Tile.settle_trapst (t : Tile) : t.settle.trapst = t.trapst := rfl
@[simp] theorem Tile.settle_trapval (t : Tile) : t.settle.trapval = t.trapval := rfl
@[simp] theorem Tile.settle_tscr (t : Tile) : t.settle.tscr = t.tscr := rfl
@[simp] theorem Tile.settle_dbgctl (t : Tile) : t.settle.dbgctl = t.dbgctl := rfl
@[simp] theorem Tile.settle_dbgbp (t : Tile) : t.settle.dbgbp = t.dbgbp := rfl
@[simp] theorem Tile.settle_spswz (t : Tile) : t.settle.spswz = t.spswz := rfl
@[simp] theorem Tile.settle_chown (t : Tile) : t.settle.chown = t.chown := rfl
@[simp] theorem Tile.settle_skew (t : Tile) : t.settle.skew = t.skew := rfl
@[simp] theorem Tile.settle_engerr (t : Tile) : t.settle.engerr = t.engerr := rfl
@[simp] theorem Tile.settle_rings (t : Tile) : t.settle.rings = t.rings := rfl
@[simp] theorem Tile.settle_ends (t : Tile) : t.settle.ends = t.ends := rfl
@[simp] theorem Tile.settle_deadEnds (t : Tile) : t.settle.deadEnds = t.deadEnds := rfl
@[simp] theorem Tile.settle_recvRows (t : Tile) : t.settle.recvRows = t.recvRows := rfl
@[simp] theorem Tile.settle_mbx (t : Tile) : t.settle.mbx = t.mbx := rfl
@[simp] theorem Tile.settle_chans (t : Tile) : t.settle.chans = t.chans := rfl
@[simp] theorem Tile.settle_feet (t : Tile) : t.settle.feet = t.feet := rfl
@[simp] theorem Tile.settle_jobCtr (t : Tile) : t.settle.jobCtr = t.jobCtr := rfl
@[simp] theorem Tile.settle_view (t : Tile) : t.settle.view = t.view := rfl
@[simp] theorem Tile.settle_unpub (t : Tile) : t.settle.unpub = t.unpub := rfl
@[simp] theorem Tile.settle_tpub (t : Tile) : t.settle.tpub = t.tpub := rfl
@[simp] theorem Tile.settle_spec (t : Tile) : t.settle.spec = t.spec := rfl
@[simp] theorem Tile.settle_releasing (t : Tile) : t.settle.releasing = t.releasing := rfl
@[simp] theorem Tile.settle_commits (t : Tile) : t.settle.commits = t.commits := rfl
@[simp] theorem Tile.settle_squashes (t : Tile) : t.settle.squashes = t.squashes := rfl
@[simp] theorem Tile.settle_replays (t : Tile) : t.settle.replays = t.replays := rfl
@[simp] theorem Tile.settle_stretch (t : Tile) : t.settle.stretch = t.stretch := rfl
@[simp] theorem Tile.settle_loader (t : Tile) : t.settle.loader = t.loader := rfl
@[simp] theorem Tile.settle_storer (t : Tile) : t.settle.storer = t.storer := rfl
@[simp] theorem Tile.settle_tlb (t : Tile) : t.settle.tlb = t.tlb := rfl
@[simp] theorem Tile.settle_saved (t : Tile) : t.settle.saved = t.saved := rfl
@[simp] theorem Tile.settle_peerLost (t : Tile) : t.settle.peerLost = t.peerLost := rfl
@[simp] theorem Tile.settle_badRows (t : Tile) : t.settle.badRows = t.badRows := rfl
@[simp] theorem Tile.settle_badAcc (t : Tile) : t.settle.badAcc = t.badAcc := rfl

@[simp] theorem Tile.record_toArch (t : Tile) (i : TrapInfo) : (t.record i).toArch = t.toArch := by unfold Tile.record; rfl
@[simp] theorem Tile.record_cl (t : Tile) (i : TrapInfo) : (t.record i).cl = t.cl := by unfold Tile.record; rfl
@[simp] theorem Tile.record_tn (t : Tile) (i : TrapInfo) : (t.record i).tn = t.tn := by unfold Tile.record; rfl
@[simp] theorem Tile.record_pc (t : Tile) (i : TrapInfo) : (t.record i).pc = t.pc := by unfold Tile.record; rfl
@[simp] theorem Tile.record_priv (t : Tile) (i : TrapInfo) : (t.record i).priv = t.priv := by unfold Tile.record; rfl
@[simp] theorem Tile.record_task (t : Tile) (i : TrapInfo) : (t.record i).task = t.task := by unfold Tile.record; rfl
@[simp] theorem Tile.record_team (t : Tile) (i : TrapInfo) : (t.record i).team = t.team := by unfold Tile.record; rfl
@[simp] theorem Tile.record_stopped (t : Tile) (i : TrapInfo) : (t.record i).stopped = t.stopped := by unfold Tile.record; rfl
@[simp] theorem Tile.record_grace (t : Tile) (i : TrapInfo) : (t.record i).grace = t.grace := by unfold Tile.record; rfl
@[simp] theorem Tile.record_ending (t : Tile) (i : TrapInfo) : (t.record i).ending = t.ending := by unfold Tile.record; rfl
@[simp] theorem Tile.record_arrival (t : Tile) (i : TrapInfo) : (t.record i).arrival = t.arrival := by unfold Tile.record; rfl
@[simp] theorem Tile.record_arrGen (t : Tile) (i : TrapInfo) : (t.record i).arrGen = t.arrGen := by unfold Tile.record; rfl
@[simp] theorem Tile.record_barr (t : Tile) (i : TrapInfo) : (t.record i).barr = t.barr := by unfold Tile.record; rfl
@[simp] theorem Tile.record_abortSems (t : Tile) (i : TrapInfo) : (t.record i).abortSems = t.abortSems := by unfold Tile.record; rfl
@[simp] theorem Tile.record_pslots (t : Tile) (i : TrapInfo) : (t.record i).pslots = t.pslots := by unfold Tile.record; rfl
@[simp] theorem Tile.record_ahead (t : Tile) (i : TrapInfo) : (t.record i).ahead = t.ahead := by unfold Tile.record; rfl
@[simp] theorem Tile.record_tc (t : Tile) (i : TrapInfo) : (t.record i).tc = t.tc := by unfold Tile.record; rfl
@[simp] theorem Tile.record_now (t : Tile) (i : TrapInfo) : (t.record i).now = t.now := by unfold Tile.record; rfl
@[simp] theorem Tile.record_seen (t : Tile) (i : TrapInfo) : (t.record i).seen = t.seen := by unfold Tile.record; rfl
@[simp] theorem Tile.record_flights (t : Tile) (i : TrapInfo) : (t.record i).flights = t.flights := by unfold Tile.record; rfl
@[simp] theorem Tile.record_ops (t : Tile) (i : TrapInfo) : (t.record i).ops = t.ops := by unfold Tile.record; rfl
@[simp] theorem Tile.record_fills (t : Tile) (i : TrapInfo) : (t.record i).fills = t.fills := by unfold Tile.record; rfl
@[simp] theorem Tile.record_fillReady (t : Tile) (i : TrapInfo) : (t.record i).fillReady = t.fillReady := by unfold Tile.record; rfl
@[simp] theorem Tile.record_filled (t : Tile) (i : TrapInfo) : (t.record i).filled = t.filled := by unfold Tile.record; rfl
@[simp] theorem Tile.record_busy (t : Tile) (i : TrapInfo) : (t.record i).busy = t.busy := by unfold Tile.record; rfl
@[simp] theorem Tile.record_tepc (t : Tile) (i : TrapInfo) : (t.record i).tepc = t.tepc := by unfold Tile.record; rfl
@[simp] theorem Tile.record_trapst (t : Tile) (i : TrapInfo) : (t.record i).trapst = i.trapst := by unfold Tile.record; rfl
@[simp] theorem Tile.record_trapval (t : Tile) (i : TrapInfo) : (t.record i).trapval = i.val := by unfold Tile.record; rfl
@[simp] theorem Tile.record_tscr (t : Tile) (i : TrapInfo) : (t.record i).tscr = t.tscr := by unfold Tile.record; rfl
@[simp] theorem Tile.record_dbgctl (t : Tile) (i : TrapInfo) : (t.record i).dbgctl = t.dbgctl := by unfold Tile.record; rfl
@[simp] theorem Tile.record_dbgbp (t : Tile) (i : TrapInfo) : (t.record i).dbgbp = t.dbgbp := by unfold Tile.record; rfl
@[simp] theorem Tile.record_spswz (t : Tile) (i : TrapInfo) : (t.record i).spswz = t.spswz := by unfold Tile.record; rfl
@[simp] theorem Tile.record_chown (t : Tile) (i : TrapInfo) : (t.record i).chown = t.chown := by unfold Tile.record; rfl
@[simp] theorem Tile.record_skew (t : Tile) (i : TrapInfo) : (t.record i).skew = t.skew := by unfold Tile.record; rfl
@[simp] theorem Tile.record_engerr (t : Tile) (i : TrapInfo) : (t.record i).engerr = t.engerr := by unfold Tile.record; rfl
@[simp] theorem Tile.record_rings (t : Tile) (i : TrapInfo) : (t.record i).rings = t.rings := by unfold Tile.record; rfl
@[simp] theorem Tile.record_ends (t : Tile) (i : TrapInfo) : (t.record i).ends = t.ends := by unfold Tile.record; rfl
@[simp] theorem Tile.record_deadEnds (t : Tile) (i : TrapInfo) : (t.record i).deadEnds = t.deadEnds := by unfold Tile.record; rfl
@[simp] theorem Tile.record_recvRows (t : Tile) (i : TrapInfo) : (t.record i).recvRows = t.recvRows := by unfold Tile.record; rfl
@[simp] theorem Tile.record_mbx (t : Tile) (i : TrapInfo) : (t.record i).mbx = t.mbx := by unfold Tile.record; rfl
@[simp] theorem Tile.record_chans (t : Tile) (i : TrapInfo) : (t.record i).chans = t.chans := by unfold Tile.record; rfl
@[simp] theorem Tile.record_feet (t : Tile) (i : TrapInfo) : (t.record i).feet = t.feet := by unfold Tile.record; rfl
@[simp] theorem Tile.record_jobCtr (t : Tile) (i : TrapInfo) : (t.record i).jobCtr = t.jobCtr := by unfold Tile.record; rfl
@[simp] theorem Tile.record_view (t : Tile) (i : TrapInfo) : (t.record i).view = t.view := by unfold Tile.record; rfl
@[simp] theorem Tile.record_unpub (t : Tile) (i : TrapInfo) : (t.record i).unpub = t.unpub := by unfold Tile.record; rfl
@[simp] theorem Tile.record_tpub (t : Tile) (i : TrapInfo) : (t.record i).tpub = t.tpub := by unfold Tile.record; rfl
@[simp] theorem Tile.record_spec (t : Tile) (i : TrapInfo) : (t.record i).spec = t.spec := by unfold Tile.record; rfl
@[simp] theorem Tile.record_releasing (t : Tile) (i : TrapInfo) : (t.record i).releasing = t.releasing := by unfold Tile.record; rfl
@[simp] theorem Tile.record_commits (t : Tile) (i : TrapInfo) : (t.record i).commits = t.commits := by unfold Tile.record; rfl
@[simp] theorem Tile.record_squashes (t : Tile) (i : TrapInfo) : (t.record i).squashes = t.squashes := by unfold Tile.record; rfl
@[simp] theorem Tile.record_replays (t : Tile) (i : TrapInfo) : (t.record i).replays = t.replays := by unfold Tile.record; rfl
@[simp] theorem Tile.record_stretch (t : Tile) (i : TrapInfo) : (t.record i).stretch = t.stretch := by unfold Tile.record; rfl
@[simp] theorem Tile.record_flagged (t : Tile) (i : TrapInfo) : (t.record i).flagged = t.flagged := by unfold Tile.record; rfl
@[simp] theorem Tile.record_reissue (t : Tile) (i : TrapInfo) : (t.record i).reissue = t.reissue := by unfold Tile.record; rfl
@[simp] theorem Tile.record_wait (t : Tile) (i : TrapInfo) : (t.record i).wait = t.wait := by unfold Tile.record; rfl
@[simp] theorem Tile.record_woken (t : Tile) (i : TrapInfo) : (t.record i).woken = t.woken := by unfold Tile.record; rfl
@[simp] theorem Tile.record_predDone (t : Tile) (i : TrapInfo) : (t.record i).predDone = t.predDone := by unfold Tile.record; rfl
@[simp] theorem Tile.record_stallSince (t : Tile) (i : TrapInfo) : (t.record i).stallSince = t.stallSince := by unfold Tile.record; rfl
@[simp] theorem Tile.record_loader (t : Tile) (i : TrapInfo) : (t.record i).loader = t.loader := by unfold Tile.record; rfl
@[simp] theorem Tile.record_storer (t : Tile) (i : TrapInfo) : (t.record i).storer = t.storer := by unfold Tile.record; rfl
@[simp] theorem Tile.record_tlb (t : Tile) (i : TrapInfo) : (t.record i).tlb = t.tlb := by unfold Tile.record; rfl
@[simp] theorem Tile.record_saved (t : Tile) (i : TrapInfo) : (t.record i).saved = t.saved := by unfold Tile.record; rfl
@[simp] theorem Tile.record_peerLost (t : Tile) (i : TrapInfo) : (t.record i).peerLost = t.peerLost := by unfold Tile.record; rfl
@[simp] theorem Tile.record_badRows (t : Tile) (i : TrapInfo) : (t.record i).badRows = t.badRows := by unfold Tile.record; rfl
@[simp] theorem Tile.record_badAcc (t : Tile) (i : TrapInfo) : (t.record i).badAcc = t.badAcc := by unfold Tile.record; rfl

@[simp] theorem Tile.tick_toArch (t : Tile) : t.tick.toArch = t.toArch := rfl
@[simp] theorem Tile.tick_cl (t : Tile) : t.tick.cl = t.cl := rfl
@[simp] theorem Tile.tick_tn (t : Tile) : t.tick.tn = t.tn := rfl
@[simp] theorem Tile.tick_pc (t : Tile) : t.tick.pc = t.pc := rfl
@[simp] theorem Tile.tick_priv (t : Tile) : t.tick.priv = t.priv := rfl
@[simp] theorem Tile.tick_task (t : Tile) : t.tick.task = t.task := rfl
@[simp] theorem Tile.tick_team (t : Tile) : t.tick.team = t.team := rfl
@[simp] theorem Tile.tick_stopped (t : Tile) : t.tick.stopped = t.stopped := rfl
@[simp] theorem Tile.tick_grace (t : Tile) : t.tick.grace = t.grace := rfl
@[simp] theorem Tile.tick_ending (t : Tile) : t.tick.ending = t.ending := rfl
@[simp] theorem Tile.tick_arrival (t : Tile) : t.tick.arrival = t.arrival := rfl
@[simp] theorem Tile.tick_arrGen (t : Tile) : t.tick.arrGen = t.arrGen := rfl
@[simp] theorem Tile.tick_barr (t : Tile) : t.tick.barr = t.barr := rfl
@[simp] theorem Tile.tick_abortSems (t : Tile) : t.tick.abortSems = t.abortSems := rfl
@[simp] theorem Tile.tick_pslots (t : Tile) : t.tick.pslots = t.pslots := rfl
@[simp] theorem Tile.tick_ahead (t : Tile) : t.tick.ahead = t.ahead := rfl
@[simp] theorem Tile.tick_tc (t : Tile) : t.tick.tc = t.tc + 1 := rfl
@[simp] theorem Tile.tick_now (t : Tile) : t.tick.now = t.now := rfl
@[simp] theorem Tile.tick_seen (t : Tile) : t.tick.seen = t.seen := rfl
@[simp] theorem Tile.tick_flights (t : Tile) : t.tick.flights = t.flights := rfl
@[simp] theorem Tile.tick_ops (t : Tile) : t.tick.ops = t.ops := rfl
@[simp] theorem Tile.tick_fills (t : Tile) : t.tick.fills = t.fills := rfl
@[simp] theorem Tile.tick_fillReady (t : Tile) : t.tick.fillReady = t.fillReady := rfl
@[simp] theorem Tile.tick_filled (t : Tile) : t.tick.filled = t.filled := rfl
@[simp] theorem Tile.tick_busy (t : Tile) : t.tick.busy = t.busy := rfl
@[simp] theorem Tile.tick_tepc (t : Tile) : t.tick.tepc = t.tepc := rfl
@[simp] theorem Tile.tick_trapst (t : Tile) : t.tick.trapst = t.trapst := rfl
@[simp] theorem Tile.tick_trapval (t : Tile) : t.tick.trapval = t.trapval := rfl
@[simp] theorem Tile.tick_tscr (t : Tile) : t.tick.tscr = t.tscr := rfl
@[simp] theorem Tile.tick_dbgctl (t : Tile) : t.tick.dbgctl = t.dbgctl := rfl
@[simp] theorem Tile.tick_dbgbp (t : Tile) : t.tick.dbgbp = t.dbgbp := rfl
@[simp] theorem Tile.tick_spswz (t : Tile) : t.tick.spswz = t.spswz := rfl
@[simp] theorem Tile.tick_chown (t : Tile) : t.tick.chown = t.chown := rfl
@[simp] theorem Tile.tick_skew (t : Tile) : t.tick.skew = t.skew := rfl
@[simp] theorem Tile.tick_engerr (t : Tile) : t.tick.engerr = t.engerr := rfl
@[simp] theorem Tile.tick_rings (t : Tile) : t.tick.rings = t.rings := rfl
@[simp] theorem Tile.tick_ends (t : Tile) : t.tick.ends = t.ends := rfl
@[simp] theorem Tile.tick_deadEnds (t : Tile) : t.tick.deadEnds = t.deadEnds := rfl
@[simp] theorem Tile.tick_recvRows (t : Tile) : t.tick.recvRows = t.recvRows := rfl
@[simp] theorem Tile.tick_mbx (t : Tile) : t.tick.mbx = t.mbx := rfl
@[simp] theorem Tile.tick_chans (t : Tile) : t.tick.chans = t.chans := rfl
@[simp] theorem Tile.tick_feet (t : Tile) : t.tick.feet = t.feet := rfl
@[simp] theorem Tile.tick_jobCtr (t : Tile) : t.tick.jobCtr = t.jobCtr := rfl
@[simp] theorem Tile.tick_view (t : Tile) : t.tick.view = t.view := rfl
@[simp] theorem Tile.tick_unpub (t : Tile) : t.tick.unpub = t.unpub := rfl
@[simp] theorem Tile.tick_tpub (t : Tile) : t.tick.tpub = t.tpub := rfl
@[simp] theorem Tile.tick_spec (t : Tile) : t.tick.spec = t.spec := rfl
@[simp] theorem Tile.tick_releasing (t : Tile) : t.tick.releasing = t.releasing := rfl
@[simp] theorem Tile.tick_commits (t : Tile) : t.tick.commits = t.commits := rfl
@[simp] theorem Tile.tick_squashes (t : Tile) : t.tick.squashes = t.squashes := rfl
@[simp] theorem Tile.tick_replays (t : Tile) : t.tick.replays = t.replays := rfl
@[simp] theorem Tile.tick_flagged (t : Tile) : t.tick.flagged = t.flagged := rfl
@[simp] theorem Tile.tick_reissue (t : Tile) : t.tick.reissue = t.reissue := rfl
@[simp] theorem Tile.tick_wait (t : Tile) : t.tick.wait = t.wait := rfl
@[simp] theorem Tile.tick_woken (t : Tile) : t.tick.woken = t.woken := rfl
@[simp] theorem Tile.tick_predDone (t : Tile) : t.tick.predDone = t.predDone := rfl
@[simp] theorem Tile.tick_stallSince (t : Tile) : t.tick.stallSince = t.stallSince := rfl
@[simp] theorem Tile.tick_loader (t : Tile) : t.tick.loader = t.loader := rfl
@[simp] theorem Tile.tick_storer (t : Tile) : t.tick.storer = t.storer := rfl
@[simp] theorem Tile.tick_tlb (t : Tile) : t.tick.tlb = t.tlb := rfl
@[simp] theorem Tile.tick_saved (t : Tile) : t.tick.saved = t.saved := rfl
@[simp] theorem Tile.tick_peerLost (t : Tile) : t.tick.peerLost = t.peerLost := rfl
@[simp] theorem Tile.tick_badRows (t : Tile) : t.tick.badRows = t.badRows := rfl
@[simp] theorem Tile.tick_badAcc (t : Tile) : t.tick.badAcc = t.badAcc := rfl

@[simp] theorem Tile.supersede_toArch (t : Tile) (l : List Site) : (t.supersede l).toArch = t.toArch := rfl
@[simp] theorem Tile.supersede_cl (t : Tile) (l : List Site) : (t.supersede l).cl = t.cl := rfl
@[simp] theorem Tile.supersede_tn (t : Tile) (l : List Site) : (t.supersede l).tn = t.tn := rfl
@[simp] theorem Tile.supersede_pc (t : Tile) (l : List Site) : (t.supersede l).pc = t.pc := rfl
@[simp] theorem Tile.supersede_priv (t : Tile) (l : List Site) : (t.supersede l).priv = t.priv := rfl
@[simp] theorem Tile.supersede_task (t : Tile) (l : List Site) : (t.supersede l).task = t.task := rfl
@[simp] theorem Tile.supersede_team (t : Tile) (l : List Site) : (t.supersede l).team = t.team := rfl
@[simp] theorem Tile.supersede_stopped (t : Tile) (l : List Site) : (t.supersede l).stopped = t.stopped := rfl
@[simp] theorem Tile.supersede_grace (t : Tile) (l : List Site) : (t.supersede l).grace = t.grace := rfl
@[simp] theorem Tile.supersede_ending (t : Tile) (l : List Site) : (t.supersede l).ending = t.ending := rfl
@[simp] theorem Tile.supersede_arrival (t : Tile) (l : List Site) : (t.supersede l).arrival = t.arrival := rfl
@[simp] theorem Tile.supersede_arrGen (t : Tile) (l : List Site) : (t.supersede l).arrGen = t.arrGen := rfl
@[simp] theorem Tile.supersede_barr (t : Tile) (l : List Site) : (t.supersede l).barr = t.barr := rfl
@[simp] theorem Tile.supersede_abortSems (t : Tile) (l : List Site) : (t.supersede l).abortSems = t.abortSems := rfl
@[simp] theorem Tile.supersede_pslots (t : Tile) (l : List Site) : (t.supersede l).pslots = t.pslots := rfl
@[simp] theorem Tile.supersede_ahead (t : Tile) (l : List Site) : (t.supersede l).ahead = t.ahead := rfl
@[simp] theorem Tile.supersede_tc (t : Tile) (l : List Site) : (t.supersede l).tc = t.tc := rfl
@[simp] theorem Tile.supersede_now (t : Tile) (l : List Site) : (t.supersede l).now = t.now := rfl
@[simp] theorem Tile.supersede_seen (t : Tile) (l : List Site) : (t.supersede l).seen = t.seen := rfl
@[simp] theorem Tile.supersede_ops (t : Tile) (l : List Site) : (t.supersede l).ops = t.ops := rfl
@[simp] theorem Tile.supersede_fills (t : Tile) (l : List Site) : (t.supersede l).fills = t.fills := rfl
@[simp] theorem Tile.supersede_fillReady (t : Tile) (l : List Site) : (t.supersede l).fillReady = t.fillReady := rfl
@[simp] theorem Tile.supersede_filled (t : Tile) (l : List Site) : (t.supersede l).filled = t.filled := rfl
@[simp] theorem Tile.supersede_busy (t : Tile) (l : List Site) : (t.supersede l).busy = t.busy := rfl
@[simp] theorem Tile.supersede_tepc (t : Tile) (l : List Site) : (t.supersede l).tepc = t.tepc := rfl
@[simp] theorem Tile.supersede_trapst (t : Tile) (l : List Site) : (t.supersede l).trapst = t.trapst := rfl
@[simp] theorem Tile.supersede_trapval (t : Tile) (l : List Site) : (t.supersede l).trapval = t.trapval := rfl
@[simp] theorem Tile.supersede_tscr (t : Tile) (l : List Site) : (t.supersede l).tscr = t.tscr := rfl
@[simp] theorem Tile.supersede_dbgctl (t : Tile) (l : List Site) : (t.supersede l).dbgctl = t.dbgctl := rfl
@[simp] theorem Tile.supersede_dbgbp (t : Tile) (l : List Site) : (t.supersede l).dbgbp = t.dbgbp := rfl
@[simp] theorem Tile.supersede_spswz (t : Tile) (l : List Site) : (t.supersede l).spswz = t.spswz := rfl
@[simp] theorem Tile.supersede_chown (t : Tile) (l : List Site) : (t.supersede l).chown = t.chown := rfl
@[simp] theorem Tile.supersede_skew (t : Tile) (l : List Site) : (t.supersede l).skew = t.skew := rfl
@[simp] theorem Tile.supersede_engerr (t : Tile) (l : List Site) : (t.supersede l).engerr = t.engerr := rfl
@[simp] theorem Tile.supersede_rings (t : Tile) (l : List Site) : (t.supersede l).rings = t.rings := rfl
@[simp] theorem Tile.supersede_ends (t : Tile) (l : List Site) : (t.supersede l).ends = t.ends := rfl
@[simp] theorem Tile.supersede_deadEnds (t : Tile) (l : List Site) : (t.supersede l).deadEnds = t.deadEnds := rfl
@[simp] theorem Tile.supersede_recvRows (t : Tile) (l : List Site) : (t.supersede l).recvRows = t.recvRows := rfl
@[simp] theorem Tile.supersede_mbx (t : Tile) (l : List Site) : (t.supersede l).mbx = t.mbx := rfl
@[simp] theorem Tile.supersede_chans (t : Tile) (l : List Site) : (t.supersede l).chans = t.chans := rfl
@[simp] theorem Tile.supersede_feet (t : Tile) (l : List Site) : (t.supersede l).feet = t.feet := rfl
@[simp] theorem Tile.supersede_jobCtr (t : Tile) (l : List Site) : (t.supersede l).jobCtr = t.jobCtr := rfl
@[simp] theorem Tile.supersede_view (t : Tile) (l : List Site) : (t.supersede l).view = t.view := rfl
@[simp] theorem Tile.supersede_unpub (t : Tile) (l : List Site) : (t.supersede l).unpub = t.unpub := rfl
@[simp] theorem Tile.supersede_tpub (t : Tile) (l : List Site) : (t.supersede l).tpub = t.tpub := rfl
@[simp] theorem Tile.supersede_spec (t : Tile) (l : List Site) : (t.supersede l).spec = t.spec := rfl
@[simp] theorem Tile.supersede_releasing (t : Tile) (l : List Site) : (t.supersede l).releasing = t.releasing := rfl
@[simp] theorem Tile.supersede_commits (t : Tile) (l : List Site) : (t.supersede l).commits = t.commits := rfl
@[simp] theorem Tile.supersede_squashes (t : Tile) (l : List Site) : (t.supersede l).squashes = t.squashes := rfl
@[simp] theorem Tile.supersede_replays (t : Tile) (l : List Site) : (t.supersede l).replays = t.replays := rfl
@[simp] theorem Tile.supersede_stretch (t : Tile) (l : List Site) : (t.supersede l).stretch = t.stretch := rfl
@[simp] theorem Tile.supersede_flagged (t : Tile) (l : List Site) : (t.supersede l).flagged = t.flagged := rfl
@[simp] theorem Tile.supersede_reissue (t : Tile) (l : List Site) : (t.supersede l).reissue = t.reissue := rfl
@[simp] theorem Tile.supersede_wait (t : Tile) (l : List Site) : (t.supersede l).wait = t.wait := rfl
@[simp] theorem Tile.supersede_woken (t : Tile) (l : List Site) : (t.supersede l).woken = t.woken := rfl
@[simp] theorem Tile.supersede_predDone (t : Tile) (l : List Site) : (t.supersede l).predDone = t.predDone := rfl
@[simp] theorem Tile.supersede_stallSince (t : Tile) (l : List Site) : (t.supersede l).stallSince = t.stallSince := rfl
@[simp] theorem Tile.supersede_loader (t : Tile) (l : List Site) : (t.supersede l).loader = t.loader := rfl
@[simp] theorem Tile.supersede_storer (t : Tile) (l : List Site) : (t.supersede l).storer = t.storer := rfl
@[simp] theorem Tile.supersede_tlb (t : Tile) (l : List Site) : (t.supersede l).tlb = t.tlb := rfl
@[simp] theorem Tile.supersede_saved (t : Tile) (l : List Site) : (t.supersede l).saved = t.saved := rfl
@[simp] theorem Tile.supersede_peerLost (t : Tile) (l : List Site) : (t.supersede l).peerLost = t.peerLost := rfl
@[simp] theorem Tile.supersede_badRows (t : Tile) (l : List Site) : (t.supersede l).badRows = t.badRows := rfl
@[simp] theorem Tile.supersede_badAcc (t : Tile) (l : List Site) : (t.supersede l).badAcc = t.badAcc := rfl

@[simp] theorem Tile.fly_toArch (t : Tile) (f : Flight) : (t.fly f).toArch = t.toArch := rfl
@[simp] theorem Tile.fly_cl (t : Tile) (f : Flight) : (t.fly f).cl = t.cl := rfl
@[simp] theorem Tile.fly_tn (t : Tile) (f : Flight) : (t.fly f).tn = t.tn := rfl
@[simp] theorem Tile.fly_pc (t : Tile) (f : Flight) : (t.fly f).pc = t.pc := rfl
@[simp] theorem Tile.fly_priv (t : Tile) (f : Flight) : (t.fly f).priv = t.priv := rfl
@[simp] theorem Tile.fly_task (t : Tile) (f : Flight) : (t.fly f).task = t.task := rfl
@[simp] theorem Tile.fly_team (t : Tile) (f : Flight) : (t.fly f).team = t.team := rfl
@[simp] theorem Tile.fly_stopped (t : Tile) (f : Flight) : (t.fly f).stopped = t.stopped := rfl
@[simp] theorem Tile.fly_grace (t : Tile) (f : Flight) : (t.fly f).grace = t.grace := rfl
@[simp] theorem Tile.fly_ending (t : Tile) (f : Flight) : (t.fly f).ending = t.ending := rfl
@[simp] theorem Tile.fly_arrival (t : Tile) (f : Flight) : (t.fly f).arrival = t.arrival := rfl
@[simp] theorem Tile.fly_arrGen (t : Tile) (f : Flight) : (t.fly f).arrGen = t.arrGen := rfl
@[simp] theorem Tile.fly_barr (t : Tile) (f : Flight) : (t.fly f).barr = t.barr := rfl
@[simp] theorem Tile.fly_abortSems (t : Tile) (f : Flight) : (t.fly f).abortSems = t.abortSems := rfl
@[simp] theorem Tile.fly_pslots (t : Tile) (f : Flight) : (t.fly f).pslots = t.pslots := rfl
@[simp] theorem Tile.fly_ahead (t : Tile) (f : Flight) : (t.fly f).ahead = t.ahead := rfl
@[simp] theorem Tile.fly_tc (t : Tile) (f : Flight) : (t.fly f).tc = t.tc := rfl
@[simp] theorem Tile.fly_now (t : Tile) (f : Flight) : (t.fly f).now = t.now := rfl
@[simp] theorem Tile.fly_seen (t : Tile) (f : Flight) : (t.fly f).seen = t.seen := rfl
@[simp] theorem Tile.fly_ops (t : Tile) (f : Flight) : (t.fly f).ops = t.ops := rfl
@[simp] theorem Tile.fly_fills (t : Tile) (f : Flight) : (t.fly f).fills = t.fills := rfl
@[simp] theorem Tile.fly_fillReady (t : Tile) (f : Flight) : (t.fly f).fillReady = t.fillReady := rfl
@[simp] theorem Tile.fly_filled (t : Tile) (f : Flight) : (t.fly f).filled = t.filled := rfl
@[simp] theorem Tile.fly_busy (t : Tile) (f : Flight) : (t.fly f).busy = t.busy := rfl
@[simp] theorem Tile.fly_tepc (t : Tile) (f : Flight) : (t.fly f).tepc = t.tepc := rfl
@[simp] theorem Tile.fly_trapst (t : Tile) (f : Flight) : (t.fly f).trapst = t.trapst := rfl
@[simp] theorem Tile.fly_trapval (t : Tile) (f : Flight) : (t.fly f).trapval = t.trapval := rfl
@[simp] theorem Tile.fly_tscr (t : Tile) (f : Flight) : (t.fly f).tscr = t.tscr := rfl
@[simp] theorem Tile.fly_dbgctl (t : Tile) (f : Flight) : (t.fly f).dbgctl = t.dbgctl := rfl
@[simp] theorem Tile.fly_dbgbp (t : Tile) (f : Flight) : (t.fly f).dbgbp = t.dbgbp := rfl
@[simp] theorem Tile.fly_spswz (t : Tile) (f : Flight) : (t.fly f).spswz = t.spswz := rfl
@[simp] theorem Tile.fly_chown (t : Tile) (f : Flight) : (t.fly f).chown = t.chown := rfl
@[simp] theorem Tile.fly_skew (t : Tile) (f : Flight) : (t.fly f).skew = t.skew := rfl
@[simp] theorem Tile.fly_engerr (t : Tile) (f : Flight) : (t.fly f).engerr = t.engerr := rfl
@[simp] theorem Tile.fly_rings (t : Tile) (f : Flight) : (t.fly f).rings = t.rings := rfl
@[simp] theorem Tile.fly_ends (t : Tile) (f : Flight) : (t.fly f).ends = t.ends := rfl
@[simp] theorem Tile.fly_deadEnds (t : Tile) (f : Flight) : (t.fly f).deadEnds = t.deadEnds := rfl
@[simp] theorem Tile.fly_recvRows (t : Tile) (f : Flight) : (t.fly f).recvRows = t.recvRows := rfl
@[simp] theorem Tile.fly_mbx (t : Tile) (f : Flight) : (t.fly f).mbx = t.mbx := rfl
@[simp] theorem Tile.fly_chans (t : Tile) (f : Flight) : (t.fly f).chans = t.chans := rfl
@[simp] theorem Tile.fly_feet (t : Tile) (f : Flight) : (t.fly f).feet = t.feet := rfl
@[simp] theorem Tile.fly_jobCtr (t : Tile) (f : Flight) : (t.fly f).jobCtr = t.jobCtr := rfl
@[simp] theorem Tile.fly_view (t : Tile) (f : Flight) : (t.fly f).view = t.view := rfl
@[simp] theorem Tile.fly_unpub (t : Tile) (f : Flight) : (t.fly f).unpub = t.unpub := rfl
@[simp] theorem Tile.fly_tpub (t : Tile) (f : Flight) : (t.fly f).tpub = t.tpub := rfl
@[simp] theorem Tile.fly_spec (t : Tile) (f : Flight) : (t.fly f).spec = t.spec := rfl
@[simp] theorem Tile.fly_releasing (t : Tile) (f : Flight) : (t.fly f).releasing = t.releasing := rfl
@[simp] theorem Tile.fly_commits (t : Tile) (f : Flight) : (t.fly f).commits = t.commits := rfl
@[simp] theorem Tile.fly_squashes (t : Tile) (f : Flight) : (t.fly f).squashes = t.squashes := rfl
@[simp] theorem Tile.fly_replays (t : Tile) (f : Flight) : (t.fly f).replays = t.replays := rfl
@[simp] theorem Tile.fly_stretch (t : Tile) (f : Flight) : (t.fly f).stretch = t.stretch := rfl
@[simp] theorem Tile.fly_flagged (t : Tile) (f : Flight) : (t.fly f).flagged = t.flagged := rfl
@[simp] theorem Tile.fly_reissue (t : Tile) (f : Flight) : (t.fly f).reissue = t.reissue := rfl
@[simp] theorem Tile.fly_wait (t : Tile) (f : Flight) : (t.fly f).wait = t.wait := rfl
@[simp] theorem Tile.fly_woken (t : Tile) (f : Flight) : (t.fly f).woken = t.woken := rfl
@[simp] theorem Tile.fly_predDone (t : Tile) (f : Flight) : (t.fly f).predDone = t.predDone := rfl
@[simp] theorem Tile.fly_stallSince (t : Tile) (f : Flight) : (t.fly f).stallSince = t.stallSince := rfl
@[simp] theorem Tile.fly_loader (t : Tile) (f : Flight) : (t.fly f).loader = t.loader := rfl
@[simp] theorem Tile.fly_storer (t : Tile) (f : Flight) : (t.fly f).storer = t.storer := rfl
@[simp] theorem Tile.fly_tlb (t : Tile) (f : Flight) : (t.fly f).tlb = t.tlb := rfl
@[simp] theorem Tile.fly_saved (t : Tile) (f : Flight) : (t.fly f).saved = t.saved := rfl
@[simp] theorem Tile.fly_peerLost (t : Tile) (f : Flight) : (t.fly f).peerLost = t.peerLost := rfl
@[simp] theorem Tile.fly_badRows (t : Tile) (f : Flight) : (t.fly f).badRows = t.badRows := rfl
@[simp] theorem Tile.fly_badAcc (t : Tile) (f : Flight) : (t.fly f).badAcc = t.badAcc := rfl

@[simp] theorem Tile.trapReturn_toArch (t : Tile) : t.trapReturn.toArch = t.toArch := rfl
@[simp] theorem Tile.trapReturn_cl (t : Tile) : t.trapReturn.cl = t.cl := rfl
@[simp] theorem Tile.trapReturn_tn (t : Tile) : t.trapReturn.tn = t.tn := rfl
@[simp] theorem Tile.trapReturn_pc (t : Tile) : t.trapReturn.pc = t.pc := rfl
@[simp] theorem Tile.trapReturn_priv (t : Tile) : t.trapReturn.priv = false := rfl
@[simp] theorem Tile.trapReturn_task (t : Tile) : t.trapReturn.task = t.task := rfl
@[simp] theorem Tile.trapReturn_team (t : Tile) : t.trapReturn.team = t.team := rfl
@[simp] theorem Tile.trapReturn_stopped (t : Tile) : t.trapReturn.stopped = t.stopped := rfl
@[simp] theorem Tile.trapReturn_grace (t : Tile) : t.trapReturn.grace = t.grace := rfl
@[simp] theorem Tile.trapReturn_ending (t : Tile) : t.trapReturn.ending = t.ending := rfl
@[simp] theorem Tile.trapReturn_arrival (t : Tile) : t.trapReturn.arrival = t.arrival := rfl
@[simp] theorem Tile.trapReturn_arrGen (t : Tile) : t.trapReturn.arrGen = t.arrGen := rfl
@[simp] theorem Tile.trapReturn_barr (t : Tile) : t.trapReturn.barr = t.barr := rfl
@[simp] theorem Tile.trapReturn_abortSems (t : Tile) : t.trapReturn.abortSems = t.abortSems := rfl
@[simp] theorem Tile.trapReturn_pslots (t : Tile) : t.trapReturn.pslots = t.pslots := rfl
@[simp] theorem Tile.trapReturn_ahead (t : Tile) : t.trapReturn.ahead = t.ahead := rfl
@[simp] theorem Tile.trapReturn_tc (t : Tile) : t.trapReturn.tc = t.tc := rfl
@[simp] theorem Tile.trapReturn_now (t : Tile) : t.trapReturn.now = t.now := rfl
@[simp] theorem Tile.trapReturn_seen (t : Tile) : t.trapReturn.seen = t.seen := rfl
@[simp] theorem Tile.trapReturn_flights (t : Tile) : t.trapReturn.flights = t.flights := rfl
@[simp] theorem Tile.trapReturn_ops (t : Tile) : t.trapReturn.ops = t.ops := rfl
@[simp] theorem Tile.trapReturn_fills (t : Tile) : t.trapReturn.fills = t.fills := rfl
@[simp] theorem Tile.trapReturn_fillReady (t : Tile) : t.trapReturn.fillReady = t.fillReady := rfl
@[simp] theorem Tile.trapReturn_filled (t : Tile) : t.trapReturn.filled = t.filled := rfl
@[simp] theorem Tile.trapReturn_busy (t : Tile) : t.trapReturn.busy = t.busy := rfl
@[simp] theorem Tile.trapReturn_tepc (t : Tile) : t.trapReturn.tepc = t.tepc := rfl
@[simp] theorem Tile.trapReturn_trapst (t : Tile) : t.trapReturn.trapst = t.trapst := rfl
@[simp] theorem Tile.trapReturn_trapval (t : Tile) : t.trapReturn.trapval = t.trapval := rfl
@[simp] theorem Tile.trapReturn_tscr (t : Tile) : t.trapReturn.tscr = t.tscr := rfl
@[simp] theorem Tile.trapReturn_dbgctl (t : Tile) : t.trapReturn.dbgctl = t.dbgctl := rfl
@[simp] theorem Tile.trapReturn_dbgbp (t : Tile) : t.trapReturn.dbgbp = t.dbgbp := rfl
@[simp] theorem Tile.trapReturn_spswz (t : Tile) : t.trapReturn.spswz = t.spswz := rfl
@[simp] theorem Tile.trapReturn_chown (t : Tile) : t.trapReturn.chown = t.chown := rfl
@[simp] theorem Tile.trapReturn_skew (t : Tile) : t.trapReturn.skew = t.skew := rfl
@[simp] theorem Tile.trapReturn_engerr (t : Tile) : t.trapReturn.engerr = t.engerr := rfl
@[simp] theorem Tile.trapReturn_rings (t : Tile) : t.trapReturn.rings = t.rings := rfl
@[simp] theorem Tile.trapReturn_ends (t : Tile) : t.trapReturn.ends = t.ends := rfl
@[simp] theorem Tile.trapReturn_deadEnds (t : Tile) : t.trapReturn.deadEnds = t.deadEnds := rfl
@[simp] theorem Tile.trapReturn_recvRows (t : Tile) : t.trapReturn.recvRows = t.recvRows := rfl
@[simp] theorem Tile.trapReturn_mbx (t : Tile) : t.trapReturn.mbx = t.mbx := rfl
@[simp] theorem Tile.trapReturn_chans (t : Tile) : t.trapReturn.chans = t.chans := rfl
@[simp] theorem Tile.trapReturn_feet (t : Tile) : t.trapReturn.feet = t.feet := rfl
@[simp] theorem Tile.trapReturn_jobCtr (t : Tile) : t.trapReturn.jobCtr = t.jobCtr := rfl
@[simp] theorem Tile.trapReturn_view (t : Tile) : t.trapReturn.view = t.view := rfl
@[simp] theorem Tile.trapReturn_unpub (t : Tile) : t.trapReturn.unpub = t.unpub := rfl
@[simp] theorem Tile.trapReturn_tpub (t : Tile) : t.trapReturn.tpub = t.tpub := rfl
@[simp] theorem Tile.trapReturn_spec (t : Tile) : t.trapReturn.spec = t.spec := rfl
@[simp] theorem Tile.trapReturn_releasing (t : Tile) : t.trapReturn.releasing = t.releasing := rfl
@[simp] theorem Tile.trapReturn_commits (t : Tile) : t.trapReturn.commits = t.commits := rfl
@[simp] theorem Tile.trapReturn_squashes (t : Tile) : t.trapReturn.squashes = t.squashes := rfl
@[simp] theorem Tile.trapReturn_replays (t : Tile) : t.trapReturn.replays = t.replays := rfl
@[simp] theorem Tile.trapReturn_stretch (t : Tile) : t.trapReturn.stretch = t.stretch := rfl
@[simp] theorem Tile.trapReturn_flagged (t : Tile) : t.trapReturn.flagged = t.flagged := rfl
@[simp] theorem Tile.trapReturn_reissue (t : Tile) : t.trapReturn.reissue = t.reissue := rfl
@[simp] theorem Tile.trapReturn_wait (t : Tile) : t.trapReturn.wait = t.wait := rfl
@[simp] theorem Tile.trapReturn_woken (t : Tile) : t.trapReturn.woken = t.woken := rfl
@[simp] theorem Tile.trapReturn_predDone (t : Tile) : t.trapReturn.predDone = t.predDone := rfl
@[simp] theorem Tile.trapReturn_stallSince (t : Tile) : t.trapReturn.stallSince = t.stallSince := rfl
@[simp] theorem Tile.trapReturn_loader (t : Tile) : t.trapReturn.loader = t.loader := rfl
@[simp] theorem Tile.trapReturn_storer (t : Tile) : t.trapReturn.storer = t.storer := rfl
@[simp] theorem Tile.trapReturn_tlb (t : Tile) : t.trapReturn.tlb = t.tlb := rfl
@[simp] theorem Tile.trapReturn_saved (t : Tile) : t.trapReturn.saved = t.saved := rfl
@[simp] theorem Tile.trapReturn_peerLost (t : Tile) : t.trapReturn.peerLost = t.peerLost := rfl
@[simp] theorem Tile.trapReturn_badRows (t : Tile) : t.trapReturn.badRows = t.badRows := rfl
@[simp] theorem Tile.trapReturn_badAcc (t : Tile) : t.trapReturn.badAcc = t.badAcc := rfl

@[simp] theorem Tile.setMap_cl (t : Tile) (n : MapNo) (m : MapEntry) : (t.setMap n m).cl = t.cl := rfl
@[simp] theorem Tile.setMap_tn (t : Tile) (n : MapNo) (m : MapEntry) : (t.setMap n m).tn = t.tn := rfl
@[simp] theorem Tile.setMap_pc (t : Tile) (n : MapNo) (m : MapEntry) : (t.setMap n m).pc = t.pc := rfl
@[simp] theorem Tile.setMap_priv (t : Tile) (n : MapNo) (m : MapEntry) : (t.setMap n m).priv = t.priv := rfl
@[simp] theorem Tile.setMap_task (t : Tile) (n : MapNo) (m : MapEntry) : (t.setMap n m).task = t.task := rfl
@[simp] theorem Tile.setMap_team (t : Tile) (n : MapNo) (m : MapEntry) : (t.setMap n m).team = t.team := rfl
@[simp] theorem Tile.setMap_stopped (t : Tile) (n : MapNo) (m : MapEntry) : (t.setMap n m).stopped = t.stopped := rfl
@[simp] theorem Tile.setMap_grace (t : Tile) (n : MapNo) (m : MapEntry) : (t.setMap n m).grace = t.grace := rfl
@[simp] theorem Tile.setMap_ending (t : Tile) (n : MapNo) (m : MapEntry) : (t.setMap n m).ending = t.ending := rfl
@[simp] theorem Tile.setMap_arrival (t : Tile) (n : MapNo) (m : MapEntry) : (t.setMap n m).arrival = t.arrival := rfl
@[simp] theorem Tile.setMap_arrGen (t : Tile) (n : MapNo) (m : MapEntry) : (t.setMap n m).arrGen = t.arrGen := rfl
@[simp] theorem Tile.setMap_barr (t : Tile) (n : MapNo) (m : MapEntry) : (t.setMap n m).barr = t.barr := rfl
@[simp] theorem Tile.setMap_abortSems (t : Tile) (n : MapNo) (m : MapEntry) : (t.setMap n m).abortSems = t.abortSems := rfl
@[simp] theorem Tile.setMap_pslots (t : Tile) (n : MapNo) (m : MapEntry) : (t.setMap n m).pslots = t.pslots := rfl
@[simp] theorem Tile.setMap_ahead (t : Tile) (n : MapNo) (m : MapEntry) : (t.setMap n m).ahead = t.ahead := rfl
@[simp] theorem Tile.setMap_tc (t : Tile) (n : MapNo) (m : MapEntry) : (t.setMap n m).tc = t.tc := rfl
@[simp] theorem Tile.setMap_now (t : Tile) (n : MapNo) (m : MapEntry) : (t.setMap n m).now = t.now := rfl
@[simp] theorem Tile.setMap_seen (t : Tile) (n : MapNo) (m : MapEntry) : (t.setMap n m).seen = t.seen := rfl
@[simp] theorem Tile.setMap_flights (t : Tile) (n : MapNo) (m : MapEntry) : (t.setMap n m).flights = t.flights := rfl
@[simp] theorem Tile.setMap_ops (t : Tile) (n : MapNo) (m : MapEntry) : (t.setMap n m).ops = t.ops := rfl
@[simp] theorem Tile.setMap_fills (t : Tile) (n : MapNo) (m : MapEntry) : (t.setMap n m).fills = t.fills := rfl
@[simp] theorem Tile.setMap_fillReady (t : Tile) (n : MapNo) (m : MapEntry) : (t.setMap n m).fillReady = t.fillReady := rfl
@[simp] theorem Tile.setMap_filled (t : Tile) (n : MapNo) (m : MapEntry) : (t.setMap n m).filled = t.filled := rfl
@[simp] theorem Tile.setMap_busy (t : Tile) (n : MapNo) (m : MapEntry) : (t.setMap n m).busy = t.busy := rfl
@[simp] theorem Tile.setMap_tepc (t : Tile) (n : MapNo) (m : MapEntry) : (t.setMap n m).tepc = t.tepc := rfl
@[simp] theorem Tile.setMap_trapst (t : Tile) (n : MapNo) (m : MapEntry) : (t.setMap n m).trapst = t.trapst := rfl
@[simp] theorem Tile.setMap_trapval (t : Tile) (n : MapNo) (m : MapEntry) : (t.setMap n m).trapval = t.trapval := rfl
@[simp] theorem Tile.setMap_tscr (t : Tile) (n : MapNo) (m : MapEntry) : (t.setMap n m).tscr = t.tscr := rfl
@[simp] theorem Tile.setMap_dbgctl (t : Tile) (n : MapNo) (m : MapEntry) : (t.setMap n m).dbgctl = t.dbgctl := rfl
@[simp] theorem Tile.setMap_dbgbp (t : Tile) (n : MapNo) (m : MapEntry) : (t.setMap n m).dbgbp = t.dbgbp := rfl
@[simp] theorem Tile.setMap_spswz (t : Tile) (n : MapNo) (m : MapEntry) : (t.setMap n m).spswz = t.spswz := rfl
@[simp] theorem Tile.setMap_chown (t : Tile) (n : MapNo) (m : MapEntry) : (t.setMap n m).chown = t.chown := rfl
@[simp] theorem Tile.setMap_skew (t : Tile) (n : MapNo) (m : MapEntry) : (t.setMap n m).skew = t.skew := rfl
@[simp] theorem Tile.setMap_engerr (t : Tile) (n : MapNo) (m : MapEntry) : (t.setMap n m).engerr = t.engerr := rfl
@[simp] theorem Tile.setMap_rings (t : Tile) (n : MapNo) (m : MapEntry) : (t.setMap n m).rings = t.rings := rfl
@[simp] theorem Tile.setMap_ends (t : Tile) (n : MapNo) (m : MapEntry) : (t.setMap n m).ends = t.ends := rfl
@[simp] theorem Tile.setMap_deadEnds (t : Tile) (n : MapNo) (m : MapEntry) : (t.setMap n m).deadEnds = t.deadEnds := rfl
@[simp] theorem Tile.setMap_recvRows (t : Tile) (n : MapNo) (m : MapEntry) : (t.setMap n m).recvRows = t.recvRows := rfl
@[simp] theorem Tile.setMap_mbx (t : Tile) (n : MapNo) (m : MapEntry) : (t.setMap n m).mbx = t.mbx := rfl
@[simp] theorem Tile.setMap_chans (t : Tile) (n : MapNo) (m : MapEntry) : (t.setMap n m).chans = t.chans := rfl
@[simp] theorem Tile.setMap_feet (t : Tile) (n : MapNo) (m : MapEntry) : (t.setMap n m).feet = t.feet := rfl
@[simp] theorem Tile.setMap_jobCtr (t : Tile) (n : MapNo) (m : MapEntry) : (t.setMap n m).jobCtr = t.jobCtr := rfl
@[simp] theorem Tile.setMap_view (t : Tile) (n : MapNo) (m : MapEntry) : (t.setMap n m).view = t.view := rfl
@[simp] theorem Tile.setMap_unpub (t : Tile) (n : MapNo) (m : MapEntry) : (t.setMap n m).unpub = t.unpub := rfl
@[simp] theorem Tile.setMap_tpub (t : Tile) (n : MapNo) (m : MapEntry) : (t.setMap n m).tpub = t.tpub := rfl
@[simp] theorem Tile.setMap_spec (t : Tile) (n : MapNo) (m : MapEntry) : (t.setMap n m).spec = t.spec := rfl
@[simp] theorem Tile.setMap_releasing (t : Tile) (n : MapNo) (m : MapEntry) : (t.setMap n m).releasing = t.releasing := rfl
@[simp] theorem Tile.setMap_commits (t : Tile) (n : MapNo) (m : MapEntry) : (t.setMap n m).commits = t.commits := rfl
@[simp] theorem Tile.setMap_squashes (t : Tile) (n : MapNo) (m : MapEntry) : (t.setMap n m).squashes = t.squashes := rfl
@[simp] theorem Tile.setMap_replays (t : Tile) (n : MapNo) (m : MapEntry) : (t.setMap n m).replays = t.replays := rfl
@[simp] theorem Tile.setMap_stretch (t : Tile) (n : MapNo) (m : MapEntry) : (t.setMap n m).stretch = t.stretch := rfl
@[simp] theorem Tile.setMap_flagged (t : Tile) (n : MapNo) (m : MapEntry) : (t.setMap n m).flagged = t.flagged := rfl
@[simp] theorem Tile.setMap_reissue (t : Tile) (n : MapNo) (m : MapEntry) : (t.setMap n m).reissue = t.reissue := rfl
@[simp] theorem Tile.setMap_wait (t : Tile) (n : MapNo) (m : MapEntry) : (t.setMap n m).wait = t.wait := rfl
@[simp] theorem Tile.setMap_woken (t : Tile) (n : MapNo) (m : MapEntry) : (t.setMap n m).woken = t.woken := rfl
@[simp] theorem Tile.setMap_predDone (t : Tile) (n : MapNo) (m : MapEntry) : (t.setMap n m).predDone = t.predDone := rfl
@[simp] theorem Tile.setMap_stallSince (t : Tile) (n : MapNo) (m : MapEntry) : (t.setMap n m).stallSince = t.stallSince := rfl
@[simp] theorem Tile.setMap_loader (t : Tile) (n : MapNo) (m : MapEntry) : (t.setMap n m).loader = t.loader := rfl
@[simp] theorem Tile.setMap_storer (t : Tile) (n : MapNo) (m : MapEntry) : (t.setMap n m).storer = t.storer := rfl
@[simp] theorem Tile.setMap_tlb (t : Tile) (n : MapNo) (m : MapEntry) : (t.setMap n m).tlb = t.tlb := rfl
@[simp] theorem Tile.setMap_saved (t : Tile) (n : MapNo) (m : MapEntry) : (t.setMap n m).saved = t.saved := rfl
@[simp] theorem Tile.setMap_peerLost (t : Tile) (n : MapNo) (m : MapEntry) : (t.setMap n m).peerLost = t.peerLost := rfl
@[simp] theorem Tile.setMap_badRows (t : Tile) (n : MapNo) (m : MapEntry) : (t.setMap n m).badRows = t.badRows := rfl
@[simp] theorem Tile.setMap_badAcc (t : Tile) (n : MapNo) (m : MapEntry) : (t.setMap n m).badAcc = t.badAcc := rfl
@[simp] theorem Tile.setMap_sregs (t : Tile) (n : MapNo) (m : MapEntry) : (t.setMap n m).sregs = t.sregs := rfl
@[simp] theorem Tile.setMap_preds (t : Tile) (n : MapNo) (m : MapEntry) : (t.setMap n m).preds = t.preds := rfl
@[simp] theorem Tile.setMap_pass (t : Tile) (n : MapNo) (m : MapEntry) : (t.setMap n m).pass = t.pass := rfl
@[simp] theorem Tile.setMap_feed (t : Tile) (n : MapNo) (m : MapEntry) : (t.setMap n m).feed = t.feed := rfl
@[simp] theorem Tile.setMap_rrb (t : Tile) (n : MapNo) (m : MapEntry) : (t.setMap n m).rrb = t.rrb := rfl
@[simp] theorem Tile.setMap_grid (t : Tile) (n : MapNo) (m : MapEntry) : (t.setMap n m).grid = t.grid := rfl
@[simp] theorem Tile.setMap_tags (t : Tile) (n : MapNo) (m : MapEntry) : (t.setMap n m).tags = t.tags := rfl
@[simp] theorem Tile.setMap_lcr (t : Tile) (n : MapNo) (m : MapEntry) : (t.setMap n m).lcr = t.lcr := rfl
@[simp] theorem Tile.setMap_bmr (t : Tile) (n : MapNo) (m : MapEntry) : (t.setMap n m).bmr = t.bmr := rfl
@[simp] theorem Tile.setMap_pv (t : Tile) (n : MapNo) (m : MapEntry) : (t.setMap n m).pv = t.pv := rfl
@[simp] theorem Tile.setMap_xpend (t : Tile) (n : MapNo) (m : MapEntry) : (t.setMap n m).xpend = t.xpend := rfl
@[simp] theorem Tile.setMap_xrd (t : Tile) (n : MapNo) (m : MapEntry) : (t.setMap n m).xrd = t.xrd := rfl
@[simp] theorem Tile.setMap_handles (t : Tile) (n : MapNo) (m : MapEntry) : (t.setMap n m).handles = t.handles := rfl
@[simp] theorem Tile.setMap_mat (t : Tile) (n : MapNo) (m : MapEntry) : (t.setMap n m).mat = t.mat := rfl
@[simp] theorem Tile.setMap_queues (t : Tile) (n : MapNo) (m : MapEntry) : (t.setMap n m).queues = t.queues := rfl
@[simp] theorem Tile.setMap_cld (t : Tile) (n : MapNo) (m : MapEntry) : (t.setMap n m).cld = t.cld := rfl
@[simp] theorem Tile.setMap_cst (t : Tile) (n : MapNo) (m : MapEntry) : (t.setMap n m).cst = t.cst := rfl
@[simp] theorem Tile.setMap_ccp (t : Tile) (n : MapNo) (m : MapEntry) : (t.setMap n m).ccp = t.ccp := rfl
@[simp] theorem Tile.setMap_ctl (t : Tile) (n : MapNo) (m : MapEntry) : (t.setMap n m).ctl = t.ctl := rfl
@[simp] theorem Tile.setMap_maps (t : Tile) (n : MapNo) (m : MapEntry) : (t.setMap n m).maps = t.maps.set n.val m := rfl
@[simp] theorem Tile.setMap_setup (t : Tile) (n : MapNo) (m : MapEntry) : (t.setMap n m).setup = t.setup := rfl

@[simp] theorem Tile.putSetup_cl (t : Tile) (c : ChNo) (k : Fin 16) (v : Word) : (t.putSetup c k v).cl = t.cl := rfl
@[simp] theorem Tile.putSetup_tn (t : Tile) (c : ChNo) (k : Fin 16) (v : Word) : (t.putSetup c k v).tn = t.tn := rfl
@[simp] theorem Tile.putSetup_pc (t : Tile) (c : ChNo) (k : Fin 16) (v : Word) : (t.putSetup c k v).pc = t.pc := rfl
@[simp] theorem Tile.putSetup_priv (t : Tile) (c : ChNo) (k : Fin 16) (v : Word) : (t.putSetup c k v).priv = t.priv := rfl
@[simp] theorem Tile.putSetup_task (t : Tile) (c : ChNo) (k : Fin 16) (v : Word) : (t.putSetup c k v).task = t.task := rfl
@[simp] theorem Tile.putSetup_team (t : Tile) (c : ChNo) (k : Fin 16) (v : Word) : (t.putSetup c k v).team = t.team := rfl
@[simp] theorem Tile.putSetup_stopped (t : Tile) (c : ChNo) (k : Fin 16) (v : Word) : (t.putSetup c k v).stopped = t.stopped := rfl
@[simp] theorem Tile.putSetup_grace (t : Tile) (c : ChNo) (k : Fin 16) (v : Word) : (t.putSetup c k v).grace = t.grace := rfl
@[simp] theorem Tile.putSetup_ending (t : Tile) (c : ChNo) (k : Fin 16) (v : Word) : (t.putSetup c k v).ending = t.ending := rfl
@[simp] theorem Tile.putSetup_arrival (t : Tile) (c : ChNo) (k : Fin 16) (v : Word) : (t.putSetup c k v).arrival = t.arrival := rfl
@[simp] theorem Tile.putSetup_arrGen (t : Tile) (c : ChNo) (k : Fin 16) (v : Word) : (t.putSetup c k v).arrGen = t.arrGen := rfl
@[simp] theorem Tile.putSetup_barr (t : Tile) (c : ChNo) (k : Fin 16) (v : Word) : (t.putSetup c k v).barr = t.barr := rfl
@[simp] theorem Tile.putSetup_abortSems (t : Tile) (c : ChNo) (k : Fin 16) (v : Word) : (t.putSetup c k v).abortSems = t.abortSems := rfl
@[simp] theorem Tile.putSetup_pslots (t : Tile) (c : ChNo) (k : Fin 16) (v : Word) : (t.putSetup c k v).pslots = t.pslots := rfl
@[simp] theorem Tile.putSetup_ahead (t : Tile) (c : ChNo) (k : Fin 16) (v : Word) : (t.putSetup c k v).ahead = t.ahead := rfl
@[simp] theorem Tile.putSetup_tc (t : Tile) (c : ChNo) (k : Fin 16) (v : Word) : (t.putSetup c k v).tc = t.tc := rfl
@[simp] theorem Tile.putSetup_now (t : Tile) (c : ChNo) (k : Fin 16) (v : Word) : (t.putSetup c k v).now = t.now := rfl
@[simp] theorem Tile.putSetup_seen (t : Tile) (c : ChNo) (k : Fin 16) (v : Word) : (t.putSetup c k v).seen = t.seen := rfl
@[simp] theorem Tile.putSetup_flights (t : Tile) (c : ChNo) (k : Fin 16) (v : Word) : (t.putSetup c k v).flights = t.flights := rfl
@[simp] theorem Tile.putSetup_ops (t : Tile) (c : ChNo) (k : Fin 16) (v : Word) : (t.putSetup c k v).ops = t.ops := rfl
@[simp] theorem Tile.putSetup_fills (t : Tile) (c : ChNo) (k : Fin 16) (v : Word) : (t.putSetup c k v).fills = t.fills := rfl
@[simp] theorem Tile.putSetup_fillReady (t : Tile) (c : ChNo) (k : Fin 16) (v : Word) : (t.putSetup c k v).fillReady = t.fillReady := rfl
@[simp] theorem Tile.putSetup_filled (t : Tile) (c : ChNo) (k : Fin 16) (v : Word) : (t.putSetup c k v).filled = t.filled := rfl
@[simp] theorem Tile.putSetup_busy (t : Tile) (c : ChNo) (k : Fin 16) (v : Word) : (t.putSetup c k v).busy = t.busy := rfl
@[simp] theorem Tile.putSetup_tepc (t : Tile) (c : ChNo) (k : Fin 16) (v : Word) : (t.putSetup c k v).tepc = t.tepc := rfl
@[simp] theorem Tile.putSetup_trapst (t : Tile) (c : ChNo) (k : Fin 16) (v : Word) : (t.putSetup c k v).trapst = t.trapst := rfl
@[simp] theorem Tile.putSetup_trapval (t : Tile) (c : ChNo) (k : Fin 16) (v : Word) : (t.putSetup c k v).trapval = t.trapval := rfl
@[simp] theorem Tile.putSetup_tscr (t : Tile) (c : ChNo) (k : Fin 16) (v : Word) : (t.putSetup c k v).tscr = t.tscr := rfl
@[simp] theorem Tile.putSetup_dbgctl (t : Tile) (c : ChNo) (k : Fin 16) (v : Word) : (t.putSetup c k v).dbgctl = t.dbgctl := rfl
@[simp] theorem Tile.putSetup_dbgbp (t : Tile) (c : ChNo) (k : Fin 16) (v : Word) : (t.putSetup c k v).dbgbp = t.dbgbp := rfl
@[simp] theorem Tile.putSetup_spswz (t : Tile) (c : ChNo) (k : Fin 16) (v : Word) : (t.putSetup c k v).spswz = t.spswz := rfl
@[simp] theorem Tile.putSetup_chown (t : Tile) (c : ChNo) (k : Fin 16) (v : Word) : (t.putSetup c k v).chown = t.chown := rfl
@[simp] theorem Tile.putSetup_skew (t : Tile) (c : ChNo) (k : Fin 16) (v : Word) : (t.putSetup c k v).skew = t.skew := rfl
@[simp] theorem Tile.putSetup_engerr (t : Tile) (c : ChNo) (k : Fin 16) (v : Word) : (t.putSetup c k v).engerr = t.engerr := rfl
@[simp] theorem Tile.putSetup_rings (t : Tile) (c : ChNo) (k : Fin 16) (v : Word) : (t.putSetup c k v).rings = t.rings := rfl
@[simp] theorem Tile.putSetup_ends (t : Tile) (c : ChNo) (k : Fin 16) (v : Word) : (t.putSetup c k v).ends = t.ends := rfl
@[simp] theorem Tile.putSetup_deadEnds (t : Tile) (c : ChNo) (k : Fin 16) (v : Word) : (t.putSetup c k v).deadEnds = t.deadEnds := rfl
@[simp] theorem Tile.putSetup_recvRows (t : Tile) (c : ChNo) (k : Fin 16) (v : Word) : (t.putSetup c k v).recvRows = t.recvRows := rfl
@[simp] theorem Tile.putSetup_mbx (t : Tile) (c : ChNo) (k : Fin 16) (v : Word) : (t.putSetup c k v).mbx = t.mbx := rfl
@[simp] theorem Tile.putSetup_chans (t : Tile) (c : ChNo) (k : Fin 16) (v : Word) : (t.putSetup c k v).chans = t.chans := rfl
@[simp] theorem Tile.putSetup_feet (t : Tile) (c : ChNo) (k : Fin 16) (v : Word) : (t.putSetup c k v).feet = t.feet := rfl
@[simp] theorem Tile.putSetup_jobCtr (t : Tile) (c : ChNo) (k : Fin 16) (v : Word) : (t.putSetup c k v).jobCtr = t.jobCtr := rfl
@[simp] theorem Tile.putSetup_view (t : Tile) (c : ChNo) (k : Fin 16) (v : Word) : (t.putSetup c k v).view = t.view := rfl
@[simp] theorem Tile.putSetup_unpub (t : Tile) (c : ChNo) (k : Fin 16) (v : Word) : (t.putSetup c k v).unpub = t.unpub := rfl
@[simp] theorem Tile.putSetup_tpub (t : Tile) (c : ChNo) (k : Fin 16) (v : Word) : (t.putSetup c k v).tpub = t.tpub := rfl
@[simp] theorem Tile.putSetup_spec (t : Tile) (c : ChNo) (k : Fin 16) (v : Word) : (t.putSetup c k v).spec = t.spec := rfl
@[simp] theorem Tile.putSetup_releasing (t : Tile) (c : ChNo) (k : Fin 16) (v : Word) : (t.putSetup c k v).releasing = t.releasing := rfl
@[simp] theorem Tile.putSetup_commits (t : Tile) (c : ChNo) (k : Fin 16) (v : Word) : (t.putSetup c k v).commits = t.commits := rfl
@[simp] theorem Tile.putSetup_squashes (t : Tile) (c : ChNo) (k : Fin 16) (v : Word) : (t.putSetup c k v).squashes = t.squashes := rfl
@[simp] theorem Tile.putSetup_replays (t : Tile) (c : ChNo) (k : Fin 16) (v : Word) : (t.putSetup c k v).replays = t.replays := rfl
@[simp] theorem Tile.putSetup_stretch (t : Tile) (c : ChNo) (k : Fin 16) (v : Word) : (t.putSetup c k v).stretch = t.stretch := rfl
@[simp] theorem Tile.putSetup_flagged (t : Tile) (c : ChNo) (k : Fin 16) (v : Word) : (t.putSetup c k v).flagged = t.flagged := rfl
@[simp] theorem Tile.putSetup_reissue (t : Tile) (c : ChNo) (k : Fin 16) (v : Word) : (t.putSetup c k v).reissue = t.reissue := rfl
@[simp] theorem Tile.putSetup_wait (t : Tile) (c : ChNo) (k : Fin 16) (v : Word) : (t.putSetup c k v).wait = t.wait := rfl
@[simp] theorem Tile.putSetup_woken (t : Tile) (c : ChNo) (k : Fin 16) (v : Word) : (t.putSetup c k v).woken = t.woken := rfl
@[simp] theorem Tile.putSetup_predDone (t : Tile) (c : ChNo) (k : Fin 16) (v : Word) : (t.putSetup c k v).predDone = t.predDone := rfl
@[simp] theorem Tile.putSetup_stallSince (t : Tile) (c : ChNo) (k : Fin 16) (v : Word) : (t.putSetup c k v).stallSince = t.stallSince := rfl
@[simp] theorem Tile.putSetup_loader (t : Tile) (c : ChNo) (k : Fin 16) (v : Word) : (t.putSetup c k v).loader = t.loader := rfl
@[simp] theorem Tile.putSetup_storer (t : Tile) (c : ChNo) (k : Fin 16) (v : Word) : (t.putSetup c k v).storer = t.storer := rfl
@[simp] theorem Tile.putSetup_tlb (t : Tile) (c : ChNo) (k : Fin 16) (v : Word) : (t.putSetup c k v).tlb = t.tlb := rfl
@[simp] theorem Tile.putSetup_saved (t : Tile) (c : ChNo) (k : Fin 16) (v : Word) : (t.putSetup c k v).saved = t.saved := rfl
@[simp] theorem Tile.putSetup_peerLost (t : Tile) (c : ChNo) (k : Fin 16) (v : Word) : (t.putSetup c k v).peerLost = t.peerLost := rfl
@[simp] theorem Tile.putSetup_badRows (t : Tile) (c : ChNo) (k : Fin 16) (v : Word) : (t.putSetup c k v).badRows = t.badRows := rfl
@[simp] theorem Tile.putSetup_badAcc (t : Tile) (c : ChNo) (k : Fin 16) (v : Word) : (t.putSetup c k v).badAcc = t.badAcc := rfl
@[simp] theorem Tile.putSetup_sregs (t : Tile) (c : ChNo) (k : Fin 16) (v : Word) : (t.putSetup c k v).sregs = t.sregs := rfl
@[simp] theorem Tile.putSetup_preds (t : Tile) (c : ChNo) (k : Fin 16) (v : Word) : (t.putSetup c k v).preds = t.preds := rfl
@[simp] theorem Tile.putSetup_pass (t : Tile) (c : ChNo) (k : Fin 16) (v : Word) : (t.putSetup c k v).pass = t.pass := rfl
@[simp] theorem Tile.putSetup_feed (t : Tile) (c : ChNo) (k : Fin 16) (v : Word) : (t.putSetup c k v).feed = t.feed := rfl
@[simp] theorem Tile.putSetup_rrb (t : Tile) (c : ChNo) (k : Fin 16) (v : Word) : (t.putSetup c k v).rrb = t.rrb := rfl
@[simp] theorem Tile.putSetup_grid (t : Tile) (c : ChNo) (k : Fin 16) (v : Word) : (t.putSetup c k v).grid = t.grid := rfl
@[simp] theorem Tile.putSetup_tags (t : Tile) (c : ChNo) (k : Fin 16) (v : Word) : (t.putSetup c k v).tags = t.tags := rfl
@[simp] theorem Tile.putSetup_lcr (t : Tile) (c : ChNo) (k : Fin 16) (v : Word) : (t.putSetup c k v).lcr = t.lcr := rfl
@[simp] theorem Tile.putSetup_bmr (t : Tile) (c : ChNo) (k : Fin 16) (v : Word) : (t.putSetup c k v).bmr = t.bmr := rfl
@[simp] theorem Tile.putSetup_pv (t : Tile) (c : ChNo) (k : Fin 16) (v : Word) : (t.putSetup c k v).pv = t.pv := rfl
@[simp] theorem Tile.putSetup_xpend (t : Tile) (c : ChNo) (k : Fin 16) (v : Word) : (t.putSetup c k v).xpend = t.xpend := rfl
@[simp] theorem Tile.putSetup_xrd (t : Tile) (c : ChNo) (k : Fin 16) (v : Word) : (t.putSetup c k v).xrd = t.xrd := rfl
@[simp] theorem Tile.putSetup_handles (t : Tile) (c : ChNo) (k : Fin 16) (v : Word) : (t.putSetup c k v).handles = t.handles := rfl
@[simp] theorem Tile.putSetup_mat (t : Tile) (c : ChNo) (k : Fin 16) (v : Word) : (t.putSetup c k v).mat = t.mat := rfl
@[simp] theorem Tile.putSetup_queues (t : Tile) (c : ChNo) (k : Fin 16) (v : Word) : (t.putSetup c k v).queues = t.queues := rfl
@[simp] theorem Tile.putSetup_cld (t : Tile) (c : ChNo) (k : Fin 16) (v : Word) : (t.putSetup c k v).cld = t.cld := rfl
@[simp] theorem Tile.putSetup_cst (t : Tile) (c : ChNo) (k : Fin 16) (v : Word) : (t.putSetup c k v).cst = t.cst := rfl
@[simp] theorem Tile.putSetup_ccp (t : Tile) (c : ChNo) (k : Fin 16) (v : Word) : (t.putSetup c k v).ccp = t.ccp := rfl
@[simp] theorem Tile.putSetup_ctl (t : Tile) (c : ChNo) (k : Fin 16) (v : Word) : (t.putSetup c k v).ctl = t.ctl := rfl
@[simp] theorem Tile.putSetup_maps (t : Tile) (c : ChNo) (k : Fin 16) (v : Word) : (t.putSetup c k v).maps = t.maps := rfl

end Sys2Proof.Machine
end

