-- ==== Sys2Proof/Laws/Traps.lean ====
section
/-! SUPPORT. Recording a cause leaves what delivering it reads. -/

namespace Sys2Proof.Machine

/-- The region that holds a policy field depends on memory alone (R10). -/
theorem holder_congr {s u : State} (h : u.mem = s.mem) (b n r : Nat) : holder u b n r = holder s b n r := by
  induction n generalizing r with
  | zero => simp only [holder]
  | succ n ih =>
    simp only [holder, rcbParent, inherits, rcbWord, h, ih]
    rfl

/-- Recording a cause leaves the fault domain's entry (R395). -/
theorem State.fdWord_record (s : State) (i : TrapInfo) (n : Nat) :
    (s.mapTile fun t => (t.settle).record i).fdWord n = s.fdWord n := by
  have ht : (s.mapTile fun t => (t.settle).record i).team = s.team := by
    simp only [State.team, State.mapTile_tile, State.mapTile_teams, Tile.record_task, Tile.settle_task, State.findTeam]
  have hh := fun r => holder_congr (s := s) (u := s.mapTile fun t => (t.settle).record i) rfl 5 treeDepth r
  simp only [State.fdWord, State.fdEntry, ht, State.mapTile_mem, State.mapTile_parts, faultDomain, rcbWord, hh]

/-- Recording a cause leaves the privilege level. -/
theorem State.priv_record (s : State) (i : TrapInfo) :
    (s.mapTile fun t => (t.settle).record i).tile.priv = s.tile.priv := by simp

end Sys2Proof.Machine
end

