-- ==== Sys2Proof/Laws/Vector.lean ====
section
/-! SUPPORT. What the shared operations of the vector slot come to: the tag checks pass, a row is sent. -/

namespace Sys2Proof

open Machine

/-- The check of one source passes (R224). -/
theorem srcTags_one {t : Tile} {a : GridOp} {ok : Nat → Bool} {x : Fin 16} (h : t.tag a = some x) (hx : ok x.val = true) :
    t.srcTags [(a, ok)] = .ok [x.val] := by
  simp [Tile.srcTags, h, hx]

/-- The check of two sources passes (R224). -/
theorem srcTags_two {t : Tile} {a b : GridOp} {f g : Nat → Bool} {x y : Fin 16} (h : t.tag a = some x) (hx : f x.val = true)
    (h' : t.tag b = some y) (hy : g y.val = true) : t.srcTags [(a, f), (b, g)] = .ok [x.val, y.val] := by
  simp [Tile.srcTags, h, hx, h', hy]

/-- The check of three sources passes (R224). -/
theorem srcTags_three {t : Tile} {a b d : GridOp} {f g k : Nat → Bool} {x y z : Fin 16} (h : t.tag a = some x)
    (hx : f x.val = true) (h' : t.tag b = some y) (hy : g y.val = true) (h'' : t.tag d = some z) (hz : k z.val = true) :
    t.srcTags [(a, f), (b, g), (d, k)] = .ok [x.val, y.val, z.val] := by
  simp [Tile.srcTags, h, hx, h', hy, h'', hz]

/-- A lane function of one row, lane by lane. -/
theorem map1_eq (f : Cell → Cell) (a : Row) : map1 f a = Vector.ofFn fun k : Fin 64 => f a[k] := by
  ext i hi; simp [map1]

/-- A lane function of two rows, lane by lane. -/
theorem map2_eq (f : Cell → Cell → Cell) (a b : Row) : map2 f a b = Vector.ofFn fun k : Fin 64 => f a[k] b[k] := rfl

/-- A grid slot whose sources pass and whose body sends a row sends it (R224, R225). -/
theorem sendsRow_of_body {s : State} {cls : Nat} {l : List (GridOp × (Nat → Bool))} {ex : Tile → List Site}
    {body : Ctx → State → List Nat → SlotR} {tags : List Nat} {i : Instr} {d : GridOp} {tag lat : Nat} {v w : Row}
    (hx : exec i s = .next (issue1 s (slotOf i))) (hs : slotOf i = gridSlot cls l ex body)
    (ht : s.tile.srcTags l = .ok tags) (hb : body s.alone s tags = rowOut s.alone s d tag w lat) (hv : w = v) :
    SendsRow s i d tag v lat := by
  subst hv
  intro h hd
  refine does_of_run hx h ?_ rfl rfl
  rw [hs]
  simp only [gridSlot, Ctx.pre, ht, hb, rowOut, hd]; rfl

end Sys2Proof
end

