-- ==== Sys2Proof/Machine/Windows.lean ====
section
/-! DEFINITION. What software reads outside the tiles: a tile's aperture (R410), the blocks of clusters and partitions (R411, R429,
R441, R445), the team tables (R411), the registers of dies, links, ports, functions, queues and of the package. A place without a
register reads as 0 (R67). -/

namespace Sys2Proof.Machine

/-- The n-th little-endian word of some bytes. -/
def wordAt (l : List Byte) (n : Nat) : Word := BitVec.ofNat 64 (leNat ((l.drop (8 * n)).take 8))

/-- A flag at a bit of a word. -/
def bitAt (b : Bool) (k : Nat) : Nat := b.toNat * 2 ^ k

/-! ## Tiles -/

/-- The live image of the focus tile, as its aperture shows it (R406, R410). -/
def State.liveImage (s : State) : List Byte := (s.image []).1

/-- An aligned word of a tile's aperture (R410): scratchpad, control window, live image from offset 0x40 to the array area's end. -/
def State.peek (s : State) (off : Nat) : Word :=
  if off + 8 ≤ spEnd then BitVec.ofNat 64 (leNat (s.spBytes off 8))
  else if off < 0x200000 then 0
  else if off < 0x300000 then s.csrRead ((off - 0x200000) / 8)
  else
    let o := off - 0x300000
    if 0x40 ≤ o ∧ o + 8 ≤ arrayOff + asz then wordAt s.liveImage (o / 8) else 0

/-- What a read of a tile's aperture returns (R410). -/
def State.apertureRead (s : State) (i : TileId) (off : Nat) : Word := (s.focus i).peek (off / 8 * 8)

/-! ## Clusters -/

/-- A semaphore's word (R411). -/
def Sem.word (x : Sem) : Word := BitVec.ofNat 64 (bitAt x.granted 63 + x.team.val * 2 ^ 32 + x.val.val)

/-- A monitor entry's words: address, size, owning task, given by its team and its tile. DESIGN CHOICE (log 51): the spec names what
an entry holds and not where it lies in the entry. -/
def Monitor.words (m : Monitor) : List Word :=
  [BitVec.ofNat 64 m.addr, BitVec.ofNat 64 m.size, BitVec.ofNat 64 (m.team.val * 2 ^ 32 + m.tile.cl.val * 2 ^ 8 + m.tile.tn.val)]

/-- STATE of CLKV (R429). -/
def ClkState.code (x : ClkState) : Nat :=
  match x with
  | .running => 0
  | .hopping => 1
  | .calibrating => 2
  | .retention => 3
  | .quarantine => 4
  | .off => 5

/-- CLKV (R429). -/
def Cluster.clkv (c : Cluster) : Word :=
  BitVec.ofNat 64 (c.freq % 256 * 2 ^ 56 + c.volt % 4096 * 2 ^ 44 + c.temp.toNat * 2 ^ 36 + c.state.code * 2 ^ 33
    + c.droops.toNat * 2 ^ 16 + c.aborts.toNat)

/-- KCTL (R429). -/
def Cluster.kctl (c : Cluster) : Word :=
  BitVec.ofNat 64 (bitAt c.reten 9 + bitAt c.calib 8 + bitAt c.canary 7 + c.fcap % 128)

/-- The word at an offset of a cluster's block (R411, R429, R445). -/
def Cluster.block (c : Cluster) (off : Nat) : Word :=
  if h : off / 8 < 64 then (c.sems[off / 8]).word
  else if off < 0x400 then
    ((c.monitors[(off - 0x200) / 64]?).bind fun m => m.words[(off % 64) / 8]?).getD 0
  else
    match off with
    | 0x400 => c.clkv
    | 0x408 => c.kctl
    | 0x500 => c.sramce
    | 0x508 => c.sramue
    | 0x510 => c.parity
    | 0x518 => c.replays
    | 0x520 => c.storms
    | _ => 0

/-! ## Dies -/

/-- The teams whose headers a die's team table shows: those on their tiles or halted, in the order of their lists. DESIGN CHOICE
(log 51): the spec gives no order. -/
def State.tableTeams (s : State) (d : DieNo) : List Team := s.teams.filter fun k => dieOf k.home == d && !k.swapped

/-- The word at an offset of a die's team table, 4 KiB per team (R408, R411). -/
def State.teamTable (s : State) (d : DieNo) (off : Nat) : Word :=
  (((s.tableTeams d)[off / 4096]?).map fun k => wordAt k.header (off % 4096 / 8)).getD 0

/-- HALTCTL (R403), NAKCFG (R416), CTXPOOLUSE (R404). -/
def Die.haltctl (d : Die) : Word := BitVec.ofNat 64 (bitAt d.haltBusy 61 + d.haltResult.toNat * 2 ^ 59 + d.haltTeam.val)
def Die.nakcfg (d : Die) : Word := BitVec.ofNat 64 (d.nakLimit.val * 2 ^ 16 + d.nakBkoff.toNat)
def Die.ctxpooluse (d : Die) : Word := BitVec.ofNat 64 (d.pool.foldl (fun n p => n + p.units) 0 % 2 ^ 32)

/-! ## Partitions -/

/-- TLBSTAT, MIGCFG, MIGSTAT, PCFG, PSTAT (R381, R389, R441). -/
def Partition.tlbstat (p : Partition) : Word := BitVec.ofNat 64 (bitAt p.inv.isSome 63 + p.invDone.toNat)
def Partition.migcfg (p : Partition) : Word := BitVec.ofNat 64 (p.miglog.toNat * 2 ^ 16 + p.migthr.toNat)
def Partition.migstat (p : Partition) : Word := BitVec.ofNat 64 (bitAt p.migovf 63 + p.migdrops.toNat)
def Partition.pcfg (p : Partition) : Word := BitVec.ofNat 64 (bitAt p.port 48 + p.clu.toNat)
def Partition.pstat (p : Partition) : Word :=
  BitVec.ofNat 64 (bitAt p.draining 62 + p.result.toNat * 2 ^ 60 + p.done.toNat)

/-- The word at an offset of a partition's block (R441). -/
def State.partBlock (s : State) (n : PartNo) (off : Nat) : Word :=
  let p := s.parts[n.val]
  match off with
  | 0x00 => p.ptroot
  | 0x10 => p.tlbstat
  | 0x20 => p.migcfg
  | 0x28 => p.migbase
  | 0x30 => p.mighead.setWidth 64
  | 0x38 => p.migtail.setWidth 64
  | 0x40 => p.migstat
  | 0x50 => p.hmbase
  | 0x100 => p.pcfg
  | 0x118 => p.pstat
  | 0x120 => p.fdbase
  | 0x180 => p.ltcfg
  | 0x188 => p.ltord
  | 0x190 => (s.ltwin n).setWidth 64
  | _ => 0

/-! ## Links, ports, functions, queues -/

/-- A selection register (R372, R414, R421). -/
def Sel.word (x : Sel) : Word :=
  BitVec.ofNat 64 (x.major.toNat * 2 ^ 48 + x.minor.toNat * 2 ^ 40 + bitAt x.ack 32 + x.feat.toNat)

/-- LINKST (R414). -/
def Link.word (x : Link) : Word :=
  BitVec.ofNat 64 (bitAt x.up 63 + bitAt x.repaired 62 + x.retries.toNat * 2 ^ 32 + x.downs.toNat)

/-- SXST (R423). -/
def Port.word (x : Port) : Word :=
  BitVec.ofNat 64 (bitAt x.up 63 + x.minor.toNat * 2 ^ 48 + x.peer.toNat * 2 ^ 29 + x.feat.toNat)

/-- HIFSEL and FNMAP of a function (R372, R443). -/
def Fn.hifsel (f : Fn) : Word := (⟨f.major, f.minor, f.ack, f.feat⟩ : Sel).word
def Fn.map (f : Fn) : Word := BitVec.ofNat 64 (bitAt f.valid 63 + f.part.toNat * 2 ^ 48 + f.nq.toNat)

/-- The word at an offset of a queue's registers (R352); the teardown bits stand until the acknowledgement. -/
def State.queueWord (s : State) (f : FnNo) (q : QueueNo) (off : Nat) : Word :=
  let x := s.queue f q
  let t := s.tearing.find? fun t => t.fn == f && t.q == q
  match off with
  | 0x00 => x.base
  | 0x08 => x.log.setWidth 64
  | 0x10 => BitVec.ofNat 64 x.tail.val
  | 0x18 => BitVec.ofNat 64 x.head.val
  | 0x20 =>
    BitVec.ofNat 64 (bitAt x.enable 63 + bitAt (t.any (·.reset)) 2 + bitAt (t.any (·.abort)) 1 + bitAt t.isSome 0)
  | 0x28 => x.ack
  | 0x30 => x.snap
  | 0x38 => x.snapsz.setWidth 64
  | _ => 0

/-! ## The package -/

/-- PWRCFG and PWRNOW (R439): TMAX is the hottest cluster's temperature, THROT the clusters held below their clock. -/
def Power.pwrcfg (p : Power) : Word := BitVec.ofNat 64 (p.pwrlim * 2 ^ 52 + p.tjmax % 256 * 2 ^ 44 + p.inmax % 16 * 2 ^ 40)
def State.pwrnow (s : State) : Word :=
  let p := s.power
  let tmax := s.clusters.toList.foldl (fun m c => max m c.temp.toNat) 0
  let throt := (s.clusters.toList.filter fun c => c.held.isSome).length
  BitVec.ofNat 64 (p.watts % 4096 * 2 ^ 52 + tmax * 2 ^ 44 + throt * 2 ^ 32 + p.evtail.toNat)

/-- A word of Kiln's event ring (R440). -/
def State.kilnEvent (s : State) (i : Fin 256) (w : Fin 2) : Word := (s.power.events[i.val])[w.val]

/-- The words of a cluster's table record (R434). -/
def KRecord.words (r : KRecord) (c : ClusterNo) : List Word :=
  let w0 := 2 ^ 56 + c.val * 2 ^ 50 + r.mode.toNat * 2 ^ 48 + r.guard.toNat * 2 ^ 32 + r.hours.toNat
  let v := fun (n : Nat) => leNat ((List.range 4).flatMap fun a => leBytes (r.vmin[4 * n + a]!).toNat 2)
  ([w0, r.drift.toNat * 2 ^ 48 + r.time.toNat] ++ (List.range 8).map v).map (BitVec.ofNat 64) ++ r.sigref.toList

/-- ATTSTAT and ATTKEY (R449). -/
def State.attstat (s : State) : Word :=
  let a := s.attest
  BitVec.ofNat 64 (bitAt a.busy 63 + bitAt a.done 62 + bitAt a.refused 61 + s.nvs.idKey.left % 2 ^ 21)
def State.attkey (s : State) (d : DieNo) : Word := BitVec.ofNat 64 ((s.nvs.dieKeys[d.val]).left % 2 ^ 21)

/-- What a register that software may write reads as. -/
def State.regRead (s : State) (r : MReg) : Word :=
  match r with
  | .ptroot p => s.partBlock p 0x00
  | .hmbase p => s.partBlock p 0x50
  | .migcfg p => s.partBlock p 0x20
  | .migbase p => s.partBlock p 0x28
  | .mighead p => s.partBlock p 0x30
  | .migstat p => s.partBlock p 0x40
  | .fdbase p => s.partBlock p 0x120
  | .ltcfg p => s.partBlock p 0x180
  | .ltord p => s.partBlock p 0x188
  | .pcfg p => s.partBlock p 0x100
  | .kctl c => (s.clusters[c.val]).kctl
  | .pwrcfg => s.power.pwrcfg
  | .nakcfg d => (s.dies[d.val]).nakcfg
  | .wdjob d e w => ((s.dies[d.val]).wdjob[e.val])[w.val]
  | .bindSlot d i w => ((s.dies[d.val]).slots[i.val])[w.val]
  | .routerSlot d r o k => ((s.dies[d.val]).router.get (512 * r.val + 64 * o.val + k.val)).setWidth 64
  | .ctxpool d => (s.dies[d.val]).ctxpool
  | .ctxpoolsz d => (s.dies[d.val]).ctxpoolsz.setWidth 64
  | .haltctl d => (s.dies[d.val]).haltctl
  | .d2dsel l => (s.links[l.val]).sel.word
  | .sxsel p => (s.ports[p.val]).sel.word
  | .sxroute d => s.routes[d.val]
  | .fnmap f => (s.fns[f.val]).map
  | .qbase f q => s.queueWord f q 0x00
  | .qlog f q => s.queueWord f q 0x08
  | .qctl f q => s.queueWord f q 0x20
  | .qack f q => s.queueWord f q 0x28
  | .qsnap f q => s.queueWord f q 0x30
  | .qsnapsz f q => s.queueWord f q 0x38
  | .attNonce _ | .attBuf => 0

end Sys2Proof.Machine
end

