-- ==== Sys2Proof/Tests/Slice0.lean ====
section
/-! SUPPORT. Tests: words of every instruction, written from the encoding tables of spec/ (the opcode table, R174 to R197,
R273); terms that no encoding carries; for every statement a machine and operands that meet its premises. -/

namespace Sys2Proof.Tests

open Machine

set_option Elab.async false

/-! ## Words -/

/-- Control words, field by field from the top bit down (R192). -/
def wordsControl : List (Nat × Instr) :=
  [ (0b1_001_000000_00000_0110_1111111111101, .brp 6 (-3)),
    (0b1_001_000001_00000_0110_1111111111101, .brnp 6 (-3)),
    (0b1_001_000010_000000000_1111111111101, .jmpWord (-3)),
    (0b1_001_000011_000000000_1111111111101, .jmpBlock (-3)),
    (0b1_001_000100_10110_0000_1111111111101, .jmpi 22 (-3)),
    (0b1_001_000100_10110_00010000000000000, .jmpiB 22),
    (0b1_001_000101_10110_0000_1111111111101, .callb 22 (-3)),
    (0b1_001_000110_10110_00000000000000000, .retb 22),
    (0b1_001_000111_000000000_1111111111101, .loopb (-3)),
    (0b1_001_001000_10110_0000_1111111111101, .lsetPass 22 (-3)),
    (0b1_001_001000_10110_0001_1111111111101, .lsetFeed 22 (-3)),
    (0b1_001_001000_000000010_0001011101101, .lsetRrb 749),
    (0b1_001_001000_000000011_0001011101101, .lsetStg 749),
    (0b1_001_001001_10110_01101_11001_00111_00, .wait 22 13 25 7),
    (0b1_001_001010_101101_10110101_00000_000, .semw 45 181 0),
    (0b1_001_001011_101101_10110101_00000_000, .sems 45 181 0),
    (0b1_001_001100_101101_10110101_11001_000, .semt 45 181 25),
    (0b1_001_001101_0000000000000000000000, .bara),
    (0b1_001_001110_0000000000000000000000, .barw),
    (0b1_001_001111_0000000000000000000000, .barr),
    (0b1_001_010000_011_01101_00000000000000, .phase .package 13),
    (0b1_001_010001_011_01101_00000000000000, .fence .package 13),
    (0b1_001_010010_10110_01101_11001_0000000, .spawn 22 13 25),
    (0b1_001_010011_0000000000000000000000, .yield) ] ++
  [ (0b1_001_010100_0000000000000000000000, .retire),
    (0b1_001_010101_0000000000001011101101, .trap 749),
    (0b1_001_010110_0000000000000000000000, .pcommit),
    (0b1_001_111000_10110_00000_001011011001, .csrr 22 729),
    (0b1_001_111001_10110_01101_001011110110, .csrw 22 13 758),
    (0b1_001_111010_0000000000000000000000, .tret),
    (0b1_001_111011_10110_01101_11001_0000000, .ctxs 22 13 25),
    (0b1_001_111100_10110_01101_11001_0000000, .ctxl 22 13 25) ]

/-- Each decodes to its instruction, and encode gives it back. -/
theorem test_words_control :
    (wordsControl.all fun p => decodeTableWord 32 p.1 == some p.2 && p.2.wf && encode p.2 == some [p.1]) = true := by
  decide +kernel

/-- Scalar words, field by field from the top bit down (R193). -/
def wordsScalar : List (Nat × Instr) :=
  [ (0b1_010_000000_10110_01101_11001_0000000, .add 22 13 25),
    (0b1_010_000001_10110_01101_11001_0000000, .sub 22 13 25),
    (0b1_010_000010_10110_01101_11001_0000000, .mul 22 13 25),
    (0b1_010_000011_10110_01101_11001_0000000, .mulh 22 13 25),
    (0b1_010_000100_10110_01101_11001_0000000, .mulhu 22 13 25),
    (0b1_010_000101_10110_01101_11001_0000000, .and 22 13 25),
    (0b1_010_000110_10110_01101_11001_0000000, .or 22 13 25),
    (0b1_010_000111_10110_01101_11001_0000000, .xor 22 13 25),
    (0b1_010_001000_10110_01101_11001_0000000, .shl 22 13 25),
    (0b1_010_001001_10110_01101_11001_0000000, .shr 22 13 25),
    (0b1_010_001010_10110_01101_11001_0000000, .sar 22 13 25),
    (0b1_010_001011_10110_01101_11001_0000000, .min 22 13 25),
    (0b1_010_001100_10110_01101_11001_0000000, .max 22 13 25),
    (0b1_010_001101_10110_01101_11001_0000000, .minu 22 13 25),
    (0b1_010_001110_10110_01101_11001_0000000, .maxu 22 13 25),
    (0b1_010_001111_10110_01101_11001_000_0111, .sel 22 13 25 7),
    (0b1_010_010000_10110_01101_000000000000, .clz 22 13),
    (0b1_010_010001_10110_01101_000000000000, .popc 22 13),
    (0b1_010_010010_10110_01101_11001_111_1010, .lea 22 13 25 7 10),
    (0b1_010_010011_100_1101_11001_00111_00000, .cmp .ltu 13 25 7),
    (0b1_010_100000_10110_01101_111111111101, .addi 22 13 (-3)),
    (0b1_010_100001_10110_01101_111111111101, .andi 22 13 (-3)),
    (0b1_010_100010_10110_01101_001011110110, .ori 22 13 758),
    (0b1_010_100011_10110_01101_001011110110, .xori 22 13 758) ] ++
  [ (0b1_010_100100_10110_01101_000000100101, .shli 22 13 37),
    (0b1_010_100101_10110_01101_000000100101, .shri 22 13 37),
    (0b1_010_100110_10110_01101_000000100101, .sari 22 13 37),
    (0b1_010_100111_001_1101_11001_0000000101, .cmpi .ne 13 25 5),
    (0b1_010_101000_10110_11111111111111101, .li 22 (-3)),
    (0b1_010_110000_0110_1101_1001_0000000000, .pand 6 13 9),
    (0b1_010_110001_0110_1101_1001_0000000000, .por 6 13 9),
    (0b1_010_110010_0110_1101_00000000000000, .pnot 6 13),
    (0b1_010_110011_0110_1101_00000000000000, .pmov 6 13) ]

/-- Each decodes to its instruction, and encode gives it back. -/
theorem test_words_scalar :
    (wordsScalar.all fun p => decodeTableWord 32 p.1 == some p.2 && p.2.wf && encode p.2 == some [p.1]) = true := by
  decide +kernel

/-- Vector words, field by field from the top bit down (R194). -/
def wordsVector : List (Nat × Instr) :=
  [ (0b1_011_000000_0110110_1001101_1111001_0, .fadd ⟨.v, 22⟩ ⟨.d, 13⟩ ⟨.a, 25⟩),
    (0b1_011_000001_0110110_1001101_1111001_0, .fsub ⟨.v, 22⟩ ⟨.d, 13⟩ ⟨.a, 25⟩),
    (0b1_011_000010_0110110_1001101_1111001_0, .fmul ⟨.v, 22⟩ ⟨.d, 13⟩ ⟨.a, 25⟩),
    (0b1_011_000011_0110110_1001101_1111001_0, .fma ⟨.v, 22⟩ ⟨.d, 13⟩ ⟨.a, 25⟩),
    (0b1_011_000100_0110110_1001101_1111001_0, .fnma ⟨.v, 22⟩ ⟨.d, 13⟩ ⟨.a, 25⟩),
    (0b1_011_000101_0110110_1001101_1111001_0, .fmax ⟨.v, 22⟩ ⟨.d, 13⟩ ⟨.a, 25⟩),
    (0b1_011_000110_0110110_1001101_1111001_0, .fmin ⟨.v, 22⟩ ⟨.d, 13⟩ ⟨.a, 25⟩),
    (0b1_011_000111_0110110_1001101_00000000, .fabs ⟨.v, 22⟩ ⟨.d, 13⟩),
    (0b1_011_001000_0110110_1001101_00000000, .fneg ⟨.v, 22⟩ ⟨.d, 13⟩),
    (0b1_011_001001_011_1101_1111001_0010110_1, .fcmp .le 13 ⟨.a, 25⟩ ⟨.h, 22⟩ true),
    (0b1_011_001010_0110110_1001101_1111001_0, .fsel ⟨.v, 22⟩ ⟨.d, 13⟩ ⟨.a, 25⟩),
    (0b1_011_001011_0110110_1001101_00000000, .frcp ⟨.v, 22⟩ ⟨.d, 13⟩),
    (0b1_011_001100_0110110_1001101_00000000, .frsq ⟨.v, 22⟩ ⟨.d, 13⟩),
    (0b1_011_001101_0110110_1001101_00000000, .fexp2 ⟨.v, 22⟩ ⟨.d, 13⟩),
    (0b1_011_010000_0110110_1001101_1111001_0, .vadd ⟨.v, 22⟩ ⟨.d, 13⟩ ⟨.a, 25⟩),
    (0b1_011_010001_0110110_1001101_1111001_0, .vsub ⟨.v, 22⟩ ⟨.d, 13⟩ ⟨.a, 25⟩),
    (0b1_011_010010_0110110_1001101_1111001_0, .vmul ⟨.v, 22⟩ ⟨.d, 13⟩ ⟨.a, 25⟩),
    (0b1_011_010011_0110110_1001101_1111001_1, .vmulh ⟨.v, 22⟩ ⟨.d, 13⟩ ⟨.a, 25⟩ true),
    (0b1_011_010100_0110110_1001101_1111001_0, .vand ⟨.v, 22⟩ ⟨.d, 13⟩ ⟨.a, 25⟩),
    (0b1_011_010101_0110110_1001101_1111001_0, .vor ⟨.v, 22⟩ ⟨.d, 13⟩ ⟨.a, 25⟩),
    (0b1_011_010110_0110110_1001101_1111001_0, .vxor ⟨.v, 22⟩ ⟨.d, 13⟩ ⟨.a, 25⟩),
    (0b1_011_010111_0110110_1001101_000_11001, .vshl ⟨.v, 22⟩ ⟨.d, 13⟩ 25),
    (0b1_011_011000_0110110_1001101_000_11001, .vshr ⟨.v, 22⟩ ⟨.d, 13⟩ 25),
    (0b1_011_011001_0110110_1001101_000_11001, .vsar ⟨.v, 22⟩ ⟨.d, 13⟩ 25) ] ++
  [ (0b1_011_011010_0110110_1001101_1111001_1, .vmin ⟨.v, 22⟩ ⟨.d, 13⟩ ⟨.a, 25⟩ true),
    (0b1_011_011011_0110110_1001101_1111001_1, .vmax ⟨.v, 22⟩ ⟨.d, 13⟩ ⟨.a, 25⟩ true),
    (0b1_011_011100_100_1101_1111001_0010110_1, .vcmp .ltu 13 ⟨.a, 25⟩ ⟨.h, 22⟩ true),
    (0b1_011_011101_0110110_1001101_1111001_0, .vsel ⟨.v, 22⟩ ⟨.d, 13⟩ ⟨.a, 25⟩),
    (0b1_011_011110_0110110_1001101_00000000, .vabs ⟨.v, 22⟩ ⟨.d, 13⟩),
    (0b1_011_011111_0110110_1001101_00_1_00111, .vsat ⟨.v, 22⟩ ⟨.d, 13⟩ true 7),
    (0b1_011_100000_0010110_1001101_0_001_0100, .cvt ⟨.h, 22⟩ ⟨.d, 13⟩ 1 4),
    (0b1_011_100001_0110110_1001101_001_00111, .dqn ⟨.v, 22⟩ ⟨.d, 13⟩ 1 7),
    (0b1_011_100010_0110110_1001101_00000_1_00, .bmax ⟨.v, 22⟩ ⟨.d, 13⟩ true),
    (0b1_011_100011_0110110_1001101_1_0111_1_01, .scsel ⟨.v, 22⟩ ⟨.d, 13⟩ true 7 true .e5m2),
    (0b1_011_100100_0110110_1001101_0000_0100, .tag ⟨.v, 22⟩ ⟨.d, 13⟩ 4),
    (0b1_011_100101_0110110_1001101_1111001_0, .vperm ⟨.v, 22⟩ ⟨.d, 13⟩ ⟨.a, 25⟩),
    (0b1_011_100110_0110110_1001101_00_110110, .vrot ⟨.v, 22⟩ ⟨.d, 13⟩ 54),
    (0b1_011_100111_0110110_01101_000000_0100, .vbcst ⟨.v, 22⟩ 13 4),
    (0b1_011_101000_0110110_1001101_00000000, .vmov ⟨.v, 22⟩ ⟨.d, 13⟩),
    (0b1_011_101001_1001101_1111001_00000_010, .vred .fmin ⟨.d, 13⟩ ⟨.a, 25⟩),
    (0b1_011_101010_0110110_000000000000_101, .qpop ⟨.v, 22⟩ 5),
    (0b1_011_101011_0110110_1001101_00000_011, .spk ⟨.v, 22⟩ ⟨.d, 13⟩ 3),
    (0b1_011_101100_0110110_1001101_00000_011, .spx ⟨.v, 22⟩ ⟨.d, 13⟩ 3) ]

/-- Each decodes to its instruction, and encode gives it back. -/
theorem test_words_vector :
    (wordsVector.all fun p => decodeTableWord 32 p.1 == some p.2 && p.2.wf && encode p.2 == some [p.1]) = true := by
  decide +kernel

/-- Memory words, field by field from the top bit down (R195). -/
def wordsMemory : List (Nat × Instr) :=
  [ (0b1_100_000000_01101_11001_10_1111111101, .lds .w 13 25 (-3)),
    (0b1_100_000001_01101_11001_10_1111111101, .sts .w 13 25 (-3)),
    (0b1_100_000010_0110110_01101_1111111101, .ldv ⟨.v, 22⟩ 13 (-3)),
    (0b1_100_000011_0110110_01101_1111111101, .stv ⟨.v, 22⟩ 13 (-3)),
    (0b1_100_000100_00_10110_01101_1111111101, .ldtt 22 13 (-3)),
    (0b1_100_000101_0110110_01101_1111111101, .stbp ⟨.v, 22⟩ 13 (-3)),
    (0b1_100_000110_0110110_01101_1111111101, .ldbp ⟨.v, 22⟩ 13 (-3)),
    (0b1_100_001000_01101_00000_0110_00000000, .hset 6 13),
    (0b1_100_001001_01101_00000_0110_00000000, .hget 6 13),
    (0b1_100_001010_0000000000000000000000, .spfence),
    (0b1_100_001011_01101_11001_0110_00000000, .bufacq 6 13 25),
    (0b1_100_001100_00000_00000_0110_1001_0000, .bufpub 6 0 9),
    (0b1_100_001101_01101_11001_0110_00000000, .buftake 6 13 25),
    (0b1_100_001110_00000_00000_0110_1001_0000, .buffree 6 0 9),
    (0b1_100_001111_01101_00000_0110_00000000, .bufq 6 13),
    (0b1_100_010000_01101_00000_0110_00000000, .mapw 6 13),
    (0b1_100_010001_0000000000_0110_00000000, .mapf 6),
    (0b1_100_010010_0000000000_0110_00000000, .mapi 6),
    (0b1_100_010010_0000000000_0110_00010000, .mapiDiscard 6),
    (0b1_100_010011_01101_000000_110_00000000, .qst 6 13),
    (0b1_100_010011_01101_000000_110_00010000, .qstHalf 6 13),
    (0b1_100_011000_10110_01101_10_011_01010_1_0, .aadd 22 13 .acq .package 10 true),
    (0b1_100_011001_10110_01101_10_011_01010_1_0, .aand 22 13 .acq .package 10 true),
    (0b1_100_011010_10110_01101_10_011_01010_1_0, .aor 22 13 .acq .package 10 true) ] ++
  [ (0b1_100_011011_10110_01101_10_011_01010_1_1, .amin 22 13 .acq .package 10 true true),
    (0b1_100_011100_10110_01101_10_011_01010_1_1, .amax 22 13 .acq .package 10 true true),
    (0b1_100_011101_10110_01101_10_011_01010_1_0, .axch 22 13 .acq .package 10 true),
    (0b1_100_011110_10110_01101_10_011_01010_1_0, .acas 22 13 .acq .package 10 true),
    (0b1_100_011111_10110_01101_10_011_01010_1_0, .adecp 22 13 .acq .package 10 true),
    (0b1_100_100000_10110_01101_1001_000_1_0000, .waita 22 13 9 true),
    (0b1_100_100001_10110_01101_000000000000, .wake1 22 13),
    (0b1_100_100010_10110_01101_000000000000, .wakea 22 13) ]

/-- Each decodes to its instruction, and encode gives it back. -/
theorem test_words_memory :
    (wordsMemory.all fun p => decodeTableWord 32 p.1 == some p.2 && p.2.wf && encode p.2 == some [p.1]) = true := by
  decide +kernel

/-- Matrix words, field by field from the top bit down (R196). -/
def wordsMatrix : List (Nat × Instr) :=
  [ (0b1_101_0000_000000000000000000000000, .mhold),
    (0b1_101_0001_0110_00000000000000000000, .mpush 6),
    (0b1_101_0010_0110_1101_0000000000000000, .mpushS 6 13),
    (0b1_101_0011_0110_00000000000000000000, .mpushC 6),
    (0b1_101_0100_0110_1101_0000000000000000, .mpushSC 6 13),
    (0b1_101_0101_0000_0110_0000000000000000, .mshift 6),
    (0b1_101_0110_000000000000000000000000, .macc),
    (0b1_101_0111_00000000000000_0_000000000, .maccR 0),
    (0b1_101_1000_101101_101_0011_1_0000000000, .mdrain 45 5 .bf16x2 true),
    (0b1_101_1001_000000000000000000000000, .mzero),
    (0b1_101_1010_001011101101_001011011001, .msetFloat 749 729),
    (0b1_101_1011_001011101101_001011011001, .msetInt 749 729),
    (0b1_101_1100_0000_0110_0000000000000000, .msparse 6),
    (0b1_101_1101_0110_011001_1_0_111_000000000, .mremQueue 6 25 1 7),
    (0b1_101_1101_0110_011001_1_1000000000000, .mremAcc 6 25 1),
    (0b1_101_1110_000000_110_00000_1_000000000, .mskew 6 1),
    (0b1_101_1111_0110110_1001101_01_1_0000000, .qnt ⟨.v, 22⟩ ⟨.d, 13⟩ .e5m2 true) ]

/-- Each decodes to its instruction, and encode gives it back. -/
theorem test_words_matrix :
    (wordsMatrix.all fun p => decodeTableWord 32 p.1 == some p.2 && p.2.wf && encode p.2 == some [p.1]) = true := by
  decide +kernel

/-- Engine words, field by field from the top bit down (R197). -/
def wordsEngine : List (Nat × Instr) :=
  [ (0b1_110_000000_10_000_01101_11001_00111_00, .cpbase 2 13 25 7),
    (0b1_110_000001_10_101_11001_00111_01010_00, .cpnest 2 5 25 7 10),
    (0b1_110_000010_10_001_00000_11001_00111_00, .cpfoot 2 1 25 7),
    (0b1_110_000011_10_00000000000000000000, .cpgo 2),
    (0b1_110_000100_10_00000000000000000000, .cpdrain 2),
    (0b1_110_000101_10_000_01101_000000000000, .cpstat 2 13),
    (0b1_110_001000_110_011001_0000000000000, .qsend 6 25),
    (0b1_110_001001_000_101101_00000_01101_000, .csend 45 13),
    (0b1_110_001010_000_101101_00000_01101_000, .crecv 45 13),
    (0b1_110_001010_000_101101_01101_11001_001, .crecvT 45 13 25),
    (0b1_110_010000_101101_01101_11001_00111_0, .putc 45 13 25 7),
    (0b1_110_010001_101101_01101_11001_00111_0, .gred 45 13 25 7),
    (0b1_110_010010_000000_10110_01101_000000, .gjoin 22 13),
    (0b1_110_010011_000000_10110_01101_000000, .gstat 22 13),
    (0b1_110_010011_000000_10110_00000000001, .gstatErr 22),
    (0b1_110_011000_0110_1101_00000000000000, .pred 6 13),
    (0b1_110_011001_00000000_10110_000000000, .pstat 22),
    (0b1_110_011010_0110_1101_11001_000000000, .ringQuery 6 13 25),
    (0b1_110_011011_0110_1101_11001_000000000, .spxStat 6 13 25),
    (0b1_110_100000_0110_0000_01101_11001_0000, .probe 6 13 25),
    (0b1_110_100001_0110_0000_01101_11001_0000, .leaseq 6 13 25),
    (0b1_110_101000_0000_0110_00000_01101_0000, .mbxs 6 13),
    (0b1_110_101001_00000000_10110_000000000, .mbxr 22),
    (0b1_110_101001_0110_0000_01101_000000001, .mbxrT 6 13) ]

/-- Each decodes to its instruction, and encode gives it back. -/
theorem test_words_engine :
    (wordsEngine.all fun p => decodeTableWord 32 p.1 == some p.2 && p.2.wf && encode p.2 == some [p.1]) = true := by
  decide +kernel

/-- Custom-0 words, field by field from the top bit down (R273). -/
def wordsCustom : List (Nat × Instr) :=
  [ (0b000000000000_01101_000_10110_0001011, .vlRacq 22 13),
    (0b000000100000_01101_000_10110_0001011, .vlRtake 22 13),
    (0b0000010_01101_10110_000000000001011, .vlRpub 22 13),
    (0b0000011_01101_10110_000000000001011, .vlRfree 22 13),
    (0b000010000000_01101_000_10110_0001011, .vlRq 22 13),
    (0b10_01101_00000_10110_001000000001011, .vlCpset 22 13 2),
    (0b000000000000_10110_010000000001011, .vlCpgo 22),
    (0b000000100000_10110_010000000001011, .vlCpdrain 22),
    (0b0000000_01101_10110_011000000001011, .vlMbxs 22 13),
    (0b00000010000000000011_10110_0001011, .vlMbxr 22),
    (0b00000100000000000011_10110_0001011, .vlMbxt 22) ]

/-- Each decodes to its instruction, and encode gives it back. -/
theorem test_words_custom :
    (wordsCustom.all fun p => rvDecode p.1 == (4, some (.vl p.2)) && p.2.wf && encodeVl p.2 == some p.1) = true := by decide +kernel

/-- The first drain of R280's examples, MDRAIN 5, q1, fp32, 1, and its second. -/
theorem test_words_drain : decodeTableWord 32 0xD8148C00 = some (.mdrain 5 1 .fp32 true)
    ∧ decodeTableWord 32 0xD8001000 = some (.mdrain 0 0 .int32 false) := by decide +kernel

/-- A header in immediate mode lends an ADDI its upper bits: 4,096 does not fit 12 bits (R181). -/
theorem test_words_header : encode (.addi 1 2 4096) = some [0x88000001, 0x28022000]
    ∧ (decodeBundle (fun a => [0x88000001, 0x28022000, 0x80000000].getD (a / 4) 0) 0).toOption.map (·.slots)
      = some [(0, .addi 1 2 4096)] := by decide +kernel

/-! ## What decoding refuses (R175, R176, R177, R182, R186, R189, R190) -/

/-- The words at addresses 0, 4, …; behind them begin bundles. -/
def wordsAt (l : List Nat) (a : Nat) : Nat := l.getD (a / 4) 0x80000000

/-- Whether the bundle at 0 is refused for a cause. -/
def refuses (l : List Nat) (r : Reject) : Bool :=
  match decodeBundle (wordsAt l) 0 with
  | .error x => x == r
  | .ok _ => false

theorem test_rejects : refuses [0xF0000000] .illegalSlot = true            -- class 111
    ∧ refuses [0x95C00000] .illegalOpcode = true                           -- control opcode 0x17
    ∧ refuses [0xA4F80000] .illegalOpcode = true                           -- CMP with condition code 7
    ∧ refuses [0x80000001, 0x20022180] .headerMisuse = true                -- a header with bit 0 set
    ∧ refuses [0xA0022180, 0x10002000] .bundleForm = true                  -- classes that do not ascend
    ∧ refuses [0x80000000, 0xA0022180] .bundleForm = true                  -- a lone header that is no pad
    ∧ refuses [0x80000000, 0x20022180] .packetCross = false
    ∧ refuses (0x80000000 :: List.replicate 9 0x20022180) .packetCross = true := by decide +kernel

/-! ## Well-formed terms -/

/-- Terms that no encoding of the spec carries: one for each check. -/
def illFormed : List Instr :=
  [ .brp 1 (2 ^ 39), .lsetRrb (2 ^ 40), .semw 0 1 1, .semt 0 0 1, .trap (2 ^ 49), .addi 1 1 (-(2 ^ 38) - 1), .ori 1 1 (2 ^ 39),
    .shli 1 1 64, .cmpi .ltu 1 1 (-1), .cmpi .eq 1 1 (2 ^ 36), .li 1 (2 ^ 43), .cvt ⟨.h, 17⟩ ⟨.h, 1⟩ 0 12,
    .scsel ⟨.h, 1⟩ ⟨.h, 2⟩ false 0 false .e4m3, .tag ⟨.h, 1⟩ ⟨.h, 2⟩ 12, .vbcst ⟨.h, 1⟩ 1 12, .spk ⟨.h, 1⟩ ⟨.h, 2⟩ 5,
    .lds .b 1 1 (2 ^ 36), .ldv ⟨.h, 32⟩ 1 512, .ldtt 33 1 (-513), .bufpub 0 1 1, .acas 31 1 .rlx .tile 0 false,
    .cpnest 0 6 1 1 1, .cpfoot 0 2 1 1 ]

theorem test_illFormed : (illFormed.all fun i => !i.wf) = true := by decide +kernel

/-! ## A small machine -/

/-- A team of one tile at home in cluster 0. -/
def oneTeam : Team := { id := 0, rcb := 0, home := 0, part := 0, ntiles := 1, tmap := Vector.replicate 16 0, live := [0] }

/-- A cluster whose clock runs and whose semaphores belong to team 0 and hold 5. -/
def running : Cluster := { state := .running, sems := Vector.replicate 64 { val := 5, granted := true, team := 0 } }

/-- A task of team 0 on tile 0 of cluster 0, at address 16 of a block whose descriptor stands at 0; a second block, with a
wait for 2 of semaphore 1, stands at 64; the region at 0 lets its clusters run at 2,800 MHz. -/
def m0 : State :=
  { State.reset with
    tile :=
      { Tile.reset 0 0 with
        pc := 16, team := some (0, 0), task := some { team := 0, ltile := 0, lintel := true, mayspec := true } }
    clusters := State.reset.clusters.set 0 running
    teams := [oneTeam]
    parts := State.reset.parts.set 0 { ltcfg := 0x2000000000000, clu := 1 }
    mem := (((Memory.putNum [] (codeKey 0) 0x7A000003 4).putNum (codeKey 64) 0x000001027A000003 8).putNum (codeKey 20) 0xD0000000 4).putNum 11 112 1 }

/-- The small machine with its tile changed. -/
def on (f : Tile → Tile) : State := m0.mapTile f

/-- What the statements say of an instruction that has its effect is not empty: the machine goes on. -/
theorem next_of {s : State} {i : Instr} {u : State} {fx : Fx} (h : Does s i u fx) : ∃ t, exec i s = .next t := ⟨_, h⟩

/-- An instruction on a plain tile that it fits, its sources at hand, is ready. -/
theorem ready_at {s : State} {i : Instr} (h : s.tile.Plain ∧ (slotOf i).Fits s.tile
    ∧ ∀ w, w ∈ (slotOf i).reads s.tile → s.tile.outstanding w = false) : Ready s i := ready_of h.1 h.2.1 h.2.2

/-- An instruction on a plain tile that it fits, its sources at hand and sound, is clear. -/
theorem clear_at {s : State} {i : Instr} (h : s.tile.Plain ∧ (slotOf i).Fits s.tile
    ∧ ∀ w, w ∈ (slotOf i).reads s.tile → s.tile.outstanding w = false ∧ s.tile.spoilt w = false) : Clear s i :=
  clear_of h.1 h.2.1 h.2.2

/-! ## Premises that hold: scalar and control -/

theorem test_premises_scalar : Clear m0 (.add 1 2 3) ∧ Clear m0 (.sel 1 2 3 4) ∧ Clear m0 (.cmp .lt 1 2 3) ∧ Clear m0 (.pand 1 2 3) := by
  refine ⟨?_, ?_, ?_, ?_⟩ <;> exact clear_at (by decide +kernel)

theorem test_premises_frames : (∃ v t, SetsReg m0 (.add 1 2 3) 1 v ∧ exec (.add 1 2 3) m0 = .next t)
    ∧ (∃ v t, SetsPred m0 (.pand 1 2 3) 1 v ∧ exec (.pand 1 2 3) m0 = .next t)
    ∧ ∃ f fx t, Does m0 .mhold (m0.mapTile f) fx ∧ exec .mhold m0 = .next t :=
  ⟨⟨_, _, setsReg_of_run rfl rfl rfl, rfl⟩, ⟨_, _, setsPred_of_run rfl rfl rfl, rfl⟩,
    ⟨id, {}, _, does_of_run rfl (clear_at (by decide +kernel)) rfl rfl rfl, rfl⟩⟩

theorem test_premises_branches : Clear m0 (.brp 1 1) ∧ m0.tile.pred 1 = false ∧ m0.tile.pred 0 = true
    ∧ m0.wordTarget (pcPlus m0.tile.pc (4 * 1)) = none ∧ m0.wordTarget (m0.tile.addr 0 20) = none
    ∧ m0.blockTarget (pcPlus 0 (64 * 1)) = none ∧ (on fun t => t.setSreg 1 64).blockTarget 64 = none
    ∧ (m0.codeWord (pcPlus m0.tile.pc (4 * 2))).testBit 31 = false
    ∧ isDescriptor (m0.tile.sreg 1).toNat (m0.codeWord 0) = true ∧ isDescriptor 16 (m0.codeWord 16) = false
    ∧ (m0.mapTile fun t => t.write (.sreg 1) 64).blockTarget 64 = none := by
  refine ⟨clear_at (by decide +kernel), ?_⟩; decide +kernel

/-- Targets that are no bundle and no block, and the branches and transfers to them. -/
theorem test_premises_branchTraps : m0.tile.addr 0 24 = 24 ∧ (m0.codeWord 24).testBit 31 = false ∧ isDescriptor 128 (m0.codeWord 128) = false
    ∧ ((on fun t => t.setSreg 1 16).tile.sreg 1).toNat = 16 ∧ isDescriptor 16 ((on fun t => t.setSreg 1 16).codeWord 16) = false
    ∧ Clear m0 (.jmpWord 2) ∧ Clear m0 (.brp 0 2) ∧ Clear m0 (.brnp 1 2) ∧ Clear (on fun t => { t with pass := 1 }) (.loopb 2)
    ∧ Clear m0 (.jmpi 0 24) ∧ Clear m0 (.jmpBlock 2) ∧ Clear m0 (.callb 1 2) ∧ Clear (on fun t => t.setSreg 1 16) (.jmpiB 1)
    ∧ Clear (on fun t => t.setSreg 1 16) (.retb 1) := by
  and_intros <;> first | decide +kernel | exact clear_at (by decide +kernel)

theorem test_premises_loops : Clear m0 (.loopb 1) ∧ m0.tile.pass = 0 ∧ (on fun t => { t with pass := 1 }).tile.pass ≠ 0
    ∧ ((on fun t => { t with pass := 1 }).mapTile fun t => t.loopBack t).wordTarget (pcPlus 16 (4 * 1)) = none
    ∧ m0.tile.addr 0 (2 ^ 32 - 1) < 2 ^ 32 ∧ Clear m0 (.lsetRrb 15) := by
  refine ⟨clear_at (by decide +kernel), ?_, ?_, ?_, ?_, clear_at (by decide +kernel)⟩ <;> decide +kernel

/-- The small machine with a swapped team 1 that is ready, its bind record pending for cluster 0. -/
def rivalled : State :=
  { m0 with
    teams := [oneTeam, { oneTeam with id := 1, state := .swapReady, live := [] }]
    dies := m0.dies.set 0 { m0.dies[0] with
      slots := (m0.dies[0]).slots.set 0 ((Vector.replicate 4 0).set 0 (BitVec.ofNat 64 (2 ^ 63 + 2 ^ 62 + 2 ^ 40))) } }

theorem test_premises_waits : Clear m0 (.wait 31 0 24 31) ∧ Clear m0 .pcommit ∧ Clear m0 .yield
    ∧ (m0.tile.cst = 0 ∧ m0.tile.ccp ≤ 24) ∧ (∀ k, m0.team = some k → m0.rivals k = false)
    ∧ (∃ k, rivalled.team = some k ∧ rivalled.rivals k = true) ∧ Clear rivalled .yield
    ∧ m0.calm 31 ∧ m0.calm 1 ∧ Clear m0 (.phase .system 0) ∧ Clear m0 (.fence .tile 1) := by
  refine ⟨clear_at (by decide +kernel), clear_at (by decide +kernel), clear_at (by decide +kernel), by decide +kernel, ?_,
    ⟨_, rfl, by decide +kernel⟩, clear_at (by decide +kernel), ⟨rfl, rfl, rfl⟩, ⟨rfl, rfl, rfl⟩, clear_at (by decide +kernel),
    clear_at (by decide +kernel)⟩
  intro k h; cases h; decide +kernel

theorem test_premises_sems : m0.tile.spec = none ∧ m0.calm 3 ∧ m0.semMine 1 = true ∧ m0.mayTake [(1, 5)] = true
    ∧ ((m0.bounded 3 true).sem 1).val.val + 65530 ≤ 65535 ∧ m0.semtTakes 1 5 = true ∧ m0.semtTakes 1 6 = false
    ∧ Clear m0 (.semw 1 5 0) ∧ Clear m0 (.sems 1 0 3) ∧ Clear m0 (.semt 1 5 2)
    ∧ ({ m0 with clusters := State.reset.clusters } : State).semMine 1 = false ∧ m0.homeShut = false := by
  refine ⟨rfl, ⟨rfl, rfl, rfl⟩, ?_⟩
  and_intros <;> first | decide +kernel | exact clear_at (by decide +kernel)

theorem test_premises_lintel : m0.calm 31 ∧ m0.mayArrive = true ∧ m0.tile.task.any (·.lintel) = true ∧ m0.tile.barr = false
    ∧ (on fun t => { t with arrival := .released, barr := true }).tile.arrival = .released
    ∧ Clear m0 .bara ∧ Clear (on fun t => { t with arrival := .released, barr := true }) .barr
    ∧ Clear (on fun t => { t with arrival := .released }) .barw := by
  refine ⟨⟨rfl, rfl, rfl⟩, by decide +kernel, by decide +kernel, rfl, rfl, clear_at (by decide +kernel), clear_at (by decide +kernel),
    clear_at (by decide +kernel)⟩

theorem test_premises_tasks : (∃ x, m0.tile.task = some x) ∧ m0.poolLen < 64
    ∧ isDescriptor (m0.tile.sreg 1).toNat (m0.codeWord (m0.tile.sreg 1).toNat) = true ∧ Clear m0 (.spawn 1 1 2)
    ∧ Clear m0 .retire ∧ Clear m0 (.trap 7) := by
  refine ⟨⟨_, rfl⟩, by decide +kernel, by decide +kernel, clear_at (by decide +kernel), clear_at (by decide +kernel),
    clear_at (by decide +kernel)⟩

/-- The small machine in a handler that returns to 20, its channels owned as CHOWN says. -/
def inHandler (chown : BitVec 8) : State := on fun t => { t with priv := true, tepc := 20, chown := chown }

/-- CSRs 79 and 80 are the last of channel 0's setup and the first of channel 1's. -/
theorem test_premises_privileged : (inHandler 0).tile.priv = true ∧ Clear (inHandler 0) (.csrr 1 0) ∧ Clear (inHandler 0) (.csrw 1 2 195)
    ∧ Clear (inHandler 0) (.csrw 1 2 8) ∧ Clear (inHandler 0) (.csrw 1 2 9) ∧ Clear (inHandler 0) (.csrw 1 2 4) ∧ Clear (inHandler 4) (.csrw 1 2 79)
    ∧ fld (inHandler 4).tile.chown.toNat (2 * 0) 2 = 0 ∧ fld (inHandler 4).tile.chown.toNat (2 * 1) 2 ≠ 0 ∧ Clear (inHandler 4) (.csrw 1 2 80)
    ∧ Clear (inHandler 0) .tret ∧ (inHandler 0).wordTarget (inHandler 0).tile.tepc.toNat = none
    ∧ m0.tile.priv = false ∧ m0.tile.releasing = none ∧ m0.tile.dbgctl = 0 ∧ m0.tile.loader.fault = none ∧ m0.tile.storer.fault = none := by
  refine ⟨rfl, clear_at ?_, clear_at ?_, clear_at ?_, clear_at ?_, clear_at ?_, clear_at ?_, ?_, ?_, clear_at ?_, clear_at ?_, ?_, rfl, rfl, rfl, rfl, rfl⟩
    <;> decide +kernel

/-! ## Premises that hold: vector -/

/-- The small machine with every row of one tag, and an arrived entry at the head of queue 0. -/
def tagged (x : Fin 16) : State := on fun t =>
  { t with
    tags := Vector.replicate 64 x
    queues := Vector.replicate 8 [{ tag := 1, cells := Row.zero, due := 0, arrived := true, remote := none, failed := false }] }

/-- Row 1 as an operand, and column 1. -/
abbrev h1 : GridOp := ⟨.h, 1⟩
abbrev v1 : GridOp := ⟨.v, 1⟩

theorem test_premises_tags : (tagged 1).tile.tag h1 = some 1 ∧ (tagged 1).tile.tag v1 = some 1 ∧ (tagged 2).tile.tag h1 = some 2
    ∧ (tagged 5).tile.tag h1 = some 5 ∧ (on fun t => { t with tags := t.tags.set 3 1 }).tile.tag v1 = none
    ∧ (on fun t => { t with tags := t.tags.set 2 1 }).tile.tag ⟨.h, 2⟩ = some 1 ∧ m0.tile.tag h1 = some 0
    ∧ (tagged 12).tile.isPair ⟨.h, 2⟩ = true ∧ (tagged 14).tile.tag (scaleRow 1) = some 14 := by decide +kernel

theorem test_premises_rows : (tagged 1).tile.dstOk h1 1 = .ok () ∧ (tagged 1).tile.dstOk v1 1 = .ok ()
    ∧ (tagged 1).tile.dstOk h1 14 = .ok () ∧ (∃ v, cvtRow rne 1 3 0 ((tagged 1).tile.row h1) ((tagged 1).tile.kept h1 3) = some v)
    ∧ (∃ e l, (tagged 1).tile.queues[0] = e :: l ∧ e.arrived = true ∧ e.failed = false ∧ (tagged 1).tile.dstOk h1 e.tag = .ok ())
    ∧ isMx 6 = true ∧ 3 < elemCount 6 / 64 ∧ spTag 9 = true :=
  ⟨rfl, rfl, rfl, ⟨_, rfl⟩, ⟨_, _, rfl, rfl, rfl, rfl⟩, by decide +kernel, by decide +kernel, by decide +kernel⟩

theorem test_premises_vector : Clear (tagged 1) (.fadd h1 v1 h1) ∧ Clear (tagged 1) (.frcp h1 v1) ∧ Clear (tagged 1) (.fcmp .lt 1 h1 h1 true)
    ∧ Clear (tagged 2) (.vcmp .lt 1 h1 h1 false) ∧ Clear (tagged 2) (.vadd h1 h1 h1) ∧ Clear (tagged 5) (.vand h1 h1 h1)
    ∧ Clear (tagged 1) (.vmov h1 v1) ∧ Clear (tagged 1) (.cvt h1 h1 0 3) ∧ Clear (tagged 1) (.bmax h1 h1 true)
    ∧ Clear (tagged 1) (.scsel h1 h1 true 0 true .e4m3) ∧ Clear (tagged 1) (.qnt h1 h1 .int8 true) ∧ Clear (tagged 6) (.dqn h1 h1 3 1)
    ∧ Clear (tagged 1) (.vred .fadd h1 h1) ∧ Clear (tagged 1) (.qpop h1 0) ∧ Clear (tagged 9) (.spk h1 h1 1)
    ∧ Clear m0 (.fadd h1 h1 h1) ∧ Clear (tagged 1) (.vbcst h1 1 1) := by
  and_intros <;> exact clear_at (by decide +kernel)

theorem test_premises_vectorFrame : ∃ t v, SendsRow (tagged 1) (.fadd h1 h1 h1) h1 1 v 4 ∧ exec (.fadd h1 h1 h1) (tagged 1) = .next t :=
  ⟨_, _, sendsRow_of_body rfl rfl (srcTags_two (x := 1) (y := 1) rfl rfl rfl rfl) rfl rfl, rfl⟩

/-! ## Premises that hold: memory -/

/-- Whether an access passes its checks from the slot states on and leaves a state outside speculation. -/
def passes (s : State) (write : Bool) (ranges : List (Nat × Nat)) : Bool :=
  match memPrep s s write ranges with
  | .ok u => u.tile.spec.isNone
  | .trap _ | .stall _ => false

/-- Such an access leaves some state. -/
theorem ok_of_passes {s : State} {write : Bool} {ranges : List (Nat × Nat)} (h : passes s write ranges = true) :
    ∃ u, memPrep s s write ranges = .ok u ∧ u.tile.spec = none := by
  unfold passes at h
  split at h
  · exact ⟨_, ‹_›, by simpa using h⟩
  · cases h
  · cases h

theorem test_premises_access : m0.tile.slotsIn 0x17FFFC 0x180000 = [] ∧ m0.tile.winLines 0x17FFFC 0x180000 = [] ∧ m0.tile.feet = []
    ∧ m0.tile.slotsIn 0 4 = [] ∧ m0.tile.winLines 0 4 = [] ∧ m0.mem.wf = true := by decide +kernel

theorem test_premises_loads : m0.tile.cld < 24 ∧ accessCheck m0.alone .any 8 0 8 = none ∧ regionOf 0 ≠ .ctl
    ∧ m0.tile.busy ≤ m0.tile.tc ∧ passes m0 false [(0, 8)] = true ∧ accessCheck m0.alone .any 1 0xBFFFFF 1 = none
    ∧ (∃ s : State, s.tile.priv = true ∧ accessCheck s.alone .any 8 0x0F000000 8 = none ∧ passes s false [] = true)
    ∧ regionOf 0x0F000000 = .ctl ∧ accessCheck m0.alone .spSlice 4 0 256 = none ∧ m0.tile.tag h1 ≠ none
    ∧ passes m0 false [(0, 256)] = true ∧ ldttWidth 5 = 2 ∧ accessCheck m0.alone .spOnly 4 0 (63 * (64 * 2) + 4) = none
    ∧ passes m0 false [(0, 4), (128, 132)] = true ∧ Clear m0 (.lds .d 1 0 0) ∧ Clear m0 (.ldv h1 0 0) ∧ Clear (tagged 5) (.ldtt 1 0 0) := by
  have privileged : ∃ s : State, s.tile.priv = true ∧ accessCheck s.alone .any 8 0x0F000000 8 = none ∧ passes s false [] = true :=
    ⟨on fun t => { t with priv := true }, rfl, by decide +kernel, by decide +kernel⟩
  and_intros <;> first | exact privileged | decide +kernel | exact clear_at (by decide +kernel)

/-- A machine in a handler whose x2 names register k of the control window. -/
def windowAt (k : Nat) (chown : BitVec 8) : State :=
  (inHandler chown).mapTile fun t => { t with sregs := t.sregs.set 2 (BitVec.ofNat 64 (0x0F000000 + 8 * k)) }

theorem test_premises_stores : m0.tile.spec = none ∧ m0.tile.cst < 24 ∧ passes m0 true [(0x17FFF8, 0x180000)] = true
    ∧ accessCheck m0.alone .any 8 0x17FFF8 8 = none ∧ passes m0 true [(0, 256)] = true ∧ passes m0 true [(0, 16)] = true
    ∧ accessCheck m0.alone .spSlice 16 0 16 = none ∧ accessCheck m0.alone .spSlice 4 0 (4 * 32) = none
    ∧ passes ({ tagged 1 with tile := { (tagged 1).tile with queues := (tagged 1).tile.queues.set 0 [] } } : State) true [(0, 256)] = true
    ∧ Clear m0 (.sts .d 1 0 0) ∧ Clear m0 (.stv h1 0 0) ∧ Clear m0 (.hget 1 0) ∧ Clear (tagged 1) (.qst 0 0) ∧ Clear (tagged 1) (.qstHalf 0 0)
    ∧ Clear (windowAt 8 0) (.sts .d 1 2 0) ∧ Clear (windowAt 9 0) (.sts .d 1 2 0) ∧ Clear (windowAt 79 4) (.sts .d 1 2 0)
    ∧ Clear (windowAt 80 4) (.sts .d 1 2 0) ∧ Clear (windowAt 80 4) (.sts .w 1 2 0) := by
  and_intros <;> first | decide +kernel | exact clear_at (by decide +kernel)

/-- Its stores pass their checks and fall in the control window (R58, R67). -/
theorem test_premises_windowStores : accessCheck (windowAt 8 0).alone .any 8 ((windowAt 8 0).tile.addr 2 0) 8 = none
    ∧ regionOf ((windowAt 8 0).tile.addr 2 0) = .ctl ∧ accessCheck (windowAt 80 4).alone .any 4 ((windowAt 80 4).tile.addr 2 0) 4 = none
    ∧ ((windowAt 80 4).tile.addr 2 0 - 0x0F000000) / 8 = 80 ∧ fld (windowAt 80 4).tile.chown.toNat (2 * 0) 2 = 0
    ∧ fld (windowAt 80 4).tile.chown.toNat (2 * 1) 2 ≠ 0 := by decide +kernel

/-- The image of a dense E4M3 handle of 64 rows, four planes, one K-group at address 0; of one that is 2-of-12. -/
def img0 : Image := BitVec.ofNat 128 (2 ^ 127 + 6 * 2 ^ 104 + 4 * 2 ^ 100 + 64 * 2 ^ 93 + 2 ^ 81)

/-- A machine whose scratchpad holds that image at 4096, a map image at 4112 and zeros at 4128, whose handle 1 it is; ring 0,
which may predict, is declared at 8192; skew and the data of loads are there; the pending fill has returned. -/
def m1 : State :=
  { on (fun t => { t with
      fillReady := 1, tc := 10, rings := t.rings.set 0 { valid := true, pred := true, nslot := 1, base := 128 }
      handles := t.handles.set 1 { img := img0 }, tags := Vector.replicate 64 6
      sregs := (((t.sregs.set 1 4096).set 2 4112).set 3 4128).set 4 0x400000 }) with
    mem := (m0.mem.putNum (spKey 0 0 (spPhys 0 4096)) img0.toNat 16).putNum (spKey 0 0 (spPhys 0 4112)) (2 ^ 127) 16 }

theorem test_premises_planes : (∃ o, planeOp m1.tile 4194305 (some 6) = .ok o) ∧ (∃ o, planeOp m1.tile 4194305 none = .ok o)
    ∧ m1.tile.tag h1 = some 6 ∧ m1.tile.dstOk h1 6 = .ok () ∧ m1.tile.busy ≤ m1.tile.tc ∧ m1.tile.cld < 24 ∧ m1.tile.cst < 24
    ∧ Clear m1 (.stbp h1 0 4194305) ∧ Clear m1 (.ldbp h1 0 4194305) :=
  ⟨⟨_, rfl⟩, ⟨_, rfl⟩, by decide +kernel, rfl, by decide +kernel, by decide +kernel, by decide +kernel,
    clear_at (by decide +kernel), clear_at (by decide +kernel)⟩

/-- The data that m1 has waited for is there. -/
theorem m1_there (l : List (Nat × Nat)) (h : m1.tile.filledAll l = 0) : m1.tile.dataThere l := .inr ⟨h, by decide +kernel, by decide +kernel⟩

theorem test_premises_images : accessCheck m1.alone .spSlice 16 4096 16 = none ∧ passes m1 false [(4096, 4112)] = true
    ∧ m1.tile.dataThere [(4096, 4112)] ∧ m1.tile.dataThere
    ∧ handleOk (BitVec.ofNat 128 (m1.coreNum 4096 16)) = true ∧ (BitVec.ofNat 128 (m1.coreNum 4128 16)).getLsbD 127 = false
    ∧ mapOk m1.tile 0 (BitVec.ofNat 128 (m1.coreNum 4112 16)) = true ∧ (m1.tile.maps[0]).dirty = false
    ∧ m1.tile.storing = false ∧ Clear m1 (.hset 2 1) ∧ Clear m1 (.mapw 0 2) ∧ Clear m1 .spfence := by
  refine ⟨by decide +kernel, by decide +kernel, m1_there _ rfl, m1_there _ rfl, ?_⟩
  and_intros <;> first | decide +kernel | exact clear_at (by decide +kernel)

/-- A machine with a window of one line; with that line dirty. -/
def windowed (dirty : Bool) : State := on fun t => { t with
  maps := t.maps.set 0 { img := BitVec.ofNat 128 (2 ^ 127 + 2 ^ 126), lines := if dirty then [⟨0, 1, 2⟩] else [] } }

theorem test_premises_maps : ((windowed false).tile.maps[0]).valid = true ∧ ((windowed false).tile.maps[0]).dirty = false
    ∧ ((windowed true).tile.maps[0]).valid = true ∧ ((windowed true).tile.maps[0]).dirty = true
    ∧ (windowed true).tile.cst < 24 ∧ Clear (windowed true) (.mapf 0) ∧ Clear (windowed true) (.mapi 0)
    ∧ Clear (windowed false) (.mapiDiscard 0) := by
  and_intros <;> first | decide +kernel | exact clear_at (by decide +kernel)

/-- A machine whose ring 0 has its slot 0 in a state, owned by an agent. -/
def ringed (st : SlotSt) (own : Owner) : State := on fun t =>
  { t with rings := t.rings.set 0 { valid := true, pred := true, nslot := 1, vcnt := 1, st := Vector.replicate 16 st, own := Vector.replicate 16 own } }

theorem test_premises_buffers : m0.tile.busy ≤ m0.tile.tc ∧ (ringed .empty .nobody).tile.ringNo 0 = some 0
    ∧ ((ringed .empty .nobody).tile.rings[0]).st[0] = .empty ∧ ((ringed .full .nobody).tile.rings[0]).st[0] = .full
    ∧ ((ringed .filling .core).tile.rings[0]).slotNo 1 = some 1 ∧ ((ringed .filling .core).tile.rings[0]).own[1] = .core
    ∧ ((ringed .draining .core).tile.rings[0]).st[1] = .draining ∧ (ringed .draining .core).tile.copying 0 1 = false
    ∧ Clear (ringed .empty .nobody) (.bufacq 0 1 2) ∧ Clear (ringed .full .nobody) (.buftake 0 1 2)
    ∧ Clear (ringed .filling .core) (.bufpub 0 0 1) ∧ Clear (ringed .draining .core) (.buffree 0 0 1) ∧ Clear m1 (.bufq 0 1) := by
  and_intros <;> first | decide +kernel | exact clear_at (by decide +kernel)

theorem test_premises_atomics : (∃ h u, findHome m1.alone m1 4096 8 true = .ok (h, u))
    ∧ (∃ h u, findHome m1.alone m1 0x400000 4 false = .ok (h, u)) ∧ m1.tile.edge true 4096 4104 = false ∧ m1.tile.edge false 4096 4104 = false
    ∧ m1.tile.edge true 0x400000 0x400004 = false ∧ m1.tile.edge false 0x400000 0x400004 = false ∧ m1.tile.dataThere
    ∧ m1.tile.busy ≤ m1.tile.tc ∧ (m1.homeError (.sp 4096) 8).isNone = true ∧ (m1.homeError (.slice 0) 4).isNone = true
    ∧ Clear m1 (.aadd 5 1 .rlx .tile 0 true) ∧ Clear m1 (.amin 5 4 .rlx .tile 0 false true) ∧ Clear m1 (.acas 6 1 .rlx .tile 0 true) :=
  ⟨⟨_, _, rfl⟩, ⟨_, _, rfl⟩, by decide +kernel, by decide +kernel, by decide +kernel, by decide +kernel, m1_there _ rfl, by decide +kernel, by decide +kernel, by decide +kernel, clear_at (by decide +kernel), clear_at (by decide +kernel), clear_at (by decide +kernel)⟩

/-- A machine of m1 whose cluster's monitor table is full of other tiles' entries; one that a wake has reached. -/
def watched : State := { m1 with clusters := m1.clusters.set 0 { running with monitors := List.replicate 8 ⟨0x400000, 8, 0, ⟨0, 1⟩, 1⟩ } }

theorem test_premises_waking : m1.calm 2 ∧ (m1.flushSliceLine 0).calm 2 ∧ monitorCheck m1.alone 0x400000 8 = none
    ∧ monitorCheck m1.alone 0x400000 1 = none ∧ m1.tile.woken = false ∧ (m1.mapTile fun t => { t with woken := true }).tile.woken = true
    ∧ m1.watches 0x400000 = false
    ∧ (m1.flushSliceLine 0).homeValue (.slice 0) 8 ≠ 1 ∧ (watched.flushSliceLine 0).homeValue (.slice 0) 8 = 0
    ∧ 8 ≤ watched.monitors.length ∧ watched.watches 0x400000 = false
    ∧ (watched.flushSliceLine 0).calm 2 ∧ m1.tile.edge false 0x400000 0x400008 = false ∧ watched.tile.edge false 0x400000 0x400008 = false
    ∧ Clear m1 (.waita 4 5 1 true) ∧ Clear watched (.waita 4 5 1 true) ∧ Clear m1 (.wake1 4 1) ∧ Clear m1 (.wakea 4 1) := by
  refine ⟨⟨rfl, rfl, rfl⟩, ⟨by decide +kernel, by decide +kernel, rfl⟩, by decide +kernel, by decide +kernel, rfl, rfl, ?_, ?_,
    ?_, ?_, ?_, ⟨by decide +kernel, by decide +kernel, rfl⟩, by decide +kernel, by decide +kernel, ?_⟩
  case refine_6 => and_intros <;> exact clear_at (by decide +kernel)
  all_goals decide +kernel

/-! ## Premises that hold: matrix -/

/-- Whether the checks of an access by an agent let it go on. -/
def Prep.isOk (p : Prep) : Bool :=
  match p with
  | .ok _ => true
  | .trap _ | .stall _ => false

theorem prep_ok {p : Prep} (h : Prep.isOk p = true) : ∃ u, p = .ok u := by cases p <;> first | exact ⟨_, rfl⟩ | cases h

/-- Whether what a beat reads meets no trap and no wait. -/
def readsFreely (s v : State) (l : List (Nat × Nat)) : Bool :=
  Prep.isOk (linePrep .core s v false l) && (l.findSome? fun p => s.badLocal .core p.1 p.2).isNone

theorem reads_of {s v : State} {l : List (Nat × Nat)} (h : readsFreely s v l = true) : ∃ u, s.reads v l u := by
  have h := Bool.and_eq_true_iff.mp h
  obtain ⟨u, hu⟩ := prep_ok h.1
  exact ⟨u, hu, Option.isNone_iff_eq_none.mp h.2⟩

/-- Whether two reads, one after the other, meet no trap and no wait. -/
def readsBoth (s : State) (l m : List (Nat × Nat)) : Bool :=
  match linePrep .core s s false l with
  | .ok v => (l.findSome? fun p => s.badLocal .core p.1 p.2).isNone && readsFreely s v m
  | .trap _ | .stall _ => false

theorem both_reads {s : State} {l m : List (Nat × Nat)} (h : readsBoth s l m = true) : ∃ v u, s.reads s l v ∧ s.reads v m u := by
  unfold readsBoth at h
  split at h
  · have h := Bool.and_eq_true_iff.mp h
    obtain ⟨u, hu⟩ := reads_of h.2
    exact ⟨_, u, ⟨‹_›, Option.isNone_iff_eq_none.mp h.1⟩, hu⟩
  · cases h
  · cases h

/-- What a push, and a shift, of handle 1 read. -/
abbrev pushOf (s : State) : List (Nat × Nat) := s.pushReads s.tile.handles[1] s.tile.mat
abbrev shiftOf (s : State) : List (Nat × Nat) := (s.tile.handles[1]).shiftReads s.tile.mat.gb.val

/-- A machine whose handle 1 may be pushed, three planes of four pushed already or none, with a B group waiting. -/
def beats (n : Nat) : State := m1.mapTile fun t => { t with
  mat := { t.mat with pushed := n, ghandle := some 1, next := { valid := true }, active := { valid := true } }
  skew := Vector.replicate 2 (BitVec.ofNat 64 (2 ^ 63 + 100)) }

/-- What the checks of a beat look at and what it reads meet no trap and no wait. -/
abbrev runsBeat (s : State) (a b : Option HReg) (l : List (Nat × Nat)) : Prop :=
  ∃ v u, s.reads s (beatLooks s s.tile a b) v ∧ s.reads v l u

/-- A sparse handle with its metadata at 16384, all zero. -/
def sparsed : State := m1.mapTile fun t => { t with handles := t.handles.set 2 { img := img0 ||| BitVec.ofNat 128 (2 ^ 108 + 256 * 2 ^ 66) } }

theorem test_premises_beats : beatTrap (beats 0) (beats 0).tile (some 1) none false = none
    ∧ beatTrap (beats 0) (beats 0).tile (some 1) (some 1) false = none ∧ beatTrap (beats 3) (beats 3).tile (some 1) none true = none
    ∧ beatTrap (beats 3) (beats 3).tile (some 1) (some 1) true = none ∧ beatTrap (beats 3) (beats 3).tile none (some 1) false = none
    ∧ (beats 3).tile.badAcc = 0 ∧ runsBeat (beats 0) (some 1) none (pushOf (beats 0)) ∧ runsBeat (beats 3) (some 1) none (pushOf (beats 3))
    ∧ runsBeat (beats 0) (some 1) (some 1) (pushOf (beats 0) ++ shiftOf (beats 0))
    ∧ runsBeat (beats 3) (some 1) (some 1) (pushOf (beats 3) ++ shiftOf (beats 3)) ∧ runsBeat (beats 3) none (some 1) (shiftOf (beats 3))
    ∧ (beats 4).tile.mat.pushed ≠ 0 ∧ (beats 4).tile.mat.ghandle = some 1 ∧ ((beats 4).tile.handles[1]).planes = 4
    ∧ Clear (beats 0) (.mpush 1) ∧ Clear (beats 0) (.mpushS 1 1) ∧ Clear (beats 3) (.mpushC 1) ∧ Clear (beats 3) (.mpushSC 1 1)
    ∧ Clear (beats 3) (.mshift 1) ∧ Clear (beats 4) .macc := by
  and_intros <;> first | decide +kernel | exact both_reads (by decide +kernel) | exact clear_at (by decide +kernel)

/-- A push and a shift of a dense handle, and shifts of a sparse one whose step is stored, and is not. -/
theorem test_premises_beatLoads : 0 < ((beats 0).tile.handles[1]).rows ∧ ((beats 0).tile.handles[1]).rows ≤ 64 ∧ ((beats 0).tile.handles[1]).spn = 0
    ∧ (sparsed.tile.handles[2]).spn ≠ 0 ∧ 0 / (sparsed.tile.handles[2]).step < (sparsed.tile.handles[2]).stored
    ∧ (sparsed.tile.handles[2]).stored ≤ 4095 / (sparsed.tile.handles[2]).step := by and_intros <;> decide +kernel

theorem test_premises_matrix : drainOk true .fp32 = true ∧ drainOk false .int32 = true ∧ (m1.tile.queues[0]).length < 16
    ∧ (sparsed.tile.handles[2]).valid = true ∧ (sparsed.tile.handles[2]).spn ≠ 0
    ∧ sparsed.metaOk sparsed.tile.handles[2] (bStep sparsed.tile.handles[2] sparsed.tile.mat.gb.val) = true
    ∧ (∃ v u, sparsed.reads sparsed ((sparsed.tile.handles[2]).maskReads (bStep sparsed.tile.handles[2] sparsed.tile.mat.gb.val)) v
        ∧ sparsed.reads v ((sparsed.tile.handles[2]).shiftReads sparsed.tile.mat.gb.val) u)
    ∧ Clear m1 (.mdrain 63 0 .fp32 true) ∧ Clear m1 .mzero ∧ Clear m1 (.msetInt 0 4095) ∧ Clear sparsed (.msparse 2) := by
  and_intros <;> first | decide +kernel | exact both_reads (by decide +kernel) | exact clear_at (by decide +kernel)

theorem test_premises_remote : remTrap (beats 0).tile 1 0 = none ∧ (beats 0).tile.skewValid 1 = true
    ∧ (∃ u, (beats 0).reads (beats 0) (((beats 0).tile.handles[1]).rowReads 63) u) ∧ ((beats 0).tile.queues[0]).length < 16
    ∧ ((beats 0).tile.mat.land[0]).length < 8
    ∧ (∃ s : State, ∃ x l, s.tile.mat.land[0] = x :: l ∧ x.arrived = true ∧ x.failed = false ∧ s.tile.mat.float = true)
    ∧ Clear (beats 0) (.mremQueue 1 63 0 0) ∧ Clear (beats 0) (.mremAcc 1 63 1) ∧ Clear (beats 0) (.maccR 0) ∧ Clear (beats 0) (.mskew 0 1) := by
  refine ⟨by decide +kernel, by decide +kernel, reads_of (by decide +kernel), by decide +kernel, by decide +kernel, ?_, ?_, ?_, ?_, ?_⟩
  · exact ⟨on fun t => { t with mat := { t.mat with land := Vector.replicate 2 [⟨0, 0, true, true, Row.zero, 0, none, false⟩] } }, _, _, rfl, rfl, rfl, rfl⟩
  all_goals exact clear_at (by decide +kernel)

/-! ## Premises that hold: engine -/

/-- A leaf of 32 MiB, readable, writable and open to atomics, in device memory at 32 MiB. -/
def home0 : Leaf := ⟨BitVec.ofNat 64 (2 ^ 63 + 2 ^ 62 + 2 ^ 61 + 2 ^ 60 + 2 ^ 59 + 2 ^ 11), 1⟩

/-- A machine with the first MiB of virtual memory leased to the task's region, and the 32 MiB page at 0 mapped by that leaf; x5 and
x6 name a place and a length for an image, x7 is 4. -/
def mapped : State :=
  { m1 with
    tile := { m1.tile with
      tlb := [⟨0, 1, 0, home0.word⟩], priv := true, sregs := ((m1.tile.sregs.set 5 0x4000).set 6 0x80000).set 7 4 }
    mem := (m1.mem.putNum 32 (4096 + 2 ^ 64) 16).putNum 4104 0x100000 8 }

/-- That machine with a dirty line in its window 0. -/
def dirtied : State := mapped.mapTile fun t => { t with
  maps := t.maps.set 0 { img := BitVec.ofNat 128 (2 ^ 127 + 2 ^ 126), lines := [⟨0, 1, 2⟩] } }

theorem test_premises_dirty : (dirtied.tile.maps[0]).dirty = true ∧ (dirtied.tile.maps[0]).valid = true ∧ dirtied.tile.cst < 24
    ∧ (∃ u, dirtied.writeBacks (dirtied.tile.linesOf 0) = .ok u) ∧ accessCheck dirtied.alone .spSlice 16 4112 16 = none
    ∧ passes dirtied false [(4112, 4128)] = true ∧ mapOk dirtied.tile 0 (BitVec.ofNat 128 (dirtied.coreNum 4112 16)) = true
    ∧ dirtied.tile.dataThere [(4112, 4128)] ∧ (∃ w, (dirtied.touch 4112 4128).writeBacks (dirtied.tile.linesOf 0) = .ok w)
    ∧ Clear dirtied (.mapf 0) ∧ Clear dirtied (.mapi 0) ∧ Clear dirtied (.mapw 0 2) :=
  ⟨rfl, by decide +kernel, by decide +kernel, ⟨_, rfl⟩, by decide +kernel, by decide +kernel, by decide +kernel,
    .inr ⟨rfl, by decide +kernel, by decide +kernel⟩, ⟨_, rfl⟩, clear_at (by decide +kernel), clear_at (by decide +kernel), clear_at (by decide +kernel)⟩

theorem test_premises_translation : (∃ u p, probeBox mapped .write 0x4000 0x4100 = .ok (u, p))
    ∧ (∃ x u, mapped.translate 0xFFFFF .atomic = .ok (x, u)) ∧ (∃ x, mapped.translate 0x100000 .read = .error x)
    ∧ (∃ u p, probeBox mapped .read 0x4000 0x4040 = .ok (u, p)) := ⟨⟨_, _, rfl⟩, ⟨_, _, rfl⟩, ⟨_, rfl⟩, ⟨_, _, rfl⟩⟩

/-- A machine with an error in grid row 1; in accumulator row 0. -/
def damagedRow (s : State) : State := s.mapTile fun t => { t with badRows := 2 }
def damagedAcc (s : State) : State := s.mapTile fun t => { t with badAcc := 1 }

/-- The length of an image without records and scratchpad ranges (R407). -/
theorem mapped_length : (mapped.image []).1.length = 290816 := State.image_length mapped []

theorem test_premises_ctxs : mapped.tile.drained = true ∧ (mapped.tile.sreg 5).toNat = 0x4000 ∧ (mapped.tile.sreg 6).toNat = 0x80000
    ∧ mapped.tile.imageTrap = none ∧ (mapped.image []).1.length ≤ 0x80000
    ∧ (∃ u p, probeBox (mapped.image []).2 .write 0x4000 (0x4000 + (mapped.image []).1.length) = .ok (u, p) ∧ u.cutPage p ≠ some .linkDown) ∧ Clear mapped (.ctxs 1 5 6)
    ∧ (damagedRow mapped).tile.badRows ≠ 0 ∧ Clear (damagedRow mapped) (.ctxs 1 5 6)
    ∧ (damagedAcc mapped).tile.badRows = 0 ∧ (damagedAcc mapped).tile.badAcc ≠ 0 ∧ Clear (damagedAcc mapped) (.ctxs 1 5 6) := by
  have hl : (mapped.image []).1.length = 290816 := mapped_length
  rw [hl]
  refine ⟨by decide +kernel, rfl, rfl, rfl, by decide, ⟨_, _, rfl, ?_⟩, clear_at ?_, ?_, clear_at ?_, rfl, ?_, clear_at ?_⟩ <;> decide +kernel

/-- A machine whose channel 0 is set up to copy one byte from 0 to 0. -/
def copying : State := on fun t => t.putSetup 0 2 0x40000

theorem test_premises_channels : m0.tile.owns .core 3 = true ∧ (1 ≤ 65536) ∧ strideOk 8 = true ∧ (0 : Nat) < 1
    ∧ (m0.tile.chans[3]).err = false ∧ (m0.tile.chans[3]).jobs = [] ∧ m0.writeBacks (m0.tile.chans[3]).lines = .ok m0 ∧ m0.tile.ccp < 24
    ∧ (∃ u j, copyChecks copying .core 0 copying.tile.setup[0] = .ok (u, j) ∧ j.pages = [])
    ∧ Clear m0 (.cpbase 3 1 2 3) ∧ Clear m0 (.cpnest 3 0 1 2 3) ∧ Clear m0 (.cpfoot 3 1 1 2) ∧ Clear m0 (.cpgo 0) ∧ Clear m0 (.cpdrain 3)
    ∧ Clear m0 (.cpstat 0 1) := by
  refine ⟨by decide +kernel, by decide, by decide +kernel, by decide, rfl, rfl, rfl, by decide +kernel, ?_, ?_, ?_, ?_, ?_, ?_, ?_⟩
  · exact ⟨_, _, rfl, rfl⟩
  all_goals exact clear_at (by decide +kernel)

/-- A machine whose end 1 sends and whose end 2 receives, holding one row. -/
def circuits : State := (tagged 1).mapTile fun t => { t with
  ends := (t.ends.set 1 (BitVec.ofNat 64 (2 ^ 63))).set 2 (BitVec.ofNat 64 (2 ^ 63 + 2 ^ 62))
  recvRows := [⟨2, Row.zero, none⟩] }

theorem test_premises_circuits : endValid (circuits.tile.endWord 1) = true ∧ endRecv (circuits.tile.endWord 1) = false
    ∧ circuits.unacked 1 < 32 ∧ circuits.tile.ctl < 24 ∧ accessCheck circuits.alone .spOnly 4 0 256 = none
    ∧ passes circuits false [(0, 256)] = true ∧ endRecv (circuits.tile.endWord 2) = true
    ∧ (∃ r, circuits.tile.oldestRow 2 = some r ∧ r.spec = none) ∧ (tagged 1).tile.oldestRow 2 = none
    ∧ Clear circuits (.qsend 0 1) ∧ Clear circuits (.csend 1 0) ∧ Clear circuits (.crecv 2 0) ∧ Clear circuits (.crecvT 2 1 0) := by
  and_intros <;> first | exact ⟨_, rfl, rfl⟩ | decide +kernel | exact clear_at (by decide +kernel)

/-- The pop of QSEND comes before the reservation of MDRAIN (R84): a full queue takes the drained row. -/
def queueing (n : Nat) : State := circuits.mapTile fun t => { t with
  queues := t.queues.set 0 (List.replicate n { tag := 1, cells := Row.zero, due := 0, arrived := true, remote := none, failed := false }) }
def drainSend : List (PReg × Slot) := [(0, slotMdrain 63 0 .fp32 false), (0, slotQsend 0 1)]
theorem test_drain_send_full : ((issue (queueing 16) 2 0 drainSend).tile.queues[0]).length = 16
    ∧ (issue (queueing 16) 2 0 drainSend).rows.length = 1
    ∧ (issue (queueing 16) 2 0 drainSend).tile.pc = circuits.tile.pc + 8 := by decide +kernel
/-- On an empty queue QSEND meets no entry that its own bundle has reserved (R84): QUEUE_UNDERFLOW. -/
theorem test_drain_send_empty : fld (issue (queueing 0) 2 0 drainSend).tile.trapst.toNat 58 6 = Cause.queueUnderflow.code := by
  decide +kernel

theorem test_premises_put : putOk 4 = true ∧ mapped.tile.sreg 5 = 0x4000 ∧ mapped.tile.sreg 7 = 4 ∧ putOk (BitVec.ofNat 64 (2 ^ 20)) = true ∧ localCheck true 4 0 4 = none
    ∧ mapped.tile.offLocal 0 4 = false ∧ (∃ u p, probeBox mapped .write 0x4000 (0x4000 + 4) = .ok (u, p))
    ∧ mapped.tile.dataThere ∧ (mapped.sourceTrap 0 4).isNone = true ∧ Clear mapped (.putc 1 5 0 7) :=
  ⟨by decide +kernel, rfl, rfl, by decide +kernel, by decide +kernel, by decide +kernel, ⟨_, _, rfl⟩, .inr ⟨rfl, by decide +kernel, by decide +kernel⟩,
    by decide +kernel, clear_at (by decide +kernel)⟩

/-- A machine whose team holds group 7 with its one tile. -/
def grouped (joined : Bool) : State :=
  { on (fun t => { t with task := some { team := 0, ltile := 0, joined := if joined then [7] else [] } }) with
    teams := [{ oneTeam with groups := [⟨7, 1, 0, 1⟩] }] }

theorem test_premises_groups : (7 : Nat) < 65536 ∧ ((grouped false).member 7).isSome = true
    ∧ ((grouped false).tile.task.any fun x => x.joined.contains 7) = false
    ∧ (∃ w : Word, gredTrap (grouped true).alone (grouped true) 0 0 0 w = none)
    ∧ Clear (grouped false) (.gjoin 1 2) ∧ Clear (grouped true) (.gred 0 1 2 3) ∧ Clear m0 (.gstat 1 2) := by
  refine ⟨by decide, by decide +kernel, by decide +kernel, ?_, ?_, ?_, ?_⟩
  · exact ⟨BitVec.ofNat 64 (7 * 2 ^ 48 + 2 ^ 40 + 4), by decide +kernel⟩
  all_goals exact clear_at (by decide +kernel)

theorem test_premises_pred : (ringed .full .nobody).tile.ringNo 0 = some 0 ∧ ((ringed .full .nobody).tile.task.any (·.mayspec)) = true
    ∧ ((ringed .full .nobody).tile.rings[0]).pred = true ∧ (ringed .full .nobody).tile.predDone = false
    ∧ ((ringed .filling .loader).tile.rings[0]).st[0] = .filling ∧ ((ringed .filling .loader).tile.rings[0]).own[0] ≠ .core
    ∧ ((ringed .filling .loader).tile.rings[0]).vcnt ≠ 0 ∧ ((ringed .filling .loader).tile.wait.any fun w => w.kind == .full 0) = false
    ∧ (∃ k, m0.team = some k)
    ∧ Clear (ringed .full .nobody) (.pred 1 0) ∧ Clear (ringed .filling .loader) (.pred 1 0) ∧ Clear m0 (.pstat 1) := by
  and_intros <;> first | decide +kernel | exact ⟨_, rfl⟩ | exact clear_at (by decide +kernel)

/-- A machine whose region may speculate once; one that has begun to and whose shadow slot is written. -/
def budgeted : State := { ringed .filling .loader with mem := m0.mem.putNum 24 1 8 }
def shadowed : State := budgeted.mapTile fun t => { t with
  spec := some { pt := 16, chk := t.toArch, depth := 1, ring := some 0, begun := false, shadowDone := true } }

theorem test_premises_predict : budgeted.hasRoom 0 11 (specLimit budgeted) 1 = true
    ∧ (∃ q, shadowed.tile.spec = some q ∧ q.begun = false ∧ q.shadowDone = true) ∧ Clear shadowed (.pred 1 0) :=
  ⟨by decide +kernel, ⟨_, rfl, rfl, rfl⟩, clear_at (by decide +kernel)⟩

theorem test_premises_queries : (m1.tile.handles[1]).valid = true ∧ (m1.tile.handles[1]).spn = 0
    ∧ (sparsed.tile.handles[2]).spn ≠ 0 ∧ sparsed.tile.dataThere
    ∧ (∃ u, sparsed.reads sparsed ((List.range (sparsed.tile.handles[2]).stored).flatMap (sparsed.tile.handles[2]).maskReads) u)
    ∧ (m0.tile.mbx[2]).length < 8 ∧ m0.tile.mbx[0] = []
    ∧ (on fun t => { t with mbx := Vector.replicate 3 [7] }).tile.mbx[0] = [7]
    ∧ Clear m0 (.ringQuery 1 7 2) ∧ Clear m1 (.spxStat 1 1 2) ∧ Clear m1 (.probe 1 2 3) ∧ Clear m0 (.leaseq 1 2 3) ∧ Clear m0 (.mbxs 2 1)
    ∧ Clear m0 (.mbxrT 1 2) ∧ Clear (on fun t => { t with mbx := Vector.replicate 3 [7] }) (.mbxr 1) := by
  refine ⟨by decide +kernel, by decide +kernel, by decide +kernel, .inr ⟨rfl, by decide +kernel, by decide +kernel⟩, reads_of (by decide +kernel),
    by decide +kernel, rfl, rfl, ?_, ?_, ?_, ?_, ?_, ?_, ?_⟩ <;> exact clear_at (by decide +kernel)

/-! ## Premises that hold: loader and storer -/

/-- A machine whose loader runs, its turn it is, with 1 in x1 (ring 1), 2 in x2, one message waiting, x3 a channel; ring 1 has an
empty slot to acquire, ring 2 full ones, ring 3 slots that the loader fills. -/
def ls (st : SlotSt) (own : Owner) : State :=
  { m0.mapTile (fun t => { t with
      loader := { t.loader with running := true, x := (t.loader.x.set 1 1).set 2 2 }, chown := 85
      rings := t.rings.set 1 { valid := true, nslot := 3, st := Vector.replicate 16 st, own := Vector.replicate 16 own }
      mbx := Vector.replicate 3 [9] }) with turn := .loader }

theorem test_premises_ls : (ls .empty .nobody).lsTurn = .loader ∧ (ls .empty .nobody).tile.ringNo ((ls .empty .nobody).xreg .loader 1).toNat = some 1
    ∧ (∃ k t, (ls .empty .nobody).tile.acquire (lsOwner .loader) 1 = .got k t) ∧ (∃ k t, (ls .full .nobody).tile.take (lsOwner .loader) 1 = .got k t)
    ∧ ((ls .filling .loader).tile.rings[1]).slotNo ((ls .filling .loader).xreg .loader 2).toNat = some 2
    ∧ (ls .filling .loader).tile.mayPublish (lsOwner .loader) 1 2 = true ∧ (ls .draining .loader).tile.mayFree (lsOwner .loader) 1 2 = true
    ∧ (ls .draining .loader).tile.copying 1 2 = false ∧ (ls .empty .nobody).tile.owns (lsAgentOf .loader) 3 = true
    ∧ ((ls .empty .nobody).tile.chans[3]).err = false ∧ ((ls .empty .nobody).tile.chans[3]).jobs = []
    ∧ (ls .empty .nobody).writeBacks ((ls .empty .nobody).tile.chans[3]).lines = .ok (ls .empty .nobody)
    ∧ ((ls .empty .nobody).tile.mbx[2]).length < 8 ∧ (∃ v l, (ls .empty .nobody).tile.mbx[(lsBox .loader).val] = v :: l)
    ∧ (∃ s : State, ∃ u j, s.lsTurn = .loader ∧ copyChecks s .loader 0 s.tile.setup[0] = .ok (u, j) ∧ (s.tile.chans[0]).jobs.length < 8) :=
  ⟨rfl, by decide +kernel, ⟨_, _, rfl⟩, ⟨_, _, rfl⟩, by decide +kernel, by decide +kernel, rfl, by decide +kernel,
    rfl, rfl, rfl, rfl, by decide +kernel, ⟨_, _, rfl⟩,
    ⟨(ls .empty .nobody).mapTile fun t => t.putSetup 0 2 0x40000, _, _, rfl, rfl, by decide +kernel⟩⟩

/-- The machine with a word at its loader's pc. -/
def lsAt (w : Nat) : State := { ls .empty .nobody with mem := m0.mem.putNum (lsKey 0 0 false 0) w 4 }

/-- RV32I words from their formats: add x3, x1, x2; addi x3, x1, -1; lui x3, 1; auipc x3, 1; beq x1, x2, 8; jal x1, 8;
jalr x1, 0(x2); lw x3, 0(x0); sw x1, 0(x0); and the two-byte c.nop. -/
theorem test_premises_rv : rvDecode (lsAt 0b0000000_00010_00001_000_00011_0110011 |>.lsWord .loader) = (4, some (.alu .add 3 1 2))
    ∧ rvDecode 0b111111111111_00001_000_00011_0010011 = (4, some (.aluI .add 3 1 0xFFFFFFFF))
    ∧ rvDecode 0b00000000000000000001_00011_0110111 = (4, some (.lui 3 0x1000))
    ∧ rvDecode 0b00000000000000000001_00011_0010111 = (4, some (.auipc 3 0x1000))
    ∧ rvDecode 0b0000000_00010_00001_000_01000_1100011 = (4, some (.branch .eq 1 2 8))
    ∧ rvDecode 0b00000000100000000000_00001_1101111 = (4, some (.jal 1 8))
    ∧ rvDecode 0b000000000000_00010_000_00001_1100111 = (4, some (.jalr 1 2 0))
    ∧ rvDecode 0b000000000000_00000_010_00011_0000011 = (4, some (.load 4 false 3 0 0))
    ∧ rvDecode 0b0000000_00001_00000_010_00000_0100011 = (4, some (.store 4 0 1 0))
    ∧ (rvDecode 1).1 = 2
    ∧ ((lsAt 0).tile.ls .loader).running = true ∧ ((lsAt 0).tile.ls .loader).hold = 0 ∧ (lsAt 0).lsGoes = true ∧ ((lsAt 0).tile.ls .loader).pc.toNat + 4 ≤ 0x4000 ∧ lsCheck 4 0 = none
    ∧ lsCheck 4 65536 = none ∧ lsCheck 4 0x17FFFC = none := by decide +kernel

theorem test_premises_lsAccess : (∃ u, agentPrep .loader (lsAt 0) (lsAt 0) false [(65536, 65540)] = .ok u)
    ∧ ∃ u, agentPrep .loader (lsAt 0) (lsAt 0) true [(65536, 65540)] = .ok u :=
  ⟨prep_ok (by decide +kernel), prep_ok (by decide +kernel)⟩

/-! ## Premises that hold: the steps beside the bundles -/

/-- A row of queue 0 and a row of LAND0 that are due, a result, an operation and a fill that are due, a dirty line. -/
def busyTile : State := mapped.mapTile fun t => { t with
  flights := [⟨t.tc, false, [(.sreg 1, some 7)]⟩], ops := [⟨.st, t.tc⟩], cst := 1, fills := [{ entry := 0, line := 1, spa := 2 ^ 25, due := t.tc, ready := t.tc, cls := 2 }]
  maps := t.maps.set 0 { img := BitVec.ofNat 128 (2 ^ 127 + 2 ^ 126), lines := [⟨0, 1, 2⟩] } }

theorem ok_of {α ε : Type} {x : Except ε α} (h : x.toOption.isSome = true) : ∃ u, x = .ok u := by
  cases x <;> first | exact ⟨_, rfl⟩ | cases h

theorem error_of {α ε : Type} {x : Except ε α} (h : x.toOption.isSome = false) : ∃ u, x = .error u := by
  cases x <;> first | exact ⟨_, rfl⟩ | cases h

theorem test_premises_landings : (∃ f, busyTile.tile.flights = [] ++ f :: [] ∧ f.due ≤ busyTile.tile.tc)
    ∧ (∃ o, busyTile.tile.ops = [] ++ o :: [] ∧ o.due ≤ busyTile.tile.tc)
    ∧ (∃ w, busyTile.tile.fills = [] ++ w :: [] ∧ w.due ≤ busyTile.tile.tc ∧ busyTile.cutOff w.part w.spa = none)
    ∧ busyTile.cluster.ticks = true ∧ (busyTile.tile.maps[0]).valid = true ∧ (∃ x, (busyTile.tile.maps[0]).line 0 = some x ∧ x.mask ≠ 0)
    ∧ (∃ u, busyTile.writeBack 0 0 = .ok u) ∧ ∃ u, (windowed true).writeBack 0 0 = .error u :=
  ⟨⟨_, rfl, Nat.le_refl _⟩, ⟨_, rfl, Nat.le_refl _⟩, ⟨_, rfl, Nat.le_refl _, by decide +kernel⟩, by decide +kernel, by decide +kernel,
    ⟨_, rfl, by decide +kernel⟩, ok_of (by decide +kernel), error_of (by decide +kernel)⟩

/-- The machine with the parity of grid row 1 and of accumulator row 0 in error, and an uncorrectable error at scratchpad byte 70
and at device memory byte 2^25 + 5. -/
def damaged (s : State) : State :=
  { s with tile := { s.tile with badRows := 2, badAcc := 1 }, bad := [spKey 0 0 (spPhys 0 70), 2 ^ 25 + 5] }

/-- A job that copies one byte from 0 to 0, its job fired or not, in channel 0. -/
def job (fired : Bool) : CopyJob := { words := copying.tile.setup[0], fired := fired }
def jobbed (fired : Bool) : State := copying.mapTile fun t => { t with chans := t.chans.set 0 { jobs := [job fired] } }

theorem test_premises_copies : (jobbed false).tile.chans[0].jobs = job false :: [] ∧ (job false).fired = false
    ∧ (jobbed false).tile.chans[0].err = false ∧ (job false).src.ring = none ∧ (job false).dst.ring = none
    ∧ (let j := job false
       (jobbed false).tile.heldUp j.id (j.feet ++ j.src.placed (jobbed false).tile j.id (j.derived j.src.base (·.sstr)) false
         ++ j.dst.placed (jobbed false).tile j.id (j.derived j.dst.base (·.dstr)) true) = false)
    ∧ (job false).slots (jobbed false).tile 0 = .ok
    ∧ (jobbed true).tile.chans[0].jobs = job true :: [] ∧ (job true).due ≤ (jobbed true).tile.tc ∧ 0 < (job true).count
    ∧ (job true).windows (jobbed true) 0 = .ok (jobbed true) ∧ (job true).kept (jobbed true).tile = false
    ∧ (job true).windows (damaged (jobbed true)) 0 = .ok (damaged (jobbed true))
    ∧ (jobbed true).copyCut (job true) = none ∧ (damaged (jobbed true)).copyCut (job true) = none :=
  ⟨rfl, rfl, rfl, by decide +kernel, by decide +kernel, by decide +kernel, by decide +kernel, rfl, by decide +kernel, by decide +kernel,
    rfl, rfl, rfl, rfl, rfl⟩

/-- A speculation on ring 0 at the end of each of its stages. -/
def speculating (published shadowDone : Bool) (verdict : Option Bool) : State := (ringed .filling .loader).mapTile fun t =>
  { t with
    rings := t.rings.set 0 { (t.rings[0]) with hist := [(0, t.tc)] }
    spec := some { pt := 16, chk := t.toArch, depth := 1, ring := some 0, published := published, shadowDone := shadowDone
                   verdict := verdict } }

theorem test_premises_speculation : ((speculating false false none).tile.rings[0]).hist = [(0, (speculating false false none).tile.tc)]
    ∧ (∃ p, (speculating false false none).tile.spec = some p ∧ p.ring = some 0 ∧ p.shadowDone = false
        ∧ p.shadowDue ≤ (speculating false false none).tile.tc)
    ∧ (∃ p, (speculating true true none).tile.spec = some p ∧ p.ring = some 0 ∧ p.published = true ∧ p.shadowDone = true
        ∧ p.verdict = none ∧ p.cmpDue ≤ (speculating true true none).tile.tc)
    ∧ (∃ p, (speculating true true (some true)).tile.spec = some p ∧ p.verdict = some true ∧ p.deps = []
        ∧ (speculating true true (some true)).tile.releasing = none)
    ∧ (speculating true true none).cluster.ticks = true ∧ (speculating false false none).historyPrep 0 = .ok (speculating false false none)
    ∧ (speculating false false none).shadowPrep 0 = .ok (speculating false false none)
    ∧ (∃ p, (speculating true true none).tile.spec = some p ∧ (speculating true true none).comparePrep p 0 = .ok (speculating true true none))
    ∧ ∃ p, (speculating true true (some false)).tile.spec = some p ∧ p.verdict = some false :=
  ⟨rfl, ⟨_, rfl, rfl, rfl, by decide +kernel⟩, ⟨_, rfl, rfl, rfl, rfl, rfl, by decide +kernel⟩, ⟨_, rfl, rfl, rfl, rfl⟩, by decide +kernel, rfl, rfl, ⟨_, rfl, rfl⟩, ⟨_, rfl, rfl⟩⟩

/-- A team asked to leave stops before its speculation is squashed, so that nothing runs again from the speculation point
(R160, R405 steps 1 and 2). -/
theorem test_leave_squashes :
    let k : Team := { oneTeam with leave := some .swapRequest }
    let stop := fun (grace : Bool) => ((speculating false false none).mapTile fun t => { t with stopped := true, grace := grace })
    ((stop true).tryLeave k).tile.spec.isSome = true ∧ ((stop false).tryLeave k).tile.spec = none
      ∧ ((stop false).tryLeave k).tile.squashes = 1 := by
  and_intros <;> decide +kernel

/-- A machine that releases what a commit has left to it: a store of one byte at 4, or nothing, with a deferred fault or none. -/
def releasing (held : List Held) (fault : Option TrapInfo) : State := on fun t => { t with releasing := some ⟨held, fault⟩ }

theorem test_premises_release : (∃ r l, (releasing [⟨16, .store [(4, [7])]⟩] none).tile.releasing = some r ∧ r.held = ⟨16, .store [(4, [7])]⟩ :: l)
    ∧ (∃ u, (releasing [⟨16, .store [(4, [7])]⟩] none).releaseHeld ⟨16, .store [(4, [7])]⟩ = .done u)
    ∧ (∀ x, x ∈ [((4 : Nat), [(7 : Byte)])] → (releasing [⟨16, .store [(4, [7])]⟩] none).tile.edge true x.1 (x.1 + x.2.length) = false) ∧ (releasing [⟨16, .store [(4, [7])]⟩] none).tile.cst < 24
    ∧ (∃ r k, (releasing [] none).tile.releasing = some r ∧ r.held = [] ∧ r.fault = none ∧ (releasing [] none).team = some k)
    ∧ ∃ r k e, (releasing [] (some { cause := .straddle })).tile.releasing = some r ∧ r.held = [] ∧ r.fault = some e
        ∧ (releasing [] (some { cause := .straddle })).team = some k ∧ (releasing [] none).cluster.ticks = true :=
  ⟨⟨_, _, rfl, rfl⟩, ⟨_, rfl⟩, by decide +kernel, by decide +kernel, ⟨_, _, rfl, rfl, rfl, rfl⟩, ⟨_, _, _, rfl, rfl, rfl, rfl, by decide +kernel⟩⟩

/-- The machine whose bundle at 16 is a header and add x1, x2, x3; flagged n times in a row. -/
def flaggedTimes (n : Nat) : State :=
  { on (fun t => { t with flagged := n }) with mem := m0.mem.putNum (codeKey 16) 0xA04110C0 4 }

/-- The fault domain 0 with a WDOG of 1, its task stalled since 0 at time 5; a loader that has faulted. -/
def stalledLong : State :=
  { on (fun t => { t with stallSince := some 0, loader := { t.loader with fault := some { cause := .straddle } } }) with
    time := 5, mem := m0.mem.putNum 40 1 8 }

/-- The machine of m0 with a waiter for semaphore 1, its task at the block at 0, or at the one at 64 that waits. -/
def atBlock (pc : Nat) : State :=
  { on (fun t => { t with pc := pc }) with
    clusters := State.reset.clusters.set 0 { running with waiters := [⟨⟨0, 0⟩, [(1, 5)], false⟩] } }

theorem test_premises_timing : (flaggedTimes 6).turn = .core ∧ (flaggedTimes 6).issuing = true ∧ (flaggedTimes 6).tile.flagged < 7
    ∧ (flaggedTimes 7).issuing = true ∧ 7 ≤ (flaggedTimes 7).tile.flagged ∧ m0.clusters[0].state = .running
    ∧ (∃ x, stalledLong.tile.task = some x) ∧ stalledLong.tile.stallSince = some 0 ∧ fld (stalledLong.fdWord 5) 0 32 = 1
    ∧ (1 : Nat) < stalledLong.time.toNat - 0 ∧ (stalledLong.tile.ls .loader).fault = some { cause := .straddle }
    ∧ stalledLong.tile.stopped = false ∧ stalledLong.tile.ending = none ∧ stalledLong.tile.spec = none
    ∧ (stalledLong.mapTile fun t => { t with stopped := true, grace := true }).tile.grace = true ∧ stalledLong.cluster.ticks = true
    ∧ (lsAt 0).turn = .loader ∧ (lsAt 0).cluster.ticks = true ∧ (lsAt 0).lsIssues .loader = true ∧ ((lsAt 0).tile.ls .loader).flagged < 7 := by
  refine ⟨rfl, ?_, ?_, ?_, ?_, ?_, ⟨_, rfl⟩, rfl, ?_, ?_, rfl, rfl, rfl, rfl, rfl, ?_, rfl, ?_, ?_, ?_⟩ <;> decide +kernel

theorem test_premises_blocks : (atBlock 0).clusters[0].waiters = ⟨⟨0, 0⟩, [(1, 5)], false⟩ :: []
    ∧ (atBlock 0).clusters[0].holds [(1, 5)] = true ∧ (atBlock 0).canGo ⟨0, 0⟩ = true ∧ (∃ n : Nat, ((1 : SemNo), n) ∈ [((1 : SemNo), 5)])
    ∧ (atBlock 0).tile.releasing = none ∧ (atBlock 64).tile.releasing = none
    ∧ isDescriptor 0 ((atBlock 0).codeWord 0) = true ∧ (atBlock 0).blockTarget 0 = none
    ∧ (∃ d, (atBlock 0).descriptorAt 0 = some d ∧ d.waits = [])
    ∧ isDescriptor 64 ((atBlock 64).codeWord 64) = true ∧ (atBlock 64).blockTarget 64 = none
    ∧ (∃ d ws wl, (atBlock 64).descriptorAt 64 = some d ∧ d.waits = ws :: wl ∧ (∃ p, p ∈ d.waits ∧ p.2 ≠ 0)
        ∧ (atBlock 64).mayTake d.waits = true)
    ∧ (atBlock 0).cluster.ticks = true ∧ (atBlock 0).tile.spec = none ∧ (atBlock 64).homeShut = false ∧ (atBlock 64).cluster.ticks = true
    ∧ (atBlock 64).tile.engerr.getLsbD 63 = false ∧ (atBlock 64).calm 3 :=
  ⟨rfl, by decide +kernel, by decide +kernel, ⟨5, List.mem_singleton.mpr rfl⟩, rfl, rfl, by decide +kernel, by decide +kernel, ⟨_, rfl, rfl⟩,
    by decide +kernel, by decide +kernel, ⟨_, _, _, rfl, rfl, ⟨_, List.mem_cons_self .., by decide +kernel⟩, by decide +kernel⟩, by decide +kernel, rfl, by decide +kernel, by decide +kernel, by decide +kernel, rfl, rfl, rfl⟩

/-! ## Data errors -/

/-- Whether the checks of an access raise a trap, and which. -/
def Prep.trap? (p : Prep) : Option TrapInfo :=
  match p with
  | .trap i => some i
  | .ok _ | .stall _ => none

theorem prep_trap {p : Prep} {i : TrapInfo} (h : Prep.trap? p = some i) : p = .trap i := by
  cases p <;> simp [Prep.trap?] at h
  rw [h]

theorem test_premises_errors : Ready (damaged (tagged 1)) (.fadd h1 h1 h1)
    ∧ (.cell 1 0 : Site) ∈ (slotOf (.fadd h1 h1 h1)).reads (damaged (tagged 1)).tile
    ∧ (damaged m0).bad.contains (spKey 0 0 (spPhys (damaged m0).tile.spswz ((damaged m0).tile.shadowed 70))) = true
    ∧ ((List.range 6).all fun k => !(damaged m0).bad.contains (spKey 0 0 (spPhys 0 (64 + k)))) = true
    ∧ (beats 4).tile.badAcc = 0 ∧ (damaged (beats 4)).tile.badAcc ≠ 0 ∧ Clear (damaged (beats 4)) .macc
    ∧ (∃ w, (damaged busyTile).tile.fills = [] ++ w :: [] ∧ w.who = .core ∧ w.spa = 2 ^ 25)
    ∧ ((damaged (jobbed true)).copyMeets { job true with words := (job true).words.set 0 70 }) = some 0
    ∧ (jobbed true).copyMeets (job true) = none
    ∧ m1.homeError (.sp 4096) 8 = none := by
  refine ⟨ready_at ?_, ?_, ?_, ?_, ?_, ?_, clear_at ?_, ⟨_, rfl, rfl, rfl⟩, ?_, ?_, ?_⟩ <;> decide +kernel

/-- R263, R394: the read of 8 bytes at 64 traps SP_UNCORRECTABLE at line 64; a write there does not. -/
theorem test_spUncorrectable : memPrep (damaged m0) (damaged m0) false [(64, 72)] = .trap { cause := .spUncorrectable, slot := 4, val := 64 }
    ∧ passes (damaged m0) true [(64, 72)] = true ∧ passes (damaged m0) false [(72, 80)] = true :=
  ⟨prep_trap (by decide +kernel), by decide +kernel, by decide +kernel⟩

/-- The tile and its cluster's PARITY count after a step. -/
def after (o : Host.Outcome State Fault Refusal) : Option (Tile × Word) :=
  match o with
  | .next t => some (t.tile, t.clusters[0].parity)
  | .fault _ | .refused _ => none

/-- R50, R392, R445: GRID_PARITY, cause 49, without effect on the destination, and counted. -/
theorem test_gridParity : ((after (exec (.fadd h1 h1 h1) (damaged (tagged 1)))).any fun p =>
    p.1.trapst.toNat / 2 ^ 58 == 49 && p.1.flights.isEmpty && p.2 == 1 && p.1.ending.isSome) = true := by decide +kernel

/-- R80, R392: ACCUM_PARITY, cause 50, of a drain of row 0 and not of row 1. -/
theorem test_accumParity : ((after (exec (.mdrain 0 0 .fp32 true) (damaged m1))).any fun p => p.1.trapst.toNat / 2 ^ 58 == 50) = true
    ∧ ((after (exec (.mdrain 1 0 .fp32 true) (damaged m1))).any fun p => p.1.trapst == 0) = true := by decide +kernel

/-- R263: the fill of the line at 2^25 raises MACHINE_CHECK, cause 55, at the line of byte 5, and the window line stays
untouched. -/
theorem test_machineCheck : ((after (exec .windowFillReturn (damaged busyTile))).any fun p =>
    p.1.trapst.toNat / 2 ^ 58 == 55 && p.1.trapval == BitVec.ofNat 64 (2 ^ 25) && ((p.1.maps[0]).line 1).isNone) = true := by
  decide +kernel

/-! ## Premises that hold: traffic and collectives -/

/-- A put of no bytes to semaphore 1 of cluster 0 that counts 5, its data there; the machine to which it comes, the semaphore
at v. -/
def put0 : PutMsg := { src := ⟨0, 0⟩, job := 1, sem := 1, word := BitVec.ofNat 64 (5 * 2 ^ 31 + 4), lo := 0, pages := [], data := some [] }
def putting (v : Fin 65536) : State :=
  { m0 with puts := [put0], clusters := m0.clusters.set 0 { running with sems := Vector.replicate 64 { val := v, granted := true, putOpen := true } } }

theorem test_premises_traffic : (putting 65530).puts = put0 :: [] ∧ put0.due ≤ (putting 65530).time.toNat ∧ put0.tries = 0
    ∧ (putting 65530).putPrep put0 = some (.ok (putting 65530)) ∧ putDev put0.word = (putting 65530).device.toNat
    ∧ (putting 65530).diesJoined (dieOf put0.src.cl) (dieOf (Fin.ofNat 48 (putClu put0.word))) = true
    ∧ ((putting 65530).clusters[0]).lets = true ∧ (((putting 65530).clusters[0]).sems[1]).putOpen = true
    ∧ ((putting 65530).parts[((putting 65530).partAt put0.src).val]).clu.getLsbD 0 = true
    ∧ (((putting 65530).clusters[0]).sems[1]).val.val + putCnt put0.word ≤ 65535
    ∧ 65535 < (((putting 65531).clusters[0]).sems[1]).val.val + putCnt put0.word
    ∧ (∀ p, p ∈ put0.pages → (putting 65530).cutFrom 0 0 p.spa = none)
    ∧ (putting 65530).blocked ((putting 65530).putRoute put0) = false
    ∧ ((putting 65530).clusters[0]).jam = false ∧ ({ (putting 65530).clusters[0] with jam := true } : Cluster).jam = true := by
  refine ⟨rfl, ?_, rfl, rfl, ?_, ?_, ?_, ?_, ?_, ?_, ?_, ?_, ?_, ?_, rfl⟩ <;> decide +kernel

/-- A row that is due on the circuit from end 1 to end 2 of the one tile, refused n times before, the end holding some rows. -/
def row (n : Nat) : RowMsg := { src := ⟨0, 0⟩, send := 1, cells := Row.zero, depth := 0, tries := n, isQueue := false }
def rowing (n held : Nat) : State :=
  { m0.mapTile (fun t => { t with
      ends := (t.ends.set 1 (BitVec.ofNat 64 (2 ^ 63 + 2 * 2 ^ 20))).set 2 (BitVec.ofNat 64 (2 ^ 63 + 2 ^ 62 + 2 ^ 20))
      recvRows := List.replicate held ⟨2, Row.zero, none⟩ }) with rows := [row n] }

theorem test_premises_circuitRows : (rowing 0 3).rows = row 0 :: [] ∧ (row 0).due ≤ (rowing 0 3).time.toNat
    ∧ ((rowing 0 3).clusters[((rowing 0 3).rowTo (row 0)).val]).lets = true ∧ (rowing 0 3).tile.deadEnds.contains 1 = false
    ∧ (rowing 0 3).diesJoined (dieOf 0) (dieOf (Fin.ofNat 48 (endCluster (rowing 0 3).tile.ends[1]))) = true
    ∧ (rowing 0 3).receiver ⟨0, 0⟩ 1 (rowing 0 3).tile.ends[1] = some (.live ⟨0, 0⟩)
    ∧ (((rowing 0 3).recvTile (.live ⟨0, 0⟩)).recvRows.filter fun x => x.cend == endEnd (rowing 0 3).tile.ends[1]).length = 3
    ∧ (rowing 0 4).receiver ⟨0, 0⟩ 1 (rowing 0 4).tile.ends[1] = some (.live ⟨0, 0⟩)
    ∧ (((rowing 0 4).recvTile (.live ⟨0, 0⟩)).recvRows.filter fun x => x.cend == endEnd (rowing 0 4).tile.ends[1]).length = 4
    ∧ (rowing 1 3).receiver ⟨0, 0⟩ 1 (rowing 1 3).tile.ends[1] = some (.live ⟨0, 0⟩) ∧ 0 < (row 1).tries
    ∧ (rowing 0 3).blocked ((rowing 0 3).route 0 ((rowing 0 3).rowTo (row 0))) = false
    ∧ ({ up := true } : Link).up = true := by
  refine ⟨rfl, ?_, ?_, ?_, ?_, ?_, ?_, ?_, ?_, ?_, ?_, ?_, rfl⟩ <;> decide +kernel

/-- The example of R417: eight routers from cluster 0 of CD0 to cluster 6 of CD1; in slot 10 a row at once in step with its table
takes one slot at its one router, and a revolution more without a table entry. -/
theorem test_route : routeOver 0 0 [0] 6 = [0, 4, 5, 6, 7, 16, 17, 18]
    ∧ hopsFrom 0 (routeOver 0 0 [0] 4) = [⟨0, 3, 0⟩, ⟨4, 2, 1⟩, ⟨5, 2, 4⟩, ⟨6, 2, 4⟩, ⟨7, 5, 4⟩, ⟨16, 0, 5⟩] := by decide +kernel
theorem test_slot : slotStart 10 0 = 80 ∧ slotStart 10 81 = 592
    ∧ (m0.mapDie 0 fun d => { d with router := [(10, 128#8)] }).passed 80 [⟨0, 0, 0⟩] = 88 ∧ m0.passed 80 [⟨0, 0, 0⟩] = 600 := by
  decide +kernel

/-- A member of a collective of one FP32 element in group 7, its group of a size. -/
def member (size : Nat) : Member :=
  { tile := ⟨0, 0⟩, team := 0, ltile := 0, rank := 0, size := size, sem := 1, word := BitVec.ofNat 64 (7 * 2 ^ 48 + 2 ^ 40 + 1)
    src := 0, dst := 4, job := 1, data := some [0, 0, 0, 0] }
def joined (c : Coll) : State := { m0 with colls := [c] }
def coll (size : Nat) (abort : Option Cause) : Coll := { gid := 7, members := [member size], abort := abort }

theorem test_premises_collectives : (joined (coll 1 none)).colls = coll 1 none :: [] ∧ (coll 1 none).members = member 1 :: []
    ∧ (joined (coll 1 none)).chunkReady 0 (coll 1 none) = true ∧ (joined (coll 1 none)).chunkReady 1 (coll 1 none) = false
    ∧ (joined (coll 1 none)).chunkFills 0 (coll 1 none) = none ∧ (coll 2 (some .peerUnreachable)).abort = some .peerUnreachable
    ∧ (joined (coll 2 none)).doomed (coll 2 (some .peerUnreachable)) = true ∧ (coll 2 none).abort = none
    ∧ (∀ x, x ∈ (joined (coll 1 none)).goals 0 (coll 1 none) → ((joined (coll 1 none)).clusters[x.val]).lets = true)
    ∧ (∃ m, m ∈ (coll 2 none).members ∧ m.out = false) :=
  ⟨rfl, rfl, by decide +kernel, by decide +kernel, by decide +kernel, rfl, by decide +kernel, rfl, by decide +kernel, _, List.mem_singleton.mpr rfl, rfl⟩

/-! ## Premises that hold: teams and dispatch -/

/-- A task pool with one task, on an idle tile whose team's budget of tile cycles has room; the team without a pool. -/
def entry0 : PoolEntry := ⟨0, 9, 0, 0⟩
def pooled (pool : List PoolEntry) : State := { m0.mapTile (fun t => { t with task := none }) with
  teams := [{ oneTeam with pool := pool }], mem := m0.mem.putNum 16 (2 ^ 64 - 1) 8 }

/-- A team that waits for a message, or stands swapped for that wait, one there; the context pool has room. -/
def waiting : Team := { oneTeam with state := .swapWaiting, saved := [(0, (on fun t => { t with mbx := Vector.replicate 3 [7] }).tile)],
                                     trigger := some { ltile := 0, kind := .mailbox, takes := [] } }
def roomy : State := { m0.mapTile (fun t => { t with wait := some ⟨.mailbox, 0⟩ }) with
  time := 2, mem := m0.mem.putNum 8 1 8, dies := m0.dies.set 0 { m0.dies[0] with ctxpoolsz := 4096 } }
def released : State := { m0 with parts := m0.parts.set 0 { m0.parts[0] with releases := [⟨0, 0, 0, []⟩] } }

theorem test_premises_teams : (pooled [entry0]).tile.task = none ∧ (pooled [entry0]).cluster.state = .running
    ∧ (pooled [entry0]).cluster.serves (pooled [entry0]).tile = true ∧ (pooled [entry0]).tile.team = some (0, 0)
    ∧ (∃ k, (pooled [entry0]).findTeam 0 = some k ∧ (pooled [entry0]).offers k = true ∧ k.pool = entry0 :: [])
    ∧ (∃ k, (pooled [entry0]).poolChoice = some (k, entry0, false)) ∧ (pooled [entry0]).awayChoice.isNone = true
    ∧ (∃ k, (pooled []).findTeam 0 = some k ∧ (pooled []).tokenReady k = true)
    ∧ (∃ w, roomy.waitedLong = some (oneTeam, w)) ∧ roomy.findTeam 0 = some oneTeam ∧ roomy.hasPool oneTeam = true
    ∧ (∃ k, ({ m0 with teams := [waiting] } : State).findTeam 0 = some k ∧ k.state = .swapWaiting
        ∧ ({ m0 with teams := [waiting] } : State).triggerMet k = true)
    ∧ (∃ r, released.releaseDue 0 = some r ∧ r.held = []) ∧ (∀ t, t ∈ released.tiles → (released.clusters[t.cl.val]).lets = true) ∧ ({ oneTeam with token := { pos := 1 } } : Team).token.pos ≠ 0 := by
  refine ⟨rfl, rfl, ?_, rfl, ⟨_, rfl, ?_, rfl⟩, ⟨_, rfl⟩, ?_, ⟨_, rfl, ?_⟩, ⟨_, rfl⟩, rfl, ?_, ⟨_, rfl, rfl, ?_⟩, ⟨_, rfl, rfl⟩, ?_, ?_⟩ <;> decide +kernel

/-- A launch of one tile in the region at 8192, its declarations at 12288; a slot that binds it as team 5, or returns team 0,
on tile 0 of cluster 0 (R362: VALID, RETURN, TEAM, PART, TILE). -/
def launch0 : QTeam := { ref := 0, record := 0, node := none, words := (((Vector.replicate 16 0).set 5 8192).set 6 12288).set 7 1
                         arg := 0, part := 0, readyAt := 0 }
def slot0 (return' : Nat) : Vector Word 4 := (Vector.replicate 4 0).set 0 (BitVec.ofNat 64 (2 ^ 63 + return' * 2 ^ 62 + (5 - 5 * return') * 2 ^ 40))
def binding (return' : Nat) (teams : List Team) : State :=
  { State.reset with
    clusters := State.reset.clusters.set 0 running
    parts := State.reset.parts.set 0 { clu := 1 }
    queued := [launch0], teams := teams
    dies := State.reset.dies.set 0 { State.reset.dies[0] with slots := (State.reset.dies[0]).slots.set 0 (slot0 return') }
    mem := (Memory.putNum [] 8208 (2 ^ 128 - 1) 16).putNum 16 (2 ^ 128 - 1) 16 }

/-- Whether the checks of a bind let it go on. -/
def goes (r : BindR) : Bool :=
  match r with
  | .go _ => true
  | .refuse _ | .later _ | .hold => false

theorem go_of {r : BindR} (h : goes r = true) : ∃ l, r = .go l := by cases r <;> first | exact ⟨_, rfl⟩ | cases h

/-- The declarations of the launch, as its snapshot gives them. -/
def decl0 (s : State) : Decl := ⟨launch0.part, s.snapWord launch0.part (s.snapOf launch0) (launch0.words[6]).toNat⟩

theorem test_premises_bind : (binding 0 []).nextSlot 0 = some 0 ∧ (binding 0 []).fenced 0 (slot0 0) false = false ∧ ((binding 0 []).dies[0].slots[0])[0].getLsbD 62 = false
    ∧ ((binding 0 []).queued.find? fun q => q.ref == ((slot0 0)[3]).toNat) = some launch0
    ∧ (binding 0 []).findTeam (bindTeamNo (slot0 0)) = none
    ∧ (∃ l, (binding 0 []).bindChecks launch0 (decl0 (binding 0 [])) 1 (slot0 0) 0 = .go l)
    ∧ (binding 1 [waiting]).nextSlot 0 = some 0 ∧ (binding 1 [waiting]).fenced 0 (slot0 1) true = false ∧ ((binding 1 [waiting]).dies[0].slots[0])[0].getLsbD 62 = true
    ∧ (binding 1 [waiting]).findTeam (bindTeamNo (slot0 1)) = some waiting ∧ waiting.swapped = true ∧ waiting.abort = false
    ∧ (∃ l, (binding 1 [waiting]).returnChecks waiting (slot0 1) 0 = .go l) := by
  refine ⟨?_, ?_, ?_, rfl, rfl, go_of ?_, ?_, ?_, ?_, rfl, rfl, rfl, go_of ?_⟩ <;> decide +kernel

/-- With every semaphore granted already, the same launch is refused; so is a return of no image; a slot for a quarantined cluster,
and one for a cluster that its partition is to lose, is fenced. -/
theorem test_premises_refused : (∃ n, (binding 0 []).bindChecks launch0 ⟨0, fun k => if k = 3 then 2 else 0⟩ 1 (slot0 0) 0 = .refuse n)
    ∧ (∃ n, ({ binding 1 [waiting] with clusters := State.reset.clusters.set 0 { state := .quarantine } } : State).returnChecks
        waiting (slot0 1) 0 = .refuse n)
    ∧ ({ binding 0 [] with clusters := State.reset.clusters.set 0 { state := .quarantine } } : State).nextSlot 0 = some 0
    ∧ ({ binding 0 [] with clusters := State.reset.clusters.set 0 { state := .quarantine } } : State).fenced 0 (slot0 0) false = true
    ∧ ({ binding 1 [waiting] with clusters := State.reset.clusters.set 0 { state := .quarantine } } : State).nextSlot 0 = some 0
    ∧ ({ binding 1 [waiting] with clusters := State.reset.clusters.set 0 { state := .quarantine } } : State).fenced 0 (slot0 1) true = true
    ∧ ({ binding 0 [] with parts := State.reset.parts.set 0 { clu := 1, draining := true, reqClu := 2 } } : State).fenced 0 (slot0 0) false = true := by
  refine ⟨⟨_, rfl⟩, ⟨_, rfl⟩, ?_, ?_, ?_, ?_, ?_⟩ <;> decide +kernel

/-! ## Premises that hold: queues and graphs -/

/-- The first function selected with every feature, its first queue enabled with room for two records at 16384; the region at
8192 active; records of a kind and a state; the first 64 GiB mapped to themselves by a page table at 2^20. -/
def hosted (records : List Rec) (tearing : List Teardown) : State :=
  { m0 with
    parts := m0.parts.set 0 { m0.parts[0] with ptroot := BitVec.ofNat 64 (2 ^ 20) }
    fns := m0.fns.set 0 { ack := true, feat := 0xFFFFFFFF, valid := true, nq := 1
                          queues := (Vector.replicate 16 {}).set 0 { base := 16384, log := 1, enable := true, snapsz := 4096 } }
    records := records, tearing := tearing
    mem := ((((m0.mem.putNum (2 ^ 20) (2 ^ 63 + 65) 8).putNum (2 ^ 20 + 2 ^ 14) (2 ^ 63 + 2 ^ 62 + 2 ^ 61 + 2 ^ 60 + 2 ^ 59) 8).putNum
      (8192 + 56) 1 8).putNum 20480 (2 ^ 56) 8).putNum 24576 (3 * 2 ^ 56) 8 }

/-- A launch record; a graph record of one node at 24576, a barrier; a record that retires the region (R356). -/
def words0 (kind : Nat) : Vector Word 16 :=
  let w := (Vector.replicate 16 (0 : Word)).set 0 (BitVec.ofNat 64 (kind * 2 ^ 56))
  if kind = 1 then ((w.set 5 8192).set 6 12288).set 7 1
  else if kind = 2 then (w.set 3 24576).set 5 1
  else w.set 3 8192
def rec0 (kind : Nat) (state : RecState) : Rec :=
  { id := 0, fn := 0, q := 0, words := words0 kind, snap := [], state := state }

theorem test_premises_records : (hosted [] []).hears 0 0 = true ∧ (2 + 131072 - ((hosted [] []).queue 0 0).head.val) % 131072 ≤ 2 ^ ((hosted [] []).queue 0 0).log.toNat
    ∧ startable ((hosted [rec0 1 .waiting] []).recsOf 0 0) = some (rec0 1 .waiting)
    ∧ (rec0 1 .waiting).allowed (hosted [] []).fns[0] = true ∧ (rec0 1 .waiting).kind = 1
    ∧ (hosted [rec0 1 .waiting] []).launchStatus (hosted [] []).fns[0] 0 [] (rec0 1 .waiting).nums = 0
    ∧ startable ((hosted [rec0 2 .waiting] []).recsOf 0 0) = some (rec0 2 .waiting) ∧ (rec0 2 .waiting).kind = 2
    ∧ (rec0 2 .waiting).graphFormed (hosted [] []).fns[0] = true ∧ ((hosted [] []).fns[0]).valid = true
    ∧ ((hosted [] []).readGraph (rec0 2 .waiting)).graphOk = true
    ∧ startable ((hosted [rec0 3 .waiting] []).recsOf 0 0) = some (rec0 3 .waiting) ∧ (rec0 3 .waiting).kind = 3
    ∧ (rec0 3 .waiting).retireFormed (hosted [] []).fns[0] = true ∧ (hosted [] []).regionOk (hosted [] []).fns[0] 8192 = true
    ∧ (hosted [rec0 1 (.ended 9)] []).findRec 0 = some (rec0 1 (.ended 9)) := by
  refine ⟨?_, ?_, rfl, ?_, ?_, ?_, rfl, ?_, ?_, rfl, ?_, rfl, ?_, ?_, ?_, rfl⟩ <;> decide +kernel

theorem test_premises_teardown : ((hosted [] []).tearing.find? fun t => t.fn == 0 && t.q == 0) = none
    ∧ ((hosted [] [⟨0, 0, false, true⟩]).tearing.find? fun t => t.fn == 0 && t.q == 0) = some ⟨0, 0, false, true⟩
    ∧ (hosted [] [⟨0, 0, false, true⟩]).recsOf 0 0 = []
    ∧ ∀ y, y ∈ (State.reset.fns[0]).queues.toList → y.enable = false := by
  refine ⟨rfl, rfl, rfl, ?_⟩; decide +kernel

/-- A graph of one node, its words given, in a state; the record at 20480 is a launch like rec0's. -/
def node0 (words : List Nat) (state : NodeState) : Node := { words := vecAt 8 fun k => BitVec.ofNat 64 (words.getD k 0), state := state }
def graph0 (words : List Nat) (state : NodeState) : Rec := { rec0 2 .running with nodes := [node0 words state, node0 [3 * 2 ^ 56] (.done 0)] }
def running0 (r : Rec) : State := let s := hosted [r] []
  { s with mem := ((s.mem.putNum (20480 + 40) 8192 8).putNum (20480 + 48) 12288 8).putNum (20480 + 56) 1 8 }

theorem nodeCopy_of {part : PartNo} {a b n : Nat} {s : State} (h : (State.nodeCopy part a b n s).2 = true) :
    ∃ u, State.nodeCopy part a b n s = (u, true) := ⟨_, Prod.ext rfl h⟩

theorem nodeWrite_of {part : PartNo} {a v n : Nat} {acc : Access} {s : State} (h : (s.nodeWrite part a v n acc).2 = true) :
    ∃ u, s.nodeWrite part a v n acc = (u, true) := ⟨_, Prod.ext rfl h⟩

/-- The nodes: launch; copy of four bytes from 28672 to 32768; signal at 32768 that adds 1; cond on the word at 8248 (1), its
body the second node; loop on it, of two iterations, its count at 32768. -/
theorem test_premises_nodes : (∀ y, y ∈ (running0 (graph0 [2 ^ 56, 20480] .idle)).records → y.id = 0 → y = graph0 [2 ^ 56, 20480] .idle)
    ∧ (graph0 [2 ^ 56, 20480] .idle).nodeReady 0 = true
    ∧ (running0 (graph0 [2 ^ 56, 20480] .idle)).launchStatus (hosted [] []).fns[0] 0 []
        ((List.range 16).map ((running0 (graph0 [2 ^ 56, 20480] .idle)).snapWord 0 [] 20480)) = 0
    ∧ (graph0 [3 * 2 ^ 56] .idle).nodeReady 0 = true ∧ (graph0 [2 * 2 ^ 56, 28672, 32768, 4] .idle).nodeReady 0 = true
    ∧ (∃ u, State.nodeCopy 0 28672 32768 4 (running0 (graph0 [2 * 2 ^ 56, 28672, 32768, 4] .idle)) = (u, true))
    ∧ (∃ u, (running0 (graph0 [4 * 2 ^ 56, 32768, 1, 1] .idle)).nodeWrite 0 32768 1 8 .atomic = (u, true))
    ∧ (graph0 [5 * 2 ^ 56, 8248, 1 + 2 ^ 16] .idle).nodeReady 0 = true
    ∧ (running0 (graph0 [5 * 2 ^ 56, 8248, 1 + 2 ^ 16] .idle)).nodeRead 0 8248 4 = some 1
    ∧ (graph0 [3 * 2 ^ 56] .running).node 0 = node0 [3 * 2 ^ 56] .running ∧ ({ node0 [3 * 2 ^ 56] .running with ended := some 0 } : Node).ended = some 0
    ∧ (graph0 [6 * 2 ^ 56, 8248, 1 + 2 ^ 16, 2, 32768] .idle).loopDue 0 = true
    ∧ (graph0 [6 * 2 ^ 56, 8248, 1 + 2 ^ 16, 1, 32768] .body).loopDue 0 = true
    ∧ (∃ u, (running0 (graph0 [6 * 2 ^ 56, 8248, 1 + 2 ^ 16, 1, 32768] .body)).nodeWrite 0 32768 1 4 .write = (u, true)) := by
  refine ⟨?_, ?_, ?_, ?_, ?_, nodeCopy_of ?_, nodeWrite_of ?_, ?_, ?_, rfl, rfl, ?_, ?_, nodeWrite_of ?_⟩
  · intro y h _; exact List.mem_singleton.mp h
  all_goals decide +kernel

/-! ## Premises that hold: windows, Kiln, power, the fleet -/

/-- An invalidation in progress in partition 0, of the page at 0; a die whose halt names team 0. -/
def invalidating : State := { m0 with parts := m0.parts.set 0 { m0.parts[0] with inv := some (0, 0, false) } }
def halting (leave : Option Cause) (state : TeamState) : State := { m0 with
  teams := [{ oneTeam with leave := leave, state := state }]
  dies := m0.dies.set 0 { m0.dies[0] with haltBusy := true, haltTeam := 0, haltFor := 0 } }

theorem test_premises_windows : (m0.parts[0]).inv = none ∧ (invalidating.parts[0]).inv = some (0, 0, false)
    ∧ (∀ t, t ∈ invalidating.tiles → invalidating.busyTile 0 (0, 0, false) t = false)
    ∧ (m0.dies[0]).haltBusy = false ∧ m0.findTeam 5 = none ∧ m0.findTeam 0 = some oneTeam ∧ dieOf oneTeam.home = 0
    ∧ oneTeam.state = .resident ∧ oneTeam.leave = none
    ∧ (∃ k, ({ m0 with teams := [{ oneTeam with state := .halted }] } : State).findTeam 0 = some k ∧ k.state = .halted ∧ k.abort = false)
    ∧ (∃ k, (halting (some .debugHalt) .resident).findTeam (halting (some .debugHalt) .resident).dies[0].haltFor = some k
        ∧ k.state = .resident ∧ k.leave = some .debugHalt ∧ (halting (some .debugHalt) .resident).still k.id .debugHalt = true)
    ∧ (m0.clusters[0]).lets = true ∧ (m0.tileAt ⟨0, 1⟩).team = none ∧ (m0.tileAt ⟨0, 1⟩).task = none ∧ 1572856 / 8 * 8 + 8 ≤ 0x180000 := by
  refine ⟨rfl, rfl, ?_, rfl, rfl, rfl, rfl, rfl, rfl, ⟨_, rfl, rfl, rfl⟩, ⟨_, rfl, rfl, rfl, ?_⟩, ?_, ?_, ?_, ?_⟩ <;> decide +kernel

/-- A partition that has clusters 0 and 1 and is asked to have cluster 1 alone; one that drains for it, no team there. -/
def ceding (draining : Bool) (teams : List Team) : State :=
  { m0 with teams := teams, parts := m0.parts.set 0 { clu := 3, draining := draining, reqClu := 2 } }

theorem test_premises_partitions : ((clustersOf 2).any fun c => ((ceding false []).partOf c).any fun o => o != 0) = false
    ∧ ((ceding false []).parts[0]).ltcfg = 0 ∧ ((ceding false []).parts[0]).draining = false
    ∧ (∀ c, c ∈ clustersOf (3 &&& ~~~2) → (ceding false []).homed c = false ∧ (ceding false []).slotPending c = false)
    ∧ ((ceding true []).parts[0]).draining = true ∧ ((ceding true []).parts[0]).reqClu = 2
    ∧ (∀ c, c ∈ clustersOf (3 &&& ~~~2) → (ceding true []).homed c = false)
    ∧ (ceding true [oneTeam]).homed 0 = true := by
  refine ⟨?_, rfl, rfl, ?_, rfl, rfl, ?_, ?_⟩ <;> decide +kernel

/-- Cluster 0 changed. -/
def inCluster (c : Cluster) : State := { m0 with clusters := m0.clusters.set 0 c, teams := [], time := 3600000000000 }

/-- A cluster that tests its patterns at an anchor and a voltage, having begun there at 800 mV; one that has still to hop there. -/
def testing (v : Nat) (a : Fin 8) : Cluster :=
  { running with state := .calibrating, freq := anchorFreq a, volt := v, cal := some ⟨16, a, 800⟩ }
def hopping (a : Fin 8) : Cluster := { testing 700 a with state := .hopping, freq := 16, hop := some ⟨16, anchorFreq a, false⟩ }

theorem test_premises_kiln : (inCluster running).mayRun 0 17 = true ∧ (17 : Nat) ≠ running.freq
    ∧ (∃ h : Hop, ({ running with state := .hopping, hop := some ⟨16, 17, false⟩ } : Cluster).hop = some h ∧ h.new = 17)
    ∧ (∃ n t0, ({ running with retry := some (17, 1000) } : Cluster).retry = some (n, t0) ∧ t0 ≤ (inCluster running).time.toNat
        ∧ (inCluster { running with retry := some (17, 1000) }).mayRun 0 n = true)
    ∧ running.canary = true ∧ running.krec.good = true
    ∧ 1024 < (({ running with replayLog := List.replicate 1025 3600000000000 } : Cluster).replayLog.filter fun t =>
        (inCluster running).time.toNat < t + 100000).length
    ∧ running.warnAt + 3600000000000 ≤ (inCluster running).time.toNat
    ∧ (inCluster { running with calib := true }).idleCluster 0 = true
    ∧ running.krecNext ≤ (inCluster running).time.toNat
    ∧ running.waits 3600000000000 = false ∧ (inCluster (testing 700 7)).clusters[0].cal = some ⟨16, 7, 800⟩
    ∧ 500 < (testing 700 7).volt ∧ (testing 700 7).volt < 800 ∧ 800 ≤ (testing 800 7).volt ∧ (testing 700 0).state = .calibrating
    ∧ (inCluster running).mayRise running = true ∧ ({ running with state := .hopping, hop := some ⟨16, 17, false⟩ } : Cluster).cal = none
    ∧ ({ testing 700 7 with freq := 16 } : Cluster).freq ≠ anchorFreq 7 ∧ ({ testing 700 7 with freq := 16 } : Cluster).waits 3600000000000 = false
    ∧ (∃ h : Hop, (hopping 7).hop = some h ∧ h.quar = false ∧ h.new = 112) ∧ (testing 700 7).waits 3600000000000 = false
    ∧ (testing 700 7).freq = anchorFreq 7 ∧ (testing 700 0).freq = anchorFreq 0 ∧ (hopping 7).cal = some ⟨16, 7, 800⟩
    ∧ (∀ n : Nat, (Config.freeWord n).getLsbD 63 = true ∨ (Config.freeWord n).getLsbD 63 = false)
    ∧ ∃ key, (State.reset.nvs.dieKeys[0]).sign = some key := by
  refine ⟨?_, ?_, ⟨_, rfl, rfl⟩, ⟨_, _, rfl, ?_, ?_⟩, rfl, rfl, ?_, ?_, ?_, ?_, ?_, rfl, ?_, ?_, ?_, rfl, ?_, rfl, ?_, rfl,
    ⟨_, rfl, rfl, rfl⟩, rfl, rfl, rfl, rfl, fun _ => by simp, ⟨_, rfl⟩⟩
    <;> decide +kernel

/-- The in-rush arbiter with a request and n parts in their start. -/
def arbiter (r : PowerReq) (n : Nat) : State :=
  { State.reset with power := { State.reset.power with inrush := [(0, r)], rising := List.replicate n (.cluster 1, 100) } }
/-- Cluster 0 asleep, with power; a module that draws 2601 W, cluster 0 its fastest; one that has drawn 2470 W for 1 ms, cluster 0
lowered. -/
def asleep (lost : Bool) : State := { inCluster { running with state := .retention, lost := lost } with
  power := { m0.power with rising := [(.cluster 0, 3600000000001)] } }
def drawing (w : Nat) : State := { m0 with
  power := { m0.power with watts := w, above := decide (2600 < w), coolSince := some 0 }
  clusters := m0.clusters.set 0 { running with freq := 17, held := some 20 }, time := 100000 }

theorem test_premises_power : ((arbiter (.cluster 0) 3).power.rising.filter fun x => 0 < x.2).length < (arbiter (.cluster 0) 3).power.inmax
    ∧ (arbiter (.cluster 0) 3).power.inrush = (0, .cluster 0) :: [] ∧ ((arbiter (.cluster 0) 3).clusters[0]).state = .off
    ∧ State.reset.nvs.trim[(dieOf 0).val] = true ∧ (arbiter (.macros 0 0) 3).power.inrush = (0, .macros 0 0) :: []
    ∧ running.reten = true ∧ running.issuedAt + 10000 ≤ (inCluster running).time.toNat
    ∧ (∀ t, t ∈ (inCluster running).tiles → t.cl = 0 → t.still = true)
    ∧ (asleep false).granted 0 = true ∧ ((asleep false).clusters[0]).lost = false ∧ ((asleep true).clusters[0]).lost = true
    ∧ (inCluster { running with state := .quarantine }).clusters[0].state = .quarantine
    ∧ (asleep false).callers 0 = false ∧ ((asleep false).clusters[0]).router = .up
    ∧ ((asleep false).clusters[0]).flitAt + 13 ≤ (asleep false).time.toNat
    ∧ (arbiter (.cluster 0) 0).callers 0 = true := by
  refine ⟨?_, rfl, rfl, ?_, rfl, rfl, ?_, ?_, ?_, rfl, rfl, rfl, ?_, rfl, ?_, ?_⟩ <;> decide +kernel

theorem test_premises_throttle : ((List.finRange 48).filter fun c => (drawing 2601).tooMuch (drawing 2601).clusters[c.val]) ≠ []
    ∧ (∀ t, (drawing 2601).power.throttleAt = some t → t + 10000 ≤ (drawing 2601).time.toNat)
    ∧ (drawing 2470).power.coolSince = some 0 ∧ 0 + 100000 ≤ (drawing 2470).time.toNat ∧ (drawing 2470).power.above = false
    ∧ (drawing 2470).clusters[0].held = some 20 ∧ (drawing 2470).mayRun 0 18 = true ∧ (drawing 2470).clusters[0].ticks = true
    ∧ (drawing 2470).clusters[0].waits (drawing 2470).time.toNat = false
    ∧ (drawing 2470).clusters[0].temp.toNat ≤ (drawing 2470).power.tjmax := by
  refine ⟨?_, ?_, rfl, ?_, rfl, rfl, ?_, rfl, rfl, ?_⟩
  case refine_2 => intro t h; cases h
  all_goals decide +kernel

theorem test_premises_fleet : ({ sel := { ack := true, major := 3 } } : Port).sel.ack = true ∧ (selOf (BitVec.ofNat 64 (3 * 2 ^ 48)) true).major = 3
    ∧ (State.reset.dies[(nextCore 0).val]).duty = none ∧ State.reset.nvs.spares = true ∧ running.spare = none
    ∧ ({ running with spare := some 1 } : Cluster).spare = some 1 ∧ (1 : Fin 16) ≠ 2 ∧ running.sramce ≠ BitVec.allOnes 64
    ∧ State.reset.attest.busy = false ∧ ({ busy := true } : Attest).busy = true ∧ State.reset.nvs.identity = true
    ∧ (∃ key, State.reset.nvs.idKey.sign = some key) ∧ ({ left := 0 } : Key).left = 0
    ∧ (∃ d : DieNo, ({ active := #v[0, 1, 0, 0] } : Nvs).active[d.val] = 1) ∧ (∀ d : DieNo, State.reset.nvs.active[d.val] ≠ 1)
    ∧ spaClass State.reset (2 ^ 39 - 1) = .dm ∧ State.reset.hostReaches (2 ^ 37 - 1) = true ∧ State.reset.nvs.trim[(Fin.ofNat 4 (0 / 6) : DieNo)] = true ∧ running.spareBad = false
    ∧ ((putting 65530).clusters[0]).jam = false ∧ (((putting 65530).clusters[0]).sems[1]).granted = true
    ∧ (((putting 65530).clusters[0]).sems[1]).putOpen = true ∧ (((putting 65530).clusters[0]).sems[1]).val.val + 5 ≤ 65535 := by
  refine ⟨rfl, ?_, ?_, rfl, rfl, rfl, ?_, ?_, rfl, rfl, rfl, ⟨_, rfl⟩, rfl, ⟨1, rfl⟩, ?_, ?_, ?_, ?_, rfl, ?_, ?_, ?_, ?_⟩ <;> decide +kernel

/-! ## Premises that hold: stores, steps, exceptions -/

theorem safe_m0 : Safe m0 := by unfold Safe; decide +kernel

theorem test_premises_storeFrame : Safe m0 ∧ 0x17FFFC + 4 ≤ 0x180000 ∧ accessCheck m0.alone .any (Size.bytes .w) 0 (Size.bytes .w) = none
    ∧ accessCheck m0.alone .spSlice 4 0 256 = none ∧ accessCheck m0.alone .spSlice 16 0 16 = none ∧ (tagged 1).tile.tag h1 ≠ none
    ∧ Clear m0 (.sts .w 1 2 0) ∧ m0.tile.spec = none ∧ m0.tile.cst < 24 ∧ m0.tile.busy ≤ m0.tile.tc
    ∧ m0.tile.slotsIn 0 4 = [] ∧ m0.tile.winLines 0 4 = [] ∧ (∀ f, f ∈ m0.tile.feet → f.glob = false → f.hi ≤ 0 ∨ 0 + 4 ≤ f.lo)
    ∧ ∃ t, exec (.sts .w 1 2 0) m0 = .next t := by
  refine ⟨safe_m0, ?_, ?_, ?_, ?_, ?_, clear_at (by decide +kernel), rfl, ?_, ?_, ?_, ?_, ?_, ⟨_, rfl⟩⟩ <;> decide +kernel

/-- The machine with three words at its pc, a NOP behind them. -/
def fetching (a b c : Nat) : State := { m0 with
  mem := (((m0.mem.putNum (codeKey 16) a 4).putNum (codeKey 20) b 4).putNum (codeKey 24) c 4).putNum (codeKey 28) 0xD0000000 4 }
/-- With add x1, x2, x3; with the header, ADDI and FADD of DecodeWords; with a pad; with words that decode to nothing. -/
def one : State := fetching 0b1_010_000000_00001_00010_00011_0000000 0xD0000000 0xD0000000
def three : State := fetching 0x82030100 0x28084100 0x30040104
def padding : State := { on (fun t => { t with pc := 28 }) with
  mem := (m0.mem.putNum (codeKey 28) 0x80000000 4).putNum (codeKey 32) 0xD0000000 4 }

/-- Whether a computation gives a value. -/
def gives {α ε : Type} [DecidableEq α] (x : Except ε α) (v : α) : Bool :=
  match x with
  | .ok u => decide (u = v)
  | .error _ => false

theorem eq_of_gives {α ε : Type} [DecidableEq α] {x : Except ε α} {v : α} (h : gives x v = true) : x = .ok v := by
  cases x with
  | ok u => exact congrArg _ (of_decide_eq_true h)
  | error _ => cases h

/-- What an atomic with ar has left at its home when its second boundary comes. -/
def exchanged : State := ((m1.bounded 31 true).putHome (.sp 4096) 7 8).mapTile fun t => t.write (.sreg 5) 0

/-- The premises of an atomic with rel, acq or ar: its home before and after a boundary, and no line to write back at either. -/
theorem test_premises_orderedAtomics : m1.tile.storesPending 31 = false ∧ (m1.tile.peerLost && (31 : Nat).testBit 3) = false
    ∧ (findHome m1.alone (m1.bounded 31 true) 4096 8 true).toOption.isSome = true := by
  refine ⟨?_, ?_, ?_⟩ <;> decide +kernel

theorem test_premises_orderedLines : m1.writeBacks (m1.tile.linesFor 31) = .ok m1 := by
  rw [show m1.tile.linesFor 31 = [] by decide +kernel]; rfl

theorem test_premises_orderedAfter : exchanged.tile.linesFor 31 = [] := by decide +kernel

theorem test_premises_orderedClear : Clear m1 (.aadd 5 1 .rel .tile 31 true) ∧ Clear m1 (.aadd 5 1 .acq .tile 31 true)
    ∧ Clear m1 (.acas 6 1 .ar .tile 31 true) := by and_intros <;> exact clear_at (by decide +kernel)

/-- R364: the spec's own figure, Δ 200, NC 1, root at 2,000 MHz: 250 ns. -/
theorem test_ltwin : ({ m0 with
    parts := m0.parts.set 0 { ltcfg := BitVec.ofNat 64 (200 * 2 ^ 38 + 2 ^ 34) }
    clusters := m0.clusters.set 0 { running with freq := 80 } } : State).ltwin 0 = 250 := by decide +kernel

/-- R430: a cluster above FCAP has to hop to FCAP, one at FCAP does not, one in quarantine is no exception. -/
theorem test_forcedHop : (inCluster { running with freq := 100 }).forcedHop 0 = some 80
    ∧ ((inCluster { running with freq := 100, state := .quarantine }).hopTo 0 80).clusters[0].hop = some ⟨100, 80, true⟩
    ∧ (inCluster { running with freq := 80 }).forcedHop 0 = none := by decide +kernel

/-- R354: a WAITPREV record starts with the record before it complete, whatever else runs, and not before. -/
theorem test_waitPrev : let r := { rec0 1 .waiting with id := 3, prev := some 2, words := (words0 1).set 0 (BitVec.ofNat 64 (3 * 2 ^ 55)) }
    (startable [rec0 1 .running, r]).isSome = true ∧ startable [{ rec0 1 .running with id := 2 }, r] = none := by decide +kernel

/-- Log 48: what is due to come upon the package does, what is due later does not. -/
theorem test_ambient : one.ambientDue.isNone = true
    ∧ ({ m1 with ambient := [(0, .row ⟨0, 0⟩ 5 true)] } : State).ambientDue.any (fun u => u.tile.badRows == 32 && u.ambient.isEmpty) = true
    ∧ ({ m1 with ambient := [(1, .byte 5 true)] } : State).ambientDue.isNone = true
    ∧ ({ damaged m1 with ambient := [(0, .byte (2 ^ 25 + 5) false)] } : State).ambientDue.any (fun u => u.bad.length == 1) = true
    ∧ ({ m1 with ambient := [(0, .temp 0 90)] } : State).ambientDue.any (fun u => u.clusters[0].temp == 90) = true
    ∧ ((running0 (graph0 [4 * 2 ^ 56, 32768, 1, 1] .idle)).nodeRead 0 32768 8).isSome = true
    ∧ (m1.flushSliceLine 0).homeError (.slice 0) 8 = none := by decide +kernel

theorem test_premises_step : one.powered = true ∧ one.agenda = [] ∧ one.tile.ending = none ∧ one.tile.stopped = false
    ∧ one.tile.task.isSome = true ∧ one.cluster.ticks = true ∧ one.turn = .core ∧ (internal one).isNone = true
    ∧ isDescriptor 16 (one.codeWord 16) = false ∧ decodeBundle one.codeWord 16 = .ok ⟨1, false, 0, [(0, .add 1 2 3)]⟩
    ∧ (∃ t, exec (.add 1 2 3) one = .next t)
    ∧ decodeBundle three.codeWord 16 = .ok ⟨3, false, 2, [(0, .addi 4 4 256), (3, .fadd ⟨.h, 40⟩ ⟨.h, 1⟩ ⟨.h, 2⟩)]⟩
    ∧ decodeBundle padding.codeWord 28 = .ok ⟨1, true, 0, []⟩ ∧ (∃ r, decodeBundle m0.codeWord 16 = .error r)
    ∧ isDescriptor 0 ((atBlock 0).codeWord 0) = true ∧ (∃ t, exec .blockStart (atBlock 0) = .next t)
    ∧ Instr.isEvent (.droop 0) = true ∧ (∀ c, Instr.target (.droop 0) = some c → (m0.clusters[c.val]).lets = true)
    ∧ Instr.isEvent (.telemetryClear 0) = true ∧ (∀ c, Instr.target (.telemetryClear 0) = some c → (m0.clusters[c.val]).lets = true)
    ∧ (∃ t, exec (.droop 0) m0 = .next t) ∧ (one.mapTile fun t => { t with stopped := true, grace := true }).tile.grace = true
    ∧ m0.tile.releasing = none ∧ m0.tile.deferred = none
    ∧ busyTile.agenda = [] ∧ ∃ t, internal busyTile = some (.next t) := by
  refine ⟨rfl, rfl, rfl, rfl, rfl, ?_, rfl, ?_, ?_, eq_of_gives ?_, ⟨_, rfl⟩, eq_of_gives ?_, eq_of_gives ?_, error_of ?_, ?_,
    ⟨_, rfl⟩, rfl, ?_, rfl, ?_, ⟨_, rfl⟩, rfl, rfl, rfl, rfl, ⟨_, rfl⟩⟩ <;> decide +kernel

/-- The loader's VL_RACQ x5, x3 at its pc. -/
theorem test_premises_lsStep : (lsAt 0b0000000_00000_00011_000_00101_0001011).turn = .loader
    ∧ ((lsAt 0b0000000_00000_00011_000_00101_0001011).tile.ls .loader).running = true
    ∧ ((lsAt 0b0000000_00000_00011_000_00101_0001011).tile.ls .loader).hold = 0 ∧ (lsAt 0b0000000_00000_00011_000_00101_0001011).lsGoes = true
    ∧ ((lsAt 0b0000000_00000_00011_000_00101_0001011).tile.ls .loader).pc.toNat + 4 ≤ 0x4000
    ∧ rvDecode ((lsAt 0b0000000_00000_00011_000_00101_0001011).lsWord .loader) = (4, some (.vl (.vlRacq 5 3)))
    ∧ (encodeVl (.vlRacq 5 3)).isSome = true ∧ ∃ t, exec (.vlRacq 5 3) (lsAt 0b0000000_00000_00011_000_00101_0001011) = .next t := by
  refine ⟨rfl, rfl, rfl, ?_, ?_, ?_, rfl, ⟨_, rfl⟩⟩ <;> decide +kernel

/-- An instruction of a tile core, its word at 0 and a NOP behind it; one of a loader or storer core. -/
theorem test_premises_roundTrip : (Instr.add 1 2 3).wf = true ∧ encodeVl (.add 1 2 3) = none
    ∧ encode (.add 1 2 3) = some [0b1_010_000000_00001_00010_00011_0000000] ∧ 0 % 32 = 0
    ∧ ((fun a => if a = 0 then 0b1_010_000000_00001_00010_00011_0000000 else 0xD0000000 : Nat → Nat) (0 + 4 * 1)).testBit 31 = true
    ∧ (Instr.vlRacq 5 3).wf = true ∧ encodeVl (.vlRacq 5 3) = some 0b0000000_00000_00011_000_00101_0001011 := by decide +kernel

/-- The machine whose fault domain 0 has a handler at 64 for every cause; in the handler; without a handler. -/
def handling (priv : Bool) : State := { m1 with
  tile := { m1.tile with priv := priv }, mem := (m1.mem.putNum 0 64 8).putNum 8 (2 ^ 64 - 1) 8 }

theorem test_premises_traps : (handling false).fdWord 0 ≠ 0 ∧ fld ((handling false).fdWord 1) Cause.trapInstruction.code 1 = 1
    ∧ (handling false).tile.priv = false ∧ (handling true).tile.priv = true ∧ ¬(m0.fdWord 0 ≠ 0 ∧ fld (m0.fdWord 1) Cause.trapInstruction.code 1 = 1)
    ∧ Cause.trapInstruction.handled = true ∧ Cause.debugHalt.silent = true
    ∧ Cause.watchdog.handled = false ∧ Cause.watchdog.silent = false ∧ Cause.gridParity.handled = false ∧ Cause.gridParity.silent = false := by
  refine ⟨?_, ?_, rfl, rfl, ?_, rfl, rfl, rfl, rfl, rfl, rfl⟩ <;> decide +kernel

theorem test_premises_total : m0.powered = true ∨ m0.agenda ≠ [] := .inl rfl
theorem test_premises_dark : ({ m0 with powered := false } : State).powered = false ∧ m0.agenda = [] := ⟨rfl, rfl⟩

theorem test_premises_memory : Safe m0 ∧ ∃ t, step m0 = .next t := ⟨safe_m0, _, rfl⟩

/-- The numbers 6 and 0.75 lie between powers of two as BlockNumbers has it. -/
theorem test_premises_blockNumbers : (254 : Nat) ≤ 254 ∧ (2 : Nat) ^ 2 ≤ 6 ∧ (6 : Nat) < 2 ^ (2 + 1) ∧ (2 : Int) = (2 : Nat) + 0 := by decide

/-! ## An image that CTXL accepts -/

/-- The header of an image of 290816 bytes without records or scratchpad bytes (R407), its CRC field 0, and after it the eight
bytes that bring the CRC back to 0. -/
def header0 : List Byte :=
  let h := leBytes 0x7A10C7E0 4 ++ leBytes 0x10000 4 ++ leBytes 290816 8 ++ leBytes asz 4 ++ leBytes 0x10000 4 ++ List.replicate 24 0
  h ++ (leBytes (crc64 h) 8).reverse

/-- The header with n zeros behind it. -/
def imageN (n : Nat) : List Byte := header0 ++ List.replicate n 0

/-- Zero bytes leave a CRC of 0. -/
theorem crc64_zeros (l : List Byte) (n : Nat) (h : crc64 l = 0) : crc64 (l ++ List.replicate n 0) = 0 := by
  unfold crc64 at *
  rw [List.foldl_append, h]
  induction n with
  | zero => rfl
  | succ n ih =>
    have h0 : (List.range 8).foldl (fun c _ => crcBit c) (0 ^^^ ((0 : Byte).toNat * 2 ^ 56)) = 0 := eq_of_beq (by decide +kernel)
    rw [List.replicate_succ, List.foldl_cons, h0]; exact ih

theorem header0_length : header0.length = 56 := eq_of_beq (by decide +kernel)

theorem header0_crc : crc64 (header0.take 40 ++ (List.replicate 8 0 ++ header0.drop 48)) = 0 := eq_of_beq (by decide +kernel)

theorem header0_fields : numAt header0 0 4 = 0x7A10C7E0 ∧ numAt header0 6 2 = 1 ∧ numAt header0 22 2 = 1 ∧ numAt header0 16 4 = asz
    ∧ numAt header0 8 8 = 290816 ∧ numAt header0 24 4 = 0 ∧ numAt header0 32 4 = 0 ∧ numAt header0 40 8 = 0 := by decide +kernel

theorem imageN_length (n : Nat) : (imageN n).length = 56 + n := by
  unfold imageN; rw [List.length_append, header0_length, List.length_replicate]

theorem imageN_take (n k : Nat) (h : k ≤ 56) : (imageN n).take k = header0.take k := by
  unfold imageN; rw [List.take_append_of_le_length (by rw [header0_length]; exact h)]

theorem imageN_numAt (m off n : Nat) (h : off + n ≤ 56) : numAt (imageN m) off n = numAt header0 off n := by
  unfold numAt imageN
  rw [List.drop_append_of_le_length (by rw [header0_length]; omega), List.take_append_of_le_length]
  rw [List.length_drop, header0_length]; omega

theorem imageN_ok (n : Nat) (h : n = 290760) : imageOk (imageN n) = true := by
  have hc : crc64 ((imageN n).take 40 ++ List.replicate 8 0 ++ (imageN n).drop 48) = 0 := by
    rw [imageN_take n 40 (by decide)]
    unfold imageN
    rw [List.drop_append_of_le_length (by rw [header0_length]; decide), ← List.append_assoc, List.append_assoc (header0.take 40)]
    exact crc64_zeros _ n header0_crc
  have hn : 56 + n = 290816 := by omega
  obtain ⟨f1, f2, f3, f4, f5, f6, f7, f8⟩ := header0_fields
  unfold imageOk imageLen
  rw [hc, imageN_length, imageN_numAt n 0 4 (by decide), imageN_numAt n 6 2 (by decide), imageN_numAt n 22 2 (by decide),
    imageN_numAt n 16 4 (by decide), imageN_numAt n 8 8 (by decide), imageN_numAt n 24 4 (by decide), imageN_numAt n 32 4 (by decide),
    imageN_numAt n 40 8 (by decide), f1, f2, f3, f4, f5, f6, f7, f8, hn]
  rfl

/-- The machine with that header at the home of 0x4000. -/
def imaged : State := { mapped with mem := mapped.mem.put (2 ^ 25 + 0x4000) header0 }

theorem imaged_blank (k : Nat) (h : 2 ^ 25 ≤ k) (h' : k < 2 ^ 26) : mapped.mem.get k = 0 := by
  have he : mapped.mem.clear (2 ^ 25) (2 ^ 26) = mapped.mem := by decide +kernel
  have := Memory.get_clear (m := mapped.mem) (2 ^ 25) (2 ^ 26) k
  rw [he, if_pos ⟨h, h'⟩] at this
  exact this

theorem getElem?_zeros (l : List Byte) (n k : Nat) (h : k < l.length + n) : (l ++ List.replicate n 0)[k]? = some (l[k]?.getD 0) := by
  rw [List.getElem?_append]
  split
  · rw [List.getElem?_eq_getElem ‹_›]; rfl
  · rw [List.getElem?_replicate, if_pos (by omega), List.getElem?_eq_none (by omega)]; rfl

/-- A page of m bytes gives the image's first n bytes. -/
theorem imaged_bytes (n m r : Nat) (h : n ≤ m) (hr : n ≤ 56 + r) (hm : m ≤ 0x100000) :
    imaged.getPages [⟨0x4000, m, 2 ^ 25 + 0x4000, home0⟩] 0x4000 n = (imageN r).take n := by
  apply List.ext_getElem?
  intro k
  unfold State.getPages
  rw [List.getElem?_map, List.getElem?_take]
  split
  · have hp : pageSpa [⟨0x4000, m, 2 ^ 25 + 0x4000, home0⟩] (0x4000 + k) = 2 ^ 25 + 0x4000 + k := by
      have h1 : 16384 + k < 16384 + m := by omega
      have h2 : 16384 + k - 16384 = k := by omega
      simp [pageSpa, h1, h2]
    rw [List.getElem?_range ‹_›, Option.map_some, hp]
    have hw : mapped.mem.wf = true := by decide +kernel
    unfold imageN
    rw [getElem?_zeros _ _ _ (by rw [header0_length]; omega)]
    unfold imaged
    rw [Memory.get_put _ _ _ hw, if_pos (by omega), imaged_blank _ (by omega) (by omega), show 2 ^ 25 + 0x4000 + k - (2 ^ 25 + 0x4000) = k by omega]
  · rw [List.getElem?_eq_none (by rw [List.length_range]; omega)]; rfl

/-- Whether a probe finds one page and leaves a memory. -/
def finds (x : Except TrapInfo (State × List Page)) (m : Memory) (p : Page) : Bool :=
  match x with
  | .ok (u, ps) => u.mem == m && ps == [p] && (u.bad.isEmpty && (u.cutPage ps).isNone)
  | .error _ => false

theorem found_of {x : Except TrapInfo (State × List Page)} {m : Memory} {p : Page} (h : finds x m p = true) :
    ∃ u, x = .ok (u, [p]) ∧ u.mem = m ∧ u.bad = [] ∧ u.cutPage [p] = none := by
  unfold finds at h
  split at h
  · rw [Bool.and_eq_true, Bool.and_eq_true, Bool.and_eq_true, beq_iff_eq, beq_iff_eq] at h
    obtain ⟨⟨hm, rfl⟩, hb, hc⟩ := h
    exact ⟨_, rfl, hm, List.isEmpty_iff.mp hb, Option.isNone_iff_eq_none.mp hc⟩
  · cases h

theorem getPages_mem {s t : State} (h : s.mem = t.mem) (ps : List Page) (a n : Nat) : s.getPages ps a n = t.getPages ps a n := by
  unfold State.getPages; rw [h]

/-- The first block of the image is read from its page, then all of it. -/
def findsBoth (x : Except TrapInfo (State × List Page)) : Bool :=
  match x with
  | .ok (u, ps) => u.mem == imaged.mem && ps == [⟨0x4000, 64, 2 ^ 25 + 0x4000, home0⟩]
      && finds (probeBox u .read 0x4000 (0x4000 + 290816)) imaged.mem ⟨0x4000, 290816, 2 ^ 25 + 0x4000, home0⟩
  | .error _ => false

theorem both_of {x : Except TrapInfo (State × List Page)} (h : findsBoth x = true) :
    ∃ u w, x = .ok (u, [⟨0x4000, 64, 2 ^ 25 + 0x4000, home0⟩]) ∧ u.mem = imaged.mem
      ∧ probeBox u .read 0x4000 (0x4000 + 290816) = .ok (w, [⟨0x4000, 290816, 2 ^ 25 + 0x4000, home0⟩]) ∧ w.mem = imaged.mem ∧ w.bad = []
        ∧ w.cutPage [⟨0x4000, 290816, 2 ^ 25 + 0x4000, home0⟩] = none := by
  unfold findsBoth at h
  split at h
  · rw [Bool.and_eq_true, Bool.and_eq_true, beq_iff_eq, beq_iff_eq] at h
    obtain ⟨w, hw, hm⟩ := found_of h.2
    exact ⟨_, w, by rw [h.1.2], h.1.1, hw, hm⟩
  · cases h

theorem imaged_probes : ∃ u w, probeBox imaged .read 0x4000 (0x4000 + 64) = .ok (u, [⟨0x4000, 64, 2 ^ 25 + 0x4000, home0⟩]) ∧ u.mem = imaged.mem
    ∧ probeBox u .read 0x4000 (0x4000 + 290816) = .ok (w, [⟨0x4000, 290816, 2 ^ 25 + 0x4000, home0⟩]) ∧ w.mem = imaged.mem ∧ w.bad = []
    ∧ w.cutPage [⟨0x4000, 290816, 2 ^ 25 + 0x4000, home0⟩] = none :=
  both_of (by decide +kernel)

theorem test_premises_ctxl : ∃ u w p q, 0x4000 % 64 = 0 ∧ imaged.tile.drained = true
    ∧ probeBox imaged .read 0x4000 (0x4000 + 64) = .ok (u, [p]) ∧ imageLen (u.getPages [p] 0x4000 64) = 290816
    ∧ probeBox u .read 0x4000 (0x4000 + 290816) = .ok (w, [q]) ∧ imageOk (w.getPages [q] 0x4000 290816) = true
    ∧ (imaged.tile.sreg 5).toNat = 0x4000 ∧ 290816 ≤ (imaged.tile.sreg 6).toNat ∧ w.badPage [q] = none
    ∧ w.cutPage [q] = none ∧ Clear imaged (.ctxl 1 5 6) := by
  obtain ⟨n, hn⟩ : ∃ n, n = 290760 := ⟨_, rfl⟩
  obtain ⟨u, w, hp, hu, hq, hw, hb, hx⟩ := imaged_probes
  have c : Clear imaged (.ctxl 1 5 6) := clear_at (by decide +kernel)
  refine ⟨u, w, _, _, rfl, by decide +kernel, hp, ?_, hq, ?_, rfl, by decide +kernel, ?_, hx, c⟩
  · rw [getPages_mem hu, imaged_bytes 64 64 n (Nat.le_refl _) (by omega) (by decide)]
    unfold imageLen numAt
    rw [List.drop_take, List.take_take]
    exact (imageN_numAt n 8 8 (by decide)).trans header0_fields.2.2.2.2.1
  · rw [getPages_mem hw, imaged_bytes 290816 290816 n (Nat.le_refl _) (by omega) (by decide), List.take_of_length_le]
    · exact imageN_ok n hn
    · rw [imageN_length]; omega
  · simp [State.badPage, State.badAt, hb]

/-! ## A management core (R1): words of the RISC-V base documents -/

/-- A package whose first core has some registers and finds words from address 0 on. -/
def rvCoreAt (c : MgmtCore) (ws : List Nat) : State :=
  { State.reset with
    dies := State.reset.dies.set 0 { mgmt := c }, mem := Memory.put [] 0 (ws.flatMap fun w => leBytes w 4) }

/-- What some instructions leave of it. -/
def rvCoreRun (s : State) : Nat → MgmtCore
  | 0 => (s.dies[0]).mgmt
  | n + 1 => rvCoreRun (s.strike (.mgmtRun 0)) n

theorem test_rv64_words :
    rv64Decode 0b111111111111_00001_000_00011_0010011 = some (.aluI .add 3 1 (-1))
    ∧ rv64Decode 0b0000000_00010_00001_000_00011_0111011 = some (.aluW .add 3 1 2)
    ∧ rv64Decode 0b000000001000_00010_011_00100_0000011 = some (.load 8 false 4 2 8)
    ∧ rv64Decode 0b00000_00_00001_00010_011_00101_0101111 = some (.amo .add 8 5 2 1)
    ∧ rv64Decode 0b00011_01_00010_00001_000_00011_1000111 = some (.fma .d false true 3 1 2 3 0)
    ∧ rv64Decode 0b110_011_110_00_011_00 = some (.store 4 14 11 24)
    ∧ rv64Decode 0b011_001_110_00_011_00 = some (.load 8 false 11 14 8)
    ∧ rv64Decode 0b000000000000_00000_000_00000_1110011 = none := by decide +kernel

/-- 1/3 in double precision, inexact: 0x3FD5555555555555. -/
theorem test_rv64_divides : RvFmt.fop .d .div (.of .rne) 0x3FF0000000000000 0x4008000000000000 = (0x3FD5555555555555, { nx := true }) := by
  decide +kernel

/-- An atomic addition leaves the old word in its register and the sum in memory; the pc moves on. -/
theorem test_rv64_runs :
    let c := rvCoreRun (rvCoreAt { x := (Vector.replicate 32 0).set 1 7 |>.set 2 8 } [0b00000_00_00001_00010_011_00101_0101111, 0, 0x10, 0]) 1
    c.x[5] = 0x10 ∧ c.pc = 4 := by decide +kernel

end Sys2Proof.Tests
end

section
/-! SUPPORT. What a tile holds: the cells that a grid operand names (R46, R47) and where a scratchpad byte lies (R54). -/

namespace Sys2Proof.Machine

/-! ## The grid file -/

/-- A lane of a grid operand is the cell that laneCell names. -/
theorem Tile.row_getElem (t : Tile) (g : GridOp) (i : Fin 64) :
    (t.row g)[i] = t.cell (laneCell t.rrb g i).1 (laneCell t.rrb g i).2 := by
  simp [Tile.row]

theorem laneCell_h (rrb : Fin 16) (k i : Fin 64) : laneCell rrb ⟨.h, k⟩ i = (physRow rrb k, i) := rfl
theorem laneCell_v (rrb : Fin 16) (k i : Fin 64) : laneCell rrb ⟨.v, k⟩ i = (physRow rrb i, k) := rfl
theorem laneCell_d (rrb : Fin 16) (k i : Fin 64) : laneCell rrb ⟨.d, k⟩ i = (physRow rrb i, i + k) := rfl
theorem laneCell_a (rrb : Fin 16) (k i : Fin 64) : laneCell rrb ⟨.a, k⟩ i = (physRow rrb i, k - i) := rfl

/-- A logical row of 16 to 31 turns with the rotating base (R47). -/
theorem physRow_of_turning (rrb : Fin 16) {j : Fin 64} (h : 16 ≤ j.val ∧ j.val < 32) :
    physRow rrb j = ⟨(j.val - 16 + rrb.val) % 16 + 16, by omega⟩ := by
  rw [physRow, if_pos h]
  exact Fin.ext (Nat.mod_eq_of_lt (by omega))

/-- Every other logical row is its own physical row (R47). -/
theorem physRow_of_still (rrb : Fin 16) {j : Fin 64} (h : ¬(16 ≤ j.val ∧ j.val < 32)) : physRow rrb j = j :=
  if_neg h

@[simp] theorem Tile.loopBack_rrb (t old : Tile) : (t.loopBack old).rrb = old.rrb - 1 := rfl

/-- A loop-back branch counts the rotating base down, from 0 to 15 again (R47, R204). -/
theorem Tile.loopBack_rrb_val (t old : Tile) : (t.loopBack old).rrb.val = (old.rrb.val + 15) % 16 := by
  rw [Tile.loopBack_rrb, Fin.val_sub, Fin.val_one]
  omega

/-! ## The scratchpad -/

/-- The scratchpad's local addresses (R54). -/
theorem regionOf_eq_sp_iff (x : Nat) : regionOf x = .sp ↔ x < 0x180000 := by
  constructor
  · intro h
    unfold regionOf at h
    split at h
    next hx => exact hx
    next =>
      split at h
      · cases h
      · split at h <;> cases h
  · exact fun hx => if_pos hx

/-- A byte keeps its line, whatever the swizzle (R54). -/
theorem spPhys_line (swz : BitVec 24) (x : Nat) : spPhys swz x / 2 ^ 11 = x / 2 ^ 11 := by
  obtain ⟨bank, hlt, hy, -⟩ := spPhys_parts swz x
  omega

/-- A byte keeps its place in its line, whatever the swizzle (R54). -/
theorem spPhys_offset (swz : BitVec 24) (x : Nat) : spPhys swz x % 64 = x % 64 := by
  obtain ⟨bank, hlt, hy, -⟩ := spPhys_parts swz x
  omega

/-- The bank of a byte: x[10:6], turned by x[15:11] where its segment is swizzled (R54). -/
theorem spBank_eq (swz : BitVec 24) (x : Nat) :
    spBank swz x = (x / 2 ^ 6 % 2 ^ 5) ^^^ (if swz.getLsbD (x / 2 ^ 16 % 2 ^ 5) then x / 2 ^ 11 % 2 ^ 5 else 0) := by
  obtain ⟨bank, hlt, hy, hbank⟩ := spPhys_parts swz x
  have hseg : x / 2 ^ 11 / 2 ^ 5 = x / 2 ^ 16 := by omega
  have hsp : spBank swz x = bank := by
    rw [spBank, fld]
    omega
  rw [hsp, hbank, hseg]

/-- An unswizzled segment (R54). -/
theorem spBank_of_plain {swz : BitVec 24} {x : Nat} (h : swz.getLsbD (x / 2 ^ 16 % 2 ^ 5) = false) :
    spBank swz x = x / 2 ^ 6 % 2 ^ 5 := by
  rw [spBank_eq, h, if_neg Bool.false_ne_true, Nat.xor_zero]

/-- A swizzled segment (R54). -/
theorem spBank_of_swizzled {swz : BitVec 24} {x : Nat} (h : swz.getLsbD (x / 2 ^ 16 % 2 ^ 5) = true) :
    spBank swz x = (x / 2 ^ 6 % 2 ^ 5) ^^^ (x / 2 ^ 11 % 2 ^ 5) := by
  rw [spBank_eq, if_pos h]

end Sys2Proof.Machine

namespace Sys2Proof

open Machine

/-- Settles O18: a lane is the cell that laneCell names, and its row is the one that physRow turns. -/
theorem gridDirections : Obligations.GridDirections := by
  intro t k i phys
  have hphys : ∀ j, physRow t.rrb j = phys j := by
    intro j
    by_cases h : 16 ≤ j.val ∧ j.val < 32
    · rw [physRow_of_turning _ h]
      exact (if_pos h).symm
    · rw [physRow_of_still _ h]
      exact (if_neg h).symm
  simp only [Tile.row_getElem, laneCell_h, laneCell_v, laneCell_d, laneCell_a, hphys]
  exact ⟨trivial, trivial, trivial, trivial, t.loopBack_rrb_val t⟩

/-- Settles O59: line and offset of a byte are those of its address; its bank is spBank, case by case of its segment. -/
theorem scratchpadBanks : Obligations.ScratchpadBanks := by
  intro swz x y segment low high line
  refine ⟨regionOf_eq_sp_iff x, fun hx => ⟨?_, ?_, spPhys_offset swz x, spBank_of_plain, spBank_of_swizzled⟩, ?_⟩
  · show x / 2 ^ 11 % 2 ^ 10 < 768
    omega
  · show spPhys swz x / 2 ^ 11 = x / 2 ^ 11 % 2 ^ 10
    rw [spPhys_line]
    omega
  · rintro s rfl
    rfl

end Sys2Proof
end

section
/-! SUPPORT. The numbers of a block: the value of a scale (R96) and the choice of one (R111). -/

namespace Sys2Proof.Machine

/-- The exponent of a format's largest power of two (R111). -/
def emaxOf : MxFmt → Int
  | .e4m3 => 8
  | .e5m2 => 15
  | .e2m1 => 2
  | .int8 => 6

/-- A number between bounds. -/
theorem clampInt_eq_max_min {lo hi : Int} (h : lo ≤ hi) (v : Int) : clampInt lo hi v = max lo (min hi v) := by
  unfold clampInt
  split
  · omega
  · split <;> omega

/-! ## The value of a scale -/

theorem e8m0_of_le {n : Nat} (h : n ≤ 254) : e8m0 n = some ((n : Int) - 127) := by
  have hn : ¬(n == 255) = true := by
    rw [beq_iff_eq]
    omega
  rw [e8m0, if_neg hn]

/-- A scale byte from 0 to 254 moves the exponent (R96). -/
theorem scaled_fin {n : Nat} (h : n ≤ 254) (neg : Bool) (m : Nat) (e : Int) :
    scaled (.fin neg m e) n = .fin neg m (e + ((n : Int) - 127)) := by
  rw [scaled, e8m0_of_le h]
  rfl

/-- The scale byte 0xFF makes a NaN (R96). -/
@[simp] theorem scaled_nanByte (x : Num) : scaled x 255 = .nan := rfl

/-! ## The choice of a scale -/

@[simp] theorem chooseScale_nan (f : MxFmt) : chooseScale f .nan = 255 := rfl
@[simp] theorem chooseScale_inf (f : MxFmt) (neg : Bool) : chooseScale f (.inf neg) = 255 := rfl
@[simp] theorem chooseScale_zero (f : MxFmt) (neg : Bool) (e : Int) : chooseScale f (.fin neg 0 e) = 0 := rfl

/-- ⌊log2 |x|⌋, from the powers of two around the significand. -/
theorem ilog2_of_between {m j : Nat} (hm : m ≠ 0) (hlo : 2 ^ j ≤ m) (hhi : m < 2 ^ (j + 1)) (e : Int) :
    ilog2 m e = j + e := by
  rw [ilog2, (Nat.log2_eq_iff hm).mpr ⟨hlo, hhi⟩]

/-- The scale of a finite block maximum other than 0 (R111). -/
theorem chooseScale_fin (f : MxFmt) (neg : Bool) {m : Nat} (hm : m ≠ 0) (e : Int) :
    (chooseScale f (.fin neg m e) : Int) = max 0 (min 254 (ilog2 m e - emaxOf f + 127)) := by
  have hchoose : chooseScale f (.fin neg m e) = (clampInt 0 254 (ilog2 m e - emaxOf f + 127)).toNat := by
    cases f <;> exact if_neg (mt beq_iff_eq.mp hm)
  rw [hchoose, clampInt_eq_max_min (by decide), Int.toNat_of_nonneg (Int.le_max_left ..)]

end Sys2Proof.Machine

namespace Sys2Proof

open Machine

/-- Settles O60: a scale byte moves the exponent or makes a NaN; the scale chosen for a finite maximum is clamped from the
exponent of the power of two below it. -/
theorem blockNumbers : Obligations.BlockNumbers := by
  intro f x n neg m e k emax
  have hemax : emaxOf f = emax := by cases f <;> rfl
  refine ⟨fun h => scaled_fin h neg m e, scaled_nanByte x, chooseScale_nan f, chooseScale_inf f neg, chooseScale_zero f neg e, ?_⟩
  rintro j hlo hhi rfl
  have hm : m ≠ 0 := Nat.ne_of_gt (Nat.lt_of_lt_of_le (Nat.two_pow_pos j) hlo)
  rw [chooseScale_fin f neg hm, ilog2_of_between hm hlo hhi, hemax]

end Sys2Proof
end

