-- ==== Sys2Proof/Proofs/Scalar.lean ====
section
/-! SUPPORT. The scalar slot: the values that its instructions write, and what a written value leaves (R51, R217 to R222). -/

namespace Sys2Proof

open Machine

/-! ## Values of the scalar slot -/

/-- The signed order of words is that of their integer values. -/
theorem ite_slt {α : Sort _} (x y : Word) (a b : α) : (if x.slt y then a else b) = if x.toInt < y.toInt then a else b := by
  simp [BitVec.slt]

/-- The unsigned order of words is that of their natural values. -/
theorem ite_ult {α : Sort _} (x y : Word) (a b : α) : (if x.ult y then a else b) = if x.toNat < y.toNat then a else b := by
  simp [BitVec.ult]

/-- Adding up a test's truth values counts the elements that pass it. -/
theorem foldl_toNat_eq_countP {α : Type} (p : α → Bool) (l : List α) (n : Nat) :
    l.foldl (fun n i => n + (p i).toNat) n = n + l.countP p := by
  induction l generalizing n with
  | nil => rfl
  | cons a l ih =>
    rw [List.foldl_cons, ih, List.countP_cons]
    cases p a
    · rfl
    · simp; omega

/-- The 1 bits of a word are counted (R217). -/
theorem popc64_eq_countP (x : Word) : popc64 x = (List.range 64).countP fun i => x.getLsbD i := by
  simp [popc64, foldl_toNat_eq_countP]

/-- The condition codes compare as integers or as natural numbers (R220). -/
theorem intCond_eq {w : Nat} (cc : IntCC) (x y : BitVec w) :
    intCond cc x y =
      match cc with
      | .eq => decide (x = y)
      | .ne => decide (x ≠ y)
      | .lt => decide (x.toInt < y.toInt)
      | .ge => decide (y.toInt ≤ x.toInt)
      | .ltu => decide (x.toNat < y.toNat)
      | .geu => decide (y.toNat ≤ x.toNat) := by
  cases cc
  case ne => exact (decide_not ..).symm
  case ge => simp [intCond, BitVec.slt, ← decide_not]
  case geu => simp [intCond, BitVec.ult, ← decide_not]
  all_goals rfl

/-! ## What a write and the end of a bundle leave -/

/-- A write of a scalar register touches the results in flight and that register (R51, R313). -/
theorem Machine.Tile.write_sreg_eq (t : Tile) (d : SReg) (v : Word) :
    t.write (.sreg d) v =
      { t with flights := (t.supersede [.sreg d]).flights, sregs := if d = 0 then t.sregs else t.sregs.set d.val v } := by
  simp only [Tile.write, Tile.land, Tile.setSreg]
  split <;> rfl

/-- A write of a predicate touches the results in flight and that predicate (R51, R313). -/
theorem Machine.Tile.write_pred_eq (t : Tile) (p : PReg) (v : Word) :
    t.write (.pred p) v =
      { t with flights := (t.supersede [.pred p]).flights, preds := if p = 0 then t.preds else t.preds.set p.val (v.getLsbD 0) } := by
  simp only [Tile.write, Tile.land, Tile.setPred]
  split <;> rfl

/-- A scalar register reads what was written to it, s0 as 0 (R51). -/
theorem Machine.Tile.sreg_write_same (t : Tile) (d : SReg) (v : Word) :
    (t.write (.sreg d) v).sreg d = if d = 0 then 0 else v := by
  rw [Tile.write_sreg_eq]
  simp only [Tile.sreg]
  split <;> simp

/-- A scalar register stays when another one is written. -/
theorem Machine.Tile.sreg_write_other (t : Tile) {d r : SReg} (v : Word) (h : r ≠ d) :
    (t.write (.sreg d) v).sreg r = t.sreg r := by
  have hv : d.val ≠ r.val := fun e => h (Fin.ext e.symm)
  rw [Tile.write_sreg_eq]
  simp only [Tile.sreg]
  by_cases hd : d = 0
  · simp [hd]
  · simp [hd, Vector.getElem_set_ne _ _ hv]

/-- A predicate reads the flag written to it, p0 as true (R51). -/
theorem Machine.Tile.pred_write_same (t : Tile) (p : PReg) (b : Bool) :
    (t.write (.pred p) (boolWord b)).pred p = if p = 0 then true else b := by
  rw [Tile.write_pred_eq]
  simp only [Tile.pred]
  split
  · rfl
  · cases b <;> simp [boolWord]

/-- A predicate stays when another one is written. -/
theorem Machine.Tile.pred_write_other (t : Tile) {p q : PReg} (v : Word) (h : q ≠ p) :
    (t.write (.pred p) v).pred q = t.pred q := by
  have hv : p.val ≠ q.val := fun e => h (Fin.ext e.symm)
  rw [Tile.write_pred_eq]
  simp only [Tile.pred]
  by_cases hp : p = 0
  · simp [hp]
  · simp [hp, Vector.getElem_set_ne _ _ hv]

/-- The end of a bundle without an SCSEL touches SCALEST alone (R228). -/
theorem Machine.Tile.endScale_none (t : Tile) :
    t.endScale none = { t with xrd := if t.pv then t.xpend else t.xrd, pv := false } := by
  cases h : t.pv <;> simp only [Tile.endScale, h] <;> rfl

/-- What a bundle of one word that neither branches nor asks anything of its end leaves of the tile. -/
theorem Machine.State.moved_tile (s u : State) :
    (s.moved u).tile =
      { u.tile.settle with
        xrd := if u.tile.pv then u.tile.xpend else u.tile.xrd, pv := false, pc := s.tile.pc + 4
        tc := s.tile.tc + issueCost s.tile.reissue false } := by
  have h : (s.moved u).tile = { (u.tile.endScale none).settle with
      pc := s.tile.pc + 4, tc := s.tile.tc + issueCost s.tile.reissue false } := rfl
  rw [h, Tile.endScale_none]
  rfl

/-- A completed instruction leaves what it leaves, and nothing else. -/
theorem Does.next_eq {s t u : State} {i : Instr} {fx : Fx} (h : Does s i u fx) (ht : exec i s = .next t) : t = s.moved u fx := by
  rw [Does, ht] at h
  exact Host.Outcome.next.inj h

/-! ## The obligations -/

/-- Settles O1: every instruction's slot writes one register, so that only the form of its value is to be shown. -/
theorem scalarResults : Obligations.ScalarResults := by
  refine ⟨fun s d a b => ⟨?_, ?_, ?_, ?_, ?_, fun k n => ?_, fun imm => ⟨?_, ?_⟩⟩,
    fun s d a b => ⟨?_, ?_, ?_, ?_, ?_, ?_, fun imm => ?_, fun n => ⟨?_, ?_, ?_, ?_, ?_⟩⟩,
    fun s d a _ n => ⟨setsReg_of_run rfl rfl (ite_slt ..), setsReg_of_run rfl rfl (ite_slt ..),
      setsReg_of_run rfl rfl (ite_ult ..), setsReg_of_run rfl rfl (ite_ult ..), ?_, ?_,
      setsReg_of_run rfl rfl (congrArg (BitVec.ofNat 64) (popc64_eq_countP (s.tile.sreg a)))⟩⟩ <;>
    exact setsReg_of_run rfl rfl rfl

/-- Settles O2: every instruction's slot writes one predicate. -/
theorem predicates : Obligations.Predicates := fun _ _ _ _ _ _ _ _ =>
  ⟨setsPred_of_run rfl rfl (intCond_eq ..), setsPred_of_run rfl rfl (intCond_eq ..), setsPred_of_run rfl rfl rfl,
    setsPred_of_run rfl rfl rfl, setsPred_of_run rfl rfl rfl, setsPred_of_run rfl rfl rfl⟩

/-- Settles O3: the next state is the one moved on from the write, whose parts the laws of a write give. -/
theorem scalarFrame : Obligations.ScalarFrame := by
  refine ⟨fun s t i d v hc hs ht => ?_, fun s t i p v hc hs ht => ?_, fun s t i f fx hd ht => ?_⟩
  · obtain rfl := (hs hc).next_eq ht
    have hm := State.moved_tile s (s.mapTile fun t => t.write (.sreg d) v)
    refine ⟨?_, fun r hr => ?_, ?_⟩
    · exact Eq.trans (by rw [hm]; rfl) (Tile.sreg_write_same s.tile d v)
    · exact Eq.trans (by rw [hm]; rfl) (Tile.sreg_write_other s.tile v hr)
    · rw [hm, State.mapTile_tile, Tile.write_sreg_eq]
      exact ⟨fun _ => rfl, rfl, rfl, rfl, rfl, rfl, rfl, rfl, rfl, rfl, rfl, rfl, rfl, rfl, rfl, rfl, rfl, rfl, rfl, rfl,
        rfl, rfl, rfl, fun _ => rfl⟩
  · obtain rfl := (hs hc).next_eq ht
    have hm := State.moved_tile s (s.mapTile fun t => t.write (.pred p) (boolWord v))
    refine ⟨?_, fun r hr => ?_, ?_⟩
    · exact Eq.trans (by rw [hm]; rfl) (Tile.pred_write_same s.tile p v)
    · exact Eq.trans (by rw [hm]; rfl) (Tile.pred_write_other s.tile _ hr)
    · rw [hm, State.mapTile_tile, Tile.write_pred_eq]
      exact ⟨fun _ => rfl, rfl, rfl, rfl, rfl, rfl, rfl, rfl, rfl, rfl, rfl, rfl, rfl, rfl, rfl⟩
  · obtain rfl := hd.next_eq ht
    exact ⟨rfl, rfl, rfl, rfl, rfl, rfl, rfl, rfl, fun _ => rfl⟩

end Sys2Proof
end

