-- ==== Sys2Proof/Proofs/Boundaries.lean ====
section
/-! SUPPORT. What write-backs leave of the tile; a calm boundary has no dirty line, so that a change beside the tile leaves
it calm (R71, R124, R385). -/

namespace Sys2Proof

open Machine

/-! ## What accesses leave of the tile -/

/-- A fold of changes that keep the tile keeps it. -/
theorem foldl_tile {α : Type} (l : List α) (f : State → α → State) (hf : ∀ s a, (f s a).tile = s.tile) (s : State) :
    (l.foldl f s).tile = s.tile := by
  induction l generalizing s with
  | nil => rfl
  | cons a l ih => rw [List.foldl_cons, ih, hf]

@[simp] theorem Machine.State.noteFlits_tile (s : State) (cs : List ClusterNo) : (s.noteFlits cs).tile = s.tile := by
  unfold State.noteFlits
  exact foldl_tile cs _ (by intros; rfl) s

@[simp] theorem Machine.State.wakeRouters_tile (s : State) (cs : List ClusterNo) : (s.wakeRouters cs).tile = s.tile := by
  unfold State.wakeRouters
  exact foldl_tile cs _ (by intros; rfl) s

@[simp] theorem Machine.State.mapHome_tile (s : State) (f : Cluster → Cluster) : (s.mapHome f).tile = s.tile :=
  State.noteFlits_tile _ _

@[simp] theorem Machine.State.pass_tile (s : State) (part : PartNo) (key : Nat) : (s.pass part key).tile = s.tile := by
  unfold State.pass
  split
  · rfl
  · simp only []
    split
    · rfl
    · rw [State.noteFlits_tile, State.wakeRouters_tile]

@[simp] theorem Machine.State.countPage_tile (s : State) (part : PartNo) (va : Nat) (x : Trans) :
    (s.countPage part va x).tile = s.tile := by
  unfold State.countPage
  simp only []
  split
  · rfl
  split
  · rfl
  split
  · rfl
  split
  · rfl
  split <;> rfl

@[simp] theorem Machine.State.countAccess_tile (s : State) (va : Nat) (x : Trans) : (s.countAccess va x).tile = s.tile := by
  rw [State.countAccess, State.countFor, State.countPage_tile, State.pass_tile]

@[simp] theorem Machine.State.putLine_tile (s : State) (lo spa : Nat) (mask : BitVec 256) (n : Nat) :
    (s.putLine lo spa mask n).tile = s.tile := by
  induction n with
  | zero => rfl
  | succ n ih =>
    simp only [State.putLine]
    split <;> exact ih

/-- A lookup answers the state itself or one with a TLB entry more (R380). -/
theorem lookup_cases {s u : State} {part : PartNo} {va : Nat} {l : Leaf} (h : s.lookup part va = .ok (l, u)) :
    u = s ∨ ∃ ptrs, u = s.tlbFill part va l ptrs := by
  have pick : ∀ (ls : List Leaf) (r : Except (Cause × Bool) (Leaf × State)),
      (match ls with
        | [] => (none : Option (Except (Cause × Bool) (Leaf × State)))
        | x :: rest =>
          let small := rest.foldl (fun a b => if b.size < a.size then b else a) x
          if (x :: rest).all fun y => y.size == small.size || agree small y va then some (.ok (small, s))
          else some (.error (.translationConflict, false))) = some r → r = .ok (l, u) → u = s := by
    intro ls r hr hl
    subst hl
    split at hr
    · cases hr
    · simp only [] at hr
      split at hr
      · cases hr; rfl
      · cases hr
  unfold State.lookup at h
  simp only [] at h
  split at h
  · rename_i r hr; exact .inl (pick _ r hr h)
  · split at h
    · rename_i r hr; exact .inl (pick _ r hr h)
    · split at h
      · rename_i r hr; exact .inl (pick _ r hr h)
      · split at h
        · cases h
        · cases h; exact .inr ⟨_, rfl⟩

/-- A translation answers the state that its lookup leaves. -/
theorem translate_lookup {s u : State} {va : Nat} {acc : Access} {tr : Trans} (h : s.translate va acc = .ok (tr, u)) :
    ∃ l, s.lookup s.part va = .ok (l, u) := by
  unfold State.translate at h
  simp only [] at h
  split at h
  · cases h
  split at h
  · cases h
  split at h
  · cases h
  · rename_i l v hl
    split at h
    · cases h
    · have : v = u := by
        cases acc <;> grind
      exact ⟨l, this ▸ hl⟩


/-- A translation leaves the tile but for its TLB. -/
theorem translate_maps {s u : State} {va : Nat} {acc : Access} {tr : Trans} (h : s.translate va acc = .ok (tr, u)) :
    u.tile.maps = s.tile.maps := by
  obtain ⟨l, hl⟩ := translate_lookup h
  rcases lookup_cases hl with rfl | ⟨ptrs, rfl⟩ <;> rfl

/-! ## Dirty lines -/

/-- A line of a window that has dirty bytes (R71). -/
def Machine.Tile.dirtyAt (t : Tile) (p : MapNo × Nat) : Prop := ∃ x, (t.maps[p.1.val]).line p.2 = some x ∧ x.mask ≠ 0

/-- A line that has been put is found, the others stay. -/
theorem find_putLine (l : List WinLine) (v : WinLine) (k : Nat) :
    (MapEntry.putLine l v).find? (fun p => p.line == k) = if k = v.line then some v else l.find? fun p => p.line == k := by
  induction l with
  | nil =>
    by_cases h : k = v.line
    · simp [MapEntry.putLine, h]
    · have : v.line ≠ k := Ne.symm h
      simp [MapEntry.putLine, h, this]
  | cons a l ih =>
    simp only [MapEntry.putLine]
    split
    · by_cases h : k = v.line
      · simp [h]
      · have : v.line ≠ k := Ne.symm h
        simp [h, this]
    · split
      · rename_i h1 h2
        by_cases h : k = v.line
        · simp [h]
        · have : v.line ≠ k := Ne.symm h
          simp [h, this, h2]
      · rename_i h1 h2
        by_cases h : k = v.line
        · subst h; simp [h2, ih]
        · simp only [List.find?_cons, ih, h, if_false]

/-- Cleaning a line leaves no dirty line that was not there, and not that one. -/
theorem dirtyAt_cleanLine {t : Tile} {n : MapNo} {x : WinLine} {p : MapNo × Nat} (h : (t.cleanLine n x).dirtyAt p) :
    p ≠ (n, x.line) ∧ t.dirtyAt p := by
  obtain ⟨y, hy, hm⟩ := h
  obtain ⟨m, k⟩ := p
  simp only [Tile.cleanLine, Vector.getElem_set] at hy
  by_cases hn : n = m
  · subst hn
    simp only [if_true, MapEntry.line, find_putLine] at hy
    by_cases hk : k = x.line
    · simp only [hk, if_true, Option.some.injEq] at hy
      exact absurd (hy ▸ rfl) hm
    · simp only [hk, if_false] at hy
      exact ⟨fun e => hk (congrArg Prod.snd e), y, hy, hm⟩
  · have hv : n.val ≠ m.val := fun e => hn (Fin.ext e)
    simp only [hv, if_false] at hy
    exact ⟨fun e => hn (congrArg Prod.fst e).symm, y, hy, hm⟩

/-- A window line that is not dirty is written back by doing nothing (R71). -/
theorem writeBack_clean {s : State} {n : MapNo} {k : Nat} (h : ¬ s.tile.dirtyAt (n, k)) : s.writeBack n k = .ok s := by
  unfold State.writeBack
  simp only []
  split
  · rfl
  · rename_i x hx
    have hm : x.mask = 0 := by
      exact Decidable.byContradiction fun hm => h ⟨x, hx, hm⟩
    simp [hm]

/-- A write-back leaves no dirty line that was not there, and not its own (R71). -/
theorem dirtyAt_writeBack {s u : State} {n : MapNo} {k : Nat} (h : s.writeBack n k = .ok u) {p : MapNo × Nat}
    (hp : u.tile.dirtyAt p) : p ≠ (n, k) ∧ s.tile.dirtyAt p := by
  by_cases hd : s.tile.dirtyAt (n, k)
  · obtain ⟨x, hx, hm⟩ := hd
    have hk : x.line = k := by simpa using List.find?_some hx
    simp only [State.writeBack, hx] at h
    split at h
    · rename_i h0; exact absurd (by simpa using h0) hm
    split at h
    · cases h
    · rename_i tr v htr
      split at h
      · cases h
      · cases h
        have := dirtyAt_cleanLine hp
        simp only [State.putLine_tile, State.countAccess_tile, hk] at this
        obtain ⟨hne, y, hy, hym⟩ := this
        rw [translate_maps htr] at hy
        exact ⟨hne, y, hy, hym⟩
  · rw [writeBack_clean hd] at h
    cases h
    exact ⟨fun e => hd (e ▸ hp), hp⟩

/-- Write-backs leave no dirty line that was not there, and none of theirs (R71). -/
theorem dirtyAt_writeBacks {l : List (MapNo × Nat)} {s u : State} (h : s.writeBacks l = .ok u) {p : MapNo × Nat}
    (hp : u.tile.dirtyAt p) : p ∉ l ∧ s.tile.dirtyAt p := by
  induction l generalizing s with
  | nil => cases h; exact ⟨List.not_mem_nil, hp⟩
  | cons a l ih =>
    obtain ⟨n, k⟩ := a
    simp only [State.writeBacks] at h
    split at h
    · cases h
    · rename_i v hv
      obtain ⟨hl, hs⟩ := ih h
      obtain ⟨hne, hs⟩ := dirtyAt_writeBack hv hs
      exact ⟨by simp [hne, hl], hs⟩

/-- Write-backs of lines that are not dirty do nothing. -/
theorem writeBacks_clean {l : List (MapNo × Nat)} {s : State} (h : ∀ p, p ∈ l → ¬ s.tile.dirtyAt p) :
    s.writeBacks l = .ok s := by
  induction l with
  | nil => rfl
  | cons a l ih =>
    obtain ⟨n, k⟩ := a
    simp only [State.writeBacks, writeBack_clean (h (n, k) (by simp))]
    exact ih fun p hp => h p (by simp [hp])

/-- What is calm stays calm while the tile stays (R124). -/
theorem Machine.State.calm.congr {s u : State} {m : Nat} (h : s.calm m) (ht : u.tile = s.tile) : u.calm m := by
  obtain ⟨hs, hp, hw⟩ := h
  refine ⟨ht ▸ hs, ht ▸ hp, ?_⟩
  rw [ht]
  refine writeBacks_clean fun p hp hd => ?_
  rw [ht] at hd
  exact (dirtyAt_writeBacks hw hd).1 hp

/-- A calm boundary after a change beside the tile is performed at once (R124). -/
theorem withBoundary_calm_beside {s u : State} {m : Nat} {ph : Bool} {k : State → SlotR} (h : s.calm m)
    (ht : u.tile = s.tile) : withBoundary s.alone u m ph k = k (u.bounded m ph) :=
  withBoundary_calm_from h (h.congr ht).2.2

end Sys2Proof
end

