-- ==== Sys2Proof/Proofs/Control.lean ====
section
/-! SUPPORT. The control slot: transfers, loops, waiting, semaphores, Lintel, task control, privileged instructions (R199 to
R216). -/

namespace Sys2Proof

open Machine

/-! ## How a slot's other outcomes end the bundle -/

/-- The bundle of a clear instruction whose slot waits is held in that wait (R34). -/
theorem waits_of_run {s u : State} {i : Instr} {k : WaitKind} (hx : exec i s = .next (issue1 s (slotOf i))) (h : Clear s i)
    (hr : (slotOf i).run s.alone s = .wait u k) : exec i s = .next (u.holdWait k) := by
  rw [hx, issue1_ready h.toReady, runSlots_clear h, hr]

/-- The bundle of a clear instruction whose slot traps without a value raises the cause at the bundle (R179, R393). -/
theorem raises_of_trapR {s : State} {i : Instr} {c : Cause} (hx : exec i s = .next (issue1 s (slotOf i))) (h : Clear s i)
    (hr : (slotOf i).run s.alone s = trapR c) :
    exec i s = .next (s.raise s.tile.pc { cause := c, slot := (slotOf i).cls }) :=
  traps_of_run hx h hr

/-- The bundle of a clear instruction whose slot retires moves on, and the task ends (R21, R213). -/
theorem retires_of_run {s u : State} {i : Instr} (hx : exec i s = .next (issue1 s (slotOf i))) (h : Clear s i)
    (hr : (slotOf i).run s.alone s = .ok u { retire := true }) :
    exec i s = .next ((s.moved u).mapTile fun t => { t with ending := some (.retire s.tile.pc) }) := by
  rw [hx, issue1_ready h.toReady, runSlots_clear h, hr]
  rfl

/-- The bundle of a clear instruction whose slot asks for a trap moves on, and the trap is raised behind it (R213). -/
theorem raises_of_run {s u : State} {i : Instr} {v : Nat} (hx : exec i s = .next (issue1 s (slotOf i))) (h : Clear s i)
    (hr : (slotOf i).run s.alone s = .ok u { trapImm := some v }) :
    exec i s = .next ((s.moved u).raise (s.tile.pc + 4)
      { cause := .trapInstruction, slot := 1, val := BitVec.ofNat 64 v, bundle := some s.tile.pc }) := by
  rw [hx, issue1_ready h.toReady, runSlots_clear h, hr]
  rfl

/-- Outside speculation a cause is delivered. -/
theorem raise_of_not_spec {s : State} {pc : Nat} {i : TrapInfo} (h : s.tile.spec = none) : s.raise pc i = s.deliver i pc := by
  simp [State.raise, h]

/-! ## Transfers -/

/-- A transfer whose target passes its checks branches (R187, R188). -/
theorem goTo_ok {s : State} {block : Bool} {a : Nat} (h : (if block then s.blockTarget a else s.wordTarget a) = none) :
    goTo s block a = .ok s { branch := some (block, a) } := by
  rw [goTo, h]

/-- A transfer to a word that begins no bundle traps (R187). -/
theorem goTo_no_bundle {s : State} {a : Nat} (h : a % 4 ≠ 0 ∨ (s.codeWord a).testBit 31 = false) :
    goTo s false a = trapR .bundleStart := by
  have hc : (a % 4 != 0 || fld (s.codeWord a) 31 1 == 0) = true := by
    rcases h with h | h
    · simp [h]
    · rw [Nat.testBit_eq_decide_div_mod_eq] at h
      simp [fld] at h ⊢
      omega
  simp [goTo, State.wordTarget, hc]

/-- A transfer to what is no descriptor traps (R188). -/
theorem goTo_no_block {s : State} {a : Nat} (h : isDescriptor a (s.codeWord a) = false) :
    goTo s true a = trapR .blockAlign := by
  simp [goTo, State.blockTarget, h]

/-- Settles O4: each slot goes to its target, which passes its checks or traps. -/
theorem branches : Obligations.Branches := by
  refine ⟨fun s p a imm => ⟨fun h hp => ?_, fun h hp => ?_, fun hn => ⟨fun hp h => ?_, fun hp h => ?_, fun h => ?_⟩,
      fun hn h => ?_⟩,
    fun s l imm => ⟨fun hn h => ?_, fun hn h => ?_, fun hn => ⟨fun h => ?_, fun h => ?_⟩⟩,
    fun s imm p a l => ⟨fun hn => ⟨fun h => ?_, fun hp h => ?_, fun hp h => ?_, fun hp h => ?_⟩, fun hn h => ?_,
      fun hn => ⟨fun h => ?_, fun h => ?_⟩, fun hn => ⟨fun h => ?_, fun h => ?_⟩⟩⟩
  -- not taken
  · exact does_of_run rfl h (if_neg (by simp [hp])) rfl rfl
  · exact does_of_run rfl h (if_pos hp) rfl rfl
  -- to a word
  · exact does_of_run rfl h ((if_pos hp).trans (goTo_ok (block := false) hn)) rfl rfl
  · exact does_of_run rfl h ((if_neg (by simp [hp])).trans (goTo_ok (block := false) hn)) rfl rfl
  · exact does_of_run rfl h (goTo_ok (block := false) hn) rfl rfl
  · exact does_of_run rfl h (goTo_ok (block := false) hn) rfl rfl
  -- to a block
  · exact does_of_run rfl h (goTo_ok (block := true) hn) rfl rfl
  · exact does_of_run rfl h (goTo_ok (block := true) hn) rfl rfl
  · exact does_of_run rfl h (goTo_ok (block := true) hn) rfl rfl
  · exact does_of_run rfl h (goTo_ok (block := true) hn) rfl rfl
  -- to no bundle
  · exact raises_of_trapR rfl h (goTo_no_bundle hn)
  · exact raises_of_trapR rfl h ((if_pos hp).trans (goTo_no_bundle hn))
  · exact raises_of_trapR rfl h ((if_neg (by simp [hp])).trans (goTo_no_bundle hn))
  · exact raises_of_trapR rfl h
      ((if_pos (bne_iff_ne.mpr hp)).trans (goTo_no_bundle (s := s.mapTile fun t => t.loopBack s.tile) hn))
  · exact raises_of_trapR rfl h (goTo_no_bundle hn)
  -- to no block
  · exact raises_of_trapR rfl h (goTo_no_block hn)
  · exact raises_of_trapR rfl h (goTo_no_block (s := s.mapTile _) hn)
  · exact raises_of_trapR rfl h (goTo_no_block hn)
  · exact raises_of_trapR rfl h (goTo_no_block hn)

/-! ## Loops -/

/-- The stage predicates are not p0. -/
theorem stageP_ne_zero (k : Fin 8) : stageP k ≠ 0 := fun h => by
  have := congrArg Fin.val h
  simp [stageP] at this

theorem stageP_inj {j k : Fin 8} (h : stageP j = stageP k) : j = k := by
  have := congrArg Fin.val h
  simp [stageP] at this
  exact Fin.ext this

/-- Predicates that are no stage predicate of a list stay when those are written. -/
theorem pred_writeStages_other (g : Fin 8 → Bool) (l : List (Fin 8)) (t : Tile) (p : PReg) (h : ∀ k, k ∈ l → p ≠ stageP k) :
    (l.foldl (fun t k => t.write (.pred (stageP k)) (boolWord (g k))) t).pred p = t.pred p := by
  induction l generalizing t with
  | nil => rfl
  | cons a l ih =>
    rw [List.foldl_cons, ih _ fun k hk => h k (by simp [hk]), Tile.pred_write_other _ _ (h a (by simp))]

/-- Each stage predicate of a list reads what was written to it. -/
theorem pred_writeStages (g : Fin 8 → Bool) (l : List (Fin 8)) (t : Tile) (k : Fin 8) (h : k ∈ l) :
    (l.foldl (fun t k => t.write (.pred (stageP k)) (boolWord (g k))) t).pred (stageP k) = g k := by
  induction l generalizing t with
  | nil => cases h
  | cons a l ih =>
    rw [List.foldl_cons]
    by_cases hk : k ∈ l
    · exact ih _ hk
    · obtain rfl : k = a := (List.mem_cons.mp h).resolve_right hk
      rw [pred_writeStages_other _ _ _ _ fun j hj e => hk (by rw [stageP_inj e]; exact hj), Tile.pred_write_same]
      simp [stageP_ne_zero]

/-- The loop registers are no predicates. -/
theorem pred_withLoop (u : Tile) (r : Fin 16) (f q : BitVec 32) (p : PReg) :
    Tile.pred { u with rrb := r, feed := f, pass := q } p = u.pred p := rfl

/-- A loop-back branch writes the stage predicates one after another (R204). -/
theorem pred_loopBack (t : Tile) (p : PReg) :
    (t.loopBack t).pred p = ((List.finRange 8).foldl (fun u k =>
      u.write (.pred (stageP k)) (boolWord (if k = 0 then t.feed != 0 else t.pred (stageP (k - 1))))) t).pred p := by
  unfold Tile.loopBack Tile.rotate
  exact pred_withLoop _ _ _ _ _

/-- What a loop-back branch leaves in the stage predicates (R204). -/
theorem pred_loopBack_stage (t : Tile) (k : Fin 8) :
    (t.loopBack t).pred (stageP k) = if k = 0 then t.feed != 0 else t.pred (stageP (k - 1)) :=
  (pred_loopBack t _).trans (pred_writeStages _ _ t k (List.mem_finRange k))

/-- A loop-back branch leaves p0 to p7 (R204). -/
theorem pred_loopBack_low (t : Tile) (p : PReg) (h : p.val < 8) : (t.loopBack t).pred p = t.pred p :=
  (pred_loopBack t p).trans (pred_writeStages_other _ _ t p fun k _ e => by
    subst e
    exact Nat.not_lt.mpr (Nat.le_add_left 8 k.val) h)

/-- A loop count falls by one unless it is 0 (R204). -/
theorem toNat_fall (x : BitVec 32) : (if (x != 0) = true then x - 1 else x).toNat = x.toNat - 1 := by
  by_cases h : x = 0
  · simp [h]
  · have h1 : x.toNat ≠ 0 := fun e => h (BitVec.eq_of_toNat_eq e)
    simp only [bne_iff_ne, ne_eq, h, not_false_eq_true, if_true]
    bv_omega

/-- Settles O5: LOOPB with PASS 0 falls through, else goes back; LSET in range writes; the rotation is read off its writes. -/
theorem loops : Obligations.Loops := by
  refine ⟨fun s a imm n => ⟨fun hp h => ?_, fun hp hn h => ?_, fun hv => ⟨fun h => ?_, fun h => ?_⟩, fun hn h => ?_,
    fun hn h => ?_⟩, fun t => ⟨fun k => ?_, ?_, ?_, toNat_fall _, toNat_fall _, pred_loopBack_low t⟩⟩
  · exact does_of_run rfl h (if_neg (by simp [hp])) rfl rfl
  · exact does_of_run rfl h ((if_pos (bne_iff_ne.mpr hp)).trans (goTo_ok (block := false) hn)) rfl rfl
  · exact does_of_run rfl h (if_neg (Nat.not_le.mpr hv)) rfl rfl
  · exact does_of_run rfl h (if_neg (Nat.not_le.mpr hv)) rfl rfl
  · exact does_of_run rfl h (if_neg (Nat.not_le.mpr hn)) rfl rfl
  · exact does_of_run rfl h (if_neg (Nat.not_le.mpr hn)) rfl rfl
  · have hk : (⟨k.val + 1, by omega⟩ : Fin 8) ≠ 0 := fun e => by simp at e
    have hs : (⟨k.val + 1, by omega⟩ : Fin 8) - 1 = ⟨k.val, by omega⟩ := by
      apply Fin.ext; simp [Fin.sub_def]; omega
    rw [pred_loopBack_stage, if_neg hk, hs]
  · rw [pred_loopBack_stage, if_pos rfl]
  · change (t.rrb - 1).val = _
    simp [Fin.sub_def]; omega

/-! ## Waiting and boundaries -/

/-- A counter within a bound that WAIT takes (R205). -/
theorem bound_ok {b : Fin 32} {n : Nat} (h : b = 31 ∨ (b.val ≤ 24 ∧ n ≤ b.val)) : boundOk b = true ∧ within b n = true := by
  rcases h with rfl | ⟨h1, h2⟩
  · exact ⟨rfl, rfl⟩
  · simp [boundOk, within, h1, h2]

/-- Settles O6: bounds that hold, no rival, a calm boundary leave nothing to wait for. -/
theorem waitsAndBoundaries : Obligations.WaitsAndBoundaries := by
  refine ⟨fun s ld st cp tl => ⟨fun h1 h2 h3 h4 h => ?_, fun h => does_of_run rfl h rfl rfl rfl, fun hr h => ?_,
    fun k hk hr h => ?_⟩, fun s sc m hc => ⟨fun h => ?_, fun h => ?_⟩⟩
  · obtain ⟨b1, w1⟩ := bound_ok h1
    obtain ⟨b2, w2⟩ := bound_ok h2
    obtain ⟨b3, w3⟩ := bound_ok h3
    obtain ⟨b4, w4⟩ := bound_ok h4
    exact does_of_run rfl h (by simp [slotOf, slotWait, b1, b2, b3, b4, w1, w2, w3, w4, okR]) rfl rfl
  · refine does_of_run rfl h ?_ rfl rfl
    simp only [slotOf, slotYield]
    split
    · rfl
    · rename_i k hk; simp [hr k hk, okR]
  · exact does_of_run rfl h (by simp [slotOf, slotYield, hk, hr, okR]) rfl rfl
  · exact does_of_run rfl h (withBoundary_calm hc) rfl rfl
  · exact does_of_run rfl h (withBoundary_calm hc) rfl rfl

/-! ## Semaphores -/

/-- A count in range (R207). -/
theorem semCount_ok {s : State} {cnt : Fin 256} {a : SReg}
    (h : (if a = 0 then cnt.val else (s.tile.sreg a).toNat) ≤ 65535) :
    semCount s.alone cnt a = .ok (if a = 0 then cnt.val else (s.tile.sreg a).toNat) := by
  by_cases ha : a = 0
  · simp [semCount, ha]
  · rw [if_neg ha] at h
    simp [semCount, ha, Nat.not_lt.mpr h]

/-- An access to the home cluster that is let in goes on (R431, R436). -/
theorem atHome_open {s : State} {r : SlotR} (h : s.homeShut = false) : atHome s.alone r = r := by
  simp [atHome, h]

/-- Settles O7: counts in range, a home that lets in and a calm boundary leave each slot its effect; a semaphore that is not
held is the first check. -/
theorem semaphores : Obligations.Semaphores := by
  refine ⟨fun s k cnt a d hs hc hm hn hh => ⟨fun h0 h => ?_, fun h0 ht h => ?_, fun hv h => ?_, fun ht h => ?_, fun ht h => ?_⟩,
    fun s k n a i hi hm h => ?_⟩
  · refine does_of_run rfl h ?_ rfl rfl
    simp only [slotOf, slotSemw, hm, semCount_ok hn, h0, takeCounts]
    exact withBoundary_calm hc
  · refine does_of_run rfl h ?_ rfl rfl
    simp only [slotOf, slotSemw, hm, semCount_ok hn, takeCounts]
    simp only [List.all_cons, List.all_nil, beq_eq_false_iff_ne.mpr h0, Bool.false_and, Bool.not_true, Bool.false_eq_true,
      if_false, atHome_open hh, ht, if_true]
    exact withBoundary_calm_beside hc (State.mapHome_tile ..)
  · refine does_of_run rfl h ?_ rfl rfl
    simp only [slotOf, slotSems, hm, semCount_ok hn, hs, atHome_open hh]
    refine (withBoundary_calm hc).trans ?_
    simp only [Nat.not_lt.mpr hv, if_false]; rfl
  · refine does_of_run rfl h ?_ rfl rfl
    simp only [slotOf, slotSemt, hm, atHome_open hh, ht]
    exact withBoundary_calm_beside hc (State.mapHome_tile ..)
  · refine does_of_run rfl h ?_ rfl rfl
    simp only [slotOf, slotSemt, hm, atHome_open hh, ht]
    rfl
  · rcases hi with rfl | rfl | rfl
    · exact traps_of_run rfl h (by simp [slotOf, slotSemw, hm]; rfl)
    · exact traps_of_run rfl h (by simp [slotOf, slotSems, hm]; rfl)
    · exact traps_of_run rfl h (by simp [slotOf, slotSemt, hm]; rfl)

/-! ## Lintel and task control -/

/-- Settles O8: a participant's boundary is calm, its arrival may be counted, its release has come. -/
theorem lintel : Obligations.Lintel := by
  refine fun s hc => ⟨fun ha h => ?_, fun hl hr h => ?_, fun hb hr h => ?_, fun hb ha h => ?_⟩
  · refine does_of_run rfl h ?_ rfl rfl
    simp only [slotOf, slotBara, ha]
    exact withBoundary_calm hc
  · refine does_of_run rfl h ?_ rfl rfl
    simp only [slotOf, slotBarw, hl, barResume, hr]
    exact withBoundary_calm hc
  · refine does_of_run rfl h ?_ rfl rfl
    simp only [slotOf, slotBarr, hb, barResume, hr]
    exact withBoundary_calm hc
  · refine waits_of_run rfl h ?_
    simp only [slotOf, slotBarr, hb, ha]
    exact withBoundary_calm hc

/-- Settles O9: SPAWN has room; RETIRE and TRAP are asked for at the end of the bundle. -/
theorem taskSteps : Obligations.TaskSteps := by
  refine ⟨fun s d a b x hs ht hl hd h => ?_, fun s imm => ⟨fun h => retires_of_run rfl h rfl, fun h hs => ?_⟩⟩
  · refine does_of_run rfl h ?_ rfl rfl
    simp only [slotOf, slotSpawn, State.alone_pre, hd, hs, ht, poolSize, Nat.not_le.mpr hl]
    rfl
  · have hm : (s.moved s).tile.spec = none := by rw [State.moved_tile]; exact hs
    rw [raises_of_run (u := s) (v := imm) rfl h rfl, raise_of_not_spec hm]

end Sys2Proof
end

