-- ==== Sys2Proof/Proofs/Privileged.lean ====
section
/-! SUPPORT. The privileged instructions of the control slot: a deferred fault comes before PRIVILEGED (R154, R192); CTXS and
CTXL of a drained tile (R216). -/

namespace Sys2Proof

open Machine

/-! ## Privileged instructions -/

/-- A tile outside a handler, in a speculation with a deferred BREAKPOINT. -/
def faultDeferred : State :=
  State.reset.mapTile fun t =>
    { t with spec := some { pt := 0, chk := t.toArch, depth := 1, ring := none, fault := some { cause := .breakpoint } } }

/-- The cause that the focus tile's speculation has deferred in an outcome's state. -/
def deferredCause (o : Host.Outcome State Fault Refusal) : Option Cause :=
  match o with
  | .next u => (u.tile.spec.bind (·.fault)).map (·.cause)
  | .fault _ | .refused _ => none

/-- The bundle is held for the deferred fault. -/
theorem deferredCause_exec : deferredCause (exec .tret faultDeferred) = some .breakpoint := by decide +kernel

/-- Raising PRIVILEGED would defer that cause instead. -/
theorem deferredCause_raise :
    deferredCause (.next (faultDeferred.raise faultDeferred.tile.pc { cause := .privileged, slot := 1 })) = some .privileged := by
  decide +kernel

/-- Refutes O10: a task whose speculation has deferred a fault is held at its bundle until the speculation is resolved (R154), so
that TRET outside a handler, where nothing else stands, does not raise PRIVILEGED. -/
theorem not_privileged : ¬ Obligations.Privileged := fun h => by
  have hp := h.2 faultDeferred 0 0 0 0 .tret (.inr (.inr (.inl rfl))) rfl rfl rfl rfl rfl
  have hc := deferredCause_exec
  rw [hp, deferredCause_raise] at hc
  cases hc

/-! ## Contexts -/

/-- A context instruction at an address that is a multiple of 64 runs (R216). -/
theorem ctxSlot_run {s : State} {a b : SReg} {run : Ctx → State → Nat → Nat → SlotR} (h : (s.tile.sreg a).toNat % 64 = 0) :
    (ctxSlot a b run).run s.alone s = run s.alone s (s.tile.sreg a).toNat (s.tile.sreg b).toNat := by
  simp [ctxSlot, h]

/-- A row in error stops CTXS of a drained tile (R50, R80). -/
theorem ctxs_imageTrap {s : State} {d a b : SReg} {c : Cause} (hx : (s.tile.sreg a).toNat % 64 = 0) (hd : s.tile.drained = true)
    (hi : s.tile.imageTrap = some c) (h : Clear s (.ctxs d a b)) :
    exec (.ctxs d a b) s = .next (s.raise s.tile.pc { cause := c, slot := 1 }) := by
  refine raises_of_trapR rfl h ?_
  simp only [slotOf, slotCtxs, ctxSlot_run hx, State.alone_pre, hd, hi]
  rfl

/-- Settles O11: each check of CTXS and of CTXL passes by a premise, or is the one that traps. -/
theorem contexts : Obligations.Contexts := by
  refine fun s u w d a b ps qs hx hd => ⟨fun hi hn hp hc h => ?_, fun hn hp hl hq hc hb ho h => ?_, fun hr h => ?_, fun hr ha h => ?_⟩
  · refine does_of_run rfl h ?_ rfl rfl
    have hc' : (u.cutPage ps == some .linkDown) = false := beq_eq_false_iff_ne.mpr hc
    simp only [slotOf, slotCtxs, ctxSlot_run hx, State.alone_pre, hd, hi, Nat.not_lt.mpr hn, if_false, hp, hc']
    rfl
  · refine does_of_run rfl h ?_ rfl rfl
    simp only [slotOf, slotCtxl, ctxSlot_run hx, State.alone_pre, hd, Nat.not_lt.mpr hn, if_false, hp, Nat.not_lt.mpr hl, hq, hc, hb, ho]
    rfl
  · exact ctxs_imageTrap hx hd (if_pos (bne_iff_ne.mpr hr)) h
  · exact ctxs_imageTrap hx hd (by rw [Tile.imageTrap, hr]; exact if_pos (bne_iff_ne.mpr ha)) h

end Sys2Proof
end

