-- ==== Sys2Proof/Proofs/Lanes.lean ====
section
/-! SUPPORT. The vector slot: lane arithmetic and compares, moves, conversions, block scales, and what a row that is sent leaves
(R224 to R245). -/

namespace Sys2Proof

open Machine

/-! ## Checks and results of lane instructions -/

/-- Where a row does not carry one tag, the check of two sources says so (R224). -/
theorem srcTags_mixed {t : Tile} {a b : GridOp} {f g : Nat → Bool} (h : t.tag a = none ∨ t.tag b = none) :
    t.srcTags [(a, f), (b, g)] = .error (tagTrap .formatMixed t.tags[0].val) := by
  cases ha : t.tag a with
  | none => simp [Tile.srcTags, ha]
  | some x =>
    have hb : t.tag b = none := h.resolve_left (by simp [ha])
    simp [Tile.srcTags, ha, hb]

/-- The first of two sources has a tag that does not fit (R224). -/
theorem srcTags_bad_first {t : Tile} {a b : GridOp} {f g : Nat → Bool} {x y : Fin 16} (h : t.tag a = some x)
    (h' : t.tag b = some y) (hx : f x.val = false) : t.srcTags [(a, f), (b, g)] = .error (tagTrap .formatTag x.val) := by
  simp [Tile.srcTags, h, h', hx]

/-- The second of two sources has a tag that does not fit (R224). -/
theorem srcTags_bad_second {t : Tile} {a b : GridOp} {f g : Nat → Bool} {x y : Fin 16} (h : t.tag a = some x)
    (h' : t.tag b = some y) (hx : f x.val = true) (hy : g y.val = false) :
    t.srcTags [(a, f), (b, g)] = .error (tagTrap .formatTag y.val) := by
  simp [Tile.srcTags, h, h', hx, hy]

/-- A grid slot whose source check fails traps with what the check says (R224). -/
theorem raises_of_srcTags {s : State} {i : Instr} {l : List (GridOp × (Nat → Bool))} {ex : Tile → List Site}
    {body : Ctx → State → List Nat → SlotR} {e : TrapInfo} (hx : exec i s = .next (issue1 s (slotOf i))) (h : Clear s i)
    (hs : slotOf i = gridSlot 3 l ex body) (ht : s.tile.srcTags l = .error e) :
    exec i s = .next (s.raise s.tile.pc { e with slot := 3 }) := by
  have hr : (slotOf i).run s.alone s = .trap e := by
    rw [hs]
    simp only [gridSlot, State.alone_pre, ht]
  rw [traps_of_run hx h hr, hs]
  rfl

/-- A floating instruction of two FP32 rows sends its lanes (R229). -/
theorem sends_fp2 {s : State} {i : Instr} {d a b : GridOp} {f : RMode → Machine.Num → Machine.Num → Machine.Num}
    (hx : exec i s = .next (issue1 s (slotOf i))) (hs : slotOf i = fp2 d a b f) (ha : s.tile.tag a = some 1)
    (hb : s.tile.tag b = some 1) :
    SendsRow s i d 1 (Vector.ofFn fun k : Fin 64 => toF32 rne (f .rne (f32 (s.tile.row a)[k]) (f32 (s.tile.row b)[k]))) 4 :=
  sendsRow_of_body hx hs (srcTags_two ha rfl hb rfl) rfl (map2_eq ..)

/-- A fused multiply and add of three FP32 rows sends its lanes (R229). -/
theorem sends_fp3 {s : State} {i : Instr} {d a b : GridOp} {f : RMode → Machine.Num → Machine.Num → Machine.Num → Machine.Num}
    (hx : exec i s = .next (issue1 s (slotOf i))) (hs : slotOf i = fp3 d a b f) (ha : s.tile.tag a = some 1)
    (hb : s.tile.tag b = some 1) (hd : s.tile.tag d = some 1) :
    SendsRow s i d 1
      (Vector.ofFn fun k : Fin 64 => toF32 rne (f .rne (f32 (s.tile.row a)[k]) (f32 (s.tile.row b)[k]) (f32 (s.tile.row d)[k]))) 4 :=
  sendsRow_of_body hx hs (srcTags_three ha rfl hb rfl hd rfl) rfl rfl

/-- A floating instruction of one FP32 row sends its lanes (R229, R230). -/
theorem sends_fp1 {s : State} {i : Instr} {d a : GridOp} {f : Machine.Num → Machine.Num} {lat : Nat}
    (hx : exec i s = .next (issue1 s (slotOf i))) (hs : slotOf i = fp1 lat d a f) (ha : s.tile.tag a = some 1) :
    SendsRow s i d 1 (Vector.ofFn fun k : Fin 64 => toF32 rne (f (f32 (s.tile.row a)[k]))) lat :=
  sendsRow_of_body hx hs (srcTags_one ha rfl) rfl (map1_eq ..)

/-- Settles O12: the checks pass and the lanes are those of the slot's function, or the first check that fails says how. -/
theorem floatLanes : Obligations.FloatLanes := by
  refine ⟨fun s d a b ha hb => ⟨?_, ?_, ?_, ?_, ?_, fun hd => ⟨?_, ?_⟩⟩, fun s d a ha => ⟨?_, ?_, ?_, ?_, ?_⟩,
    fun s d a b i hi h => ?_⟩
  · exact sends_fp2 (f := fun m x y => Machine.Num.add m x y) rfl rfl ha hb
  · exact sends_fp2 (f := fun m x y => Machine.Num.add m x y.neg) rfl rfl ha hb
  · exact sends_fp2 (f := fun _ x y => Machine.Num.mul x y) rfl rfl ha hb
  · exact sends_fp2 (f := fun _ x y => Machine.Num.max x y) rfl rfl ha hb
  · exact sends_fp2 (f := fun _ x y => Machine.Num.min' x y) rfl rfl ha hb
  · exact sends_fp3 (f := fun m x y z => Machine.Num.add m (Machine.Num.mul x y) z) rfl rfl ha hb hd
  · exact sends_fp3 (f := fun m x y z => Machine.Num.add m (Machine.Num.mul x y).neg z) rfl rfl ha hb hd
  · exact sends_fp1 (f := Machine.Num.abs) rfl rfl ha
  · exact sends_fp1 (f := Machine.Num.neg) rfl rfl ha
  · exact sends_fp1 (f := recip) rfl rfl ha
  · exact sends_fp1 (f := rsqrt) rfl rfl ha
  · exact sends_fp1 (f := exp2) rfl rfl ha
  obtain ⟨f, hx, hs⟩ : ∃ f, exec i s = .next (issue1 s (slotOf i)) ∧ slotOf i = fp2 d a b f := by
    rcases hi with rfl | rfl | rfl | rfl | rfl
    · exact ⟨fun m x y => Machine.Num.add m x y, rfl, rfl⟩
    · exact ⟨fun m x y => Machine.Num.add m x y.neg, rfl, rfl⟩
    · exact ⟨fun _ x y => Machine.Num.mul x y, rfl, rfl⟩
    · exact ⟨fun _ x y => Machine.Num.max x y, rfl, rfl⟩
    · exact ⟨fun _ x y => Machine.Num.min' x y, rfl, rfl⟩
  refine ⟨fun hm => raises_of_srcTags hx h hs (srcTags_mixed hm), fun x y ha hb => ⟨fun hx1 => ?_, fun hx1 hy1 => ?_⟩⟩
  · refine raises_of_srcTags hx h hs (srcTags_bad_first ha hb ?_)
    exact beq_eq_false_iff_ne.mpr fun e => hx1 (Fin.ext e)
  · refine raises_of_srcTags hx h hs (srcTags_bad_second ha hb ?_ ?_)
    · rw [hx1]; rfl
    · exact beq_eq_false_iff_ne.mpr fun e => hy1 (Fin.ext e)

/-! ## Lane compares -/

/-- The number whose bits are the values of a function. -/
def bitSum {n : Nat} (f : Fin n → Bool) : Nat := (List.finRange n).foldl (fun x i => x + (f i).toNat * 2 ^ i.val) 0

/-- One bit more is added at the top. -/
theorem bitSum_succ {n : Nat} (f : Fin (n + 1) → Bool) :
    bitSum f = bitSum (fun i : Fin n => f i.castSucc) + (f (Fin.last n)).toNat * 2 ^ n := by
  simp [bitSum, List.finRange_succ_last, List.foldl_append, List.foldl_map]

theorem bitSum_lt {n : Nat} (f : Fin n → Bool) : bitSum f < 2 ^ n := by
  induction n with
  | zero => simp [bitSum]
  | succ n ih =>
    have := ih fun i => f i.castSucc
    rw [bitSum_succ, Nat.pow_succ]
    cases f (Fin.last n)
    · simp; omega
    · simp; omega

/-- Its bits are the values of the function. -/
theorem testBit_bitSum {n : Nat} (f : Fin n → Bool) (k : Fin n) : (bitSum f).testBit k.val = f k := by
  induction n with
  | zero => exact k.elim0
  | succ n ih =>
    have hlt := bitSum_lt fun i : Fin n => f i.castSucc
    rw [bitSum_succ, Nat.add_comm]
    induction k using Fin.lastCases with
    | last =>
      cases h : f (Fin.last n)
      · simp [Nat.testBit_lt_two_pow hlt]
      · simp [Nat.testBit_two_pow_add_eq, Nat.testBit_lt_two_pow hlt]
    | cast k =>
      rw [← ih (fun i => f i.castSucc) k]
      cases f (Fin.last n)
      · simp
      · simp [Nat.testBit_two_pow_add_gt k.isLt]

/-- Lane i's result is bit i of the condition register (R227). -/
theorem getLsbD_lcrOf (f : Fin 64 → Bool) (k : Fin 64) : (lcrOf f).getLsbD k.val = f k := by
  change (BitVec.ofNat 64 (bitSum f)).getLsbD k.val = f k
  rw [BitVec.getLsbD_ofNat, testBit_bitSum]
  simp

/-- A lane compare of two rows that fit flies its results (R233). -/
theorem turns_laneCompare {s : State} {i : Instr} {ok : Nat → Bool} {lat : Nat} {p : PReg} {a b : GridOp} {all : Bool}
    {f : Cell → Cell → Bool} {tags : List Nat} (hx : exec i s = .next (issue1 s (slotOf i)))
    (hs : slotOf i = laneCompare ok lat p a b all f) (ht : s.tile.srcTags [(a, ok), (b, ok)] = .ok tags) :
    let g := fun k : Fin 64 => f (s.tile.row a)[k] (s.tile.row b)[k]
    Turns s i fun t => t.fly { due := s.tile.tc + lat, isLoad := false,
                               writes := [(.lcr, some (lcrOf g)), (.pred p, some (boolWord (lanePred all g)))] } := by
  intro g h
  refine does_of_run hx h ?_ rfl rfl
  rw [hs]
  simp only [laneCompare, gridSlot, State.alone_pre, ht]
  rfl

/-- Settles O13: the slot's lanes fly; the condition register is the number of their bits. -/
theorem laneCompares : Obligations.LaneCompares := by
  refine ⟨fun s p a b all fc ic => ⟨fun ha hb => ?_, fun ha hb => ?_⟩, fun f => ⟨getLsbD_lcrOf f, ?_, ?_⟩⟩
  · exact turns_laneCompare (f := fun x y => fpCond fc (f32 x) (f32 y)) rfl rfl (srcTags_two ha rfl hb rfl)
  · exact turns_laneCompare (f := fun x y => intCond ic x y) rfl rfl (srcTags_two ha rfl hb rfl)
  · simp [lanePred]
  · simp [lanePred]

/-! ## Integer and bitwise lanes -/

/-- Without a rounding override a result keeps its low 32 bits (R226, R231). -/
theorem wrap32_rne (v : Int) : wrap32 (rndOf 0) v = BitVec.ofInt 32 v := rfl

/-- An integer instruction of two INT32 rows sends its lanes (R231). -/
theorem sends_int2 {s : State} {i : Instr} {d a b : GridOp} {f : Rnd → Cell → Cell → Cell} {g : Fin 64 → Cell}
    (hx : exec i s = .next (issue1 s (slotOf i))) (hs : slotOf i = lanes2 isInt32 2 2 d a b f) (ha : s.tile.tag a = some 2)
    (hb : s.tile.tag b = some 2) (hf : ∀ k, f (rndOf 0) (s.tile.row a)[k] (s.tile.row b)[k] = g k) :
    SendsRow s i d 2 (Vector.ofFn g) 2 :=
  sendsRow_of_body hx hs (srcTags_two ha rfl hb rfl) rfl ((map2_eq ..).trans (congrArg _ (funext hf)))

/-- An integer instruction of one INT32 row sends its lanes (R231). -/
theorem sends_int1 {s : State} {i : Instr} {d a : GridOp} {f : Rnd → Cell → Cell} {g : Fin 64 → Cell}
    (hx : exec i s = .next (issue1 s (slotOf i))) (hs : slotOf i = lanes1 isInt32 2 2 d a f) (ha : s.tile.tag a = some 2)
    (hf : ∀ k, f (rndOf 0) (s.tile.row a)[k] = g k) : SendsRow s i d 2 (Vector.ofFn g) 2 :=
  sendsRow_of_body hx hs (srcTags_one ha rfl) rfl ((map1_eq ..).trans (congrArg _ (funext hf)))

/-- A bitwise instruction of two rows sends its lanes under their common tag, or RAW32 (R232). -/
theorem sends_bits2 {s : State} {i : Instr} {d a b : GridOp} {f : Cell → Cell → Cell} {x y : Fin 16}
    (hx : exec i s = .next (issue1 s (slotOf i))) (hs : slotOf i = bits2 d a b f) (ha : s.tile.tag a = some x)
    (hb : s.tile.tag b = some y) (hx12 : x.val ≠ 12) (hy12 : y.val ≠ 12) :
    SendsRow s i d (if x = y then x.val else 0) (Vector.ofFn fun k : Fin 64 => f (s.tile.row a)[k] (s.tile.row b)[k]) 2 := by
  have hc : (if x = y then x.val else 0) = if x.val == y.val then x.val else 0 := by
    by_cases h : x = y
    · simp [h]
    · have hv : x.val ≠ y.val := fun e => h (Fin.ext e)
      simp [h, hv]
  rw [hc]
  exact sendsRow_of_body hx hs (srcTags_two ha (bne_iff_ne.mpr hx12) hb (bne_iff_ne.mpr hy12)) rfl (map2_eq ..)

/-- A zero-filling shift sends its lanes under the row's tag (R232). -/
theorem sends_shift1 {s : State} {i : Instr} {d a : GridOp} {f : Cell → Cell} {x : Fin 16}
    (hx : exec i s = .next (issue1 s (slotOf i))) (hs : slotOf i = shift1 d a f) (ha : s.tile.tag a = some x)
    (h : x.val = 2 ∨ x.val = 0 ∨ x.val = 15) : SendsRow s i d x.val (Vector.ofFn fun k : Fin 64 => f (s.tile.row a)[k]) 2 := by
  refine sendsRow_of_body hx hs (srcTags_one ha ?_) rfl (map1_eq ..)
  rcases h with h | h | h <;> rw [h] <;> rfl

/-- The order that VMIN and VMAX take (R231). -/
theorem ite_less (u : Bool) (x y : Cell) (a b : Cell) :
    (if (if u then x.ult y else x.slt y) then a else b)
      = if (if u then x.toNat < y.toNat else x.toInt < y.toInt) then a else b := by
  cases u <;> simp [BitVec.ult, BitVec.slt]

/-- The magnitude of a word (R231). -/
theorem ofInt_natAbs (x : Cell) : BitVec.ofInt 32 x.toInt.natAbs = if x.toInt < 0 then -x else x := by
  by_cases h : x.toInt < 0
  · have : (x.toInt.natAbs : Int) = -x.toInt := by omega
    rw [if_pos h, this, BitVec.ofInt_neg, BitVec.ofInt_toInt]
  · have : (x.toInt.natAbs : Int) = x.toInt := by omega
    rw [if_neg h, this, BitVec.ofInt_toInt]

/-- Settles O14: each lane is the slot's function of its sources, without an override. -/
theorem integerLanes : Obligations.IntegerLanes := by
  refine ⟨fun s d a b u n ha => ⟨fun hb => ⟨?_, ?_, ?_, ?_, ?_, ?_⟩, ?_, ?_, ?_⟩,
    fun s d a b x y n ha hb => ⟨fun hx hy => ⟨?_, ?_, ?_⟩, fun ht => ⟨?_, ?_⟩⟩⟩
  · exact sends_int2 (f := fun r x y => wrap32 r (x.toInt + y.toInt)) rfl rfl ha hb fun k => by
      simp [wrap32_rne, BitVec.ofInt_add]
  · exact sends_int2 (f := fun r x y => wrap32 r (x.toInt - y.toInt)) rfl rfl ha hb fun k => by
      simp [wrap32_rne, Int.sub_eq_add_neg, BitVec.ofInt_add, BitVec.ofInt_neg, BitVec.sub_eq_add_neg]
  · exact sends_int2 (f := fun r x y => wrap32 r (x.toInt * y.toInt)) rfl rfl ha hb fun k => by
      simp [wrap32_rne, BitVec.ofInt_mul]
  · exact sends_int2 (f := fun _ x y =>
      if u then BitVec.ofNat 32 (x.toNat * y.toNat / 2 ^ 32) else BitVec.ofInt 32 (x.toInt * y.toInt / 2 ^ 32))
      rfl rfl ha hb fun k => rfl
  · exact sends_int2 (f := fun _ x y => if (if u then x.ult y else x.slt y) then x else y) rfl rfl ha hb fun k => ite_less ..
  · exact sends_int2 (f := fun _ x y => if (if u then x.ult y else x.slt y) then y else x) rfl rfl ha hb fun k => ite_less ..
  · exact sends_int1 (f := fun r x => wrap32 r x.toInt.natAbs) rfl rfl ha fun k => (wrap32_rne _).trans (ofInt_natAbs _)
  · exact sends_int1 (f := fun _ x => x.sshiftRight n.val) rfl rfl ha fun k => rfl
  · refine sends_int1 (f := fun _ x => BitVec.ofInt 32 (if u then clampInt 0 (2 ^ (n.val + 1) - 1) x.toInt
      else clampInt (-(2 ^ n.val)) (2 ^ n.val - 1) x.toInt)) rfl rfl ha fun k => congrArg (BitVec.ofInt 32) ?_
    cases u <;> simp only [clampInt, if_true, Bool.false_eq_true, if_false]
  · exact sends_bits2 (f := fun x y => x &&& y) rfl rfl ha hb hx hy
  · exact sends_bits2 (f := fun x y => x ||| y) rfl rfl ha hb hx hy
  · exact sends_bits2 (f := fun x y => x ^^^ y) rfl rfl ha hb hx hy
  · exact sends_shift1 (f := fun x => x <<< n.val) rfl rfl ha ht
  · exact sends_shift1 (f := fun x => x >>> n.val) rfl rfl ha ht

end Sys2Proof
end

