-- ==== Sys2Proof/Proofs/RowMoves.lean ====
section
/-! SUPPORT. The vector slot: moves, reductions, queue pops, sparsity packing, conversions, block scales, and what a row that is
sent leaves (R225, R234 to R245). -/

namespace Sys2Proof

open Machine

/-- A grid slot whose sources pass goes as its body goes (R224). -/
theorem gridSlot_run {s : State} {cls : Nat} {l : List (GridOp × (Nat → Bool))} {ex : Tile → List Site}
    {body : Ctx → State → List Nat → SlotR} {tags : List Nat} (h : s.tile.srcTags l = .ok tags) :
    (gridSlot cls l ex body).run s.alone s = body s.alone s tags := by
  simp only [gridSlot, State.alone_pre, h]

/-- Without sources there is nothing to check. -/
theorem srcTags_nil (t : Tile) : t.srcTags [] = .ok [] := rfl

/-- Two changes of the tile are one. -/
theorem Machine.State.mapTile_mapTile (s : State) (f g : Tile → Tile) : (s.mapTile f).mapTile g = s.mapTile fun t => g (f t) := rfl

/-- A row whose destination passes is sent (R224, R225). -/
theorem rowOut_ok {s u : State} {d : GridOp} {tag lat : Nat} {v : Row} (h : s.tile.dstOk d tag = .ok ()) :
    rowOut s.alone u d tag v lat = .ok (u.mapTile fun t => t.putRow s.tile d tag v lat) {} := by
  simp only [rowOut, State.alone_pre, h]
  rfl

/-! ## Moves and reductions -/

/-- A lane number modulo 64 names a lane (R242). -/
theorem getElem!_mod (v : Row) (n : Nat) : v[n % 64]! = v[n % 64]'(Nat.mod_lt _ (by decide)) :=
  getElem!_pos v _ (Nat.mod_lt _ (by decide))

/-- One step of a reduction, as the rules spell it out (R243). -/
theorem redStep_rne (op : RedOp) : redStep op (rndOf 0) = fun (x y : Cell) =>
    match op with
    | .fadd => toF32 rne (Machine.Num.add .rne (f32 x) (f32 y))
    | .fmax => toF32 rne (Machine.Num.max (f32 x) (f32 y))
    | .fmin => toF32 rne (Machine.Num.min' (f32 x) (f32 y))
    | .add => x + y
    | .max => if x.toInt < y.toInt then y else x
    | .min => if x.toInt < y.toInt then x else y := by
  funext x y
  cases op
  case max => simp [redStep, BitVec.slt]
  case min => simp [redStep, BitVec.slt]
  all_goals rfl

/-- A reduction is floating or integer (R243). -/
theorem redFloat_eq (op : RedOp) : redFloat op = decide (op = .fadd ∨ op = .fmax ∨ op = .fmin) := by
  cases op <;> rfl

/-- A reduction of a row of its tag sends the tree's result to all lanes (R243). -/
theorem sends_vred {s : State} {op : RedOp} {d a : GridOp} (ha : s.tile.tag a = some (if redFloat op then 1 else 2)) :
    SendsRow s (.vred op d a) d (if redFloat op then 1 else 2)
      (Vector.replicate 64 (treeFold (redStep op (rndOf 0)) 6 (s.tile.row a).toList)) (if redFloat op then 4 else 2) := by
  refine sendsRow_of_body rfl rfl (srcTags_one ha ?_) rfl rfl
  cases redFloat op <;> rfl

/-- The arrived entry at the head of a queue is popped (R84, R244). -/
theorem popQ_got {t : Tile} {q : QReg} {e : QEntry} {l : List QEntry} (h : t.queues[q.val] = e :: l) (ha : e.arrived = true)
    (hf : e.failed = false) : t.popQ q = .got e { t with queues := t.queues.set q.val l } := by
  simp [Tile.popQ, h, ha, hf]

/-! ## Sparsity packing -/

/-- An element of a list of lists that a range makes; beyond the range there is none. -/
theorem getD_map_range {α : Type} (f : Nat → List α) (n t i : Nat) (z : α) :
    (((List.range n).map f).getD t []).getD i z = if t < n then (f t).getD i z else z := by
  by_cases h : t < n <;> simp [List.getD, h]

/-- The steps that SPK sends (R245). -/
theorem spk_elem (f : Nat → List Nat) (n i : Nat) :
    (((List.range n).map f).getD (i / 12) []).getD (i % 12) 0 = (f (i / 12)).getD (i % 12) 0 * if i / 12 < n then 1 else 0 := by
  rw [getD_map_range]
  split <;> simp

/-- The masks that SPX sends (R245). -/
theorem spx_elem (f : Nat → Nat) (n g : Nat) : ((List.range n).map f).getD g 0 = if g < n then f g else 0 := by
  by_cases h : g < n <;> simp [List.getD, h]

/-- Settles O15: the checks pass, and the row sent is the slot's. -/
theorem laneMoves : Obligations.LaneMoves := by
  refine ⟨fun s d a b r x t k ha => ⟨fun hx hb => ?_, fun hx hb => ?_, ?_, ?_, fun hb => ?_, ?_, fun h hd => ?_⟩,
    fun s d a op q e l => ⟨fun ha => ?_, fun hq he hf hd h => ?_⟩, fun s d a x n ha hx => ⟨?_, ?_⟩⟩
  · refine sendsRow_of_body rfl rfl (srcTags_two ha (bne_iff_ne.mpr hx) hb (bne_iff_ne.mpr hx)) ?_ rfl
    simp only [List.getD_cons_zero, List.getD_cons_succ, bne_self_eq_false, Bool.false_eq_true, if_false]
    rfl
  · exact sendsRow_of_body rfl rfl (srcTags_two ha (beq_iff_eq.mpr hx) hb rfl) rfl rfl
  · exact sendsRow_of_body rfl rfl (srcTags_one ha rfl) rfl rfl
  · exact sendsRow_of_body rfl rfl (srcTags_one ha rfl) rfl rfl
  · refine sendsRow_of_body rfl rfl (srcTags_two ha rfl hb rfl) rfl ?_
    refine congrArg Vector.ofFn (funext fun i => getElem!_mod _ _)
  · exact sendsRow_of_body rfl rfl (srcTags_one ha rfl) rfl rfl
  · exact does_of_run rfl h (rowOut_ok hd) rfl rfl
  · have hc : (if op = .fadd ∨ op = .fmax ∨ op = .fmin then (4 : Nat) else 2) = if redFloat op then 4 else 2 := by
      rw [redFloat_eq]; simp
    have hn : (if op = .fadd ∨ op = .fmax ∨ op = .fmin then (1 : Nat) else 2) = if redFloat op then 1 else 2 := by
      rw [redFloat_eq]; simp
    have hf : (if op = .fadd ∨ op = .fmax ∨ op = .fmin then (1 : Fin 16) else 2) = if redFloat op then 1 else 2 := by
      rw [redFloat_eq]; simp
    rw [hf] at ha
    rw [hc, hn]
    have hs := sends_vred (d := d) ha
    rw [redStep_rne] at hs
    exact hs
  · refine does_of_run rfl h ?_ rfl rfl
    simp only [slotOf, slotQpop, popQ_got hq he hf, rowOut_ok hd]
    rfl
  · exact sendsRow_of_body rfl rfl (srcTags_one ha hx) rfl (congrArg _ (funext fun i => spk_elem _ _ i))
  · exact sendsRow_of_body rfl rfl (srcTags_one ha hx) rfl (congrArg _ (funext fun g => spx_elem _ _ g))

/-! ## Conversions -/

/-- The tag check of CVT (R235). -/
theorem cvt_srcTags {s : State} {a : GridOp} {x : Fin 16} (ha : s.tile.tag a = some x) (h1 : 1 ≤ x.val) (h13 : x.val ≤ 13) :
    s.tile.srcTags [(a, fun x => decide (1 ≤ x) && decide (x ≤ 13))] = .ok [x.val] :=
  srcTags_one ha (by simp [h1, h13])

/-- Settles O16: CVT goes by the tags of its source and its destination, each in range by a premise. -/
theorem conversions : Obligations.Conversions := by
  refine fun s d a x t p v ha h1 h13 => ⟨fun hx ht hv => ?_, fun hp ht h2 => ?_, fun hx ht h2 h => ?_⟩
  · refine sendsRow_of_body rfl rfl (cvt_srcTags ha h1 h13) ?_ rfl
    have hr : rndOf 0 = rne := rfl
    simp only [List.getD_cons_zero, beq_eq_false_iff_ne.mpr hx, beq_eq_false_iff_ne.mpr ht, Bool.false_eq_true, if_false,
      State.alone_pre, hr, hv]
  · have hx : x.val = 12 := by
      simp only [Tile.isPair, ha, Bool.and_eq_true] at hp
      simpa using hp.1.2
    refine sendsRow_of_body rfl rfl (cvt_srcTags ha h1 h13) ?_ rfl
    simp only [List.getD_cons_zero, hx, cvtFromPair, State.alone_pre, hp, ht, Nat.not_le.mpr h2]
    rfl
  · have hx12 : x.val ≠ 12 := by omega
    have hs : (x.val == 1 || x.val == 2) = true := by rcases hx with h | h <;> rw [h] <;> rfl
    refine does_of_run rfl h ?_ rfl rfl
    simp only [slotOf, slotCvt]
    rw [gridSlot_run (cvt_srcTags ha h1 h13)]
    simp only [List.getD_cons_zero, beq_eq_false_iff_ne.mpr hx12, ht, cvtToPair, State.alone_pre, hs, Nat.not_le.mpr h2]
    rfl

/-! ## Block scales -/

/-- Settles O17: the checks pass; what each slot leaves besides its row is what it changes before it sends it. -/
theorem blockScales : Obligations.BlockScales := by
  refine fun s d a b e f p n => ⟨fun ha hd h => ?_, fun hd h => ?_, fun ha hd h => ?_, fun ha => ?_, fun x ha hx hs hp => ?_⟩
  · refine does_of_run rfl h ?_ rfl rfl
    simp only [slotOf, slotBmax]
    rw [gridSlot_run (srcTags_one ha rfl)]
    simp only [State.alone_pre, rowOut_ok hd, State.mapTile_mapTile]
  · refine does_of_run rfl h ?_ rfl rfl
    simp only [slotOf, slotScsel, Bool.false_eq_true, if_false]
    simp only [gridSlot, State.alone_pre, srcTags_nil, rowOut_ok hd]
  · refine does_of_run rfl h ?_ rfl rfl
    simp only [slotOf, slotScsel, if_true]
    rw [gridSlot_run (srcTags_one ha rfl)]
    simp only [State.alone_pre, rowOut_ok hd, State.mapTile_mapTile]
  · exact sendsRow_of_body rfl rfl (srcTags_one ha rfl) rfl rfl
  · refine sendsRow_of_body rfl rfl (srcTags_two ha hx hs rfl) ?_ rfl
    simp only [List.getD_cons_zero, Nat.not_le.mpr hp, if_false]
    rfl

/-! ## What a row that is sent leaves -/

/-- A row that is sent touches its tag, where it goes to an h row, and the results in flight (R225). -/
theorem Machine.Tile.putRow_eq (t old : Tile) (g : GridOp) (tag : Nat) (v : Row) (lat : Nat) :
    t.putRow old g tag v lat =
      { t with
        tags := if g.dir = .h then t.tags.set (physRow old.rrb g.idx).val (Fin.ofNat 16 tag) else t.tags
        flights := (t.putRow old g tag v lat).flights } := by
  simp only [Tile.putRow, Tile.fly, Tile.retag]
  cases g.dir <;> rfl

/-- A bundle that reads a row in error raises GRID_PARITY before its slot's checks (R50). -/
theorem runSlots_spoilt {s : State} {x : Slot} {w : Site} (hw : w ∈ x.reads s.tile) (hs : s.tile.spoilt w = true) :
    runSlots s.alone (popFirst [(0, x)]) { s := s } = .trap { cause := .gridParity, slot := x.cls } := by
  have hr : (x.reads s.tile).any s.tile.spoilt = true := List.any_eq_true.mpr ⟨w, hw, hs⟩
  rw [popFirst_alone]
  simp only [runSlots, State.alone_pre, Tile.pred_zero, hr]
  rfl

/-- Settles O19: the parity check comes first; else the next state is the one moved on from the row sent. -/
theorem vectorFrame : Obligations.VectorFrame := by
  refine ⟨fun s i r c hx hr hw hb => ?_, fun s t i d tag v lat hs hd hc ht => ?_⟩
  · rw [hx, issue1_ready hr, runSlots_spoilt hw hb]
  · obtain rfl := (hs hc hd).next_eq ht
    have hm := State.moved_tile s (s.mapTile fun t => t.putRow s.tile d tag v lat)
    rw [hm, State.mapTile_tile, Tile.putRow_eq]
    refine ⟨fun _ => rfl, fun _ => rfl, rfl, fun r hr => ?_, fun hh => ?_, rfl, rfl, rfl, rfl, rfl, rfl, rfl, rfl, rfl, rfl, rfl,
      rfl, rfl, rfl, rfl, rfl, rfl, rfl⟩
    · change (if d.dir = .h then _ else s.tile.tags)[r.val] = s.tile.tags[r.val]
      by_cases hh : d.dir = .h
      · have hv : (physRow s.tile.rrb d.idx).val ≠ r.val := fun e => hr ⟨hh, Fin.ext e⟩
        simp [hh, Vector.getElem_set_ne _ _ hv]
      · simp [hh]
    · change (if d.dir = .h then _ else s.tile.tags)[(physRow s.tile.rrb d.idx).val] = _
      simp [hh]

end Sys2Proof
end

