-- ==== Sys2Proof/Proofs/LoadStore.lean ====
section
/-! SUPPORT. The memory slot: the checks of an access to plain scratchpad bytes, loads, stores and what they leave, plane moves,
handles and map windows (R246 to R264). -/

namespace Sys2Proof

open Machine

/-! ## Plain scratchpad bytes -/

/-- Scratchpad bytes lie below the slice. -/
theorem regionOf_sp {a : Nat} (h : a < 0x180000) : regionOf a = .sp := by
  simp [regionOf, h]

/-- A window has a line at least (R68). -/
theorem Machine.MapEntry.lo_lt_hi (m : MapEntry) : m.lo < m.hi := by
  simp only [MapEntry.hi, MapEntry.nlines]
  omega

/-- A range touches no window line exactly where no valid window meets it. -/
theorem winLines_eq_nil {t : Tile} {lo hi : Nat} (hlt : lo < hi) :
    t.winLines lo hi = [] ↔ ∀ n : Fin 16, ¬ ((t.maps[n.val]).valid = true ∧ lo < (t.maps[n.val]).hi ∧ (t.maps[n.val]).lo < hi) := by
  simp only [Tile.winLines, List.flatMap_eq_nil_iff, List.mem_finRange, true_imp_iff]
  refine forall_congr' fun n => ?_
  have hl := MapEntry.lo_lt_hi t.maps[n.val]
  split
  · rename_i hc
    simp only [Bool.and_eq_true, decide_eq_true_eq] at hc
    obtain ⟨⟨hv, h1⟩, h2⟩ := hc
    simp only [List.map_eq_nil_iff, List.range_eq_nil]
    refine iff_of_false ?_ fun h => h ⟨hv, h1, h2⟩
    omega
  · rename_i hc
    refine iff_of_true rfl fun ⟨hv, h1, h2⟩ => hc ?_
    simp [hv, h1, h2]

/-- A smaller range touches no window line where a larger one touches none. -/
theorem winLines_sub {t : Tile} {lo hi a b : Nat} (h : t.winLines lo hi = []) (hlt : a < b) (ha : lo ≤ a) (hb : b ≤ hi) :
    t.winLines a b = [] := by
  rw [winLines_eq_nil (by omega)] at h
  rw [winLines_eq_nil hlt]
  rintro n ⟨hv, h1, h2⟩
  exact h n ⟨hv, by omega, by omega⟩

/-- The cuts of a range lie in it. -/
theorem mem_cutRange {x p q : Nat × Nat} (h : q ∈ cutRange x p) : q.1 < q.2 ∧ x.1 ≤ q.1 ∧ q.2 ≤ x.2 := by
  simp only [cutRange, List.mem_filter, List.mem_cons, List.not_mem_nil, or_false, decide_eq_true_eq] at h
  obtain ⟨rfl | rfl, hlt⟩ := h
  · exact ⟨hlt, Nat.le_refl _, Nat.min_le_left ..⟩
  · exact ⟨hlt, Nat.le_max_left .., Nat.le_refl _⟩

/-- Cutting ranges again keeps them where they were. -/
theorem mem_foldl_cutRange {α : Type} (f : α → Nat × Nat) (l : List α) (rs : List (Nat × Nat)) {lo hi : Nat}
    (hrs : ∀ q ∈ rs, q.1 < q.2 ∧ lo ≤ q.1 ∧ q.2 ≤ hi) :
    ∀ q ∈ l.foldl (fun l p => l.flatMap fun x => cutRange x (f p)) rs, q.1 < q.2 ∧ lo ≤ q.1 ∧ q.2 ≤ hi := by
  induction l generalizing rs with
  | nil => exact hrs
  | cons p l ih =>
    refine ih _ fun q hq => ?_
    obtain ⟨x, hx, hq⟩ := List.mem_flatMap.mp hq
    obtain ⟨-, h1, h2⟩ := hrs x hx
    obtain ⟨h3, h4, h5⟩ := mem_cutRange hq
    exact ⟨h3, by omega, by omega⟩

/-- The parts of a read outside the predicted slots lie in it (R150). -/
theorem mem_unshadowed {t : Tile} {lo hi : Nat} (hlt : lo < hi) :
    ∀ q ∈ t.unshadowed lo hi, q.1 < q.2 ∧ lo ≤ q.1 ∧ q.2 ≤ hi :=
  mem_foldl_cutRange _ _ _ (by simp [hlt])

/-- Bytes that no window and no footprint has meet no edge (R140). -/
theorem edge_plain {t : Tile} {write : Bool} {a b : Nat} (hw : t.winLines a b = [])
    (hf : ∀ f, f ∈ t.feet → f.glob = false → f.hi ≤ a ∨ b ≤ f.lo) : t.edge write a b = false := by
  simp only [Tile.edge, hw, List.any_nil, Bool.or_false, List.any_eq_false]
  intro f hm
  cases hg : f.glob with
  | true => simp
  | false =>
    rcases hf f hm hg with h | h
    · simp [Nat.not_lt.mpr h]
    · simp [Nat.not_lt.mpr h]

/-- Bytes of no slot and of no window pass steps 4 to 6 of R247 and leave the state. -/
theorem linePrep_plain {s0 s : State} {write : Bool} {lo hi : Nat} (hslots : s.tile.slotsIn lo hi = [])
    (hw : s.tile.winLines lo hi = []) : linePrep .core s0 s write [(lo, hi)] = .ok s := by
  have hv : s.tile.slotsVerdict .core write lo hi = .ok := by simp [Tile.slotsVerdict, hslots]
  cases write <;> simp [linePrep, winPrep, hv, hw, State.fillLines]

/-- The bank's byte that a read outside speculation reaches in the scratchpad (R150). -/
theorem bankKey_sp {s : State} {a : Nat} (hh : s.tile.heldByte a = none) (ha : a < 0x180000) :
    s.bankKey .core a = some (spKey s.tile.cl s.tile.tn (spPhys s.tile.spswz (s.tile.shadowed a))) := by
  simp [State.bankKey, hh, regionOf_sp ha]

/-- Whether the bank of the byte that the core reads at a holds an uncorrectable error (R263). -/
def Machine.State.badByte (s : State) (a : Nat) : Bool :=
  s.bad.contains (spKey s.tile.cl s.tile.tn (spPhys s.tile.spswz (s.tile.shadowed a)))

/-- Where no byte is bad no read meets an error (R263). -/
theorem badLocal_none {s : State} {lo hi : Nat} (hhi : hi ≤ 0x180000) (h : ∀ a, lo ≤ a → a < hi → s.badByte a = false) :
    s.badLocal .core lo hi = none := by
  unfold State.badLocal
  split
  · rfl
  · rw [List.find?_eq_none]
    intro a ha
    obtain ⟨k, hk, rfl⟩ := List.mem_map.mp ha
    have hk := List.mem_range.mp hk
    cases hh : s.tile.heldByte (lo + k) with
    | some b => simp [State.bankKey, hh]
    | none =>
      have hb := h (lo + k) (by omega) (by omega)
      rw [bankKey_sp hh (by omega)]
      simpa [State.badByte] using hb

/-- The first bad byte that a read meets (R263). -/
theorem badLocal_first {s : State} {lo hi a : Nat} (hs : s.tile.spec = none) (hhi : hi ≤ 0x180000) (h1 : lo ≤ a) (h2 : a < hi)
    (hb : s.badByte a = true) (hf : ∀ b, lo ≤ b → b < a → s.badByte b = false) : s.badLocal .core lo hi = some a := by
  have hne : s.bad.isEmpty = false := by
    cases hl : s.bad with
    | nil => simp [State.badByte, hl] at hb
    | cons x l => rfl
  have hk : ∀ b, b < hi → (s.bankKey .core b).any s.bad.contains = s.badByte b := fun b hlt => by
    rw [bankKey_sp (by simp [Tile.heldByte, hs]) (by omega)]
    rfl
  have hr : (List.range (hi - lo)).map (lo + ·) =
      (List.range (a - lo)).map (lo + ·) ++ a :: (List.range (hi - a - 1)).map (a + 1 + ·) := by
    have e : hi - lo = (a - lo) + ((hi - a - 1) + 1) := by omega
    rw [e, List.range_add, List.map_append, List.map_map, List.range_succ_eq_map, List.map_cons, List.map_map]
    congr 2
    · simp; omega
    · refine List.map_congr_left fun k _ => ?_
      simp; omega
  simp only [State.badLocal, hne, Bool.false_eq_true, if_false, hr]
  refine find_first _ _ _ _ (fun b hm => ?_) ?_
  · obtain ⟨k, hk', rfl⟩ := List.mem_map.mp hm
    have := List.mem_range.mp hk'
    rw [hk _ (by omega)]
    exact hf _ (by omega) (by omega)
  · rw [hk a h2, hb]

/-- Plain bytes pass the checks of slots, windows and edges, so that only a bank's error is left to be met. -/
theorem memPrep_plain {s : State} {write : Bool} {lo hi : Nat} (hlt : lo < hi)
    (hslots : s.tile.slotsIn lo hi = []) (hw : s.tile.winLines lo hi = [])
    (hf : ∀ f, f ∈ s.tile.feet → f.glob = false → f.hi ≤ lo ∨ hi ≤ f.lo) :
    memPrep s s write [(lo, hi)] =
      match (if write then none else s.badLocal .core lo hi) with
      | some a => .trap (spError 4 a)
      | none => .ok s := by
  have he : ((if write || Owner.core != .core then [(lo, hi)] else [(lo, hi)].flatMap fun p => s.tile.unshadowed p.1 p.2).any
      fun p => s.tile.edge write p.1 p.2) = false := by
    rw [List.any_eq_false]
    intro q hq
    have hin : q.1 < q.2 ∧ lo ≤ q.1 ∧ q.2 ≤ hi := by
      cases write with
      | true =>
        obtain rfl : q = (lo, hi) := by simpa using hq
        exact ⟨hlt, Nat.le_refl _, Nat.le_refl _⟩
      | false => exact mem_unshadowed hlt q (by simpa using hq)
    obtain ⟨h1, h2, h3⟩ := hin
    rw [edge_plain (winLines_sub hw h1 h2 h3) fun f hm hg => (hf f hm hg).imp (by omega) (by omega)]
    exact Bool.false_ne_true
  simp only [memPrep, agentPrep, linePrep_plain hslots hw, he, Bool.false_eq_true, if_false]
  cases write with
  | true => rfl
  | false =>
    simp only [Bool.false_eq_true, if_false, List.findSome?_cons, List.findSome?_nil]
    cases s.badLocal .core lo hi <;> rfl

/-- Settles O20: no slot, window or edge is met; a read meets the first bad byte. -/
theorem plainAccess : Obligations.PlainAccess := by
  refine fun s write lo hi hlt hhi hslots hw hf => ⟨fun h => ?_, fun a hs hwr h1 h2 hb hfirst => ?_⟩
  · rw [memPrep_plain hlt hslots hw hf]
    rcases h with rfl | h
    · rfl
    · rw [badLocal_none hhi h, ite_self]
  · subst hwr
    rw [memPrep_plain hlt hslots hw hf]
    simp only [Bool.false_eq_true, if_false, badLocal_first hs hhi h1 h2 hb hfirst]
    rfl

/-! ## Loads -/

/-- A row load names its cells by the tile before the bundle (R250). -/
theorem rowLoad_alone (s : State) (d : GridOp) (f : Fin 64 → Nat) :
    rowLoad s.alone d f = (List.finRange 64).map fun i =>
      (.cell (laneCell s.tile.rrb d i).1 (laneCell s.tile.rrb d i).2, some (BitVec.ofNat 64 (f i))) := rfl

/-- Settles O21: the slot is free, the checks pass, and the results are under way. -/
theorem loads : Obligations.Loads := by
  refine fun s u z d g r a imm hc => ⟨fun hx hr hl h => ?_, fun hx hr hl h => ?_, fun hx hg hl h => ?_, fun tag ht hw hx hl h => ?_⟩
  · have hreg : (regionOf (s.tile.addr a imm) == .ctl) = false := beq_eq_false_iff_ne.mpr hr
    refine does_of_run rfl h ((memSlot_run hl.1).trans ?_) rfl rfl
    simp only [State.alone_pre, hx, hreg, Bool.false_eq_true, if_false]
    exact loadR_ok hl.2 hc
  · refine does_of_run rfl h ((memSlot_run hl.1).trans ?_) rfl rfl
    simp only [State.alone_pre, hx, hr, beq_self_eq_true, if_true, State.csrBytes, csrNo]
    exact loadR_ok hl.2 hc
  · obtain ⟨x, hg⟩ := Option.ne_none_iff_exists'.mp hg
    refine does_of_run rfl h ((memSlot_run hl.1).trans ?_) rfl rfl
    simp only [State.alone_pre, hg, hx]
    exact loadR_ok hl.2 hc
  · have hw' : (ldttWidth tag.val == 0) = false := beq_eq_false_iff_ne.mpr hw
    refine does_of_run rfl h ((memSlot_run hl.1).trans ?_) rfl rfl
    simp only [State.alone_pre, ht, Option.getD_some, hw', Bool.false_eq_true, if_false, hx]
    rw [loadR_ok hl.2 hc]

/-! ## Stores -/

/-- The channel to whose setup a control-window register belongs (R289). -/
theorem setupChan_eq_some {n : Nat} {c : ChNo} : setupChan n = some c ↔ 64 + 16 * c.val ≤ n ∧ n < 80 + 16 * c.val := by
  have hc := c.isLt
  unfold setupChan
  split
  · rename_i hn
    simp only [Option.some.injEq, Fin.ext_iff, Fin.val_ofNat]
    omega
  · simp only [reduceCtorEq, false_iff]
    omega

/-- The registers that take effect at the end of the bundle (R214). -/
theorem wired_iff {n : Nat} : wired n = true ↔ n = 4 ∨ n = 8 ∨ n = 9 ∨ n = 16 ∨ n = 17 ∨ (128 ≤ n ∧ n < 192) := by
  simp [wired, or_assoc]

/-- A write of a register that belongs to no foreign channel and takes effect at once (R214, R272). -/
theorem csrStore_now {s : State} {n : Nat} {v : Word}
    (ho : ∀ c : ChNo, 64 + 16 * c.val ≤ n ∧ n < 80 + 16 * c.val → fld s.tile.chown.toNat (2 * c.val) 2 = 0)
    (hl : ¬(n = 4 ∨ n = 8 ∨ n = 9 ∨ n = 16 ∨ n = 17 ∨ (128 ≤ n ∧ n < 192))) :
    csrStore s n v = okR (s.mapTile fun t => t.csrWrite n v) := by
  have h1 : ((setupChan n).any fun c => fld s.tile.chown.toNat (2 * c.val) 2 != 0) = false := by
    cases hc : setupChan n with
    | none => rfl
    | some c => simp [ho c (setupChan_eq_some.mp hc)]
  have h2 : wired n = false := Bool.eq_false_iff.mpr fun h => hl (wired_iff.mp h)
  simp only [csrStore, h1, h2, Bool.false_eq_true, if_false]

/-- A write of a register that takes effect at the end of the bundle (R214). -/
theorem csrStore_late {s : State} {n : Nat} {v : Word} (hl : n = 4 ∨ n = 8 ∨ n = 9 ∨ n = 16 ∨ n = 17 ∨ (128 ≤ n ∧ n < 192)) :
    csrStore s n v = .ok s { wire := fun t => t.csrWrite n v } := by
  have h1 : setupChan n = none := by
    unfold setupChan
    rw [if_neg (by omega)]
  simp only [csrStore, h1, wired_iff.mpr hl, Option.any_none, Bool.false_eq_true, if_false, if_true]

/-- A write of the setup of a channel that the core does not own (R272). -/
theorem csrStore_foreign {s : State} {n : Nat} {v : Word} {c : ChNo} (hc : 64 + 16 * c.val ≤ n ∧ n < 80 + 16 * c.val)
    (ho : fld s.tile.chown.toNat (2 * c.val) 2 ≠ 0) : csrStore s n v = trapR .engineState := by
  simp [csrStore, setupChan_eq_some.mpr hc, ho]

/-- A store to the control window outside speculation is counted, and writes its register where it has 8 bytes (R67, R249). -/
theorem sts_ctl_run {s : State} {z : Size} {d a : SReg} {imm : Int} (hs : s.tile.spec = none) (hc : s.tile.cst < 24)
    (hb : s.tile.busy ≤ s.tile.tc)
    (hx : accessCheck s.alone .any (Size.bytes z) (s.tile.addr a imm) (Size.bytes z) = none)
    (hr : regionOf (s.tile.addr a imm) = .ctl) :
    (slotOf (.sts z d a imm)).run s.alone s =
      let u := s.mapTile fun t => t.countUntil .st (s.tile.tc + 4)
      if Size.bytes z == 8 then csrStore u ((s.tile.addr a imm - 0x0F000000) / 8) (s.tile.sreg d) else okR u := by
  refine (memSlot_run hb).trans ?_
  simp only [State.alone_pre, hx, hr, hs, ctrMax, Nat.not_le.mpr hc, if_false]
  rfl

/-- A store of some pieces whose checks pass is performed (R56). -/
theorem does_store {s v u : State} {i : Instr} {l : List (Nat × List Byte)} {reads : Tile → List Site}
    {run : Ctx → State → SlotR} (hx : exec i s = .next (issue1 s (slotOf i))) (hi : slotOf i = memSlot reads run) (h : Clear s i)
    (hb : s.tile.busy ≤ s.tile.tc) (hc : s.tile.cst < 24) (hm : memPrep s v true (rangesOf l) = .ok u) (hs : u.tile.spec = none)
    (hr : run s.alone s = storeR s.alone v l (s.tile.tc + 4)) : Does s i (u.storing l (s.tile.tc + 4)) := by
  refine does_of_run hx h ?_ rfl rfl
  rw [hi, memSlot_run hb, hr]
  exact storeR_ok hm hs hc

/-- Settles O22: the checks pass, and the store is performed; one to the control window goes by its register. -/
theorem stores : Obligations.Stores := by
  refine fun s u z d g q h a imm e l hs hc hb => ⟨fun hx hr hm hu hcl => ?_, fun hx hr hcl => ?_, fun hx hg hm hu hcl => ?_,
    fun hx hm hu hcl => ?_, fun hq ha hf w hw hx hm hu hcl => ?_⟩
  · have hreg : (regionOf (s.tile.addr a imm) == .ctl) = false := beq_eq_false_iff_ne.mpr hr
    refine does_store rfl rfl hcl hb hc hm hu ?_
    simp only [State.alone_pre, hx, hreg, Bool.false_eq_true, if_false]
    rfl
  · have hrun := sts_ctl_run (d := d) hs hc hb hx hr
    have h8 : ∀ r, Size.bytes z = 8 →
        csrStore (s.mapTile fun t => t.countUntil .st (s.tile.tc + 4)) ((s.tile.addr a imm - 0x0F000000) / 8) (s.tile.sreg d) = r →
        (slotOf (.sts z d a imm)).run s.alone s = r := fun r hn hcs => by
      rw [hrun, ← hcs]
      simp [hn]
    refine ⟨fun hn => ?_, fun hn hl ho => ?_, fun hn hl => ?_, fun hn hk => ?_, fun hn hk => ?_, fun c hn hk ho => ?_⟩
    · refine does_of_run rfl hcl ?_ rfl rfl
      rw [hrun]
      simp [hn, okR]
    · exact does_of_run rfl hcl (h8 _ hn (csrStore_now ho hl)) rfl rfl
    · exact does_of_run rfl hcl (h8 _ hn (csrStore_late hl)) rfl rfl
    · refine does_of_run rfl hcl (h8 _ hn ((csrStore_late (.inr (.inl hk))).trans ?_)) rfl rfl
      rw [hk]; rfl
    · refine does_of_run rfl hcl (h8 _ hn ((csrStore_late (.inr (.inr (.inl hk)))).trans ?_)) rfl rfl
      rw [hk]; rfl
    · exact raises_of_trapR rfl hcl (h8 _ hn (csrStore_foreign hk ho))
  · obtain ⟨x, hg⟩ := Option.ne_none_iff_exists'.mp hg
    refine does_store rfl rfl hcl hb hc hm hu ?_
    simp only [State.alone_pre, hg, hx]
    rfl
  · refine does_store rfl rfl hcl hb hc hm hu ?_
    simp only [State.alone_pre, hx]
    rfl
  · have hp := popQ_got hq ha hf
    rcases hw with rfl | rfl
    · refine does_store rfl rfl hcl hb hc hm hu ?_
      simp only [State.alone_pre, hp, hx]
      rfl
    · refine does_store rfl rfl hcl hb hc hm hu ?_
      simp only [State.alone_pre, hp, hx]
      rfl

end Sys2Proof
end

