-- ==== Sys2Proof/Proofs/StoreFrames.lean ====
section
/-! SUPPORT. The memory slot: what a store leaves of memory, plane moves, handles and map windows (R56, R69, R127, R253 to R262). -/

namespace Sys2Proof

open Machine

/-! ## What a store leaves -/

/-- What a store to the scratchpad keeps of the tile: its place, its swizzle, its registers and the slice bytes held back. -/
structure KeepsForStore (t u : Tile) : Prop where
  cl : u.cl = t.cl
  tn : u.tn = t.tn
  spswz : u.spswz = t.spswz
  sregs : u.sregs = t.sregs
  preds : u.preds = t.preds
  grid : u.grid = t.grid

theorem KeepsForStore.refl (t : Tile) : KeepsForStore t t := ⟨rfl, rfl, rfl, rfl, rfl, rfl⟩

theorem KeepsForStore.trans {t u v : Tile} (h : KeepsForStore t u) (h' : KeepsForStore u v) : KeepsForStore t v :=
  ⟨h'.cl.trans h.cl, h'.tn.trans h.tn, h'.spswz.trans h.spswz, h'.sregs.trans h.sregs, h'.preds.trans h.preds, h'.grid.trans h.grid⟩

/-- Marking a window's byte dirty keeps all but the windows. -/
theorem keeps_markDirty (t : Tile) (a : Nat) : KeepsForStore t (t.markDirty a) := by
  unfold Tile.markDirty
  split <;> exact ⟨rfl, rfl, rfl, rfl, rfl, rfl⟩

theorem keeps_markDirties (t : Tile) (a : Nat) (l : List Nat) :
    KeepsForStore t (l.foldl (fun t k => t.markDirty (a + k)) t) := by
  induction l generalizing t with
  | nil => exact .refl t
  | cons k l ih => exact (keeps_markDirty t _).trans (ih _)

/-- A store to the scratchpad puts its bytes into the banks, whatever else it notes in the tile (R69, R85). -/
theorem spStore_eq (s : State) (a : Nat) (bs : List Byte) :
    (s.spStore a bs).mem = ((s.noteWrite a bs.length).spRaw a bs).mem ∧ KeepsForStore s.tile (s.spStore a bs).tile := by
  have hn : KeepsForStore s.tile (s.spPut a bs).tile := by
    rw [State.spPut, State.spRaw_tile]
    exact ⟨rfl, rfl, rfl, rfl, rfl, rfl⟩
  unfold State.spStore
  simp only []
  split
  · exact ⟨rfl, hn⟩
  · exact ⟨rfl, hn.trans (keeps_markDirties ..)⟩

/-- A scratchpad byte depends on memory and on the tile's place and swizzle (R54). -/
theorem spByte_congr {s u : State} (hm : u.mem = s.mem) (ht : KeepsForStore s.tile u.tile) (b : Nat) : u.spByte b = s.spByte b := by
  simp only [State.spByte, hm, ht.cl, ht.tn, ht.spswz]

/-- A store to the scratchpad is one there (R65). -/
theorem performStore_sp {s : State} {a : Nat} {bs : List Byte} (h : a + bs.length ≤ 0x180000) :
    s.performStore a bs = s.spStore a bs := by
  have hr : (regionOf a == .slice) = false := by
    unfold regionOf
    split
    · rfl
    · rw [if_neg (by omega), if_neg (by omega)]
      rfl
  simp only [State.performStore, hr, Bool.false_eq_true, if_false]

/-- What a store to the scratchpad makes of its bytes, of the others and of the rest of memory (R56). -/
theorem spStore_frame {s : State} (a : Nat) (bs : List Byte) (hs : Safe s) :
    (∀ k, k < bs.length → some ((s.spStore a bs).spByte (a + k)) = bs[k]?)
    ∧ (∀ b, b < a ∨ a + bs.length ≤ b → (s.spStore a bs).spByte b = s.spByte b)
    ∧ ∀ key, (∀ k, k < bs.length → key ≠ spKey s.tile.cl s.tile.tn (spPhys s.tile.spswz (a + k))) →
        (s.spStore a bs).mem.get key = s.mem.get key := by
  obtain ⟨hm, ht⟩ := spStore_eq s a bs
  have hk : KeepsForStore ((s.noteWrite a bs.length).spRaw a bs).tile (s.spStore a bs).tile := by
    rw [State.spRaw_tile]
    exact ⟨ht.cl, ht.tn, ht.spswz, ht.sregs, ht.preds, ht.grid⟩
  have hother : ∀ key, (∀ k, k < bs.length → key ≠ spKey s.tile.cl s.tile.tn (spPhys s.tile.spswz (a + k))) →
      (s.spStore a bs).mem.get key = s.mem.get key := fun key hkey => by
    rw [hm]
    exact State.spRaw_get_other (s.noteWrite a bs.length) a bs key hs hkey
  refine ⟨fun k hlt => ?_, fun b hb => ?_, hother⟩
  · rw [spByte_congr hm hk]
    exact State.spRaw_get (s.noteWrite a bs.length) a bs hs k hlt
  · rw [State.spByte, ht.cl, ht.tn, ht.spswz]
    refine hother _ fun k hlt e => ?_
    have := spPhys_inj _ (spKey_inj e)
    omega

/-- Touching slice lines keeps memory and the bytes held back (R119). -/
theorem touchLine_keeps (s : State) (n : Nat) :
    (s.touchLine n).mem = s.mem ∧ (s.touchLine n).tile.unpub = s.tile.unpub := by
  unfold State.touchLine
  split <;> exact ⟨rfl, rfl⟩

theorem touchLines_keep (l : List Nat) (s : State) :
    (l.foldl State.touchLine s).mem = s.mem ∧ (l.foldl State.touchLine s).tile.unpub = s.tile.unpub := by
  induction l generalizing s with
  | nil => exact ⟨rfl, rfl⟩
  | cons n l ih =>
    obtain ⟨h1, h2⟩ := ih (s.touchLine n)
    obtain ⟨h3, h4⟩ := touchLine_keeps s n
    exact ⟨h1.trans h3, h2.trans h4⟩

theorem touchAll_keeps (s : State) (l : List (Nat × Nat)) :
    (s.touchAll l).mem = s.mem ∧ (s.touchAll l).tile.unpub = s.tile.unpub := by
  unfold State.touchAll
  simp only []
  split <;> exact touchLines_keep ..

/-- A store to the slice is held back in the tile (R127). -/
theorem performStore_slice {s : State} {a : Nat} (bs : List Byte) (h1 : 0x400000 ≤ a) (h2 : a < 0xC00000) :
    (s.performStore a bs).mem = s.mem
    ∧ (s.performStore a bs).tile.unpub = ovPut s.tile.unpub (a - 0x400000) bs := by
  have hr : (regionOf a == .slice) = true := by
    rw [regionOf, if_neg (by omega), if_pos ⟨h1, h2⟩]
    rfl
  obtain ⟨hm, hu⟩ := touchAll_keeps s [(a, a + bs.length)]
  simp only [State.performStore, hr, if_true, State.mapTile_mem, State.mapTile_tile, State.touch, hm, hu, and_self]

/-- An overlay gives the bytes put over it, and elsewhere what it gave. -/
theorem ovGet_put_frame (o : List Host.Cell) (a : Nat) (bs : List Byte) :
    (∀ k, k < bs.length → ovGet (ovPut o a bs) (a + k) = bs[k]?)
    ∧ ∀ b, b < a ∨ a + bs.length ≤ b → ovGet (ovPut o a bs) b = ovGet o b := by
  refine ⟨fun k hk => ?_, fun b hb => ?_⟩
  · rw [ovGet_put, if_pos (Nat.le_add_right a k), Nat.add_sub_cancel_left, List.getElem?_eq_getElem hk]
    rfl
  · rw [ovGet_put]
    split
    · rw [List.getElem?_eq_none (by omega)]
      rfl
    · rfl

/-- The bytes of n lanes of a row are 4 n (R250). -/
theorem rowBytes_length (v : Row) (n : Nat) (h : n ≤ 64) : (rowBytes v n).length = 4 * n := by
  rw [rowBytes, flatMap_length _ _ 4 fun _ _ => leBytes_length _ _, List.length_take, Vector.length_toList, Nat.min_eq_left h,
    Nat.mul_comm]

/-- A bundle that has stored to plain scratchpad bytes leaves what the store leaves. -/
theorem store_frame {s : State} {i : Instr} {a : Nat} {bs : List Byte} {t : State} (hsafe : Safe s)
    (hd : Does s i (s.storing [(a, bs)] (s.tile.tc + 4))) (ha : a + bs.length ≤ 0x180000) (ht : exec i s = .next t) :
    (∀ k, k < bs.length → some (t.spByte (a + k)) = bs[k]?)
    ∧ (∀ b, b < a ∨ a + bs.length ≤ b → t.spByte b = s.spByte b)
    ∧ (∀ key, (∀ k, k < bs.length → key ≠ spKey s.tile.cl s.tile.tn (spPhys s.tile.spswz (a + k))) →
        t.mem.get key = s.mem.get key)
    ∧ (∀ r, t.tile.sreg r = s.tile.sreg r) ∧ (∀ p, t.tile.pred p = s.tile.pred p) ∧ t.tile.grid = s.tile.grid := by
  obtain rfl := hd.next_eq ht
  have he : s.storing [(a, bs)] (s.tile.tc + 4) = (s.spStore a bs).mapTile fun t => t.countUntil .st (s.tile.tc + 4) := by
    rw [State.storing, State.performStores, List.foldl_cons, List.foldl_nil, performStore_sp ha]
  obtain ⟨h1, h2, h3⟩ := spStore_frame a bs hsafe
  obtain ⟨-, hk⟩ := spStore_eq s a bs
  have hm : (s.moved (s.storing [(a, bs)] (s.tile.tc + 4))).mem = (s.spStore a bs).mem := by rw [he]; rfl
  have hv : KeepsForStore (s.spStore a bs).tile (s.moved (s.storing [(a, bs)] (s.tile.tc + 4))).tile := by
    rw [he, State.moved_tile]
    exact ⟨rfl, rfl, rfl, rfl, rfl, rfl⟩
  have hall := hk.trans hv
  refine ⟨fun k hlt => ?_, fun b hb => ?_, fun key hkey => ?_, fun r => ?_, fun p => ?_, hall.grid⟩
  · rw [spByte_congr hm hv, h1 k hlt]
  · rw [spByte_congr hm hv, h2 b hb]
  · rw [hm, h3 key hkey]
  · simp only [Tile.sreg, hall.sregs]
  · simp only [Tile.pred, hall.preds]

/-- A store to plain scratchpad bytes passes its later checks (R247). -/
theorem memPrep_store_plain {s : State} {a : Nat} {bs : List Byte} (h0 : 0 < bs.length)
    (hslots : s.tile.slotsIn a (a + bs.length) = []) (hw : s.tile.winLines a (a + bs.length) = [])
    (hf : ∀ f, f ∈ s.tile.feet → f.glob = false → f.hi ≤ a ∨ a + bs.length ≤ f.lo) :
    memPrep s s true (rangesOf [(a, bs)]) = .ok s :=
  memPrep_plain (lo := a) (hi := a + bs.length) (by omega) hslots hw hf

/-- Settles O23: a store's bytes and no others change; that of an instruction is performed once its checks have passed. -/
theorem storeFrame : Obligations.StoreFrame := by
  refine ⟨fun s a bs hs => ⟨fun h => ?_, fun h1 h2 => ?_⟩, fun s t i a bs hst hs hc hsp hct hb ha hslots hw hf ht => ?_⟩
  · rw [performStore_sp h]
    exact spStore_frame a bs hs
  · obtain ⟨hm, hu⟩ := performStore_slice (s := s) bs h1 h2
    obtain ⟨hin, hout⟩ := ovGet_put_frame s.tile.unpub (a - 0x400000) bs
    refine ⟨hm, fun k hk => ?_, fun b hb => ?_⟩
    · rw [hu, hin k hk]
    · rw [hu, hout b hb]
  · refine store_frame hs ?_ ha ht
    rcases hst with ⟨z, d, b, imm, hi, hae, hbe, hx⟩ | ⟨g, b, imm, hi, hae, hbe, hg, hx⟩ | ⟨h, b, hi, hae, hbe, hx⟩
    · subst hi
      have h0 : 0 < bs.length := by rw [hbe, leBytes_length]; cases z <;> decide
      have hreg : (regionOf a == .ctl) = false := by rw [regionOf_sp (by omega)]; rfl
      refine does_store rfl rfl hc hb hct (memPrep_store_plain h0 hslots hw hf) hsp ?_
      simp only [State.alone_pre, ← hae, hx, hreg, Bool.false_eq_true, if_false, hbe]
      rfl
    · subst hi
      obtain ⟨x, hg⟩ := Option.ne_none_iff_exists'.mp hg
      have h0 : 0 < bs.length := by rw [hbe, rowBytes_length _ _ (Nat.le_refl _)]; decide
      refine does_store rfl rfl hc hb hct (memPrep_store_plain h0 hslots hw hf) hsp ?_
      simp only [State.alone_pre, ← hae, hg, hx, hbe]
      rfl
    · subst hi
      have h0 : 0 < bs.length := by rw [hbe, leBytes_length]; decide
      refine does_store rfl rfl hc hb hct (memPrep_store_plain h0 hslots hw hf) hsp ?_
      simp only [State.alone_pre, ← hae, hx, hbe]
      rfl

/-! ## Plane moves -/

/-- Settles O24: the control word is one that the handle takes, and the words are stored or loaded. -/
theorem planeMoves : Obligations.PlaneMoves := by
  refine fun s u d a imm tag o => ⟨fun ht ho hl hs hc h => ?_, fun ho hd hc hl h => ?_⟩
  · refine does_of_run rfl h ((memSlot_run hl.1).trans ?_) rfl rfl
    simp only [State.alone_pre, ht, ho]
    rw [storeR_ok hl.2 hs hc]
    rfl
  · refine does_of_run rfl h ((memSlot_run hl.1).trans ?_) rfl rfl
    simp only [State.alone_pre, ho, hd]
    rw [loadR_ok hl.2 hc]
    rfl

/-! ## Handles and windows -/

/-- An image whose checks pass and whose data is there is read (R256, R261). -/
theorem withImage_ok {s u : State} {x : Nat} {k : State → Image → SlotR} (hx : accessCheck s.alone .spSlice 16 x 16 = none)
    (hm : memPrep s s false [(x, x + 16)] = .ok u) (hd : s.tile.dataThere [(x, x + 16)]) :
    withImage s.alone s x k = k (u.touch x (x + 16)) (BitVec.ofNat 128 ((u.touch x (x + 16)).coreNum x 16)) := by
  simp only [withImage, hx, hm]
  exact waitData_ready hd

/-- A window without a dirty line has nothing to write back (R261, R262). -/
theorem flushWindow_clean {s u : State} {n : MapNo} {k : Tile → Tile} (h : (s.tile.maps[n.val]).dirty = false) :
    flushWindow s.alone u n k = .ok (u.mapTile k) {} := by
  simp only [flushWindow, State.alone_pre, h, Bool.false_eq_true, if_false]
  rfl

/-- A window with dirty lines writes them back, counted in st (R248, R261, R262). -/
theorem flushWindow_dirty {s u v : State} {n : MapNo} {k : Tile → Tile} (h : (s.tile.maps[n.val]).dirty = true)
    (hc : s.tile.cst < 24) (hw : u.writeBacks (s.tile.linesOf n) = .ok v) :
    flushWindow s.alone u n k = .ok (v.mapTile fun t => k (t.countUntil .st (t.tc + 4))) {} := by
  simp only [flushWindow, State.alone_pre, h, if_true, ctrMax, Nat.not_le.mpr hc, if_false, flushLines, hw]
  rfl

/-- A memory slot that makes a resolution stall runs, where it is free (R248). -/
theorem memSlotR_run {s u : State} {reads : Tile → List Site} {run : Ctx → State → SlotR} (h : s.tile.busy ≤ s.tile.tc) :
    (memSlotR reads run).run s.alone u = run s.alone u :=
  memSlot_run (reads := reads) h

/-- A slot on an installed map entry runs (R262). -/
theorem mapSlot_run {s : State} {n : MapNo} {k : Ctx → State → MapEntry → SlotR} (hb : s.tile.busy ≤ s.tile.tc)
    (hv : (s.tile.maps[n.val]).valid = true) : (mapSlot n k).run s.alone s = k s.alone s s.tile.maps[n.val] := by
  refine (memSlotR_run hb).trans ?_
  simp only [State.alone_pre, hv, if_true]

theorem mapf_run {s : State} {n : MapNo} (hb : s.tile.busy ≤ s.tile.tc) (hv : (s.tile.maps[n.val]).valid = true) :
    (slotOf (.mapf n)).run s.alone s = flushWindow s.alone s n id :=
  mapSlot_run (k := fun c s _ => flushWindow c s n id) hb hv

theorem mapi_run {s : State} {n : MapNo} (hb : s.tile.busy ≤ s.tile.tc) (hv : (s.tile.maps[n.val]).valid = true) :
    (slotOf (.mapi n)).run s.alone s = flushWindow s.alone s n fun t => t.untouch n :=
  mapSlot_run (k := fun c s _ => flushWindow c s n fun t => t.untouch n) hb hv

/-- Settles O25: the image is there, the entry is installed, its window is clean or written back. -/
theorem handlesAndMaps : Obligations.HandlesAndMaps := by
  refine ⟨fun s u h n a hb => ⟨fun hx hm hd => ⟨fun ho hc => ?_, fun ho hcl hc => ?_⟩, fun hst hc => ?_,
      fun hv => ⟨fun hcl => ⟨fun hc => ?_, fun hc => ?_⟩, fun hc => ?_⟩⟩,
    fun s u w n a hb hdy hct => ⟨fun hv hw => ⟨fun hc => ?_, fun hc => ?_⟩, fun hx hm hd ho hw hc => ?_⟩⟩
  · refine does_of_run rfl hc ((memSlot_run hb).trans ((withImage_ok hx hm hd).trans ?_)) rfl rfl
    rcases ho with ho | ho
    · simp only [ho, Bool.false_and, Bool.false_eq_true, if_false]
      rfl
    · simp only [ho, Bool.not_true, Bool.and_false, Bool.false_eq_true, if_false]
      rfl
  · refine does_of_run rfl hc ((memSlotR_run hb).trans ((withImage_ok hx hm hd).trans ?_)) rfl rfl
    simp only [State.alone_pre, ho, Bool.not_true, Bool.false_eq_true, if_false]
    exact flushWindow_clean hcl
  · refine does_of_run rfl hc ((memSlot_run hb).trans ?_) rfl rfl
    simp only [State.alone_pre, hst, Bool.false_eq_true, if_false]
    rfl
  · exact does_of_run rfl hc ((mapf_run hb hv).trans (flushWindow_clean hcl)) rfl rfl
  · exact does_of_run rfl hc ((mapi_run hb hv).trans (flushWindow_clean hcl)) rfl rfl
  · exact does_of_run rfl hc (mapSlot_run (k := fun _ s _ => okR (s.mapTile fun t => t.untouch n)) hb hv) rfl rfl
  · exact does_of_run rfl hc ((mapf_run hb hv).trans (flushWindow_dirty hdy hct hw)) rfl rfl
  · exact does_of_run rfl hc ((mapi_run hb hv).trans (flushWindow_dirty hdy hct hw)) rfl rfl
  · refine does_of_run rfl hc ((memSlotR_run hb).trans ((withImage_ok hx hm hd).trans ?_)) rfl rfl
    simp only [State.alone_pre, ho, Bool.not_true, Bool.false_eq_true, if_false]
    exact flushWindow_dirty hdy hct hw

end Sys2Proof
end

