-- ==== Sys2Proof/Proofs/RingsAndAtomics.lean ====
section
/-! SUPPORT. The memory slot: BUFTAKE beside a slot that a PRED has predicted; atomics, WAITA, WAKE1 and WAKEA (R258, R265 to
R270). -/

namespace Sys2Proof

open Machine

/-! ## Buffers -/

/-- A declared ring of two slots, the slot at CIDX full, behind which a PRED has predicted the next one. -/
def predictedNext : State :=
  State.reset.mapTile fun t =>
    { t with
      rings := t.rings.set 0 { valid := true, nslot := 1, st := (Vector.replicate 16 .empty).set 0 .full }
      ahead := some (0, 1) }

theorem clear_predictedNext : Clear predictedNext (.buftake 0 1 2) := clear_of (by decide +kernel) (by decide +kernel) (by decide +kernel)

/-- The consumer index of ring 0 in an outcome's state. -/
def ringIndex (o : Host.Outcome State Fault Refusal) : Option (Fin 16) :=
  match o with
  | .next u => some (u.tile.rings[0]).cidx
  | .fault _ | .refused _ => none

/-- Refutes O26: where a PRED has predicted the slot behind the one that BUFTAKE takes, the index passes both (R148), so that
CIDX is not the next index but the one after it. -/
theorem not_buffers : ¬ Obligations.Buffers := fun h => by
  have hs := h predictedNext 0 0 0 1 2 0 0 (by decide +kernel) (by decide +kernel) rfl
  have hd := hs.2.1 (by decide +kernel) clear_predictedNext
  have hi := congrArg ringIndex hd
  revert hi
  decide +kernel

/-! ## Atomics -/

/-- A boundary that has nothing to wait for, on a state without a line to write back, is performed (R124). -/
theorem withBoundary_clean {s u : State} {m : Nat} {ph : Bool} {k : State → SlotR} (hp : s.tile.storesPending m = false)
    (hl : (s.tile.peerLost && m.testBit 3) = false) (hw : u.writeBacks (u.tile.linesFor m) = .ok u) :
    withBoundary s.alone u m ph k = k (u.bounded m ph) := by
  simp only [withBoundary, boundary, State.alone_pre, hp, hl, hw, State.bounded]
  rfl

/-- An ordering attribute's boundary, where it asks for one (R123). -/
theorem ordBoundary_clean {s u : State} {on : Bool} {m : StMask} {k : State → SlotR}
    (hp : on = true → s.tile.storesPending (classes m) = false ∧ (s.tile.peerLost && (classes m).testBit 3) = false)
    (hw : on = true → u.writeBacks (u.tile.linesFor (classes m)) = .ok u) :
    ordBoundary on s.alone u m k = k (if on then u.bounded (classes m) true else u) := by
  cases on with
  | false => rfl
  | true => exact withBoundary_clean (hp rfl).1 (hp rfl).2 (hw rfl)

/-- What an atomic leaves behind its access: the new value at its home, the old one in D (R265). -/
def Machine.State.atomicDone (u : State) (d : SReg) (h : Home) (n : Nat) (wide sgn : Bool) (new : Nat → Nat) : State :=
  let w := u.flushHome h
  let old := w.homeValue h n
  (w.putHome h (new old % 2 ^ (8 * n)) n).mapTile fun t => t.write (.sreg d) (atomOld wide sgn old)

/-- Whether an ordering has a boundary before its access, and after it (R123). -/
def Ord4.before (o : Ord4) : Bool := o == .rel || o == .ar

def Ord4.after (o : Ord4) : Bool := o == .acq || o == .ar

/-- An atomic whose checks pass, whose data is there and whose boundaries have nothing to wait for (R265 to R267). -/
theorem does_atomic {s u v : State} {i : Instr} {d a : SReg} {o : Ord4} {sc : Scope} {m : StMask} {wide sgn host : Bool}
    {rs : List SReg} {f : Ctx → Nat → Nat → Nat} {h h' : Home} (hx : exec i s = .next (issue1 s (slotOf i)))
    (hi : slotOf i = atomic d a o sc m wide sgn host rs f) (hc : Clear s i) (hb : s.tile.busy ≤ s.tile.tc)
    (he : s.tile.edge true (s.tile.sreg a).toNat ((s.tile.sreg a).toNat + atomBytes wide) = false)
    (he' : s.tile.edge false (s.tile.sreg a).toNat ((s.tile.sreg a).toNat + atomBytes wide) = false)
    (hd : s.tile.dataThere) (h1 : findHome s.alone s (s.tile.sreg a).toNat (atomBytes wide) host = .ok (h', v))
    (h2 : findHome s.alone (if o.before then s.bounded (classes m) true else s) (s.tile.sreg a).toNat (atomBytes wide) host
      = .ok (h, u))
    (h3 : u.homeError h (atomBytes wide) = none)
    (hp : o ≠ .rlx → s.tile.storesPending (classes m) = false ∧ (s.tile.peerLost && (classes m).testBit 3) = false)
    (hw : o.before = true → s.writeBacks (s.tile.linesFor (classes m)) = .ok s) :
    let done := u.atomicDone d h (atomBytes wide) wide sgn fun old =>
      f s.alone old ((s.tile.sreg d).toNat % 2 ^ (8 * atomBytes wide))
    (o.after = true → done.writeBacks (done.tile.linesFor (classes m)) = .ok done) →
      Does s i (if o.after then done.bounded (classes m) true else done) := by
  intro done hw'
  have hob : o.before = true → o ≠ .rlx := by rintro hb rfl; cases hb
  have hoa : o.after = true → o ≠ .rlx := by rintro hb rfl; cases hb
  refine does_of_run hx hc ?_ rfl rfl
  rw [hi]
  simp only [atomic]
  refine (memSlotR_run hb).trans ?_
  simp only [State.alone_pre, h1, he, he', Bool.or_self, Bool.false_eq_true, if_false]
  rw [waitData_ready hd]
  refine (ordBoundary_clean (on := o.before) (fun h => hp (hob h)) hw).trans ?_
  simp only [h2, h3]
  exact ordBoundary_clean (on := o.after) (fun h => hp (hoa h)) hw'

theorem Ord4.before_iff (o : Ord4) : o.before = true ↔ (o = .rel ∨ o = .ar) := by simp [Ord4.before]

theorem Ord4.after_iff (o : Ord4) : o.after = true ↔ (o = .acq ∨ o = .ar) := by simp [Ord4.after]

/-- The order of an atomic's operands, as numbers (R265). -/
theorem atomLess_iff (wide u : Bool) (x y : Nat) :
    atomLess wide u x y = true ↔ if u then x < y else sgnVal (8 * atomBytes wide) x < sgnVal (8 * atomBytes wide) y := by
  cases u <;> simp [atomLess]

/-! ## Waiting and waking -/

/-- WAITA ends with its predicate after its boundary (R269, R123). -/
theorem waitaDone_clean {s v : State} {p : PReg} {r : Bool} (hs : s.calm 2) (hv : v.calm 2) :
    waitaDone s.alone v p r = .ok ((v.bounded 2 true).mapTile fun t => t.write (.pred p) (boolWord r)) {} := by
  obtain ⟨hp, hl, -⟩ := hs
  exact withBoundary_clean hp hl hv.2.2

/-- A wake takes its entries from the table and wakes their waiters (R270). -/
theorem does_wake {s : State} {i : Instr} {a d : SReg} {all : Bool} (hx : exec i s = .next (issue1 s (slotOf i)))
    (hi : slotOf i = wakeSlot a d all) (h : Clear s i) (hb : s.tile.busy ≤ s.tile.tc) (hs : s.calm 2)
    (hm : monitorCheck s.alone (s.tile.sreg a).toNat 1 = none) :
    let u := s.bounded 2 true
    let hit := u.monitors.filter fun m => m.addr == (s.tile.sreg a).toNat
    let l := if all then hit else hit.take 1
    Does s i ((l.foldl State.wake (u.setMonitors (u.monitors.filter fun m => !l.contains m))).mapTile fun t =>
      t.write (.sreg d) (BitVec.ofNat 64 l.length)) := by
  refine does_of_run hx h ?_ rfl rfl
  rw [hi]
  simp only [wakeSlot]
  refine (memSlotR_run hb).trans ?_
  simp only [State.alone_pre, hm]
  rw [withBoundary_calm hs]
  rfl

/-- What WAITA does once its address has passed its checks and its load meets no edge (R269). -/
def Machine.State.waitaFrom (s : State) (a b : SReg) (p : PReg) (wide : Bool) : SlotR :=
  let x := (s.tile.sreg a).toNat
  if s.tile.woken then waitaDone s.alone s p true
  else if s.watches x then .wait s (.addr x)
  else
    let w := s.flushSliceLine (x - 0x400000)
    match w.homeError (.slice (x - 0x400000)) (atomBytes wide) with
    | some e => .trap e
    | none =>
      if w.homeValue (.slice (x - 0x400000)) (atomBytes wide) != (s.tile.sreg b).toNat % 2 ^ (8 * atomBytes wide) then
        waitaDone s.alone w p true
      else if monitorSize ≤ w.monitors.length then waitaDone s.alone w p false
      else
        match w.tile.task with
        | none => waitaDone s.alone w p false
        | some k => .wait (w.setMonitors (w.monitors ++ [⟨x, atomBytes wide, k.team, w.tile.id, k.no⟩])) (.addr x)

theorem waita_run {s : State} {a b : SReg} {p : PReg} {wide : Bool} (hb : s.tile.busy ≤ s.tile.tc)
    (hm : monitorCheck s.alone (s.tile.sreg a).toNat (atomBytes wide) = none)
    (he : s.tile.edge false (s.tile.sreg a).toNat ((s.tile.sreg a).toNat + atomBytes wide) = false) :
    (slotOf (.waita a b p wide)).run s.alone s = s.waitaFrom a b p wide := by
  change (if s.tile.tc < s.tile.busy then SlotR.stall s
    else
      match monitorCheck s.alone (s.tile.sreg a).toNat (atomBytes wide) with
      | some e => addrR e (s.tile.sreg a).toNat
      | none =>
        if s.tile.edge false (s.tile.sreg a).toNat ((s.tile.sreg a).toNat + atomBytes wide) then .stall s
        else s.waitaFrom a b p wide) = _
  rw [if_neg (Nat.not_lt.mpr hb), hm, he]
  rfl

/-- A task that a wake has reached goes on (R269). -/
theorem waitaFrom_woken {s : State} {a b : SReg} {p : PReg} {wide : Bool} (h : s.tile.woken = true) :
    s.waitaFrom a b p wide = waitaDone s.alone s p true := if_pos h

/-- One that finds another value at the bank goes on (R269). -/
theorem waitaFrom_differs {s : State} {a b : SReg} {p : PReg} {wide : Bool} {x : Nat} (hx : x = (s.tile.sreg a).toNat)
    (h : s.tile.woken = false) (hw : s.watches x = false)
    (he : (s.flushSliceLine (x - 0x400000)).homeError (.slice (x - 0x400000)) (atomBytes wide) = none)
    (hv : (s.flushSliceLine (x - 0x400000)).homeValue (.slice (x - 0x400000)) (atomBytes wide)
      ≠ (s.tile.sreg b).toNat % 2 ^ (8 * atomBytes wide)) :
    s.waitaFrom a b p wide = waitaDone s.alone (s.flushSliceLine (x - 0x400000)) p true := by
  subst hx
  unfold State.waitaFrom
  simp only [h, hw, Bool.false_eq_true, if_false, he, bne_iff_ne.mpr hv, if_true]

/-- One that finds the value while the monitor table is full goes on too (R269). -/
theorem waitaFrom_full {s : State} {a b : SReg} {p : PReg} {wide : Bool} {x : Nat} (hx : x = (s.tile.sreg a).toNat)
    (h : s.tile.woken = false) (hw : s.watches x = false)
    (he : (s.flushSliceLine (x - 0x400000)).homeError (.slice (x - 0x400000)) (atomBytes wide) = none)
    (hv : (s.flushSliceLine (x - 0x400000)).homeValue (.slice (x - 0x400000)) (atomBytes wide)
      = (s.tile.sreg b).toNat % 2 ^ (8 * atomBytes wide)) (h8 : 8 ≤ s.monitors.length) :
    s.waitaFrom a b p wide = waitaDone s.alone (s.flushSliceLine (x - 0x400000)) p false := by
  subst hx
  unfold State.waitaFrom
  have hn : ((s.flushSliceLine ((s.tile.sreg a).toNat - 0x400000)).homeValue (.slice ((s.tile.sreg a).toNat - 0x400000))
      (atomBytes wide) != (s.tile.sreg b).toNat % 2 ^ (8 * atomBytes wide)) = false := bne_eq_false_iff_eq.mpr hv
  have h8' : monitorSize ≤ (s.flushSliceLine ((s.tile.sreg a).toNat - 0x400000)).monitors.length := h8
  simp only [h, hw, Bool.false_eq_true, if_false, he, hn, h8', if_true]

/-- Settles O27: each atomic is the one of its function; a waiter's predicate and a wake's count follow their boundaries. -/
theorem atomics : Obligations.Atomics := by
  refine ⟨fun s u v d a o sc m wide u' h h' => ?_, fun s a b d p wide => ?_⟩
  · intro n x c mask before after w old less cleans does hb he he' hd
    have hdoes : ∀ (i : Instr) (host sgn : Bool) (rs : List SReg) (f : Ctx → Nat → Nat → Nat) (new : Nat),
        exec i s = .next (issue1 s (slotOf i)) → slotOf i = atomic d a o sc m wide sgn host rs f →
        f s.alone old c = new → does i host sgn new := by
      intro i host sgn rs f new hx hi hf h1 h2 h3 hp hw hw' hc
      have hbe : ∀ x y : State, (if before then x else y) = if o.before then x else y := fun x y => by
        simp only [Ord4.before_iff]; rfl
      have hae : ∀ x y : State, (if after then x else y) = if o.after then x else y := fun x y => by
        simp only [Ord4.after_iff]; rfl
      subst hf
      rw [hbe] at h2
      rw [hae]
      exact does_atomic hx hi hc hb he he' hd h1 h2 h3 hp (fun ho => hw ((Ord4.before_iff o).mp ho))
        fun ho => hw' ((Ord4.after_iff o).mp ho)
    refine ⟨hdoes _ _ _ _ (fun _ old v => old + v) _ rfl rfl rfl, hdoes _ _ _ _ (fun _ old v => old &&& v) _ rfl rfl rfl,
      hdoes _ _ _ _ (fun _ old v => old ||| v) _ rfl rfl rfl,
      hdoes _ _ _ _ (fun _ old v => if atomLess wide u' v old then v else old) _ rfl rfl ?_,
      hdoes _ _ _ _ (fun _ old v => if atomLess wide u' old v then v else old) _ rfl rfl ?_,
      hdoes _ _ _ _ (fun _ _ v => v) _ rfl rfl rfl,
      hdoes _ _ _ _ (fun c old v => if old = v then (c.pre.sreg (d + 1)).toNat else old) _ rfl rfl rfl,
      hdoes _ _ _ _ (fun _ old _ => if 0 < sgnVal (8 * atomBytes wide) old then old - 1 else old) _ rfl rfl rfl⟩
    · simp only [atomLess_iff]; rfl
    · simp only [atomLess_iff]; rfl
  · intro n x w differs ends u hit wakes hb hs
    refine ⟨fun hm he => ⟨fun hwk hc => ?_, fun hwk hwt hwc hhe => ⟨fun hdf hc => ?_, fun hdf h8 hc => ?_⟩⟩,
      fun hm => ⟨fun hc => does_wake (all := false) rfl rfl hc hb hs hm, fun hc => does_wake (all := true) rfl rfl hc hb hs hm⟩⟩
    · exact does_of_run rfl hc ((waita_run hb hm he).trans ((waitaFrom_woken hwk).trans (waitaDone_clean hs hs))) rfl rfl
    · exact does_of_run rfl hc ((waita_run hb hm he).trans
        ((waitaFrom_differs rfl hwk hwt hhe hdf).trans (waitaDone_clean hs hwc))) rfl rfl
    · exact does_of_run rfl hc ((waita_run hb hm he).trans
        ((waitaFrom_full rfl hwk hwt hhe (Classical.not_not.mp hdf) h8).trans (waitaDone_clean hs hwc))) rfl rfl

end Sys2Proof
end

