-- ==== Sys2Proof/Proofs/ResetAndWords.lean ====
section
/-! SUPPORT. The state after a reset, and words written out from the encoding tables. -/

namespace Sys2Proof

open Machine

/-- The tiles that a reset leaves are reset tiles. -/
theorem tileAt_reset (cl : ClusterNo) (tn : TileNo) : State.reset.tileAt ⟨cl, tn⟩ = Tile.reset cl tn := by
  unfold State.tileAt
  split
  · next h =>
    cases h
    rfl
  · rfl

/-- Settles O58: each field holds the value its structure gives it at a reset. -/
theorem resetState : Obligations.ResetState := by
  unfold Obligations.ResetState
  intro cl tn
  refine ⟨rfl, fun _ => rfl, rfl, tileAt_reset cl tn, fun r => ?_, rfl, fun p hp => ?_, rfl, fun r c => ?_, fun r => ?_,
    fun h => ?_, fun n => ?_, fun r => ?_, rfl, rfl⟩
  · simp [Tile.sreg, Tile.reset]
  · have h0 : (0 : Nat) ≠ p.val := fun h => hp (Fin.ext h.symm)
    simp [Tile.pred, Tile.reset, hp, h0]
  · simp [Tile.reset, Tile.cell, Row.zero]
  · simp [Tile.reset]
  · have hh : ((Tile.reset cl tn).handles[h.val]) = {} := by simp [Tile.reset]
    rw [hh]
    exact ⟨by decide, by decide⟩
  · have hn : ((Tile.reset cl tn).maps[n.val]) = {} := by simp [Tile.reset]
    rw [hn]
    decide
  · simp [Tile.reset]

/-- A computation that answers a value ends well with it. -/
theorem eq_ok_of_toOption {ε α : Type} {x : Except ε α} {a : α} (h : x.toOption = some a) : x = .ok a := by
  cases x with
  | error e => cases h
  | ok b => exact congrArg _ (Option.some.inj h)

/-- Settles O52, by evaluation of the decoder on the words written out. -/
theorem decodeWords : Obligations.DecodeWords := by
  unfold Obligations.DecodeWords
  refine ⟨?_, ?_, ?_, ?_, ?_, ?_, ?_, ?_, ?_, eq_ok_of_toOption ?_, eq_ok_of_toOption ?_⟩
  all_goals decide +kernel
end Sys2Proof

end

