-- ==== Sys2Proof/Proofs/EveryStep.lean ====
section
/-! SUPPORT. Every step of the opcode table answers a next state, and what the machine does on its own is such steps. -/

namespace Sys2Proof

open Machine

/-- An outcome that is a next state. -/
def Answers (o : Out) : Prop := ∃ t, o = .next t

theorem answers_next (t : State) : Answers (.next t) := ⟨t, rfl⟩

/-- Two ways to go on that both answer. -/
theorem answers_ite {c : Prop} [Decidable c] {a b : Out} (ha : Answers a) (hb : Answers b) : Answers (if c then a else b) := by
  split
  · exact ha
  · exact hb

/-! The steps of the table that branch before they answer. -/

theorem answers_blockStart (s : State) : Answers (exec .blockStart s) := by
  change Answers (execBlockStart s)
  unfold execBlockStart
  split <;> exact answers_next _

theorem answers_spontaneousWriteback (n : MapNo) (l : Fin 8192) (s : State) : Answers (exec (.spontaneousWriteback n l) s) :=
  answers_ite (answers_next _) (answers_next _)

theorem answers_putcArrive (s : State) : Answers (exec .putcArrive s) := by
  change Answers (execPutcArrive s)
  unfold execPutcArrive
  split <;> exact answers_next _

theorem answers_circuitRowArrive (s : State) : Answers (exec .circuitRowArrive s) := by
  change Answers (execCircuitRowArrive s)
  unfold execCircuitRowArrive
  split <;> exact answers_next _

theorem answers_nakResend (s : State) : Answers (exec .nakResend s) := by
  change Answers (execNakResend s)
  unfold execNakResend
  split
  · exact answers_next _
  · split
    · exact answers_next _
    · split <;> exact answers_next _

theorem answers_specCommit (s : State) : Answers (exec .specCommit s) := by
  change Answers (execSpecCommit s)
  refine answers_ite (answers_next _) ?_
  split
  · exact answers_next _
  · split
    · exact answers_next _
    · exact answers_ite (answers_next _) (answers_next _)

theorem answers_specSquash (s : State) : Answers (exec .specSquash s) := by
  change Answers (execSpecSquash s)
  unfold execSpecSquash
  split
  · exact answers_next _
  · exact answers_ite (answers_next _) (answers_next _)

theorem answers_timingReplay (s : State) : Answers (exec .timingReplay s) := by
  change Answers (execTimingReplay s)
  unfold execTimingReplay
  split <;> exact answers_next _

theorem answers_loaderStorerFault (g : LsAgent) (s : State) : Answers (exec (.loaderStorerFault g) s) := by
  change Answers (execLoaderStorerFault g s)
  unfold execLoaderStorerFault
  split
  · exact answers_next _
  · exact answers_ite (answers_next _) (answers_ite (answers_next _) (answers_next _))

theorem answers_watchdog (s : State) : Answers (exec .watchdog s) := by
  change Answers (execWatchdog s)
  refine answers_ite ?_ (answers_next _)
  split <;> exact answers_next _

theorem answers_poolTaskStart (s : State) : Answers (exec .poolTaskStart s) := by
  change Answers (execPoolTaskStart s)
  unfold execPoolTaskStart
  split <;> exact answers_next _

theorem answers_apertureWrite (c : ClusterNo) (t : TileNo) (off : Fin 4194304) (v : Word) (s : State) :
    Answers (exec (.apertureWrite c t off v) s) :=
  answers_ite (answers_next _) (answers_next _)

/-- Every arm of the dispatch answers. -/
theorem answers_exec (i : Instr) (s : State) : Answers (exec i s) := by
  cases i with
  | blockStart => exact answers_blockStart s
  | spontaneousWriteback n l => exact answers_spontaneousWriteback n l s
  | putcArrive => exact answers_putcArrive s
  | circuitRowArrive => exact answers_circuitRowArrive s
  | nakResend => exact answers_nakResend s
  | specCommit => exact answers_specCommit s
  | specSquash => exact answers_specSquash s
  | timingReplay => exact answers_timingReplay s
  | loaderStorerFault g => exact answers_loaderStorerFault g s
  | watchdog => exact answers_watchdog s
  | poolTaskStart => exact answers_poolTaskStart s
  | apertureWrite c t o v => exact answers_apertureWrite c t o v s
  | _ => exact answers_next _

/-! ## What the machine does on its own -/

/-- A choice whose outcome, where it makes one, is that of a step of the table. -/
def FromTable (s : State) (x : Option Out) : Prop := ∀ o, x = some o → ∃ i, o = exec i s

theorem fromTable_none (s : State) : FromTable s none := fun o h => absurd h.symm (Option.some_ne_none o)

theorem fromTable_exec (i : Instr) (s : State) : FromTable s (some (exec i s)) := by
  intro o h
  exact ⟨i, (Option.some.inj h).symm⟩

theorem fromTable_due {s : State} (b : Bool) (i : Instr) : FromTable s (due b fun _ => exec i s) := by
  unfold due
  split
  · exact fromTable_exec i s
  · exact fromTable_none s

theorem fromTable_dueFor {α : Type} {s : State} (l : List α) (p : α → Bool) (f : α → Instr) :
    FromTable s (dueFor l p fun x => exec (f x) s) := by
  unfold dueFor
  split
  · exact fromTable_exec _ s
  · exact fromTable_none s

theorem fromTable_ite {c : Prop} [Decidable c] {s : State} {a b : Option Out} (ha : FromTable s a) (hb : FromTable s b) :
    FromTable s (if c then a else b) := by
  split
  · exact ha
  · exact hb

theorem fromTable_map {α : Type} {s : State} (x : Option α) (f : α → Instr) :
    FromTable s (x.map fun y => exec (f y) s) := by
  cases x with
  | none => exact fromTable_none s
  | some y => exact fromTable_exec _ s

theorem fromTable_findSome {α : Type} {s : State} (l : List α) (f : α → Option Out) (h : ∀ x, FromTable s (f x)) :
    FromTable s (l.findSome? f) := by
  intro o ho
  obtain ⟨x, -, hx⟩ := List.exists_of_findSome?_eq_some ho
  exact h x o hx

/-- A first choice and the others behind it. -/
theorem fromTable_first {s : State} (f : Unit → Option Out) (l : List (Unit → Option Out)) (hf : FromTable s (f ()))
    (hl : FromTable s (firstOut l)) : FromTable s (firstOut (f :: l)) := by
  intro o ho
  rw [firstOut] at ho
  split at ho
  · next h => exact hf o (h.trans ho)
  · exact hl o ho

/-- A last choice. -/
theorem fromTable_last {s : State} (f : Unit → Option Out) (hf : FromTable s (f ())) : FromTable s (firstOut [f]) :=
  fromTable_first f [] hf (fromTable_none s)

theorem fromTable_landings (s : State) : FromTable s (landings s) := by
  unfold landings
  refine fromTable_first _ _ (fromTable_due _ .resultLand) (fromTable_first _ _ (fromTable_dueFor _ _ .drainEntryArrive) ?_)
  refine fromTable_first _ _ (fromTable_dueFor _ _ .remoteRowLand) (fromTable_first _ _ (fromTable_due _ .operationComplete) ?_)
  exact fromTable_last _ (fromTable_due _ .windowFillReturn)

theorem fromTable_specSteps (s : State) : FromTable s (specSteps s) := by
  unfold specSteps
  refine fromTable_first _ _ (fromTable_dueFor _ _ .historyCopyComplete) ?_
  refine fromTable_first _ _ (fromTable_due _ .shadowWriteComplete) ?_
  refine fromTable_first _ _ (fromTable_due _ .toleranceCompare) ?_
  exact fromTable_first _ _ (fromTable_due _ .specSquash) (fromTable_last _ (fromTable_due _ .specCommit))

theorem fromTable_tileSteps (s : State) : FromTable s (tileSteps s) := by
  unfold tileSteps
  refine fromTable_ite (fromTable_none s) ?_
  refine fromTable_first _ _ (fromTable_landings s) (fromTable_first _ _ (fromTable_specSteps s) ?_)
  refine fromTable_first _ _ ?_ (fromTable_last _ ?_)
  · unfold copySteps
    exact fromTable_first _ _ (fromTable_dueFor _ _ .copyJobComplete) (fromTable_last _ (fromTable_dueFor _ _ .copyJobFire))
  · unfold limits
    exact fromTable_first _ _ (fromTable_due _ .watchdog) (fromTable_last _ (fromTable_due _ .waitSwap))

theorem fromTable_trafficSteps (s : State) : FromTable s (trafficSteps s) := by
  unfold trafficSteps
  refine fromTable_first _ _ ?_ (fromTable_first _ _ (fromTable_due _ .putcArrive) ?_)
  · split
    · exact fromTable_exec (.semWaitServed _ _) s
    · exact fromTable_none s
  refine fromTable_first _ _ (fromTable_due _ .circuitRowArrive) (fromTable_first _ _ (fromTable_due _ .nakResend) ?_)
  refine fromTable_first _ _ (fromTable_dueFor _ _ fun (c : Coll) => .collectiveAbort c.gid false) (fromTable_last _ ?_)
  split
  · exact fromTable_exec (.gredChunkLand _ _) s
  · exact fromTable_none s

theorem fromTable_teamSteps (s : State) : FromTable s (teamSteps s) := by
  unfold teamSteps
  exact fromTable_first _ _ (fromTable_dueFor _ _ fun (k : Team) => .swapTriggerSatisfied k.id)
    (fromTable_last _ (fromTable_dueFor _ _ .courseRelease))

theorem fromTable_nodeStep (s : State) (r : Rec) (k : Fin 4096) : FromTable s (s.nodeStep r k) := by
  refine fromTable_ite (fromTable_exec (.nodeComplete r.id k) s) (fromTable_ite (fromTable_exec (.loopEvaluate r.id k) s) ?_)
  refine fromTable_ite ?_ (fromTable_none s)
  split
  · exact fromTable_exec (.condEvaluate r.id k) s
  · exact fromTable_exec (.nodeStart r.id k) s

theorem fromTable_recStep (s : State) (r : Rec) : FromTable s (s.recStep r) := by
  unfold State.recStep
  split
  · exact fromTable_exec (.recordComplete r.id) s
  · exact fromTable_ite (fromTable_exec (.recordStart r.fn r.q) s) (fromTable_none s)
  · exact fromTable_findSome _ _ fun k => fromTable_nodeStep s r _

theorem fromTable_tearEnd (s : State) (t : Teardown) : FromTable s (s.tearEnd t) := by
  refine fromTable_ite (fromTable_none s) (fromTable_ite (fromTable_exec (.queueReset t.fn t.q t.abort) s) ?_)
  exact fromTable_ite (fromTable_exec (.queueAbort t.fn t.q) s) (fromTable_exec (.queueTeardown t.fn t.q) s)

theorem fromTable_slotStep (s : State) (d : DieNo) : FromTable s (s.slotStep d) := by
  unfold State.slotStep
  split
  · exact fromTable_none s
  · exact fromTable_ite (fromTable_exec (.bindTeam d _) s)
      (fromTable_ite (fromTable_exec (.bindReturn d _) s) (fromTable_none s))

theorem fromTable_launchSteps (s : State) : FromTable s (launchSteps s) := by
  unfold launchSteps
  refine fromTable_first _ _ (fromTable_findSome _ _ (fromTable_recStep s)) ?_
  refine fromTable_first _ _ (fromTable_findSome _ _ (fromTable_tearEnd s)) ?_
  exact fromTable_last _ (fromTable_findSome _ _ (fromTable_slotStep s))

theorem fromTable_windowSteps (s : State) : FromTable s (windowSteps s) := by
  unfold windowSteps
  refine fromTable_first _ _ (fromTable_dueFor _ _ .tlbInvalidationComplete) ?_
  refine fromTable_first _ _ (fromTable_dueFor _ _ .haltComplete) ?_
  exact fromTable_first _ _ (fromTable_dueFor _ _ .partitionApply) (fromTable_last _ (fromTable_due _ .attestationComplete))

/-- The steps of one cluster's clock and power. -/
theorem fromTable_clockStep (s : State) (c : ClusterNo) : FromTable s (s.clockStep c) := by
  have hnone := fromTable_none s
  have hwake : FromTable s (some (execRouterWake c s)) := fromTable_exec (.routerWake c) s
  unfold State.clockStep
  dsimp only
  split
  · split
    · exact fromTable_ite (fromTable_exec (.frequencyHop c _) s) hnone
    · exact hnone
  · refine fromTable_ite (fromTable_ite hnone (fromTable_exec (.calibrationPreempt c) s)) ?_
    exact fromTable_ite hnone (fromTable_exec (.calibration c) s)
  · exact fromTable_ite (fromTable_exec (.retentionWake c false) s) (fromTable_ite hwake hnone)
  · exact fromTable_ite hwake hnone
  all_goals
    refine fromTable_ite hwake (fromTable_ite (fromTable_exec (.frequencyHop c _) s) ?_)
    exact fromTable_ite (fromTable_exec (.hopRetry c) s) (fromTable_ite (fromTable_exec (.replayRateRaise c) s) hnone)

theorem fromTable_clusterStep (s : State) (c : ClusterNo) : FromTable s (s.clusterStep c) := by
  unfold State.clusterStep
  split
  · next o h => exact h ▸ fromTable_clockStep s c
  · exact fromTable_ite (fromTable_exec (.driftDecay c) s) (fromTable_none s)

theorem fromTable_kilnSteps (s : State) : FromTable s (kilnSteps s) := by
  unfold kilnSteps
  refine fromTable_first _ _ (fromTable_due _ .powerUpGrant) ?_
  refine fromTable_first _ _ (fromTable_findSome _ _ (fromTable_clusterStep s)) (fromTable_first _ _ ?_ ?_)
  · exact fromTable_findSome _ _ fun c => fromTable_ite (fromTable_none s) (fromTable_map _ fun t => .spareTileTakeover c t)
  · exact fromTable_first _ _ (fromTable_due _ .powerThrottle) (fromTable_last _ (fromTable_due _ .powerRestore))

/-- What the machine does on its own is a step of the table. -/
theorem internal_eq_exec {s : State} {o : Out} (h : internal s = some o) : ∃ i, o = exec i s := by
  unfold internal at h
  refine fromTable_first _ _ (fromTable_tileSteps s) (fromTable_first _ _ (fromTable_trafficSteps s) ?_) o h
  refine fromTable_first _ _ (fromTable_teamSteps s) (fromTable_first _ _ (fromTable_launchSteps s) ?_)
  exact fromTable_first _ _ (fromTable_windowSteps s) (fromTable_last _ (fromTable_kilnSteps s))

/-! ## Turns -/

theorem answers_coreFetch (s : State) : Answers (coreFetch s) := by
  unfold coreFetch
  refine answers_ite (answers_exec _ s) ?_
  split
  · exact answers_next _
  · refine answers_ite (answers_next _) ?_
    split
    · exact answers_exec _ s
    · exact answers_next _

theorem answers_idleTurn (s : State) : Answers (idleTurn s) := by
  refine answers_ite (answers_exec _ _) ?_
  split
  · exact answers_exec _ _
  · exact answers_next _

theorem answers_coreTurn (s : State) : Answers (coreTurn s) := by
  unfold coreTurn
  split
  · exact answers_next _
  · exact answers_ite (answers_next _)
      (answers_ite (answers_idleTurn s) (answers_ite (answers_coreFetch _) (answers_coreFetch s)))

theorem answers_agentTurn (s : State) : Answers (agentTurn s) := by
  refine answers_ite (answers_next _) ?_
  split
  · exact answers_coreTurn s
  · exact answers_exec _ s
  · exact answers_exec _ s

theorem answers_turnStep (s : State) : Answers (turnStep s) := by
  obtain ⟨t, ht⟩ := answers_agentTurn s
  unfold turnStep
  rw [ht]
  exact answers_next _

theorem answers_settled (s : State) {o : Out} (h : Answers o) : Answers (settled s o) := by
  obtain ⟨t, rfl⟩ := h
  exact answers_next _

theorem answers_goAhead (s : State) : Answers (goAhead s) := by
  unfold goAhead
  split
  · next o h =>
    obtain ⟨i, rfl⟩ := internal_eq_exec h
    exact answers_settled s (answers_exec i s)
  · exact answers_turnStep s

/-- A machine with power always goes on. -/
theorem answers_step_powered {s : State} (h : s.powered = true) : Answers (step s) := by
  unfold step oneStep
  simp only [h, Bool.not_true, Bool.false_eq_true, if_false]
  split
  · exact answers_next _
  · split
    · exact answers_goAhead _
    · exact answers_ite (answers_settled s (answers_exec _ _)) (answers_next _)
  · exact answers_goAhead s

/-- One without power takes what is to come, one item after another. -/
theorem answers_darkStep {s : State} (h : s.agenda ≠ []) : Answers (darkStep s) := by
  unfold darkStep
  split
  · next hnil => exact absurd hnil h
  · exact answers_exec _ _
  · exact answers_next _

theorem step_dark {s : State} (h : s.powered = false) : step s = darkStep s := by
  unfold step oneStep
  rw [h]
  rfl

/-- Settles O56. -/
theorem total : Obligations.Total := by
  unfold Obligations.Total
  refine fun i s => ⟨answers_exec i s, fun h => ?_, fun hdark hnil => ?_⟩
  · by_cases hp : s.powered = true
    · exact answers_step_powered hp
    · rw [step_dark (Bool.eq_false_iff.mpr hp)]
      exact answers_darkStep (h.resolve_left hp)
  · rw [step_dark hdark, darkStep, hnil]

end Sys2Proof

end

