-- ==== Sys2Proof/Proofs/StepAlone.lean ====
section
/-! SUPPORT. A step of the opcode table that stands at the head of the agenda, where its router notes the flit (R438). -/

namespace Sys2Proof

open Machine

/-- A powered module, a unit of time after its reset, with the clearing of cluster 0's telemetry to come. -/
noncomputable def clearingAhead : State := { State.reset with powered := true, time := 1, agenda := [.telemetryClear 0] }

/-- When the router of cluster 0 passed its last flit, as an outcome leaves it. -/
def flitOf (o : Out) : Option Nat :=
  match o with
  | .next t => some (t.clusters[0]).flitAt
  | .fault _ | .refused _ => none

/-- The state that an outcome goes on in. -/
def stateOf (s : State) (o : Out) : State :=
  match o with
  | .next t => t
  | .fault _ | .refused _ => s

theorem flit_of_step : flitOf (step clearingAhead) = some 1 := by decide +kernel

theorem flit_of_exec : flitOf (.next (afterEvent clearingAhead
    (stateOf clearingAhead (exec (.telemetryClear 0) { clearingAhead with agenda := [] })))) = some 0 := by decide +kernel

theorem clearingAhead_lets (c : ClusterNo) (h : (Instr.telemetryClear 0).target = some c) :
    (clearingAhead.clusters[c.val]).lets = true := by
  cases h
  decide +kernel

/-- Refutes O54: an input that a cluster lets in passes its router, which notes the time of the flit before the step is
executed. In clearingAhead the step leaves 1 there, the instruction executed on the agenda's rest alone 0. -/
theorem not_stepRunsDecoded : ¬ Obligations.StepRunsDecoded := by
  unfold Obligations.StepRunsDecoded
  intro h
  obtain ⟨-, -, hhead⟩ := h clearingAhead
    (stateOf clearingAhead (exec (.telemetryClear 0) { clearingAhead with agenda := [] })) rfl rfl
  have hstep := hhead (.telemetryClear 0) [] rfl rfl clearingAhead_lets rfl
  have hflit := flit_of_step
  rw [hstep, flit_of_exec] at hflit
  exact absurd hflit (by decide)

end Sys2Proof

end

