-- ==== Sys2Proof/Proofs/TrapEntry.lean ====
section
/-! SUPPORT. Taking an exception (R396): what it records, and where the task goes on. -/

namespace Sys2Proof

open Machine

/-! ## The record of a cause -/

theorem Machine.Cause.code_lt (c : Cause) : c.code < 64 := by cases c <;> decide

/-- The fields of TRAPST (R393). -/
theorem trapst_fields (i : TrapInfo) (ha : i.agent < 4) (hs : i.slot < 8) :
    fld i.trapst.toNat 58 6 = i.cause.code ∧ fld i.trapst.toNat 56 2 = i.agent ∧ fld i.trapst.toNat 55 1 = i.sub.toNat
    ∧ fld i.trapst.toNat 54 1 = i.deferred.toNat ∧ fld i.trapst.toNat 51 3 = i.slot ∧ fld i.trapst.toNat 0 51 = 0 := by
  have hc := i.cause.code_lt
  have hsub := Bool.toNat_lt i.sub
  have hdef := Bool.toNat_lt i.deferred
  simp only [TrapInfo.trapst, fld, BitVec.toNat_ofNat]
  refine ⟨?_, ?_, ?_, ?_, ?_, ?_⟩ <;> omega

/-! ## What counting and leaving the queues leave -/

/-- Counting a cause changes the clusters alone. -/
theorem tally_beside (s : State) (c : Cause) : s.tally c = { s with clusters := (s.tally c).clusters } := by
  unfold State.tally
  split <;> rfl

/-- Counting a cause and leaving the queues of semaphores and monitors change the clusters alone. -/
theorem unqueued_beside (s : State) (c : Cause) :
    (s.tally c).leaveQueue = { s with clusters := (s.tally c).leaveQueue.clusters } := by
  rw [tally_beside]
  rfl

/-- The state once a cause has been counted and recorded and its task has left the queues. -/
def Machine.State.seeing (s : State) (i : TrapInfo) : State :=
  ((s.tally i.cause).leaveQueue).mapTile fun t => (t.settle).record i

theorem seeing_mem (s : State) (i : TrapInfo) : (s.seeing i).mem = s.mem := by
  rw [State.seeing, unqueued_beside]
  rfl

theorem seeing_tile (s : State) (i : TrapInfo) : (s.seeing i).tile = s.tile.settle.record i := by
  rw [State.seeing, unqueued_beside]
  rfl

theorem seeing_fdWord (s : State) (i : TrapInfo) (n : Nat) : (s.seeing i).fdWord n = s.fdWord n := by
  rw [State.seeing, State.fdWord_record, unqueued_beside]
  have hh := fun r => holder_congr (s := s) (u := { s with clusters := (s.tally i.cause).leaveQueue.clusters }) rfl 5 treeDepth r
  simp only [State.fdWord, State.fdEntry, State.team, State.findTeam, faultDomain, rcbWord, hh]
  rfl

/-- The parts of seeing, as the statement writes them: counted, out of the home cluster's queue, unwatched, recorded. -/
theorem seeing_eq (s : State) (i : TrapInfo) :
    s.seeing i = (({ s.tally i.cause with
      clusters := ((s.tally i.cause).clusters.set s.homeCl.val
          (((s.tally i.cause).clusters[s.homeCl.val]).leave s.tile.id)).map fun (c : Cluster) =>
        { c with monitors := c.monitors.filter fun m => !(s.tile.task.any fun x => x.no == m.task) } } : State).mapTile fun t =>
      { t.settle with trapst := i.trapst, trapval := i.val }) := by
  rw [State.seeing, tally_beside]
  rfl

/-! ## The three ways on -/

/-- The record of a double fault, which a cause inside a handler becomes (R400). -/
def doubled (i : TrapInfo) : TrapInfo :=
  { i with cause := .doubleFault, val := BitVec.ofNat 64 i.cause.code, sub := false, deferred := false }

/-- Taking an exception by the state that has recorded it. -/
theorem deliver_seeing (s : State) (i : TrapInfo) (resume : Nat) :
    s.deliver i resume =
      (if i.cause.silent then s.seeing i
      else if (s.seeing i).tile.priv && i.cause.handled then
        ((s.seeing i).mapTile fun t => t.record (doubled i)).endByFault (doubled i)
      else if i.cause.handled && (s.seeing i).fdWord 0 != 0 && fld ((s.seeing i).fdWord 1) i.cause.code 1 == 1 then
        (s.seeing i).mapTile fun t =>
          { t with
            tepc := BitVec.ofNat 64 resume, priv := true, pc := (s.seeing i).fdWord 0 + 16
            tc := t.tc + 3 + s.tile.reissue.toNat, stretch := t.stretch + 2 }
      else (s.seeing i).endByFault i) := rfl

/-- A cause that may enter a handler is raised to software and ends no team. -/
theorem handled_spares (c : Cause) (h : c.handled = true) : c.silent = false ∧ c.endsTeam = false := by
  revert h
  cases c <;> decide

/-- The end by a fault leaves memory, and of the focus tile all but how its task ends. -/
theorem endByFault_focus (s : State) (i : TrapInfo) :
    (s.endByFault i).mem = s.mem
    ∧ (s.endByFault i).tile = { s.tile with ending := some (.fault (i.bundle.getD s.tile.pc) (some i) i.cause.endsTeam) } := by
  unfold State.endByFault
  split
  · next hteam =>
    rw [hteam]
    split
    · exact ⟨rfl, rfl⟩
    · refine ⟨rfl, ?_⟩
      simp [State.mapTiles, State.setTeam, State.mapTile]
  · next hteam =>
    rw [Bool.eq_false_iff.mpr hteam]
    exact ⟨rfl, rfl⟩

/-- Settles O55: deliver_seeing, and seeing_eq for what every exception records, case by case of the cause. -/
theorem trapEntry : Obligations.TrapEntry := by
  unfold Obligations.TrapEntry
  intro s i resume
  dsimp only
  rw [← seeing_eq]
  have htile := seeing_tile s i
  have hword := seeing_fdWord s i
  have hpriv : (s.seeing i).tile.priv = s.tile.priv := by rw [htile]; rfl
  refine ⟨trapst_fields i, ?_, fun hsil => ?_, fun hh hp henter => ?_, fun hh hp hnone => ?_, fun hh hp => ?_, fun hh hs => ?_⟩
  · rfl
  · rw [deliver_seeing, if_pos hsil]
  · obtain ⟨hsil, -⟩ := handled_spares _ hh
    rw [deliver_seeing, if_neg (Bool.not_eq_true _ ▸ hsil), if_neg (by simp [hpriv, hp]), if_pos (by simp [hword, hh, henter])]
    simp only [State.mapTile, htile, hword, Tile.record_tc, Tile.settle_tc]
    cases s.tile.reissue <;> rfl
  · obtain ⟨hsil, hteam⟩ := handled_spares _ hh
    have hout : ¬(i.cause.handled && (s.seeing i).fdWord 0 != 0 && fld ((s.seeing i).fdWord 1) i.cause.code 1 == 1) = true := by
      simpa [hword, hh] using hnone
    rw [deliver_seeing, if_neg (Bool.not_eq_true _ ▸ hsil), if_neg (by simp [hpriv, hp]), if_neg hout, State.endByFault,
      if_neg (Bool.not_eq_true _ ▸ hteam)]
  · obtain ⟨hsil, -⟩ := handled_spares _ hh
    rw [deliver_seeing, if_neg (Bool.not_eq_true _ ▸ hsil), if_pos (by simp [hpriv, hp, hh])]
    obtain ⟨hmem, hfocus⟩ := endByFault_focus ((s.seeing i).mapTile fun t => t.record (doubled i)) (doubled i)
    rw [hmem, hfocus]
    simp only [State.mapTile, htile]
    exact ⟨seeing_mem s i, rfl, rfl, rfl, fun ha hs => (trapst_fields (doubled i) ha hs).1, doubled i, rfl, rfl⟩
  · obtain ⟨hmem, hfocus⟩ := endByFault_focus (s.seeing i) i
    rw [deliver_seeing, if_neg (Bool.not_eq_true _ ▸ hs), if_neg (by simp [hh]), if_neg (by simp [hh]), hmem, hfocus, htile]
    exact ⟨seeing_mem s i, rfl⟩

end Sys2Proof

end

