-- ==== Sys2Proof/Proofs/WordFields.lean ====
section
/-! SUPPORT. Words that are written as fields at their places, and what reading a field of such a word gives (R190). -/

namespace Sys2Proof

/-! ## How many bits a field needs -/

/-- A number that n bits hold. -/
def Below (v n : Nat) : Prop := v < 2 ^ n

/-- Fields that lie below bit hi, from the highest to the lowest, each within its place. -/
def Tidy : List (Nat × Nat) → Nat → Prop
  | [], _ => True
  | (v, lo) :: l, hi => lo ≤ hi ∧ Below v (hi - lo) ∧ Tidy l lo

@[simp] theorem tidy_nil (hi : Nat) : Tidy [] hi := trivial

@[simp] theorem tidy_cons (v lo hi : Nat) (l : List (Nat × Nat)) :
    Tidy ((v, lo) :: l) hi ↔ lo ≤ hi ∧ Below v (hi - lo) ∧ Tidy l lo := by
  rw [Tidy]

theorem Tidy.below {l : List (Nat × Nat)} {hi : Nat} (h : Tidy l hi) : Below (bits l) hi := by
  induction l generalizing hi with
  | nil => exact Nat.two_pow_pos hi
  | cons p l ih =>
    obtain ⟨hle, hv, hl⟩ := h
    have hstep : (p.1 + 1) * 2 ^ p.2 ≤ 2 ^ (hi - p.2) * 2 ^ p.2 := Nat.mul_le_mul_right _ hv
    rw [← Nat.pow_add, Nat.sub_add_cancel hle, Nat.add_mul, Nat.one_mul] at hstep
    have hlow : bits l < 2 ^ p.2 := ih hl
    change p.1 * 2 ^ p.2 + bits l < 2 ^ hi
    omega

@[simp] theorem below_fin {m : Nat} (x : Fin m) {n : Nat} (h : m ≤ 2 ^ n) : Below x.val n := Nat.lt_of_lt_of_le x.isLt h

@[simp] theorem below_zero (n : Nat) : Below 0 n := Nat.two_pow_pos n

@[simp] theorem below_one {n : Nat} (h : 0 < n) : Below 1 n := Nat.one_lt_two_pow (Nat.ne_of_gt h)

@[simp] theorem below_of_le {v m n : Nat} (h : Below v m) (hle : m ≤ n) : Below v n :=
  Nat.lt_of_lt_of_le h (Nat.pow_le_pow_right (by decide) hle)

@[simp] theorem below_two {n : Nat} (h : 1 < n) : Below 2 n := below_of_le (show 2 < 2 ^ 2 by decide) h

@[simp] theorem below_three {n : Nat} (h : 1 < n) : Below 3 n := below_of_le (show 3 < 2 ^ 2 by decide) h

@[simp] theorem below_four {n : Nat} (h : 2 < n) : Below 4 n := below_of_le (show 4 < 2 ^ 3 by decide) h

@[simp] theorem below_sixteen {n : Nat} (h : 4 < n) : Below 16 n := below_of_le (show 16 < 2 ^ 5 by decide) h

@[simp] theorem below_toNat (b : Bool) {n : Nat} (h : 0 < n) : Below b.toNat n := 
  Nat.lt_of_lt_of_le b.toNat_lt (Nat.le_self_pow (Nat.ne_of_gt h) 2)

@[simp] theorem below_mod (v : Nat) {m n : Nat} (hpos : 0 < m) (h : m ≤ 2 ^ n) : Below (v % m) n :=
  Nat.lt_of_lt_of_le (Nat.mod_lt v hpos) h

/-- The HI bit of a grid index. -/
@[simp] theorem below_high (x : Fin 64) {n : Nat} (h : 0 < n) : Below (x.val / 32) n :=
  below_of_le (show x.val / 32 < 2 ^ 1 by omega) h

/-! ## Reading a field of a word -/

/-- A field that lies above the one that is read does not show in it. -/
@[simp] theorem fld_bits_above (v lo : Nat) (l : List (Nat × Nat)) (a n : Nat) (h : a + n ≤ lo) :
    fld (bits ((v, lo) :: l)) a n = fld (bits l) a n := by
  obtain ⟨k, rfl⟩ := Nat.exists_eq_add_of_le h
  have hplace : v * 2 ^ (a + n + k) = 2 ^ a * (2 ^ n * (v * 2 ^ k)) := by
    rw [Nat.pow_add, Nat.pow_add]
    ac_rfl
  simp only [bits, fld, hplace, Nat.mul_add_div (Nat.two_pow_pos a), Nat.mul_add_mod]

/-- A field that is read where it was put. -/
@[simp] theorem fld_bits_at (v lo : Nat) (l : List (Nat × Nat)) (n : Nat) (hrest : Tidy l lo) (hv : Below v n) :
    fld (bits ((v, lo) :: l)) lo n = v := by
  rw [bits, fld, Nat.mul_comm, Nat.mul_add_div (Nat.two_pow_pos lo), Nat.div_eq_of_lt hrest.below, Nat.add_zero,
    Nat.mod_eq_of_lt hv]

/-- Nothing is read above a word. -/
@[simp] theorem fld_bits_over {l : List (Nat × Nat)} {a : Nat} (n : Nat) (h : Tidy l a) : fld (bits l) a n = 0 := by
  rw [fld, Nat.div_eq_of_lt h.below, Nat.zero_mod]

/-- The opcode of a slot word (R190). -/
theorem fld_opcode (c op : Nat) (l : List (Nat × Nat)) (h : Tidy l 22) (hop : op < 64) :
    fld (bits ((c, 28) :: (op, 22) :: l)) 22 6 = op := by
  rw [fld_bits_above _ _ _ _ _ (by decide), fld_bits_at op 22 l 6 h hop]

/-- Two fields behind class and opcode, written from the higher to the lower. -/
@[simp] theorem bits_sort (p q : Nat × Nat) (u v a b : Nat) (l : List (Nat × Nat)) (_ : a < b) :
    bits (p :: q :: (u, a) :: (v, b) :: l) = bits (p :: q :: (v, b) :: (u, a) :: l) := by
  simp only [bits]
  omega

/-- Two fields behind a first one, written from the higher to the lower. -/
@[simp] theorem bits_sort_behind (p q r : Nat × Nat) (u v a b : Nat) (l : List (Nat × Nat)) (_ : a < b) :
    bits (p :: q :: r :: (u, a) :: (v, b) :: l) = bits (p :: q :: r :: (v, b) :: (u, a) :: l) := by
  simp only [bits]
  omega

/-- The opcode of a matrix slot's word (R196). -/
theorem fld_beat (op : Nat) (l : List (Nat × Nat)) (h : Tidy l 24) (hop : op < 16) :
    fld (bits ((5, 28) :: (op, 24) :: l)) 24 4 = op := by
  rw [fld_bits_above _ _ _ _ _ (by decide), fld_bits_at op 24 l 4 h hop]

/-- The class of a slot word (R174). -/
theorem clsOf_bits (c : Nat) (l : List (Nat × Nat)) (h : Tidy l 28) (hc : c < 8) : clsOf (bits ((c, 28) :: l)) = c :=
  fld_bits_at c 28 l 3 h hc

/-! ## The operands that fields name -/

@[simp] theorem sregAt_eq (w lo : Nat) : sregAt w lo = Fin.ofNat 32 (fld w lo 5) := by
  apply Fin.ext
  simp [sregAt, finAt, fld]

@[simp] theorem pregAt_eq (w lo : Nat) : pregAt w lo = Fin.ofNat 16 (fld w lo 4) := by
  apply Fin.ext
  simp [pregAt, finAt, fld]

/-- A field of n bits names one of 2 ^ n things. -/
theorem finAt_eq (m n w lo : Nat) [NeZero m] (h : m = 2 ^ n) : finAt m w lo = Fin.ofNat m (fld w lo n) := by
  subst h
  apply Fin.ext
  simp [finAt, fld]

/-- A grid operand from its seven bits and its HI bit (R184). -/
def gridOf (hi v : Nat) : GridOp := ⟨dirOf (v / 32 % 4), Fin.ofNat 64 (32 * hi + v % 32)⟩

theorem gridIdx_eq (h : SlotHdr) (w lo b : Nat) : gridIdx h w lo b = Fin.ofNat 64 (32 * fld h.hi b 1 + fld w lo 5) := rfl

@[simp] theorem gridAt_eq (h : SlotHdr) (w lo b : Nat) : gridAt h w lo b = gridOf (fld h.hi b 1) (fld w lo 7) := by
  have hdir : fld w (lo + 5) 2 = fld w lo 7 / 32 % 4 := by
    simp only [fld, Nat.pow_add, ← Nat.div_div_eq_div_mul]
    omega
  have hidx : fld w lo 5 = fld w lo 7 % 32 := by
    simp only [fld]
    omega
  rw [gridAt, gridIdx_eq, gridOf, hdir, hidx]

@[simp] theorem below_gridField (g : GridOp) {n : Nat} (h : 7 ≤ n) : Below (gridField g) n := by
  have hd : g.dir.code < 4 := by cases g.dir <;> decide
  have h7 : gridField g < 2 ^ 7 := by
    rw [gridField]
    omega
  exact below_of_le h7 h

/-- A grid operand's bits name it. -/
@[simp] theorem gridOf_gridField (g : GridOp) : gridOf (g.idx.val / 32) (gridField g) = g := by
  obtain ⟨dir, x⟩ := g
  have hx := x.isLt
  have hidx : Fin.ofNat 64 (32 * (x.val / 32) + (32 * dir.code + x.val % 32) % 32) = x := by
    apply Fin.ext
    simp only [Fin.ofNat]
    omega
  have hdir : dirOf ((32 * dir.code + x.val % 32) / 32 % 4) = dir := by
    have hc : (32 * dir.code + x.val % 32) / 32 = dir.code := by omega
    rw [hc]
    cases dir <;> rfl
  simp only [gridOf, gridField, hidx, hdir]

/-- The index of a grid row of its own, from its five bits and its HI bit. -/
theorem ofNat_high_low (x : Fin 64) : Fin.ofNat 64 (32 * (x.val / 32) + x.val % 32) = x := by
  rw [Nat.div_add_mod]
  exact Fin.ofNat_val_eq_self x

theorem hiBit_eq (h : SlotHdr) (b : Nat) : hiBit h b = fld h.hi b 1 := rfl

/-- A flag read back. -/
theorem toNat_beq_one (b : Bool) : (b.toNat == 1) = b := by cases b <;> rfl

/-! ## Codes and what they stand for -/

@[simp] theorem scopeOf_code (x : Scope) : scopeOf x.code = some x := by cases x <;> rfl
@[simp] theorem ordOf_code (x : Ord4) : ordOf x.code = some x := by cases x <;> rfl
@[simp] theorem intCCOf_code (x : IntCC) : intCCOf x.code = some x := by cases x <;> rfl
@[simp] theorem fpCCOf_code (x : FpCC) : fpCCOf x.code = some x := by cases x <;> rfl
@[simp] theorem sizeOf_code (x : Size) : sizeOf x.code = some x := by cases x <;> rfl
@[simp] theorem redOf_code (x : RedOp) : redOf x.code = some x := by cases x <;> rfl
@[simp] theorem mxOf_code (x : MxFmt) : mxOf x.code = some x := by cases x <;> rfl
@[simp] theorem drainOf_code (x : DrainFmt) : drainOf x.code = some x := by cases x <;> rfl

@[simp] theorem below_codeScope (x : Scope) {n : Nat} (h : 3 ≤ n) : Below x.code n :=
  below_of_le (show x.code < 2 ^ 3 by cases x <;> decide) h
@[simp] theorem below_codeOrd4 (x : Ord4) {n : Nat} (h : 2 ≤ n) : Below x.code n :=
  below_of_le (show x.code < 2 ^ 2 by cases x <;> decide) h
@[simp] theorem below_codeIntCC (x : IntCC) {n : Nat} (h : 3 ≤ n) : Below x.code n :=
  below_of_le (show x.code < 2 ^ 3 by cases x <;> decide) h
@[simp] theorem below_codeFpCC (x : FpCC) {n : Nat} (h : 3 ≤ n) : Below x.code n :=
  below_of_le (show x.code < 2 ^ 3 by cases x <;> decide) h
@[simp] theorem below_codeSize (x : Size) {n : Nat} (h : 2 ≤ n) : Below x.code n :=
  below_of_le (show x.code < 2 ^ 2 by cases x <;> decide) h
@[simp] theorem below_codeRedOp (x : RedOp) {n : Nat} (h : 3 ≤ n) : Below x.code n :=
  below_of_le (show x.code < 2 ^ 3 by cases x <;> decide) h
@[simp] theorem below_codeMxFmt (x : MxFmt) {n : Nat} (h : 2 ≤ n) : Below x.code n :=
  below_of_le (show x.code < 2 ^ 2 by cases x <;> decide) h
@[simp] theorem below_codeDrainFmt (x : DrainFmt) {n : Nat} (h : 4 ≤ n) : Below x.code n :=
  below_of_le (show x.code < 2 ^ 4 by cases x <;> decide) h

/-! ## Powers of two as integers -/

theorem two_pow_cast (n : Nat) : (2 : Int) ^ n = ((2 ^ n : Nat) : Int) := (Int.natCast_pow 2 n).symm

theorem two_pow_pos_int (n : Nat) : (0 : Int) < 2 ^ n := Int.pow_pos (by decide)

theorem two_pow_succ_int (n : Nat) : (2 : Int) ^ (n + 1) = 2 * 2 ^ n := (Int.pow_succ 2 n).trans (Int.mul_comm _ _)

theorem two_pow_add_int (n k : Nat) : (2 : Int) ^ (n + k) = 2 ^ n * 2 ^ k := Int.pow_add 2 n k

theorem toNat_two_pow (n : Nat) : ((2 : Int) ^ n).toNat = 2 ^ n := by rw [two_pow_cast, Int.toNat_natCast]

/-- Two digits, each below its base, make a number below the product of the bases. -/
theorem digits_lt {a b l r : Int} (ha : 0 < a) (hl : l < a) (hr : r < b) : r * a + l < a * b :=
  calc
    r * a + l < r * a + a := Int.add_lt_add_left hl _
    _ = (r + 1) * a := by rw [Int.add_mul, Int.one_mul]
    _ ≤ b * a := Int.mul_le_mul_of_nonneg_right hr (Int.le_of_lt ha)
    _ = a * b := Int.mul_comm b a

/-- Three digits, the lowest first and the highest first. -/
theorem digits_swap (a b l r q : Int) : l + a * (r + b * q) = r * a + l + a * b * q := by
  rw [Int.mul_add, Int.mul_assoc, Int.mul_comm r a]
  omega

/-! ## Immediates -/

@[simp] theorem below_immField (n : Nat) (i : Int) {k : Nat} (h : n ≤ k) : Below (immField n i) k := by
  refine below_of_le (m := n) ?_ h
  have hlt := Int.emod_lt_of_pos i (two_pow_pos_int n)
  have h0 := Int.emod_nonneg i (Int.ne_of_gt (two_pow_pos_int n))
  rw [Below, immField, Int.toNat_lt h0, ← two_pow_cast]
  exact hlt

/-- A number that n bits hold, read back from them as a signed number. -/
theorem sextNat_emod (n : Nat) (hn : 0 < n) (i : Int) (hlo : -(2 ^ (n - 1)) ≤ i) (hhi : i < 2 ^ (n - 1)) :
    sextNat (i % 2 ^ n).toNat n = i := by
  obtain ⟨m, rfl⟩ : ∃ m, n = m + 1 := ⟨n - 1, by omega⟩
  simp only [Nat.add_sub_cancel] at hlo hhi
  have hpow := two_pow_succ_int m
  have hpos := two_pow_pos_int m
  have h0 := Int.emod_nonneg i (Int.ne_of_gt (two_pow_pos_int (m + 1)))
  have hiff : (i % 2 ^ (m + 1)).toNat < 2 ^ m ↔ i % 2 ^ (m + 1) < 2 ^ m := by
    rw [Int.toNat_lt h0, ← two_pow_cast]
  unfold sextNat
  simp only [Nat.add_sub_cancel, hiff, Int.toNat_of_nonneg h0]
  by_cases hneg : 0 ≤ i
  · rw [Int.emod_eq_of_lt hneg (by omega), if_pos hhi]
  · have hmod : i % 2 ^ (m + 1) = i + 2 ^ (m + 1) := by
      rw [← Int.add_emod_right, Int.emod_eq_of_lt (by omega) (by omega)]
    rw [hmod, if_neg (by omega)]
    omega

/-- The EXT field above the IMM field. -/
theorem emod_split (i : Int) (n k : Nat) :
    ((i / 2 ^ n % 2 ^ k).toNat * 2 ^ n + immField n i : Nat) = (i % 2 ^ (n + k)).toNat := by
  have hn := two_pow_pos_int n
  have hk := two_pow_pos_int k
  have hlow := Int.emod_nonneg i (Int.ne_of_gt hn)
  have hhigh := Int.emod_nonneg (i / 2 ^ n) (Int.ne_of_gt hk)
  have hplace := Int.mul_nonneg hhigh (Int.le_of_lt hn)
  have hbound : i / 2 ^ n % 2 ^ k * 2 ^ n + i % 2 ^ n < 2 ^ (n + k) := by
    rw [two_pow_add_int]
    exact digits_lt hn (Int.emod_lt_of_pos i hn) (Int.emod_lt_of_pos (i / 2 ^ n) hk)
  have hwhole : i = i / 2 ^ n % 2 ^ k * 2 ^ n + i % 2 ^ n + 2 ^ (n + k) * (i / 2 ^ n / 2 ^ k) := by
    calc i = i % 2 ^ n + 2 ^ n * (i / 2 ^ n) := (Int.emod_add_mul_ediv i _).symm
      _ = i % 2 ^ n + 2 ^ n * (i / 2 ^ n % 2 ^ k + 2 ^ k * (i / 2 ^ n / 2 ^ k)) := by
        rw [Int.emod_add_mul_ediv (i / 2 ^ n) (2 ^ k)]
      _ = _ := by rw [two_pow_add_int, digits_swap]
  have hsplit : i % 2 ^ (n + k) = i / 2 ^ n % 2 ^ k * 2 ^ n + i % 2 ^ n := by
    conv => lhs; rw [hwhole]
    rw [Int.add_mul_emod_self_left, Int.emod_eq_of_lt (Int.add_nonneg hplace hlow) hbound]
  rw [hsplit, immField, Int.toNat_add hplace hlow, Int.toNat_mul hhigh (Int.le_of_lt hn), toNat_two_pow]

/-- A signed immediate from its EXT field and its n-bit IMM field (R181). -/
def signedOf (ext : Option Nat) (n v : Nat) : Int :=
  match ext with
  | some e => sextNat (e * 2 ^ n + v) (n + 27)
  | none => sextNat v n

/-- An unsigned immediate from its EXT field and its n-bit IMM field (R181). -/
def unsignedOf (ext : Option Nat) (n v : Nat) : Nat :=
  match ext with
  | some e => e * 2 ^ n + v
  | none => v

/-- The immediate of CMPI from its EXT field and its n-bit IMM field (R220). -/
def comparedOf (cc : IntCC) (ext : Option Nat) (n v : Nat) : Int :=
  match cc with
  | .ltu | .geu => (unsignedOf ext n v : Nat)
  | .eq | .ne | .lt | .ge => signedOf ext n v

@[simp] theorem immS_eq (h : SlotHdr) (w n : Nat) : immS h w n = signedOf h.ext n (fld w 0 n) := by
  obtain ⟨_ | _, hi⟩ := h <;> rfl

@[simp] theorem immU_eq (h : SlotHdr) (w n : Nat) : immU h w n = unsignedOf h.ext n (fld w 0 n) := by
  obtain ⟨_ | _, hi⟩ := h <;> rfl

@[simp] theorem immC_eq (cc : IntCC) (h : SlotHdr) (w n : Nat) : immC cc h w n = comparedOf cc h.ext n (fld w 0 n) := by
  cases cc <;> simp [immC, comparedOf]

/-- A signed immediate that its field and EXT hold is what is read from them (R181). -/
theorem signedOf_encode (n : Nat) (i : Int) (hn : 0 < n) (hok : immSOk n i = true) :
    signedOf (immExtS n i) n (immField n i) = i := by
  simp only [immSOk, Bool.and_eq_true, decide_eq_true_eq] at hok
  obtain ⟨hlo, hhi⟩ := hok
  unfold immExtS
  split
  · next hin => simp only [signedOf, immField, sextNat_emod n hn i hin.1 hin.2]
  · simp only [signedOf, emod_split]
    exact sextNat_emod (n + 27) (by omega) i hlo hhi

/-- No bit set, no EXT: the immediate 0. -/
theorem signedOf_zero (n : Nat) : signedOf none n 0 = 0 := by simp [signedOf, sextNat]

/-- An unsigned immediate that its field and EXT hold is what is read from them (R181). -/
theorem unsignedOf_encode (n i m : Nat) (hm : m = 2 ^ n) (hok : immUOk n i = true) :
    unsignedOf (immExtU n i) n (i % m) = i := by
  subst hm
  simp only [immUOk, decide_eq_true_eq] at hok
  unfold immExtU
  split
  · next hin => simp only [unsignedOf, Nat.mod_eq_of_lt hin]
  · have hdiv : i / 2 ^ n < 2 ^ 27 := Nat.div_lt_of_lt_mul (by rwa [← Nat.pow_add])
    simp only [unsignedOf, Nat.mod_eq_of_lt hdiv, Nat.mul_comm _ (2 ^ n), Nat.div_add_mod]

/-- The immediate of CMPI is what is read from its field and EXT (R220). -/
theorem comparedOf_encode (cc : IntCC) (n : Nat) (i : Int) (hn : 0 < n) (hok : immCOk cc n i = true) :
    comparedOf cc (immExtC cc n i) n (immField n i) = i := by
  have unsigned (hs : (decide (0 ≤ i) && immUOk n i.toNat) = true) :
      ((unsignedOf (immExtU n i.toNat) n (immField n i) : Nat) : Int) = i := by
    simp only [Bool.and_eq_true, decide_eq_true_eq] at hs
    obtain ⟨h0, hu⟩ := hs
    have hfield : immField n i = i.toNat % 2 ^ n := by
      rw [immField, Int.toNat_emod h0 (Int.le_of_lt (two_pow_pos_int n)), toNat_two_pow]
    rw [hfield, unsignedOf_encode n i.toNat _ rfl hu, Int.toNat_of_nonneg h0]
  cases cc with
  | eq => exact signedOf_encode n i hn hok
  | ne => exact signedOf_encode n i hn hok
  | lt => exact signedOf_encode n i hn hok
  | ge => exact signedOf_encode n i hn hok
  | ltu => exact unsigned hok
  | geu => exact unsigned hok

end Sys2Proof

end

