-- ==== Sys2Proof/Proofs/DecodeEncode.lean ====
section
/-! SUPPORT. The slot words that encode gives decode, class by class (R190-R197). -/

namespace Sys2Proof

/-- Two pairs that an encoder's answer equates. -/
theorem some_pair_inj {α β : Type} {a c : α} {b d : β} (h : some (a, b) = some (c, d)) : a = c ∧ b = d := by
  simpa using h

/-- An immediate beside a grid field is one (R181). -/
theorem immGridOk_imm {x : Fin 64} {i : Int} (h : immGridOk x i = true) : immSOk 10 i = true :=
  (Bool.and_eq_true_iff.mp h).1

/-- The control slot (R192). -/
theorem decodeControl_encode {h : SlotHdr} {w : Nat} {i : Instr} (he : encodeControl i = some (h, w)) (hw : i.wf = true) :
    decodeControl h w = some i := by
  cases i
  all_goals try exact absurd he.symm (Option.some_ne_none _)
  all_goals
    change some (_, _) = some (h, w) at he
    obtain ⟨rfl, rfl⟩ := some_pair_inj he
    clear he
  case' lsetFeed => rw [bits_sort_behind _ _ _ _ _ _ _ _ (by decide)]
  case' lsetRrb | lsetStg => rw [bits_sort _ _ _ _ _ _ _ (by decide)]
  all_goals
    rw [decodeControl, fld_opcode _ _ _ (by simp only [tidy_nil, tidy_cons, below_fin, below_one, below_two, below_three,
      below_codeScope, below_immField, below_mod, and_self, Nat.reducePow, Nat.reduceLeDiff, Nat.reduceSub,
      Nat.reduceLT]) (by decide)]
    simp only [tidy_nil, tidy_cons, below_fin, below_one, below_two, below_three, below_codeScope, below_immField, below_mod,
      fld_bits_above, fld_bits_at, fld_bits_over, sregAt_eq, pregAt_eq, immS_eq, immU_eq, finAt_eq 32 5, finAt_eq 64 6,
      finAt_eq 256 8, finAt_eq 4096 12, scopeOf_code, Option.bind_some, Fin.ofNat_val_eq_self, and_self, beq_self_eq_true,
      if_true, Nat.reducePow, Nat.reduceLeDiff, Nat.reduceSub, Nat.reduceAdd, Nat.reduceBEq, Bool.false_eq_true, if_false,
      Bool.true_and, Bool.and_true, Nat.reduceLT]
  case jmpiB | retb => simp only [signedOf_zero, beq_self_eq_true, if_true]
  case semw k cnt a | sems k cnt a =>
    have hok : (a == 0 || cnt == 0) = true := hw
    exact if_pos (by simpa using hok)
  case semt k cnt d =>
    have hok : (cnt != 0) = true := hw
    exact if_pos (by simpa using hok)
  case lsetRrb | lsetStg => rw [unsignedOf_encode 13 _ 8192 rfl hw]
  case trap => rw [unsignedOf_encode 22 _ 4194304 rfl hw]
  all_goals rw [signedOf_encode 13 _ (by decide) hw]

/-- The scalar slot (R193). -/
theorem decodeScalar_encode {h : SlotHdr} {w : Nat} {i : Instr} (he : encodeScalar i = some (h, w)) (hw : i.wf = true) :
    decodeScalar h w = some i := by
  cases i
  all_goals try exact absurd he.symm (Option.some_ne_none _)
  all_goals
    change some (_, _) = some (h, w) at he
    obtain ⟨rfl, rfl⟩ := some_pair_inj he
    clear he
  all_goals
    rw [decodeScalar, fld_opcode _ _ _ (by simp only [tidy_nil, tidy_cons, below_fin, below_codeIntCC, below_immField,
      below_mod, and_self, Nat.reducePow, Nat.reduceLeDiff, Nat.reduceSub, Nat.reduceLT]) (by decide)]
    simp only [tidy_nil, tidy_cons, below_fin, below_codeIntCC, below_immField, below_mod, fld_bits_above, fld_bits_at,
      fld_bits_over, sregAt_eq, pregAt_eq, immS_eq, immU_eq, immC_eq, finAt_eq 8 3, finAt_eq 16 4, intCCOf_code,
      Option.bind_some, Fin.ofNat_val_eq_self, and_self, beq_self_eq_true, if_true, Nat.reducePow, Nat.reduceLeDiff,
      Nat.reduceSub, Nat.reduceAdd, Nat.reduceLT]
  case addi | andi => rw [signedOf_encode 12 _ (by decide) hw]
  case ori | xori => rw [unsignedOf_encode 12 _ 4096 rfl hw]
  case shli d a imm | shri d a imm | sari d a imm =>
    have hlt : imm < 64 := of_decide_eq_true hw
    rw [unsignedOf_encode 12 imm 4096 rfl (decide_eq_true (Nat.lt_trans hlt (by decide))), if_pos (decide_eq_true hlt)]
  case cmpi cc p a imm => rw [comparedOf_encode cc 10 imm (by decide) hw]
  case li => rw [signedOf_encode 17 _ (by decide) hw]


/-- The vector slot (R194). -/
theorem decodeVector_encode {h : SlotHdr} {w : Nat} {i : Instr} (he : encodeVector i = some (h, w)) (hw : i.wf = true) :
    decodeVector h w = some i := by
  cases i
  all_goals try exact absurd he.symm (Option.some_ne_none _)
  all_goals
    change some (_, _) = some (h, w) at he
    obtain ⟨rfl, rfl⟩ := some_pair_inj he
    clear he
  case' vred => rw [bits_sort _ _ _ _ _ _ _ (by decide), bits_sort_behind _ _ _ _ _ _ _ _ (by decide)]
  all_goals
    rw [decodeVector, fld_opcode _ _ _ (by simp only [tidy_nil, tidy_cons, below_fin, below_gridField, below_toNat,
      below_codeIntCC, below_codeFpCC, below_codeMxFmt, below_codeRedOp, and_self, Nat.reducePow, Nat.reduceLeDiff,
      Nat.reduceSub, Nat.reduceLT, Nat.lt_add_one]) (by decide)]
    simp only [tidy_nil, tidy_cons, below_fin, below_gridField, below_toNat, below_high, below_codeIntCC, below_codeFpCC,
      below_codeMxFmt, below_codeRedOp, fld_bits_above, fld_bits_at, fld_bits_over, hiBit_eq, sregAt_eq, pregAt_eq,
      gridAt_eq, gridOf_gridField, finAt_eq 8 3, finAt_eq 16 4, finAt_eq 32 5, finAt_eq 64 6, toNat_beq_one, intCCOf_code,
      fpCCOf_code, mxOf_code, redOf_code, Option.bind_some, Fin.ofNat_val_eq_self, and_self, beq_self_eq_true, if_true,
      Nat.reducePow, Nat.reduceLeDiff, Nat.reduceSub, Nat.reduceAdd, Bool.true_and, Bool.and_true, Nat.reduceLT,
      Nat.lt_add_one]
  case cvt => exact if_pos hw
  case scsel d a fuse e b f =>
    refine if_pos ?_
    cases fuse with
    | true => rfl
    | false =>
      have hok : (a == ⟨.h, 0⟩ && !b) = true := hw
      obtain ⟨rfl, rfl⟩ : a = ⟨.h, 0⟩ ∧ b = false := by simpa using hok
      rfl
  case tag d a t | vbcst d a t =>
    have hne : t.val ≠ 12 := fun h => bne_iff_ne.mp hw (Fin.ext h)
    exact if_pos (by simpa using hne)
  case spk | spx => exact if_pos hw

/-- The memory slot (R195). -/
theorem decodeMemory_encode {h : SlotHdr} {w : Nat} {i : Instr} (he : encodeMemory i = some (h, w)) (hw : i.wf = true) :
    decodeMemory h w = some i := by
  cases i
  all_goals try exact absurd he.symm (Option.some_ne_none _)
  all_goals
    change some (_, _) = some (h, w) at he
    obtain ⟨rfl, rfl⟩ := some_pair_inj he
    clear he
  case' lds | sts | bufacq | buftake => rw [bits_sort _ _ _ _ _ _ _ (by decide), bits_sort_behind _ _ _ _ _ _ _ _ (by decide)]
  case' hset | hget | bufpub | buffree | bufq | mapw | qst | qstHalf => rw [bits_sort _ _ _ _ _ _ _ (by decide)]
  all_goals
    rw [decodeMemory, fld_opcode _ _ _ (by simp only [tidy_nil, tidy_cons, below_fin, below_sixteen, below_gridField,
      below_toNat, below_mod, below_immField, below_codeSize, below_codeOrd4, below_codeScope, and_self, Nat.reducePow,
      Nat.reduceLeDiff, Nat.reduceSub, Nat.reduceLT, Nat.lt_add_one]) (by decide)]
    simp only [tidy_nil, tidy_cons, below_fin, below_sixteen, below_gridField, below_toNat, below_high, below_mod,
      below_immField, below_codeSize, below_codeOrd4, below_codeScope, fld_bits_above, fld_bits_at, fld_bits_over, sregAt_eq,
      pregAt_eq, gridAt_eq, gridIdx_eq, gridOf_gridField, ofNat_high_low, finAt_eq 8 3, finAt_eq 16 4, finAt_eq 32 5,
      toNat_beq_one, immS_eq, sizeOf_code, ordOf_code, scopeOf_code, Option.bind_some, Fin.ofNat_val_eq_self, and_self,
      beq_self_eq_true, if_true, Nat.reducePow, Nat.reduceLeDiff, Nat.reduceSub, Nat.reduceAdd, Nat.reduceBEq,
      Bool.false_eq_true, if_false, Bool.true_and, Bool.and_true, Nat.reduceLT, Nat.lt_add_one]
  case bufpub n a k | buffree n a k =>
    have hok : (a == 0 || k == 0) = true := hw
    exact if_pos (by simpa using hok)
  case acas d a o sc m wide =>
    have hne : d.val ≠ 31 := fun h => bne_iff_ne.mp hw (Fin.ext h)
    exact if_pos (by simpa using hne)
  case lds | sts => rw [signedOf_encode 10 _ (by decide) hw]
  case ldv | stv | ldtt | stbp | ldbp => rw [signedOf_encode 10 _ (by decide) (immGridOk_imm hw)]

/-- The matrix slot (R196). -/
theorem decodeMatrix_encode {h : SlotHdr} {w : Nat} {i : Instr} (he : encodeMatrix i = some (h, w)) (hw : i.wf = true) :
    decodeMatrix h w = some i := by
  cases i
  all_goals try exact absurd he.symm (Option.some_ne_none _)
  all_goals
    change some (_, _) = some (h, w) at he
    obtain ⟨rfl, rfl⟩ := some_pair_inj he
    clear he
  all_goals
    rw [decodeMatrix, fld_beat _ _ (by simp only [tidy_nil, tidy_cons, below_fin, below_one, below_gridField, below_toNat,
      below_codeDrainFmt, below_codeMxFmt, and_self, Nat.reducePow, Nat.reduceLeDiff, Nat.reduceSub,
      Nat.lt_add_one]) (by decide)]
    simp only [tidy_nil, tidy_cons, below_fin, below_one, below_gridField, below_toNat, below_high, below_codeDrainFmt,
      below_codeMxFmt, fld_bits_above, fld_bits_at, fld_bits_over, gridAt_eq, gridOf_gridField, finAt_eq 2 1, finAt_eq 8 3,
      finAt_eq 16 4, finAt_eq 64 6, finAt_eq 4096 12, toNat_beq_one, drainOf_code, mxOf_code, Option.bind_some,
      Fin.ofNat_val_eq_self, and_self, beq_self_eq_true, if_true, Nat.reducePow, Nat.reduceLeDiff, Nat.reduceSub,
      Nat.reduceAdd, Nat.reduceBEq, Bool.false_eq_true, if_false, Bool.true_and, Bool.and_true, Nat.lt_add_one]

/-- The engine slot (R197). -/
theorem decodeEngine_encode {h : SlotHdr} {w : Nat} {i : Instr} (he : encodeEngine i = some (h, w)) (hw : i.wf = true) :
    decodeEngine h w = some i := by
  cases i
  all_goals try exact absurd he.symm (Option.some_ne_none _)
  all_goals
    change some (_, _) = some (h, w) at he
    obtain ⟨rfl, rfl⟩ := some_pair_inj he
    clear he
  all_goals
    rw [decodeEngine, fld_opcode _ _ _ (by simp only [tidy_nil, tidy_cons, below_fin, below_one, and_self, Nat.reducePow,
      Nat.reduceLeDiff, Nat.reduceSub, Nat.reduceLT]) (by decide)]
    simp only [tidy_nil, tidy_cons, below_fin, below_one, fld_bits_above, fld_bits_at, fld_bits_over, sregAt_eq, pregAt_eq,
      finAt_eq 4 2, finAt_eq 8 3, finAt_eq 16 4, finAt_eq 64 6, Fin.ofNat_val_eq_self, and_self, beq_self_eq_true, if_true,
      Nat.reducePow, Nat.reduceLeDiff, Nat.reduceSub, Nat.reduceAdd, Nat.reduceBEq, Bool.false_eq_true, if_false,
      Bool.true_and, Bool.and_true, Bool.false_and, Nat.reduceLT]
  case cpnest | cpfoot => exact if_pos hw

end Sys2Proof

end

