-- ==== Sys2Proof/Proofs/SlotShapes.lean ====
section
/-! SUPPORT. What a header has to lend the slot words that encode gives (R180-R182). -/

namespace Sys2Proof

/-- The shape of a slot word of class c under what its header lends it: bit 31 clear, EXT only for a format with an IMM field
and then no HI bits, HI bits only for the format's grid fields (R174, R180-R182). -/
structure Shaped (c : Nat) (h : SlotHdr) (w : Nat) : Prop where
  cls : clsOf w = c
  short : w < 2 ^ 31
  ext : ∀ e, h.ext = some e → e < 2 ^ 27 ∧ h.hi = 0 ∧ (formatOf w).2 = true
  high : h.ext = none → h.hi < 8 ∧ h.hi &&& (7 - (formatOf w).1) = 0

/-- The format of a slot word is that of its class and opcode (R192-R197). -/
theorem formatOf_bits (c op : Nat) (l : List (Nat × Nat)) (hc : c < 8) (hb : c ≠ 5) (hop : op < 64) (hl : Tidy l 22) :
    formatOf (bits ((c, 28) :: (op, 22) :: l)) = formatOf (bits [(c, 28), (op, 22)]) := by
  have hcls (l : List (Nat × Nat)) (hl : Tidy l 22) : clsOf (bits ((c, 28) :: (op, 22) :: l)) = c :=
    clsOf_bits c _ ⟨by decide, hop, hl⟩ hc
  have hcode (l : List (Nat × Nat)) (hl : Tidy l 22) := fld_opcode c op l hl hop
  unfold formatOf
  simp only [hcls l hl, hcls [] trivial, hcode l hl, hcode [] trivial]
  split
  case h_5 => exact absurd rfl hb
  all_goals rfl

theorem formatOf_beat (op : Nat) (l : List (Nat × Nat)) (hop : op < 16) (hl : Tidy l 24) :
    formatOf (bits ((5, 28) :: (op, 24) :: l)) = formatOf (bits [(5, 28), (op, 24)]) := by
  have hcls (l : List (Nat × Nat)) (hl : Tidy l 24) : clsOf (bits ((5, 28) :: (op, 24) :: l)) = 5 :=
    clsOf_bits 5 _ ⟨by decide, hop, hl⟩ (by decide)
  unfold formatOf
  simp only [hcls l hl, hcls [] trivial, fld_beat op l hl hop, fld_beat op [] trivial hop]

theorem immExtS_lt {n : Nat} {i : Int} {e : Nat} (h : immExtS n i = some e) : e < 2 ^ 27 := by
  unfold immExtS at h
  split at h
  · exact absurd h.symm (Option.some_ne_none e)
  · rw [← Option.some.inj h]
    have h0 := Int.emod_nonneg (i / 2 ^ n) (show (2 : Int) ^ 27 ≠ 0 by decide)
    have h1 := Int.emod_lt_of_pos (i / 2 ^ n) (show (0 : Int) < 2 ^ 27 by decide)
    omega

theorem immExtU_lt {n i e : Nat} (h : immExtU n i = some e) : e < 2 ^ 27 := by
  unfold immExtU at h
  split at h
  · exact absurd h.symm (Option.some_ne_none e)
  · rw [← Option.some.inj h]
    exact Nat.mod_lt _ (by decide)

theorem immExtC_lt {cc : IntCC} {n : Nat} {i : Int} {e : Nat} (h : immExtC cc n i = some e) : e < 2 ^ 27 := by
  cases cc with
  | ltu => exact immExtU_lt h
  | geu => exact immExtU_lt h
  | eq => exact immExtS_lt h
  | ne => exact immExtS_lt h
  | lt => exact immExtS_lt h
  | ge => exact immExtS_lt h

/-- A slot word without a header. -/
theorem shaped_plain {c op : Nat} {l : List (Nat × Nat)} (hc : c < 8) (hop : op < 64) (hl : Tidy l 22) :
    Shaped c ⟨none, 0⟩ (bits ((c, 28) :: (op, 22) :: l)) where
  cls := clsOf_bits c _ ⟨by decide, hop, hl⟩ hc
  short := (show Tidy ((c, 28) :: (op, 22) :: l) 31 from ⟨by decide, hc, by decide, hop, hl⟩).below
  ext _ he := absurd he.symm (Option.some_ne_none _)
  high _ := ⟨Nat.succ_pos 7, Nat.zero_and _⟩

/-- A slot word with an IMM field, and no HI bit. -/
theorem shaped_imm {c op : Nat} {ext : Option Nat} {l : List (Nat × Nat)} (hc : c < 8) (hb : c ≠ 5) (hop : op < 64)
    (hl : Tidy l 22) (hext : ∀ e, ext = some e → e < 2 ^ 27) (himm : (formatOf (bits [(c, 28), (op, 22)])).2 = true) :
    Shaped c ⟨ext, 0⟩ (bits ((c, 28) :: (op, 22) :: l)) where
  cls := clsOf_bits c _ ⟨by decide, hop, hl⟩ hc
  short := (show Tidy ((c, 28) :: (op, 22) :: l) 31 from ⟨by decide, hc, by decide, hop, hl⟩).below
  ext e he := by rw [formatOf_bits c op l hc hb hop hl]; exact ⟨hext e he, rfl, himm⟩
  high _ := ⟨Nat.succ_pos 7, Nat.zero_and _⟩

/-- HI bits whose lowest k are clear pass a mask of them. -/
theorem high_mask {hi m k : Nat} (hm : m = 2 ^ k - 1) (hk : fld hi 0 k = 0) : hi &&& m = 0 := by
  rw [hm, Nat.and_two_pow_sub_one_eq_mod]
  simpa [fld] using hk

/-- A slot word with grid fields, the format leaving the lowest k HI bits unused. -/
theorem shaped_grid {c op k : Nat} {g l : List (Nat × Nat)} (hc : c < 8) (hb : c ≠ 5) (hop : op < 64)
    (hm : 7 - (formatOf (bits [(c, 28), (op, 22)])).1 = 2 ^ k - 1) (hk : fld (bits g) 0 k = 0) (hg : Tidy g 3)
    (hl : Tidy l 22) : Shaped c ⟨none, bits g⟩ (bits ((c, 28) :: (op, 22) :: l)) where
  cls := clsOf_bits c _ ⟨by decide, hop, hl⟩ hc
  short := (show Tidy ((c, 28) :: (op, 22) :: l) 31 from ⟨by decide, hc, by decide, hop, hl⟩).below
  ext _ he := absurd he.symm (Option.some_ne_none _)
  high _ := by rw [formatOf_bits c op l hc hb hop hl]; exact ⟨hg.below, high_mask hm hk⟩

/-- A memory slot word with a grid field and an IMM field: EXT or the HI bit is there, not both (R180, R181). -/
theorem shaped_gridImm {op : Nat} {x : Fin 64} {i : Int} {l : List (Nat × Nat)} (hop : op < 64) (hl : Tidy l 22)
    (hok : immGridOk x i = true) (hf : formatOf (bits [(4, 28), (op, 22)]) = (4, true)) :
    Shaped 4 ⟨immExtS 10 i, bits [(x.val / 32, 2)]⟩ (bits ((4, 28) :: (op, 22) :: l)) where
  cls := clsOf_bits 4 _ ⟨by decide, hop, hl⟩ (by decide)
  short := (show Tidy ((4, 28) :: (op, 22) :: l) 31 from
    ⟨by decide, show 4 < 2 ^ 3 by decide, by decide, hop, hl⟩).below
  ext e he := by
    have hlow : x.val < 32 := by
      have hor := (Bool.and_eq_true_iff.mp hok).2
      have hext : immExtS 10 i = some e := he
      simpa [hext] using hor
    rw [formatOf_bits 4 op l (by decide) (by decide) hop hl, hf]
    exact ⟨immExtS_lt he, by simp [bits, Nat.div_eq_of_lt hlow], rfl⟩
  high _ := by
    rw [formatOf_bits 4 op l (by decide) (by decide) hop hl, hf]
    exact ⟨(show Tidy [(x.val / 32, 2)] 3 from ⟨by decide, below_high x (by decide), trivial⟩).below,
      high_mask (k := 2) rfl (fld_bits_above _ _ _ _ _ (by decide))⟩

/-- A matrix slot word without a grid field. -/
theorem shaped_beat {op : Nat} {l : List (Nat × Nat)} (hop : op < 16) (hl : Tidy l 24) :
    Shaped 5 ⟨none, 0⟩ (bits ((5, 28) :: (op, 24) :: l)) where
  cls := clsOf_bits 5 _ ⟨by decide, hop, hl⟩ (by decide)
  short := (show Tidy ((5, 28) :: (op, 24) :: l) 31 from
    ⟨by decide, show 5 < 2 ^ 3 by decide, by decide, hop, hl⟩).below
  ext _ he := absurd he.symm (Option.some_ne_none _)
  high _ := ⟨Nat.succ_pos 7, Nat.zero_and _⟩

/-- A matrix slot word with grid fields, the format leaving the lowest k HI bits unused. -/
theorem shaped_beatGrid {op k : Nat} {g l : List (Nat × Nat)} (hop : op < 16)
    (hm : 7 - (formatOf (bits [(5, 28), (op, 24)])).1 = 2 ^ k - 1) (hk : fld (bits g) 0 k = 0) (hg : Tidy g 3)
    (hl : Tidy l 24) : Shaped 5 ⟨none, bits g⟩ (bits ((5, 28) :: (op, 24) :: l)) where
  cls := clsOf_bits 5 _ ⟨by decide, hop, hl⟩ (by decide)
  short := (show Tidy ((5, 28) :: (op, 24) :: l) 31 from
    ⟨by decide, show 5 < 2 ^ 3 by decide, by decide, hop, hl⟩).below
  ext _ he := absurd he.symm (Option.some_ne_none _)
  high _ := by rw [formatOf_beat op l hop hl]; exact ⟨hg.below, high_mask hm hk⟩

/-- The control slot. -/
theorem shapedControl {h : SlotHdr} {w : Nat} {i : Instr} (he : encodeControl i = some (h, w)) : Shaped 1 h w := by
  cases i
  all_goals try exact absurd he.symm (Option.some_ne_none _)
  all_goals
    change some (_, _) = some (h, w) at he
    obtain ⟨rfl, rfl⟩ := some_pair_inj he
    clear he
  case' lsetFeed => rw [bits_sort_behind _ _ _ _ _ _ _ _ (by decide)]
  case' lsetRrb | lsetStg => rw [bits_sort _ _ _ _ _ _ _ (by decide)]
  case' brp | brnp | jmpWord | jmpBlock | jmpi | callb | loopb | lsetPass | lsetFeed =>
    refine shaped_imm (by decide) (by decide) (by decide) ?_ (fun _ => immExtS_lt) (by decide)
  case' lsetRrb | lsetStg | trap =>
    refine shaped_imm (by decide) (by decide) (by decide) ?_ (fun _ => immExtU_lt) (by decide)
  case' jmpiB | retb | wait | semw | sems | semt | bara | barw | barr | phase | fence | spawn | yield | retire | pcommit |
      csrr | csrw | tret | ctxs | ctxl =>
    refine shaped_plain (by decide) (by decide) ?_
  all_goals
    simp only [tidy_nil, tidy_cons, below_fin, below_one, below_two, below_three, below_codeScope, below_immField,
      below_mod, and_self, Nat.reducePow, Nat.reduceLeDiff, Nat.reduceSub, Nat.reduceLT]

/-- The scalar slot. -/
theorem shapedScalar {h : SlotHdr} {w : Nat} {i : Instr} (he : encodeScalar i = some (h, w)) : Shaped 2 h w := by
  cases i
  all_goals try exact absurd he.symm (Option.some_ne_none _)
  all_goals
    change some (_, _) = some (h, w) at he
    obtain ⟨rfl, rfl⟩ := some_pair_inj he
    clear he
  case' addi | andi | li => refine shaped_imm (by decide) (by decide) (by decide) ?_ (fun _ => immExtS_lt) (by decide)
  case' ori | xori | shli | shri | sari =>
    refine shaped_imm (by decide) (by decide) (by decide) ?_ (fun _ => immExtU_lt) (by decide)
  case' cmpi => refine shaped_imm (by decide) (by decide) (by decide) ?_ (fun _ => immExtC_lt) (by decide)
  case' add | sub | mul | mulh | mulhu | and | or | xor | shl | shr | sar | min | max | minu | maxu | sel | clz | popc | lea |
      cmp | pand | por | pnot | pmov =>
    refine shaped_plain (by decide) (by decide) ?_
  all_goals
    simp only [tidy_nil, tidy_cons, below_fin, below_codeIntCC, below_immField, below_mod, and_self, Nat.reducePow, Nat.reduceLeDiff, Nat.reduceSub,
      Nat.reduceLT]

/-- The vector slot. -/
theorem shapedVector {h : SlotHdr} {w : Nat} {i : Instr} (he : encodeVector i = some (h, w)) : Shaped 3 h w := by
  cases i
  all_goals try exact absurd he.symm (Option.some_ne_none _)
  all_goals
    change some (_, _) = some (h, w) at he
    obtain ⟨rfl, rfl⟩ := some_pair_inj he
    clear he
  case' vred => rw [bits_sort _ _ _ _ _ _ _ (by decide), bits_sort_behind _ _ _ _ _ _ _ _ (by decide)]
  case' fcmp | vcmp | vshl | vshr | vsar | vsat | cvt | dqn | bmax | scsel | tag | vrot | vred | qpop | spk | spx =>
    refine shaped_grid (k := 1) (by decide) (by decide) (by decide) (by decide) ?_ ?_ ?_
  case' vbcst => refine shaped_grid (k := 2) (by decide) (by decide) (by decide) (by decide) ?_ ?_ ?_
  case' fadd | fsub | fmul | fma | fnma | fmax | fmin | fsel | vadd | vsub | vmul | vmulh | vand | vor | vxor | vmin | vmax |
      vsel | vperm | fabs | fneg | frcp | frsq | fexp2 | vabs | vmov =>
    refine shaped_grid (k := 0) (by decide) (by decide) (by decide) (by decide) (Nat.mod_one _) ?_ ?_
  all_goals
    simp only [tidy_nil, tidy_cons, below_fin, below_gridField, below_toNat, below_high, below_codeIntCC,
      below_codeFpCC, below_codeMxFmt, below_codeRedOp, fld_bits_above, fld_bits_over, and_self, Nat.reducePow, Nat.reduceLeDiff, Nat.reduceSub, Nat.reduceAdd, Nat.reduceLT,
      Nat.lt_add_one]

/-- The memory slot. -/
theorem shapedMemory {h : SlotHdr} {w : Nat} {i : Instr} (he : encodeMemory i = some (h, w)) (hw : i.wf = true) :
    Shaped 4 h w := by
  cases i
  all_goals try exact absurd he.symm (Option.some_ne_none _)
  all_goals
    change some (_, _) = some (h, w) at he
    obtain ⟨rfl, rfl⟩ := some_pair_inj he
    clear he
  case' lds | sts | bufacq | buftake =>
    rw [bits_sort _ _ _ _ _ _ _ (by decide), bits_sort_behind _ _ _ _ _ _ _ _ (by decide)]
  case' hset | hget | bufpub | buffree | bufq | mapw | qst | qstHalf => rw [bits_sort _ _ _ _ _ _ _ (by decide)]
  case' lds | sts => refine shaped_imm (by decide) (by decide) (by decide) ?_ (fun _ => immExtS_lt) (by decide)
  case' ldv | stv | ldtt | stbp | ldbp => refine shaped_gridImm (by decide) ?_ hw (by decide)
  case' hset | hget | spfence | bufacq | bufpub | buftake | buffree | bufq | mapw | mapf | mapi | mapiDiscard | qst | qstHalf |
      aadd | aand | aor | amin | amax | axch | acas | adecp | waita | wake1 | wakea =>
    refine shaped_plain (by decide) (by decide) ?_
  all_goals
    simp only [tidy_nil, tidy_cons, below_fin, below_sixteen, below_gridField, below_toNat, below_mod, below_immField,
      below_codeSize, below_codeOrd4, below_codeScope, and_self, Nat.reducePow, Nat.reduceLeDiff, Nat.reduceSub, Nat.reduceLT, Nat.lt_add_one]

/-- The matrix slot. -/
theorem shapedMatrix {h : SlotHdr} {w : Nat} {i : Instr} (he : encodeMatrix i = some (h, w)) : Shaped 5 h w := by
  cases i
  all_goals try exact absurd he.symm (Option.some_ne_none _)
  all_goals
    change some (_, _) = some (h, w) at he
    obtain ⟨rfl, rfl⟩ := some_pair_inj he
    clear he
  case' qnt => refine shaped_beatGrid (k := 1) (by decide) (by decide) ?_ ?_ ?_
  case' mhold | mpush | mpushS | mpushC | mpushSC | mshift | macc | maccR | mdrain | mzero | msetFloat | msetInt | msparse |
      mremQueue | mremAcc | mskew =>
    refine shaped_beat (by decide) ?_
  all_goals
    simp only [tidy_nil, tidy_cons, below_fin, below_one, below_toNat, below_codeDrainFmt, below_gridField, below_high,
      below_codeMxFmt, fld_bits_above, fld_bits_over, Nat.reduceAdd, and_self, Nat.reducePow, Nat.reduceLeDiff, Nat.reduceSub,
      Nat.lt_add_one]

/-- The engine slot. -/
theorem shapedEngine {h : SlotHdr} {w : Nat} {i : Instr} (he : encodeEngine i = some (h, w)) : Shaped 6 h w := by
  cases i
  all_goals try exact absurd he.symm (Option.some_ne_none _)
  all_goals
    change some (_, _) = some (h, w) at he
    obtain ⟨rfl, rfl⟩ := some_pair_inj he
    clear he
  all_goals
    refine shaped_plain (by decide) (by decide) ?_
    simp only [tidy_nil, tidy_cons, below_fin, below_one, and_self, Nat.reducePow, Nat.reduceLeDiff, Nat.reduceSub, Nat.reduceLT]

end Sys2Proof

end

