-- ==== Sys2Proof/Proofs/RoundTrip.lean ====
section
/-! SUPPORT. A slot word in a bundle of its own, alone or behind a header (R176-R181), and the words of a loader or storer core. -/

namespace Sys2Proof

/-! ## Bit 31 -/

/-- The fields below bit 31 of a word that has it set. -/
theorem fld_bit31 (w lo n : Nat) (h : lo + n ≤ 31) : fld (2 ^ 31 + w) lo n = fld w lo n := by
  obtain ⟨k, hk⟩ := Nat.exists_eq_add_of_le h
  have hplace : 2 ^ 31 = 2 ^ lo * (2 ^ n * 2 ^ k) := by rw [hk, Nat.pow_add, Nat.pow_add, Nat.mul_assoc]
  simp only [fld, hplace, Nat.mul_add_div (Nat.two_pow_pos lo), Nat.mul_add_mod]

theorem finAt_bit31 (m n w lo : Nat) [NeZero m] (hm : m = 2 ^ n) (h : lo + n ≤ 31) : finAt m (2 ^ 31 + w) lo = finAt m w lo := by
  rw [finAt_eq m n _ lo hm, finAt_eq m n _ lo hm, fld_bit31 w lo n h]

theorem decodeControl_bit31 (h : SlotHdr) (w : Nat) : decodeControl h (2 ^ 31 + w) = decodeControl h w := by
  unfold decodeControl
  simp only [finAt_eq 32 5 _ _ rfl, finAt_eq 64 6 _ _ rfl, finAt_eq 256 8 _ _ rfl, finAt_eq 4096 12 _ _ rfl, sregAt_eq, pregAt_eq, immS_eq, immU_eq, fld_bit31, Nat.reduceAdd, Nat.reduceLeDiff]

theorem decodeScalar_bit31 (h : SlotHdr) (w : Nat) : decodeScalar h (2 ^ 31 + w) = decodeScalar h w := by
  unfold decodeScalar
  simp only [finAt_eq 8 3 _ _ rfl, finAt_eq 16 4 _ _ rfl, sregAt_eq, pregAt_eq, immS_eq, immU_eq, immC_eq, fld_bit31, Nat.reduceAdd, Nat.reduceLeDiff]

theorem decodeVector_bit31 (h : SlotHdr) (w : Nat) : decodeVector h (2 ^ 31 + w) = decodeVector h w := by
  unfold decodeVector
  simp only [finAt_eq 8 3 _ _ rfl, finAt_eq 16 4 _ _ rfl, finAt_eq 32 5 _ _ rfl, finAt_eq 64 6 _ _ rfl, sregAt_eq, pregAt_eq, gridAt_eq, fld_bit31, Nat.reduceAdd, Nat.reduceLeDiff]

theorem decodeMemory_bit31 (h : SlotHdr) (w : Nat) : decodeMemory h (2 ^ 31 + w) = decodeMemory h w := by
  unfold decodeMemory
  simp only [finAt_eq 8 3 _ _ rfl, finAt_eq 16 4 _ _ rfl, finAt_eq 32 5 _ _ rfl, sregAt_eq, pregAt_eq, gridAt_eq, gridIdx_eq, immS_eq, fld_bit31, Nat.reduceAdd, Nat.reduceLeDiff]

theorem decodeMatrix_bit31 (h : SlotHdr) (w : Nat) : decodeMatrix h (2 ^ 31 + w) = decodeMatrix h w := by
  unfold decodeMatrix
  simp only [finAt_eq 2 1 _ _ rfl, finAt_eq 8 3 _ _ rfl, finAt_eq 16 4 _ _ rfl, finAt_eq 64 6 _ _ rfl, finAt_eq 4096 12 _ _ rfl, gridAt_eq, fld_bit31, Nat.reduceAdd, Nat.reduceLeDiff]

theorem decodeEngine_bit31 (h : SlotHdr) (w : Nat) : decodeEngine h (2 ^ 31 + w) = decodeEngine h w := by
  unfold decodeEngine
  simp only [finAt_eq 4 2 _ _ rfl, finAt_eq 8 3 _ _ rfl, finAt_eq 16 4 _ _ rfl, finAt_eq 64 6 _ _ rfl, sregAt_eq, pregAt_eq, fld_bit31, Nat.reduceAdd, Nat.reduceLeDiff]

/-- Bit 31 is not read (R174). -/
theorem decodeSlot_bit31 (h : SlotHdr) (w : Nat) : decodeSlot h (2 ^ 31 + w) = decodeSlot h w := by
  unfold decodeSlot
  rw [clsOf, fld_bit31 w 28 3 (by decide), decodeControl_bit31, decodeScalar_bit31, decodeVector_bit31, decodeMemory_bit31,
    decodeMatrix_bit31, decodeEngine_bit31]
  rfl

/-! ## The slot -/

/-- What encodeSlot gives is a slot word of a class that a bundle holds, and decodes. -/
theorem encodeSlot_decodes {i : Instr} {h : SlotHdr} {w : Nat} (he : encodeSlot i = some (h, w)) (hw : i.wf = true) :
    ∃ c, 1 ≤ c ∧ c ≤ 6 ∧ Shaped c h w ∧ decodeSlot h w = some i := by
  have pick {c : Nat} (hc : 1 ≤ c ∧ c ≤ 6) (hs : Shaped c h w) (hd : decodeSlot h w = some i) :
      ∃ c, 1 ≤ c ∧ c ≤ 6 ∧ Shaped c h w ∧ decodeSlot h w = some i := ⟨c, hc.1, hc.2, hs, hd⟩
  simp only [encodeSlot, Option.or_eq_some_iff] at he
  rcases he with he | ⟨-, he | ⟨-, he | ⟨-, he | ⟨-, he | ⟨-, he⟩⟩⟩⟩⟩
  · have hs := shapedControl he
    exact pick (by decide) hs (by rw [decodeSlot, hs.cls]; exact decodeControl_encode he hw)
  · have hs := shapedScalar he
    exact pick (by decide) hs (by rw [decodeSlot, hs.cls]; exact decodeScalar_encode he hw)
  · have hs := shapedVector he
    exact pick (by decide) hs (by rw [decodeSlot, hs.cls]; exact decodeVector_encode he hw)
  · have hs := shapedMemory he hw
    exact pick (by decide) hs (by rw [decodeSlot, hs.cls]; exact decodeMemory_encode he hw)
  · have hs := shapedMatrix he
    exact pick (by decide) hs (by rw [decodeSlot, hs.cls]; exact decodeMatrix_encode he hw)
  · have hs := shapedEngine he
    exact pick (by decide) hs (by rw [decodeSlot, hs.cls]; exact decodeEngine_encode he hw)

/-! ## The bundle -/

/-- A word with bit 31 set begins the next bundle (R176). -/
theorem fld_of_testBit {w : Nat} (h : w.testBit 31 = true) : (fld w 31 1 == 1) = true := by
  rw [Nat.testBit_eq_decide_div_mod_eq] at h
  simpa [fld] using h

/-- A bundle of one word, another behind it. -/
theorem extent_one (rd : Nat → Nat) (a : Nat) (h : (rd (a + 4)).testBit 31 = true) : extent rd a 8 1 = some 1 := by
  simp [extent, fld_of_testBit h]

/-- A bundle of two words at a bundle's place, another behind it. -/
theorem extent_two (rd : Nat → Nat) (a : Nat) (ha : a % 32 = 0) (hlow : rd (a + 4) < 2 ^ 31)
    (h : (rd (a + 8)).testBit 31 = true) : extent rd a 8 1 = some 2 := by
  have hstart : isDescriptor (a + 4) (rd (a + 4)) = false := by
    have hplace : (a + 4) % 64 ≠ 0 := by omega
    simp [isDescriptor, hplace]
  have hbit : (fld (rd (a + 4)) 31 1 == 1) = false := by
    rw [fld, Nat.div_eq_of_lt hlow]
    rfl
  have hpacket : ((a + 4) % 32 == 0) = false := by
    have hplace : (a + 4) % 32 ≠ 0 := by omega
    simpa using hplace
  simp [extent, hstart, hbit, hpacket, fld_of_testBit h]

/-- The words of a bundle that R189's checks 2 and 3 let pass: no word of 0 or of class 7, at most four, in ascending order of
classes. -/
def Words (ws : List Nat) : Prop :=
  (ws.any fun w => clsOf w == 7 || w == 0) = false ∧ ws.length ≤ 4 ∧ ascending ws = true

/-- Decoding a bundle whose words pass the first checks is decoding its lanes (R189). -/
theorem decodeBundle_words {rd : Nat → Nat} {a n : Nat} {hdr : Nat} {lanes : List Nat} (hn : extent rd a 8 1 = some n)
    (hws : ((List.range n).map fun k => rd (a + 4 * k)) = hdr :: lanes) (hok : Words (hdr :: lanes)) :
    decodeBundle rd a =
      if clsOf hdr != 0 then
        match decodeLanes none (hdr :: lanes) with
        | none => .error .illegalOpcode
        | some sl => .ok ⟨n, false, 0, sl⟩
      else if lanes.isEmpty then
        if restIsPads rd (a + 4) 8 then .ok ⟨n, true, 0, []⟩ else .error .bundleForm
      else if fld hdr 27 1 == 1 then
        if lanes.any (fun w => (formatOf w).2) then
          match decodeLanes (some (fld hdr 0 27)) lanes with
          | none => .error .illegalOpcode
          | some sl => .ok ⟨n, false, 0, sl⟩
        else .error .headerMisuse
      else if lanesOk hdr lanes then
        match decodeGuarded hdr 0 lanes with
        | none => .error .illegalOpcode
        | some sl => .ok ⟨n, false, fld hdr 24 3, sl⟩
      else .error .headerMisuse := by
  obtain ⟨hany, hlen, hasc⟩ := hok
  have hcount : n = (hdr :: lanes).length := by rw [← hws]; simp
  have hform : (decide (4 < n) || !ascending (hdr :: lanes)) = false := by
    rw [hasc, hcount]
    simpa using hlen
  unfold decodeBundle
  rw [hn]
  simp only [hws, hany, hform, Bool.false_eq_true, if_false] <;> rfl

/-- A slot word of a class that a bundle holds is no word of 0 and none of class 7. -/
theorem Shaped.plain {c : Nat} {h : SlotHdr} {w : Nat} (hs : Shaped c h w) (h1 : 1 ≤ c) (h6 : c ≤ 6) :
    (clsOf w == 7 || w == 0) = false := by
  have hzero : w ≠ 0 := by
    rintro rfl
    have hc : (0 : Nat) = c := hs.cls
    omega
  have hseven : c ≠ 7 := by omega
  simp [hs.cls, hzero, hseven]

/-- A slot word that stands alone with bit 31 set. -/
theorem decodeBundle_one {rd : Nat → Nat} {a c w : Nat} {i : Instr} (hword : rd a = 2 ^ 31 + w)
    (hnext : (rd (a + 4)).testBit 31 = true) (h1 : 1 ≤ c) (h6 : c ≤ 6) (hs : Shaped c ⟨none, 0⟩ w)
    (hd : decodeSlot ⟨none, 0⟩ w = some i) : decodeBundle rd a = .ok ⟨1, false, 0, [(0, i)]⟩ := by
  have hcls : clsOf (2 ^ 31 + w) = c := by rw [clsOf, fld_bit31 w 28 3 (by decide)]; exact hs.cls
  have hne : (c != 0) = true := by
    have h0 : c ≠ 0 := by omega
    simpa using h0
  have hseven : c ≠ 7 := by omega
  have hlanes : decodeLanes none [2 ^ 31 + w] = some [(0, i)] := by
    simp only [decodeLanes, ite_self, decodeSlot_bit31, hd]
    rfl
  have hok : Words [2 ^ 31 + w] := by
    refine ⟨?_, by simp, rfl⟩
    simp only [List.any_cons, List.any_nil, hcls]
    simp [hseven]
  rw [decodeBundle_words (extent_one rd a hnext) (by simp [hword]) hok, hcls, hne, hlanes]
  rfl

/-- A header and a slot word pass the first checks. -/
theorem words_header {c hdr w : Nat} {h : SlotHdr} (hs : Shaped c h w) (h1 : 1 ≤ c) (h6 : c ≤ 6) (hcls : clsOf hdr = 0)
    (hne : hdr ≠ 0) : Words [hdr, w] := by
  refine ⟨?_, by simp, ?_⟩
  · have hw := hs.plain h1 h6
    simp only [List.any_cons, List.any_nil, hw, hcls]
    simp [hne]
  · have hlt : 0 < c := h1
    simp [ascending, hs.cls, hcls, hlt]

/-- A slot word behind a header that completes its immediate (R181). -/
theorem decodeBundle_ext {rd : Nat → Nat} {a c w e hi : Nat} {i : Instr} (ha : a % 32 = 0) (hhdr : rd a = 0x88000000 + e)
    (hword : rd (a + 4) = w) (hnext : (rd (a + 8)).testBit 31 = true) (h1 : 1 ≤ c) (h6 : c ≤ 6) (hs : Shaped c ⟨some e, hi⟩ w)
    (hd : decodeSlot ⟨some e, hi⟩ w = some i) : decodeBundle rd a = .ok ⟨2, false, 0, [(0, i)]⟩ := by
  obtain ⟨he, hhi, himm⟩ := hs.ext e rfl
  obtain rfl : hi = 0 := hhi
  have hcls : clsOf (0x88000000 + e) = 0 := by
    simp only [clsOf, fld]
    omega
  have hmode : (fld (0x88000000 + e) 27 1 == 1) = true := by
    have h27 : fld (0x88000000 + e) 27 1 = 1 := by
      simp only [fld]
      omega
    rw [h27]
    rfl
  have hfield : fld (0x88000000 + e) 0 27 = e := by
    simp only [fld]
    omega
  have hlanes : decodeLanes (some e) [w] = some [(0, i)] := by
    simp only [decodeLanes, himm, if_true, hd]
    rfl
  rw [decodeBundle_words (extent_two rd a ha (hword ▸ hs.short) hnext) (lanes := [w]) (by simp [List.range_succ, hhdr, hword])
    (words_header hs h1 h6 hcls (by omega)), hcls, hmode, hfield, hlanes]
  simp [himm]

/-- A slot word behind a header that completes its grid indexes (R180). -/
theorem decodeBundle_high {rd : Nat → Nat} {a c w hi : Nat} {i : Instr} (ha : a % 32 = 0) (hhdr : rd a = 0x80000000 + hi * 2 ^ 9)
    (hword : rd (a + 4) = w) (hnext : (rd (a + 8)).testBit 31 = true) (h1 : 1 ≤ c) (h6 : c ≤ 6) (hs : Shaped c ⟨none, hi⟩ w)
    (hd : decodeSlot ⟨none, hi⟩ w = some i) : decodeBundle rd a = .ok ⟨2, false, 0, [(0, i)]⟩ := by
  obtain ⟨hhi, hmask⟩ := hs.high rfl
  replace hhi : hi < 8 := hhi
  have hcls : clsOf (0x80000000 + hi * 2 ^ 9) = 0 := by
    simp only [clsOf, fld]
    omega
  have hfield : fld (0x80000000 + hi * 2 ^ 9) 9 3 = hi := by
    simp only [fld]
    omega
  have hclear : fld (0x80000000 + hi * 2 ^ 9) 0 3 = 0 ∧ fld (0x80000000 + hi * 2 ^ 9) 3 3 = 0
      ∧ fld (0x80000000 + hi * 2 ^ 9) 6 3 = 0 ∧ fld (0x80000000 + hi * 2 ^ 9) 12 4 = 0
      ∧ fld (0x80000000 + hi * 2 ^ 9) 16 4 = 0 ∧ fld (0x80000000 + hi * 2 ^ 9) 20 4 = 0
      ∧ fld (0x80000000 + hi * 2 ^ 9) 24 3 = 0 ∧ fld (0x80000000 + hi * 2 ^ 9) 27 1 = 0 := by
    simp only [fld]
    omega
  obtain ⟨h0, h3, h6', h12, h16, h20, h24, h27⟩ := hclear
  have hlanesOk : lanesOk (0x80000000 + hi * 2 ^ 9) [w] = true := by
    have hlane : (fld (0x80000000 + hi * 2 ^ 9) 9 3 &&& (7 - (formatOf w).1) == 0) = true := by
      rw [hfield]
      exact beq_iff_eq.mpr hmask
    simp only [lanesOk, h0, h24, List.getElem?_cons_zero, List.getElem?_cons_succ, List.getElem?_nil, h16, h6', h12, h3, hlane]
    rfl
  have hguard : decodeGuarded (0x80000000 + hi * 2 ^ 9) 0 [w] = some [(0, i)] := by
    simp only [decodeGuarded, Nat.mul_zero, Nat.sub_zero, hfield, pregAt_eq, h20, hd]
    rfl
  rw [decodeBundle_words (extent_two rd a ha (hword ▸ hs.short) hnext) (lanes := [w]) (by simp [List.range_succ, hhdr, hword])
    (words_header hs h1 h6 hcls (by omega)), hcls, h27, h24, hlanesOk, hguard]
  rfl

/-! ## The words of the loader and storer cores -/

/-- Such a word by its fields, from the highest to the lowest. -/
theorem vlWord_eq (f3 f7 rd rs1 rs2 : Nat) :
    vlWord f3 f7 rd rs1 rs2 = bits [(f7, 25), (rs2, 20), (rs1, 15), (f3, 12), (rd, 7), (0x0B, 0)] := by
  simp only [vlWord, bits]
  omega

/-- A word that is read as four bytes and as a custom-0 word. -/
theorem rvDecode_vl {w : Nat} {i : Instr} (h7 : fld w 0 7 = 0x0B) (hd : decodeVl w = some i) :
    Machine.rvDecode w = (4, some (.vl i)) := by
  have h2 : fld w 0 2 = 3 := by
    simp only [fld] at h7 ⊢
    omega
  simp only [Machine.rvDecode, h2, Machine.rvDecode32, h7, hd]
  rfl

/-- Two fields of 0 leave nothing between the ones around them. -/
theorem bits_no_sources (l : List (Nat × Nat)) : bits ((0, 20) :: (0, 15) :: l) = bits l := by
  simp [bits]

/-- The seven bits that hold a channel and the number of a setup register. -/
theorem bits_channel (ch k : Nat) (l : List (Nat × Nat)) : bits ((ch * 32 + k, 25) :: l) = bits ((ch, 30) :: (k, 25) :: l) := by
  simp only [bits]
  omega

/-- The words that encodeVl gives decode. -/
theorem rvDecode_encodeVl {i : Instr} {w : Nat} (he : encodeVl i = some w) : Machine.rvDecode w = (4, some (.vl i)) := by
  have below11 : Below 11 7 := show 11 < 2 ^ 7 by decide
  cases i
  all_goals try exact absurd he.symm (Option.some_ne_none _)
  all_goals
    change some (vlWord _ _ _ _ _) = some w at he
    rw [← Option.some.inj he, vlWord_eq]
    refine rvDecode_vl ?_ ?_
  case' vlCpset => rw [bits_channel]
  all_goals
    simp only [decodeVl, tidy_nil, tidy_cons, below_fin, below_zero, below_one, below_two, below_three, below_four, below11,
      bits_no_sources, bits_channel, fld_bits_above, fld_bits_at, fld_bits_over, sregAt_eq, finAt_eq 32 5, finAt_eq 4 2,
      Fin.ofNat_val_eq_self, and_self, beq_self_eq_true, if_true, Nat.reducePow, Nat.reduceLeDiff, Nat.reduceSub,
      Nat.reduceAdd, Bool.and_self, Nat.reduceLT]

/-! ## The round trip -/

/-- The words of an instruction of a tile core decode to it. -/
theorem decodeBundle_encode {i : Instr} {ws : List Nat} (hw : i.wf = true) (hvl : encodeVl i = none) (he : encode i = some ws)
    (rd : Nat → Nat) (a : Nat) (ha : a % 32 = 0) (hread : ∀ k, k < ws.length → ws[k]? = some (rd (a + 4 * k)))
    (hnext : (rd (a + 4 * ws.length)).testBit 31 = true) : decodeBundle rd a = .ok ⟨ws.length, false, 0, [(0, i)]⟩ := by
  unfold encode at he
  rw [hvl] at he
  dsimp only at he
  split at he
  · exact absurd he.symm (Option.some_ne_none ws)
  · next e hi w hslot =>
    obtain ⟨c, h1, h6, hs, hd⟩ := encodeSlot_decodes hslot hw
    obtain rfl : ws = [_, _] := (Option.some.inj he).symm
    have hhdr := Option.some.inj (hread 0 (Nat.zero_lt_succ _))
    have hword := Option.some.inj (hread 1 Nat.one_lt_two)
    exact decodeBundle_ext ha hhdr.symm hword.symm hnext h1 h6 hs hd
  · next w hslot =>
    obtain ⟨c, h1, h6, hs, hd⟩ := encodeSlot_decodes hslot hw
    obtain rfl : ws = [_] := (Option.some.inj he).symm
    have hword := Option.some.inj (hread 0 (Nat.zero_lt_succ _))
    exact decodeBundle_one hword.symm hnext h1 h6 hs hd
  · next hi w _ hslot =>
    obtain ⟨c, h1, h6, hs, hd⟩ := encodeSlot_decodes hslot hw
    obtain rfl : ws = [_, _] := (Option.some.inj he).symm
    have hhdr := Option.some.inj (hread 0 (Nat.zero_lt_succ _))
    have hword := Option.some.inj (hread 1 Nat.one_lt_two)
    exact decodeBundle_high ha hhdr.symm hword.symm hnext h1 h6 hs hd

/-- Settles O53: the slot words of each class decode (decodeControl_encode and its sisters), and a bundle carries them, alone or
behind the header that their shape calls for. -/
theorem roundTrip : Obligations.RoundTrip := by
  unfold Obligations.RoundTrip
  exact fun i ws w hw => ⟨fun hvl he rd a ha hread hnext => decodeBundle_encode hw hvl he rd a ha hread hnext,
    rvDecode_encodeVl⟩

end Sys2Proof

end

