-- ==== Sys2Proof/Proofs/MatrixBeats.lean ====
section
/-! SUPPORT. The beats of the matrix slot (R275-R281): when they run, and what a push, a shift and a close do to the array. -/

namespace Sys2Proof

open Machine

/-! ## Running a beat -/

/-- Reads that meet no trap and no wait hand on to what follows them. -/
theorem beatPrep_reads {s v u : State} {l : List (Nat × Nat)} (h : s.reads v l u) (k : State → SlotR) :
    beatPrep s.alone v l k = k u := by
  obtain ⟨hline, hbad⟩ := h
  unfold beatPrep
  rw [hline]
  simp only [hbad]

/-- No check fails, so none of the first ones does. -/
theorem beatFirst_of_beatTrap {s : State} {t : Tile} {a b : Option HReg} {close : Bool} (h : beatTrap s t a b close = none) :
    beatFirst t a b close = none := by
  unfold beatTrap at h
  split at h
  · exact absurd h (Option.some_ne_none _)
  · assumption

theorem accError_zero {t : Tile} (rows : BitVec 64) (h : t.badAcc = 0) : accError t rows = none := by
  simp [accError, h]

/-- What the two halves of a beat do to the array. -/
def beatMat (s : State) (t : Tile) (a b : Option HReg) (close : Bool) : Mat :=
  let m := match a with
    | some n => s.pushMat n t.handles[n.val] t.mat
    | none => t.mat
  let m := match b with
    | some n => s.shiftMat t.handles[n.val] m
    | none => m
  if close then m.close else m

/-- A beat whose checks and reads pass. -/
theorem pushBeat_run {s v u : State} {a b : Option HReg} {close : Bool} (hok : beatTrap s s.tile a b close = none)
    (hacc : close = true → s.tile.badAcc = 0) (hlooks : s.reads s (beatLooks s s.tile a b) v)
    (hreads : s.reads v ((a.map fun n => s.pushReads s.tile.handles[n.val] s.tile.mat).getD []
      ++ (b.map fun n => (s.tile.handles[n.val]).shiftReads s.tile.mat.gb.val).getD []) u) :
    (pushBeat a b close).run s.alone s = .ok (u.spend.mapTile fun t => { t with mat := beatMat s s.tile a b close }) {} := by
  have herr : (if close then accError s.tile (BitVec.allOnes 64) else none) = none := by
    cases close with
    | false => rfl
    | true => exact accError_zero _ (hacc rfl)
  simp only [pushBeat, matSlot, State.alone_pre, beatFirst_of_beatTrap hok]
  rw [beatPrep_reads hlooks]
  simp only [hok, herr, Option.map_none, Option.none_or]
  rw [beatPrep_reads hreads]
  rfl

/-- MSPARSE of a sparse handle whose masks pass. -/
theorem slotMsparse_run {s v u : State} {b : HReg} (hv : (s.tile.handles[b.val]).valid = true)
    (hn : (s.tile.handles[b.val]).spn ≠ 0)
    (hm : s.metaOk s.tile.handles[b.val] (bStep s.tile.handles[b.val] s.tile.mat.gb.val) = true)
    (hlooks : s.reads s ((s.tile.handles[b.val]).maskReads (bStep s.tile.handles[b.val] s.tile.mat.gb.val)) v)
    (hreads : s.reads v ((s.tile.handles[b.val]).shiftReads s.tile.mat.gb.val) u) :
    (slotMsparse b).run s.alone s = .ok u.spend {} := by
  have hne : ((s.tile.handles[b.val]).spn == 0) = false := beq_eq_false_iff_ne.mpr hn
  simp only [slotMsparse, matSlot, State.alone_pre, hv, Bool.not_true, Bool.false_eq_true, if_false, hne]
  rw [beatPrep_reads hlooks]
  simp only [hm, Bool.not_true, Bool.false_eq_true, if_false]
  rw [beatPrep_reads hreads]
  rfl

/-! ## The array -/

/-- Closing a K-group, entry by entry (R81). -/
theorem close_entry (m : Mat) (i j : Fin 64) : (m.close.acc[i])[j] = accAdd m.float (m.acc[i])[j] (m.stage[i])[j] := by
  simp [Mat.close]

theorem close_stage (m : Mat) (i j : Fin 64) : (m.close.stage[i])[j] = Machine.Num.zero := by
  simp [Mat.close, stageZero]

/-- The latch that a push uses. -/
theorem latched_cases (m : Mat) :
    m.latched = if m.pushed = 0 ∧ m.next.valid = true then { m with active := m.next, next := {} } else m := by
  simp [Mat.latched]

/-- A fold that sets one entry of a row for each element, read at one column. -/
theorem foldl_set_at (l : List BElem) (g : BElem → Option AElem) (p : Machine.Num → AElem → BElem → Machine.Num)
    (row : Vector Machine.Num 64) (j : Fin 64) :
    (l.foldl (fun (r : Vector Machine.Num 64) e =>
        match g e with
        | none => r
        | some a => r.set e.col.val (p r[e.col.val] a e)) row)[j]
      = l.foldl (fun x e => if e.col = j then ((g e).map fun a => p x a e).getD x else x) row[j] := by
  induction l generalizing row with
  | nil => rfl
  | cons e l ih =>
    rw [List.foldl_cons, List.foldl_cons, ih]
    congr 1
    cases g e with
    | none => simp
    | some a =>
      by_cases hcol : e.col = j
      · subst hcol
        simp
      · have hval : e.col.val ≠ j.val := fun h => hcol (Fin.ext h)
        simp [hcol, hval]

/-- The A elements that a push multiplies, step by step of 12. -/
theorem pushElems_get (s : State) (h : Handle) (ga pushed step i q : Nat) :
    ((List.range (12 * step)).map fun q =>
        s.aElem h (((List.range step).map fun j => h.usedPlanes (s.fetch16 h) (ga + j)).getD (q / 12) 0) pushed i (ga + q / 12)
          (q % 12))[q]?
      = if q < 12 * step then
          some (s.aElem h (h.usedPlanes (s.fetch16 h) (ga + q / 12)) pushed i (ga + q / 12) (q % 12))
        else none := by
  rw [List.getElem?_map]
  by_cases hq : q < 12 * step
  · have hstep : q / 12 < step := by omega
    simp [hq, List.getD_eq_getElem?_getD, hstep]
  · simp [hq]

/-- An entry of STAGE after a push of a handle (R79, R81, R86). -/
theorem pushStage_entry (s : State) (h : Handle) (m : Mat) (latch : Latch) (i j : Fin 64) :
    ((s.pushStage h m latch)[i])[j] =
      if i.val < h.rows then
        latch.elems.foldl (fun x e =>
          if e.col = j ∧ e.sel < 12 * latch.step then
            Machine.Num.add .rne x (pushProduct (m.pushed == 0)
              (s.aElem h (h.usedPlanes (s.fetch16 h) (m.ga.val + e.sel / 12)) m.pushed i.val (m.ga.val + e.sel / 12) (e.sel % 12))
              e.val)
          else x) (m.stage[i])[j]
      else (m.stage[i])[j] := by
  by_cases hi : i.val < h.rows
  · simp only [State.pushStage, Fin.getElem_fin, Vector.getElem_ofFn, if_neg (Nat.not_le.mpr hi), if_pos hi]
    refine (foldl_set_at latch.elems (fun e => _) (fun x a e => Machine.Num.add .rne x (pushProduct (m.pushed == 0) a e.val))
      _ j).trans ?_
    congr 1
    funext x e
    rw [pushElems_get]
    by_cases hcol : e.col = j
    · by_cases hsel : e.sel < 12 * latch.step
      · simp [hcol, hsel]
      · simp [hcol, hsel]
    · simp [hcol]
  · simp only [State.pushStage, Fin.getElem_fin, Vector.getElem_ofFn, if_pos (Nat.le_of_not_lt hi), if_neg hi]

/-- What one push adds for one element, the first push of a group or a later one. -/
theorem pushProduct_eq (n : Nat) (a : AElem) (b : Machine.Num) :
    pushProduct (n == 0) a b =
      (let x := if a.special || b.isSpecial then (if n = 0 then Machine.Num.mul a.whole b else Machine.Num.zero)
        else Machine.Num.mul a.part b
      if x.isZero then Machine.Num.zero else x) := by
  unfold pushProduct
  cases n <;> rfl

/-! ## The B latch -/

/-- An element of the latch of a dense handle (R79). -/
theorem loadLatch_dense (s : State) (h : Handle) (gb : Nat) (e : BElem) (hn : h.spn = 0) :
    e ∈ (s.loadLatch h gb).elems ↔ e.col.val < h.rows ∧ e.sel < 12
      ∧ e.val = if h.kgrp ≤ gb then Machine.Num.zero else s.bElem h gb e.col.val e.sel (12 * gb + e.sel) := by
  obtain ⟨col, sel, val⟩ := e
  simp only [State.loadLatch, hn, beq_self_eq_true, if_true, List.mem_flatMap, List.mem_filter, List.mem_finRange,
    List.mem_map, List.mem_range, BElem.mk.injEq, true_and, decide_eq_true_eq]
  constructor
  · rintro ⟨c, hc, l, hl, rfl, rfl, rfl⟩
    exact ⟨hc, hl, rfl⟩
  · rintro ⟨hc, hl, rfl⟩
    exact ⟨col, hc, sel, hl, rfl, rfl, rfl⟩

/-- A sparse step beyond the stored groups has no element. -/
theorem loadLatch_beyond (s : State) (h : Handle) (gb : Nat) (hn : h.spn ≠ 0) (ht : h.stored ≤ gb / h.step) :
    (s.loadLatch h gb).elems = [] := by
  have hne : (h.spn == 0) = false := beq_eq_false_iff_ne.mpr hn
  have hbeyond : h.stored ≤ bStep h gb := ht
  simp only [State.loadLatch, hne, Bool.false_eq_true, if_false, if_pos hbeyond]

/-- Membership in two lists zipped, by the place. -/
theorem mem_zip_range {l : List Nat} {n a b : Nat} : (a, b) ∈ l.zip (List.range n) ↔ b < n ∧ l[b]? = some a := by
  rw [List.mem_iff_getElem?]
  simp only [List.getElem?_zip_eq_some]
  constructor
  · rintro ⟨k, ha, hk⟩
    obtain ⟨hlt, hget⟩ := List.getElem?_eq_some_iff.mp hk
    rw [List.getElem_range] at hget
    rw [List.length_range] at hlt
    exact hget ▸ ⟨hlt, ha⟩
  · rintro ⟨hb, ha⟩
    exact ⟨b, ha, List.getElem?_range hb⟩

/-- An element of the latch of a sparse handle (R86). -/
theorem loadLatch_sparse (s : State) (h : Handle) (gb : Nat) (e : BElem) (hn : h.spn ≠ 0) (ht : gb / h.step < h.stored) :
    e ∈ (s.loadLatch h gb).elems ↔ e.col.val < h.rows
      ∧ ∃ p, p < 12 ∧ ((List.range h.step).flatMap fun j =>
            ((List.range 12).filter (s.maskOf h (gb / h.step * h.step + j) e.col.val).testBit).map (12 * j + ·))[p]? = some e.sel
        ∧ e.val = s.bElem h (gb / h.step) e.col.val p (12 * (gb / h.step) * h.step + e.sel) := by
  have hne : (h.spn == 0) = false := beq_eq_false_iff_ne.mpr hn
  obtain ⟨col, sel, val⟩ := e
  have hstored : ¬h.stored ≤ bStep h gb := Nat.not_le.mpr ht
  simp only [State.loadLatch, hne, Bool.false_eq_true, if_false, if_neg hstored, List.mem_flatMap,
    List.mem_filter, List.mem_finRange, List.mem_map, BElem.mk.injEq, true_and, decide_eq_true_eq, Prod.exists, mem_zip_range]
  constructor
  · rintro ⟨c, hc, x, p, ⟨hp, hx⟩, rfl, rfl, rfl⟩
    exact ⟨hc, p, hp, hx, rfl⟩
  · rintro ⟨hc, p, hp, hx, rfl⟩
    exact ⟨col, hc, sel, p, ⟨hp, hx⟩, rfl, rfl, rfl⟩

/-! ## The statement -/

/-- A push beat of a clear instruction does its halves. -/
theorem does_pushBeat {s v u : State} {i : Instr} {a b : Option HReg} {close : Bool} {m : Mat} {l : List (Nat × Nat)}
    (hx : exec i s = .next (issue1 s (slotOf i))) (hslot : slotOf i = pushBeat a b close)
    (hpass : beatTrap s s.tile a b close = none ∧ (close = true → s.tile.badAcc = 0) ∧ s.reads s (beatLooks s s.tile a b) v
      ∧ s.reads v l u)
    (hl : (a.map fun n => s.pushReads s.tile.handles[n.val] s.tile.mat).getD []
      ++ (b.map fun n => (s.tile.handles[n.val]).shiftReads s.tile.mat.gb.val).getD [] = l)
    (hm : beatMat s s.tile a b close = m) (h : Clear s i) :
    Does s i (u.spend.mapTile fun t => { t with mat := m }) := by
  obtain ⟨hok, hacc, hlooks, hreads⟩ := hpass
  subst hm
  refine does_of_run hx h (hslot ▸ pushBeat_run hok hacc hlooks ?_) rfl rfl
  rw [hl]
  exact hreads

/-- MACC of a full group runs where no accumulator row is in error. -/
theorem slotMacc_run {s : State} {n : HReg} (h0 : s.tile.mat.pushed ≠ 0) (hn : s.tile.mat.ghandle = some n)
    (hp : (s.tile.handles[n.val]).planes = s.tile.mat.pushed) :
    slotMacc.run s.alone s = match accError s.tile (BitVec.allOnes 64) with
      | some e => .trap e
      | none => okR (s.mapTile fun t => { t with mat := s.tile.mat.close }) := by
  have hne : (s.tile.mat.pushed == 0) = false := beq_eq_false_iff_ne.mpr h0
  have hfull : ((s.tile.mat.ghandle.map fun n => (s.tile.handles[n.val]).planes) != some s.tile.mat.pushed) = false := by
    simp [hn, hp]
  simp only [slotMacc, matSlot, State.alone_pre, hne, hfull, Bool.false_eq_true, if_false] <;> rfl

theorem accError_some {t : Tile} (h : t.badAcc ≠ 0) :
    accError t (BitVec.allOnes 64) = some { cause := .accumParity } := by
  have hne : (t.badAcc &&& BitVec.allOnes 64 != 0) = true := by
    rw [BitVec.and_allOnes]
    exact bne_iff_ne.mpr h
  rw [accError, if_pos hne]

/-- A row of the accumulator that is not in error. -/
theorem accError_row {t : Tile} {r : Fin 64} (h : t.badAcc.getLsbD r.val = false) : accError t (1#64 <<< r.val) = none := by
  have hzero : t.badAcc &&& (1#64 <<< r.val) = 0 := by
    apply BitVec.eq_of_getLsbD_eq
    intro k hk
    by_cases hkr : k = r.val
    · subst hkr
      simpa using h
    · simp [BitVec.getLsbD_one]
      omega
  simp [accError, hzero]

/-- A queue with a place. -/
theorem queueFull_of_lt {t : Tile} {q : QReg} (h : (t.queues[q.val]).length < 16) : t.queueFull q = false := by
  simp only [Tile.queueFull, queueSize]
  exact decide_eq_false (Nat.not_le.mpr h)

/-- The beats (R276-R278, R281). -/
theorem matrix_beats (s v u : State) (a b h : HReg) :
    let t := s.tile
    let m := t.mat
    let ha := t.handles[a.val]
    let hb := t.handles[b.val]
    let leaves := fun (i : Instr) (m : Mat) => Clear s i → Does s i (u.spend.mapTile fun u => { u with mat := m })
    let pushed := s.pushMat a ha m
    let push := s.pushReads ha m
    let shift := hb.shiftReads m.gb.val
    let passes := fun (a b : Option HReg) (close : Bool) (l : List (Nat × Nat)) =>
      beatTrap s t a b close = none ∧ (close = true → t.badAcc = 0) ∧ s.reads s (beatLooks s t a b) v ∧ s.reads v l u
    let full := m.pushed ≠ 0 ∧ m.ghandle = some h ∧ (t.handles[h.val]).planes = m.pushed
    (passes (some a) none false push → leaves (.mpush a) pushed)
    ∧ (passes (some a) (some b) false (push ++ shift) → leaves (.mpushS a b) (s.shiftMat hb pushed))
    ∧ (passes (some a) none true push → leaves (.mpushC a) pushed.close)
    ∧ (passes (some a) (some b) true (push ++ shift) → leaves (.mpushSC a b) (s.shiftMat hb pushed).close)
    ∧ (passes none (some b) false shift → leaves (.mshift b) (s.shiftMat hb m))
    ∧ (full → t.badAcc = 0 → Turns s .macc fun t => { t with mat := m.close })
    ∧ (full → t.badAcc ≠ 0 → Clear s .macc → exec .macc s = .next (s.raise t.pc { cause := .accumParity, slot := 5 }))
    ∧ Turns s .mhold id
    ∧ (hb.valid = true → hb.spn ≠ 0 → s.metaOk hb (bStep hb m.gb.val) = true →
        s.reads s (hb.maskReads (bStep hb m.gb.val)) v → s.reads v shift u →
        Clear s (.msparse b) → Does s (.msparse b) u.spend) := by
  refine ⟨fun hp hc => ?_, fun hp hc => ?_, fun hp hc => ?_, fun hp hc => ?_, fun hp hc => ?_, fun hf hacc hc => ?_,
    fun hf hacc hc => ?_, fun hc => ?_, fun hv hn hm hl hr hc => ?_⟩
  · exact does_pushBeat rfl rfl hp (List.append_nil _) rfl hc
  · exact does_pushBeat rfl rfl hp rfl rfl hc
  · exact does_pushBeat rfl rfl hp (List.append_nil _) rfl hc
  · exact does_pushBeat rfl rfl hp rfl rfl hc
  · exact does_pushBeat rfl rfl hp (List.nil_append _) rfl hc
  · obtain ⟨h0, hn, hpl⟩ := hf
    refine does_of_run rfl hc ((slotMacc_run h0 hn hpl).trans ?_) rfl rfl
    rw [accError_zero _ hacc]
    rfl
  · obtain ⟨h0, hn, hpl⟩ := hf
    refine traps_of_run (e := { cause := .accumParity }) rfl hc ((slotMacc_run h0 hn hpl).trans ?_)
    rw [accError_some hacc]
  · exact does_of_run (u := s.mapTile id) rfl hc rfl rfl rfl
  · exact does_of_run rfl hc (slotMsparse_run hv hn hm hl hr) rfl rfl

/-- Clears, cursors and drains (R279, R280). -/
theorem matrix_settings (s : State) (ga gb : Fin 4096) (r : Fin 64) (q : QReg) (f : DrainFmt) (z : Bool) :
    let m := s.tile.mat
    let sets := fun (i : Instr) (float : Bool) => Turns s i fun t =>
      { t with mat :=
        if m.float = float then { m with ga := ga, gb := gb, active := {}, next := {}, pushed := 0 }
        else { m with ga := ga, gb := gb, active := {}, next := {}, pushed := 0, float := float, acc := accZero, stage := stageZero } }
    Turns s .mzero (fun t => { t with mat := { m with acc := accZero, stage := stageZero, pushed := 0 } })
    ∧ sets (.msetFloat ga gb) true ∧ sets (.msetInt ga gb) false
    ∧ (drainOk m.float f = true → (s.tile.queues[q.val]).length < 16 → s.tile.badAcc.getLsbD r.val = false → Turns s (.mdrain r q f z) fun t =>
        let e : QEntry :=
          { tag := drainTag f, cells := drainRow m.float f rne m.acc[r.val], due := s.tile.tc + 2, arrived := false
            remote := none, failed := false }
        { t with
          queues := t.queues.set q.val (t.queues[q.val] ++ [e])
          mat := if z then { m with acc := m.acc.set r.val (Vector.replicate 64 0) } else m }) := by
  have configures (float : Bool) : s.tile.mat.configure float ga gb =
      if s.tile.mat.float = float then { s.tile.mat with ga := ga, gb := gb, active := {}, next := {}, pushed := 0 }
      else { s.tile.mat with ga := ga, gb := gb, active := {}, next := {}, pushed := 0, float := float, acc := accZero
                             stage := stageZero } := by
    simp [Mat.configure]
  refine ⟨fun hc => does_of_run rfl hc rfl rfl rfl, fun hc => ?_, fun hc => ?_, fun hok hq hr hc => ?_⟩
  · rw [← configures true]
    exact does_of_run rfl hc rfl rfl rfl
  · rw [← configures false]
    exact does_of_run rfl hc rfl rfl rfl
  · refine does_of_run rfl hc ?_ rfl rfl
    simp only [slotOf, slotMdrain, matSlot, State.alone_pre, hok, queueFull_of_lt hq, accError_row hr, Bool.not_true,
      Bool.false_eq_true, if_false]
    cases z <;> rfl

theorem advance_val (g : Fin 4096) (n : Nat) : (advance g n).val = (g.val + n) % 4096 := rfl

/-- A push of a handle, entry by entry (R79, R81, R86). -/
theorem pushMat_entry (s : State) (n : HReg) (h : Handle) (m : Mat) (i j : Fin 64) :
    let u := s.pushMat n h m
    let moves := m.pushed = 0 ∧ m.next.valid = true
    let act := if moves then m.next else m.active
    let el := fun (q : Nat) =>
      let g := m.ga.val + q / 12
      s.aElem h (h.usedPlanes (s.fetch16 h) g) m.pushed i.val g (q % 12)
    let whole := fun (a : AElem) (b : Machine.Num) => if m.pushed = 0 then Machine.Num.mul a.whole b else Machine.Num.zero
    let product := fun (a : AElem) (b : Machine.Num) =>
      let x := if a.special || b.isSpecial then whole a b else Machine.Num.mul a.part b
      if x.isZero then Machine.Num.zero else x
    let adds := fun (x : Machine.Num) (e : BElem) =>
      if e.col = j ∧ e.sel < 12 * act.step then Machine.Num.add .rne x (product (el e.sel) e.val) else x
    u.pushed = m.pushed + 1 ∧ u.active = act ∧ u.next = (if moves then {} else m.next)
    ∧ u.ghandle = (if m.pushed = 0 then some n else m.ghandle) ∧ u.ga = m.ga ∧ u.gb = m.gb ∧ u.acc = m.acc ∧ u.land = m.land
    ∧ u.float = m.float
    ∧ (u.stage[i])[j] = (if i.val < h.rows then act.elems.foldl adds (m.stage[i])[j] else (m.stage[i])[j]) := by
  dsimp only
  have hghandle : (s.pushMat n h m).ghandle = if m.pushed = 0 then some n else m.ghandle := by simp [State.pushMat]
  have hstage : (s.pushMat n h m).stage = s.pushStage h m.latched m.latched.active := rfl
  rw [hghandle, hstage, pushStage_entry]
  simp only [State.pushMat, latched_cases, pushProduct_eq]
  by_cases hmoves : m.pushed = 0 ∧ m.next.valid = true
  · simp only [if_pos hmoves, true_and]
  · simp only [if_neg hmoves, true_and]

/-- Settles O28: the beats by pushBeat_run, the array by close_entry, pushMat_entry and the three lemmas about loadLatch. -/
theorem matrixInstructions : Obligations.MatrixInstructions := by
  unfold Obligations.MatrixInstructions
  refine ⟨matrix_beats, matrix_settings, fun m i j => ?_, pushMat_entry, fun s h m e => ?_⟩
  · dsimp only
    rw [close_entry, close_stage]
    simp only [Mat.close, advance_val, accAdd, and_self]
  · have hnext : (s.shiftMat h m).next = s.loadLatch h m.gb.val := rfl
    have hgb : (s.shiftMat h m).gb = advance m.gb h.step := rfl
    dsimp only
    rw [hnext, hgb]
    refine ⟨rfl, rfl, advance_val _ _, rfl, rfl, rfl, rfl, rfl, rfl, rfl, rfl, ?_, ?_, ?_⟩
    · exact loadLatch_dense s h m.gb.val e
    · exact loadLatch_beyond s h m.gb.val
    · exact loadLatch_sparse s h m.gb.val e

end Sys2Proof

end

