-- ==== Sys2Proof/Proofs/RemoteBeats.lean ====
section
/-! SUPPORT. Remote beats (R87, R88, R282-R284): MREM, MACC.R and MSKEW. -/

namespace Sys2Proof

open Machine

/-- The three cells that MSKEW measures. -/
theorem skewCells_eq (s : State) (e : Fin 2) :
    (Vector.ofFn fun i : Fin 64 =>
      match i.val with
      | 0 => BitVec.ofNat 32 (min (Config.delay s.freeCtr) (s.tile.skewOf e))
      | 1 => BitVec.ofNat 32 (s.tile.skewOf e)
      | 2 => BitVec.ofNat 32 (s.tile.engineField e)
      | _ => 0 : Row)
    = Vector.ofFn fun i =>
        if i.val = 0 then BitVec.ofNat 32 (min (Config.delay s.freeCtr) (s.tile.skewOf e))
        else if i.val = 1 then BitVec.ofNat 32 (s.tile.skewOf e)
        else if i.val = 2 then BitVec.ofNat 32 (fld (s.tile.skew[e.val]).toNat 48 8) else 0 := by
  congr 1
  funext i
  obtain ⟨k, hk⟩ := i
  match k with
  | 0 => rfl
  | 1 => rfl
  | 2 => rfl
  | k + 3 => simp

/-- What a remote beat is sent with, in its two parts. -/
theorem sendBeat_eq (u : State) (e : Fin 2) (h : Handle) (r : Fin 64) :
    u.sendBeat e h r =
      (if u.tile.heldUp u.tile.jobCtr (h.beatFeet u.tile.jobCtr) then (u.beatLost, false, Row.zero) else u.remoteRow e h r.val,
        if u.tile.heldUp u.tile.jobCtr (h.beatFeet u.tile.jobCtr) then some ⟨h.img, r⟩ else none) := by
  unfold State.sendBeat
  split <;> rfl

/-- Settles O29: each beat runs once its checks and reads pass. -/
theorem remoteBeats : Obligations.RemoteBeats := by
  unfold Obligations.RemoteBeats
  intro s u a r e q x l
  refine ⟨fun hs hq hc => ?_, fun hs hl hc => ?_, fun hx harr hfail hfmt hrow hc => ?_, fun hv hq hc => ?_⟩
  · obtain ⟨htrap, hreads⟩ := hs
    refine does_of_run rfl hc ?_ rfl rfl
    simp only [slotOf, slotMremQueue, matSlot, State.alone_pre, htrap, queueFull_of_lt hq, Bool.false_eq_true, if_false]
    rw [beatPrep_reads hreads]
    simp only [sendBeat_eq]
    rfl
  · obtain ⟨htrap, hreads⟩ := hs
    have hland : ¬landSize ≤ (s.tile.mat.land[e.val]).length := Nat.not_le.mpr hl
    refine does_of_run rfl hc ?_ rfl rfl
    simp only [slotOf, slotMremAcc, matSlot, State.alone_pre, htrap, if_neg hland]
    rw [beatPrep_reads hreads]
    simp only [sendBeat_eq]
    rfl
  · refine does_of_run rfl hc ?_ rfl rfl
    have hmode : (!s.tile.mat.float && x.float) = false := by
      rcases hfmt with h | h <;> simp [h]
    simp only [slotOf, slotMaccR, matSlot, State.alone_pre, hx, harr, hfail, hmode, accError_row hrow, Bool.not_true,
      Bool.false_eq_true, if_false]
    rfl
  · refine does_of_run rfl hc ?_ rfl rfl
    simp only [slotOf, slotMskew, matSlot, State.alone_pre, hv, queueFull_of_lt hq, Bool.not_true, Bool.false_eq_true, if_false]
    rw [← skewCells_eq]
    rfl

end Sys2Proof

end

