-- ==== Sys2Proof/Proofs/EngineSlot.lean ====
section
/-! SUPPORT. The engine slot (R289-R312): set-up and start of copies, circuits and puts, groups, queries and the mailbox. -/

namespace Sys2Proof

open Machine

/-- A slot of a channel runs for its owner (R272). -/
theorem ownSlot_run {s : State} {ch : ChNo} {reads : List Site} {run : Ctx → State → SlotR}
    (h : s.tile.owns .core ch = true) : (ownSlot ch reads run).run s.alone s = run s.alone s :=
  if_pos h

/-- A drain of an idle channel without an error, by its owner (R298). -/
theorem State.drain_done {s v : State} {a : Agent} {ch : ChNo} (ho : s.tile.owns a ch = true)
    (he : (s.tile.chans[ch.val]).err = false) (hj : (s.tile.chans[ch.val]).jobs = [])
    (hw : s.writeBacks (s.tile.chans[ch.val]).lines = .ok v) :
    s.drain a ch = .done ((v.drainCopies ch).mapTile fun t =>
      { t with chans := t.chans.set ch.val { (t.chans[ch.val]) with lines := [] } }) := by
  simp only [State.drain, ho, he, hj, hw, List.isEmpty_nil, Bool.not_true, Bool.false_eq_true, if_false]

/-- Two counts are below their bounds. -/
theorem below_both {a b m n : Nat} (h : a < m) (k : b < n) : (decide (m ≤ a) || decide (n ≤ b)) = false := by
  simp [h, k]

/-- What a level word holds passes its checks (R293). -/
theorem nest_ok {n : Nat} {x y : Int} (h1 : 1 ≤ n) (h2 : n ≤ 65536) (hx : strideOk x = true) (hy : strideOk y = true) :
    ¬ (n = 0 || decide (65536 < n) || !strideOk x || !strideOk y) = true := by
  simp [hx, hy, Nat.not_lt.mpr h2, Nat.ne_of_gt h1]

/-- Settles O30, clause by clause of the copy channels' slots. -/
theorem copyChannels : Obligations.CopyChannels := by
  intro s u ch l k d a b j x y z ctl lv
  refine ⟨fun ho => ⟨fun hc => ?_, fun h1 h2 hy hz hc => ?_, fun hxy hc => ?_, fun v he hj hw hc => ?_⟩,
    fun hcheck hspec hlen hccp hpages hc => ?_, fun hc => ?_⟩
  · exact does_of_run rfl hc (ownSlot_run ho) rfl rfl
  · refine does_of_run rfl hc ((ownSlot_run ho).trans ?_) rfl rfl
    exact if_neg (nest_ok h1 h2 hy hz)
  · refine does_of_run rfl hc ((ownSlot_run ho).trans ?_) rfl rfl
    have hle : ¬ s.tile.sreg b ≤ s.tile.sreg a := fun h => absurd (BitVec.le_def.mp h) (Nat.not_le.mpr hxy)
    exact if_neg hle
  · refine does_of_run rfl hc ?_ rfl rfl
    simp only [slotOf, slotCpdrain, engSlotR, engSlot, State.drain_done ho he hj hw]
    rfl
  · refine does_of_run rfl hc ?_ rfl rfl
    have hfree : (decide (chanSize ≤ (s.tile.chans[ch.val]).jobs.length) || decide (ctrMax ≤ s.tile.ccp)) = false :=
      below_both hlen hccp
    simp only [slotOf, slotCpgo, engSlot, State.alone_pre, hcheck, hspec]
    rcases hpages with hp | hready
    · simp only [hp, List.isEmpty_nil, if_true]
      exact if_neg (ne_true_of_eq_false hfree)
    · rw [waitData_ready hready, ite_self]
      exact if_neg (ne_true_of_eq_false hfree)
  · exact does_of_run rfl hc rfl rfl rfl

/-! ## Circuits and puts -/

/-- A send end with room lets a row go (R301). -/
theorem sendSlot_run {s : State} {k : EndNo} {reads : List Site} {queue : Bool}
    {row : Ctx → State → (State → Row → SlotR) → SlotR} (hv : endValid (s.tile.endWord k) = true)
    (hr : endRecv (s.tile.endWord k) = false) :
    (sendSlot k reads queue row).run s.alone s = row s.alone s fun u v =>
      if sendMax ≤ s.unacked k || ctrMax ≤ s.tile.ctl then .stall s else okR (u.sendRow k v queue) :=
  if_neg (by simp [hv, hr])

/-- Fewer than 32 rows are unacknowledged and tl is below its bound. -/
theorem send_room {s : State} {k : EndNo} (hu : s.unacked k < 32) (hc : s.tile.ctl < 24) :
    (decide (sendMax ≤ s.unacked k) || decide (ctrMax ≤ s.tile.ctl)) = false :=
  below_both hu hc

/-- A row that no speculation has sent is received (R302, R155). -/
theorem State.receive_row {s : State} {k : EndNo} {r : CircRow} (h : s.tile.oldestRow k = some r) (hr : r.spec = none) :
    s.receive k = .row (s.mapTile fun t => t.takeRow k r) r := by
  simp only [State.receive, h, hr]

theorem State.receive_nothing {s : State} {k : EndNo} (h : s.tile.oldestRow k = none) : s.receive k = .nothing := by
  simp only [State.receive, h]

/-- A receive end whose scratchpad address passes (R302). -/
theorem recvSlot_run {s : State} {k : EndNo} {a : SReg} {reads : List Site} {absent : Ctx → State → SlotR}
    {done : State → SlotR} (hv : endValid (s.tile.endWord k) = true) (hr : endRecv (s.tile.endWord k) = true)
    (ha : accessCheck s.alone .spOnly 4 (s.tile.sreg a).toNat 256 = none) :
    (recvSlot k a reads absent done).run s.alone s =
      match s.receive k with
      | .nothing => absent s.alone s
      | .limit => trapR .specLimit
      | .begin _ =>
        match s.receive k with
        | .begin u => .stall u
        | .nothing => .stall s
        | .limit => .stall s
        | .row _ _ => .stall s
      | .row u r => recvStore s.alone u (s.tile.sreg a).toNat (rowBytes r.cells 64) done := by
  simp only [recvSlot, engSlot, State.alone_pre, rowSize, hv, hr, ha, Bool.not_true, Bool.or_self, Bool.false_eq_true,
    if_false] <;> rfl

/-- Outside speculation a received row is stored at once. -/
theorem recvStore_ok {s v u : State} {x : Nat} {bs : List Byte} {k : State → SlotR}
    (h : memPrep s v true [(x, x + bs.length)] = .ok u) (hu : u.tile.spec = none) :
    recvStore s.alone v x bs k = k (u.performStore x bs) := by
  simp only [recvStore, h, hu]

/-- Settles O31, clause by clause of the circuits' slots. -/
theorem circuits : Obligations.Circuits := by
  intro s u q k m d a b e l r ps x w sends gets taken hspec
  refine ⟨?_, ?_, ?_, ?_, ?_⟩
  · rintro ⟨hv, hr, hu, hctl⟩ hq he hf hc
    refine does_of_run rfl hc ?_ rfl rfl
    simp only [slotOf, slotQsend]
    rw [sendSlot_run hv hr]
    have hroom := send_room hu hctl
    simp only [popQ_got hq he hf, hroom, Bool.false_eq_true, if_false]
    rfl
  · rintro ⟨hv, hr, hu, hctl⟩ ha hm hc
    refine does_of_run rfl hc ?_ rfl rfl
    simp only [slotOf, slotCsend]
    rw [sendSlot_run hv hr]
    have hroom := send_room hu hctl
    have ha' : accessCheck s.alone .spOnly 4 (s.tile.sreg a).toNat rowSize = none := ha
    have hm' : memPrep s s false [((s.tile.sreg a).toNat, (s.tile.sreg a).toNat + rowSize)] = .ok u := hm
    simp only [State.alone_pre, ha', hm', hroom, Bool.false_eq_true, if_false]
    rfl
  · rintro ⟨hv, hr, ha⟩ hrow hrs hm hus
    have hgot := State.receive_row hrow hrs
    refine ⟨fun hc => does_of_run rfl hc ?_ rfl rfl, fun hc => does_of_run rfl hc ?_ rfl rfl⟩
    · simp only [slotOf, slotCrecv]
      rw [recvSlot_run hv hr ha, hgot]
      exact recvStore_ok hm hus
    · simp only [slotOf, slotCrecvT]
      rw [recvSlot_run hv hr ha, hgot]
      exact recvStore_ok hm hus
  · rintro ⟨hv, hr, ha⟩ hrow hc
    refine does_of_run rfl hc ?_ rfl rfl
    simp only [slotOf, slotCrecvT]
    rw [recvSlot_run hv hr ha, State.receive_nothing hrow]
    rfl
  · intro hok hloc hoff hsrc hbox hready hctl hc
    refine does_of_run rfl hc ?_ rfl rfl
    have hroom : ¬ ctrMax ≤ s.tile.ctl := by simp only [ctrMax]; omega
    simp only [slotOf, slotPutc, engSlot, State.alone_pre, hok, Bool.not_true, Bool.false_eq_true, if_false]
    have hloc' : localCheck s.tile.priv 4 (s.tile.sreg a).toNat (putLen (s.tile.sreg b)) = none := hloc
    have hoff' : s.tile.offLocal (s.tile.sreg a).toNat (putLen (s.tile.sreg b)) = false := hoff
    have hsrc' : s.sourceTrap (s.tile.sreg a).toNat (putLen (s.tile.sreg b)) = none := hsrc
    have hbox' : probeBox s .write (s.tile.sreg d).toNat ((s.tile.sreg d).toNat + (putLen (s.tile.sreg b) : Int)) =
        .ok (u, ps) := by
      rw [← Int.natCast_add]
      exact hbox
    simp only [hloc', hoff', hsrc', Option.map_none, Option.getD_none, hbox', Bool.false_eq_true, if_false]
    rw [waitData_ready hready]
    simp only [hspec, hroom, if_false]
    rfl

/-! ## Groups -/

/-- A group's number fits its field (R304). -/
theorem fld_group_high {v : Word} (h : v.toNat < 65536) : (fld v.toNat 16 48 != 0) = false := by
  simp only [fld, bne_eq_false_iff_eq]
  omega

/-- Settles O32, clause by clause of the groups' slots. -/
theorem groups : Obligations.Groups := by
  intro s k d a b v g u
  refine ⟨fun hv hm hj hc => ?_, fun ht hs hctl hc => ?_, fun hc => does_of_run rfl hc rfl rfl rfl,
    fun hc => does_of_run rfl hc rfl rfl rfl⟩
  · refine does_of_run rfl hc ?_ rfl rfl
    have hm' : (s.member (groupOf (s.tile.sreg a))).isNone = false := by
      rw [← Option.not_isSome, show (s.member (groupOf (s.tile.sreg a))).isSome = true from hm]
      rfl
    have hj' : (s.tile.task.any fun x => x.joined.contains (groupOf (s.tile.sreg a))) = false := hj
    simp only [slotOf, slotGjoin, engSlotR, engSlot, State.alone_pre, hm', hj', Bool.false_eq_true, if_false]
    exact if_neg (ne_true_of_eq_false (fld_group_high hv))
  · refine does_of_run rfl hc ?_ rfl rfl
    have hroom : ¬ ctrMax ≤ s.tile.ctl := by simp only [ctrMax]; omega
    have ht' : gredTrap s.alone s k (s.tile.sreg a).toNat (s.tile.sreg d).toNat (s.tile.sreg b) = none := ht
    simp only [slotOf, slotGred, engSlot, State.alone_pre, ht', hs, hroom, if_false]
    rfl

/-! ## Queries and the mailbox -/

/-- A ring number below 8 names a ring (R308). -/
theorem slotRingQuery_run {s : State} {p : PReg} {n : RingNo} {d : SReg} {i : Fin 8} (h : n.val = i.val) :
    (slotRingQuery p n d).run s.alone s = .ok (s.mapTile fun t =>
      (t.write (.sreg d) (s.tile.rings[i.val]).desc).write (.pred p) (boolWord (s.tile.rings[i.val]).valid)) {} := by
  simp only [slotRingQuery, engSlot, State.alone_pre, h, i.isLt, dif_pos]
  rfl

theorem agentNo_eq {n : Nat} {b : Fin 3} (h : n = b.val) : agentNo n = some b := by
  subst h
  exact dif_pos b.isLt

/-- Settles O34, clause by clause of the queries' slots. -/
theorem queries : Obligations.Queries := by
  intro s u p n h d a k box v l x hd ready
  refine ⟨fun i hi hc => does_of_run rfl hc (slotRingQuery_run hi) rfl rfl, fun hv hn hc => ?_, fun hv hn hr hready hc => ?_,
    fun hready hc => ?_, fun hc => does_of_run rfl hc rfl rfl rfl, fun hk hlen hc => ?_, fun hm => ⟨fun hc => ?_, fun hc => ?_⟩,
    fun hm hc => ?_⟩
  · refine does_of_run rfl hc ?_ rfl rfl
    have hv' : (s.tile.handles[h.val]).valid = true := hv
    have hn' : ((s.tile.handles[h.val]).spn == 0) = true := beq_iff_eq.mpr hn
    simp only [slotOf, slotSpxStat, engSlot, State.alone_pre, hv', hn', Bool.not_true, Bool.false_eq_true, if_false, if_true]
    rfl
  · refine does_of_run rfl hc ?_ rfl rfl
    have hv' : (s.tile.handles[h.val]).valid = true := hv
    have hn' : ((s.tile.handles[h.val]).spn == 0) = false := beq_eq_false_iff_ne.mpr hn
    simp only [slotOf, slotSpxStat, engSlot, State.alone_pre, hv', hn', Bool.not_true, Bool.false_eq_true, if_false]
    rw [beatPrep_reads hr, waitData_ready hready]
    show (match s.badMask s.tile.handles[h.val] with | none => _ | some w => _) = _
    cases s.badMask s.tile.handles[h.val] <;> rfl
  · refine does_of_run rfl hc ?_ rfl rfl
    simp only [slotOf, slotProbe, engSlot]
    rw [waitData_ready hready]
    rfl
  · refine does_of_run rfl hc ?_ rfl rfl
    have hroom : ¬ mbxSize ≤ (s.tile.mbx[box.val]).length := by simp only [mbxSize]; omega
    simp only [slotOf, slotMbxs, engSlotR, engSlot, State.alone_pre, agentNo_eq hk, hroom, if_false]
    rfl
  · refine does_of_run rfl hc ?_ rfl rfl
    simp only [slotOf, slotMbxr, engSlotR, engSlot, hm] <;> rfl
  · refine does_of_run rfl hc ?_ rfl rfl
    simp only [slotOf, slotMbxrT, engSlotR, engSlot, hm] <;> rfl
  · refine does_of_run rfl hc ?_ rfl rfl
    simp only [slotOf, slotMbxrT, engSlotR, engSlot, hm] <;> rfl

end Sys2Proof
end

