-- ==== Sys2Proof/Proofs/LoaderStorerCustom.lean ====
section
/-! SUPPORT. The custom instructions of the loader and storer cores (R273): each ends by moving its core's pc by 4. -/

namespace Sys2Proof

open Machine

/-- An instruction of R273 that has an effect moves its core's pc. -/
theorem vlEnd_ok {s u : State} {g : LsAgent} {f : LsAgent → State → LsR} (hg : s.lsTurn = g) (hf : f g s = .ok u none) :
    s.vlEnd f = u.mapLs g fun q => { q with pc := q.pc + 4, flagged := 0 } := by
  simp only [State.vlEnd, hg, hf]
  rfl

/-- A declared ring is the one that the instruction goes on with. -/
theorem lsRing_named {s : State} {g : LsAgent} {a : XReg} {n : Fin 8} {k : Fin 8 → LsR}
    (h : s.tile.ringNo (s.xreg g a).toNat = some n) : lsRing g s a k = k n := by
  simp only [lsRing, h]

/-- A slot that is got gives its word. -/
theorem lsGet_got {s : State} {g : LsAgent} {d a : XReg} {n : Fin 8} {k : Fin 16} {t : Tile} {f : Tile → Owner → Fin 8 → RingR}
    (h : s.tile.ringNo (s.xreg g a).toNat = some n) (hf : f s.tile (lsOwner g) n = .got k t) :
    lsGet g s d a f = .ok (({ s with tile := t } : State).mapLs g fun q => q.setReg d (lsSlotWord t n k)) none := by
  rw [lsGet, lsRing_named h]
  simp only [hf]

/-- The half of a setup word that an instruction names is replaced. -/
theorem putHalf_eq (w : Word) (h : Nat) (v : RvWord) :
    putHalf w (h % 2 == 1) v = if h % 2 = 1 then BitVec.ofNat 64 (v.toNat * 2 ^ 32 + w.toNat % 2 ^ 32)
      else BitVec.ofNat 64 (w.toNat / 2 ^ 32 * 2 ^ 32 + v.toNat) := by
  by_cases hh : h % 2 = 1 <;> simp [putHalf, hh]

/-- A drain of an idle channel without an error, by its owner (R298). -/
theorem lsCpdrain_done {s v : State} {g : LsAgent} {a : XReg} (ho : s.tile.owns (lsAgentOf g) (lsChan (s.xreg g a)) = true)
    (he : (s.tile.chans[(lsChan (s.xreg g a)).val]).err = false) (hj : (s.tile.chans[(lsChan (s.xreg g a)).val]).jobs = [])
    (hw : s.writeBacks (s.tile.chans[(lsChan (s.xreg g a)).val]).lines = .ok v) :
    lsCpdrain g a s = (.ok ((v.drainCopies (lsChan (s.xreg g a))).mapTile fun t =>
      { t with chans := t.chans.set (lsChan (s.xreg g a)).val { (t.chans[(lsChan (s.xreg g a)).val]) with lines := [] } }) none,
      s) := by
  simp only [lsCpdrain, State.drain_done ho he hj hw]

/-- Settles O35, instruction by instruction. -/
theorem loaderStorer : Obligations.LoaderStorer := by
  intro s u g d a b n k h ch box t j v l own x c ends gives half w hg
  have hends {i : Instr} {f : LsAgent → State → LsR} {u : State} (hx : exec i s = .next (s.vlEnd f)) (hf : f g s = .ok u none) :
      ends i u := hx.trans (congrArg _ (vlEnd_ok hg hf))
  refine ⟨fun hn => ⟨fun ha => hends rfl (lsGet_got hn ha), fun ht => hends rfl (lsGet_got hn ht),
      fun hk => ⟨fun hp => hends rfl ?_, fun hf hcopy => hends rfl ?_⟩, hends rfl (lsRing_named hn)⟩,
    fun ho => hends rfl ?_, fun hcheck hlen hccp => hends rfl ?_, fun v ho he hj hw => ?_, fun hbox hlen => hends rfl ?_,
    fun hm => hends rfl ?_, hends rfl rfl⟩
  · rw [lsRpub, lsRing_named hn]
    simp only [hk, show s.tile.mayPublish (lsOwner g) n k = true from hp, if_true]
  · have hf' : s.tile.mayFree (lsOwner g) n k = true := hf
    rw [lsRfree, lsRing_named hn]
    simp only [hk, hf', hcopy, Bool.not_true, Bool.false_eq_true, if_false]
  · rw [lsCpset]
    simp only [ho, Bool.not_true, Bool.false_eq_true, if_false, putHalf_eq] <;> rfl
  · rw [lsCpgo]
    simp only [show copyChecks s (lsAgentOf g) (lsChan (s.xreg g a)) s.tile.setup[(lsChan (s.xreg g a)).val] = _ from hcheck]
    exact if_neg (ne_true_of_eq_false (below_both hlen hccp))
  · show Host.Outcome.next (lsEnd s.lsTurn 4 (lsCpdrain s.lsTurn a s).2 (lsCpdrain s.lsTurn a s).1) = _
    rw [hg, lsCpdrain_done ho he hj hw]
    rfl
  · rw [lsMbxs, agentNo_eq (show (s.xreg g a).toNat = box.val from hbox)]
    exact if_neg (by simp only [mbxSize]; omega)
  · rw [lsMbxr]
    simp only [hm]

end Sys2Proof
end

