-- ==== Sys2Proof/Proofs/Predictions.lean ====
section
/-! SUPPORT. PRED beside a slot that an earlier PRED has predicted (R148, R178). -/

namespace Sys2Proof

open Machine

/-- A task that may speculate on a tile whose declared, predictable ring of two slots has a full slot at CIDX, behind which a PRED
has predicted the next one. -/
def predictedBehind : State :=
  State.reset.mapTile fun t =>
    { t with
      task := some { (default : Task) with mayspec := true }
      rings := t.rings.set 0 { valid := true, pred := true, nslot := 1, st := (Vector.replicate 16 .empty).set 0 .full }
      ahead := some (0, 1) }

theorem clear_predictedBehind : Clear predictedBehind (.pred 1 0) :=
  clear_of (by decide +kernel) (by decide +kernel) (by decide +kernel)

/-- Refutes O33: where a PRED has predicted the slot behind the full one that PRED takes, CIDX passes both (R148, R178), so that it
is not the next index but the one after it. -/
theorem not_predictions : ¬ Obligations.Predictions := fun h => by
  have hs := (h predictedBehind 1 0 0 0 ⟨0, {}, 0, none, 0, true, 0, 0, false, false, 0, none, [], [], [], [], [], [], none⟩
    { id := 0, rcb := 0, home := 0, part := 0, ntiles := 0, tmap := Vector.replicate 16 0 }).1 (by decide +kernel) (by decide +kernel) (by decide +kernel)
    clear_predictedBehind
  have hi := congrArg ringIndex hs
  revert hi
  decide +kernel

end Sys2Proof
end

