-- ==== Sys2Proof/Proofs/TileLandings.lean ====
section
/-! SUPPORT. What lands at a tile beside its bundles (R225, R315, R83, R88, R69, R263). -/

namespace Sys2Proof

open Machine

/-- The oldest flight that is due lands. -/
theorem Machine.Tile.resultLand_oldest {t : Tile} {a b : List Flight} {f : Flight} (h : t.flights = a ++ f :: b)
    (ha : ∀ g, g ∈ a → t.tc < g.due) (hf : f.due ≤ t.tc) :
    t.resultLand = { (t.landFlight f) with flights := a ++ b } := by
  have hlate : ∀ g ∈ a, decide (g.due ≤ t.tc) = false := fun g hg => decide_eq_false (Nat.not_le.mpr (ha g hg))
  simp only [Tile.resultLand, h, find_first _ a b f hlate (decide_eq_true hf),
    erase_first (fun g : Flight => decide (g.due ≤ t.tc)) a b f hlate (decide_eq_true hf)]

/-- The oldest counted operation that is due is complete. -/
theorem Machine.Tile.opComplete_oldest {t : Tile} {a b : List PendOp} {o : PendOp} (h : t.ops = a ++ o :: b)
    (ha : ∀ p, p ∈ a → t.tc < p.due) (ho : o.due ≤ t.tc) :
    t.opComplete = { (t.uncount o.ctr) with ops := a ++ b } := by
  have hlate : ∀ p ∈ a, decide (p.due ≤ t.tc) = false := fun p hp => decide_eq_false (Nat.not_le.mpr (ha p hp))
  simp only [Tile.opComplete, h, find_first _ a b o hlate (decide_eq_true ho),
    erase_first (fun p : PendOp => decide (p.due ≤ t.tc)) a b o hlate (decide_eq_true ho)]

theorem Machine.QEntry.arrive_eq (now : Nat) (e : QEntry) :
    e.arrive now = if e.remote = none ∧ e.due ≤ now then { e with arrived := true } else e := by
  simp [QEntry.arrive]

/-! ## Fills -/

/-- No byte of a range is in error. -/
theorem State.badAt_none {s : State} {a n : Nat} (h : ∀ k, a ≤ k → k < a + n → s.bad.contains k = false) :
    s.badAt a n = none := by
  unfold State.badAt
  split
  · rfl
  · simp only [List.find?_eq_none, List.mem_map, List.mem_range]
    rintro _ ⟨i, hi, rfl⟩
    rw [h (a + i) (by omega) (by omega)]
    decide

/-- The first byte of a range in error is found. -/
theorem State.badAt_first {s : State} {a n k : Nat} (h1 : a ≤ k) (h2 : k < a + n) (hk : s.bad.contains k = true)
    (hfirst : ∀ i, a ≤ i → i < k → s.bad.contains i = false) : s.badAt a n = some k := by
  have hne : s.bad.isEmpty = false := by
    cases hb : s.bad with
    | nil => simp [hb] at hk
    | cons x l => rfl
  have hfind : (List.range n).find? (s.bad.contains ∘ (a + ·)) = some (k - a) := by
    rw [List.find?_range_eq_some]
    refine ⟨by simpa [Nat.add_sub_cancel' h1] using hk, List.mem_range.mpr (by omega), fun j hj => ?_⟩
    simpa using hfirst (a + j) (by omega) (by omega)
  simp only [State.badAt, hne, Bool.false_eq_true, if_false, List.find?_map, hfind, Option.map_some, Nat.add_sub_cancel' h1]

/-- The state once the fills a ++ b are all that is left. -/
def Machine.State.leftFills (s : State) (l : List Fill) : State := s.mapTile fun t => { t with fills := l }

/-- The oldest fill that is due returns, or faults. -/
theorem Machine.State.fillReturn_oldest {s : State} {a b : List Fill} {f : Fill} (h : s.tile.fills = a ++ f :: b)
    (ha : ∀ g, g ∈ a → s.tile.tc < g.due) (hf : f.due ≤ s.tile.tc) :
    s.fillReturn = match (s.leftFills (a ++ b)).fillCut f with
      | some i => (s.leftFills (a ++ b)).fillFault f i
      | none => (((s.leftFills (a ++ b)).fillBytes f).countFor f.part f.va ⟨f.spa, f.leaf⟩).mapTile fun t =>
        let t := t.fillLine (spaClass s f.spa).bit f
        if f.who == .core then { t with filled := ((f.entry, f.line), f.ready) :: t.filled } else t := by
  have hlate : ∀ g ∈ a, decide (g.due ≤ s.tile.tc) = false := fun g hg => decide_eq_false (Nat.not_le.mpr (ha g hg))
  have herase : s.tile.fills.eraseP (fun g => decide (g.due ≤ s.tile.tc)) = a ++ b := by
    rw [h]
    exact erase_first _ a b f hlate (decide_eq_true hf)
  have hleft : (s.mapTile fun t => { t with fills := t.fills.eraseP fun g => decide (g.due ≤ t.tc) }) = s.leftFills (a ++ b) := by
    simp only [State.mapTile, State.leftFills, herase]
  have hfind : s.tile.fills.find? (fun g => decide (g.due ≤ s.tile.tc)) = some f := by
    rw [h]
    exact find_first _ a b f hlate (decide_eq_true hf)
  simp only [State.fillReturn, hfind, hleft] <;> rfl

/-- The bytes of a list that lie outside a line. -/
def outsideLine (a : Nat) (l : List Host.Cell) : List Host.Cell := l.filter fun p => decide (p.1 < a ∨ a + 256 ≤ p.1)

/-- The bytes that a handle still sees as they were are those outside the line of the fill. -/
theorem Machine.State.fillBytes_eq (s : State) (f : Fill) :
    s.fillBytes f =
      (s.spRaw ((s.tile.maps[f.entry.val]).lo + 256 * f.line) (s.mem.bytes f.spa 256)).mapTile fun t =>
        { t with handles := t.handles.map fun h =>
          { h with undo := h.undo.map (outsideLine ((s.tile.maps[f.entry.val]).lo + 256 * f.line)) } } := by
  have hout (p : Host.Cell) (a : Nat) : (!(decide (a ≤ p.1) && decide (p.1 < a + 256))) = decide (p.1 < a ∨ a + 256 ≤ p.1) := by
    rw [← Bool.decide_and, ← decide_not, decide_eq_decide]
    omega
  simp only [State.fillBytes, hout]
  rfl

/-- A fill whose home can be reached meets what its bytes hold in error. -/
theorem Machine.State.fillCut_reached {s : State} {l : List Fill} {f : Fill} (h : s.cutOff f.part f.spa = none) :
    (s.leftFills l).fillCut f =
      (s.badAt f.spa 256).map fun k => { cause := .machineCheck, slot := 4, val := line64 k } := by
  have h' : (s.leftFills l).cutOff f.part f.spa = none := h
  simp only [State.fillCut, h'] <;> rfl

/-! ## Write-backs -/

/-- A dirty line of a valid entry is written back as Valoc's own write-back does. -/
theorem spontaneousWriteback_dirty {s : State} {n : MapNo} {line : Fin 8192} {x : WinLine} (hv : (s.tile.maps[n.val]).valid = true)
    (hl : (s.tile.maps[n.val]).line line.val = some x) (hx : x.mask ≠ 0) :
    exec (.spontaneousWriteback n line) s = .next (s.ownWriteBack n line.val) := by
  refine if_pos ?_
  simp only [hv, hl, Option.any_some, bne_iff_ne.mpr hx, Bool.and_self]

/-- Settles O36, event by event. -/
theorem tileLandings : Obligations.TileLandings := by
  intro s fa fb f oa ob o q e wa wb w n line x t row entered landed feet m old fetched
  refine ⟨fun hfl hlate hdue => ?_, fun hops hlate hdue => ?_, ?_, ?_, fun hticks hfills hlate hdue hcut => ?_,
    fun hv hl hx => ?_⟩
  · exact congrArg (fun t => Host.Outcome.next ({ s with tile := t } : State)) (Tile.resultLand_oldest hfl hlate hdue)
  · exact congrArg (fun t => Host.Outcome.next ({ s with tile := t } : State)) (Tile.opComplete_oldest hops hlate hdue)
  · simp only [exec, execDrainEntryArrive, State.mapTile, Tile.drainArrive, QEntry.arrive_eq]
  · rfl
  · have hrun : exec .windowFillReturn s = .next s.fillReturn := congrArg Host.Outcome.next (if_pos hticks)
    rw [hrun, Machine.State.fillReturn_oldest hfills hlate hdue, Machine.State.fillCut_reached hcut]
    refine ⟨fun hsound => ?_, fun k h1 h2 hk hfirst hwho htask hstop hend => ?_⟩
    · rw [State.badAt_none hsound]
      simp only [Option.map_none, Machine.State.fillBytes_eq, beq_iff_eq] <;> rfl
    · rw [State.badAt_first h1 h2 hk hfirst]
      have htask' : s.tile.task.isNone = false := by rw [← Option.not_isSome, htask]; rfl
      simp only [Option.map_some, State.fillFault, hwho]
      refine congrArg Host.Outcome.next (if_neg ?_)
      simp [State.leftFills, State.mapTile, htask', hstop, hend, t]
  · rw [spontaneousWriteback_dirty hv hl hx]
    exact ⟨fun u hu => by rw [State.ownWriteBack, hu], fun u hu => by rw [State.ownWriteBack, hu]⟩

end Sys2Proof
end

