-- ==== Sys2Proof/Proofs/CopySteps.lean ====
section
/-! SUPPORT. The steps of a copy job: it fires (R62, R296), ends (R296, R297), and the drop of a TLB entry (R380). -/

namespace Sys2Proof

open Machine

/-- What a job takes of its source ring as it fires (R62). -/
def FireTakes (j : CopyJob) (c : ChNo) (t u : Tile) (k : Option (Fin 16)) : Prop :=
  match j.src.ring with
  | none => u = t ∧ k = none
  | some n => ∃ i, t.take (.chan c) n = .got i u ∧ k = some i

/-- What a job acquires of its destination ring as it fires. -/
def FireGets (j : CopyJob) (c : ChNo) (u v : Tile) (k : Option (Fin 16)) : Prop :=
  match j.dst.ring with
  | none => v = u ∧ k = none
  | some n => ∃ i, u.acquire (.chan c) n = .got i v ∧ k = some i

/-- The oldest job fires where nothing is in its way. -/
theorem Machine.State.fireCopy_free {s : State} {c : ChNo} {j : CopyJob} {l : List CopyJob} {u v : Tile} {ki ko : Option (Fin 16)}
    (hj : (s.tile.chans[c.val]).jobs = j :: l) (hf : j.fired = false) (he : (s.tile.chans[c.val]).err = false)
    (hheld : s.tile.heldUp j.id (j.feet ++ j.src.placed s.tile j.id (j.derived j.src.base (·.sstr)) false
      ++ j.dst.placed s.tile j.id (j.derived j.dst.base (·.dstr)) true) = false)
    (hslots : j.slots s.tile c = .ok) (ht : FireTakes j c s.tile u ki) (hg : FireGets j c u v ko) :
    s.fireCopy c = some { s with tile := { v with
      chans := v.chans.set c.val { (s.tile.chans[c.val]) with
        jobs := { j with fired := true, inSlot := ki, outSlot := ko,
                         due := s.tile.tc + ({ j with fired := true, inSlot := ki, outSlot := ko } : CopyJob).time v } :: l }
      feet := v.feet ++ j.src.placed s.tile j.id (j.derived j.src.base (·.sstr)) false
        ++ j.dst.placed s.tile j.id (j.derived j.dst.base (·.dstr)) true } } := by
  have hlater : (Verdict.ok == .later) = false := rfl
  have hbad : (Verdict.ok == .bad) = false := rfl
  unfold FireTakes at ht
  unfold FireGets at hg
  simp only [State.fireCopy, hj, hf, he, hheld, hslots, hlater, hbad, Bool.or_self, Bool.false_eq_true, if_false]
  cases hs : j.src.ring with
  | none =>
    simp only [hs] at ht
    obtain ⟨rfl, rfl⟩ := ht
    cases hd : j.dst.ring with
    | none =>
      simp only [hd] at hg
      obtain ⟨rfl, rfl⟩ := hg
      rfl
    | some m =>
      simp only [hd] at hg
      obtain ⟨i, hi, rfl⟩ := hg
      simp only [hi]
  | some n =>
    simp only [hs] at ht
    obtain ⟨i, hi, rfl⟩ := ht
    cases hd : j.dst.ring with
    | none =>
      simp only [hd] at hg
      obtain ⟨rfl, rfl⟩ := hg
      simp only [hi]
    | some m =>
      simp only [hd] at hg
      obtain ⟨i', hi', rfl⟩ := hg
      simp only [hi, hi']

/-- A running job whose time has come and whose windows have their lines ends (R69, R296). -/
theorem Machine.State.copyDone_due {s : State} {c : ChNo} {j : CopyJob} {l : List CopyJob} (hj : (s.tile.chans[c.val]).jobs = j :: l)
    (hf : j.fired = true) (hdue : j.due ≤ s.tile.tc) (hw : j.windows s c = .ok s) (hcut : s.copyCut j = none) :
    s.copyDone c = match s.copyMeets j with
      | some k => s.failCopy c j k
      | none => if j.kept s.tile then s else s.finishCopy c j := by
  have hrun : (j.fired && decide (j.due ≤ s.tile.tc)) = true := by simp [hf, hdue]
  simp only [State.copyDone, hj, hrun, if_true, State.endCopy, hw, hcut] <;> cases s.copyMeets j <;> rfl

/-- Settles O37, event by event. -/
theorem copySteps : Obligations.CopySteps := by
  intro s c j l u v ki ko elem cl tn i t x px py takes gets fills empties fails hj
  refine ⟨fun hf he hheld hslots ht hg => ?_, fun hf hdue hw hcut hkept hmeets => ?_, fun hf helem => ?_,
    fun hf hdue hw hcut hmeets => ?_, rfl, rfl, rfl⟩
  · have hfire := Machine.State.fireCopy_free hj hf he hheld hslots ht hg
    exact congrArg (fun o : Option State => Host.Outcome.next (o.getD s)) hfire
  · refine congrArg Host.Outcome.next ((Machine.State.copyDone_due hj hf hdue hw hcut).trans ?_)
    have hkept' : j.kept s.tile = false := hkept
    simp only [hmeets, hkept', Bool.false_eq_true, if_false]
    rfl
  · refine congrArg Host.Outcome.next ?_
    have hrun : (j.fired && decide (elem < j.count)) = true := by simp [hf, helem]
    have hj' : (s.tile.chans[c.val]).jobs = j :: l := hj
    simp only [State.copyError, hj', hrun, if_true]
    rfl
  · refine congrArg Host.Outcome.next ((Machine.State.copyDone_due hj hf hdue hw hcut).trans ?_)
    rw [hmeets]
    rfl

end Sys2Proof
end

