-- ==== Sys2Proof/Proofs/HistoryUnderWindow.lean ====
section
/-! SUPPORT. The history copy of a ring whose H2 lies under a window without WR (R147, R69): the predictor's preparation passes
the refused write over, and the write has no effect. -/

namespace Sys2Proof

open Machine

/-- An access that touches no window is made. -/
theorem winPrep_outside {who : Owner} {s : State} {write : Bool} {x : Nat × Nat} (h : s.tile.winLines x.1 x.2 = []) :
    winPrep who s s write [x] = .ok s := by
  cases write <;> simp [winPrep, h, State.fillLines]

/-- An access that touches no window is passed by the predictor's preparation. -/
theorem predPrep_outside {s : State} {write : Bool} {x : Nat × Nat} {l : List (Bool × Nat × Nat)}
    (h : s.tile.winLines x.1 x.2 = []) : s.predPrep ((write, x) :: l) = s.predPrep l := by
  simp only [State.predPrep, winPrep_outside h, Prep.sound]

/-- A write under a window without WR is passed over. -/
theorem predPrep_shut {s : State} {x : Nat × Nat} {l : List (Bool × Nat × Nat)} (hr : regionOf x.1 = .sp)
    (h : (s.tile.winLines x.1 x.2).any (fun q => !(s.tile.maps[q.1.val]).wr) = true) :
    s.predPrep ((true, x) :: l) = s.predPrep l := by
  have hw : winPrep .predictor s s true [x] = .trap { cause := .mapEntry, slot := 4, val := BitVec.ofNat 64 x.1 } := by
    simp only [winPrep, if_true, List.find?_cons, hr, beq_self_eq_true, Bool.true_and, h]
  simp only [State.predPrep, hw, Prep.sound]

/-- A ring with a history copy due, its H1 holding a byte 1, its H2 under a window without WR. -/
def historyShut : State :=
  let s := State.reset.mapTile fun t =>
    { t with
      rings := t.rings.set 0 { valid := true, pred := true, base := 1, hist := [(0, 0)] }
      maps := t.maps.set 0 { img := BitVec.ofNat 128 (2 ^ 127 + 2 ^ 113) } }
  { s with mem := s.mem.put (spKey 0 0 192) [1] }

theorem historyPrep_historyShut : historyShut.historyPrep 0 = .ok historyShut := by
  have hprep : historyShut.historyPrep 0 =
      historyShut.predPrep [(false, 192, 256), (false, 64, 128), (true, 256, 320), (true, 192, 256)] := rfl
  rw [hprep, predPrep_outside (by decide +kernel), predPrep_outside (by decide +kernel),
    predPrep_shut (by decide +kernel) (by decide +kernel), predPrep_outside (by decide +kernel)]
  rfl

/-- The byte of H2 in an outcome's state. -/
def byteOfH2 (o : Host.Outcome State Fault Refusal) : Option Byte :=
  match o with
  | .next u => some (u.spByte 256)
  | .fault _ | .refused _ => none

/-- Refutes O38: where H2 lies under a window without WR, the step's preparation passes and its write of H2 has no effect, so that H1
does not move to H2. -/
theorem not_speculationSteps : ¬ Obligations.SpeculationSteps := fun h => by
  have hs := (h.1 historyShut 0 (0, 0) [] ⟨0, {}, 0, none, 0, true, 0, 0, false, false, 0, none, [], [], [], [], [], [], none⟩).1
    (by decide +kernel) (by decide +kernel) historyPrep_historyShut
  have hb := congrArg byteOfH2 hs
  revert hb
  decide +kernel

end Sys2Proof
end

