-- ==== Sys2Proof/Proofs/TimingAndBlocks.lean ====
section
/-! SUPPORT. Replay, droop, watchdog, faults of the loader and storer, waiters that are served, and block starts (R322-R325, R321,
R400, R391, R24, R25). -/

namespace Sys2Proof

open Machine

/-- A flagged bundle below the eighth flag in a row is replayed (R322). -/
theorem Machine.State.replayCore_flagged {s : State} (h : s.issuing = true) (hf : s.tile.flagged < 7) :
    s.replayCore = ((s.countReplay false).logReplay).mapTile fun t =>
      { t with
        tc := t.tc + (if t.reissue then 4 else 3), replays := t.replays + 1, flagged := t.flagged + 1, reissue := true } := by
  have hstorm : ¬ stormAt ≤ s.tile.flagged + 1 := by simp only [stormAt]; omega
  simp only [State.replayCore, h, hstorm, Bool.not_true, Bool.false_eq_true, if_false]

/-- The eighth flag in a row is a storm (R324). -/
theorem Machine.State.replayCore_storm {s : State} (h : s.issuing = true) (hf : 7 ≤ s.tile.flagged) :
    s.replayCore = ((s.countReplay true).mapTile fun t => { t with tc := t.tc + 1 }).raise s.tile.pc { cause := .replayStorm } := by
  have hstorm : stormAt ≤ s.tile.flagged + 1 := by simp only [stormAt]; omega
  simp only [State.replayCore, h, hstorm, Bool.not_true, Bool.false_eq_true, if_false, if_true]

/-- A flagged instruction of a loader or storer core is replayed (R324). -/
theorem Machine.State.replayLs_flagged {s : State} {g : LsAgent} (hticks : s.cluster.ticks = true) (h : s.lsIssues g = true)
    (hf : (s.tile.ls g).flagged < 7) :
    s.replayLs g = (s.countReplay false).mapLs g fun c => { c with flagged := c.flagged + 1, hold := 4 } := by
  have hstorm : ¬ stormAt ≤ (s.tile.ls g).flagged + 1 := by simp only [stormAt]; omega
  simp only [State.replayLs, hticks, h, hstorm, Bool.not_true, Bool.or_self, Bool.false_eq_true, if_false]

/-- The first waiter on a semaphore whose counts are there is served (R25). -/
theorem Machine.State.servable_first {s : State} {c : ClusterNo} {k : SemNo} {w : Waiter} {l : List Waiter}
    (hw : (s.clusters[c.val]).waiters = w :: l) (hcall : w.called = false) (hk : ∃ n, (k, n) ∈ w.takes)
    (hholds : (s.clusters[c.val]).holds w.takes = true) (hgo : s.canGo w.tile = true) : s.servable c k = some w := by
  obtain ⟨n, hn⟩ := hk
  have hany : (w.takes.any fun p => p.1 == k) = true := List.any_eq_true.mpr ⟨(k, n), hn, beq_self_eq_true k⟩
  simp only [State.servable, hw, State.nextServed, hcall, hany, hgo, State.inTurn, hholds, List.any_nil, Bool.not_false,
    Bool.and_self, if_true]

/-- A block start that the clock, the task and the descriptor allow (R24). -/
theorem blockStart_here {s : State} {x : Task} (hticks : s.cluster.ticks = true) (ht : s.tile.task = some x)
    (he : s.tile.ending = none) (hs : s.tile.stopped = false) (hd : isDescriptor s.tile.pc (s.codeWord s.tile.pc) = true) :
    exec .blockStart s = .next s.startBlock := by
  refine if_neg ?_
  simp only [hticks, ht, he, hs, hd, Option.isNone_some, Option.isSome_none, Bool.not_true, Bool.or_self]
  exact Bool.false_ne_true

/-- A speculation without a fault defers nothing (R154). -/
theorem Machine.Tile.deferred_none {t : Tile} (h : ∀ p, t.spec = some p → p.fault = none) : t.deferred = none := by
  cases hs : t.spec with
  | none => simp only [Tile.deferred, hs, Option.filter_none]
  | some p => simp [Tile.deferred, hs, Option.filter, h p hs]

/-- A bundle that has stalled for longer than WDOG is due (R400). -/
theorem Machine.State.watchdogDue_stalled {s : State} {x : Task} {t0 : Nat} (hticks : s.cluster.ticks = true)
    (ht : s.tile.task = some x) (he : s.tile.ending = none) (hgo : s.tile.stopped = false ∨ s.tile.grace = true)
    (hstall : s.tile.stallSince = some t0) (hl : fld (s.fdWord 5) 0 32 ≠ 0)
    (hlt : fld (s.fdWord 5) 0 32 < s.time.toNat - t0) : s.watchdogDue = true := by
  have hstop : (s.tile.stopped && !s.tile.grace) = false := by rcases hgo with h | h <;> simp [h]
  simp [State.watchdogDue, hticks, ht, he, hstop, hstall, hl, hlt]

/-- A block without waits starts at once (R24). -/
theorem Machine.State.startBlock_plain {s : State} {d : Descriptor} (hrel : s.tile.releasing = none)
    (hfault : ∀ p, s.tile.spec = some p → p.fault = none) (htgt : s.blockTarget s.tile.pc = none)
    (hd : s.descriptorAt s.tile.pc = some d) (hwaits : d.waits = []) :
    s.startBlock = s.mapTile fun t => t.enterBlock s.tile.pc d := by
  have hmeets : s.tile.blockMeets d = false := by simp [Tile.blockMeets, hwaits]
  simp only [State.startBlock, hrel, Option.isSome_none, Bool.false_eq_true, if_false, Machine.Tile.deferred_none hfault, htgt, hd,
    hmeets, hwaits]

/-- A block whose counts are taken starts (R24). -/
theorem Machine.State.startBlock_taken {s u : State} {d : Descriptor} {w : SemNo × Nat} {l : List (SemNo × Nat)}
    (hrel : s.tile.releasing = none) (hspec : s.tile.spec = none) (hmeets : s.tile.engerr.getLsbD 63 = false)
    (htgt : s.blockTarget s.tile.pc = none) (hd : s.descriptorAt s.tile.pc = some d) (hwaits : d.waits = w :: l)
    (htake : (takeCounts s.alone s w.1 d.waits fun u => withBoundary s.alone u semMask true okR) = .ok u {}) :
    s.startBlock = u.mapTile fun t => t.enterBlock s.tile.pc d := by
  have hmeets' : s.tile.blockMeets d = false := by rw [Tile.blockMeets, hmeets]; rfl
  have hdef := Machine.Tile.deferred_none (t := s.tile) fun p hp => absurd (hspec.symm.trans hp) (Option.some_ne_none p).symm
  rw [hwaits] at htake
  simp only [State.startBlock, hrel, Option.isSome_none, Bool.false_eq_true, if_false, hdef, htgt, hd, hmeets', hwaits, hspec, htake]

/-- Counts that may be taken now are taken, and the boundary behind them performed (R24, R207). -/
theorem takeCounts_now {s : State} {k0 : SemNo} {l : List (SemNo × Nat)} {k : State → SlotR} (hshut : s.homeShut = false)
    (hsome : ∃ p, p ∈ l ∧ p.2 ≠ 0) (hmay : s.mayTake l = true) (hcalm : s.calm 3) :
    (takeCounts s.alone s k0 l fun u => withBoundary s.alone u semMask true k) =
      k ((s.mapHome fun c => (c.takeSems l).leave s.tile.id).bounded 3 true) := by
  obtain ⟨p, hp, hne⟩ := hsome
  have hall : ¬ (l.all fun p => p.2 == 0) = true := fun h => hne (beq_iff_eq.mp (List.all_eq_true.mp h p hp))
  rw [takeCounts, if_neg hall, atHome_open hshut, if_pos hmay]
  exact withBoundary_calm_beside hcalm (Machine.State.mapHome_tile _ _)

/-- Settles O39, event by event. -/
theorem timingAndBlocks : Obligations.TimingAndBlocks := by
  intro s c k g e x t0 w l d ws wl t cl limit flagged starts
  refine ⟨fun hturn hf h7 => ?_, fun hturn hf h7 => ?_, fun hturn hf h7 => ?_, fun hturn hticks hi h7 => ?_, fun hst => ?_,
    fun hticks ht he hgo hstall hl hlt => ?_, fun hticks hfault ht hstop he hspec => ?_,
    fun hw hcall hk hholds hgo => ?_, ?_, ?_⟩
  · simp only [exec, execTimingReplay, hturn]
    exact congrArg Host.Outcome.next (Machine.State.replayCore_flagged hf h7)
  · simp only [exec, execTimingReplay, hturn]
    exact congrArg Host.Outcome.next (Machine.State.replayCore_storm hf h7)
  · simp only [exec, execTimingReplay, hturn, Machine.State.replayCore_flagged hf h7]
    exact ⟨_, rfl, rfl, rfl, rfl, rfl, rfl, rfl, rfl, rfl, rfl, rfl, rfl, rfl, rfl⟩
  · cases g with
    | loader =>
      simp only [exec, execTimingReplay, hturn]
      exact congrArg Host.Outcome.next (Machine.State.replayLs_flagged hticks hi h7)
    | storer =>
      simp only [exec, execTimingReplay, hturn]
      exact congrArg Host.Outcome.next (Machine.State.replayLs_flagged hticks hi h7)
  · refine congrArg Host.Outcome.next ?_
    rcases hst with h | h | h
    · simp only [State.droop, show (s.clusters[c.val]).state = .running from h]
      rfl
    · simp only [State.droop, show (s.clusters[c.val]).state = .quarantine from h]
      rfl
    · simp only [State.droop, show (s.clusters[c.val]).state = .calibrating from h]
      rfl
  · have hdue := Machine.State.watchdogDue_stalled hticks ht he hgo hstall hl hlt
    simp only [exec, execWatchdog, hdue, if_true, show s.tile.ending = none from he]
    rfl
  · have hfault' : (s.tile.ls g).fault = some e := hfault
    have hraise : (!s.cluster.ticks || s.tile.task.isNone || s.tile.stopped || s.tile.ending.isSome) = false := by
      simp [hticks, show s.tile.task = some x from ht, show s.tile.stopped = false from hstop, show s.tile.ending = none from he]
    have hspec' : s.tile.spec.isSome = false := by rw [show s.tile.spec = none from hspec]; rfl
    simp only [exec, execLoaderStorerFault, hfault', hraise, hspec', Bool.false_eq_true, if_false]
    rfl
  · simp only [exec, execSemWaitServed, State.serve, Machine.State.servable_first hw hcall hk hholds hgo]
    rfl
  · rintro ⟨hticks, ht, he, hs, hrel, hfault, hdesc, htgt, hd⟩ hwaits
    exact (blockStart_here hticks ht he hs hdesc).trans
      (congrArg Host.Outcome.next (Machine.State.startBlock_plain hrel hfault htgt hd hwaits))
  · rintro ⟨hticks, ht, he, hs, hrel, hfault, hdesc, htgt, hd⟩ hwaits hspec heng hcalm hshut hsome hmay
    exact (blockStart_here hticks ht he hs hdesc).trans (congrArg Host.Outcome.next
      (Machine.State.startBlock_taken hrel hspec heng htgt hd hwaits (takeCounts_now hshut hsome hmay hcalm)))

end Sys2Proof
end

