-- ==== Sys2Proof/Proofs/LoaderStorerBase.lean ====
section
/-! SUPPORT. A base instruction of a loader or storer core at its pc (R271). -/

namespace Sys2Proof

open Machine

/-- A change of a core looks at that core alone. -/
theorem Machine.State.mapLs_congr {s : State} {g : LsAgent} {f h : LsCore → LsCore} (hf : f (s.tile.ls g) = h (s.tile.ls g)) :
    s.mapLs g f = s.mapLs g h := by
  simp only [State.mapLs, State.mapTile, hf]

theorem Machine.Tile.ls_setLs (t : Tile) (g : LsAgent) (c : LsCore) : (t.setLs g c).ls g = c := by
  cases g <;> rfl

theorem Machine.Tile.setLs_setLs (t : Tile) (g : LsAgent) (c e : LsCore) : (t.setLs g c).setLs g e = t.setLs g e := by
  cases g <;> rfl

theorem Machine.State.mapLs_mapLs (s : State) (g : LsAgent) (f h : LsCore → LsCore) :
    (s.mapLs g f).mapLs g h = s.mapLs g fun c => h (f c) := by
  simp only [State.mapLs, State.mapTile, Tile.ls_setLs, Tile.setLs_setLs]

theorem Machine.LsCore.setReg_pc (c : LsCore) (d : XReg) (v : RvWord) : (c.setReg d v).pc = c.pc := by
  unfold LsCore.setReg
  split <;> rfl

/-- An instruction that a running core finds at its pc runs (R271). -/
theorem Machine.State.lsInstr_runs {s : State} {g : LsAgent} {n : Nat} {op : RvOp} (hrun : (s.tile.ls g).running = true)
    (hhold : (s.tile.ls g).hold = 0) (hgo : s.lsGoes = true) (hlen : (s.tile.ls g).pc.toNat + n ≤ 0x4000)
    (hop : rvDecode (s.lsWord g) = (n, some op)) : s.lsInstr g = lsEnd g n (lsFailed g op s) (lsRun g n op s) := by
  have hfetch : s.lsFetch g = some (n, some op) := by
    simp only [State.lsFetch, hop]
    exact if_pos hlen
  simp only [State.lsInstr, hrun, hgo, hhold, hfetch, Bool.not_true, Bool.or_self, Bool.false_eq_true, if_false, Nat.lt_irrefl]

/-- An instruction that writes a register moves the pc. -/
theorem lsEnd_put {s w : State} {g : LsAgent} {d : XReg} {v pc : RvWord} {n : Nat} {jump : Option RvWord}
    (hpc : jump.getD ((s.tile.ls g).pc + BitVec.ofNat 32 n) = pc) :
    lsEnd g n w (.ok (s.mapLs g fun c => c.setReg d v) jump) =
      (s.mapLs g fun c => c.setReg d v).mapLs g fun c => { c with pc := pc, flagged := 0 } := by
  simp only [lsEnd, State.mapLs_mapLs]
  refine State.mapLs_congr ?_
  simp only [LsCore.setReg_pc, hpc]

/-- A load whose checks pass (R271). -/
theorem lsLoad_ok {s u : State} {g : LsAgent} {n a : Nat} {sg : Bool} {d : XReg} (hc : lsCheck n a = none)
    (hp : agentPrep (lsOwner g) s s false [(a, a + n)] = .ok u) :
    lsLoad g s n sg d a = .ok ((u.touch a (a + n)).mapLs g fun c => c.setReg d
      (if sg then rvS (8 * n) (leNat ((u.touch a (a + n)).lsBytes a n))
        else BitVec.ofNat 32 (leNat ((u.touch a (a + n)).lsBytes a n)))) none := by
  simp only [lsLoad, hc, hp]

/-- A store whose checks pass (R271). -/
theorem lsWrite_ok {s u : State} {g : LsAgent} {n a v : Nat} (hc : lsCheck n a = none)
    (hp : agentPrep (lsOwner g) s s true [(a, a + n)] = .ok u) :
    lsWrite g s n a v = .ok ((u.touch a (a + n)).lsStore a (leBytes v n)) none := by
  simp only [lsWrite, hc, hp]

/-- Settles O40, instruction by instruction. -/
theorem loaderStorerBase : Obligations.LoaderStorerBase := by
  intro s u g n o k d a b imm w sg c runs ends follows sets next at' hrun hhold hgo hlen
  have hstep {op : RvOp} {u : State} (hop : runs op) (hu : lsEnd g n (lsFailed g op s) (lsRun g n op s) = u) :
      exec (.loaderStorerInstruction g) s = .next u :=
    congrArg Host.Outcome.next ((State.lsInstr_runs hrun hhold hgo hlen hop).trans hu)
  refine ⟨fun h => hstep h (lsEnd_put rfl), fun h => hstep h (lsEnd_put rfl), fun h => hstep h (lsEnd_put rfl),
    fun h => hstep h (lsEnd_put rfl), fun h => hstep h ?_, fun h => hstep h (lsEnd_put rfl),
    fun h => hstep h (lsEnd_put rfl), fun h hc hp => hstep h ?_, fun h hc hp => hstep h ?_⟩
  · show (s.mapLs g fun q => { q with
      pc := (if rvCond k ((s.tile.ls g).reg a) ((s.tile.ls g).reg b) then some ((s.tile.ls g).pc + imm) else none).getD
        (q.pc + BitVec.ofNat 32 n)
      flagged := 0 }) = _
    refine State.mapLs_congr ?_
    cases hk : rvCond k ((s.tile.ls g).reg a) ((s.tile.ls g).reg b) with
    | false => simp only [c, next, Bool.false_eq_true, if_false, Option.getD_none]
    | true => simp only [c, next, if_true, Option.getD_some]
  · show lsEnd g n s (lsLoad g s w sg d ((s.tile.ls g).reg a + imm).toNat) = _
    rw [lsLoad_ok hc hp]
    rfl
  · show lsEnd g n s (lsWrite g s w ((s.tile.ls g).reg a + imm).toNat ((s.tile.ls g).reg b).toNat) = _
    rw [lsWrite_ok hc hp]
    rfl

end Sys2Proof
end

