-- ==== Sys2Proof/Proofs/Traffic.lean ====
section
/-! SUPPORT. Puts and rows that arrive, links that fail (R142, R301, R414, R416, R420), and collectives (R143, R305, R418). -/

namespace Sys2Proof

open Machine

/-! ## Puts -/

/-- A put to a cluster of this device that lets arrivals in is the next one, where it is the first on its way. -/
theorem Machine.State.nextPut_first {s v : State} {m : PutMsg} {l : List PutMsg} (hm : s.puts = m :: l)
    (hdue : m.due ≤ s.time.toNat) (htries : m.tries = 0) (hprep : s.putPrep m = some (.ok v))
    (hway : s.blocked (s.putRoute m) = false) (hopen : s.shut (s.putTo m) = none) : s.nextPut false = some m := by
  simp [State.nextPut, hm, hdue, htries, hprep, hway, State.stirs, hopen]

/-- The cluster at which a put counts. -/
abbrev Machine.PutMsg.goal (m : PutMsg) : ClusterNo := Fin.ofNat 48 (putClu m.word)

/-- The bytes of a put placed at their homes. -/
def Machine.State.placePut (s : State) (m : PutMsg) : State := s.putPages m.pages m.va (s.putBytes m)

/-- A put whose pages can be reached has placed its bytes when its count comes. -/
theorem Machine.State.putArrive_placed {s v : State} {m : PutMsg} (hprep : s.putPrep m = some (.ok v))
    (hcut : ∀ p, p ∈ m.pages → v.cutFrom (dieOf m.src.cl) (v.partAt m.src) p.spa = none)
    (hdev : putDev m.word = v.device.toNat) :
    s.putArrive m = if (v.clusters[m.goal.val]).jam then .refused (v.placePut m) else (v.placePut m).putCount m := by
  have hnone : (m.pages.findSome? fun p => v.cutFrom (dieOf m.src.cl) (v.partAt m.src) p.spa) = none :=
    List.findSome?_eq_none_iff.mpr hcut
  simp only [State.putArrive, hprep, hnone, hdev, beq_self_eq_true, Bool.true_and, State.placePut]

/-- A put that its home accepts counts, or its sum is above the maximum (R303). -/
theorem Machine.State.putCount_here {s : State} {m : PutMsg} (hdev : putDev m.word = s.device.toNat)
    (hjoin : s.diesJoined (dieOf m.src.cl) (dieOf m.goal) = true)
    (hgrant : ((s.clusters[m.goal.val]).sems[m.sem.val]).granted = true)
    (hopen : ((s.clusters[m.goal.val]).sems[m.sem.val]).putOpen = true)
    (hfence : (s.parts[(s.partAt m.src).val]).clu.getLsbD m.goal.val = true) :
    s.putCount m =
      if 65535 < ((s.clusters[m.goal.val]).sems[m.sem.val]).val.val + putCnt m.word then .failed s .semOverflow
      else .done { s with
        clusters := s.clusters.set m.goal.val ((s.clusters[m.goal.val]).addSem m.sem (putCnt m.word)) } := by
  simp only [State.putCount, hdev, bne_self_eq_false, hjoin, hgrant, hopen, hfence, Bool.not_true, Bool.and_self,
    Bool.false_eq_true, if_false]

/-- A cluster that lets arrivals in shuts none out. -/
theorem Machine.State.shut_putTo {s : State} {m : PutMsg} (hdev : putDev m.word = s.device.toNat)
    (h : (s.clusters[m.goal.val]).lets = true) : s.shut (s.putTo m) = none := by
  rw [State.putTo, if_pos hdev]
  exact shut_of_lets h

theorem Machine.State.deliverPut_done {s u : State} {m : PutMsg} (hopen : s.shut (s.putTo m) = none)
    (h : s.putArrive m = .done u) : s.deliverPut m = (u.putEnd m none).noteFlits (s.putRoute m) := by
  simp only [State.deliverPut, hopen, h]

theorem Machine.State.deliverPut_failed {s u : State} {m : PutMsg} {c : Cause} {v : Word} (hopen : s.shut (s.putTo m) = none)
    (h : s.putArrive m = .failed u c v) : s.deliverPut m = (u.putEnd m (some c) v).noteFlits (s.putRoute m) := by
  simp only [State.deliverPut, hopen, h]

theorem Machine.State.deliverPut_refused {s u : State} {m : PutMsg} (hopen : s.shut (s.putTo m) = none)
    (h : s.putArrive m = .refused u) : s.deliverPut m = (u.refusePut m).noteFlits (s.putRoute m) := by
  simp only [State.deliverPut, hopen, h]

/-! ## Rows -/

/-- A row is the next one, where it is the first on its way. -/
theorem Machine.State.nextRow_first {s : State} {m : RowMsg} {l : List RowMsg} {tried : Bool} (hm : s.rows = m :: l)
    (hdue : m.due ≤ s.time.toNat) (htries : decide (0 < m.tries) = tried)
    (hway : s.blocked (s.route m.src.cl (s.rowTo m)) = false) (hopen : s.shut (some (s.rowTo m)) = none) :
    s.nextRow tried = some m := by
  simp [State.nextRow, hm, hdue, htries, hway, State.stirs, hopen, firstOf]

/-- A row whose end can be reached joins it or is refused (R301). -/
theorem Machine.State.rowArrive_reached {s : State} {r : RowMsg} {p : RecvAt}
    (hdead : (s.tileAt r.src).deadEnds.contains r.send = false)
    (hjoin : s.diesJoined (dieOf r.src.cl) (dieOf (Fin.ofNat 48 (endCluster (s.tileAt r.src).ends[r.send.val]))) = true)
    (hrecv : s.receiver r.src r.send (s.tileAt r.src).ends[r.send.val] = some p) :
    s.rowArrive r =
      if 4 ≤ ((s.recvTile p).recvRows.filter fun x => x.cend == endEnd (s.tileAt r.src).ends[r.send.val]).length
      then .refused s
      else .done (s.atRecv p fun u => { u with recvRows := u.recvRows ++
        [⟨endEnd (s.tileAt r.src).ends[r.send.val], r.cells, if r.depth = 0 then none else some (r.src, r.depth)⟩] }) := by
  simp only [State.rowArrive, hdead, hjoin, hrecv, Bool.not_true, Bool.or_self, Bool.false_eq_true, if_false, recvMax] <;> rfl

theorem Machine.State.deliverRow_done {s u : State} {r : RowMsg} (hopen : s.shut (some (s.rowTo r)) = none)
    (h : s.rowArrive r = .done u) : s.deliverRow r = (u.rowEnd r none).noteFlits (s.route r.src.cl (s.rowTo r)) := by
  simp only [State.deliverRow, hopen, h]

theorem Machine.State.deliverRow_refused {s u : State} {r : RowMsg} (hopen : s.shut (some (s.rowTo r)) = none)
    (h : s.rowArrive r = .refused u) : s.deliverRow r = (u.refuseRow r).noteFlits (s.route r.src.cl (s.rowTo r)) := by
  simp only [State.deliverRow, hopen, h]

/-! ## Links -/

@[simp] theorem Machine.State.setTile_links (s : State) (t : Tile) : (s.setTile t).links = s.links := by
  unfold State.setTile
  split <;> rfl

@[simp] theorem Machine.State.atTile_links (s : State) (i : TileId) (f : Tile → Tile) : (s.atTile i f).links = s.links :=
  Machine.State.setTile_links s _

@[simp] theorem Machine.State.rowEnd_links (s : State) (m : RowMsg) (c : Option Cause) : (s.rowEnd m c).links = s.links :=
  Machine.State.atTile_links _ _ _

@[simp] theorem Machine.State.putEnd_links (s : State) (m : PutMsg) (c : Option Cause) (v : Word) :
    (s.putEnd m c v).links = s.links :=
  Machine.State.atTile_links _ _ _

@[simp] theorem Machine.State.refusePut_links (s : State) (m : PutMsg) : (s.refusePut m).links = s.links := by
  simp only [State.refusePut]
  split
  · exact Machine.State.putEnd_links _ _ _ _
  · rfl

@[simp] theorem Machine.State.abortMember_links (c : Cause) (v : Word) (s : State) (m : Member) :
    (State.abortMember c v s m).links = s.links := by
  unfold State.abortMember
  split
  · rfl
  · exact Machine.State.atTile_links _ _ _

/-- Steps that keep the links keep them when they are folded. -/
theorem foldl_links {α : Type} (f : State → α → State) (h : ∀ s x, (f s x).links = s.links) (l : List α) (s : State) :
    (l.foldl f s).links = s.links := by
  induction l generalizing s with
  | nil => rfl
  | cons x l ih => exact (ih (f s x)).trans (h s x)

@[simp] theorem Machine.State.abortColl_links (s : State) (p : Coll → Bool) (c : Coll) (cause : Cause) (v : Word) :
    (s.abortColl p c cause v).links = s.links :=
  foldl_links _ (Machine.State.abortMember_links cause v) _ _

/-- A link that goes down is counted, whatever it carried (R414, R420). -/
theorem Machine.State.linkOff_links {s : State} {l : LinkNo} (h : (s.links[l.val]).up = true) :
    (s.linkOff l true).links =
      s.links.set l.val { (s.links[l.val]) with up := false, dead := true, downs := (s.links[l.val]).downs + 1 } := by
  simp only [State.linkOff, h, Bool.not_true, Bool.false_eq_true, if_false, Bool.or_true]
  split
  · rfl
  · rw [foldl_links _ Machine.State.refusePut_links, foldl_links _ fun s c => Machine.State.abortColl_links s _ c _ _]
    exact foldl_links _ (fun s m => Machine.State.rowEnd_links s m _) _ _

/-- A link that is up goes on by its spare lane, a flit retried (R414). -/
theorem Machine.Link.repair_up {x : Link} (h : x.up = true) :
    x.repair = { x with repaired := true, retries := if x.retries = 65535 then x.retries else x.retries + 1 } := by
  simp only [Link.repair, Link.retry, h, Bool.or_true, if_true]

/-- Settles O41, event by event. -/
theorem traffic : Obligations.Traffic := by
  intro s v m ml r rl at' l cn c x placed lands t w held row comes passes reaches arrived link
  have hput (h : lands) : exec .putcArrive s = .next (s.deliverPut m) := by
    obtain ⟨hm, hdue, htries, hprep, hlets, -, hway, hdev, -⟩ := h
    have hnext := Machine.State.nextPut_first hm hdue htries hprep hway (Machine.State.shut_putTo hdev hlets)
    simp only [exec, execPutcArrive, hnext]
  have hopen (h : lands) : s.shut (s.putTo m) = none := by
    obtain ⟨-, -, -, -, hlets, -, -, hdev, -⟩ := h
    exact Machine.State.shut_putTo hdev hlets
  have hplaced (h : lands) : s.putArrive m = if c.jam then .refused placed else placed.putCount m := by
    obtain ⟨-, -, -, hprep, -, hcut, -, -, hdev, -⟩ := h
    exact Machine.State.putArrive_placed hprep hcut hdev
  have hcount (h : lands) : placed.putCount m =
      if 65535 < x.val.val + putCnt m.word then .failed placed .semOverflow
      else .done { placed with clusters := v.clusters.set cn.val (c.addSem m.sem (putCnt m.word)) } := by
    obtain ⟨-, -, -, -, -, -, -, -, hdev, hjoin, hgrant, hput, hfence⟩ := h
    exact Machine.State.putCount_here (s := placed) hdev hjoin hgrant hput hfence
  have hrow (h : comes) {tried : Bool} (ht : decide (0 < r.tries) = tried) : s.nextRow tried = some r := by
    obtain ⟨hr, hdue, hlets, -, -, -, hway⟩ := h
    exact Machine.State.nextRow_first hr hdue ht hway (shut_of_lets hlets)
  have hreached (h : comes) : s.rowArrive r =
      if 4 ≤ held.length then .refused s else .done (s.atRecv at' fun u => { u with recvRows := u.recvRows ++ [row] }) := by
    obtain ⟨-, -, -, hdead, hjoin, hrecv, -⟩ := h
    exact Machine.State.rowArrive_reached hdead hjoin hrecv
  refine ⟨fun h hjam hsum => ?_, fun h hjam hsum => ?_, fun h hjam => ?_, fun h ht hlen => ?_, fun h ht hlen => ?_,
    fun h ht hlen => ?_, rfl, fun hup => ⟨_, rfl, Machine.State.linkOff_links hup⟩, fun hup => ?_⟩
  · refine (hput h).trans (congrArg _ (Machine.State.deliverPut_done (hopen h) ?_))
    rw [hplaced h, hjam, hcount h]
    exact if_neg (Nat.not_lt.mpr hsum)
  · refine (hput h).trans (congrArg _ (Machine.State.deliverPut_failed (hopen h) ?_))
    rw [hplaced h, hjam, hcount h]
    exact if_pos hsum
  · refine (hput h).trans (congrArg _ (Machine.State.deliverPut_refused (hopen h) ?_))
    rw [hplaced h, hjam]
    rfl
  · simp only [exec, execCircuitRowArrive, hrow h (tried := false) (decide_eq_false (by omega))]
    exact congrArg _ (Machine.State.deliverRow_done (shut_of_lets h.2.2.1) ((hreached h).trans (if_neg (Nat.not_le.mpr hlen))))
  · simp only [exec, execCircuitRowArrive, hrow h (tried := false) (decide_eq_false (by omega))]
    exact congrArg _ (Machine.State.deliverRow_refused (shut_of_lets h.2.2.1) ((hreached h).trans (if_pos hlen)))
  · simp only [exec, execNakResend, hrow h (tried := true) (decide_eq_true ht)]
    exact congrArg _ (Machine.State.deliverRow_done (shut_of_lets h.2.2.1) ((hreached h).trans (if_neg (Nat.not_le.mpr hlen))))
  · exact congrArg (fun y => Host.Outcome.next ({ s with links := s.links.set l.val y } : State)) (Machine.Link.repair_up hup)

end Sys2Proof
end

