-- ==== Sys2Proof/Proofs/Collectives.lean ====
section
/-! SUPPORT. A chunk of a collective lands; a collective is aborted (R143, R305, R418). -/

namespace Sys2Proof

open Machine

/-- The first collective of the list is the one of its group that a test accepts. -/
theorem find_coll {l : List Coll} {c : Coll} {p : Coll → Bool} (h : p c = true) :
    (c :: l).find? (fun x => x.gid == c.gid && p x) = some c := by
  simp [h]

/-- Every cluster where a chunk lands lets it in. -/
theorem Machine.State.goals_open {s : State} {c : Coll} {k : Fin 16} (h : ∀ x, x ∈ s.goals k c → (s.clusters[x.val]).lets = true) :
    ((s.goals k c).filter fun x => !(s.clusters[x.val]).lets) = [] :=
  List.filter_eq_nil_iff.mpr fun x hx => by simp [h x hx]

/-- Why a doomed collective is aborted (R305, R420, R422). -/
theorem Machine.State.abortCause_fst (s : State) (c : Coll) :
    (s.abortCause c).1 = if c.agrees = false then .collectiveMismatch else if s.parted c = true then .linkDown
      else if s.farLost c = true then .peerUnreachable else ((s.readTrap c).map (·.cause)).getD .spUncorrectable := by
  simp only [State.abortCause, Bool.not_eq_true', apply_ite Prod.fst]
  cases s.readTrap c <;> rfl

/-- The same answer where either of two conditions holds. -/
theorem ite_ite_same {α : Type} (p q : Prop) [Decidable p] [Decidable q] (x y : α) :
    (if p then x else if q then x else y) = if p ∨ q then x else y := by
  by_cases hp : p
  · simp only [hp, true_or, if_true]
  · simp only [hp, false_or, if_false]

/-- The address that the abort of a doomed collective names (R394). -/
theorem Machine.State.abortCause_snd (s : State) (c : Coll) :
    (s.abortCause c).2 = if c.agrees = false ∨ s.parted c = true ∨ s.farLost c = true then 0
      else ((s.readTrap c).map (·.val)).getD 0 := by
  simp only [State.abortCause, Bool.not_eq_true', apply_ite Prod.snd, ite_ite_same]
  cases s.readTrap c <;> rfl

/-- The first collective of the list is aborted where it is doomed. -/
theorem Machine.State.collAbort_doomed {s : State} {c : Coll} {l : List Coll} (hc : s.colls = c :: l) (h : s.doomed c = true) :
    s.collAbort c.gid false =
      s.abortColl s.doomed c ((c.abort.map fun e => (e, 0)).getD (s.abortCause c)).1
        ((c.abort.map fun e => (e, 0)).getD (s.abortCause c)).2 := by
  simp only [State.collAbort, hc, Bool.false_eq_true, if_false, find_coll h]

/-- Settles O42, event by event. -/
theorem collectives : Obligations.Collectives := by
  intro s c l m ms k hcolls hmembers sum kept landed ends
  refine ⟨fun hready hfills hlets => ?_, fun why hdoom hab => ?_, fun hdoom hab => ?_, fun hab hout => ?_⟩
  · refine congrArg Host.Outcome.next ?_
    have hfind : s.colls.find? (fun x => x.gid == c.gid && s.chunkReady k x) = some c := hcolls ▸ find_coll hready
    simp only [State.landChunk, hfind, hmembers, Machine.State.goals_open hlets, hfills, landed, kept]
    rfl
  · refine congrArg Host.Outcome.next ((Machine.State.collAbort_doomed hcolls hdoom).trans ?_)
    rw [hab]
    rfl
  · refine congrArg Host.Outcome.next ((Machine.State.collAbort_doomed hcolls hdoom).trans ?_)
    rw [hab]
    show s.abortColl s.doomed c (s.abortCause c).1 (s.abortCause c).2 = _
    rw [Machine.State.abortCause_fst, Machine.State.abortCause_snd]
    rfl
  · refine congrArg Host.Outcome.next ?_
    have hp : (c.abort.isNone && c.members.any fun m => !m.out) = true := by
      simpa [hab] using hout
    have hfind : s.colls.find? (fun x => x.gid == c.gid && (x.abort.isNone && x.members.any fun m => !m.out)) = some c :=
      hcolls ▸ find_coll hp
    simp only [State.collAbort, if_true, hfind]
    rfl

end Sys2Proof
end

