-- ==== Sys2Proof/Proofs/TeamSteps.lean ====
section
/-! SUPPORT. The steps of teams: pool tasks (R29), the token (R32), swaps and pre-emption (R35, R36, R40), courses (R365). -/

namespace Sys2Proof

open Machine

/-! ## Pools -/

/-- The pool of the tile's own team offers its first task before any other (R29). -/
theorem Machine.State.poolChoice_own {s : State} {k : Team} {e : PoolEntry} {l : List PoolEntry} {i : Fin 16}
    (hidle : s.idle = true) (hteam : s.tile.team = some (k.id, i)) (hfind : s.findTeam k.id = some k) (hoffers : s.offers k = true)
    (hpool : k.pool = e :: l) : s.poolChoice = some (k, e, false) := by
  simp only [State.poolChoice, hidle, hteam, Option.bind_some, hfind, hoffers, hpool, List.find?_cons_of_pos, Option.map_some,
    Bool.not_true, Bool.false_eq_true, if_false, if_true]

/-- A tile without a task, whose team stands on its tiles, is idle (R29). -/
theorem Machine.State.idle_of_free {s : State} {k : Team} {i : Fin 16} (ht : s.tile.task = none) (he : s.tile.ending = none)
    (hs : s.tile.stopped = false) (hrun : s.cluster.state = .running) (hserves : s.cluster.serves s.tile = true)
    (hteam : s.tile.team = some (k.id, i)) (hfind : s.findTeam k.id = some k) (hoffers : s.offers k = true) : s.idle = true := by
  simp only [State.offers, Bool.and_eq_true] at hoffers
  obtain ⟨⟨⟨hres, hleave⟩, -⟩, -⟩ := hoffers
  simp [State.idle, ht, he, hs, hrun, hserves, hteam, hfind, beq_iff_eq.mp hres, Option.isNone_iff_eq_none.mp hleave]

/-! ## Leaving -/

/-- A request for power changes the power state alone. -/
theorem Machine.State.knock_eq (s : State) (c : ClusterNo) : ∃ p, s.knock c = { s with power := p } := by
  unfold State.knock
  split
  · exact ⟨_, rfl⟩
  · exact ⟨s.power, rfl⟩

@[simp] theorem Machine.State.knock_tile (s : State) (c : ClusterNo) : (s.knock c).tile = s.tile := by
  obtain ⟨p, h⟩ := s.knock_eq c
  rw [h]

@[simp] theorem Machine.State.knock_tiles (s : State) (c : ClusterNo) : (s.knock c).tiles = s.tiles := by
  obtain ⟨p, h⟩ := s.knock_eq c
  rw [h]
  rfl

@[simp] theorem Machine.State.knock_clusters (s : State) (c : ClusterNo) : (s.knock c).clusters = s.clusters := by
  obtain ⟨p, h⟩ := s.knock_eq c
  rw [h]

/-- Requests for power keep the clusters. -/
theorem foldl_knock_clusters (l : List Tile) (s : State) : (l.foldl (fun s t => s.knock t.cl) s).clusters = s.clusters := by
  induction l generalizing s with
  | nil => rfl
  | cons t l ih => exact (ih _).trans (s.knock_clusters t.cl)

/-- The tile that a team's request stops (R405, R409). -/
theorem Machine.Tile.halt_running {t : Tile} {clock : Nat} {now : Bool} (h : t.stopped = false) :
    t.halt clock now = { t with stopped := true, grace := t.task.isSome && (t.reissue || (!now && decide (t.now ≤ clock))) } := by
  rw [Tile.halt, h]
  rfl

/-- A resident team that stays and has room is asked to leave (R35, R39, R40). -/
theorem Machine.State.askLeave_leaves {s : State} {k : Team} {c : Cause} {tr : Option Trigger} {me : Bool}
    (hres : k.state = .resident) (hleave : k.leave = none) (hroom : s.hasPool k = true) :
    s.askLeave k c tr me = (((s.knock k.home).knockFor k.id c).stopTiles k.id c me).setTeam { k with leave := some c, trigger := tr } := by
  simp [State.askLeave, hres, hleave, hroom]

/-- The tiles that stop as a team leaves: those of its tasks that run, in a cluster that is not in retention. -/
def Machine.State.leavers (s : State) (k : Team) (c : Cause) (t : Tile) : Bool :=
  t.stopsFor k.id c && (s.clusters[t.cl.val]).state != .retention && !t.stopped

/-- A state whose clusters with tiles that stop with a team have been woken (R436). -/
def Machine.State.woken (s : State) (k : Team) (c : Cause) : State :=
  (s.tiles.filter (·.stopsFor k.id c)).foldl (fun s t => s.knock t.cl) (s.knock k.home)

/-- What a team's request to leave does: clusters are woken, the tiles that run stop, and the team's record notes it (R35, R405). -/
theorem Machine.State.askLeave_eq {s : State} {k : Team} {c : Cause} {tr : Option Trigger} {me : Bool}
    (hres : k.state = .resident) (hleave : k.leave = none) (hroom : s.hasPool k = true) :
    s.askLeave k c tr me =
      ((s.woken k c).mapTiles fun t => if s.leavers k c t then { t with
        stopped := true, grace := t.task.isSome && (t.reissue
          || (!(me && t.id == (s.woken k c).tile.id) && decide (t.now ≤ (s.woken k c).clock))) }
        else t).setTeam { k with leave := some c, trigger := tr } := by
  have hu : (s.knock k.home).knockFor k.id c = s.woken k c := by
    simp only [State.knockFor, Machine.State.knock_tiles]
    rfl
  have hcl : (s.woken k c).clusters = s.clusters := (foldl_knock_clusters _ _).trans (s.knock_clusters k.home)
  rw [Machine.State.askLeave_leaves hres hleave hroom, hu, State.stopTiles]
  congr 2
  funext t
  cases hs : t.stopped with
  | true => simp [State.leavers, hs, Tile.halt]
  | false =>
    rw [Machine.Tile.halt_running hs]
    simp only [State.leavers, State.sleeps, hcl, hs, Bool.not_false, Bool.and_true, bne]

/-- A team whose task has waited too long may leave (R35). -/
theorem Machine.State.leaves_of_waitedLong {s : State} {k : Team} {w : WaitRec} (h : s.waitedLong = some (k, w)) :
    k.state = .resident ∧ k.leave = none ∧ s.hasPool k = true := by
  simp only [State.waitedLong] at h
  split at h
  · split at h
    · next hc =>
      obtain ⟨rfl, rfl⟩ := Prod.mk.inj (Option.some.inj h)
      simp only [Bool.and_eq_true, beq_iff_eq, Option.isNone_iff_eq_none] at hc
      exact ⟨hc.1.1.2, hc.1.2, hc.2⟩
    · cases h
  · cases h

/-! ## Courses -/

/-- A release changes nothing of a tile but its arrival (R365). -/
theorem releaseTile_of_arrival {s : State} {p : PartNo} {r : Release} {k : Option Team} {t : Tile}
    (h : (releaseTile s p r k t).arrival = t.arrival) : releaseTile s p r k t = t := by
  unfold releaseTile at h ⊢
  simp only at h ⊢
  split
  · next hm =>
    rw [if_pos hm] at h
    simp only at h
    simp [← h] at hm
  · rfl

/-- Whether a release reaches a tile (R365). -/
def Machine.State.reached (s : State) (p : PartNo) (r : Release) (t : Tile) : Bool :=
  (releaseTile s p r (t.task.bind fun k => s.findTeam k.team) t).arrival != t.arrival

/-- A release that waits for no cluster, where every cluster that it reaches lets it in (R365, R436). -/
theorem Machine.State.releaseCourse_open {s : State} {p : PartNo} {r : Release} (hdue : s.releaseDue p = some r) (hheld : r.held = [])
    (hlets : ∀ t, t ∈ s.tiles → (releaseTile s p r (t.task.bind fun k => s.findTeam k.team) t).arrival ≠ t.arrival →
      (s.clusters[t.cl.val]).lets = true) :
    s.releaseCourse p = ({ s with
      parts := s.parts.set p.val { (s.parts[p.val]) with
        releases := (s.parts[p.val]).releases.flatMap fun y => if y == r then r.rest (s.parts[p.val]).courses [] else [y] }
      teams := s.teams.map fun k => k.mapSaved (releaseTile s p r (some k)) } : State).mapTiles fun t =>
        if s.reached p r t && (s.clusters[t.cl.val]).lets then releaseTile s p r (t.task.bind fun k => s.findTeam k.team) t else t := by
  have hshut : (((s.tiles.filter (s.reached p r)).map (·.cl)).filter fun c => !(s.clusters[c.val]).lets) = [] := by
    refine List.filter_eq_nil_iff.mpr fun c hc => ?_
    obtain ⟨t, ht, rfl⟩ := List.mem_map.mp hc
    obtain ⟨hmem, hto⟩ := List.mem_filter.mp ht
    simp [hlets t hmem (bne_iff_ne.mp hto)]
  have hreached (t : Tile) : ((releaseTile s p r (t.task.bind fun k => s.findTeam k.team) t).arrival != t.arrival) = s.reached p r t :=
    rfl
  simp only [State.releaseCourse, hdue, hheld, List.isEmpty_nil, Bool.true_or, Bool.and_true, hreached, hshut, if_true]
  rfl

/-- A tile that a release reaches is released, any other stays as it is. -/
theorem released_or_same {s : State} {p : PartNo} {r : Release} {t : Tile}
    (hlets : (releaseTile s p r (t.task.bind fun k => s.findTeam k.team) t).arrival ≠ t.arrival → (s.clusters[t.cl.val]).lets = true) :
    (if s.reached p r t && (s.clusters[t.cl.val]).lets then releaseTile s p r (t.task.bind fun k => s.findTeam k.team) t else t) =
      releaseTile s p r (t.task.bind fun k => s.findTeam k.team) t := by
  cases hr : s.reached p r t with
  | false => exact (releaseTile_of_arrival (by simpa [State.reached] using hr)).symm
  | true =>
    rw [hlets (bne_iff_ne.mp hr)]
    rfl

/-- Settles O43, event by event. -/
theorem teamSteps : Obligations.TeamSteps := by
  intro s k e l i w stolen p r t asks free own leaves pos white go x
  refine ⟨?_, fun haway hchoice => ?_, fun hfind hready => ?_, fun hpos => ?_, fun hwait => ?_, fun hfind hleaves => ?_,
    fun hfind hst hmet => ?_, fun hdue hheld hlets => ?_⟩
  · rintro ⟨ht, he, hs, hrun, hserves⟩ hteam hfind hoffers hpool haway
    have hidle := Machine.State.idle_of_free ht he hs hrun hserves hteam hfind hoffers
    simp only [exec, execPoolTaskStart, haway, Machine.State.poolChoice_own hidle hteam hfind hoffers hpool]
    have hown : s.tile.team.map (·.2) = some i := by rw [show s.tile.team = some (k.id, i) from hteam]; rfl
    simp only [State.startPool, hown, Option.getD_some, Bool.false_eq_true, if_false]
    rfl
  · simp only [exec, execPoolTaskStart, haway, hchoice]
  · simp only [exec, execTokenForward, State.tokenStep, hfind, hready, if_true]
  · simp only [Team.forward, show ¬ k.token.pos = 0 from hpos, if_false]
    rfl
  · obtain ⟨hres, hleave, hroom⟩ := Machine.State.leaves_of_waitedLong hwait
    refine congrArg Host.Outcome.next (Eq.trans ?_ (Machine.State.askLeave_eq hres hleave hroom))
    simp only [State.swapWaiter, hwait]
    rfl
  · obtain ⟨hres, hleave, hroom⟩ := hleaves
    refine congrArg Host.Outcome.next (Eq.trans ?_ (Machine.State.askLeave_eq hres hleave hroom))
    simp only [State.preempt, hfind]
  · simp only [exec, execSwapTriggerSatisfied, State.makeReady, hfind, State.nowReady, hst, hmet, beq_self_eq_true, Bool.and_self, Bool.not_true, Bool.false_eq_true,
      if_false]
  · have hdue' : s.releaseDue p = some r := hdue
    refine ⟨_, congrArg Host.Outcome.next (Machine.State.releaseCourse_open hdue' hheld hlets), ?_, ?_, rfl, ?_⟩
    · exact released_or_same (hlets _ (List.mem_cons_self ..))
    · exact List.map_congr_left fun t ht => released_or_same (hlets t (List.mem_cons_of_mem _ ht))
    · simp only [State.mapTiles_parts, Release.rest, hheld, List.isEmpty_nil, Bool.true_and, if_true, List.append_nil, beq_iff_eq,
        decide_eq_true_eq]
      rfl

end Sys2Proof
end

