-- ==== Sys2Proof/Proofs/Binding.lean ====
section
/-! SUPPORT. Dispatch of bind records (R361-R363): the next slot of a die that binds or returns a team. -/

namespace Sys2Proof

open Machine

/-- The next slot, which binds: a queued launch that is not fenced and whose team number is free goes through its checks (R363). -/
theorem Machine.State.bindStep_queued {s : State} {d : DieNo} {i : Fin 64} {q : QTeam} (hi : s.nextSlot d = some i)
    (hb : (((s.dies[d.val]).slots[i.val])[0]).getLsbD 62 = false)
    (hq : (s.queued.find? fun q => q.ref == (((s.dies[d.val]).slots[i.val])[3]).toNat) = some q)
    (ht : s.findTeam (bindTeamNo (s.dies[d.val]).slots[i.val]) = none)
    (hf : s.fenced d (s.dies[d.val]).slots[i.val] false = false) :
    s.bindStep d i =
      match s.bindChecks q ⟨q.part, s.snapWord q.part (s.snapOf q) (q.words[6]).toNat⟩ (fld (q.words[7]).toNat 0 5)
        (s.dies[d.val]).slots[i.val] d with
      | .refuse n => some (s.answer d i n)
      | .later c => s.askPower c
      | .hold => none
      | .go tiles => some ((s.bind q (s.snapOf q) ⟨q.part, s.snapWord q.part (s.snapOf q) (q.words[6]).toNat⟩
        (s.dies[d.val]).slots[i.val] d tiles).answer d i 1) := by
  simp only [State.bindStep, hi, hb, hq, ht, hf, bne_self_eq_false, Bool.or_self, Option.isSome_none, Bool.false_eq_true,
    if_false] <;> rfl

/-- The next slot, which binds to what is fenced, is refused with FENCED, whatever it names (R437, R442). -/
theorem Machine.State.bindStep_fenced {s : State} {d : DieNo} {i : Fin 64} (hi : s.nextSlot d = some i)
    (hb : (((s.dies[d.val]).slots[i.val])[0]).getLsbD 62 = false)
    (hf : s.fenced d (s.dies[d.val]).slots[i.val] false = true) : s.bindStep d i = some (s.answer d i 6) := by
  simp only [State.bindStep, hi, hb, hf, bne_self_eq_false, Bool.or_self, Bool.false_eq_true, if_false, if_true]
  split <;> rfl

/-- The next slot, which returns: a swapped team that is not fenced goes through its checks (R363). -/
theorem Machine.State.returnStep_swapped {s : State} {d : DieNo} {i : Fin 64} {k : Team} (hi : s.nextSlot d = some i)
    (hb : (((s.dies[d.val]).slots[i.val])[0]).getLsbD 62 = true)
    (hk : s.findTeam (bindTeamNo (s.dies[d.val]).slots[i.val]) = some k) (hs : k.swapped = true) (ha : k.abort = false)
    (hf : s.fenced d (s.dies[d.val]).slots[i.val] true = false) :
    s.returnStep d i =
      match s.returnChecks k (s.dies[d.val]).slots[i.val] d with
      | .refuse n => some (s.answer d i n)
      | .later c => s.askPower c
      | .hold => none
      | .go tiles => some ((s.returnTeam k (s.dies[d.val]).slots[i.val] tiles).answer d i 1) := by
  simp only [State.returnStep, hi, hb, hk, hs, ha, hf, bne_self_eq_false, Bool.not_true, Bool.or_self, Bool.false_eq_true,
    if_false] <;> rfl

/-- The next slot, which returns to what is fenced, is refused with FENCED, whatever it names (R437). -/
theorem Machine.State.returnStep_fenced {s : State} {d : DieNo} {i : Fin 64} (hi : s.nextSlot d = some i)
    (hb : (((s.dies[d.val]).slots[i.val])[0]).getLsbD 62 = true)
    (hf : s.fenced d (s.dies[d.val]).slots[i.val] true = true) : s.returnStep d i = some (s.answer d i 6) := by
  simp only [State.returnStep, hi, hb, hf, bne_self_eq_false, Bool.not_true, Bool.or_self, Bool.false_eq_true, if_false, if_true]
  split <;> rfl

/-- Settles O44: the checks of the next slot decide. -/
theorem binding : Obligations.Binding := by
  intro s d i q tiles n k w snap decl tests binds returns hi
  have hbind {u : State} (h : s.bindStep d i = some u) : exec (.bindTeam d i) s = .next u :=
    congrArg (fun o : Option State => Host.Outcome.next (o.getD s)) h
  have hreturn {u : State} (h : s.returnStep d i = some u) : exec (.bindReturn d i) s = .next u :=
    congrArg (fun o : Option State => Host.Outcome.next (o.getD s)) h
  refine ⟨?_, ?_, ?_, ?_, fun hb hf => hbind (Machine.State.bindStep_fenced hi hb hf),
    fun hb hf => hreturn (Machine.State.returnStep_fenced hi hb hf)⟩
  · rintro ⟨hb, hq, ht, hf⟩ hgo
    refine hbind ((Machine.State.bindStep_queued hi hb hq ht hf).trans ?_)
    rw [show s.bindChecks q decl (fld (q.words[7]).toNat 0 5) w d = .go tiles from hgo]
  · rintro ⟨hb, hq, ht, hf⟩ hno
    refine hbind ((Machine.State.bindStep_queued hi hb hq ht hf).trans ?_)
    rw [show s.bindChecks q decl (fld (q.words[7]).toNat 0 5) w d = .refuse n from hno]
  · rintro ⟨hb, hk, hs, ha, hf⟩ hgo
    refine hreturn ((Machine.State.returnStep_swapped hi hb hk hs ha hf).trans ?_)
    rw [show s.returnChecks k w d = .go tiles from hgo]
  · rintro ⟨hb, hk, hs, ha, hf⟩ hno
    refine hreturn ((Machine.State.returnStep_swapped hi hb hk hs ha hf).trans ?_)
    rw [show s.returnChecks k w d = .refuse n from hno]

end Sys2Proof
end

