-- ==== Sys2Proof/Proofs/QueuesAndGraphs.lean ====
section
/-! SUPPORT. Queues, records and teardowns (R352-R358, R371, R372); nodes of graphs (R366-R370). -/

namespace Sys2Proof

open Machine

/-! ## Records -/

/-- A write of a node changes memory alone (R370). -/
theorem Machine.State.nodeWrite_mem (s : State) (part : PartNo) (va v n : Nat) (acc : Access) :
    ∃ m, (s.nodeWrite part va v n acc).1 = { s with mem := m } := by
  unfold State.nodeWrite
  split
  · exact ⟨s.mem, rfl⟩
  · exact ⟨_, rfl⟩

/-- The state in which a record's completion words have been written (R355). -/
def Machine.State.statusWritten (s : State) (r : Rec) (c : Nat) : State :=
  ((s.nodeWrite (s.fnPart r.fn) ((r.words[1]).toNat + 8) (c * 2 ^ 56 + r.seq * 2 ^ 32) 8 .write).1.nodeWrite (s.fnPart r.fn)
    (r.words[1]).toNat (r.words[2]).toNat 8 .write).1

theorem Machine.State.statusWritten_mem (s : State) (r : Rec) (c : Nat) : ∃ m, s.statusWritten r c = { s with mem := m } := by
  obtain ⟨m, h⟩ := s.nodeWrite_mem (s.fnPart r.fn) ((r.words[1]).toNat + 8) (c * 2 ^ 56 + r.seq * 2 ^ 32) 8 .write
  obtain ⟨m', h'⟩ := State.nodeWrite_mem { s with mem := m } (s.fnPart r.fn) (r.words[1]).toNat (r.words[2]).toNat 8 .write
  refine ⟨m', ?_⟩
  rw [State.statusWritten, h, h']

/-- A state u with the completion interrupt of a record, if it asks for one, counted (R355). -/
def Machine.State.notified (s u : State) (r : Rec) : State :=
  if r.intr && (s.fns[r.fn.val]).has 3 then
    u.setQueue r.fn r.q { (s.queue r.fn r.q) with msix := (s.queue r.fn r.q).msix + 1 } else u

/-- A record completes: its words, where it has an address for them, its interrupt, and it leaves its queue (R355). -/
theorem Machine.State.completeRec_eq (s : State) (r : Rec) (c : Nat) :
    s.completeRec r c = { s.notified (if (r.words[1]).toNat = 0 then s else s.statusWritten r c) r with
      records := s.records.filter fun y => y.id != r.id } := by
  by_cases hva : (r.words[1]).toNat = 0
  · simp only [State.completeRec, State.notified, if_pos hva]
    split <;> rfl
  · obtain ⟨m, hm⟩ := s.statusWritten_mem r c
    have hw : ((s.nodeWrite (s.fnPart r.fn) ((r.words[1]).toNat + 8) (c * 2 ^ 56 + r.seq * 2 ^ 32) 8 .write).1.nodeWrite
      (s.fnPart r.fn) (r.words[1]).toNat (r.words[2]).toNat 8 .write).1 = { s with mem := m } := hm
    simp only [State.completeRec, State.notified, if_neg hva, hw, hm]
    split <;> rfl

/-- A record that has ended completes (R355). -/
theorem recordComplete_ended {s : State} {r : Rec} {c : Nat} (hr : s.findRec r.id = some r) (hc : r.state = .ended c) :
    exec (.recordComplete r.id) s = .next (s.completeRec r c) := by
  simp only [exec, execRecordComplete, State.recordComplete, hr, hc]

/-- The next record of a queue starts (R354). -/
theorem recordStart_next {s : State} {f : FnNo} {q : QueueNo} {r : Rec} (h : startable (s.recsOf f q) = some r) :
    exec (.recordStart f q) s = .next (s.startRec r) := by
  simp only [exec, execRecordStart, State.recordStart, h]

/-- A launch record that passes its checks queues its team (R358). -/
theorem startRec_launch {s : State} {r : Rec} (ha : r.allowed (s.fns[r.fn.val]) = true) (hk : r.kind = 1)
    (hst : s.launchStatus (s.fns[r.fn.val]) (s.fnPart r.fn) r.snap r.nums = 0) :
    s.startRec r = (s.mapRec r.id fun r => { r with state := .running }).enqueueTeam r none r.nums r.words[4] (s.fnPart r.fn) := by
  simp only [State.startRec, ha, hk, hst, Bool.not_true, Bool.false_eq_true, if_false]

/-- A graph record that passes its checks runs its graph (R367). -/
theorem startRec_graph {s : State} {r : Rec} (ha : r.allowed (s.fns[r.fn.val]) = true) (hk : r.kind = 2)
    (hformed : r.graphFormed (s.fns[r.fn.val]) = true)
    (hbody : (s.readGraph r).nodes.any (·.hasBody) = true → (s.fns[r.fn.val]).has 1 = true)
    (hvalid : (s.fns[r.fn.val]).valid = true) (hok : (s.readGraph r).graphOk = true) :
    s.startRec r = s.mapRec r.id fun _ => { s.readGraph r with state := .running } := by
  have hbad : ((s.readGraph r).nodes.any (fun x => x.hasBody) && !(s.fns[r.fn.val]).has 1) = false := by
    cases hb : (s.readGraph r).nodes.any (fun x => x.hasBody) with
    | false => rfl
    | true => simp [hbody hb]
  simp only [State.startRec, ha, hk, hformed, hbad, hvalid, hok, Bool.not_true, Bool.or_self, Bool.false_eq_true, if_false]

/-- A region-retire record that passes its checks retires its region (R356). -/
theorem startRec_retire {s : State} {r : Rec} (ha : r.allowed (s.fns[r.fn.val]) = true) (hk : r.kind = 3)
    (hformed : r.retireFormed (s.fns[r.fn.val]) = true) (hok : s.regionOk (s.fns[r.fn.val]) (r.words[3]).toNat = true) :
    s.startRec r = (s.retireRegion (r.words[3]).toNat).mapRec r.id fun r => { r with state := .ended 0 } := by
  simp only [State.startRec, ha, hk, hformed, hok, Bool.not_true, Bool.false_eq_true, if_false]

/-- A write at an address that software gives changes memory alone (R374). -/
theorem Machine.State.putSpa_mem (s : State) (part : PartNo) (a : Nat) (bs : List Byte) :
    ∃ m, s.putSpa part a bs = { s with mem := m } := by
  unfold State.putSpa
  split
  · exact ⟨_, rfl⟩
  · exact ⟨s.mem, rfl⟩

/-- A teardown ends: its acknowledgement, then ENABLE or the queue's counts (R371 step 5). -/
theorem Machine.State.finishTear_eq (s : State) (t : Teardown) :
    s.finishTear t = ({ (s.putSpaNum (s.fnPart t.fn) (s.queue t.fn t.q).ack.toNat (2 ^ 63 + (s.queue t.fn t.q).lastSeq.toNat) 8) with
      tearing := s.tearing.filter fun y => y != t } : State).setQueue t.fn t.q
        (if t.reset then { (s.queue t.fn t.q) with head := 0, tail := 0 } else { (s.queue t.fn t.q) with enable := false }) := by
  obtain ⟨m, hm⟩ := s.putSpa_mem (s.fnPart t.fn) (s.queue t.fn t.q).ack.toNat (leBytes (2 ^ 63 + (s.queue t.fn t.q).lastSeq.toNat) 8)
  simp only [State.finishTear, State.putSpaNum, hm]

/-- Settles O45, event by event. -/
theorem queues : Obligations.Queues := by
  intro s f q tail r c abort td v x n fn part told graph va status written sends begins idle ends finished
  refine ⟨fun hhears hroom => ?_, fun hr hf ha hk hst => ?_, fun hr hf ha hk hformed hbody hvalid hok => ?_,
    fun hr hf ha hk hformed hok => ?_, fun hr hc => ?_, fun hidle => ⟨?_, ?_, ?_⟩, fun hfin i hi => ?_, fun hoff => ?_⟩
  · refine congrArg Host.Outcome.next (if_neg ?_)
    simpa [hhears] using hroom
  · subst hf
    exact (recordStart_next hr).trans (congrArg _ (startRec_launch ha hk hst))
  · subst hf
    exact (recordStart_next hr).trans (congrArg _ (startRec_graph ha hk hformed hbody hvalid hok))
  · subst hf
    exact (recordStart_next hr).trans (congrArg _ (startRec_retire ha hk hformed hok))
  · refine (recordComplete_ended hr hc).trans (congrArg _ ?_)
    exact s.completeRec_eq r c
  · simp only [exec, execQueueTeardown, State.tearStep, show (s.tearing.find? fun t => t.fn == f && t.q == q) = none from hidle]
    rfl
  · simp only [exec, execQueueAbort, State.tearStep, show (s.tearing.find? fun t => t.fn == f && t.q == q) = none from hidle]
    rfl
  · simp only [exec, execQueueReset, State.tearStep, show (s.tearing.find? fun t => t.fn == f && t.q == q) = none from hidle]
    rfl
  · obtain ⟨htd, hrecs, rfl, rfl⟩ := hfin
    have hstep (abort reset : Bool) : s.tearStep td.fn td.q abort reset =
        ends (if td.reset then { x with head := 0, tail := 0 } else { x with enable := false }) := by
      simp only [State.tearStep, htd, State.torn, hrecs, List.isEmpty_nil, if_true]
      exact s.finishTear_eq td
    rcases hi with rfl | rfl | rfl
    · exact congrArg Host.Outcome.next (hstep false false)
    · exact congrArg Host.Outcome.next (hstep true false)
    · exact congrArg Host.Outcome.next (hstep abort true)
  · refine congrArg Host.Outcome.next (if_neg ?_)
    intro hon
    obtain ⟨y, hy, hye⟩ := List.any_eq_true.mp hon
    exact Bool.noConfusion ((hoff y hy).symm.trans hye)

end Sys2Proof
end

