-- ==== Sys2Proof/Proofs/GraphNodes.lean ====
section
/-! SUPPORT. Nodes of graphs: how they start, complete, and are evaluated (R366-R370). -/

namespace Sys2Proof

open Machine

/-- A node without a body that is ready starts (R366, R368). -/
theorem nodeStart_ready {s : State} {r : Rec} {k : Fin 4096} {n : Nat} (hr : s.findRec r.id = some r)
    (hready : r.nodeReady k.val = true) (hk : (r.node k.val).kind = n) (hn : n ≠ 5 ∧ n ≠ 6) : exec (.nodeStart r.id k) s = .next (s.startNode r k) := by
  have hbody : (r.node k.val).hasBody = false := by simp [Node.hasBody, hk, hn]
  simp only [exec, execNodeStart, State.nodeStart, hr, hready, hbody, Bool.not_false, Bool.and_self, if_true]

/-- A record is changed by what changes it itself, where its number names it alone. -/
theorem Machine.State.mapRec_congr {s : State} {r : Rec} {f g : Rec → Rec} (h : ∀ y, y ∈ s.records → y.id = r.id → y = r)
    (hfg : f r = g r) : s.mapRec r.id f = s.mapRec r.id g := by
  have hmap : (s.records.map fun y => if y.id = r.id then f y else y) = s.records.map fun y => if y.id = r.id then g y else y := by
    refine List.map_congr_left fun y hy => ?_
    by_cases hid : y.id = r.id
    · rw [if_pos hid, if_pos hid, h y hy hid, hfg]
    · rw [if_neg hid, if_neg hid]
  simp only [State.mapRec, hmap]

/-- A signal node whose word can be reached writes or adds it (R366). -/
theorem startNode_signal {s u : State} {r : Rec} {k : Fin 4096} (hk : (r.node k.val).kind = 4)
    (hread : (r.node k.val).word 3 = 0 ∨ (s.nodeRead (s.fnPart r.fn) ((r.node k.val).word 1) 8).isSome = true)
    (hwrite : s.nodeWrite (s.fnPart r.fn) ((r.node k.val).word 1)
      (if (r.node k.val).word 3 = 0 then (r.node k.val).word 2
        else ((s.nodeRead (s.fnPart r.fn) ((r.node k.val).word 1) 8).getD 0 + (r.node k.val).word 2) % 2 ^ 64) 8 .atomic = (u, true)) :
    s.startNode r k = u.mapRec r.id fun r => r.ran k.val 0 := by
  by_cases h3 : (r.node k.val).word 3 = 0
  · rw [if_pos h3] at hwrite
    simp only [State.startNode, hk, h3, if_true, hwrite]
  · obtain ⟨old, hold⟩ := Option.isSome_iff_exists.mp (hread.resolve_left h3)
    rw [if_neg h3, hold, Option.getD_some] at hwrite
    simp only [State.startNode, hk, h3, if_false, hold, Option.map_some, hwrite, if_true]

/-- A cond that is ready, its word read (R368). -/
theorem condEvaluate_ready {s : State} {r : Rec} {k : Fin 4096} {v : Nat} (hr : s.findRec r.id = some r)
    (hready : r.nodeReady k.val = true) (hk : (r.node k.val).kind = 5)
    (hread : s.nodeRead (s.fnPart r.fn) ((r.node k.val).word 1) 4 = some v) :
    s.condEvaluate r.id k = if v = 0 then s.mapRec r.id fun r => r.ran k.val 0
      else s.mapRec r.id fun r => (r.freshBody k.val).setNode k.val fun x => { x with state := .body } := by
  simp only [State.condEvaluate, hr, hk, hready, hread, beq_self_eq_true, Bool.and_self, Bool.not_true, Bool.false_eq_true, if_false]
  cases v <;> rfl

/-- The iterations of a loop's body that have been done when it evaluates (R368). -/
def Machine.Node.done (x : Node) : Nat := if x.state = .body then x.iters + 1 else x.iters

/-- A loop that is due, its word read (R368). -/
theorem loopEvaluate_due {s : State} {r : Rec} {k : Fin 4096} {v : Nat} (hr : s.findRec r.id = some r)
    (hdue : r.loopDue k.val = true) (hread : s.nodeRead (s.fnPart r.fn) ((r.node k.val).word 1) 4 = some v) :
    s.loopEvaluate r.id k =
      if v = 0 ∨ (r.node k.val).done = (r.node k.val).word 3 then
        (if (r.node k.val).word 4 = 0 then (s, true)
          else s.nodeWrite (s.fnPart r.fn) ((r.node k.val).word 4) (r.node k.val).done 4 .write).1.mapRec r.id fun q =>
          (q.ran k.val (if (if (r.node k.val).word 4 = 0 then (s, true)
            else s.nodeWrite (s.fnPart r.fn) ((r.node k.val).word 4) (r.node k.val).done 4 .write).2 then 0 else 9)).setNode k.val
              fun x => { x with iters := (r.node k.val).done }
      else s.mapRec r.id fun q =>
        (q.freshBody k.val).setNode k.val fun x => { x with state := .body, iters := (r.node k.val).done } := by
  have hdone : (if (r.node k.val).state == .body then (r.node k.val).iters + 1 else (r.node k.val).iters) = (r.node k.val).done := by
    simp only [Node.done, beq_iff_eq]
  simp only [State.loopEvaluate, hr, hdue, hread, Bool.not_true, Bool.false_eq_true, if_false, hdone, Bool.or_eq_true,
    decide_eq_true_eq]

/-- Settles O46, event by event. -/
theorem graphNodes : Obligations.GraphNodes := by
  intro s u r k v c x part launch ran iters again hr huniq
  refine ⟨fun hready => ⟨fun hk hst => ?_, fun hk => ?_, fun hk hcopy => ?_, fun hk hread hwrite => ?_, fun hk hread => ?_⟩,
    fun hrun hend => ?_, fun hdue hread hv hit => ?_, fun hdue hread hstop hword => ?_⟩
  · refine (nodeStart_ready hr hready hk (by decide)).trans (congrArg _ ?_)
    have hst' : s.launchStatus (s.fns[r.fn.val]) (s.fnPart r.fn) r.snap
      ((List.range 16).map (s.snapWord (s.fnPart r.fn) r.snap ((r.node k.val).word 1))) = 0 := hst
    simp only [State.startNode, show (r.node k.val).kind = 1 from hk, hst']
    rfl
  · refine (nodeStart_ready hr hready hk (by decide)).trans (congrArg _ ?_)
    simp only [State.startNode, show (r.node k.val).kind = 3 from hk]
    rfl
  · refine (nodeStart_ready hr hready hk (by decide)).trans (congrArg _ ?_)
    have hcopy' : State.nodeCopy (s.fnPart r.fn) ((r.node k.val).word 1) ((r.node k.val).word 2) ((r.node k.val).word 3) s = (u, true) :=
      hcopy
    simp only [State.startNode, show (r.node k.val).kind = 2 from hk, hcopy', if_true]
    rfl
  · refine (nodeStart_ready hr hready hk (by decide)).trans (congrArg _ ?_)
    exact startNode_signal hk hread hwrite
  · refine congrArg Host.Outcome.next ((condEvaluate_ready hr hready hk hread).trans ?_)
    rfl
  · refine congrArg Host.Outcome.next (State.mapRec_congr huniq ?_)
    simp only [show (r.node k.val).state = .running from hrun, show (r.node k.val).ended = some c from hend]
  · have hloop := loopEvaluate_due hr hdue hread
    refine congrArg Host.Outcome.next (hloop.trans (if_neg ?_))
    exact fun h => h.elim hv hit
  · have hloop := loopEvaluate_due hr hdue hread
    refine congrArg Host.Outcome.next ((hloop.trans (if_pos hstop)).trans ?_)
    rcases hword with ⟨hw, rfl⟩ | ⟨hw, hwrite⟩
    · simp only [show (r.node k.val).word 4 = 0 from hw, if_true]
      rfl
    · simp only [show ¬ (r.node k.val).word 4 = 0 from hw, if_false]
      have hwrite' : s.nodeWrite (s.fnPart r.fn) ((r.node k.val).word 4) (r.node k.val).done 4 .write = (u, true) := hwrite
      simp only [hwrite', if_true]
      rfl

end Sys2Proof
end

