-- ==== Sys2Proof/Proofs/HaltInRetention.lean ====
section
/-! SUPPORT. A halt of a team whose cluster is in retention (R402, R403, R436). -/

namespace Sys2Proof

open Machine

/-- A resident team homed on cluster 0. -/
def retainedTeam : Team := { id := 0, rcb := 0, home := 0, part := 0, ntiles := 1, tmap := Vector.replicate 16 0 }

/-- The team on tile 0 of its cluster, which is in retention. -/
def teamInRetention : State :=
  let s := State.reset.mapTile fun t => { t with team := some (0, 0) }
  { s with teams := [retainedTeam], clusters := s.clusters.set 0 { (s.clusters[0]) with state := .retention } }

/-- Whether the focus tile of an outcome's state has stopped. -/
def tileStopped (o : Host.Outcome State Fault Refusal) : Option Bool :=
  match o with
  | .next u => some u.tile.stopped
  | .fault _ | .refused _ => none

/-- Refutes O47: the tiles of a cluster in retention stop only once it runs (R436), so that a halt does not stop them at once. -/
theorem not_windowSteps : ¬ Obligations.WindowSteps := fun h => by
  obtain ⟨-, -, -, -, hhalt, -⟩ := h teamInRetention 0 0 0 false 0 retainedTeam 0 0 0 0 0 false
  have hs := hhalt (by decide +kernel) (by decide +kernel) rfl rfl
  have hb := congrArg tileStopped hs
  revert hb
  decide +kernel

end Sys2Proof
end

