-- ==== Sys2Proof/Proofs/KilnSteps.lean ====
section
/-! SUPPORT. Kiln's steps on a cluster: hops, droops, warnings, calibration, table records (R429-R434, R447). -/

namespace Sys2Proof

open Machine

/-! ## Hops -/

/-- A cluster whose clock runs hops where it may (R430). -/
theorem Machine.State.hopTo_begins {s : State} {c : ClusterNo} {f : Nat}
    (hclock : (s.clusters[c.val]).state = .running ∨ (s.clusters[c.val]).state = .quarantine) (hmay : s.mayHop c f = true) :
    s.hopTo c f = s.mapCluster c fun x => x.startHop f := by
  rcases hclock with h | h <;> simp only [State.hopTo, h, hmay, Bool.true_or, if_true]

/-- A hop ends at the clock that it is for, where it may land there (R430). -/
theorem Machine.State.hopTo_ends {s : State} {c : ClusterNo} {h : Hop} {f g : Nat} (hst : (s.clusters[c.val]).state = .hopping)
    (hhop : (s.clusters[c.val]).hop = some h) (hf : h.new = f) (hland : s.landsAt c h = some g) :
    s.hopTo c f = s.mapCluster c fun x => x.endHop g := by
  simp only [State.hopTo, hst, hhop, hf, bne_self_eq_false, Bool.false_eq_true, if_false, hland]

/-- A hop that may rise, or does not, lands at its clock (R430, R439). -/
theorem Machine.State.landsAt_new {s : State} {c : ClusterNo} {h : Hop} (hcal : (s.clusters[c.val]).cal = none)
    (hrise : h.new ≤ h.old ∨ s.mayRise s.clusters[c.val] = true) (hrun : s.mayRun c h.new = true) : s.landsAt c h = some h.new := by
  have hup : (decide (h.new ≤ h.old) || s.mayRise s.clusters[c.val]) = true := by simpa using hrise
  simp only [State.landsAt, hcal, hup, hrun, Option.isSome_none, Bool.false_eq_true, if_false, if_true]

theorem Machine.State.landsAt_anchor {s : State} {c : ClusterNo} {h : Hop} {r : CalRun} (hcal : (s.clusters[c.val]).cal = some r) :
    s.landsAt c h = some h.new := by
  simp only [State.landsAt, hcal, Option.isSome_some, if_true]

/-- A change of a cluster looks at that cluster alone. -/
theorem Machine.State.mapCluster_congr {s : State} {c : ClusterNo} {f g : Cluster → Cluster}
    (h : f s.clusters[c.val] = g s.clusters[c.val]) : s.mapCluster c f = s.mapCluster c g := by
  simp only [State.mapCluster, h]

/-- A cluster whose hop has ended and that does not calibrate. -/
theorem Machine.Cluster.landed_plain {x : Cluster} {h : Hop} (hh : x.hop = some h) (hc : x.cal = none) :
    x.landed = if h.quar then .quarantine else .running := by
  cases hq : h.quar <;> simp [Cluster.landed, hh, hc, hq]

/-- A cluster whose hop has ended and that calibrates. -/
theorem Machine.Cluster.landed_calibrating {x : Cluster} {h : Hop} {r : CalRun} (hh : x.hop = some h) (hq : h.quar = false)
    (hc : x.cal = some r) : x.landed = .calibrating := by
  simp [Cluster.landed, hh, hc, hq]

/-- A clock that a cluster may have, and that it may rise to where it is a higher one (R430, R431, R439). -/
theorem Machine.State.mayHop_of {s : State} {c : ClusterNo} {f : Nat} (hrun : s.mayRun c f = true)
    (hne : f ≠ (s.clusters[c.val]).freq) (hwait : (s.clusters[c.val]).waits s.time.toNat = false)
    (hrise : f < (s.clusters[c.val]).freq ∨ s.mayRise s.clusters[c.val] = true) : s.mayHop c f = true := by
  have hup : (decide (f < (s.clusters[c.val]).freq) || s.mayRise s.clusters[c.val]) = true := by simpa using hrise
  simp only [State.mayHop, hrun, bne_iff_ne.mpr hne, hwait, hup, Bool.not_false, Bool.and_self]

/-- A cluster that runs, or is in quarantine, has a clock that runs (R429). -/
theorem Machine.Cluster.ticks_of {x : Cluster} (h : x.state = .running ∨ x.state = .quarantine) : x.ticks = true := by
  rcases h with h | h <;> simp [Cluster.ticks, h]

/-- An aborted hop is tried again once its time has come (R431). -/
theorem Machine.State.retryDue_of {s : State} {c : ClusterNo} {f t : Nat}
    (hclock : (s.clusters[c.val]).state = .running ∨ (s.clusters[c.val]).state = .quarantine)
    (hretry : (s.clusters[c.val]).retry = some (f, t)) (hdue : t ≤ s.time.toNat)
    (hrise : f ≤ (s.clusters[c.val]).freq ∨ s.mayRise s.clusters[c.val] = true) : s.retryDue c = some f := by
  have hup : (decide (f ≤ (s.clusters[c.val]).freq) || s.mayRise s.clusters[c.val]) = true := by simpa using hrise
  simp only [State.retryDue, hretry, Cluster.ticks_of hclock, decide_eq_true hdue, hup, Bool.and_self, if_true]

/-- A hop that is not a calibration's ends (R430). -/
theorem Machine.Cluster.endHop_plain {x : Cluster} {h : Hop} {f : Nat} (hh : x.hop = some h) (hc : x.cal = none) :
    x.endHop f = { x with
      state := if h.quar then .quarantine else .running, hop := none, freq := f, volt := x.output f
      held := x.held.filter fun g => decide (f < g) } := by
  simp only [Cluster.endHop, Cluster.landed_plain hh hc, hc, Option.map_none]

/-- A calibration's hop ends (R430, R433). -/
theorem Machine.Cluster.endHop_calibrating {x : Cluster} {h : Hop} {r : CalRun} {f : Nat} (hh : x.hop = some h)
    (hq : h.quar = false) (hc : x.cal = some r) :
    x.endHop f = { x with
      state := .calibrating, hop := none, freq := f, volt := x.output f, held := x.held.filter fun g => decide (f < g)
      cal := some { r with top := x.output f } } := by
  simp only [Cluster.endHop, Cluster.landed_calibrating hh hq hc, hc, Option.map_some]

/-- A droop aborts a hop that is not a calibration's (R431). -/
theorem Machine.State.abortHop_plain {s : State} {c : ClusterNo} {h : Hop} (hst : (s.clusters[c.val]).state = .hopping)
    (hh : (s.clusters[c.val]).hop = some h) (hc : (s.clusters[c.val]).cal = none) :
    s.abortHop c = (s.mapCluster c fun x => { x.retune with
      state := if h.quar then .quarantine else .running, hop := none, aborts := x.aborts + 1, droops := x.droops + 1
      retry := some (h.new, s.time.toNat + retryAfter) }).logEvent 1 c := by
  simp only [State.abortHop, hst, hh]
  refine congrArg (State.logEvent · 1 c) (State.mapCluster_congr ?_)
  exact congrArg (fun st => { (s.clusters[c.val]).retune with
    state := st, hop := none, aborts := (s.clusters[c.val]).aborts + 1, droops := (s.clusters[c.val]).droops + 1
    retry := some (h.new, s.time.toNat + retryAfter) }) (Cluster.landed_plain hh hc)

/-! ## Calibration -/

/-- The end of a calibration (R433). -/
theorem Machine.Cluster.endCal_run {x : Cluster} {r : CalRun} (hc : x.cal = some r) :
    x.endCal = if r.back = x.freq then ({ x with cal := none, retry := none, state := .running } : Cluster).retune
      else ({ x with cal := none, retry := none } : Cluster).startHop r.back := by
  simp only [Cluster.endCal, hc, Option.map_some, Option.getD_some]

/-- A calibrating cluster hops to the anchor that it is to test (R433). -/
theorem Machine.State.calibrate_hops {s : State} {c : ClusterNo} {r : CalRun} (hst : (s.clusters[c.val]).state = .calibrating)
    (hcal : (s.clusters[c.val]).cal = some r) (hwait : (s.clusters[c.val]).waits s.time.toNat = false)
    (hne : (s.clusters[c.val]).freq ≠ anchorFreq r.anchor) :
    s.calibrate c = s.mapCluster c fun x => x.startHop (anchorFreq r.anchor) := by
  have hop : (s.clusters[c.val]).calHop = some (anchorFreq r.anchor) := by
    rw [Cluster.calHop, hcal]
    exact if_neg hne
  simp only [State.calibrate, hst, hcal, hop, hwait, Bool.false_eq_true, if_false]

/-- A calibrating cluster at its anchor runs a pattern (R433). -/
theorem Machine.State.calibrate_pattern {s : State} {c : ClusterNo} {r : CalRun} (hst : (s.clusters[c.val]).state = .calibrating)
    (hcal : (s.clusters[c.val]).cal = some r) (hfreq : (s.clusters[c.val]).freq = anchorFreq r.anchor) :
    s.calibrate c = match (s.clusters[c.val]).pattern r ((Config.freeWord s.freeCtr).getLsbD 63) with
      | some y => ({ s with freeCtr := s.freeCtr + 1 } : State).mapCluster c fun _ => y
      | none => (({ s with freeCtr := s.freeCtr + 1 } : State).mapCluster c Cluster.endCal).logEvent 6 c := by
  have hop : (s.clusters[c.val]).calHop = none := by
    rw [Cluster.calHop, hcal]
    exact if_pos hfreq
  simp only [State.calibrate, hst, hcal, hop, State.fresh] <;> rfl

/-- A pattern that passes lowers the voltage (R433). -/
theorem Machine.Cluster.pattern_pass {x : Cluster} {r : CalRun} (h : 500 < x.volt) :
    x.pattern r true = some { x with volt := x.volt - 5 } := by
  simp only [Cluster.pattern, if_true, Nat.not_le.mpr h, if_false]

/-- A pattern that fails below the first voltage: the last that passed is the anchor's, and the next anchor follows (R433). -/
theorem Machine.Cluster.pattern_next {x : Cluster} {r : CalRun} {a : Fin 8} (h : x.volt < r.top) (ha : a.val = r.anchor.val + 1) :
    x.pattern r false = some ((x.setVmin r.anchor (x.volt + 5)).testAt r.back a) := by
  have hlt : r.anchor.val + 1 < 8 := ha ▸ a.isLt
  have hfin : (⟨r.anchor.val + 1, hlt⟩ : Fin 8) = a := Fin.ext ha.symm
  simp only [Cluster.pattern, Bool.false_eq_true, if_false, Nat.not_le.mpr h, hlt, dif_pos, hfin]

/-- A cluster whose record is good (R433). -/
def Machine.Cluster.recorded (x : Cluster) : Cluster := { x with krec := { x.krec with good := true } }

/-- The same at the last anchor: the record is good, and the calibration ends (R433). -/
theorem Machine.Cluster.pattern_last {x : Cluster} {r : CalRun} (hc : x.cal = some r) (h : x.volt < r.top) (ha : r.anchor.val = 7) :
    x.pattern r false = some (if r.back = x.freq
      then ({ (x.setVmin r.anchor (x.volt + 5)).recorded with cal := none, retry := none, state := .running } : Cluster).retune
      else ({ (x.setVmin r.anchor (x.volt + 5)).recorded with cal := none, retry := none } : Cluster).startHop r.back) := by
  have hlt : ¬ r.anchor.val + 1 < 8 := by omega
  have hend := endCal_run (x := (x.setVmin r.anchor (x.volt + 5)).recorded) (r := r) hc
  simp only [Cluster.pattern, Bool.false_eq_true, if_false, Nat.not_le.mpr h, hlt, dif_neg, not_false_eq_true]
  exact congrArg some hend

/-- A pattern that fails at the first voltage fails the calibration (R433). -/
theorem Machine.Cluster.pattern_none {x : Cluster} {r : CalRun} (h : r.top ≤ x.volt) : x.pattern r false = none := by
  simp only [Cluster.pattern, Bool.false_eq_true, if_false, h, if_true]

/-! ## Table records -/

/-- A good record whose hour has come is signed (R434, R447). -/
theorem Machine.State.updateRecord_signs {s : State} {c : ClusterNo} {key : Key} (hnext : (s.clusters[c.val]).krecNext ≤ s.time.toNat)
    (hgood : (s.clusters[c.val]).krec.good = true) (hsign : (s.nvs.dieKeys[(dieOf c).val]).sign = some key) :
    s.updateRecord c = { (s.mapCluster c fun x => { x with krecNext := s.time.toNat + hour }) with
      freeCtr := s.freeCtr + 2
      nvs := { (s.nvs.setHeader (6 + c.val) 0 96 (Config.freeWord s.freeCtr)) with
        kiln := s.nvs.kiln.set c.val { (s.clusters[c.val]).krec with
          sigref := vecAt 2 fun k => Config.freeWord (s.freeCtr + (if k = 0 then 0 else 1))
          mode := BitVec.ofNat 2 (2 * (s.clusters[c.val]).calib.toNat + (s.clusters[c.val]).canary.toNat)
          time := BitVec.ofNat 48 s.time.toNat
          hours := (s.clusters[c.val]).krec.hours + BitVec.ofNat 32 (s.time.toNat / hour), good := true }
        dieKeys := s.nvs.dieKeys.set (dieOf c).val key } } := by
  have hdue : (decide (s.time.toNat < (s.clusters[c.val]).krecNext) || !(s.clusters[c.val]).krec.good) = false := by
    simp [hgood, Nat.not_lt.mpr hnext]
  simp only [State.updateRecord, hdue, hsign, Bool.false_eq_true, if_false, State.fresh]
  rfl

/-- Settles O48, event by event. -/
theorem kilnSteps : Obligations.KilnSteps := by
  intro s c f h n t0 key r x now sets spent pass raised held at' tuned hops tests ends found clock
  refine ⟨fun hclock hrun hne hwait hrise => ?_, fun hst hhop hcal hf hrun hrise => ?_, fun hst hhop hcal => ?_,
    fun hclock hretry hdue hrun hrise => ?_, fun hcan => ?_, fun hrate => ?_, fun hmode hquiet => ?_, fun hst hcalib hidle hretry => ?_,
    fun hst hcal hwait hne => ?_, fun hst hhop hq hcal hf => ?_, fun hst hcal hwait => ?_,
    fun hst hcal hfreq => ⟨fun hpass hvolt => ?_, fun hpass hvolt => ⟨fun a ha => ?_, fun ha => ?_⟩, fun hpass hvolt => ?_⟩,
    fun hnext hgood hsign => ?_⟩
  all_goals refine congrArg Host.Outcome.next ?_
  · refine (State.hopTo_begins hclock ?_).trans rfl
    exact State.mayHop_of hrun hne hwait hrise
  · exact (State.hopTo_ends hst hhop hf (State.landsAt_new hcal hrise (hf ▸ hrun))).trans
      (State.mapCluster_congr (Cluster.endHop_plain hhop hcal))
  · exact (State.abortHop_plain hst hhop hcal).trans rfl
  · simp only [State.retryHop, State.retryDue_of hclock hretry hdue hrise, hrun, if_true]
    rfl
  · exact if_neg fun h => Bool.noConfusion (hcan.symm.trans ((Bool.not_eq_true' _).mp h))
  · exact if_neg (by simpa [State.replaysHigh] using hrate)
  · refine if_neg ?_
    have hdecays : (s.clusters[c.val]).decays s.time.toNat = true := by
      simp only [Cluster.decays, show ((s.clusters[c.val]).calib || (s.clusters[c.val]).canary) = true from hmode, Bool.true_and]
      exact decide_eq_true hquiet
    exact fun h => Bool.noConfusion (hdecays.symm.trans ((Bool.not_eq_true' _).mp h))
  · simp only [State.calibrate, show (s.clusters[c.val]).state = .running from hst, show (s.clusters[c.val]).calib = true from hcalib,
      hidle, show (s.clusters[c.val]).retry = none from hretry, Option.isNone_none, Bool.and_self, if_true]
    rfl
  · exact State.calibrate_hops hst hcal hwait hne
  · exact (State.hopTo_ends hst hhop hf (State.landsAt_anchor hcal)).trans
      (State.mapCluster_congr (Cluster.endHop_calibrating hhop hq hcal))
  · refine (if_neg ?_).trans (State.mapCluster_congr (Cluster.endCal_run hcal))
    simp [show (s.clusters[c.val]).state = .calibrating from hst, Cluster.stuckCal,
      show (s.clusters[c.val]).waits s.time.toNat = false from hwait]
  · rw [State.calibrate_pattern hst hcal hfreq, show (Config.freeWord s.freeCtr).getLsbD 63 = true from hpass,
      Cluster.pattern_pass hvolt]
    rfl
  · rw [State.calibrate_pattern hst hcal hfreq, show (Config.freeWord s.freeCtr).getLsbD 63 = false from hpass,
      Cluster.pattern_next hvolt ha]
    rfl
  · rw [State.calibrate_pattern hst hcal hfreq, show (Config.freeWord s.freeCtr).getLsbD 63 = false from hpass,
      Cluster.pattern_last hcal hvolt ha]
    rfl
  · rw [State.calibrate_pattern hst hcal hfreq, show (Config.freeWord s.freeCtr).getLsbD 63 = false from hpass,
      Cluster.pattern_none hvolt]
    exact congrArg (State.logEvent · 6 c) (State.mapCluster_congr (s := { s with freeCtr := s.freeCtr + 1 }) (Cluster.endCal_run hcal))
  · exact State.updateRecord_signs hnext hgood hsign

end Sys2Proof
end

