-- ==== Sys2Proof/Proofs/PowerSteps.lean ====
section
/-! SUPPORT. The power manager's steps: in-rush, retention, quarantine, routers, operator limits (R435-R439). -/

namespace Sys2Proof

open Machine

/-! ## In-rush -/

/-- The first request goes where fewer than INMAX parts rise (R435, R439). -/
theorem Machine.State.grantDue_first {s : State} {t : Nat} {r : PowerReq} {l : List (Nat × PowerReq)}
    (h : (s.power.rising.filter fun p => s.time.toNat < p.2).length < s.power.inmax) (hq : s.power.inrush = (t, r) :: l) :
    s.grantDue = some r := by
  simp only [State.grantDue, hq]
  exact if_pos h

/-- What is then left of the requests, and what rises. -/
theorem Machine.State.grant_first {s : State} {t : Nat} {r : PowerReq} {l : List (Nat × PowerReq)}
    (h : (s.power.rising.filter fun p => s.time.toNat < p.2).length < s.power.inmax) (hq : s.power.inrush = (t, r) :: l) :
    s.grant = match r with
      | .cluster c => ({ s with power := { s.power with
          inrush := l, rising := (s.power.rising.filter fun x => s.time.toNat < x.2) ++ [(r, s.time.toNat + 200)] } } : State).powerUp c
      | .macros _ _ => { s with power := { s.power with
          inrush := l, rising := (s.power.rising.filter fun x => s.time.toNat < x.2) ++ [(r, s.time.toNat + 200)] } } := by
  have hl : s.power.inrush.drop 1 = l := by rw [hq, List.drop_one, List.tail_cons]
  simp only [State.grant, State.grantDue_first h hq, hl, riseTime]
  cases r <;> rfl

/-- A cluster that is off, its die's trim record verified, powers up. -/
theorem Machine.State.powerUp_off {s : State} {c : ClusterNo} (hst : (s.clusters[c.val]).state = .off)
    (htrim : s.nvs.trim[(dieOf c).val] = true) :
    s.powerUp c = (s.mapCluster c fun x =>
      ({ x with state := .running, issuedAt := s.time.toNat } : Cluster).retune).listTiles c := by
  simp only [State.powerUp, hst, htrim, bne_self_eq_false, Bool.not_true, Bool.or_self, Bool.false_eq_true, if_false]

/-! ## Retention and quarantine -/

/-- A cluster all of whose tiles are still goes into retention 100 µs after its last issue (R436). -/
theorem Machine.State.retain_still {s : State} {c : ClusterNo} (hr : (s.clusters[c.val]).reten = true)
    (hst : (s.clusters[c.val]).state = .running) (ht : (s.clusters[c.val]).issuedAt + 10000 ≤ s.time.toNat)
    (hstill : ∀ t, t ∈ s.tiles → t.cl = c → t.still = true) :
    s.retain c = s.mapCluster c fun x => { x with state := .retention } := by
  have hall : (s.tiles.filter fun t => t.cl == c).all Tile.still = true := by
    simpa [Decidable.or_iff_not_imp_left] using hstill
  have hlong : decide ((s.clusters[c.val]).issuedAt + retainAfter ≤ s.time.toNat) = true := decide_eq_true ht
  simp only [State.retain, hr, hst, hall, hlong, beq_self_eq_true, Bool.and_self, if_true]

/-- The tiles of a cluster that stop late stop at their bundle boundary, whatever the time (R436). -/
theorem Machine.State.stopLate_eq (s : State) (c : ClusterNo) (n : Nat) :
    s.stopLate c = s.mapTiles fun t =>
      if t.cl = c ∧ (s.teams.any fun k => k.stops.any fun c => t.stopsFor k.id c) = true then t.halt n true else t := by
  simp only [State.stopLate, Bool.and_eq_true, beq_iff_eq]
  rfl

/-- A cluster in retention that may power up and has lost nothing runs again (R436). -/
theorem Machine.State.wakeUp_kept {s : State} {c : ClusterNo} (hst : (s.clusters[c.val]).state = .retention)
    (hg : s.granted c = true) (hl : (s.clusters[c.val]).lost = false) :
    s.wakeUp c false = (s.mapCluster c fun x =>
      ({ x with state := .running, issuedAt := s.time.toNat } : Cluster).retune).stopLate c := by
  simp only [State.wakeUp, hst, hg, hl, bne_self_eq_false, Bool.not_true, Bool.or_self, Bool.false_eq_true, if_false]

/-- One that has lost an element goes into quarantine (R437). -/
theorem Machine.State.wakeUp_lost {s : State} {c : ClusterNo} {lost : Bool} (hst : (s.clusters[c.val]).state = .retention)
    (hg : s.granted c = true) (hl : ((s.clusters[c.val]).lost || lost) = true) : s.wakeUp c lost = s.quarantine c := by
  simp only [State.wakeUp, hst, hg, hl, bne_self_eq_false, Bool.not_true, Bool.false_eq_true, if_false, if_true]

/-- A cluster that does not hop goes into quarantine at once (R437). -/
theorem Machine.Cluster.toQuarantine_still {x : Cluster} (h : x.hop = none) :
    x.toQuarantine = ({ x with cal := none, lost := false, state := .quarantine } : Cluster).retune := by
  simp only [Cluster.toQuarantine, h]

/-- A quarantined cluster that passes its patterns runs (R437). -/
theorem Machine.State.release_pass {s : State} {c : ClusterNo} (hst : (s.clusters[c.val]).state = .quarantine)
    (h : (Config.freeWord s.freeCtr).getLsbD 63 = true) :
    s.release c = (({ s with freeCtr := s.freeCtr + 1 } : State).mapCluster c fun x =>
      ({ (measured s.freeCtr x) with state := .running, issuedAt := s.time.toNat } : Cluster).retune).logEvent 5 c := by
  simp only [State.release, hst, State.fresh, h, bne_self_eq_false, Bool.false_eq_true, if_false, if_true]

/-- One that does not stays (R437). -/
theorem Machine.State.release_fail {s : State} {c : ClusterNo} (hst : (s.clusters[c.val]).state = .quarantine)
    (h : (Config.freeWord s.freeCtr).getLsbD 63 = false) :
    s.release c = ({ s with freeCtr := s.freeCtr + 1 } : State).logEvent 6 c := by
  simp only [State.release, hst, State.fresh, h, bne_self_eq_false, Bool.false_eq_true, if_false]

/-! ## Routers -/

/-- Whether a cluster is one whose router may go down. -/
theorem Machine.Cluster.asleep_of {x : Cluster} (h : x.state = .retention ∨ x.state = .off) :
    (x.state == .retention || x.state == .off) = true := by
  rcases h with h | h <;> rw [h] <;> rfl

/-- A router that has been quiet announces that it goes down (R438). -/
theorem Machine.State.routerDown_intent {s : State} {c : ClusterNo}
    (hst : (s.clusters[c.val]).state = .retention ∨ (s.clusters[c.val]).state = .off) (hc : s.callers c = false)
    (hr : (s.clusters[c.val]).router = .up) (hq : (s.clusters[c.val]).flitAt + 13 ≤ s.time.toNat) :
    s.routerDown c = s.mapCluster c fun x => { x with router := .intent } := by
  have hquiet : decide ((s.clusters[c.val]).flitAt + quietTime ≤ s.time.toNat) = true := decide_eq_true hq
  simp only [State.routerDown, hr, Cluster.asleep_of hst, hc, hquiet, Bool.not_false, Bool.and_self, if_true]

/-- What an announced router does: it goes down, or stays up for a flit (R438). -/
theorem Machine.State.routerDown_commit {s : State} {c : ClusterNo} (hr : (s.clusters[c.val]).router = .intent) :
    s.routerDown c = s.mapCluster c fun x => { x with
      router := if ((s.clusters[c.val]).state == .retention || (s.clusters[c.val]).state == .off) && !s.callers c
        then .down else .up } := by
  simp only [State.routerDown, hr]

/-! ## Operator limits -/

/-- The clocks are lowered where some are to be and the last step is 100 µs old (R439). -/
theorem Machine.State.throttle_steps {s : State} (hne : (List.finRange 48).filter (fun c => s.tooMuch s.clusters[c.val]) ≠ [])
    (ht : ∀ t, s.power.throttleAt = some t → t + 10000 ≤ s.time.toNat) :
    s.throttle = ((List.finRange 48).filter fun c => s.tooMuch s.clusters[c.val]).foldl
      (fun s c => (s.mapCluster c Cluster.lower).logEvent 7 c)
      { s with power := { s.power with throttleAt := some s.time.toNat } } := by
  have hany : (s.power.throttleAt.any fun t => decide (s.time.toNat < t + throttleEvery)) = false := by
    cases hat : s.power.throttleAt with
    | none => rfl
    | some t => exact decide_eq_false (Nat.not_lt.mpr (ht t hat))
  have hemp : ((List.finRange 48).filter fun c => s.tooMuch s.clusters[c.val]).isEmpty = false := by
    simpa using hne
  simp only [State.throttle, hemp, hany, Bool.or_self, Bool.false_eq_true, if_false]

/-- A lowered cluster is raised by a step once power has stayed low (R439). -/
theorem Machine.State.restoreCluster_raises {s : State} {c : ClusterNo} {t f : Nat} (hcool : s.power.coolSince = some t)
    (ht : t + 100000 ≤ s.time.toNat) (habove : s.power.above = false) (hheld : (s.clusters[c.val]).held = some f)
    (hlow : (s.clusters[c.val]).freq < f) (hticks : (s.clusters[c.val]).ticks = true)
    (hwait : (s.clusters[c.val]).waits s.time.toNat = false) (htemp : (s.clusters[c.val]).temp.toNat ≤ s.power.tjmax)
    (hrun : s.mayRun c ((s.clusters[c.val]).freq + 1) = true) :
    s.restoreCluster c = s.mapCluster c fun x => x.startHop ((s.clusters[c.val]).freq + 1) := by
  have hc : s.cool = true := by
    simp only [State.cool, hcool, Option.any_some]
    exact decide_eq_true ht
  have hmay : s.mayRaise s.clusters[c.val] = true := by
    simp only [State.mayRaise, State.mayRise, hheld, hticks, hwait, habove, decide_eq_true htemp, hc, Option.isSome_some,
      Bool.not_false, Bool.or_true, Bool.and_self]
  simp only [State.restoreCluster, hheld, hmay, hrun, decide_eq_false (Nat.not_le.mpr hlow), Bool.not_true, Bool.or_self,
    Bool.false_eq_true, if_false]

/-- Settles O49, event by event. -/
theorem powerSteps : Obligations.PowerSteps := by
  intro s c l d g lost t0 x p now rising sets tuned taken asleep cs hops fenced starts
  refine ⟨fun hs hq hst htrim => ?_, fun hs hq => ?_, fun hr hst ht hstill => ?_, fun hst hg hl => ?_, fun hst hhop hg hl => ?_,
    fun hst => ⟨fun h => ?_, fun h => ?_⟩, fun hst hc hr hq => ?_, fun hst hc hr => ?_, fun hr hc => ?_, rfl,
    fun hne ht => ?_, fun hcool ht habove f hheld hlow hticks hwait htemp hrun => ?_, rfl⟩
  · exact congrArg Host.Outcome.next ((State.grant_first hs hq).trans (State.powerUp_off hst htrim))
  · exact congrArg Host.Outcome.next (State.grant_first hs hq)
  · exact congrArg Host.Outcome.next (State.retain_still hr hst ht hstill)
  · exact congrArg Host.Outcome.next ((State.wakeUp_kept hst hg hl).trans (State.stopLate_eq _ c s.clock))
  · exact congrArg Host.Outcome.next ((State.wakeUp_lost hst hg hl).trans
      (congrArg (State.logEvent · 4 c) (congrArg (List.foldl State.loseTeam · ((s.teams.filter fun k => k.home == c).map (·.id)))
        (State.mapCluster_congr (Cluster.toQuarantine_still hhop)))))
  · exact congrArg Host.Outcome.next (State.release_pass hst h)
  · exact congrArg Host.Outcome.next (State.release_fail hst h)
  · exact congrArg Host.Outcome.next (State.routerDown_intent hst hc hr hq)
  · refine congrArg Host.Outcome.next ((State.routerDown_commit hr).trans (State.mapCluster_congr ?_))
    rw [Cluster.asleep_of hst, hc]
    rfl
  · refine congrArg Host.Outcome.next ((State.routerDown_commit hr).trans (State.mapCluster_congr ?_))
    rw [hc, Bool.not_true, Bool.and_false]
    rfl
  · exact congrArg Host.Outcome.next (State.throttle_steps hne ht)
  · exact State.restoreCluster_raises hcool ht habove hheld hlow hticks hwait htemp hrun

end Sys2Proof
end

