-- ==== Sys2Proof/Proofs/FleetSteps.lean ====
section
/-! SUPPORT. The fleet's steps: ports, duties, the spare tile, firmware, attestation, the host and other devices (R421-R424,
R444-R449). -/

namespace Sys2Proof

open Machine

/-! ## Ports and parts that take over -/

/-- A port whose selection is accepted comes up with a partner of its MAJOR (R421). -/
theorem Machine.State.train_partner {s : State} {p : PortNo} {peer : BitVec 19} {v : Word}
    (hack : (s.ports[p.val]).sel.ack = true) (hmajor : (selOf v true).major = (s.ports[p.val]).sel.major)
    (htrim : s.nvs.trim[(Fin.ofNat 4 (p.val / 6) : DieNo)] = true) :
    s.train p peer v = { s with ports := s.ports.set p.val { (s.ports[p.val]) with
      up := true, peer := peer
      minor := if (selOf v true).minor < (s.ports[p.val]).sel.minor then (selOf v true).minor else (s.ports[p.val]).sel.minor
      feat := ((selOf v true).feat &&& (s.ports[p.val]).sel.feat).setWidth 16 } } := by
  have hon : s.dieOn (Fin.ofNat 4 (p.val / 6)) = true := htrim
  have hcond : ((s.ports[p.val]).sel.ack && (selOf v true).major == (s.ports[p.val]).sel.major
      && s.dieOn (Fin.ofNat 4 (p.val / 6))) = true := by
    rw [hack, hmajor, hon, beq_self_eq_true]
    rfl
  simp only [State.train, hcond, if_true]

/-- The core after a die is another one. -/
theorem Machine.nextCore_ne (d : DieNo) : d.val ≠ (nextCore d).val := by
  revert d
  decide

/-- The first core after a die whose own heart beats is the next one, where its duty is its own (R444). -/
theorem Machine.State.substitute_next {s : State} {d : DieNo} (h : (s.dies[(nextCore d).val]).duty = none) (n : Nat) :
    s.substitute (n + 1) d = nextCore d := by
  simp only [State.substitute, h, Option.isNone_none, if_true]

/-- The next core takes a silent one's duty, and what that one had taken (R444). -/
theorem Machine.State.takeDuty_next {s : State} {d : DieNo} (h : (s.dies[(nextCore d).val]).duty = none) :
    s.takeDuty d = { s with
      dies := (s.dies.set d.val { (s.dies[d.val]) with duty := some (nextCore d) }).map fun x =>
        if x.duty == some d then { x with duty := some (nextCore d) } else x } := by
  have hkeep : ∀ f : Die → Die, ((s.mapDie d f).dies[(nextCore d).val]).duty = none := fun f => by
    simp only [State.mapDie, Vector.getElem_set_ne d.isLt (nextCore d).isLt (nextCore_ne d), h]
  simp only [State.takeDuty, State.substitute_next h, State.substitute_next (hkeep _)]
  rfl

/-- Two changes of one cluster are one. -/
theorem Machine.State.mapCluster_mapCluster (s : State) (c : ClusterNo) (f g : Cluster → Cluster) :
    (s.mapCluster c f).mapCluster c g = s.mapCluster c fun x => g (f x) := by
  simp only [State.mapCluster, Vector.getElem_set_self, Vector.set_set]

/-- A cluster's change and a count of free values taken are independent. -/
theorem Machine.State.mapCluster_freeCtr' (s : State) (c : ClusterNo) (n : Nat) (f : Cluster → Cluster) :
    ({ s with freeCtr := n } : State).mapCluster c f = { (s.mapCluster c f) with freeCtr := n } := rfl

/-- A cluster that forgets the errors of a tile (R444). -/
def Machine.Cluster.forgets (x : Cluster) (m : TileNo) : Cluster := { x with errLog := x.errLog.filter fun p => p.1 != m }

/-- The state in which a takeover is decided (R444). -/
def Machine.State.failing (s : State) (c : ClusterNo) (m : TileNo) : State :=
  { (s.mapCluster c (·.forgets m)) with freeCtr := s.freeCtr + 1 }

/-- A failed tile of a cluster, the spare-tile map standing: what the takeover does (R444). -/
theorem Machine.State.takeSpare_tile {s : State} {c : ClusterNo} {m : TileNo} (hlt : m.val < 16) (hs : s.nvs.spares = true) :
    s.takeSpare c m = match (s.clusters[c.val]).spare with
      | none =>
        if (s.clusters[c.val]).spareBad then (s.failing c m).quarantine c
        else
          { ((s.failing c m).mapCluster c fun x => { x with spare := some ⟨m.val, hlt⟩ }) with
            nvs := { (s.nvs.setHeader 1 (s.nvs.headers[1]).svn (s.nvs.headers[1]).len.toNat (Config.freeWord s.freeCtr)) with
              spareMap := s.nvs.spareMap.set c.val (some ⟨m.val, hlt⟩) } }
      | some u => if u = ⟨m.val, hlt⟩ then s.failing c m else (s.failing c m).quarantine c := by
  have hmap : ¬ (!s.nvs.spares) = true := by rw [hs]; decide
  exact (dif_pos hlt).trans ((if_neg hmap).trans rfl)

/-- The spare tile stands in for a tile of a cluster that has used none (R444, R446). -/
theorem Machine.State.takeSpare_first {s : State} {c : ClusterNo} {m : TileNo} {t : Fin 16} (hs : s.nvs.spares = true)
    (hnone : (s.clusters[c.val]).spare = none) (hgood : (s.clusters[c.val]).spareBad = false) (hm : m.val = t.val) :
    s.takeSpare c m =
      { (s.mapCluster c fun x => { (x.forgets m) with spare := some t }) with
        freeCtr := s.freeCtr + 1
        nvs := { (s.nvs.setHeader 1 (s.nvs.headers[1]).svn (s.nvs.headers[1]).len.toNat (Config.freeWord s.freeCtr)) with
          spareMap := s.nvs.spareMap.set c.val (some t) } } := by
  have hlt : m.val < 16 := hm ▸ t.isLt
  have ht : (⟨m.val, hlt⟩ : Fin 16) = t := Fin.ext hm
  rw [State.takeSpare_tile hlt hs]
  simp only [hnone, hgood, ht, Bool.false_eq_true, if_false, State.failing, State.mapCluster_freeCtr', State.mapCluster_mapCluster]

/-- A second failure in a cluster, or that of its spare in use, places it in quarantine (R444). -/
theorem Machine.State.takeSpare_second {s : State} {c : ClusterNo} {m : TileNo} {u : Fin 16} (hs : s.nvs.spares = true)
    (hu : (s.clusters[c.val]).spare = some u) (hm : u.val ≠ m.val) : s.takeSpare c m = (s.failing c m).quarantine c := by
  by_cases hlt : m.val < 16
  · rw [State.takeSpare_tile hlt hs]
    simp only [hu, if_neg (show ¬ u = ⟨m.val, hlt⟩ from fun h => hm (congrArg Fin.val h))]
  · have hused : (s.clusters[c.val]).spare.isSome = true := by rw [hu]; rfl
    exact (dif_neg hlt).trans ((if_pos hused).trans rfl)

/-- A cluster at which a tile has failed goes into quarantine, its teams lost (R437). -/
theorem Machine.State.failing_quarantine {s : State} {c : ClusterNo} {m : TileNo} (hhop : (s.clusters[c.val]).hop = none) :
    (s.failing c m).quarantine c = (((s.teams.filter fun k => k.home == c).map (·.id)).foldl State.loseTeam
      { (s.mapCluster c fun x => ({ (x.forgets m) with cal := none, lost := false, state := .quarantine } : Cluster).retune) with
        freeCtr := s.freeCtr + 1 }).logEvent 4 c := by
  have hmap : s.mapCluster c (fun x => (x.forgets m).toQuarantine) = s.mapCluster c fun x =>
      ({ (x.forgets m) with cal := none, lost := false, state := .quarantine } : Cluster).retune :=
    State.mapCluster_congr (Cluster.toQuarantine_still (x := (s.clusters[c.val]).forgets m) hhop)
  rw [← hmap, ← State.mapCluster_mapCluster s c (·.forgets m) Cluster.toQuarantine]
  rfl

/-! ## Firmware and attestation -/

/-- The slot that die 0 does not run. -/
def Machine.Nvs.other (n : Nvs) : Fin 2 := if n.active[0] = 0 then 1 else 0

/-- Whether no die runs a slot. -/
theorem Machine.Nvs.all_active {n : Nvs} {k : Fin 2} : n.active.toList.all (· != k) = true ↔ ∀ d : DieNo, n.active[d.val] ≠ k := by
  simp only [List.all_eq_true, Vector.mem_toList_iff, Vector.mem_iff_getElem, bne_iff_ne]
  exact ⟨fun h d => h _ ⟨d.val, d.isLt, rfl⟩, fun h _ ⟨i, hi, hx⟩ => hx ▸ h ⟨i, hi⟩⟩

/-- A slot that no die runs is the one that die 0 does not run (R448). -/
theorem Machine.Nvs.eq_other {n : Nvs} {k : Fin 2} (h : ∀ d : DieNo, n.active[d.val] ≠ k) : k = n.other := by
  have h0 : n.active[0] ≠ k := h 0
  unfold Nvs.other
  split <;> omega

/-- The idle slot, where there is one, is that one. -/
theorem Machine.Nvs.idle_some {n : Nvs} (h : ∀ d : DieNo, n.active[d.val] ≠ n.other) : n.idle = some n.other := by
  obtain ⟨k, hk⟩ : ∃ k, n.idle = some k := Option.isSome_iff_exists.mp (List.find?_isSome.mpr
    ⟨n.other, by generalize n.other = k; revert k; decide, all_active.mpr h⟩)
  have hall : n.active.toList.all (· != k) = true := List.find?_some (p := fun k => n.active.toList.all (· != k)) hk
  rw [hk, ← eq_other (all_active.mp hall)]

/-- Where some die runs it, there is none. -/
theorem Machine.Nvs.idle_none {n : Nvs} {d : DieNo} (h : n.active[d.val] = n.other) : n.idle = none :=
  List.find?_eq_none.mpr fun _ _ hall => all_active.mp (eq_other (all_active.mp hall) ▸ hall) d h

/-- Where the dies run both slots, no firmware is staged (log 14). -/
theorem Machine.State.stage_none {s : State} {svn : BitVec 16} (h : ∃ d : DieNo, s.nvs.active[d.val] = s.nvs.other) : s.stage svn = s := by
  have hidle : s.nvs.idle = none := h.elim fun _ => Nvs.idle_none
  simp only [State.stage, hidle]

/-- Firmware is staged in the slot that no die runs (R448). -/
theorem Machine.State.stage_other {s : State} {svn : BitVec 16} (h : ∀ d : DieNo, s.nvs.active[d.val] ≠ s.nvs.other) :
    s.stage svn = { s with
      freeCtr := s.freeCtr + 2
      nvs := { (s.nvs.setHeader (54 + s.nvs.other.val) svn (fld (Config.freeWord (s.freeCtr + 1)).toNat 0 32)
          (Config.freeWord (s.freeCtr + 1))) with
        fw := s.nvs.fw.set s.nvs.other.val { svn := svn, good := Config.signatureGood s.freeCtr }
        staged := if Config.signatureGood s.freeCtr && decide (s.nvs.minSvn ≤ svn) then some s.nvs.other else none } } := by
  have hidle : s.nvs.idle = some s.nvs.other := Nvs.idle_some h
  simp only [State.stage, hidle, State.fresh]
  rfl

/-- Bytes written where software names them are written whatever the count of free values. -/
theorem Machine.State.putSpa_fresh (s : State) (n : Nat) (part : PartNo) (a : Nat) (bs : List Byte) :
    ({ s with freeCtr := n } : State).putSpa part a bs = { (s.putSpa part a bs) with freeCtr := n } := by
  unfold State.putSpa
  split <;> rfl

/-- A report is signed and written (R449). -/
theorem Machine.State.attestDone_signed {s : State} {key : Key} (hb : s.attest.busy = true) (hi : s.nvs.identity = true)
    (hk : s.nvs.idKey.sign = some key) :
    s.attestDone = { (s.putSpa 0 (s.attest.buf.toNat / 4096 * 4096) (reportBytes s.freeCtr s.attest.nonce s.nvs.idKey.next)) with
      freeCtr := s.freeCtr + 1
      nvs := { s.nvs with idKey := key }, attest := { s.attest with busy := false, done := true } } := by
  obtain ⟨m, hm⟩ := State.putSpa_mem s 0 (s.attest.buf.toNat / 4096 * 4096) (reportBytes s.freeCtr s.attest.nonce s.nvs.idKey.next)
  simp only [State.attestDone, hb, hi, hk, Bool.not_true, Bool.false_eq_true, if_false, if_true, State.fresh, State.putSpa_fresh, hm]

/-- It is refused where no key signs (R447, R449). -/
theorem Machine.State.attestDone_refused {s : State} (hb : s.attest.busy = true)
    (h : s.nvs.identity = false ∨ s.nvs.idKey.left = 0) :
    s.attestDone = { s with attest := { s.attest with busy := false, refused := true } } := by
  have hnone : (if s.nvs.identity = true then s.nvs.idKey.sign else none) = none := by
    rcases h with h | h
    · exact if_neg (ne_true_of_eq_false h)
    · rw [Key.sign, if_pos h, ite_self]
  simp only [State.attestDone, hb, hnone, Bool.not_true, Bool.false_eq_true, if_false]

/-! ## The host and other devices -/

/-- A counted put of another device adds its count at a semaphore that takes it (R142). -/
theorem Machine.State.peerCount_adds {s : State} {c : ClusterNo} {k : SemNo} {n : Nat} (hjam : (s.clusters[c.val]).jam = false)
    (hg : ((s.clusters[c.val]).sems[k.val]).granted = true) (ho : ((s.clusters[c.val]).sems[k.val]).putOpen = true)
    (hsum : ((s.clusters[c.val]).sems[k.val]).val.val + n ≤ 65535) : s.peerCount c k n = s.mapCluster c fun x => x.addSem k n := by
  simp only [State.peerCount, hjam, hg, ho, decide_eq_false (Nat.not_lt.mpr hsum), Bool.and_self, Bool.not_true, Bool.or_self,
    Bool.false_eq_true, if_false]

/-- What another device does at an address of device memory takes effect there (R422). -/
theorem Machine.spaClass_dm {s : State} {a : Nat} (h : spaClass s a = .dm) : (spaClass s a == .dm) = true := by
  rw [h]
  rfl

/-- Settles O50, event by event. -/
theorem fleetSteps : Obligations.FleetSteps := by
  intro s p peer v d c t u m k' cnt hb svn key spa bs w x o y sets noted fenced a good header k n changed wrote
  refine ⟨fun hack hmajor htrim => ?_, fun hd => ?_, fun hs => ⟨fun hnone hgood hm => ?_, fun hu hm hhop => ?_⟩, rfl, fun hne => ?_,
    fun h => ?_, fun h => ?_, fun hbusy => ?_, fun hbusy hi hk => ?_, fun hbusy h => ?_, rfl, fun hdm hjam hg ho hsum => ?_,
    fun hdm => ⟨?_, ?_, ?_⟩, fun hdm hr => ⟨?_, ?_, ?_⟩⟩
  all_goals refine congrArg Host.Outcome.next ?_
  · exact State.train_partner hack hmajor htrim
  · refine (State.takeDuty_next hd).trans ?_
    simp only [beq_iff_eq]
  · exact (State.takeSpare_first hs hnone hgood hm).trans rfl
  · exact (State.takeSpare_second hs hu hm).trans (State.failing_quarantine hhop)
  · exact congrArg (fun z => s.mapCluster c fun x => { x with sramce := z }) (if_neg hne)
  · exact State.stage_none h
  · exact State.stage_other h
  · exact if_neg (ne_true_of_eq_false hbusy)
  · exact State.attestDone_signed hbusy hi hk
  · exact State.attestDone_refused hbusy h
  · exact (congrArg (State.peerCount · c k' cnt) (if_pos (spaClass_dm hdm))).trans (State.peerCount_adds hjam hg ho hsum)
  · exact if_pos (spaClass_dm hdm)
  · exact if_pos (spaClass_dm hdm)
  · exact if_pos (spaClass_dm hdm)
  · exact if_pos ((Bool.and_eq_true _ _).mpr ⟨spaClass_dm hdm, hr⟩)
  · exact if_pos ((Bool.and_eq_true _ _).mpr ⟨spaClass_dm hdm, hr⟩)
  · exact if_pos ((Bool.and_eq_true _ _).mpr ⟨spaClass_dm hdm, hr⟩)

end Sys2Proof
end

