-- ==== Sys2Proof/Proofs/RegistersAndReset.lean ====
section
/-! SUPPORT. A write of PWRCFG judges the power drawn anew: it also sets the time since which the draw has been 5 % below the
limit (R439). -/

namespace Sys2Proof

open Machine

/-- A module right after reset that draws 2,600 W, the time of its low draw still counting. -/
def PwrcfgJudges.start : State := { State.reset with power := { State.reset.power with watts := 2600 } }

/-- The time since which the draw has been low, in the state that an outcome leaves. -/
def PwrcfgJudges.coolSince : Host.Outcome State Fault Refusal → Option (Option Nat)
  | .next s => some s.power.coolSince
  | _ => none

/-- Refutes O51: a write of PWRCFG does more than store PWRLIM, TJMAX, INMAX and judge whether the limit is exceeded. At a draw of
2,600 W a write that sets the limit to 800 W ends the time for which the draw has been at least 5 % below the limit; the
statement has it go on. -/
theorem not_registersAndReset : ¬ Obligations.RegistersAndReset := by
  intro h
  obtain ⟨-, -, -, -, -, -, hpwrcfg, -⟩ := h PwrcfgJudges.start 0 0 0 0
  have hcool := congrArg PwrcfgJudges.coolSince hpwrcfg
  revert hcool
  decide +kernel

end Sys2Proof
end

