-- ==== Sys2Proof/Proofs/KeepsMemory.lean ====
section
/-! SUPPORT. What the operations of the state do to memory: they leave it, or keep its canonical form. -/

namespace Sys2Proof

open Machine

/-- The memory that a choice between two states leaves. -/
@[simp] theorem Machine.State.ite_mem (c : Prop) [Decidable c] (a b : State) :
    (if c then a else b).mem = if c then a.mem else b.mem :=
  apply_ite _ _ _ _

/-- The form of a choice between two memories. -/
@[simp] theorem Machine.Memory.ite_wf (c : Prop) [Decidable c] (a b : Memory) :
    (if c then a else b).wf = if c then a.wf else b.wf :=
  apply_ite _ _ _ _

/-- Steps none of which changes memory. -/
@[simp] theorem Machine.State.foldl_mem {α : Type} {f : State → α → State} (hf : ∀ s x, (f s x).mem = s.mem) (s : State)
    (l : List α) :
    (l.foldl f s).mem = s.mem :=
  List.foldlRecOn (motive := fun u : State => u.mem = s.mem) l f rfl fun u hu x _ => (hf u x).trans hu

/-- Steps each of which keeps the form. -/
theorem Machine.State.foldl_wf {α : Type} {f : State → α → State} (hf : ∀ s x, s.mem.wf = true → (f s x).mem.wf = true)
    {s : State}
    (l : List α) (h : s.mem.wf = true) : (l.foldl f s).mem.wf = true :=
  List.foldlRecOn (motive := fun u : State => u.mem.wf = true) l f h fun u hu x _ => hf u x hu

/-- A state with another's memory. -/
theorem Machine.State.wf_of_mem {s u : State} (h : s.mem.wf = true) (hu : u.mem = s.mem) : u.mem.wf = true := hu ▸ h

/-- Writes each of which keeps the form. -/
theorem Machine.Memory.foldl_wf {α : Type} {f : Memory → α → Memory} (hf : ∀ m x, m.wf = true → (f m x).wf = true)
    {m : Memory}
    (l : List α) (h : m.wf = true) : (l.foldl f m).wf = true :=
  List.foldlRecOn (motive := fun m : Memory => m.wf = true) l f h fun m hm x _ => hf m x hm

/-- A write at an address that software gives. -/
theorem Machine.Memory.wf_putNumSpa {m : Memory} (a v n : Nat) (h : m.wf = true) : (m.putNumSpa a v n).wf = true := by
  unfold Memory.putNumSpa Memory.putSpa
  split
  · exact Memory.wf_put _ _ h
  · exact h

@[simp] theorem Machine.State.knock_mem (s : State) (c : ClusterNo) : (s.knock c).mem = s.mem := by
  simp [State.knock]

@[simp] theorem Machine.State.noteFlits_mem (s : State) (cs : List ClusterNo) : (s.noteFlits cs).mem = s.mem := by
  unfold State.noteFlits
  exact State.foldl_mem (fun u c => State.mapCluster_mem u c _) s cs

@[simp] theorem Machine.State.wakeRouters_mem (s : State) (cs : List ClusterNo) : (s.wakeRouters cs).mem = s.mem := by
  unfold State.wakeRouters
  exact State.foldl_mem (fun u c => State.mapCluster_mem u c _) s cs

@[simp] theorem Machine.State.putSpa_wf (s : State) (part : PartNo) (a : Nat) (bs : List Byte) (h : s.mem.wf = true) :
    (s.putSpa part a bs).mem.wf = true := by
  simp [State.putSpa, Memory.wf_put, h]

@[simp] theorem Machine.State.tlbFill_mem (s : State) (part : PartNo) (va : Nat) (l : Leaf) (ptrs : List TablePtr) :
    (s.tlbFill part va l ptrs).mem = s.mem :=
  rfl

theorem Machine.State.lookup_mem {s u : State} {part : PartNo} {va : Nat} {l : Leaf} (h : s.lookup part va = .ok (l, u)) :
    u.mem = s.mem := by
  grind [State.lookup, State.tlbFill_mem]

theorem Machine.State.translate_mem {s u : State} {va : Nat} {acc : Access} {x : Trans}
    (h : s.translate va acc = .ok (x, u)) :
    u.mem = s.mem := by
  grind [State.translate, State.lookup_mem]

@[simp] theorem Machine.State.setTile_mem (s : State) (t : Tile) : (s.setTile t).mem = s.mem := by
  simp [State.setTile]

@[simp] theorem Machine.State.focus_mem (s : State) (i : TileId) : (s.focus i).mem = s.mem := by
  simp [State.focus]

@[simp] theorem Machine.State.tally_mem (s : State) (c : Cause) : (s.tally c).mem = s.mem := by
  unfold State.tally
  split <;> simp

@[simp] theorem Machine.State.endByFault_mem (s : State) (t : TrapInfo) : (s.endByFault t).mem = s.mem := by
  simp only [State.endByFault]
  repeat' split
  all_goals simp

@[simp] theorem Machine.State.unwatch_mem (s : State) : (s.unwatch).mem = s.mem :=
  rfl

@[simp] theorem Machine.State.leaveQueue_mem (s : State) : (s.leaveQueue).mem = s.mem :=
  rfl

@[simp] theorem Machine.State.deliver_mem (s : State) (i : TrapInfo) (resume : Nat) : (s.deliver i resume).mem = s.mem := by
  simp [State.deliver]

@[simp] theorem Machine.State.pass_mem (s : State) (part : PartNo) (key : Nat) : (s.pass part key).mem = s.mem := by
  unfold State.pass
  split <;> simp

@[simp] theorem Machine.State.countPage_wf (s : State) (part : PartNo) (va : Nat) (x : Trans) (h : s.mem.wf = true) :
    (s.countPage part va x).mem.wf = true := by
  simp only [State.countPage]
  split
  · exact h
  · split
    · exact h
    · simp [State.setDie, Memory.wf_putNum, h]

@[simp] theorem Machine.State.countFor_wf (s : State) (part : PartNo) (va : Nat) (x : Trans) (h : s.mem.wf = true) :
    (s.countFor part va x).mem.wf = true := by
  simp [State.countFor, h]

@[simp] theorem Machine.State.countAccess_wf (s : State) (va : Nat) (x : Trans) (h : s.mem.wf = true) :
    (s.countAccess va x).mem.wf = true := by
  simp [State.countAccess, h]



@[simp] theorem Machine.State.noteWrite_mem (s : State) (a n : Nat) : (s.noteWrite a n).mem = s.mem :=
  rfl

@[simp] theorem Machine.State.spPut_wf (s : State) (a : Nat) (bs : List Byte) (h : s.mem.wf = true) :
    (s.spPut a bs).mem.wf = true :=
  State.spRaw_wf _ a bs h

@[simp] theorem Machine.State.touchLine_mem (s : State) (line : Nat) : (s.touchLine line).mem = s.mem := by
  unfold State.touchLine
  split <;> simp

@[simp] theorem Machine.State.touchAll_mem (s : State) (l : List (Nat × Nat)) : (s.touchAll l).mem = s.mem := by
  simp [State.touchAll]

@[simp] theorem Machine.State.touch_mem (s : State) (lo hi : Nat) : (s.touch lo hi).mem = s.mem := by
  simp [State.touch]

@[simp] theorem Machine.State.spStore_wf (s : State) (a : Nat) (bs : List Byte) (h : s.mem.wf = true) :
    (s.spStore a bs).mem.wf = true := by
  simp [State.spStore, h]

@[simp] theorem Machine.State.performStore_wf (s : State) (a : Nat) (bs : List Byte) (h : s.mem.wf = true) :
    (s.performStore a bs).mem.wf = true := by
  simp [State.performStore, h]

/-- A translation for a first write, where one is needed. -/
theorem Machine.State.firstWrite_mem {s u : State} {c : Bool} {va : Nat}
    (h : (if c then (s.translate va .write).map (·.2) else .ok s) = .ok u) : u.mem = s.mem := by
  split at h
  · cases ht : s.translate va .write with
    | error e => rw [ht] at h; nomatch h
    | ok x =>
      rw [ht] at h
      exact Except.ok.inj h ▸ State.translate_mem ht
  · exact Except.ok.inj h ▸ rfl

theorem Machine.State.fillLines_mem {s u : State} {write : Bool} {l : List (MapNo × Nat)} {fs gs : List Fill}
    (h : s.fillLines write l fs = .ok (u, gs)) : u.mem = s.mem := by
  induction l generalizing s fs with
  | nil => cases h; rfl
  | cons p l ih =>
    simp only [State.fillLines] at h
    split at h
    · nomatch h
    · next hv =>
      have hmem := State.firstWrite_mem hv
      grind [State.translate_mem]

/-- The state that a preparation leaves is in canonical form. -/
def Machine.Prep.Safe : Prep → Prop
  | .ok s | .stall s => s.mem.wf = true
  | .trap _ => True

/-- Either of two preparations. -/
theorem Machine.Prep.ite_safe {c : Prop} [Decidable c] {a b : Prep} (ha : a.Safe) (hb : b.Safe) :
    (if c then a else b).Safe := by
  split
  · exact ha
  · exact hb

@[simp] theorem Machine.winPrep_safe (who : Owner) {s0 s : State} (write : Bool) (ranges : List (Nat × Nat))
    (h0 : s0.mem.wf = true) (h : s.mem.wf = true) : (winPrep who s0 s write ranges).Safe := by
  simp only [winPrep]
  split
  · trivial
  · split
    · trivial
    · next hf =>
      have hu := (State.fillLines_mem hf).symm ▸ h
      split
      · exact h0
      · split
        · exact h0
        · exact hu

@[simp] theorem Machine.linePrep_safe (who : Owner) {s0 s : State} (write : Bool) (ranges : List (Nat × Nat))
    (h0 : s0.mem.wf = true) (h : s.mem.wf = true) : (linePrep who s0 s write ranges).Safe := by
  simp only [linePrep]
  split
  · trivial
  · split
    · exact h0
    · exact winPrep_safe who write ranges h0 h

@[simp] theorem Machine.agentPrep_safe (who : Owner) {s0 s : State} (write : Bool) (ranges : List (Nat × Nat))
    (h0 : s0.mem.wf = true) (h : s.mem.wf = true) : (agentPrep who s0 s write ranges).Safe := by
  have hl := linePrep_safe who write ranges h0 h
  simp only [agentPrep]
  generalize linePrep who s0 s write ranges = o at hl ⊢
  cases o with
  | trap i => trivial
  | stall u => exact hl
  | ok u =>
    refine Prep.ite_safe h0 ?_
    split
    · trivial
    · exact hl

@[simp] theorem Machine.memPrep_safe {s0 s : State} (write : Bool) (ranges : List (Nat × Nat)) (h0 : s0.mem.wf = true)
    (h : s.mem.wf = true) : (memPrep s0 s write ranges).Safe :=
  agentPrep_safe .core write ranges h0 h

@[simp] theorem Machine.State.charge_wf (s : State) (rcb n : Nat) (up : Bool) (d : Nat) (h : s.mem.wf = true) :
    (s.charge rcb n up d).mem.wf = true := by
  simp only [State.charge]
  exact Memory.foldl_wf (fun _ _ hm => Memory.wf_putNumSpa _ _ _ hm) _ h

@[simp] theorem Machine.State.squashOne_wf (s : State) (i : TileId) (h : s.mem.wf = true) :
    (s.squashOne i).mem.wf = true := by
  simp only [State.squashOne]
  repeat' split
  all_goals simp [h]

@[simp] theorem Machine.State.squash_wf (s : State) (i : TileId) (h : s.mem.wf = true) : (s.squash i).mem.wf = true :=
  State.foldl_wf State.squashOne_wf _ h

@[simp] theorem Machine.State.beginSpec_wf (s : State) (depth : Nat) (h : s.mem.wf = true) :
    (s.beginSpec depth).mem.wf = true := by
  simp only [State.beginSpec]
  repeat' split
  all_goals simp [h]

/-- Every state that a slot's outcome holds is in canonical form. -/
def Machine.SlotR.Safe : SlotR → Prop
  | .ok s _ | .fail s _ | .late s _ | .stall s | .wait s _ => s.mem.wf = true
  | .trap _ | .resolve => True

@[simp] theorem Machine.SlotR.safe_ok (s : State) (fx : Fx) : (SlotR.ok s fx).Safe ↔ s.mem.wf = true := Iff.rfl
@[simp] theorem Machine.SlotR.safe_fail (s : State) (i : TrapInfo) : (SlotR.fail s i).Safe ↔ s.mem.wf = true := Iff.rfl
@[simp] theorem Machine.SlotR.safe_late (s : State) (i : TrapInfo) : (SlotR.late s i).Safe ↔ s.mem.wf = true := Iff.rfl
@[simp] theorem Machine.SlotR.safe_stall (s : State) : (SlotR.stall s).Safe ↔ s.mem.wf = true := Iff.rfl
@[simp] theorem Machine.SlotR.safe_wait (s : State) (k : WaitKind) : (SlotR.wait s k).Safe ↔ s.mem.wf = true := Iff.rfl
@[simp] theorem Machine.SlotR.safe_trap (i : TrapInfo) : (SlotR.trap i).Safe := trivial
@[simp] theorem Machine.SlotR.safe_resolve : SlotR.resolve.Safe := trivial

/-- Either of two outcomes. -/
theorem Machine.SlotR.ite_safe {c : Prop} [Decidable c] {a b : SlotR} (ha : a.Safe) (hb : b.Safe) :
    (if c then a else b).Safe := by
  split
  · exact ha
  · exact hb

/-- A slot keeps the form. -/
def Machine.Slot.Safe (x : Slot) : Prop := ∀ c s, c.s0.mem.wf = true → s.mem.wf = true → (x.run c s).Safe

/-- Every state of a bundle under way is in canonical form. -/
def Machine.Run.Safe (r : Run) : Prop := r.s.mem.wf = true ∧ ∀ p, r.late = some p → p.1.mem.wf = true

/-- Every state that the outcome of a bundle's slots holds is in canonical form. -/
def Machine.RunR.Safe : RunR → Prop
  | .done r => r.Safe
  | .fail s _ | .stall s | .wait s _ => s.mem.wf = true
  | .trap _ | .resolve => True

theorem Machine.RunR.or_safe (rest : RunR) (x : Slot) (i : TrapInfo) : (rest.or x i).Safe := by
  unfold RunR.or
  split
  · split <;> trivial
  all_goals trivial

theorem Machine.RunR.orStall_safe (rest : RunR) (x : Slot) {s : State} (h : s.mem.wf = true) : (rest.orStall x s).Safe := by
  unfold RunR.orStall
  split
  · split
    · trivial
    · exact h
  all_goals exact h

theorem Machine.RunR.orWait_safe {rest mine : RunR} (x : Slot) (hr : rest.Safe) (h : mine.Safe) :
    (rest.orWait x mine).Safe := by
  unfold RunR.orWait
  split
  · split
    · exact hr
    · exact h
  all_goals exact h

@[simp] theorem Machine.Slot.ahead_mem (x : Slot) (s : State) : (Slot.ahead x s).mem = s.mem := by
  unfold Slot.ahead
  split <;> simp

/-- Slots that keep the form, one after another. -/
theorem Machine.runSlots_safe {c : Ctx} (h0 : c.s0.mem.wf = true) {l : List (PReg × Slot)} (hl : ∀ p, p ∈ l → p.2.Safe)
    {r : Run}
    (h : r.Safe) : (runSlots c l r).Safe := by
  induction l generalizing r with
  | nil => exact h
  | cons p l ih =>
    obtain ⟨g, x⟩ := p
    have hrest : ∀ {r : Run}, r.Safe → (runSlots c l r).Safe := ih fun p hp => hl p (List.mem_cons_of_mem _ hp)
    have hahead : ({ r with s := x.ahead r.s } : Run).Safe := ⟨(Slot.ahead_mem x r.s).symm ▸ h.1, h.2⟩
    have hx : (x.run c r.s).Safe := hl _ List.mem_cons_self c r.s h0 h.1
    simp only [runSlots]
    split
    · exact hrest h
    · split
      · trivial
      · generalize x.run c r.s = o at hx ⊢
        cases o with
        | ok u fx => exact hrest ⟨hx, h.2⟩
        | trap i =>
          dsimp only
          split
          · exact RunR.or_safe _ x _
          · split
            · trivial
            · exact RunR.orWait_safe x (hrest hahead) trivial
        | fail u i => exact RunR.orWait_safe x (hrest h) hx
        | late u i => exact hrest ⟨h.1, fun p hp => Option.some.inj hp ▸ hx⟩
        | stall u =>
          dsimp only
          split
          · exact RunR.orStall_safe _ x hx
          · exact RunR.orWait_safe x (hrest hahead) hx
        | resolve => trivial
        | wait u k =>
          dsimp only
          split
          · split
            · trivial
            · exact hx
          all_goals exact hx

theorem Machine.popFirst_safe {xs : List (PReg × Slot)} (h : ∀ p, p ∈ xs → p.2.Safe) : ∀ p, p ∈ popFirst xs → p.2.Safe := by
  intro p hp
  refine h p ?_
  unfold popFirst at hp
  split at hp
  · simp only [List.mem_append, List.mem_filter] at hp
    obtain (⟨hm, -⟩ | ⟨hm, -⟩) | ⟨hm, -⟩ := hp <;> exact hm
  · exact hp

@[simp] theorem Machine.State.holdIssue_mem (s : State) : (s.holdIssue).mem = s.mem :=
  rfl

@[simp] theorem Machine.State.holdWait_mem (s : State) (k : WaitKind) : (s.holdWait k).mem = s.mem :=
  rfl

@[simp] theorem Machine.State.raise_wf (s : State) (pc : Nat) (i : TrapInfo) (h : s.mem.wf = true) :
    (s.raise pc i).mem.wf = true := by
  unfold State.raise
  split <;> simp [h]

@[simp] theorem Machine.commit_wf (c : Ctx) (n : Nat) (s : State) (fx : Fx) (h : s.mem.wf = true) :
    (commit c n s fx).mem.wf = true := by
  simp only [commit]
  repeat' split
  all_goals simp [h]

@[simp] theorem Machine.State.resolutionStall_wf (s : State) (p : Spec) (cls : Nat) (h : s.mem.wf = true) :
    (s.resolutionStall p cls).mem.wf = true := by
  simp [State.resolutionStall, h]

/-- A bundle whose slots keep the form. -/
theorem Machine.issueWith_wf {again : State → State} {s : State} (n rnd : Nat) {xs : List (PReg × Slot)}
    (hagain : ∀ u, u.mem.wf = true → (again u).mem.wf = true) (hx : ∀ p, p ∈ xs → p.2.Safe) (h : s.mem.wf = true) :
    (issueWith again s n rnd xs).mem.wf = true := by
  have hrun : (runSlots ⟨s, rnd, s.tile.pc⟩ (popFirst xs) { s := s }).Safe :=
    runSlots_safe h (popFirst_safe hx) ⟨h, fun _ hp => nomatch hp⟩
  simp only [issueWith]
  generalize runSlots ⟨s, rnd, s.tile.pc⟩ (popFirst xs) { s := s } = o at hrun ⊢
  split
  · simp [h]
  split
  · simp [h]
  split
  · simp [h]
  split
  · simp [h]
  split
  · simp [h]
  split
  · simp [h]
  split
  · simp [h]
  cases o with
  | trap i => simp [h]
  | fail u i => exact State.raise_wf _ _ _ hrun
  | stall u =>
    dsimp only
    split
    · exact hagain _ hrun
    · exact (State.holdIssue_mem u).symm ▸ hrun
  | resolve =>
    dsimp only
    split <;> simp [h]
  | wait u k => exact (State.holdWait_mem u k).symm ▸ hrun
  | done r =>
    dsimp only
    split
    · next hl => exact State.raise_wf _ _ _ (hrun.2 _ hl)
    · exact commit_wf _ _ _ _ hrun.1

theorem Machine.issue_wf {s : State} (n rnd : Nat) {xs : List (PReg × Slot)} (hx : ∀ p, p ∈ xs → p.2.Safe)
    (h : s.mem.wf = true) :
    (issue s n rnd xs).mem.wf = true :=
  issueWith_wf n rnd (fun _ hu => issueWith_wf n rnd (fun u hu => (State.holdIssue_mem u).symm ▸ hu) hx hu) hx h

theorem Machine.issue1_wf {s : State} {x : Slot} (hx : x.Safe) (h : s.mem.wf = true) : (issue1 s x).mem.wf = true :=
  issue_wf 1 0 (fun _ hp => List.mem_singleton.mp hp ▸ hx) h

@[simp] theorem Machine.okR_safe (s : State) : (okR s).Safe ↔ s.mem.wf = true := Iff.rfl

end Sys2Proof
end

