-- ==== Sys2Proof/Proofs/KeepsMemoryControl.lean ====
section
/-! SUPPORT. The slots of the control and vector classes keep the canonical form of memory. -/

namespace Sys2Proof

open Machine

@[simp] theorem Machine.trapR_safe (c : Cause) : (trapR c).Safe := trivial

@[simp] theorem Machine.State.putLine_wf (s : State) (lo spa : Nat) (mask : BitVec 256) (n : Nat) (h : s.mem.wf = true) :
    (s.putLine lo spa mask n).mem.wf = true := by
  induction n with
  | zero => exact h
  | succ n ih =>
    simp only [State.putLine]
    split
    · exact Memory.wf_set _ _ ih
    · exact ih

/-- The state that a write-back leaves, or that its failure keeps, is in canonical form. -/
def Machine.WroteBack : Except (State × TrapInfo) State → Prop
  | .ok u => u.mem.wf = true
  | .error e => e.1.mem.wf = true

theorem Machine.State.writeBack_safe {s : State} (n : MapNo) (k : Nat) (h : s.mem.wf = true) :
    WroteBack (s.writeBack n k) := by
  simp only [State.writeBack]
  split
  · exact h
  split
  · exact h
  split
  · exact h
  · next ht =>
    have hu := State.wf_of_mem h (State.translate_mem ht)
    split
    · exact hu
    · simp only [WroteBack, State.mapTile_mem]
      exact State.putLine_wf _ _ _ _ _ (State.countAccess_wf _ _ _ hu)

theorem Machine.State.writeBacks_safe {s : State} (l : List (MapNo × Nat)) (h : s.mem.wf = true) :
    WroteBack (s.writeBacks l) := by
  induction l generalizing s with
  | nil => exact h
  | cons p l ih =>
    obtain ⟨n, k⟩ := p
    have hw := State.writeBack_safe n k h
    unfold State.writeBacks
    generalize s.writeBack n k = r at hw ⊢
    cases r with
    | error e => exact hw
    | ok u => exact ih hw

theorem Machine.slicePut_wf (cl : ClusterNo) {m : Memory} (l : List Host.Cell) (h : m.wf = true) :
    (slicePut cl m l).wf = true := by
  induction l generalizing m with
  | nil => exact h
  | cons p l ih => exact ih (Memory.wf_set _ _ h)

@[simp] theorem Machine.State.publishSlice_wf (s : State) (h : s.mem.wf = true) : s.publishSlice.mem.wf = true :=
  slicePut_wf _ _ h

@[simp] theorem Machine.State.tileRelease_mem (s : State) : (s.tileRelease).mem = s.mem :=
  rfl

@[simp] theorem Machine.State.ownWriteBack_wf (s : State) (n : MapNo) (line : Nat) (h : s.mem.wf = true) :
    (s.ownWriteBack n line).mem.wf = true := by
  have hw := State.writeBack_safe n line h
  unfold State.ownWriteBack
  generalize s.writeBack n line = r at hw ⊢
  cases r with
  | ok u => exact hw
  | error e => exact h

/-- Every state that a boundary's end holds is in canonical form. -/
def Machine.BoundR.Safe : BoundR → Prop
  | .ok s | .fail s _ => s.mem.wf = true
  | .stall => True

theorem Machine.boundary_safe {c : Ctx} {s : State} (mask : Nat) (phase : Bool) (h0 : c.s0.mem.wf = true)
    (h : s.mem.wf = true) :
    (boundary c s mask phase).Safe := by
  simp only [boundary]
  split
  · trivial
  split
  · exact h0
  have hw := State.writeBacks_safe (s.tile.linesFor mask) h
  have hk := State.writeBacks_safe (c.s0.tile.linesFor mask) h0
  generalize s.writeBacks (s.tile.linesFor mask) = r at hw ⊢
  generalize c.s0.writeBacks (c.s0.tile.linesFor mask) = q at hk ⊢
  match r, q, hw, hk with
  | .error _, .error _, _, hk => exact hk
  | .error _, .ok _, _, _ => exact h0
  | .ok u, _, hw, _ =>
    simp only [BoundR.Safe]
    simp [show u.mem.wf = true from hw]

theorem Machine.withBoundary_safe {c : Ctx} {s : State} {mask : Nat} {phase : Bool} {k : State → SlotR}
    (h0 : c.s0.mem.wf = true)
    (h : s.mem.wf = true) (hk : ∀ u, u.mem.wf = true → (k u).Safe) : (withBoundary c s mask phase k).Safe := by
  have hb := boundary_safe mask phase h0 h
  unfold withBoundary
  generalize boundary c s mask phase = b at hb ⊢
  cases b with
  | ok u => exact hk u hb
  | stall => exact h0
  | fail u i => exact hb

@[simp] theorem Machine.State.mapHome_mem (s : State) (f : Cluster → Cluster) : (s.mapHome f).mem = s.mem := by
  simp [State.mapHome]

@[simp] theorem Machine.State.callHome_mem (s : State) : (s.callHome).mem = s.mem := by
  simp [State.callHome]

theorem Machine.atHome_safe {c : Ctx} {r : SlotR} (h0 : c.s0.mem.wf = true) (hr : r.Safe) : (atHome c r).Safe :=
  SlotR.ite_safe (State.wf_of_mem h0 (State.callHome_mem c.s0)) hr

theorem Machine.takeCounts_safe {c : Ctx} {s : State} {k0 : SemNo} {l : List (SemNo × Nat)} {k : State → SlotR}
    (h0 : c.s0.mem.wf = true) (h : s.mem.wf = true) (hk : ∀ u, u.mem.wf = true → (k u).Safe) : (takeCounts c s k0 l k).Safe := by
  refine SlotR.ite_safe (hk s h) (atHome_safe h0 (SlotR.ite_safe (hk _ ?_) ?_))
  · simp [h]
  · simp [h0]

@[simp] theorem Machine.slotCsrr_safe (d : SReg) (csr : Fin 4096) : (slotCsrr d csr).Safe := fun _ _ _ h => h

@[simp] theorem Machine.csrStore_safe (s : State) (n : Nat) (v : Word) (h : s.mem.wf = true) : (csrStore s n v).Safe :=
  SlotR.ite_safe trivial (SlotR.ite_safe h h)

@[simp] theorem Machine.slotCsrw_safe (d a : SReg) (csr : Fin 4096) : (slotCsrw d a csr).Safe :=
  fun _ _ _ h => csrStore_safe _ _ _ h

@[simp] theorem Machine.goTo_safe (s : State) (block : Bool) (a : Nat) (h : s.mem.wf = true) : (goTo s block a).Safe := by
  unfold goTo
  split
  · trivial
  · exact h

@[simp] theorem Machine.slotBrp_safe (p : PReg) (imm : Int) : (slotBrp p imm).Safe :=
  fun _ s _ h => SlotR.ite_safe (goTo_safe s _ _ h) h

@[simp] theorem Machine.slotBrnp_safe (p : PReg) (imm : Int) : (slotBrnp p imm).Safe :=
  fun _ s _ h => SlotR.ite_safe h (goTo_safe s _ _ h)

@[simp] theorem Machine.slotJmpWord_safe (imm : Int) : (slotJmpWord imm).Safe := fun _ s _ h => goTo_safe s _ _ h

@[simp] theorem Machine.slotJmpBlock_safe (imm : Int) : (slotJmpBlock imm).Safe := fun _ s _ h => goTo_safe s _ _ h

@[simp] theorem Machine.slotJmpi_safe (a : SReg) (imm : Int) : (slotJmpi a imm).Safe := fun _ s _ h => goTo_safe s _ _ h

@[simp] theorem Machine.slotJmpiB_safe (a : SReg) : (slotJmpiB a).Safe := fun _ s _ h => goTo_safe s _ _ h

@[simp] theorem Machine.slotCallb_safe (l : SReg) (imm : Int) : (slotCallb l imm).Safe := fun _ _ _ h => goTo_safe _ _ _ h

@[simp] theorem Machine.slotRetb_safe (a : SReg) : (slotRetb a).Safe := fun _ s _ h => goTo_safe s _ _ h

@[simp] theorem Machine.slotLoopb_safe (imm : Int) : (slotLoopb imm).Safe :=
  fun _ _ _ h => SlotR.ite_safe (goTo_safe _ _ _ h) h

theorem Machine.lsetCount_safe (a : SReg) (imm : Int) (put : Tile → BitVec 32 → Tile) : (lsetCount a imm put).Safe :=
  fun _ _ _ h => SlotR.ite_safe trivial h

@[simp] theorem Machine.slotLsetPass_safe (a : SReg) (imm : Int) : (slotLsetPass a imm).Safe := lsetCount_safe a imm _

@[simp] theorem Machine.slotLsetFeed_safe (a : SReg) (imm : Int) : (slotLsetFeed a imm).Safe := lsetCount_safe a imm _

@[simp] theorem Machine.slotLsetRrb_safe (imm : Nat) : (slotLsetRrb imm).Safe := fun _ _ _ h => SlotR.ite_safe trivial h

@[simp] theorem Machine.slotLsetStg_safe (imm : Nat) : (slotLsetStg imm).Safe := fun _ _ _ h => SlotR.ite_safe trivial h

@[simp] theorem Machine.slotWait_safe (ld st cp tl : Fin 32) : (slotWait ld st cp tl).Safe :=
  fun _ _ h0 h => SlotR.ite_safe trivial (SlotR.ite_safe h h0)

@[simp] theorem Machine.slotSemw_safe (k : SemNo) (cnt : Fin 256) (a : SReg) : (slotSemw k cnt a).Safe := by
  intro c s h0 h
  refine SlotR.ite_safe trivial ?_
  split
  · trivial
  · exact takeCounts_safe h0 h fun u hu => withBoundary_safe h0 hu fun _ hv => hv

@[simp] theorem Machine.slotSems_safe (k : SemNo) (cnt : Fin 256) (a : SReg) : (slotSems k cnt a).Safe := by
  intro c s h0 h
  refine SlotR.ite_safe trivial ?_
  split
  · trivial
  split
  · exact SlotR.ite_safe h trivial
  · refine atHome_safe h0 (withBoundary_safe h0 h fun u hu => SlotR.ite_safe hu ?_)
    simp [hu]

@[simp] theorem Machine.slotSemt_safe (k : SemNo) (cnt : Fin 256) (d : SReg) : (slotSemt k cnt d).Safe := by
  intro c s h0 h
  refine SlotR.ite_safe trivial (atHome_safe h0 (SlotR.ite_safe (withBoundary_safe h0 ?_ fun u hu => hu) h))
  simp [h]

@[simp] theorem Machine.State.arrive_mem (s : State) : (s.arrive).mem = s.mem :=
  rfl

theorem Machine.barResume_safe {c : Ctx} {s : State} (h0 : c.s0.mem.wf = true) (h : s.mem.wf = true) :
    (barResume c s).Safe := by
  unfold barResume
  split
  · trivial
  · exact h0
  · exact withBoundary_safe h0 h fun u hu => hu

@[simp] theorem Machine.slotBara_safe : slotBara.Safe :=
  fun _ _ h0 h => SlotR.ite_safe trivial (withBoundary_safe h0 h fun _ hu => hu)

@[simp] theorem Machine.slotBarw_safe : slotBarw.Safe := fun _ _ h0 h => SlotR.ite_safe trivial (barResume_safe h0 h)

@[simp] theorem Machine.slotBarr_safe : slotBarr.Safe :=
  fun _ _ h0 h => SlotR.ite_safe (barResume_safe h0 h) (SlotR.ite_safe trivial (withBoundary_safe h0 h fun _ hu => hu))

@[simp] theorem Machine.slotPhase_safe (sc : Scope) (m : StMask) : (slotPhase sc m).Safe :=
  fun _ _ h0 h => withBoundary_safe h0 h fun _ hu => hu

@[simp] theorem Machine.slotFence_safe (sc : Scope) (m : StMask) : (slotFence sc m).Safe :=
  fun _ _ h0 h => withBoundary_safe h0 h fun _ hu => hu

@[simp] theorem Machine.State.spawn_mem (s : State) (x : Machine.Task) (entry arg : Word) :
    (s.spawn x entry arg).mem = s.mem := by
  unfold State.spawn
  split <;> simp

@[simp] theorem Machine.slotSpawn_safe (d a b : SReg) : (slotSpawn d a b).Safe := by
  intro c s h0 h
  refine SlotR.ite_safe trivial ?_
  split
  · exact SlotR.ite_safe h trivial
  · refine SlotR.ite_safe trivial ?_
    simp [h]
  · exact h

@[simp] theorem Machine.slotRetire_safe : slotRetire.Safe := fun _ _ _ h => h

@[simp] theorem Machine.slotTrap_safe (imm : Nat) : (slotTrap imm).Safe := fun _ _ _ h => h

@[simp] theorem Machine.slotPcommit_safe : slotPcommit.Safe := fun _ _ _ h => h

@[simp] theorem Machine.slotTret_safe : slotTret.Safe := fun _ _ _ h => SlotR.ite_safe trivial (goTo_safe _ _ _ h)

theorem Machine.gridSlot_safe (cls : Nat) (srcs : List (GridOp × (Nat → Bool))) (extra : Tile → List Site)
    {body : Ctx → State → List Nat → SlotR}
    (hb : ∀ c s l, c.s0.mem.wf = true → s.mem.wf = true → (body c s l).Safe) : (gridSlot cls srcs extra body).Safe := by
  intro c s h0 h
  simp only [gridSlot]
  split
  · trivial
  · exact hb c s _ h0 h

theorem Machine.rowOut_safe (c : Ctx) {s : State} (d : GridOp) (tag : Nat) (v : Row) (lat : Nat) (h : s.mem.wf = true) :
    (rowOut c s d tag v lat).Safe := by
  unfold rowOut
  split
  · trivial
  · exact h

@[simp] theorem Machine.lanes2_safe (ok : Nat → Bool) (tag lat : Nat) (d a b : GridOp) (f : Rnd → Cell → Cell → Cell) :
    (lanes2 ok tag lat d a b f).Safe :=
  gridSlot_safe _ _ _ fun c _ _ _ h => rowOut_safe c _ _ _ _ h

@[simp] theorem Machine.lanes1_safe (ok : Nat → Bool) (tag lat : Nat) (d a : GridOp) (f : Rnd → Cell → Cell) :
    (lanes1 ok tag lat d a f).Safe :=
  gridSlot_safe _ _ _ fun c _ _ _ h => rowOut_safe c _ _ _ _ h

@[simp] theorem Machine.fp2_safe (d a b : GridOp) (f : RMode → Num → Num → Num) :
    (fp2 d a b f).Safe := lanes2_safe _ _ _ _ _ _ _

@[simp] theorem Machine.fp1_safe (lat : Nat) (d a : GridOp) (f : Num → Num) : (fp1 lat d a f).Safe := lanes1_safe _ _ _ _ _ _

@[simp] theorem Machine.fp3_safe (d a b : GridOp) (f : RMode → Num → Num → Num → Num) : (fp3 d a b f).Safe :=
  gridSlot_safe _ _ _ fun c _ _ _ h => rowOut_safe c _ _ _ _ h

@[simp] theorem Machine.slotFsel_safe (d a b : GridOp) : (slotFsel d a b).Safe :=
  gridSlot_safe _ _ _ fun c _ _ _ h => rowOut_safe c _ _ _ _ h

@[simp] theorem Machine.slotVsel_safe (d a b : GridOp) : (slotVsel d a b).Safe :=
  gridSlot_safe _ _ _ fun c _ _ _ h => SlotR.ite_safe trivial (rowOut_safe c _ _ _ _ h)

@[simp] theorem Machine.laneCompare_safe (ok : Nat → Bool) (lat : Nat) (p : PReg) (a b : GridOp) (all : Bool)
    (f : Cell → Cell → Bool) : (laneCompare ok lat p a b all f).Safe :=
  gridSlot_safe _ _ _ fun _ _ _ _ h => h

@[simp] theorem Machine.bits2_safe (d a b : GridOp) (f : Cell → Cell → Cell) : (bits2 d a b f).Safe :=
  gridSlot_safe _ _ _ fun c _ _ _ h => rowOut_safe c _ _ _ _ h

@[simp] theorem Machine.shift1_safe (d a : GridOp) (f : Cell → Cell) : (shift1 d a f).Safe :=
  gridSlot_safe _ _ _ fun c _ _ _ h => rowOut_safe c _ _ _ _ h

theorem Machine.cvtFromPair_safe (c : Ctx) {s : State} (d a : GridOp) (p t : Nat) (h : s.mem.wf = true) :
    (cvtFromPair c s d a p t).Safe :=
  SlotR.ite_safe trivial (rowOut_safe c _ _ _ _ h)

theorem Machine.cvtToPair_safe (c : Ctx) {s : State} (d a : GridOp) (p src : Nat) (h : s.mem.wf = true) :
    (cvtToPair c s d a p src).Safe :=
  SlotR.ite_safe trivial h

@[simp] theorem Machine.slotCvt_safe (d a : GridOp) (p : Fin 8) (t : Fin 16) : (slotCvt d a p t).Safe := by
  refine gridSlot_safe _ _ _ fun c s _ _ h => ?_
  refine SlotR.ite_safe (cvtFromPair_safe c _ _ _ _ h) (SlotR.ite_safe (cvtToPair_safe c _ _ _ _ h) ?_)
  split
  · trivial
  · exact rowOut_safe c _ _ _ _ h

@[simp] theorem Machine.slotDqn_safe (d a : GridOp) (p : Fin 8) (n : Fin 32) : (slotDqn d a p n).Safe :=
  gridSlot_safe _ _ _ fun c _ _ _ h => SlotR.ite_safe trivial (rowOut_safe c _ _ _ _ h)

@[simp] theorem Machine.slotBmax_safe (d a : GridOp) (b : Bool) : (slotBmax d a b).Safe := by
  refine gridSlot_safe _ _ _ fun c s _ _ h => rowOut_safe c _ _ _ _ ?_
  simpa using h

@[simp] theorem Machine.slotScsel_safe (d a : GridOp) (fuse : Bool) (e : Fin 16) (b : Bool) (f : MxFmt) :
    (slotScsel d a fuse e b f).Safe := by
  refine gridSlot_safe _ _ _ fun c s _ _ h => ?_
  dsimp only
  have hr := rowOut_safe c (s := if fuse then s.mapTile fun t => { t with bmr := toF32 rne (blockMax (c.pre.row a) b) } else s) d 14
    (patch c.pre d 14 e.val 1 fun _ => chooseScale f (f32 c.pre.bmr)) 4 (by simp [h])
  split
  · next he => exact (he ▸ hr : (SlotR.ok _ _).Safe)
  · exact hr

@[simp] theorem Machine.slotQnt_safe (d a : GridOp) (f : MxFmt) (b : Bool) : (slotQnt d a f b).Safe :=
  gridSlot_safe _ _ _ fun c _ _ _ h => rowOut_safe c _ _ _ _ h

@[simp] theorem Machine.slotVmov_safe (d a : GridOp) : (slotVmov d a).Safe :=
  gridSlot_safe _ _ _ fun c _ _ _ h => rowOut_safe c _ _ _ _ h

@[simp] theorem Machine.slotTag_safe (d a : GridOp) (t : Fin 16) : (slotTag d a t).Safe :=
  gridSlot_safe _ _ _ fun c _ _ _ h => rowOut_safe c _ _ _ _ h

@[simp] theorem Machine.slotVperm_safe (d a b : GridOp) : (slotVperm d a b).Safe :=
  gridSlot_safe _ _ _ fun c _ _ _ h => rowOut_safe c _ _ _ _ h

@[simp] theorem Machine.slotVrot_safe (d a : GridOp) (k : Fin 64) : (slotVrot d a k).Safe :=
  gridSlot_safe _ _ _ fun c _ _ _ h => rowOut_safe c _ _ _ _ h

@[simp] theorem Machine.slotVbcst_safe (d : GridOp) (a : SReg) (t : Fin 16) : (slotVbcst d a t).Safe :=
  fun c _ _ h => rowOut_safe c _ _ _ _ h

@[simp] theorem Machine.slotVred_safe (op : RedOp) (d a : GridOp) : (slotVred op d a).Safe :=
  gridSlot_safe _ _ _ fun c _ _ _ h => rowOut_safe c _ _ _ _ h

@[simp] theorem Machine.slotQpop_safe (d : GridOp) (q : QReg) : (slotQpop d q).Safe := by
  intro c s h0 h
  simp only [slotQpop]
  split
  · trivial
  · exact h0
  · trivial
  · exact rowOut_safe c _ _ _ _ h

@[simp] theorem Machine.slotSpk_safe (d a : GridOp) (n : Fin 8) : (slotSpk d a n).Safe :=
  gridSlot_safe _ _ _ fun c _ _ _ h => rowOut_safe c _ _ _ _ h

@[simp] theorem Machine.slotSpx_safe (d a : GridOp) (n : Fin 8) : (slotSpx d a n).Safe :=
  gridSlot_safe _ _ _ fun c _ _ _ h => rowOut_safe c _ _ _ _ h

end Sys2Proof
end

