-- ==== Sys2Proof/Proofs/KeepsMemoryAccesses.lean ====
section
/-! SUPPORT. The accesses of the memory slot keep the canonical form of memory. -/

namespace Sys2Proof

open Machine

@[simp] theorem Machine.addrR_safe (c : Cause) (a : Nat) : (addrR c a).Safe := trivial

theorem Machine.memSlot_safe (reads : Tile → List Site) {run : Ctx → State → SlotR}
    (hr : ∀ c s, c.s0.mem.wf = true → s.mem.wf = true → (run c s).Safe) : (memSlot reads run).Safe :=
  fun c s h0 h => SlotR.ite_safe h0 (hr c s h0 h)

theorem Machine.memSlotR_safe (reads : Tile → List Site) {run : Ctx → State → SlotR}
    (hr : ∀ c s, c.s0.mem.wf = true → s.mem.wf = true → (run c s).Safe) : (memSlotR reads run).Safe :=
  memSlot_safe reads hr

theorem Machine.waitData_safe {c : Ctx} (n : Nat) (ranges : List (Nat × Nat)) {k : SlotR} (h0 : c.s0.mem.wf = true)
    (hk : k.Safe) :
    (waitData c n ranges k).Safe :=
  SlotR.ite_safe (SlotR.ite_safe h0 hk) (SlotR.ite_safe h0 (SlotR.ite_safe h0 hk))

theorem Machine.loadR_safe {c : Ctx} {s : State} (ranges : List (Nat × Nat)) (due : Nat)
    (val : State → List (Site × Option Word))
    (h0 : c.s0.mem.wf = true) (h : s.mem.wf = true) : (loadR c s ranges due val).Safe := by
  have hp := memPrep_safe false ranges h0 h
  unfold loadR
  generalize memPrep c.s0 s false ranges = p at hp ⊢
  cases p with
  | trap i => trivial
  | stall u => exact hp
  | ok u =>
    refine SlotR.ite_safe h0 ?_
    simp [show u.mem.wf = true from hp]

@[simp] theorem Machine.State.performStores_wf (s : State) (l : List (Nat × List Byte)) (h : s.mem.wf = true) :
    (s.performStores l).mem.wf = true :=
  State.foldl_wf (fun s _ hs => State.performStore_wf s _ _ hs) l h

theorem Machine.State.specStores_wf {s u : State} {pc : Nat} {p : Spec} {l : List (Nat × List Byte)} {now : Bool}
    (h : s.mem.wf = true) (hu : s.specStores pc p l = some (u, now)) : u.mem.wf = true := by
  simp only [State.specStores] at hu
  split at hu
  · obtain ⟨rfl, -⟩ := Prod.mk.inj (Option.some.inj hu)
    exact State.performStores_wf _ _ h
  · split at hu
    · obtain ⟨rfl, -⟩ := Prod.mk.inj (Option.some.inj hu)
      exact State.performStores_wf _ _ h
    · nomatch hu

theorem Machine.storeR_safe {c : Ctx} {s : State} (pieces : List (Nat × List Byte)) (due : Nat) (h0 : c.s0.mem.wf = true)
    (h : s.mem.wf = true) : (storeR c s pieces due).Safe := by
  have hp := memPrep_safe true (pieces.map fun p => (p.1, p.1 + p.2.length)) h0 h
  unfold storeR
  generalize memPrep c.s0 s true (pieces.map fun p => (p.1, p.1 + p.2.length)) = p at hp ⊢
  cases p with
  | trap i => trivial
  | stall u => exact hp
  | ok u =>
    dsimp only
    split
    · exact SlotR.ite_safe h0 (State.performStores_wf u pieces hp)
    · split
      · trivial
      · next hs =>
        have hv := State.specStores_wf (show u.mem.wf = true from hp) hs
        refine SlotR.ite_safe h0 ?_
        simp [hv]

@[simp] theorem Machine.slotLds_safe (sz : Size) (d a : SReg) (imm : Int) : (slotLds sz d a imm).Safe := by
  refine memSlot_safe _ fun c s h0 h => ?_
  dsimp only
  split
  · trivial
  · exact SlotR.ite_safe (loadR_safe _ _ _ h0 h) (loadR_safe _ _ _ h0 h)

@[simp] theorem Machine.slotSts_safe (sz : Size) (d a : SReg) (imm : Int) : (slotSts sz d a imm).Safe := by
  refine memSlot_safe _ fun c s h0 h => ?_
  dsimp only
  split
  · trivial
  · refine SlotR.ite_safe (SlotR.ite_safe trivial (SlotR.ite_safe h0 (SlotR.ite_safe ?_ h))) (storeR_safe _ _ h0 h)
    exact csrStore_safe _ _ _ h

@[simp] theorem Machine.slotLdv_safe (d : GridOp) (a : SReg) (imm : Int) : (slotLdv d a imm).Safe := by
  refine memSlot_safe _ fun c s h0 h => ?_
  dsimp only
  split
  · trivial
  split
  · trivial
  · exact loadR_safe _ _ _ h0 h

@[simp] theorem Machine.slotStv_safe (d : GridOp) (a : SReg) (imm : Int) : (slotStv d a imm).Safe := by
  refine memSlot_safe _ fun c s h0 h => ?_
  dsimp only
  split
  · trivial
  split
  · trivial
  · exact storeR_safe _ _ h0 h

/-- A shared access after whose effect the slot changes its tile. -/
theorem Machine.SlotR.upon_safe {r : SlotR} (f : Tile → Tile) (h : r.Safe) :
    (match r with | .ok u fx => SlotR.ok (u.mapTile f) fx | r => r).Safe := by
  cases r with
  | ok u fx => exact h
  | trap i => trivial
  | fail u i => exact h
  | late u i => exact h
  | stall u => exact h
  | resolve => trivial
  | wait u k => exact h

@[simp] theorem Machine.slotLdtt_safe (d : Fin 64) (a : SReg) (imm : Int) : (slotLdtt d a imm).Safe := by
  refine memSlot_safe _ fun c s h0 h => ?_
  refine SlotR.ite_safe trivial ?_
  split
  · trivial
  · exact SlotR.upon_safe _ (loadR_safe _ _ _ h0 h)

@[simp] theorem Machine.slotStbp_safe (d : GridOp) (a : SReg) (imm : Int) : (slotStbp d a imm).Safe := by
  refine memSlot_safe _ fun c s h0 h => ?_
  dsimp only
  split
  · trivial
  split
  · trivial
  · exact SlotR.upon_safe _ (storeR_safe _ _ h0 h)

@[simp] theorem Machine.slotLdbp_safe (d : GridOp) (a : SReg) (imm : Int) : (slotLdbp d a imm).Safe := by
  refine memSlot_safe _ fun c s h0 h => ?_
  dsimp only
  split
  · trivial
  split
  · trivial
  · exact SlotR.upon_safe _ (loadR_safe _ _ _ h0 h)

theorem Machine.withImage_safe {c : Ctx} {s : State} (x : Nat) {k : State → Image → SlotR} (h0 : c.s0.mem.wf = true)
    (h : s.mem.wf = true) (hk : ∀ u img, u.mem.wf = true → (k u img).Safe) : (withImage c s x k).Safe := by
  have hp := memPrep_safe false [(x, x + 16)] h0 h
  unfold withImage
  generalize memPrep c.s0 s false [(x, x + 16)] = p at hp ⊢
  split
  · trivial
  · cases p with
    | trap i => trivial
    | stall u => exact hp
    | ok u => exact waitData_safe _ _ h0 (hk _ _ (State.wf_of_mem hp (State.touch_mem u _ _)))

@[simp] theorem Machine.slotHset_safe (n : HReg) (a : SReg) : (slotHset n a).Safe :=
  memSlot_safe _ fun _ _ h0 h => withImage_safe _ h0 h fun _ _ hu => SlotR.ite_safe trivial hu

@[simp] theorem Machine.slotHget_safe (n : HReg) (a : SReg) : (slotHget n a).Safe := by
  refine memSlot_safe _ fun c s h0 h => ?_
  dsimp only
  split
  · trivial
  · exact storeR_safe _ _ h0 h

@[simp] theorem Machine.slotSpfence_safe : slotSpfence.Safe := memSlot_safe _ fun _ _ h0 h => SlotR.ite_safe h0 h

theorem Machine.flushLines_safe {c : Ctx} {s : State} (l : List (MapNo × Nat)) {k : State → SlotR} (h0 : c.s0.mem.wf = true)
    (h : s.mem.wf = true) (hk : ∀ u, u.mem.wf = true → (k u).Safe) : (flushLines c s l k).Safe := by
  have hw := State.writeBacks_safe l h
  have hk0 := State.writeBacks_safe l h0
  unfold flushLines
  generalize s.writeBacks l = r at hw ⊢
  generalize c.s0.writeBacks l = q at hk0 ⊢
  match r, q, hw, hk0 with
  | .error _, .error _, _, hk0 => exact hk0
  | .error _, .ok _, _, _ => trivial
  | .ok u, _, hw, _ => exact hk u hw

theorem Machine.flushWindow_safe {c : Ctx} {s : State} (n : MapNo) (k : Tile → Tile) (h0 : c.s0.mem.wf = true)
    (h : s.mem.wf = true) : (flushWindow c s n k).Safe :=
  SlotR.ite_safe (SlotR.ite_safe h0 (flushLines_safe _ h0 h fun _ hu => hu)) h

@[simp] theorem Machine.slotMapw_safe (n : MapNo) (a : SReg) : (slotMapw n a).Safe :=
  memSlotR_safe _ fun _ _ h0 h => withImage_safe _ h0 h fun _ _ hu => SlotR.ite_safe trivial (flushWindow_safe n _ h0 hu)

theorem Machine.mapSlot_safe (n : MapNo) {k : Ctx → State → MapEntry → SlotR}
    (hk : ∀ c s m, c.s0.mem.wf = true → s.mem.wf = true → (k c s m).Safe) : (mapSlot n k).Safe :=
  memSlotR_safe _ fun c s h0 h => SlotR.ite_safe (hk c s _ h0 h) trivial

@[simp] theorem Machine.slotMapf_safe (n : MapNo) :
    (slotMapf n).Safe := mapSlot_safe n fun _ _ _ h0 h => flushWindow_safe n _ h0 h

@[simp] theorem Machine.slotMapi_safe (n : MapNo) :
    (slotMapi n).Safe := mapSlot_safe n fun _ _ _ h0 h => flushWindow_safe n _ h0 h

@[simp] theorem Machine.slotMapiDiscard_safe (n : MapNo) : (slotMapiDiscard n).Safe := mapSlot_safe n fun _ _ _ _ h => h

@[simp] theorem Machine.queueStore_safe (q : QReg) (a : SReg) (n : Nat) : (queueStore q a n).Safe := by
  refine memSlot_safe _ fun c s h0 h => ?_
  dsimp only
  split
  · trivial
  · exact h0
  · trivial
  · split
    · trivial
    · exact storeR_safe _ _ h0 h

end Sys2Proof
end

