-- ==== Sys2Proof/Proofs/KeepsMemoryCopies.lean ====
section
/-! SUPPORT. The ring instructions and the copy jobs keep the canonical form of memory. -/

namespace Sys2Proof

open Machine

theorem Machine.ringSlot_safe (n : RingNo) (reads : Tile → List Site) {k : Ctx → State → Fin 8 → SlotR}
    (hk : ∀ c s r, c.s0.mem.wf = true → s.mem.wf = true → (k c s r).Safe) : (ringSlot n reads k).Safe := by
  refine memSlot_safe _ fun c s h0 h => ?_
  split
  · trivial
  · exact hk c s _ h0 h

@[simp] theorem Machine.slotBufacq_safe (n : RingNo) (d e : SReg) : (slotBufacq n d e).Safe := by
  refine ringSlot_safe _ _ fun c s r h0 h => ?_
  split
  · exact h
  · exact h0
  · exact h0

@[simp] theorem Machine.slotBuftake_safe (n : RingNo) (d e : SReg) : (slotBuftake n d e).Safe := by
  refine ringSlot_safe _ _ fun c s r h0 h => ?_
  split
  · exact h
  · exact h0
  · exact h0

@[simp] theorem Machine.slotBufpub_safe (n : RingNo) (a : SReg) (k : Fin 16) : (slotBufpub n a k).Safe := by
  refine ringSlot_safe _ _ fun c s r h0 h => ?_
  split
  · trivial
  · refine SlotR.ite_safe trivial (SlotR.ite_safe h0 ?_)
    split
    · simp [h]
    · exact SlotR.ite_safe (by simp [h]) (SlotR.ite_safe (by simp [h]) trivial)

@[simp] theorem Machine.slotBuffree_safe (n : RingNo) (a : SReg) (k : Fin 16) : (slotBuffree n a k).Safe := by
  refine ringSlot_safe _ _ fun c s r h0 h => ?_
  split
  · trivial
  · refine SlotR.ite_safe trivial ?_
    split
    · exact SlotR.ite_safe h0 (by simp [h])
    · exact SlotR.ite_safe (by simp [h]) trivial

@[simp] theorem Machine.slotBufq_safe (n : RingNo) (d : SReg) : (slotBufq n d).Safe := ringSlot_safe _ _ fun _ _ _ _ h => h

theorem Machine.Prep.sound_safe {r : Prep} (s : State) (h : r.Safe) : (r.sound s).Safe := by
  cases r with
  | ok u => exact h
  | trap i => trivial
  | stall u =>
    unfold Prep.sound
    dsimp only
    split
    · trivial
    · exact h

@[simp] theorem Machine.State.latePrep_safe (s : State) (write : Bool) (l : List (Nat × Nat)) (h : s.mem.wf = true) :
    (s.latePrep write l).Safe :=
  Prep.ite_safe trivial (Prep.sound_safe s (winPrep_safe _ _ _ h h))

theorem Machine.probePages_mem {acc : Access} {hi n va : Nat} {s u : State} {ps qs : List Page}
    (h : probePages acc hi n va s ps = .ok (u, qs)) : u.mem = s.mem := by
  induction n generalizing va s ps with
  | zero => cases h; rfl
  | succ n ih => grind [probePages, State.translate_mem]

theorem Machine.probeBox_mem {s u : State} {acc : Access} {lo hi : Int} {ps : List Page}
    (h : probeBox s acc lo hi = .ok (u, ps)) :
    u.mem = s.mem := by
  unfold probeBox at h
  split at h
  · nomatch h
  · exact probePages_mem h

theorem Machine.Side.probe_mem {s u : State} {x : Side} {acc : Access} {b : Int × Int} {ps : List Page}
    (h : x.probe s acc b = .ok (u, ps)) : u.mem = s.mem := by
  unfold Side.probe at h
  split at h
  · exact probeBox_mem h
  · cases h; rfl

theorem Machine.copyChecks_mem {s u : State} {a : Agent} {c : ChNo} {words : Vector Word 16} {j : CopyJob}
    (h : copyChecks s a c words = .ok (u, j)) : u.mem = s.mem := by
  simp only [copyChecks] at h
  iterate 8
    split at h
    · nomatch h
  next hx _ _ _ hy =>
    obtain ⟨rfl, -⟩ := Prod.mk.inj (Except.ok.inj h)
    exact (Side.probe_mem hy).trans (Side.probe_mem hx)

@[simp] theorem Machine.State.flushFeet_wf (s : State) (fs : List Foot) (h : s.mem.wf = true) :
    (s.flushFeet fs).mem.wf = true :=
  State.foldl_wf (fun s _ hs => State.ownWriteBack_wf s _ _ hs) _ h

@[simp] theorem Machine.State.countPages_wf (s : State) (ps : List Page) (h : s.mem.wf = true) :
    (s.countPages ps).mem.wf = true :=
  State.foldl_wf (fun s _ hs => State.countAccess_wf s _ _ hs) _ h

@[simp] theorem Machine.State.enqueueCopy_wf (s : State) (c : ChNo) (j : CopyJob) (h : s.mem.wf = true) :
    (s.enqueueCopy c j).mem.wf = true := by
  simp [State.enqueueCopy, h]

@[simp] theorem Machine.State.refuseCopy_mem (s : State) (c : ChNo) (j : CopyJob) (i : TrapInfo) :
    (s.refuseCopy c j i).mem = s.mem :=
  rfl

theorem Machine.State.fireCopy_mem {s u : State} {c : ChNo} (h : s.fireCopy c = some u) : u.mem = s.mem := by
  grind [State.fireCopy, State.refuseCopy_mem]

theorem Machine.State.sourcePrep_safe (s : State) (a n : Nat) (shadow : List Host.Cell) (h : s.mem.wf = true) :
    (s.sourcePrep a n shadow).Safe := by
  have hp := State.latePrep_safe s false (ownReads a n shadow) h
  simp only [State.sourcePrep]
  generalize s.latePrep false (ownReads a n shadow) = p at hp ⊢
  cases p with
  | trap i => trivial
  | stall u => exact hp
  | ok u =>
    dsimp only
    split
    · trivial
    · exact hp

@[simp] theorem Machine.State.agentStore_wf (s : State) (a : Nat) (bs : List Byte) (h : s.mem.wf = true) :
    (s.agentStore a bs).mem.wf = true := by
  simp [State.agentStore, h]

@[simp] theorem Machine.State.storeAt_wf (s : State) (k : Nat) (bs : List Byte) (h : s.mem.wf = true) :
    (s.storeAt k bs).mem.wf = true := by
  unfold State.storeAt
  split
  · exact Memory.wf_put _ _ h
  · exact h

@[simp] theorem Machine.CopyJob.element_wf (j : CopyJob) (c : ChNo) (a d : Nat) (s : State) (h : s.mem.wf = true) :
    (CopyJob.element j c a d s).mem.wf = true := by
  simp [CopyJob.element, h]

@[simp] theorem Machine.CopyJob.copy_wf (j : CopyJob) (c : ChNo) (n : Nat) (s : State) (h : s.mem.wf = true) :
    (j.copy c n s).mem.wf = true :=
  State.foldl_wf (fun s _ hs => CopyJob.element_wf j c _ _ s hs) _ h

@[simp] theorem Machine.State.finishCopy_wf (s : State) (c : ChNo) (j : CopyJob) (h : s.mem.wf = true) :
    (s.finishCopy c j).mem.wf = true := by
  simp [State.finishCopy, h]

theorem Machine.CopyJob.windows_safe (j : CopyJob) {s : State} (c : ChNo) (h : s.mem.wf = true) : (j.windows s c).Safe := by
  simp only [CopyJob.windows]
  generalize hr : winPrep (.chan c) s s false _ = p
  have hp := hr ▸ winPrep_safe (.chan c) false _ h h
  cases p with
  | ok u => exact winPrep_safe _ _ _ hp hp
  | trap i => trivial
  | stall u => exact hp

@[simp] theorem Machine.State.failCopy_wf (s : State) (c : ChNo) (j : CopyJob) (elem : Nat) (h : s.mem.wf = true) :
    (s.failCopy c j elem).mem.wf = true := by
  simp [State.failCopy, h]

@[simp] theorem Machine.State.endCopy_wf (s : State) (c : ChNo) (j : CopyJob) (h : s.mem.wf = true) :
    (s.endCopy c j).mem.wf = true := by
  have hp := CopyJob.windows_safe j c h
  unfold State.endCopy
  generalize j.windows s c = p at hp ⊢
  cases p with
  | trap i => simpa using h
  | stall u => exact hp
  | ok u =>
    have hu : u.mem.wf = true := hp
    dsimp only
    split
    · simp [hu]
    · simp [hu]
    · split <;> simp [hu]

@[simp] theorem Machine.State.drainCopies_wf (s : State) (c : ChNo) (h : s.mem.wf = true) :
    (s.drainCopies c).mem.wf = true :=
  slicePut_wf _ _ h

/-- Every state that a drain leaves is in canonical form. -/
def Machine.DrainR.Safe : DrainR → Prop
  | .bad _ s | .done s => s.mem.wf = true
  | .wait => True

theorem Machine.State.drain_safe (s : State) (a : Agent) (c : ChNo) (h : s.mem.wf = true) : (s.drain a c).Safe := by
  have hw := State.writeBacks_safe (s.tile.chans[c.val]).lines h
  unfold State.drain
  generalize hb : s.writeBacks (s.tile.chans[c.val]).lines = r at hw ⊢
  dsimp only
  split
  · exact h
  split
  · exact h
  split
  · trivial
  · rw [hb]
    cases r with
    | error e => exact hw
    | ok u => exact State.drainCopies_wf u c hw

theorem Machine.State.onTile_wf {s : State} (i : TileId) {f : State → State}
    (hf : ∀ u, u.mem.wf = true → (f u).mem.wf = true)
    (h : s.mem.wf = true) : (s.onTile i f).mem.wf = true := by
  have hu := hf (s.focus i) (State.wf_of_mem h (State.focus_mem s i))
  exact State.wf_of_mem hu (State.focus_mem _ _)

end Sys2Proof
end

