-- ==== Sys2Proof/Proofs/KeepsMemoryBeats.lean ====
section
/-! SUPPORT. Beats, copies and circuits keep the canonical form of memory. -/

namespace Sys2Proof

open Machine

theorem Machine.beatPrep_safe {c : Ctx} {s : State} (l : List (Nat × Nat)) {k : State → SlotR} (h0 : c.s0.mem.wf = true)
    (h : s.mem.wf = true) (hk : ∀ u, u.mem.wf = true → (k u).Safe) : (beatPrep c s l k).Safe := by
  have hp := linePrep_safe .core false l h0 h
  unfold beatPrep
  generalize linePrep .core c.s0 s false l = p at hp ⊢
  cases p with
  | trap i => trivial
  | stall u => exact hp
  | ok u =>
    dsimp only
    split
    · trivial
    · exact hk u hp

@[simp] theorem Machine.State.spend_mem (s : State) : (s.spend).mem = s.mem :=
  rfl

theorem Machine.matSlot_safe {run : Ctx → State → SlotR}
    (hr : ∀ c s, c.s0.mem.wf = true → s.mem.wf = true → (run c s).Safe) :
    (matSlot run).Safe := hr

/-- Going on in a state whose memory is canonical, but for its tile. -/
theorem Machine.okR_mapTile_safe {s : State} (f : Tile → Tile) (h : s.mem.wf = true) : (okR (s.mapTile f)).Safe := h

@[simp] theorem Machine.pushBeat_safe (a b : Option HReg) (close : Bool) : (pushBeat a b close).Safe := by
  refine matSlot_safe fun c s h0 h => ?_
  dsimp only
  split
  · trivial
  · refine beatPrep_safe _ h0 h fun u hu => ?_
    split
    · trivial
    · refine beatPrep_safe _ h0 hu ?_
      intro v hv
      exact okR_mapTile_safe _ (State.wf_of_mem hv (State.spend_mem v))

@[simp] theorem Machine.slotMhold_safe : slotMhold.Safe := fun _ _ _ h => h

@[simp] theorem Machine.slotMacc_safe : slotMacc.Safe := by
  refine matSlot_safe fun c s h0 h => SlotR.ite_safe trivial (SlotR.ite_safe trivial ?_)
  split
  · trivial
  · exact okR_mapTile_safe _ h

@[simp] theorem Machine.slotMzero_safe : slotMzero.Safe := fun _ _ _ h => h

@[simp] theorem Machine.slotMsetFloat_safe (ga gb : Fin 4096) : (slotMsetFloat ga gb).Safe := fun _ _ _ h => h

@[simp] theorem Machine.slotMsetInt_safe (ga gb : Fin 4096) : (slotMsetInt ga gb).Safe := fun _ _ _ h => h

@[simp] theorem Machine.slotMdrain_safe (r : Fin 64) (q : QReg) (f : DrainFmt) (z : Bool) : (slotMdrain r q f z).Safe := by
  refine matSlot_safe fun c s h0 h => SlotR.ite_safe trivial (SlotR.ite_safe trivial ?_)
  split
  · trivial
  · exact h

@[simp] theorem Machine.slotMsparse_safe (b : HReg) : (slotMsparse b).Safe :=
  matSlot_safe fun _ _ h0 h => SlotR.ite_safe trivial (SlotR.ite_safe trivial (beatPrep_safe _ h0 h fun _ hu =>
    SlotR.ite_safe trivial (beatPrep_safe _ h0 hu fun _ hv => by simp [hv])))

@[simp] theorem Machine.slotMremQueue_safe (a : HReg) (r : Fin 64) (e : Fin 2) (q : QReg) :
    (slotMremQueue a r e q).Safe := by
  refine matSlot_safe fun c s h0 h => ?_
  split
  · trivial
  · exact SlotR.ite_safe trivial (beatPrep_safe _ h0 h fun _ hu => hu)

@[simp] theorem Machine.slotMremAcc_safe (a : HReg) (r : Fin 64) (e : Fin 2) : (slotMremAcc a r e).Safe := by
  refine matSlot_safe fun c s h0 h => ?_
  split
  · trivial
  · exact SlotR.ite_safe trivial (beatPrep_safe _ h0 h fun _ hu => hu)

@[simp] theorem Machine.slotMaccR_safe (e : Fin 2) : (slotMaccR e).Safe := by
  refine matSlot_safe fun c s h0 h => ?_
  dsimp only
  split
  · trivial
  · refine SlotR.ite_safe h0 (SlotR.ite_safe trivial (SlotR.ite_safe trivial ?_))
    split
    · trivial
    · exact h

@[simp] theorem Machine.slotMskew_safe (q : QReg) (e : Fin 2) : (slotMskew q e).Safe :=
  matSlot_safe fun _ _ _ h => SlotR.ite_safe trivial (SlotR.ite_safe trivial h)

theorem Machine.engSlot_safe (reads : List Site) {run : Ctx → State → SlotR}
    (hr : ∀ c s, c.s0.mem.wf = true → s.mem.wf = true → (run c s).Safe) : (engSlot reads run).Safe := hr

theorem Machine.engSlotR_safe (reads : List Site) {run : Ctx → State → SlotR}
    (hr : ∀ c s, c.s0.mem.wf = true → s.mem.wf = true → (run c s).Safe) : (engSlotR reads run).Safe := hr

theorem Machine.ownSlot_safe (ch : ChNo) (reads : List Site) {run : Ctx → State → SlotR}
    (hr : ∀ c s, c.s0.mem.wf = true → s.mem.wf = true → (run c s).Safe) : (ownSlot ch reads run).Safe :=
  fun c s h0 h => SlotR.ite_safe (hr c s h0 h) trivial

@[simp] theorem Machine.slotCpbase_safe (ch : ChNo) (d a b : SReg) : (slotCpbase ch d a b).Safe :=
  ownSlot_safe _ _ fun _ _ _ h => h

@[simp] theorem Machine.slotCpnest_safe (ch : ChNo) (l : Fin 8) (d a b : SReg) : (slotCpnest ch l d a b).Safe :=
  ownSlot_safe _ _ fun _ _ _ h => SlotR.ite_safe trivial h

@[simp] theorem Machine.slotCpfoot_safe (ch : ChNo) (k : Fin 8) (a b : SReg) : (slotCpfoot ch k a b).Safe :=
  ownSlot_safe _ _ fun _ _ _ h => SlotR.ite_safe trivial h

@[simp] theorem Machine.slotCpgo_safe (ch : ChNo) : (slotCpgo ch).Safe := by
  refine engSlot_safe _ fun c s h0 h => ?_
  split
  · trivial
  · next hx =>
    have hu := State.wf_of_mem h (copyChecks_mem hx)
    dsimp only
    cases s.tile.spec with
    | some p =>
      dsimp only
      split
      · split
        · exact okR_mapTile_safe _ hu
        · trivial
      · refine waitData_safe _ _ h0 ?_
        split
        · exact okR_mapTile_safe _ hu
        · trivial
    | none =>
      dsimp only
      split
      · exact SlotR.ite_safe h0 (by simp [hu])
      · exact waitData_safe _ _ h0 (SlotR.ite_safe h0 (by simp [hu]))

@[simp] theorem Machine.slotCpdrain_safe (ch : ChNo) : (slotCpdrain ch).Safe := by
  refine engSlotR_safe _ fun c s h0 h => ?_
  have hd := State.drain_safe s .core ch h
  have hd0 := State.drain_safe c.s0 .core ch h0
  generalize s.drain .core ch = r at hd ⊢
  generalize c.s0.drain .core ch = q at hd0 ⊢
  match r, q, hd, hd0 with
  | .bad _ _, .bad _ _, _, hd0 => exact hd0
  | .bad _ _, .wait, _, _ => trivial
  | .bad _ _, .done _, _, _ => trivial
  | .wait, _, _, _ => exact h0
  | .done _, _, hd, _ => exact hd

@[simp] theorem Machine.slotCpstat_safe (ch : ChNo) (d : SReg) : (slotCpstat ch d).Safe := fun _ _ _ h => h

@[simp] theorem Machine.State.sendRow_mem (s : State) (k : EndNo) (v : Row) (queue : Bool) :
    (s.sendRow k v queue).mem = s.mem :=
  rfl

theorem Machine.sendSlot_safe (k : EndNo) (reads : List Site) (queue : Bool)
    {row : Ctx → State → (State → Row → SlotR) → SlotR}
    (hr : ∀ c s go, c.s0.mem.wf = true → s.mem.wf = true → (∀ u v, u.mem.wf = true → (go u v).Safe) → (row c s go).Safe) :
    (sendSlot k reads queue row).Safe :=
  fun c s h0 h => SlotR.ite_safe trivial (hr c s _ h0 h fun _ _ hu => SlotR.ite_safe h0 (by simp [hu]))

@[simp] theorem Machine.slotQsend_safe (q : QReg) (k : EndNo) : (slotQsend q k).Safe := by
  intro c s h0 h
  refine SlotR.ite_safe trivial ?_
  dsimp only
  split
  · trivial
  · exact h0
  · trivial
  · exact SlotR.ite_safe h0 (by simp [h])

@[simp] theorem Machine.slotCsend_safe (k : EndNo) (a : SReg) : (slotCsend k a).Safe := by
  refine sendSlot_safe k _ false fun c s go h0 h hgo => ?_
  dsimp only
  split
  · trivial
  · have hp := memPrep_safe false [((c.pre.sreg a).toNat, (c.pre.sreg a).toNat + rowSize)] h0 h
    generalize memPrep c.s0 s false [((c.pre.sreg a).toNat, (c.pre.sreg a).toNat + rowSize)] = p at hp ⊢
    cases p with
    | trap i => trivial
    | stall u => exact hp
    | ok u => exact hgo _ _ hp

@[simp] theorem Machine.State.dependOn_mem (s : State) (i : TileId) : (s.dependOn i).mem = s.mem :=
  rfl

/-- The state in which a row has been found is in canonical form, and that in which a speculation has begun. -/
def Machine.RecvR.Safe : RecvR → Prop
  | .begin s | .row s _ => s.mem.wf = true
  | .nothing | .limit => True

/-- Either of two findings. -/
theorem Machine.RecvR.ite_safe {c : Prop} [Decidable c] {a b : RecvR} (ha : a.Safe) (hb : b.Safe) :
    (if c then a else b).Safe := by
  split
  · exact ha
  · exact hb

theorem Machine.State.receive_safe (s : State) (k : EndNo) (h : s.mem.wf = true) : (s.receive k).Safe := by
  unfold State.receive
  split
  · trivial
  split
  · exact h
  · refine RecvR.ite_safe trivial (RecvR.ite_safe trivial (RecvR.ite_safe h ?_))
    split
    · trivial
    · generalize State.hasRoom s _ 11 (specLimit s) 1 = b
      cases b with
      | false => trivial
      | true => simp [RecvR.Safe, h]

theorem Machine.recvStore_safe {c : Ctx} {s : State} (x : Nat) (bs : List Byte) {k : State → SlotR} (h0 : c.s0.mem.wf = true)
    (h : s.mem.wf = true) (hk : ∀ u, u.mem.wf = true → (k u).Safe) : (recvStore c s x bs k).Safe := by
  have hp := memPrep_safe true [(x, x + bs.length)] h0 h
  unfold recvStore
  generalize memPrep c.s0 s true [(x, x + bs.length)] = p at hp ⊢
  cases p with
  | trap i => trivial
  | stall u => exact hp
  | ok u =>
    dsimp only
    split
    · exact hk _ (State.performStore_wf u _ _ hp)
    · split
      · trivial
      · next hs => exact hk _ (State.specStores_wf (show u.mem.wf = true from hp) hs)

theorem Machine.recvSlot_safe (k : EndNo) (a : SReg) (reads : List Site) {absent : Ctx → State → SlotR}
    {done : State → SlotR}
    (ha : ∀ c s, c.s0.mem.wf = true → s.mem.wf = true → (absent c s).Safe) (hd : ∀ u, u.mem.wf = true → (done u).Safe) :
    (recvSlot k a reads absent done).Safe := by
  refine engSlot_safe _ fun c s h0 h => SlotR.ite_safe trivial ?_
  have hr := State.receive_safe s k h
  have hr0 := State.receive_safe c.s0 k h0
  generalize s.receive k = r at hr ⊢
  generalize c.s0.receive k = q at hr0 ⊢
  dsimp only
  split
  · trivial
  · cases r with
    | nothing => exact ha c s h0 h
    | limit => trivial
    | begin u =>
      cases q with
      | begin v => exact hr0
      | nothing => exact h0
      | limit => exact h0
      | row _ _ => exact h0
    | row u x => exact recvStore_safe _ _ h0 hr hd

@[simp] theorem Machine.slotCrecv_safe (k : EndNo) (a : SReg) : (slotCrecv k a).Safe :=
  recvSlot_safe k a _ (fun _ _ h0 _ => h0) fun _ hu => hu

@[simp] theorem Machine.slotCrecvT_safe (k : EndNo) (d a : SReg) : (slotCrecvT k d a).Safe :=
  recvSlot_safe k a [.sreg a] (fun _ _ _ h => h) (fun _ hu => hu)

end Sys2Proof
end

