-- ==== Sys2Proof/Proofs/KeepsMemoryEngines.lean ====
section
/-! SUPPORT. Engine slots and the loader and storer cores keep the canonical form of memory. -/

namespace Sys2Proof

open Machine

@[simp] theorem Machine.State.putc_wf (s : State) (k : SemNo) (d a b : Word) (pages : List Page) (h : s.mem.wf = true) :
    (s.putc k d a b pages).mem.wf = true := by
  simp [State.putc, h]

@[simp] theorem Machine.slotPutc_safe (k : SemNo) (d a b : SReg) : (slotPutc k d a b).Safe := by
  refine engSlot_safe _ fun c s h0 h => SlotR.ite_safe trivial ?_
  dsimp only
  split
  · trivial
  · refine SlotR.ite_safe trivial ?_
    split
    · trivial
    · next u ps hx =>
      have hu : u.mem.wf = true := by
        generalize s.sourceTrap _ _ = o at hx
        cases o with
        | none => exact State.wf_of_mem h (probeBox_mem hx)
        | some i => nomatch hx
      refine waitData_safe _ _ h0 ?_
      split
      · exact SlotR.ite_safe (okR_mapTile_safe _ hu) trivial
      · exact SlotR.ite_safe h0 (by simp [hu])

@[simp] theorem Machine.slotGjoin_safe (d a : SReg) : (slotGjoin d a).Safe :=
  engSlotR_safe _ fun _ _ _ h => SlotR.ite_safe trivial (SlotR.ite_safe trivial (SlotR.ite_safe trivial (okR_mapTile_safe _ h)))

@[simp] theorem Machine.State.countChunk_mem (s : State) (m : Member) (chunk : Fin 16) :
    (s.countChunk m chunk).mem = s.mem := by
  simp [State.countChunk]

@[simp] theorem Machine.State.gred_mem (s : State) (k : SemNo) (d a w : Word) : (s.gred k d a w).mem = s.mem := by
  unfold State.gred
  split <;> simp

@[simp] theorem Machine.slotGred_safe (k : SemNo) (d a b : SReg) : (slotGred k d a b).Safe := by
  refine engSlot_safe _ fun c s h0 h => ?_
  dsimp only
  split
  · trivial
  split
  · exact SlotR.ite_safe (okR_mapTile_safe _ h) trivial
  · exact SlotR.ite_safe h0 (by simp [h])

@[simp] theorem Machine.slotGstat_safe (d a : SReg) :
    (slotGstat d a).Safe := engSlot_safe _ fun _ _ _ h => okR_mapTile_safe _ h

@[simp] theorem Machine.slotGstatErr_safe (d : SReg) :
    (slotGstatErr d).Safe := engSlot_safe _ fun _ _ _ h => okR_mapTile_safe _ h

@[simp] theorem Machine.State.predict_wf (s : State) (n : Fin 8) (k : Fin 16) (h : s.mem.wf = true) :
    (s.predict n k).mem.wf = true := by
  simp [State.predict, h]

/-- Taking the slot at CIDX in the course of PRED. -/
theorem Machine.predTake_safe {c : Ctx} {s : State} (p : PReg) (n : RingNo) (r : Fin 8) (h0 : c.s0.mem.wf = true)
    (h : s.mem.wf = true) :
    (match s.tile.take .core r with
      | .got _ t => okR (({ s with tile := t } : State).mapTile fun t => t.write (.pred p) (boolWord false))
      | .notReady => .wait c.s0 (.ring n false)
      | .unresolved => .stall c.s0 : SlotR).Safe := by
  split
  · exact h
  · exact h0
  · exact h0

@[simp] theorem Machine.slotPred_safe (p : PReg) (n : RingNo) : (slotPred p n).Safe := by
  refine engSlot_safe _ fun c s h0 h => ?_
  dsimp only
  split
  · trivial
  · next r hr =>
    refine SlotR.ite_safe trivial (SlotR.ite_safe (okR_mapTile_safe _ h) ?_)
    split
    · refine SlotR.ite_safe (SlotR.ite_safe (okR_mapTile_safe _ h) h0) ?_
      split
      · exact predTake_safe p n r h0 h
      · exact h0
      · exact h0
      · exact SlotR.ite_safe trivial trivial
    · split
      · exact predTake_safe p n r h0 h
      · exact h0
      · exact h0
      · refine SlotR.ite_safe trivial (SlotR.ite_safe h0 ?_)
        split
        · trivial
        · generalize State.hasRoom s _ 11 (specLimit s) 1 = b
          cases b with
          | false => trivial
          | true => simp [h0]

@[simp] theorem Machine.slotPstat_safe (d : SReg) : (slotPstat d).Safe := engSlot_safe _ fun _ _ _ h => okR_mapTile_safe _ h

@[simp] theorem Machine.slotRingQuery_safe (p : PReg) (n : RingNo) (d : SReg) : (slotRingQuery p n d).Safe := by
  refine engSlot_safe _ fun c s h0 h => ?_
  split
  · exact okR_mapTile_safe _ h
  · trivial

@[simp] theorem Machine.slotSpxStat_safe (p : PReg) (n : HReg) (d : SReg) : (slotSpxStat p n d).Safe := by
  refine engSlot_safe _ fun c s h0 h => SlotR.ite_safe trivial (SlotR.ite_safe (okR_mapTile_safe _ h) ?_)
  refine beatPrep_safe _ h0 h fun u hu => waitData_safe _ _ h0 ?_
  split
  · exact okR_mapTile_safe _ (by simp [hu])
  · exact okR_mapTile_safe _ (by simp [hu])

@[simp] theorem Machine.slotProbe_safe (p : PReg) (d a : SReg) : (slotProbe p d a).Safe :=
  engSlot_safe _ fun _ _ h0 h => waitData_safe _ _ h0 (okR_mapTile_safe _ h)

@[simp] theorem Machine.slotLeaseq_safe (p : PReg) (d a : SReg) : (slotLeaseq p d a).Safe :=
  engSlot_safe _ fun _ _ _ h => okR_mapTile_safe _ h

@[simp] theorem Machine.slotMbxs_safe (n : Fin 16) (a : SReg) : (slotMbxs n a).Safe := by
  refine engSlotR_safe _ fun c s h0 h => ?_
  split
  · trivial
  · exact SlotR.ite_safe h0 (okR_mapTile_safe _ (by simp [h]))

@[simp] theorem Machine.slotMbxr_safe (d : SReg) : (slotMbxr d).Safe := by
  refine engSlotR_safe _ fun c s h0 h => ?_
  split
  · exact h0
  · exact okR_mapTile_safe _ h

@[simp] theorem Machine.slotMbxrT_safe (p : PReg) (d : SReg) : (slotMbxrT p d).Safe := by
  refine engSlotR_safe _ fun c s h0 h => ?_
  split
  · exact okR_mapTile_safe _ h
  · exact okR_mapTile_safe _ h

@[simp] theorem Machine.State.mapLs_mem (s : State) (g : LsAgent) (f : LsCore → LsCore) : (s.mapLs g f).mem = s.mem :=
  rfl

/-- The states in which an instruction of a loader or storer core goes on, or stays. -/
def Machine.LsR.Safe : LsR → Prop
  | .ok s _ | .stay s => s.mem.wf = true
  | .trap _ => True

/-- Either of two outcomes of an instruction of a loader or storer core. -/
theorem Machine.LsR.ite_safe {c : Prop} [Decidable c] {a b : LsR} (ha : a.Safe) (hb : b.Safe) :
    (if c then a else b).Safe := by
  split
  · exact ha
  · exact hb

@[simp] theorem Machine.lsTrap_safe (c : Cause) : (lsTrap c).Safe := trivial

/-- Going on in a state whose memory is canonical, but for the core. -/
theorem Machine.LsR.mapLs_safe {s : State} (g : LsAgent) (f : LsCore → LsCore) (j : Option RvWord) (h : s.mem.wf = true) :
    (LsR.ok (s.mapLs g f) j).Safe := h

theorem Machine.lsEnd_wf (g : LsAgent) (len : Nat) {s : State} {r : LsR} (h : s.mem.wf = true) (hr : r.Safe) :
    (lsEnd g len s r).mem.wf = true := by
  cases r with
  | ok u jump => exact hr
  | stay u => exact hr
  | trap i => exact h

@[simp] theorem Machine.State.lsStore_wf (s : State) (a : Nat) (bs : List Byte) (h : s.mem.wf = true) :
    (s.lsStore a bs).mem.wf = true := by
  simp [State.lsStore, h]

@[simp] theorem Machine.lsLoad_safe (g : LsAgent) {s : State} (n : Nat) (sg : Bool) (rd : XReg) (a : Nat)
    (h : s.mem.wf = true) :
    (lsLoad g s n sg rd a).Safe := by
  have hp := agentPrep_safe (lsOwner g) false [(a, a + n)] h h
  unfold lsLoad
  generalize agentPrep (lsOwner g) s s false [(a, a + n)] = p at hp ⊢
  split
  · trivial
  · cases p with
    | trap i => trivial
    | stall u => exact hp
    | ok u => exact LsR.mapLs_safe g _ none (State.wf_of_mem hp (State.touch_mem u _ _))

@[simp] theorem Machine.lsWrite_safe (g : LsAgent) {s : State} (n a v : Nat) (h : s.mem.wf = true) :
    (lsWrite g s n a v).Safe := by
  have hp := agentPrep_safe (lsOwner g) true [(a, a + n)] h h
  unfold lsWrite
  generalize agentPrep (lsOwner g) s s true [(a, a + n)] = p at hp ⊢
  split
  · trivial
  · cases p with
    | trap i => trivial
    | stall u => exact hp
    | ok u => exact State.lsStore_wf _ _ _ (State.wf_of_mem hp (State.touch_mem u _ _))

theorem Machine.lsRing_safe (g : LsAgent) (s : State) (rs : XReg) {k : Fin 8 → LsR} (hk : ∀ n, (k n).Safe) :
    (lsRing g s rs k).Safe := by
  unfold lsRing
  split
  · trivial
  · exact hk _

theorem Machine.lsGet_safe (g : LsAgent) {s : State} (rd rs : XReg) (f : Tile → Owner → Fin 8 → RingR)
    (h : s.mem.wf = true) :
    (lsGet g s rd rs f).Safe := by
  refine lsRing_safe g s rs fun n => ?_
  split
  · exact LsR.mapLs_safe g _ none h
  · exact h
  · exact h

@[simp] theorem Machine.lsRacq_safe (g : LsAgent) (rd rs : XReg) {s : State} (h : s.mem.wf = true) :
    (lsRacq g rd rs s).Safe :=
  lsGet_safe g rd rs _ h

@[simp] theorem Machine.lsRtake_safe (g : LsAgent) (rd rs : XReg) {s : State} (h : s.mem.wf = true) :
    (lsRtake g rd rs s).Safe :=
  lsGet_safe g rd rs _ h

@[simp] theorem Machine.lsRpub_safe (g : LsAgent) (rs1 rs2 : XReg) {s : State} (h : s.mem.wf = true) :
    (lsRpub g rs1 rs2 s).Safe := by
  refine lsRing_safe g s rs1 fun n => ?_
  split
  · trivial
  · exact LsR.ite_safe h trivial

@[simp] theorem Machine.lsRfree_safe (g : LsAgent) (rs1 rs2 : XReg) {s : State} (h : s.mem.wf = true) :
    (lsRfree g rs1 rs2 s).Safe := by
  refine lsRing_safe g s rs1 fun n => ?_
  split
  · trivial
  · exact LsR.ite_safe trivial (LsR.ite_safe h h)

@[simp] theorem Machine.lsRq_safe (g : LsAgent) (rd rs1 : XReg) {s : State} (h : s.mem.wf = true) : (lsRq g rd rs1 s).Safe :=
  lsRing_safe g s rs1 fun _ => LsR.mapLs_safe g _ none h

@[simp] theorem Machine.lsCpset_safe (g : LsAgent) (rs1 : XReg) (k : Fin 32) (ch : ChNo) {s : State} (h : s.mem.wf = true) :
    (lsCpset g rs1 k ch s).Safe := LsR.ite_safe trivial h

@[simp] theorem Machine.lsCpgo_safe (g : LsAgent) (rs1 : XReg) {s : State} (h : s.mem.wf = true) :
    (lsCpgo g rs1 s).Safe := by
  simp only [lsCpgo]
  split
  · trivial
  · next hx => exact LsR.ite_safe h (State.enqueueCopy_wf _ _ _ (State.wf_of_mem h (copyChecks_mem hx)))

theorem Machine.lsCpdrain_safe (g : LsAgent) (rs1 : XReg) {s : State} (h : s.mem.wf = true) :
    (lsCpdrain g rs1 s).1.Safe ∧ (lsCpdrain g rs1 s).2.mem.wf = true := by
  have hd := State.drain_safe s (lsAgentOf g) (lsChan (s.xreg g rs1)) h
  unfold lsCpdrain
  generalize s.drain (lsAgentOf g) (lsChan (s.xreg g rs1)) = r at hd ⊢
  cases r with
  | bad i u => exact ⟨trivial, hd⟩
  | wait => exact ⟨h, h⟩
  | done u => exact ⟨hd, h⟩

@[simp] theorem Machine.lsMbxs_safe (g : LsAgent) (rs1 rs2 : XReg) {s : State} (h : s.mem.wf = true) :
    (lsMbxs g rs1 rs2 s).Safe := by
  unfold lsMbxs
  split
  · trivial
  · exact LsR.ite_safe h h

@[simp] theorem Machine.lsMbxr_safe (g : LsAgent) (rd : XReg) {s : State} (h : s.mem.wf = true) : (lsMbxr g rd s).Safe := by
  unfold lsMbxr
  split
  · exact h
  · exact LsR.mapLs_safe g _ none h

@[simp] theorem Machine.lsMbxt_safe (g : LsAgent) (rd : XReg) {s : State} (h : s.mem.wf = true) : (lsMbxt g rd s).Safe :=
  LsR.mapLs_safe g _ none h

theorem Machine.State.vlEnd_wf {s : State} {f : LsAgent → State → LsR} (h : s.mem.wf = true) (hf : ∀ g, (f g s).Safe) :
    (s.vlEnd f).mem.wf = true := lsEnd_wf _ _ h (hf _)

@[simp] theorem Machine.lsVl_safe (g : LsAgent) (i : Instr) {s : State} (h : s.mem.wf = true) : (lsVl g i s).Safe := by
  unfold lsVl
  split
  · exact lsRacq_safe g _ _ h
  · exact lsRtake_safe g _ _ h
  · exact lsRpub_safe g _ _ h
  · exact lsRfree_safe g _ _ h
  · exact lsRq_safe g _ _ h
  · exact lsCpset_safe g _ _ _ h
  · exact lsCpgo_safe g _ h
  · exact (lsCpdrain_safe g _ h).1
  · exact lsMbxs_safe g _ _ h
  · exact lsMbxr_safe g _ h
  · exact lsMbxt_safe g _ h
  · trivial

@[simp] theorem Machine.lsRun_safe (g : LsAgent) (len : Nat) (o : RvOp) {s : State} (h : s.mem.wf = true) :
    (lsRun g len o s).Safe := by
  cases o with
  | load n sg rd rs off => exact lsLoad_safe g _ _ _ _ h
  | store n rs src off => exact lsWrite_safe g _ _ _ h
  | vl i => exact lsVl_safe g i h
  | branch k a b off => exact h
  | lui rd imm => exact h
  | auipc rd imm => exact h
  | jal rd off => exact h
  | jalr rd rs off => exact h
  | aluI o rd rs imm => exact h
  | alu o rd a b => exact h

@[simp] theorem Machine.lsFailed_wf (g : LsAgent) (o : RvOp) {s : State} (h : s.mem.wf = true) :
    (lsFailed g o s).mem.wf = true := by
  unfold lsFailed
  split
  · exact (lsCpdrain_safe g _ h).2
  · exact h

@[simp] theorem Machine.State.lsInstr_wf (s : State) (g : LsAgent) (h : s.mem.wf = true) : (s.lsInstr g).mem.wf = true := by
  unfold State.lsInstr
  split
  · exact h
  split
  · exact h
  · split
    · exact lsEnd_wf g _ h trivial
    · exact lsEnd_wf g _ h trivial
    · exact lsEnd_wf g _ (lsFailed_wf g _ h) (lsRun_safe g _ _ h)

end Sys2Proof
end

