-- ==== Sys2Proof/Proofs/KeepsMemoryTraffic.lean ====
section
/-! SUPPORT. Context images and the traffic of the engines keep the canonical form of memory. -/

namespace Sys2Proof

open Machine

/-- The next state, where there is one, is in canonical form. -/
def Machine.NextSafe (o : Host.Outcome State Fault Refusal) : Prop := ∀ t, o = .next t → t.mem.wf = true

theorem Machine.NextSafe.next {s : State} (h : s.mem.wf = true) : NextSafe (.next s) :=
  fun _ ht => Host.Outcome.next.inj ht ▸ h

/-- Either of two outcomes of a step. -/
theorem Machine.NextSafe.ite {c : Prop} [Decidable c] {a b : Host.Outcome State Fault Refusal} (ha : NextSafe a)
    (hb : NextSafe b) :
    NextSafe (if c then a else b) := by
  split
  · exact ha
  · exact hb

theorem Machine.execLoaderStorerFault_safe (g : LsAgent) {s : State} (h : s.mem.wf = true) :
    NextSafe (execLoaderStorerFault g s) := by
  unfold execLoaderStorerFault
  split
  · exact .next h
  · exact .ite (.next h) (.ite (.next (State.raise_wf _ _ _ h)) (.next (State.raise_wf _ _ _ h)))

@[simp] theorem Machine.State.arrayKey_mem (s : State) (m : Mat) : (s.arrayKey m).2.mem = s.mem := by
  simp only [State.arrayKey]
  split <;> rfl

@[simp] theorem Machine.State.image_mem (s : State) (rs : List (Nat × Nat)) : (s.image rs).2.mem = s.mem :=
  State.arrayKey_mem s s.tile.mat

@[simp] theorem Machine.State.reload_mem (s : State) (l : List Byte) : (s.reload l).mem = s.mem := by
  unfold State.reload
  refine (State.foldl_mem (fun u p => ?_) _ _).trans (State.mapTile_mem s _)
  exact State.mapTile_mem u _

@[simp] theorem Machine.State.reloadSp_wf (s : State) (n : Nat) (l : List Byte) (h : s.mem.wf = true) :
    (s.reloadSp n l).mem.wf = true := by
  induction n generalizing s l with
  | zero => exact h
  | succ n ih =>
    unfold State.reloadSp
    split
    · exact h
    · exact ih _ _ (State.spRaw_wf s _ _ h)

@[simp] theorem Machine.State.reloadAll_wf (s : State) (l : List Byte) (h : s.mem.wf = true) :
    (s.reloadAll l).mem.wf = true := by
  simp [State.reloadAll, h]

@[simp] theorem Machine.State.putPages_wf (s : State) (ps : List Page) (va : Nat) (bs : List Byte) (h : s.mem.wf = true) :
    (s.putPages ps va bs).mem.wf = true :=
  Memory.foldl_wf (fun _ _ hm => Memory.wf_set _ _ hm) _ h

@[simp] theorem Machine.State.storePages_wf (s : State) (ps : List Page) (va : Nat) (bs : List Byte) (h : s.mem.wf = true) :
    (s.storePages ps va bs).mem.wf = true :=
  State.foldl_wf (fun u _ hu => State.storeAt_wf u _ _ hu) _ h

theorem Machine.ctxSlot_safe (a b : SReg) {run : Ctx → State → Nat → Nat → SlotR}
    (hr : ∀ c s x n, c.s0.mem.wf = true → s.mem.wf = true → (run c s x n).Safe) : (ctxSlot a b run).Safe :=
  fun c s h0 h => SlotR.ite_safe trivial (hr c s _ _ h0 h)

@[simp] theorem Machine.slotCtxs_safe (d a b : SReg) : (slotCtxs d a b).Safe := by
  refine ctxSlot_safe a b fun c s x n h0 h => SlotR.ite_safe h0 ?_
  split
  · trivial
  · have hi := State.image_mem s []
    generalize s.image [] = p at hi ⊢
    obtain ⟨bs, v⟩ := p
    have hv : v.mem.wf = true := State.wf_of_mem h hi
    refine SlotR.ite_safe trivial ?_
    split
    · trivial
    · next hp =>
      exact SlotR.ite_safe trivial (okR_mapTile_safe _ (State.storePages_wf _ _ _ _ (State.wf_of_mem hv (probeBox_mem hp))))

theorem Machine.State.loadedBy_safe (s : State) {v : State} (h : v.mem.wf = true) : (s.loadedBy v).Safe := h

@[simp] theorem Machine.slotCtxl_safe (d a b : SReg) : (slotCtxl d a b).Safe := by
  refine ctxSlot_safe a b fun c s x n h0 h => SlotR.ite_safe trivial ?_
  split
  · trivial
  next u ps hp =>
  have hu : u.mem.wf = true := State.wf_of_mem h (probeBox_mem hp)
  dsimp only
  generalize imageLen (u.getPages ps x 64) = len
  split
  · trivial
  split
  · trivial
  next v qs hq =>
  have hv : v.mem.wf = true := State.wf_of_mem hu (probeBox_mem hq)
  split
  · trivial
  · trivial
  · exact SlotR.ite_safe trivial (SlotR.ite_safe h0 (State.loadedBy_safe _ (State.reloadAll_wf v _ hv)))

@[simp] theorem Machine.State.atTile_mem (s : State) (i : TileId) (f : Tile → Tile) : (s.atTile i f).mem = s.mem := by
  simp [State.atTile]

theorem Machine.Prep.back_safe {r p : Prep} (u : State) (i : TileId) (hr : r.Safe) (hp : r.back u i = some p) : p.Safe := by
  cases r with
  | ok v =>
    obtain rfl := Option.some.inj hp
    exact State.wf_of_mem hr (State.focus_mem v i)
  | trap e =>
    obtain rfl := Option.some.inj hp
    trivial
  | stall v =>
    simp only [Prep.back] at hp
    split at hp
    · obtain rfl := Option.some.inj hp
      exact State.wf_of_mem hr (State.focus_mem v i)
    · nomatch hp

theorem Machine.State.jobPrep_safe {s : State} {i : TileId} {job a n : Nat} {shadow : List Host.Cell} {p : Prep}
    (h : s.mem.wf = true)
    (hp : s.jobPrep i job a n shadow = some p) : p.Safe := by
  simp only [State.jobPrep] at hp
  split at hp
  · nomatch hp
  · exact Prep.back_safe _ _ (State.sourcePrep_safe _ _ _ _ (State.wf_of_mem h (State.focus_mem s i))) hp

theorem Machine.State.putPrep_safe {s : State} {m : PutMsg} {p : Prep} (h : s.mem.wf = true)
    (hp : s.putPrep m = some p) : p.Safe := by
  unfold State.putPrep at hp
  split at hp
  · obtain rfl := Option.some.inj hp
    exact h
  · exact State.jobPrep_safe h hp

/-- The state that an attempt to deliver leaves is in canonical form. -/
def Machine.Delivery.Safe : Delivery → Prop
  | .done s | .failed s _ _ | .refused s | .later s => s.mem.wf = true

/-- Either of two attempts. -/
theorem Machine.Delivery.ite_safe {c : Prop} [Decidable c] {a b : Delivery} (ha : a.Safe) (hb : b.Safe) :
    (if c then a else b).Safe := by
  split
  · exact ha
  · exact hb

theorem Machine.State.putCount_safe {s : State} (m : PutMsg) (h : s.mem.wf = true) : (s.putCount m).Safe := by
  unfold State.putCount
  refine Delivery.ite_safe (Delivery.ite_safe h ?_) ?_
  · split
    · exact h
    · exact h
  · exact Delivery.ite_safe h (Delivery.ite_safe h (Delivery.ite_safe h (Delivery.ite_safe h h)))

theorem Machine.State.putArrive_safe {s : State} (m : PutMsg) (h : s.mem.wf = true) : (s.putArrive m).Safe := by
  unfold State.putArrive
  split
  · exact h
  · next hp => exact State.putPrep_safe h hp
  · exact h
  · next u hp =>
    have hu : u.mem.wf = true := State.putPrep_safe h hp
    split
    · exact hu
    · have hv := State.putPages_wf u m.pages m.va (u.putBytes m) hu
      exact Delivery.ite_safe hv (State.putCount_safe m hv)

@[simp] theorem Machine.State.putEnd_mem (s : State) (m : PutMsg) (c : Option Cause) (v : optParam Word 0) :
    (s.putEnd m c v).mem = s.mem := by
  simp [State.putEnd]

@[simp] theorem Machine.State.refusePut_mem (s : State) (m : PutMsg) : (s.refusePut m).mem = s.mem := by
  simp [State.refusePut]

@[simp] theorem Machine.State.deliverPut_wf (s : State) (m : PutMsg) (h : s.mem.wf = true) :
    (s.deliverPut m).mem.wf = true := by
  have ha := State.putArrive_safe m h
  unfold State.deliverPut
  generalize s.putArrive m = r at ha ⊢
  split
  · simp [h]
  · cases r with
    | done u => simp [show u.mem.wf = true from ha]
    | failed u c v => simp [show u.mem.wf = true from ha]
    | refused u => simp [show u.mem.wf = true from ha]
    | later u => exact ha

theorem Machine.execPutcArrive_safe {s : State} (h : s.mem.wf = true) : NextSafe (execPutcArrive s) := by
  unfold execPutcArrive
  split
  · exact .next h
  · exact .next (State.deliverPut_wf s _ h)

@[simp] theorem Machine.State.atRecv_mem (s : State) (r : RecvAt) (f : Tile → Tile) : (s.atRecv r f).mem = s.mem := by
  simp only [State.atRecv]
  repeat' split
  all_goals simp

theorem Machine.State.rowArrive_safe {s : State} (m : RowMsg) (h : s.mem.wf = true) : (s.rowArrive m).Safe := by
  unfold State.rowArrive
  refine Delivery.ite_safe h ?_
  split
  · exact h
  · exact Delivery.ite_safe h (State.wf_of_mem h (State.atRecv_mem s _ _))

@[simp] theorem Machine.State.rowEnd_mem (s : State) (m : RowMsg) (c : Option Cause) : (s.rowEnd m c).mem = s.mem := by
  simp [State.rowEnd]

@[simp] theorem Machine.State.refuseRow_mem (s : State) (m : RowMsg) : (s.refuseRow m).mem = s.mem := by
  simp [State.refuseRow]

@[simp] theorem Machine.State.deliverRow_wf (s : State) (m : RowMsg) (h : s.mem.wf = true) :
    (s.deliverRow m).mem.wf = true := by
  have ha := State.rowArrive_safe m h
  unfold State.deliverRow
  generalize s.rowArrive m = r at ha ⊢
  split
  · simp [h]
  · cases r with
    | done u => simp [show u.mem.wf = true from ha]
    | failed u c v => simp [show u.mem.wf = true from ha]
    | refused u => simp [show u.mem.wf = true from ha]
    | later u => exact ha

theorem Machine.execCircuitRowArrive_safe {s : State} (h : s.mem.wf = true) : NextSafe (execCircuitRowArrive s) := by
  unfold execCircuitRowArrive
  split
  · exact .next h
  · exact .next (State.deliverRow_wf s _ h)

theorem Machine.State.memberPrep_safe {s : State} {m : Member} {p : Prep} (h : s.mem.wf = true)
    (hp : s.memberPrep m = some p) :
    p.Safe := by
  unfold State.memberPrep at hp
  split at hp
  · obtain rfl := Option.some.inj hp
    exact h
  · exact State.jobPrep_safe h hp

@[simp] theorem Machine.State.landBytes_wf (s : State) (a : Nat) (bs : List Byte) (h : s.mem.wf = true) :
    (s.landBytes a bs).mem.wf = true := by
  unfold State.landBytes
  split
  · exact Memory.wf_put _ _ h
  · exact State.spStore_wf s a bs h

@[simp] theorem Machine.State.memberDone_mem (s : State) (m : Member) : (s.memberDone m).mem = s.mem := by
  simp [State.memberDone]

theorem Machine.State.landPrep_safe {s : State} {chunk : Fin 16} {m : Member} {p : Prep} (h : s.mem.wf = true)
    (hp : s.landPrep chunk m = some p) : p.Safe := by
  simp only [State.landPrep] at hp
  split at hp
  · exact Prep.back_safe _ _ (State.latePrep_safe _ _ _ (State.wf_of_mem h (State.focus_mem s m.tile))) hp
  · obtain rfl := Option.some.inj hp
    exact h

@[simp] theorem Machine.State.countedAt_mem (s : State) (chunk : Fin 16) (m : Member) :
    (s.countedAt chunk m).1.mem = s.mem := by
  simp only [State.countedAt]
  split
  · exact State.memberDone_mem s _
  · rfl

theorem Machine.State.landAt_wf {s : State} (chunk : Fin 16) (bs : List Byte) (m : Member) (h : s.mem.wf = true) :
    (s.landAt chunk bs m).1.mem.wf = true := by
  unfold State.landAt
  split
  · exact h
  split
  · exact h
  · next hp => exact State.landPrep_safe h hp
  · simp [h]
  · next u hp =>
    have hu : u.mem.wf = true := State.landPrep_safe h hp
    rw [State.countedAt_mem, State.countChunk_mem]
    split
    · exact State.onTile_wf m.tile (fun v hv => State.landBytes_wf v _ bs hv) hu
    · exact hu

theorem Machine.State.landAll_wf {s : State} (chunk : Fin 16) (bs : List Byte) (l : List Member) (h : s.mem.wf = true) :
    (s.landAll chunk bs l).1.mem.wf = true := by
  induction l generalizing s with
  | nil => exact h
  | cons m l ih => exact ih (State.landAt_wf chunk bs m h)

/-- The state after a fill that a member's read begins, or as it was. -/
theorem Machine.State.readFills_wf {s u : State} {l : List Member} (h : s.mem.wf = true) (hu : s.readFills l = some u) :
    u.mem.wf = true := by
  simp only [State.readFills] at hu
  split at hu
  · obtain rfl := Option.some.inj hu
    refine State.foldl_wf (fun v m hv => ?_) l h
    split
    · next hp => exact State.memberPrep_safe hv hp
    · exact hv
  · nomatch hu

theorem Machine.State.chunkFills_wf {s u : State} {chunk : Fin 16} {c : Coll} (h : s.mem.wf = true)
    (hu : s.chunkFills chunk c = some u) : u.mem.wf = true := by
  unfold State.chunkFills at hu
  split at hu
  · nomatch hu
  · exact State.readFills_wf h hu

@[simp] theorem Machine.State.landChunk_wf (s : State) (g : Fin 65536) (chunk : Fin 16) (h : s.mem.wf = true) :
    (s.landChunk g chunk).mem.wf = true := by
  unfold State.landChunk
  split
  · exact h
  split
  · exact h
  · exact State.wf_of_mem h (State.foldl_mem State.knock_mem s _)
  split
  · next hu => exact State.chunkFills_wf h hu
  · rw [State.noteFlits_mem]
    exact State.landAll_wf chunk _ _ h

@[simp] theorem Machine.State.abortMember_mem (c : Cause) (v : Word) (s : State) (m : Member) :
    (State.abortMember c v s m).mem = s.mem := by
  simp [State.abortMember]

@[simp] theorem Machine.State.abortColl_mem (s : State) (p : Coll → Bool) (c : Coll) (cause : Cause) (v : optParam Word 0) :
    (s.abortColl p c cause v).mem = s.mem := by
  simp [State.abortColl]

@[simp] theorem Machine.State.refuseJoin_mem (s : State) (c : Coll) (m : Member) : (s.refuseJoin c m).mem = s.mem := by
  simp [State.refuseJoin]

theorem Machine.execNakResend_safe {s : State} (h : s.mem.wf = true) : NextSafe (execNakResend s) := by
  unfold execNakResend
  split
  · exact .next (State.deliverRow_wf s _ h)
  split
  · exact .next (State.deliverPut_wf s _ h)
  split
  · exact .next (State.wf_of_mem h (State.refuseJoin_mem s _ _))
  · exact .next h

@[simp] theorem Machine.State.collAbort_mem (s : State) (g : Fin 65536) (unreachable : Bool) :
    (s.collAbort g unreachable).mem = s.mem := by
  simp only [State.collAbort]
  repeat' split
  all_goals simp

@[simp] theorem Machine.State.linkOff_mem (s : State) (l : LinkNo) (dead : Bool) : (s.linkOff l dead).mem = s.mem := by
  simp [State.linkOff]

end Sys2Proof
end

