-- ==== Sys2Proof/Proofs/KeepsMemoryTeams.lean ====
section
/-! SUPPORT. Tasks and teams keep the canonical form of memory. -/

namespace Sys2Proof

open Machine

@[simp] theorem Machine.State.squashTeam_wf (s : State) (id : Fin 65536) (c : Cause) (h : s.mem.wf = true) :
    (s.squashTeam id c).mem.wf = true :=
  State.foldl_wf (fun u t hu => State.squash_wf u t.id hu) _ h

@[simp] theorem Machine.State.stopTiles_mem (s : State) (id : Fin 65536) (c : Cause) (me : Bool) :
    (s.stopTiles id c me).mem = s.mem :=
  rfl

@[simp] theorem Machine.State.knockFor_mem (s : State) (id : Fin 65536) (c : Cause) : (s.knockFor id c).mem = s.mem := by
  simp [State.knockFor]

@[simp] theorem Machine.State.askLeave_mem (s : State) (k : Team) (c : Cause) (tr : Option Trigger) (me : Bool) :
    (s.askLeave k c tr me).mem = s.mem := by
  simp [State.askLeave]

@[simp] theorem Machine.State.stopLate_mem (s : State) (c : ClusterNo) : (s.stopLate c).mem = s.mem :=
  rfl

@[simp] theorem Machine.State.unstop_mem (s : State) (id : Fin 65536) : (s.unstop id).mem = s.mem :=
  rfl

@[simp] theorem Machine.State.writeHeader_wf (s : State) (k : Team) (h : s.mem.wf = true) :
    (s.writeHeader k).mem.wf = true := by
  have hm : (s.writeHeader k).mem = s.mem.put k.headerAt k.header := by simp only [State.writeHeader]
  rw [hm]
  exact Memory.wf_put k.headerAt k.header h

theorem Machine.State.putImage_wf {s u : State} {k : Team} {l a : Nat} {rs : List (Nat × Nat)} (h : s.mem.wf = true)
    (hu : s.putImage k l rs = .ok (a, u)) : u.mem.wf = true := by
  have hi := State.image_mem s rs
  unfold State.putImage at hu
  generalize s.image rs = p at hi hu
  obtain ⟨bs, v⟩ := p
  split at hu
  · nomatch hu
  · dsimp only at hu hi
    split at hu
    · nomatch hu
    · obtain ⟨-, rfl⟩ := Prod.mk.inj (Except.ok.inj hu)
      exact Memory.wf_put _ _ (State.wf_of_mem h hi)

@[simp] theorem Machine.State.leaveAll_mem (s : State) (i : TileId) : (s.leaveAll i).mem = s.mem :=
  rfl

theorem Machine.State.saveTile_wf {id : Fin 65536} {s u : State} {i : TileId} (h : s.mem.wf = true)
    (hu : State.saveTile id s i = .ok u) : u.mem.wf = true := by
  have hf : ((s.focus i).mapTile Tile.parked).mem.wf = true := State.wf_of_mem h (State.focus_mem s i)
  unfold State.saveTile at hu
  generalize (s.focus i).mapTile Tile.parked = v at hf hu
  dsimp only at hu
  split at hu
  · split at hu
    · nomatch hu
    · next hp =>
      obtain rfl := Except.ok.inj hu
      simp [State.putImage_wf hf hp]
  · obtain rfl := Except.ok.inj hu
    exact hf

@[simp] theorem Machine.State.clearSp_wf (s : State) (h : s.mem.wf = true) : s.clearSp.mem.wf = true := Memory.wf_clear _ _ h

@[simp] theorem Machine.State.restoreOwn_wf (s : State) (h : s.mem.wf = true) : s.restoreOwn.mem.wf = true := by
  unfold State.restoreOwn
  split
  · exact h
  · exact Memory.foldl_wf (fun _ _ hm => Memory.wf_set _ _ hm) _ (State.clearSp_wf s h)

theorem Machine.State.saveAway_wf {s u : State} {i : TileId} (h : s.mem.wf = true) (hu : s.saveAway i = .ok u) :
    u.mem.wf = true := by
  have hf : ((s.focus i).mapTile Tile.parked).mem.wf = true := State.wf_of_mem h (State.focus_mem s i)
  unfold State.saveAway at hu
  generalize (s.focus i).mapTile Tile.parked = v at hf hu
  dsimp only at hu
  split at hu
  · split at hu
    · nomatch hu
    · next hp =>
      obtain rfl := Except.ok.inj hu
      exact State.restoreOwn_wf _ (by simp [State.putImage_wf hf hp])
  · obtain rfl := Except.ok.inj hu
    exact hf

@[simp] theorem Machine.State.arriveFor_mem (s : State) (part : PartNo) (t : Tile) : (s.arriveFor part t).mem = s.mem := by
  simp [State.arriveFor]

@[simp] theorem Machine.State.noteEnd_mem (s : State) (k : Team) (code : Nat) : (s.noteEnd k code).mem = s.mem := by
  unfold State.noteEnd
  split <;> simp

@[simp] theorem Machine.State.endTeam_wf (s : State) (k : Team) (code : Nat) (h : s.mem.wf = true) :
    (s.endTeam k code).mem.wf = true := by
  simp [State.endTeam, h]

@[simp] theorem Machine.State.checkTeam_wf (s : State) (id : Fin 65536) (h : s.mem.wf = true) :
    (s.checkTeam id).mem.wf = true := by
  unfold State.checkTeam
  split <;> simp [h]

@[simp] theorem Machine.State.endTask_wf (s : State) (h : s.mem.wf = true) : (s.endTask).mem.wf = true := by
  simp only [State.endTask]
  repeat' split
  all_goals simp [h]

@[simp] theorem Machine.State.unretire_wf (s : State) (pc : Nat) (i : TrapInfo) (h : s.mem.wf = true) :
    (s.unretire pc i).mem.wf = true := by
  simp [State.unretire, h]

@[simp] theorem Machine.State.finishRetire_wf (s : State) (pc : Nat) (h : s.mem.wf = true) :
    (s.finishRetire pc).mem.wf = true := by
  have hw := State.writeBacks_safe s.tile.allLines h
  simp only [State.finishRetire]
  generalize s.writeBacks s.tile.allLines = r at hw ⊢
  split
  · exact State.unretire_wf _ _ _ h
  · cases r with
    | error p => exact State.unretire_wf p.1 _ _ hw
    | ok u =>
      have hu : u.mem.wf = true := hw
      have hb := boundary_safe (c := ⟨u, 0, pc⟩) (s := u) allMask true hu hu
      dsimp only
      generalize boundary ⟨u, 0, pc⟩ u allMask true = q at hb ⊢
      cases q with
      | ok v => exact State.endTask_wf v hb
      | stall => simp [h]
      | fail v i => exact State.unretire_wf v _ _ hb

@[simp] theorem Machine.State.putSpaNum_wf (s : State) (part : PartNo) (a v n : Nat) (h : s.mem.wf = true) :
    (s.putSpaNum part a v n).mem.wf = true := by
  simp [State.putSpaNum, h]

@[simp] theorem Machine.State.ringRecord_wf (s : State) (part : PartNo) (base log : Nat) (head tail drops : Nat)
    (words : List Nat) (h : s.mem.wf = true) :
    (s.ringRecord part base log head tail drops words).mem.wf = true := by
  simp [State.ringRecord, h]

@[simp] theorem Machine.State.recordFault_wf (s : State) (k : Team) (i : TrapInfo) (pc outcome : Nat)
    (c : ClusterNo) (l : Nat) (h : s.mem.wf = true) :
    (s.recordFault k i pc outcome c l).mem.wf = true := by
  simp [State.recordFault, h]

@[simp] theorem Machine.State.failTeam_wf (s : State) (k : Team) (l : Nat) (h : s.mem.wf = true) :
    (s.failTeam k l).mem.wf = true := by
  refine State.checkTeam_wf _ _ ?_
  rw [State.setTeam_mem, State.mapTiles_mem]
  exact State.recordFault_wf s _ _ _ _ _ _ h

/-- A chain of steps each of which, where it ends, keeps the form. -/
theorem Machine.State.foldlM_wf {ε α : Type} {f : State → α → Except ε State}
    (hf : ∀ {s x u}, s.mem.wf = true → f s x = .ok u → u.mem.wf = true) (l : List α) {s u : State} (h : s.mem.wf = true)
    (hu : l.foldlM f s = .ok u) : u.mem.wf = true := by
  induction l generalizing s with
  | nil => exact Except.ok.inj hu ▸ h
  | cons x l ih =>
    rw [List.foldlM_cons] at hu
    cases hx : f s x with
    | error e => rw [hx] at hu; nomatch hu
    | ok v => rw [hx] at hu; exact ih (hf h hx) hu

theorem Machine.State.saveTeam_wf {s u : State} {k : Team} {c : Cause} (h : s.mem.wf = true) (hu : s.saveTeam k c = .ok u) :
    u.mem.wf = true := by
  unfold State.saveTeam at hu
  split at hu
  · nomatch hu
  next s0 h0 =>
  have hs0 := State.foldlM_wf State.saveAway_wf _ h h0
  dsimp only at hu
  split at hu
  · split at hu
    · nomatch hu
    · next v hv =>
      have hvm : v.mem.wf = true := State.foldlM_wf State.saveTile_wf _ (by simpa using hs0) hv
      split at hu
      · nomatch hu
      · obtain rfl := Except.ok.inj hu
        rw [State.focus_mem]
        exact State.writeHeader_wf _ _ (by simp [hvm])
  · nomatch hu

@[simp] theorem Machine.State.tryLeave_wf (s : State) (k : Team) (h : s.mem.wf = true) : (s.tryLeave k).mem.wf = true := by
  unfold State.tryLeave
  split
  · exact h
  next c hc =>
  have hv : (if s.tiles.any fun t => t.stopsFor k.id c && t.grace then s else s.squashTeam k.id c).mem.wf = true := by
    split
    · exact h
    · exact State.squashTeam_wf s _ _ h
  generalize (if s.tiles.any fun t => t.stopsFor k.id c && t.grace then s else s.squashTeam k.id c) = v at hv
  dsimp only
  split
  · exact hv
  split
  · next hu =>
    have hum := State.saveTeam_wf hv hu
    split
    · simp [hum]
    · exact hum
  · simp [hv]
  · split
    · exact State.failTeam_wf v _ _ hv
    · split
      · exact hv
      · exact State.failTeam_wf v _ _ hv

@[simp] theorem Machine.State.goLeave_wf (s : State) (h : s.mem.wf = true) : (s.goLeave).mem.wf = true := by
  simp only [State.goLeave]
  repeat' split
  all_goals simp [h]

@[simp] theorem Machine.State.writeFault_wf (s : State) (k : Team) (i : TrapInfo) (pc outcome : Nat) (h : s.mem.wf = true) :
    (s.writeFault k i pc outcome).mem.wf = true := by
  simp [State.writeFault, h]

@[simp] theorem Machine.State.arriveEnded_mem (s : State) : (s.arriveEnded).mem = s.mem := by
  simp [State.arriveEnded]

@[simp] theorem Machine.State.looseStores_wf (s : State) (h : s.mem.wf = true) : s.looseStores.mem.wf = true := by
  simp only [State.looseStores]
  split
  · exact State.publishSlice_wf _ h
  · exact h

@[simp] theorem Machine.State.finishFault_wf (s : State) (pc : Nat) (rec : Option TrapInfo) (team : Bool)
    (h : s.mem.wf = true) :
    (s.finishFault pc rec team).mem.wf = true := by
  have hv : (if s.tile.spec.isSome then s.squash s.tile.id else s).looseStores.mem.wf = true := by
    refine State.looseStores_wf _ ?_
    split
    · exact State.squash_wf s _ h
    · exact h
  simp only [State.finishFault]
  generalize (if s.tile.spec.isSome then s.squash s.tile.id else s).looseStores = v at hv ⊢
  split
  · exact State.endTask_wf _ hv
  · refine State.endTask_wf _ ?_
    rw [State.setTeam_mem]
    split
    · simpa using hv
    · exact State.writeFault_wf _ _ _ _ _ (by simpa using hv)

@[simp] theorem Machine.State.goEnding_wf (s : State) (e : Ending) (h : s.mem.wf = true) :
    (s.goEnding e).mem.wf = true := by
  simp only [State.goEnding]
  repeat' split
  all_goals simp [h]

/-- What the waits of a block come to, its boundary included. -/
theorem Machine.blockWaits_safe {s : State} (a : Nat) (k : SemNo) (l : List (SemNo × Nat)) (h : s.mem.wf = true) :
    (takeCounts ⟨s, 0, a⟩ s k l fun u => withBoundary ⟨s, 0, a⟩ u semMask true okR).Safe :=
  takeCounts_safe h h fun _ hu => withBoundary_safe h hu fun _ hv => hv

@[simp] theorem Machine.State.startBlock_wf (s : State) (h : s.mem.wf = true) : s.startBlock.mem.wf = true := by
  simp only [State.startBlock]
  split
  · simp [h]
  split
  · simp [h]
  cases s.blockTarget s.tile.pc with
  | some c => exact State.raise_wf s _ _ h
  | none =>
    cases s.descriptorAt s.tile.pc with
    | none => exact State.raise_wf s _ _ h
    | some d =>
      dsimp only
      split
      · exact State.raise_wf _ _ _ h
      cases d.waits with
      | nil => exact h
      | cons w l =>
        cases s.tile.spec with
        | some p => simp [h]
        | none =>
          have ht := blockWaits_safe s.tile.pc w.1 (w :: l) h
          dsimp only
          generalize takeCounts _ _ _ _ _ = r at ht ⊢
          cases r with
          | ok u fx => exact ht
          | wait u k =>
            dsimp only
            split
            · exact State.raise_wf _ _ _ h
            · exact State.wf_of_mem ht (State.holdWait_mem u k)
          | stall u => exact State.wf_of_mem ht (State.holdIssue_mem u)
          | late u i => exact State.raise_wf u _ _ ht
          | fail u i => exact State.raise_wf u _ _ ht
          | trap i => exact State.raise_wf s _ _ h
          | resolve => simp [h]

theorem Machine.execBlockStart_safe {s : State} (h : s.mem.wf = true) : NextSafe (execBlockStart s) :=
  .ite (.next h) (.next (State.startBlock_wf s h))

@[simp] theorem Machine.State.setWaits_mem (s : State) (w : Vector Word 4) (x : Option (ClusterNo × Nat)) :
    (s.setWaits w x).mem = s.mem := by
  simp [State.setWaits]

@[simp] theorem Machine.slotYield_safe : slotYield.Safe := by
  intro c s h0 h
  simp only [slotYield]
  split
  · exact h
  · split
    · simp [h]
    · exact h

end Sys2Proof
end

