-- ==== Sys2Proof/Proofs/KeepsMemoryBinding.lean ====
section
/-! SUPPORT. Pool tasks, swaps, binds and returns keep the canonical form of memory. -/

namespace Sys2Proof

open Machine

@[simp] theorem Machine.State.droop_mem (s : State) (c : ClusterNo) : (s.droop c).mem = s.mem := by
  simp only [State.droop]
  repeat' split
  all_goals simp

@[simp] theorem Machine.State.saveOwn_wf (s : State) (inPool : Bool) (h : s.mem.wf = true) :
    (s.saveOwn inPool).mem.wf = true := by
  unfold State.saveOwn
  dsimp only
  split
  · exact State.clearSp_wf s h
  · next k hk =>
    have hi := State.image_mem s (s.tile.declared k.content)
    generalize s.image (s.tile.declared k.content) = p at hi ⊢
    obtain ⟨bs, v⟩ := p
    have hv : v.mem.wf = true := State.wf_of_mem h hi
    dsimp only
    split
    · exact hv
    · refine State.clearSp_wf _ ?_
      split
      · exact Memory.wf_put _ _ hv
      · exact hv

@[simp] theorem Machine.State.startPool_wf (s : State) (k : Team) (e : PoolEntry) (stolen : Bool) (h : s.mem.wf = true) :
    (s.startPool k e stolen).mem.wf = true := by
  simp [State.startPool, h]

@[simp] theorem Machine.State.freeImage_mem (s : State) (k : Team) (a : Nat) : (s.freeImage k a).mem = s.mem :=
  rfl

theorem Machine.State.reloadTile_wf {s u : State} {old : Tile} {a : Nat} (h : s.mem.wf = true)
    (hu : s.reloadTile old a = some u) :
    u.mem.wf = true := by
  simp only [State.reloadTile] at hu
  split at hu
  · nomatch hu
  · rw [← Option.some.inj hu]
    simp only [State.mapTile_mem]
    exact State.reloadAll_wf _ _ (State.clearSp_wf _ h)

@[simp] theorem Machine.State.resumeAway_wf (s : State) (k : Team) (h : s.mem.wf = true) :
    (s.resumeAway k).mem.wf = true := by
  simp only [State.resumeAway]
  split
  · exact h
  · next old a l _ =>
    have hv := State.saveOwn_wf (s.setTeam { k with away := l }) ((s.setTeam { k with away := l }).tile.team.any fun x => x.1 != k.id)
      (by simp [h])
    generalize State.saveOwn _ _ = v at hv ⊢
    split
    · exact State.failTeam_wf v _ _ hv
    · next u hu =>
      have hum : (u.freeImage k a).mem.wf = true := State.wf_of_mem (State.reloadTile_wf hv hu) (State.freeImage_mem u k a)
      exact State.wf_of_mem hum (State.mapTile_mem _ _)

theorem Machine.execPoolTaskStart_safe {s : State} (h : s.mem.wf = true) : NextSafe (execPoolTaskStart s) := by
  unfold execPoolTaskStart
  split
  · exact .next (State.resumeAway_wf s _ h)
  · exact .next (State.startPool_wf s _ _ _ h)
  · exact .next h

@[simp] theorem Machine.State.tokenStep_wf (s : State) (id : Fin 65536) (h : s.mem.wf = true) :
    (s.tokenStep id).mem.wf = true := by
  unfold State.tokenStep
  split <;> simp [h]

@[simp] theorem Machine.State.swapWaiter_mem (s : State) : (s.swapWaiter).mem = s.mem := by
  unfold State.swapWaiter
  split <;> simp

@[simp] theorem Machine.State.preempt_mem (s : State) (id : Fin 65536) : (s.preempt id).mem = s.mem := by
  unfold State.preempt
  split <;> simp

@[simp] theorem Machine.State.makeReady_wf (s : State) (id : Fin 65536) (h : s.mem.wf = true) :
    (s.makeReady id).mem.wf = true := by
  unfold State.makeReady
  split
  · exact h
  split
  · exact h
  · exact State.writeHeader_wf _ _ (by simp [h])

@[simp] theorem Machine.State.releaseCourse_mem (s : State) (p : PartNo) : (s.releaseCourse p).mem = s.mem := by
  unfold State.releaseCourse
  split <;> simp

@[simp] theorem Machine.State.answer_mem (s : State) (d : DieNo) (i : Fin 64) (stat : Nat) :
    (s.answer d i stat).mem = s.mem := by
  simp [State.answer]

@[simp] theorem Machine.State.grantSems_mem (s : State) (snap : List Host.Cell) (d : Decl)
    (c : ClusterNo) (id : Fin 65536) :
    (s.grantSems snap d c id).mem = s.mem :=
  rfl

@[simp] theorem Machine.State.loadStore_wf (s : State) (part : PartNo) (storer : Bool) (va : Nat) (h : s.mem.wf = true) :
    (s.loadStore part storer va).mem.wf = true := by
  simp only [State.loadStore]
  split
  · exact h
  · dsimp only
    exact Memory.wf_put _ _ (Memory.wf_clear _ _ h)

@[simp] theorem Machine.State.loadContents_wf (s : State) (part : PartNo) (l : List (Nat × Nat × Nat))
    (h : s.mem.wf = true) :
    (s.loadContents part l).mem.wf = true :=
  State.foldl_wf (fun u _ hu => State.spRaw_wf u _ _ hu) l h

@[simp] theorem Machine.State.bindOne_wf (s : State) (q : QTeam) (d : Decl) (id : Fin 65536) (p : Fin 16 × TileId)
    (h : s.mem.wf = true) : (s.bindOne q d id p).mem.wf = true := by
  have hc : (s.focus p.2).clearSp.mem.wf = true := by simp [h]
  exact State.loadStore_wf _ _ _ _ (State.loadStore_wf _ _ _ _ (State.loadContents_wf _ _ _ hc))

@[simp] theorem Machine.State.bind_wf (s : State) (q : QTeam) (snap : List Host.Cell) (d : Decl) (w : Vector Word 4)
    (die : DieNo)
    (tiles : List (Fin 16 × TileId)) (h : s.mem.wf = true) : (s.bind q snap d w die tiles).mem.wf = true := by
  simp only [State.bind]
  rw [State.focus_mem]
  refine State.foldl_wf (fun u p hu => State.bindOne_wf u _ _ _ p hu) tiles ?_
  simp [h]

theorem Machine.State.askPower_mem {s u : State} {c : ClusterNo} (hu : s.askPower c = some u) : u.mem = s.mem := by
  unfold State.askPower at hu
  split at hu
  · exact Option.some.inj hu ▸ State.knock_mem s c
  · nomatch hu

theorem Machine.State.bindStep_wf {s u : State} {die : DieNo} {i : Fin 64} (h : s.mem.wf = true)
    (hu : s.bindStep die i = some u) :
    u.mem.wf = true := by
  have ha : ∀ n, (s.answer die i n).mem.wf = true := fun n => by simp [h]
  simp only [State.bindStep] at hu
  split at hu
  · nomatch hu
  split at hu
  · exact Option.some.inj hu ▸ ha _
  split at hu
  · exact Option.some.inj hu ▸ ha _
  split at hu
  · exact Option.some.inj hu ▸ ha _
  split at hu
  · exact Option.some.inj hu ▸ ha _
  · exact State.wf_of_mem h (State.askPower_mem hu)
  · nomatch hu
  · rw [← Option.some.inj hu, State.answer_mem]
    exact State.bind_wf s _ _ _ _ _ _ h

theorem Machine.execBindTeam_safe (d : DieNo) (slot : Fin 64) {s : State} (h : s.mem.wf = true) :
    NextSafe (execBindTeam d slot s) := by
  refine .next ?_
  cases hu : s.bindStep d slot with
  | none => exact h
  | some u => exact State.bindStep_wf h hu

theorem Machine.State.returnTile_wf {k : Team} {s : Option State} {u : State} {p : Fin 16 × TileId}
    (h : ∀ v, s = some v → v.mem.wf = true) (hu : State.returnTile k s p = some u) : u.mem.wf = true := by
  obtain ⟨v, hv, hu⟩ := Option.bind_eq_some_iff.mp hu
  have hvm := h v hv
  split at hu
  · exact Option.some.inj hu ▸ hvm
  · obtain ⟨w, hw, rfl⟩ := Option.map_eq_some_iff.mp hu
    have hwm := State.reloadTile_wf (by simp [hvm]) hw
    simp [hwm]

theorem Machine.State.returnTiles_wf {k : Team} {s : Option State} {u : State} (l : List (Fin 16 × TileId))
    (h : ∀ v, s = some v → v.mem.wf = true) (hu : l.foldl (State.returnTile k) s = some u) : u.mem.wf = true := by
  induction l generalizing s with
  | nil => exact h u hu
  | cons p l ih => exact ih (fun v hv => State.returnTile_wf h hv) hu

@[simp] theorem Machine.State.failReturn_wf (s : State) (k : Team) (h : s.mem.wf = true) :
    (s.failReturn k).mem.wf = true := by
  refine State.endTeam_wf _ _ _ ?_
  exact State.foldl_wf (fun u t hu => by simp [hu]) _ (State.recordFault_wf s _ _ _ _ _ _ h)

@[simp] theorem Machine.State.returnTeam_wf (s : State) (k : Team) (w : Vector Word 4) (tiles : List (Fin 16 × TileId))
    (h : s.mem.wf = true) : (s.returnTeam k w tiles).mem.wf = true := by
  simp only [State.returnTeam]
  split
  · exact State.failReturn_wf s k h
  · next u hu =>
    have hum : u.mem.wf = true := State.returnTiles_wf tiles (fun v hv => Option.some.inj hv ▸ h) hu
    simp [hum]

theorem Machine.State.returnStep_wf {s u : State} {die : DieNo} {i : Fin 64} (h : s.mem.wf = true)
    (hu : s.returnStep die i = some u) : u.mem.wf = true := by
  have ha : ∀ n, (s.answer die i n).mem.wf = true := fun n => by simp [h]
  simp only [State.returnStep] at hu
  split at hu
  · nomatch hu
  split at hu
  · exact Option.some.inj hu ▸ ha _
  split at hu
  · exact Option.some.inj hu ▸ ha _
  split at hu
  · exact Option.some.inj hu ▸ ha _
  split at hu
  · exact Option.some.inj hu ▸ ha _
  · exact State.wf_of_mem h (State.askPower_mem hu)
  · nomatch hu
  · rw [← Option.some.inj hu, State.answer_mem]
    exact State.returnTeam_wf s _ _ _ h

theorem Machine.execBindReturn_safe (d : DieNo) (slot : Fin 64) {s : State} (h : s.mem.wf = true) :
    NextSafe (execBindReturn d slot s) := by
  refine .next ?_
  cases hu : s.returnStep d slot with
  | none => exact h
  | some u => exact State.returnStep_wf h hu

end Sys2Proof
end

