-- ==== Sys2Proof/Proofs/KeepsMemoryRecords.lean ====
section
/-! SUPPORT. Queues, records and graphs keep the canonical form of memory. -/

namespace Sys2Proof

open Machine

@[simp] theorem Machine.State.nodeWrite_wf (s : State) (part : PartNo) (va v n : Nat) (acc : Access) (h : s.mem.wf = true) :
    (s.nodeWrite part va v n acc).1.mem.wf = true := by
  unfold State.nodeWrite
  split
  · exact h
  · exact Memory.wf_putNum _ _ _ h

@[simp] theorem Machine.State.nodeCopy_wf (part : PartNo) (src dst n : Nat) (s : State) (h : s.mem.wf = true) :
    (State.nodeCopy part src dst n s).1.mem.wf = true := by
  induction n generalizing src dst s with
  | zero => exact h
  | succ n ih =>
    unfold State.nodeCopy
    split
    · exact h
    · next v hv =>
      have hw := State.nodeWrite_wf s part dst v 1 .write h
      generalize s.nodeWrite part dst v 1 .write = p at hw ⊢
      match p, hw with
      | (u, false), hw => exact hw
      | (u, true), hw => exact ih _ _ u hw

@[simp] theorem Machine.State.putSnap_wf (s : State) (part : PartNo) (area : Nat) (l : List (Nat × Nat)) (bs : List Byte)
    (h : s.mem.wf = true) : (s.putSnap part area l bs).mem.wf = true := by
  induction l generalizing s bs with
  | nil => exact h
  | cons r l ih => exact ih _ _ (State.foldl_wf (fun u _ hu => State.nodeWrite_wf u _ _ _ _ _ hu) _ h)

@[simp] theorem Machine.State.setQueue_mem (s : State) (f : FnNo) (q : QueueNo) (x : Queue) :
    (s.setQueue f q x).mem = s.mem :=
  rfl

@[simp] theorem Machine.State.submit_wf (s : State) (f : FnNo) (q : QueueNo) (index : Nat) (h : s.mem.wf = true) :
    (s.submit f q index).mem.wf = true := by
  simp [State.submit, h]

@[simp] theorem Machine.State.doorbell_wf (s : State) (f : FnNo) (q : QueueNo) (tail : Fin 131072) (h : s.mem.wf = true) :
    (s.doorbell f q tail).mem.wf = true := by
  simp only [State.doorbell]
  split
  · exact h
  · rw [State.setQueue_mem]
    exact State.foldl_wf (fun u _ hu => State.submit_wf u _ _ _ hu) _ h

@[simp] theorem Machine.State.dropTask_wf (s : State) (i : TileId) (h : s.mem.wf = true) : (s.dropTask i).mem.wf = true := by
  refine State.endTask_wf _ ?_
  rw [State.mapTile_mem, State.focus_mem]
  dsimp only
  split
  · exact State.squash_wf s i h
  · exact h

@[simp] theorem Machine.State.discardTeam_wf (s : State) (id : Fin 65536) (code : Nat) (h : s.mem.wf = true) :
    (s.discardTeam id code).mem.wf = true := by
  simp only [State.discardTeam]
  split
  · exact h
  · next k hk =>
    rw [State.focus_mem]
    have hv := State.foldl_wf State.dropTask_wf
      (((s.setTeam { k with ended := false, state := .resident, leave := none, pool := [] }).taskTiles id).map Tile.id)
      (s := s.setTeam { k with ended := false, state := .resident, leave := none, pool := [] }) (by simp [h])
    split
    · exact hv
    · exact State.endTeam_wf _ _ _ hv

@[simp] theorem Machine.State.unqueue_mem (s : State) (code : Nat) (q : QTeam) : (s.unqueue code q).mem = s.mem :=
  rfl

@[simp] theorem Machine.State.retireRegion_wf (s : State) (rcb : Nat) (h : s.mem.wf = true) :
    (s.retireRegion rcb).mem.wf = true := by
  refine Memory.wf_putNum _ _ _ ?_
  exact State.foldl_wf (fun u q hu => State.wf_of_mem hu (State.unqueue_mem u 12 q)) _
    (State.foldl_wf (fun u id hu => State.discardTeam_wf u id 12 hu) _ h)

@[simp] theorem Machine.State.enqueueTeam_mem (s : State) (r : Rec) (node : Option (Fin 4096))
    (w : List Nat) (arg : Word) (part : PartNo) :
    (s.enqueueTeam r node w arg part).mem = s.mem :=
  rfl

@[simp] theorem Machine.State.startRec_wf (s : State) (r : Rec) (h : s.mem.wf = true) : (s.startRec r).mem.wf = true := by
  simp only [State.startRec]
  split
  · exact h
  split
  · split
    · simp [h]
    · exact h
  · repeat' split
    all_goals exact h
  · split
    · exact h
    split
    · exact h
    · exact State.retireRegion_wf s _ h
  · exact h

@[simp] theorem Machine.State.recordStart_wf (s : State) (f : FnNo) (q : QueueNo) (h : s.mem.wf = true) :
    (s.recordStart f q).mem.wf = true := by
  unfold State.recordStart
  split <;> simp [h]

@[simp] theorem Machine.State.completeRec_wf (s : State) (r : Rec) (code : Nat) (h : s.mem.wf = true) :
    (s.completeRec r code).mem.wf = true := by
  simp only [State.completeRec]
  repeat' split
  all_goals simp [h]

@[simp] theorem Machine.State.recordComplete_wf (s : State) (id : Nat) (h : s.mem.wf = true) :
    (s.recordComplete id).mem.wf = true := by
  simp only [State.recordComplete]
  repeat' split
  all_goals simp [h]

@[simp] theorem Machine.State.startNode_wf (s : State) (r : Rec) (k : Fin 4096) (h : s.mem.wf = true) :
    (s.startNode r k).mem.wf = true := by
  simp only [State.startNode]
  split
  · split
    · simp [h]
    · exact h
  · exact State.nodeCopy_wf _ _ _ _ s h
  · split
    · exact h
    · exact State.nodeWrite_wf s _ _ _ _ _ h
  · exact h

@[simp] theorem Machine.State.nodeStart_wf (s : State) (id : Nat) (k : Fin 4096) (h : s.mem.wf = true) :
    (s.nodeStart id k).mem.wf = true := by
  unfold State.nodeStart
  split <;> simp [h]

@[simp] theorem Machine.State.nodeComplete_mem (s : State) (id : Nat) (k : Fin 4096) :
    (s.nodeComplete id k).mem = s.mem :=
  rfl

@[simp] theorem Machine.State.condEvaluate_mem (s : State) (id : Nat) (k : Fin 4096) :
    (s.condEvaluate id k).mem = s.mem := by
  simp only [State.condEvaluate]
  repeat' split
  all_goals simp

@[simp] theorem Machine.State.loopEvaluate_wf (s : State) (id : Nat) (k : Fin 4096) (h : s.mem.wf = true) :
    (s.loopEvaluate id k).mem.wf = true := by
  simp only [State.loopEvaluate]
  split
  · exact h
  split
  · exact h
  split
  · exact h
  · repeat' split
    all_goals simp [h]

@[simp] theorem Machine.State.cancelRec_mem (s : State) (r : Rec) : (s.cancelRec r).mem = s.mem := by
  simp only [State.cancelRec]
  split
  · rfl
  · rfl
  · rw [State.mapRec_mem]
    exact State.foldl_mem (fun u q => State.unqueue_mem u 10 q) _ _

@[simp] theorem Machine.State.abortTeam_wf (s : State) (id : Fin 65536) (h : s.mem.wf = true) :
    (s.abortTeam id).mem.wf = true := by
  simp only [State.abortTeam]
  split
  · exact h
  split
  · simp [h]
  split
  · exact State.tryLeave_wf _ _ (by simp [h])
  · simp [h]

@[simp] theorem Machine.State.tearDown_wf (s : State) (f : FnNo) (q : QueueNo) (abort reset : Bool) (h : s.mem.wf = true) :
    (s.tearDown f q abort reset).mem.wf = true := by
  simp only [State.tearDown]
  split
  · exact h
  · have hv := State.wf_of_mem (u := (s.recsOf f q).foldl State.cancelRec
        ({ s with tearing := s.tearing ++ [{ fn := f, q := q, abort := abort, reset := reset }] } : State)) h
      (State.foldl_mem State.cancelRec_mem _ _)
    split
    · exact State.foldl_wf State.abortTeam_wf _ hv
    · exact hv

@[simp] theorem Machine.State.finishTear_wf (s : State) (t : Teardown) (h : s.mem.wf = true) :
    (s.finishTear t).mem.wf = true := by
  simp [State.finishTear, h]

@[simp] theorem Machine.State.tearStep_wf (s : State) (f : FnNo) (q : QueueNo) (abort reset : Bool) (h : s.mem.wf = true) :
    (s.tearStep f q abort reset).mem.wf = true := by
  unfold State.tearStep
  split <;> simp [h]

@[simp] theorem Machine.State.hifsel_mem (s : State) (f : FnNo) (v : Word) : (s.hifsel f v).mem = s.mem := by
  simp [State.hifsel]

end Sys2Proof
end

