-- ==== Sys2Proof/Proofs/KeepsMemoryUpkeep.lean ====
section
/-! SUPPORT. Windows into the machine, Kiln and power keep the canonical form of memory. -/

namespace Sys2Proof

open Machine

@[simp] theorem Machine.State.invalidate_mem (s : State) (p : PartNo) (inv : Fin 4 × BitVec 40 × Bool) :
    (s.invalidate p inv).mem = s.mem := by
  simp [State.invalidate]

@[simp] theorem Machine.State.invDone_mem (s : State) (p : PartNo) : (s.invDone p).mem = s.mem := by
  unfold State.invDone
  split <;> simp

@[simp] theorem Machine.State.migAck_mem (s : State) (p : PartNo) (size : Fin 4) (vpn : BitVec 40) :
    (s.migAck p size vpn).mem = s.mem :=
  rfl

@[simp] theorem Machine.State.haltAnswer_mem (s : State) (d : DieNo) (result : Nat) :
    (s.haltAnswer d result).mem = s.mem :=
  rfl

/-- Either of two states. -/
theorem Machine.State.ite_wf {c : Prop} [Decidable c] {a b : State} (ha : a.mem.wf = true) (hb : b.mem.wf = true) :
    (if c then a else b).mem.wf = true := by
  split
  · exact ha
  · exact hb

@[simp] theorem Machine.State.fresh_mem (s : State) : s.fresh.2.mem = s.mem := rfl

theorem Machine.State.haltWrite_mem (s : State) (d : DieNo) (id : Fin 65536) {act : State → State}
    (ha : ∀ u, (act u).mem = u.mem) : (s.haltWrite d id act).mem = s.mem := by
  simp only [State.haltWrite]
  split
  · rfl
  · exact ha _

@[simp] theorem Machine.State.haltRequest_mem (s : State) (d : DieNo) (id : Fin 65536) :
    (s.haltRequest d id).mem = s.mem := by
  refine State.haltWrite_mem s d id fun u => ?_
  repeat' split
  all_goals simp

@[simp] theorem Machine.State.resumeRequest_mem (s : State) (d : DieNo) (id : Fin 65536) :
    (s.resumeRequest d id).mem = s.mem := by
  refine State.haltWrite_mem s d id fun u => ?_
  repeat' split
  all_goals simp

theorem Machine.State.haltStep_mem {s u : State} {d : DieNo} (hu : s.haltStep d = some u) : u.mem = s.mem := by
  simp only [State.haltStep] at hu
  repeat' split at hu
  all_goals simp at hu
  all_goals simp [← hu]

theorem Machine.execHaltComplete_safe (d : DieNo) {s : State} (h : s.mem.wf = true) : NextSafe (execHaltComplete d s) := by
  refine .next ?_
  cases hu : s.haltStep d with
  | none => exact h
  | some u => exact State.wf_of_mem h (State.haltStep_mem hu)

@[simp] theorem Machine.State.pokeImage_mem (s : State) (off : Nat) (v : Word) : (s.pokeImage off v).mem = s.mem := by
  have hi := State.image_mem s []
  unfold State.pokeImage
  generalize s.image [] = p at hi ⊢
  obtain ⟨l, u⟩ := p
  dsimp only
  rw [State.mapTile_mem, State.reload_mem]
  exact hi

@[simp] theorem Machine.State.poke_wf (s : State) (off : Nat) (v : Word) (h : s.mem.wf = true) :
    (s.poke off v).mem.wf = true := by
  simp only [State.poke]
  refine State.ite_wf (State.spPut_wf s _ _ h) (State.ite_wf h (State.ite_wf ?_ (State.ite_wf ?_ h)))
  · exact State.wf_of_mem h (State.mapTile_mem s _)
  · exact State.wf_of_mem h (State.pokeImage_mem s _ _)

@[simp] theorem Machine.State.apertureWrite_wf (s : State) (i : TileId) (off : Nat) (v : Word) (h : s.mem.wf = true) :
    (s.apertureWrite i off v).mem.wf = true := by
  unfold State.apertureWrite
  split
  · exact State.onTile_wf i (fun u hu => State.poke_wf u _ v hu) h
  · exact h

theorem Machine.execApertureWrite_safe (c : ClusterNo) (t : TileNo) (off : Fin 4194304) (v : Word) {s : State}
    (h : s.mem.wf = true) : NextSafe (execApertureWrite c t off v s) :=
  .ite (.next (State.wf_of_mem h (State.knock_mem s c))) (.next (State.apertureWrite_wf s _ _ _ h))

@[simp] theorem Machine.State.partRequest_mem (s : State) (p : PartNo) (clu : BitVec 48) (drain : Bool) :
    (s.partRequest p clu drain).mem = s.mem := by
  simp [State.partRequest]

@[simp] theorem Machine.State.clearCluster_wf (s : State) (c : ClusterNo) (h : s.mem.wf = true) :
    (s.clearCluster c).mem.wf = true := by
  simp only [State.clearCluster]
  exact Memory.wf_clear _ _ (Memory.wf_clear _ _ h)

@[simp] theorem Machine.State.partApply_wf (s : State) (p : PartNo) (h : s.mem.wf = true) :
    (s.partApply p).mem.wf = true := by
  simp only [State.partApply]
  split
  · exact h
  · exact State.foldl_wf State.clearCluster_wf _ h

@[simp] theorem Machine.State.logEvent_mem (s : State) (code : Nat) (c : ClusterNo) : (s.logEvent code c).mem = s.mem :=
  rfl

@[simp] theorem Machine.State.hopTo_mem (s : State) (c : ClusterNo) (f : Nat) : (s.hopTo c f).mem = s.mem := by
  simp only [State.hopTo]
  repeat' split
  all_goals simp

@[simp] theorem Machine.State.abortHop_mem (s : State) (c : ClusterNo) : (s.abortHop c).mem = s.mem := by
  simp only [State.abortHop]
  repeat' split
  all_goals simp

@[simp] theorem Machine.State.retryHop_mem (s : State) (c : ClusterNo) : (s.retryHop c).mem = s.mem := by
  unfold State.retryHop
  split <;> simp

@[simp] theorem Machine.State.canaryWarn_mem (s : State) (c : ClusterNo) : (s.canaryWarn c).mem = s.mem := by
  simp [State.canaryWarn]

@[simp] theorem Machine.State.rateRaise_mem (s : State) (c : ClusterNo) : (s.rateRaise c).mem = s.mem := by
  simp [State.rateRaise]

@[simp] theorem Machine.State.decay_mem (s : State) (c : ClusterNo) : (s.decay c).mem = s.mem := by
  simp [State.decay]

@[simp] theorem Machine.State.calibrate_mem (s : State) (c : ClusterNo) : (s.calibrate c).mem = s.mem := by
  simp only [State.calibrate]
  repeat' split
  all_goals simp

@[simp] theorem Machine.State.stopCalibration_mem (s : State) (c : ClusterNo) : (s.stopCalibration c).mem = s.mem := by
  simp [State.stopCalibration]

@[simp] theorem Machine.State.updateRecord_mem (s : State) (c : ClusterNo) : (s.updateRecord c).mem = s.mem := by
  simp only [State.updateRecord]
  repeat' split
  all_goals simp

@[simp] theorem Machine.State.listTiles_mem (s : State) (c : ClusterNo) : (s.listTiles c).mem = s.mem := by
  simp [State.listTiles]

@[simp] theorem Machine.State.powerUp_mem (s : State) (c : ClusterNo) : (s.powerUp c).mem = s.mem := by
  simp [State.powerUp]

@[simp] theorem Machine.State.grant_mem (s : State) : (s.grant).mem = s.mem := by
  simp only [State.grant]
  repeat' split
  all_goals simp

@[simp] theorem Machine.State.retain_mem (s : State) (c : ClusterNo) : (s.retain c).mem = s.mem := by
  simp [State.retain]

@[simp] theorem Machine.State.loseTeam_wf (s : State) (id : Fin 65536) (h : s.mem.wf = true) :
    (s.loseTeam id).mem.wf = true := by
  simp only [State.loseTeam]
  repeat' split
  all_goals simp [h]

@[simp] theorem Machine.State.quarantine_wf (s : State) (c : ClusterNo) (h : s.mem.wf = true) :
    (s.quarantine c).mem.wf = true := by
  simp only [State.quarantine]
  rw [State.logEvent_mem]
  exact State.foldl_wf State.loseTeam_wf _ h

@[simp] theorem Machine.State.wakeUp_wf (s : State) (c : ClusterNo) (lost : Bool) (h : s.mem.wf = true) :
    (s.wakeUp c lost).mem.wf = true := by
  simp [State.wakeUp, h]

@[simp] theorem Machine.State.release_mem (s : State) (c : ClusterNo) : (s.release c).mem = s.mem := by
  simp only [State.release]
  repeat' split
  all_goals simp

@[simp] theorem Machine.State.routerDown_mem (s : State) (c : ClusterNo) : (s.routerDown c).mem = s.mem := by
  simp only [State.routerDown]
  repeat' split
  all_goals simp

@[simp] theorem Machine.State.throttle_mem (s : State) : s.throttle.mem = s.mem := by
  simp only [State.throttle]
  split
  · rfl
  · exact State.foldl_mem (fun u c => by simp) _ _

@[simp] theorem Machine.State.restoreCluster_mem (s : State) (c : ClusterNo) : (s.restoreCluster c).mem = s.mem := by
  simp only [State.restoreCluster]
  repeat' split
  all_goals simp

@[simp] theorem Machine.State.restorePower_mem (s : State) : (s.restorePower).mem = s.mem := by
  simp [State.restorePower]

end Sys2Proof
end

