-- ==== Sys2Proof/Proofs/KeepsMemoryBundles.lean ====
section
/-! SUPPORT. Atomics, scalars and bundles keep the canonical form of memory. -/

namespace Sys2Proof

open Machine

@[simp] theorem Machine.State.flushSliceLine_wf (s : State) (off : Nat) (h : s.mem.wf = true) :
    (s.flushSliceLine off).mem.wf = true := by
  simp only [State.flushSliceLine]
  exact slicePut_wf _ _ (slicePut_wf _ _ h)

@[simp] theorem Machine.State.flushPart_wf (spa : Nat) (s : State) (p : MapNo × Nat) (h : s.mem.wf = true) :
    (State.flushPart spa s p).mem.wf = true := by
  simp only [State.flushPart]
  split
  · exact h
  split
  · exact h
  split
  · exact h
  split
  · rw [State.mapTile_mem]
    exact State.putLine_wf _ _ _ _ _ h
  · exact h

@[simp] theorem Machine.State.flushWindows_wf (s : State) (spa : Nat) (h : s.mem.wf = true) :
    (s.flushWindows spa).mem.wf = true :=
  State.foldl_wf (fun u p hu => State.flushPart_wf spa u p hu) _ h

@[simp] theorem Machine.State.putHome_wf (s : State) (x : Home) (v n : Nat) (h : s.mem.wf = true) :
    (s.putHome x v n).mem.wf = true := by
  cases x with
  | sp a => exact State.spPut_wf s _ _ h
  | slice off => exact Memory.wf_putNum _ _ _ h
  | global k a tr => exact Memory.wf_putNum _ _ _ h

@[simp] theorem Machine.State.flushHome_wf (s : State) (x : Home) (h : s.mem.wf = true) : (s.flushHome x).mem.wf = true := by
  cases x with
  | sp a => exact h
  | slice off => exact State.flushSliceLine_wf s off h
  | global k a tr => exact State.flushWindows_wf s _ h

theorem Machine.findHome_wf {c : Ctx} {s u : State} {a n : Nat} {host : Bool} {x : Home} (h : s.mem.wf = true)
    (hu : findHome c s a n host = .ok (x, u)) : u.mem.wf = true := by
  simp only [findHome] at hu
  split at hu
  · nomatch hu
  · nomatch hu
  split at hu
  · obtain ⟨-, rfl⟩ := Prod.mk.inj (Except.ok.inj hu)
    exact h
  split at hu
  · nomatch hu
  split at hu
  · obtain ⟨-, rfl⟩ := Prod.mk.inj (Except.ok.inj hu)
    exact h
  split at hu
  · nomatch hu
  split at hu
  · nomatch hu
  next ht =>
  split at hu
  · nomatch hu
  · rw [← (Prod.mk.inj (Except.ok.inj hu)).2]
    exact State.countAccess_wf _ _ _ (State.wf_of_mem h (State.translate_mem ht))

theorem Machine.ordBoundary_safe {on : Bool} {c : Ctx} {s : State} {m : StMask} {k : State → SlotR} (h0 : c.s0.mem.wf = true)
    (h : s.mem.wf = true) (hk : ∀ u, u.mem.wf = true → (k u).Safe) : (ordBoundary on c s m k).Safe :=
  SlotR.ite_safe (withBoundary_safe h0 h hk) (hk s h)

@[simp] theorem Machine.atomic_safe (d a : SReg) (o : Ord4) (sc : Scope) (m : StMask) (wide u host : Bool)
    (reads : List SReg)
    (f : Ctx → Nat → Nat → Nat) : (atomic d a o sc m wide u host reads f).Safe := by
  intro c s h0 h
  refine SlotR.ite_safe h0 ?_
  dsimp only
  split
  · trivial
  · refine SlotR.ite_safe h0 (waitData_safe _ _ h0 (ordBoundary_safe h0 h fun v hv => ?_))
    split
    · trivial
    · next hw =>
      have hwm := findHome_wf hv hw
      split
      · trivial
      · refine ordBoundary_safe h0 ?_ fun _ hz => hz
        rw [State.mapTile_mem]
        exact State.putHome_wf _ _ _ _ (State.flushHome_wf _ _ hwm)

@[simp] theorem Machine.State.setMonitors_mem (s : State) (l : List Monitor) : (s.setMonitors l).mem = s.mem :=
  rfl

theorem Machine.waitaDone_safe {c : Ctx} {s : State} (p : PReg) (v : Bool) (h0 : c.s0.mem.wf = true) (h : s.mem.wf = true) :
    (waitaDone c s p v).Safe := withBoundary_safe h0 h fun _ hu => okR_mapTile_safe _ hu

@[simp] theorem Machine.slotWaita_safe (a b : SReg) (p : PReg) (wide : Bool) : (slotWaita a b p wide).Safe := by
  intro c s h0 h
  refine SlotR.ite_safe h0 ?_
  dsimp only
  split
  · trivial
  · refine SlotR.ite_safe h0 (SlotR.ite_safe (waitaDone_safe p true h0 h) (SlotR.ite_safe h0 ?_))
    have hf := State.flushSliceLine_wf s ((c.pre.sreg a).toNat - 0x400000) h
    split
    · trivial
    · refine SlotR.ite_safe (waitaDone_safe p true h0 hf) (SlotR.ite_safe (waitaDone_safe p false h0 hf) ?_)
      split
      · exact waitaDone_safe p false h0 hf
      · exact State.wf_of_mem (State.flushSliceLine_wf c.s0 ((c.pre.sreg a).toNat - 0x400000) h0) (State.setMonitors_mem _ _)

@[simp] theorem Machine.State.wake_mem (s : State) (m : Monitor) : (s.wake m).mem = s.mem :=
  rfl

@[simp] theorem Machine.wakeSlot_safe (a d : SReg) (all : Bool) : (wakeSlot a d all).Safe := by
  intro c s h0 h
  refine SlotR.ite_safe h0 ?_
  dsimp only
  split
  · trivial
  · refine withBoundary_safe h0 h fun u hu => okR_mapTile_safe _ ?_
    exact State.wf_of_mem (State.wf_of_mem hu (State.setMonitors_mem u _)) (State.foldl_mem State.wake_mem _ _)

@[simp] theorem Machine.scalarSlot_safe (w : Site) (reads : List Site) (f : Tile → Word) : (scalarSlot w reads f).Safe :=
  fun _ _ _ h => okR_mapTile_safe _ h

@[simp] theorem Machine.alu_safe (d a b : SReg) (f : Word → Word → Word) : (alu d a b f).Safe := scalarSlot_safe _ _ _

@[simp] theorem Machine.alu1_safe (d a : SReg) (f : Word → Word) : (alu1 d a f).Safe := scalarSlot_safe _ _ _

@[simp] theorem Machine.idleSlot_safe : idleSlot.Safe := fun _ _ _ h => h

/-- The slot of every instruction keeps the form. -/
@[simp] theorem Machine.slotOf_safe (i : Instr) : (slotOf i).Safe := by
  cases i
  all_goals simp [slotOf, slotAadd, slotAand, slotAcas, slotAdd, slotAddi, slotAdecp, slotAmax, slotAmin, slotAnd,
    slotAndi, slotAor, slotAxch, slotClz, slotCmp, slotCmpi, slotFabs, slotFadd, slotFcmp, slotFexp2, slotFma, slotFmax,
    slotFmin, slotFmul, slotFneg, slotFnma, slotFrcp, slotFrsq, slotFsub, slotLea, slotLi, slotMax, slotMaxu, slotMin,
    slotMinu, slotMpush, slotMpushC, slotMpushS, slotMpushSC, slotMshift, slotMul, slotMulh, slotMulhu, slotOr, slotOri,
    slotPand, slotPmov, slotPnot, slotPopc, slotPor, slotQst, slotQstHalf, slotSar, slotSari, slotSel, slotShl, slotShli,
    slotShr, slotShri, slotSub, slotVabs, slotVadd, slotVand, slotVcmp, slotVmax, slotVmin, slotVmul, slotVmulh, slotVor,
    slotVsar, slotVsat, slotVshl, slotVshr, slotVsub, slotVxor, slotWake1, slotWakea, slotXor, slotXori]

@[simp] theorem Machine.State.rejected_wf (s : State) (r : Reject) (h : s.mem.wf = true) :
    (s.rejected r).mem.wf = true := by
  simp only [State.rejected]
  repeat' split
  all_goals simp [h]

@[simp] theorem Machine.State.issueHere_wf (s : State) (h : s.mem.wf = true) : s.issueHere.mem.wf = true := by
  simp only [State.issueHere]
  split
  · exact State.startBlock_wf s h
  split
  · exact State.rejected_wf s _ h
  split
  · exact h
  · refine issue_wf _ _ (fun p hp => ?_) h
    obtain ⟨q, -, rfl⟩ := List.mem_map.mp hp
    exact slotOf_safe q.2

end Sys2Proof
end

