-- ==== Sys2Proof/Proofs/KeepsMemoryFleet.lean ====
section
/-! SUPPORT. The events of tiles and of the fleet keep the canonical form of memory. -/

namespace Sys2Proof

open Machine

@[simp] theorem Machine.State.remoteLand_mem (s : State) (e : Fin 2) : (s.remoteLand e).mem = s.mem :=
  rfl

@[simp] theorem Machine.State.fillBytes_wf (s : State) (f : Fill) (h : s.mem.wf = true) : (s.fillBytes f).mem.wf = true := by
  simp only [State.fillBytes]
  rw [State.mapTile_mem]
  exact State.spRaw_wf s _ _ h

@[simp] theorem Machine.State.fillFault_wf (s : State) (f : Fill) (i : TrapInfo) (h : s.mem.wf = true) :
    (s.fillFault f i).mem.wf = true := by
  unfold State.fillFault
  split
  · exact lsEnd_wf _ _ h trivial
  · exact lsEnd_wf _ _ h trivial
  · split
    · split
      · simp [h]
      · simp [h]
    · exact h
  · exact h
  · exact h
  · exact h
  · exact h
  · split
    · exact h
    · exact State.raise_wf s _ _ h

@[simp] theorem Machine.State.fillReturn_wf (s : State) (h : s.mem.wf = true) : s.fillReturn.mem.wf = true := by
  simp only [State.fillReturn]
  split
  · exact h
  split
  · exact State.fillFault_wf _ _ _ h
  · rw [State.mapTile_mem]
    exact State.countFor_wf _ _ _ _ (State.fillBytes_wf _ _ h)

theorem Machine.execWindowFillReturn_safe {s : State} (h : s.mem.wf = true) : NextSafe (execWindowFillReturn s) :=
  .next (State.ite_wf (State.fillReturn_wf s h) h)

theorem Machine.execSpontaneousWriteback_safe (n : MapNo) (line : Fin 8192) {s : State} (h : s.mem.wf = true) :
    NextSafe (execSpontaneousWriteback n line s) :=
  .ite (.next (State.ownWriteBack_wf s n line.val h)) (.next h)

theorem Machine.execCopyJobFire_safe (c : ChNo) {s : State} (h : s.mem.wf = true) : NextSafe (execCopyJobFire c s) := by
  refine .next ?_
  cases hu : s.fireCopy c with
  | none => exact h
  | some u => exact State.wf_of_mem h (State.fireCopy_mem hu)

@[simp] theorem Machine.State.copyDone_wf (s : State) (c : ChNo) (h : s.mem.wf = true) : (s.copyDone c).mem.wf = true := by
  unfold State.copyDone
  split <;> simp [h]

@[simp] theorem Machine.State.copyError_wf (s : State) (c : ChNo) (elem : Nat) (h : s.mem.wf = true) :
    (s.copyError c elem).mem.wf = true := by
  unfold State.copyError
  split <;> simp [h]

@[simp] theorem Machine.State.serve_wf (s : State) (c : ClusterNo) (k : SemNo) (h : s.mem.wf = true) :
    (s.serve c k).mem.wf = true := by
  simp only [State.serve]
  split
  · exact h
  · refine State.issueHere_wf _ ?_
    dsimp only
    rw [State.focus_mem]
    exact h

@[simp] theorem Machine.State.countReplay_mem (s : State) (storm : Bool) : (s.countReplay storm).mem = s.mem :=
  rfl

@[simp] theorem Machine.State.logReplay_mem (s : State) : (s.logReplay).mem = s.mem :=
  rfl

@[simp] theorem Machine.State.replayCore_wf (s : State) (h : s.mem.wf = true) : (s.replayCore).mem.wf = true := by
  simp [State.replayCore, h]

@[simp] theorem Machine.State.replayLs_wf (s : State) (g : LsAgent) (h : s.mem.wf = true) :
    (s.replayLs g).mem.wf = true := by
  have hc : ∀ b, (s.countReplay b).mem.wf = true := fun b => by simp [h]
  simp only [State.replayLs]
  split
  · exact h
  split
  · exact lsEnd_wf g 0 (hc true) trivial
  · exact hc false

theorem Machine.execTimingReplay_safe {s : State} (h : s.mem.wf = true) : NextSafe (execTimingReplay s) := by
  unfold execTimingReplay
  split
  · exact .next (State.replayCore_wf s h)
  · exact .next (State.replayLs_wf s _ h)
  · exact .next (State.replayLs_wf s _ h)

theorem Machine.execWatchdog_safe {s : State} (h : s.mem.wf = true) : NextSafe (execWatchdog s) := by
  unfold execWatchdog
  split
  · split
    · exact .next (State.unretire_wf s _ _ h)
    · exact .next (State.raise_wf s _ _ h)
    · exact .next (State.raise_wf s _ _ h)
  · exact .next h

@[simp] theorem Machine.State.dropTlb_mem (s : State) (c : ClusterNo) (t : TileNo) (level : Fin 3) (i : Nat) :
    (s.dropTlb c t level i).mem = s.mem := by
  unfold State.dropTlb
  split <;> simp

@[simp] theorem Machine.State.cold_wf (s : State) (h : s.mem.wf = true) : s.cold.mem.wf = true := by
  unfold State.cold
  exact Memory.wf_filter _ h

@[simp] theorem Machine.State.moduleReset_wf (s : State) (h : s.mem.wf = true) :
    s.moduleReset.mem.wf = true := State.cold_wf s h

@[simp] theorem Machine.State.powerLoss_wf (s : State) (h : s.mem.wf = true) : s.powerLoss.mem.wf = true := State.cold_wf s h

@[simp] theorem Machine.State.stage_mem (s : State) (svn : BitVec 16) : (s.stage svn).mem = s.mem := by
  simp only [State.stage]
  split
  · rfl
  · rfl

@[simp] theorem Machine.State.attestDone_wf (s : State) (h : s.mem.wf = true) : s.attestDone.mem.wf = true := by
  simp only [State.attestDone]
  split
  · exact h
  split
  · exact h
  · exact State.putSpa_wf _ _ _ _ h

@[simp] theorem Machine.State.mapDie_mem (s : State) (d : DieNo) (f : Die → Die) : (s.mapDie d f).mem = s.mem :=
  rfl

@[simp] theorem Machine.State.takeDuty_mem (s : State) (d : DieNo) : (s.takeDuty d).mem = s.mem :=
  rfl

@[simp] theorem Machine.State.takeSpare_wf (s : State) (c : ClusterNo) (t : TileNo) (h : s.mem.wf = true) :
    (s.takeSpare c t).mem.wf = true := by
  simp only [State.takeSpare]
  repeat' split
  all_goals simp [h]

@[simp] theorem Machine.State.coreReset_mem (s : State) (d : DieNo) (on : Bool) : (s.coreReset d on).mem = s.mem := by
  simp only [State.coreReset]
  repeat' split
  all_goals simp

@[simp] theorem Machine.State.train_mem (s : State) (p : PortNo) (peer : BitVec 19) (v : Word) :
    (s.train p peer v).mem = s.mem :=
  rfl

@[simp] theorem Machine.State.mapPart_mem (s : State) (p : PartNo) (f : Machine.Partition → Machine.Partition) :
    (s.mapPart p f).mem = s.mem :=
  rfl

@[simp] theorem Machine.State.mapQueue_mem (s : State) (f : FnNo) (q : QueueNo) (g : Queue → Queue) :
    (s.mapQueue f q g).mem = s.mem :=
  rfl

@[simp] theorem Machine.State.writeKctl_mem (s : State) (c : ClusterNo) (v : Word) : (s.writeKctl c v).mem = s.mem := by
  simp [State.writeKctl]

@[simp] theorem Machine.State.writeD2d_mem (s : State) (l : LinkNo) (v : Word) : (s.writeD2d l v).mem = s.mem := by
  simp [State.writeD2d]

@[simp] theorem Machine.State.writeSx_mem (s : State) (p : PortNo) (v : Word) : (s.writeSx p v).mem = s.mem :=
  rfl

@[simp] theorem Machine.State.writeFn_mem (s : State) (f : FnNo) (v : Word) : (s.writeFn f v).mem = s.mem := by
  simp [State.writeFn]

@[simp] theorem Machine.State.writeQctl_wf (s : State) (f : FnNo) (q : QueueNo) (v : Word) (h : s.mem.wf = true) :
    (s.writeQctl f q v).mem.wf = true := by
  simp [State.writeQctl, h]

@[simp] theorem Machine.State.whileOff_mem (s : State) (f : FnNo) (q : QueueNo) (g : Queue → Queue) :
    (s.whileOff f q g).mem = s.mem := by
  simp [State.whileOff]

@[simp] theorem Machine.State.regWrite_wf (s : State) (r : MReg) (v : Word) (h : s.mem.wf = true) :
    (s.regWrite r v).mem.wf = true := by
  unfold State.regWrite
  split <;> simp [h]

@[simp] theorem Machine.State.outerAtomic_wf (s : State) (spa : Nat) (wide : Bool) (f : Nat → Nat) (h : s.mem.wf = true) :
    (s.outerAtomic spa wide f).mem.wf = true := Memory.wf_putNum _ _ _ h

@[simp] theorem Machine.State.hostWrite_wf (s : State) (spa : Nat) (op : PcieOp) (h : s.mem.wf = true) :
    (s.hostWrite spa op).mem.wf = true := by
  cases op with
  | hostMem a bs => exact Memory.wf_put _ _ h
  | write bs => exact State.ite_wf (Memory.wf_put _ _ h) h
  | fetchAdd w v => exact State.ite_wf (State.outerAtomic_wf s spa w _ h) h
  | swap w v => exact State.ite_wf (State.outerAtomic_wf s spa w _ h) h
  | cas w c v => exact State.ite_wf (State.outerAtomic_wf s spa w _ h) h

@[simp] theorem Machine.State.peerCount_mem (s : State) (c : ClusterNo) (k : SemNo) (n : Nat) :
    (s.peerCount c k n).mem = s.mem := by
  simp [State.peerCount]

@[simp] theorem Machine.State.peerAccess_wf (s : State) (spa : Nat) (op : PeerOp) (h : s.mem.wf = true) :
    (s.peerAccess spa op).mem.wf = true := by
  cases op with
  | fill n => exact h
  | writeBack bs => exact State.ite_wf (Memory.wf_put _ _ h) h
  | put bs c k n =>
    exact State.wf_of_mem (State.ite_wf (Memory.wf_put _ _ h) h) (State.peerCount_mem _ c k n)
  | atomicAdd w v => exact State.ite_wf (State.outerAtomic_wf s spa w _ h) h
  | atomicSwap w v => exact State.ite_wf (State.outerAtomic_wf s spa w _ h) h
  | atomicCas w c v => exact State.ite_wf (State.outerAtomic_wf s spa w _ h) h
  | atomic o w v => exact State.ite_wf (State.outerAtomic_wf s spa w _ h) h
  | join g k d w n r bs => exact State.ite_wf h h
  | sum g k d bs => exact State.ite_wf h h
  | abort g d code => exact State.ite_wf h h

end Sys2Proof
end

