-- ==== Sys2Proof/Proofs/KeepsMemorySpeculation.lean ====
section
/-! SUPPORT. The management cores and the steps of speculation keep the canonical form of memory. -/

namespace Sys2Proof

open Machine

/-- The state in which an instruction of a management core goes on is in canonical form. -/
def Machine.Rv64R.Safe : Rv64R → Prop
  | .ok s _ => s.mem.wf = true
  | .stay => True

/-- Either of two outcomes of an instruction of a management core. -/
theorem Machine.Rv64R.ite_safe {c : Prop} [Decidable c] {a b : Rv64R} (ha : a.Safe) (hb : b.Safe) :
    (if c then a else b).Safe := by
  split
  · exact ha
  · exact hb

/-- An instruction with a rounding mode. -/
theorem Machine.Rv64R.rm_safe (o : Option RvRm) {k : RvRm → Rv64R} (hk : ∀ r, (k r).Safe) :
    (match o with | none => Rv64R.stay | some r => k r).Safe := by
  cases o with
  | none => trivial
  | some r => exact hk r

theorem Machine.State.rvRun_safe {s : State} (d : DieNo) (len : Nat) (i : Rv64Op) (h : s.mem.wf = true) :
    (s.rvRun d len i).Safe := by
  cases i with
  | lui rd v => exact h
  | auipc rd v => exact h
  | jal rd off => exact h
  | jalr rd rs off => exact h
  | branch k a b off => exact h
  | load n sg rd rs off => exact Rv64R.ite_safe h trivial
  | store n rs r off => exact Rv64R.ite_safe (Memory.wf_putNum _ _ _ h) trivial
  | aluI o rd rs v => exact h
  | alu o rd a b => exact h
  | aluIW o rd rs v => exact h
  | aluW o rd a b => exact h
  | fence => exact h
  | lr n rd rs => exact Rv64R.ite_safe h trivial
  | sc n rd rs r =>
    refine Rv64R.ite_safe ?_ trivial
    exact State.ite_wf (Memory.wf_putNum _ _ _ h) h
  | amo o n rd rs r => exact Rv64R.ite_safe (Memory.wf_putNum _ _ _ h) trivial
  | csr o rd from' n =>
    simp only [State.rvRun]
    split
    · trivial
    · exact h
  | fload m rd rs off => exact Rv64R.ite_safe h trivial
  | fstore m rs r off => exact Rv64R.ite_safe (Memory.wf_putNum _ _ _ h) trivial
  | fma m negMul negAdd rd a b e rm => exact Rv64R.rm_safe _ fun _ => h
  | fop o m rd a b rm => exact Rv64R.rm_safe _ fun _ => h
  | fcmp o m rd a b => exact h
  | fclass m rd a => exact h
  | fcvt m rd a rm => exact Rv64R.rm_safe _ fun _ => h
  | toInt wide unsigned m rd a rm => exact Rv64R.rm_safe _ fun _ => h
  | ofInt wide unsigned m rd a rm => exact Rv64R.rm_safe _ fun _ => h
  | fmvOut m rd a => exact h
  | fmvIn m rd a => exact h

@[simp] theorem Machine.State.mgmtStep_wf (s : State) (d : DieNo) (h : s.mem.wf = true) : (s.mgmtStep d).mem.wf = true := by
  simp only [State.mgmtStep]
  split
  · exact h
  split
  · exact h
  generalize rv64Decode _ = o
  cases o with
  | none => exact h
  | some i =>
    have hr := State.rvRun_safe d (rv64Len (s.mem.num (s.dies[d.val]).mgmt.pc.toNat 2)) i h
    rw [Option.map_some]
    generalize s.rvRun d _ i = r at hr ⊢
    cases r with
    | ok u jump => exact State.wf_of_mem hr (State.mapDie_mem u d _)
    | stay => exact h

theorem Machine.State.predPrep_safe {s : State} (l : List (Bool × Nat × Nat)) (h : s.mem.wf = true) :
    (State.predPrep l s).Safe := by
  induction l generalizing s with
  | nil => exact h
  | cons p l ih =>
    obtain ⟨write, x⟩ := p
    have hw := Prep.sound_safe s (winPrep_safe .predictor write [x] h h)
    unfold State.predPrep
    generalize (winPrep .predictor s s write [x]).sound s = r at hw ⊢
    cases r with
    | ok u => exact ih hw
    | trap i => exact ih h
    | stall u => exact hw

@[simp] theorem Machine.State.predPut_wf (s : State) (a : Nat) (bs : List Byte) (h : s.mem.wf = true) :
    (s.predPut a bs).mem.wf = true := by
  unfold State.predPut
  generalize (winPrep .predictor s s true [(a, a + bs.length)]).sound s = r
  cases r with
  | ok u => exact State.spStore_wf s a bs h
  | trap i => exact h
  | stall u => exact State.spStore_wf s a bs h

theorem Machine.Prep.made_wf {r : Prep} {s : State} {go : State → State} (hr : r.Safe) (h : s.mem.wf = true)
    (hg : ∀ u, u.mem.wf = true → (go u).mem.wf = true) : (r.made s go).mem.wf = true := by
  cases r with
  | ok u => exact hg u hr
  | stall u => exact hr
  | trap i => exact h

@[simp] theorem Machine.State.historyDone_wf (s : State) (b : Fin 8) (h : s.mem.wf = true) :
    (s.historyDone b).mem.wf = true := by
  simp only [State.historyDone]
  split
  · exact h
  split
  · exact h
  · refine Prep.made_wf (State.predPrep_safe _ h) h fun u hu => ?_
    rw [State.mapTile_mem]
    exact State.predPut_wf _ _ _ (State.predPut_wf u _ _ hu)

@[simp] theorem Machine.State.shadowWrite_wf (s : State) (h : s.mem.wf = true) : s.shadowWrite.mem.wf = true := by
  simp only [State.shadowWrite]
  split
  · exact h
  split
  · exact h
  split
  · exact h
  · refine Prep.made_wf (State.predPrep_safe _ h) h fun u hu => ?_
    rw [State.mapTile_mem]
    exact State.predPut_wf u _ _ hu

@[simp] theorem Machine.State.compare_wf (s : State) (h : s.mem.wf = true) : s.compare.mem.wf = true := by
  simp only [State.compare]
  split
  · exact h
  split
  · exact h
  split
  · exact h
  · exact Prep.made_wf (State.predPrep_safe _ h) h fun u hu => State.wf_of_mem hu (State.mapTile_mem u _)

/-- Every state that the release of a held effect leaves is in canonical form. -/
def Machine.Released.Safe : Released → Prop
  | .done s | .refused s _ | .asking s => s.mem.wf = true
  | .later => True

/-- Either of two releases. -/
theorem Machine.Released.ite_safe {c : Prop} [Decidable c] {a b : Released} (ha : a.Safe) (hb : b.Safe) :
    (if c then a else b).Safe := by
  split
  · exact ha
  · exact hb

theorem Machine.State.counting_safe (s : State) (c : Ctr) {u : State} (hu : u.mem.wf = true) : (s.counting c u).Safe :=
  Released.ite_safe trivial hu

theorem Machine.State.releaseHeld_safe {s : State} (x : Held) (h : s.mem.wf = true) : (s.releaseHeld x).Safe := by
  unfold State.releaseHeld
  split
  · exact Released.ite_safe trivial (State.counting_safe s .st (by simp [h]))
  · refine Released.ite_safe (Released.ite_safe (State.wf_of_mem h (State.callHome_mem s)) trivial) ?_
    have hb := boundary_safe (c := ⟨s, 0, x.pc⟩) (s := s) semMask true h h
    generalize boundary ⟨s, 0, x.pc⟩ s semMask true = b at hb ⊢
    cases b with
    | stall => trivial
    | fail u i => exact hb
    | ok u => exact Released.ite_safe hb (State.wf_of_mem hb (by simp))
  · exact State.counting_safe s .tl (by simp [h])
  · exact Released.ite_safe trivial (State.counting_safe s .cp (by simp [h]))
  · exact State.counting_safe s .tl (by simp [h])
  · split
    · exact h
    · exact Released.ite_safe h (by simp [Released.Safe, h])
  · exact Released.ite_safe trivial (by simp [Released.Safe, h])
  · exact Released.ite_safe trivial (by simp [Released.Safe, h])

@[simp] theorem Machine.State.settleRows_mem (s : State) (i : TileId) : (s.settleRows i).mem = s.mem :=
  rfl

@[simp] theorem Machine.State.commitSpec_mem (s : State) (p : Spec) : (s.commitSpec p).mem = s.mem :=
  rfl

@[simp] theorem Machine.State.endRelease_wf (s : State) (r : Releasing) (refused : Option TrapInfo) (h : s.mem.wf = true) :
    (s.endRelease r refused).mem.wf = true := by
  simp only [State.endRelease]
  repeat' split
  all_goals simp [h]

theorem Machine.State.releaseNext_wf {s u : State} {r : Releasing} (h : s.mem.wf = true) (hu : s.releaseNext r = some u) :
    u.mem.wf = true := by
  unfold State.releaseNext at hu
  split at hu
  · exact Option.some.inj hu ▸ State.endRelease_wf s r none h
  · next x l _ =>
    have hr := State.releaseHeld_safe x h
    generalize s.releaseHeld x = q at hr hu
    cases q with
    | done v => exact Option.some.inj hu ▸ hr
    | refused v i => exact Option.some.inj hu ▸ State.endRelease_wf v r (some i) hr
    | asking v => exact Option.some.inj hu ▸ hr
    | later => nomatch hu

theorem Machine.execSpecCommit_safe {s : State} (h : s.mem.wf = true) : NextSafe (execSpecCommit s) := by
  unfold execSpecCommit
  split
  · exact .next h
  split
  · next r _ =>
    refine .next ?_
    cases hu : s.releaseNext r with
    | none => exact h
    | some u => exact State.releaseNext_wf h hu
  · split
    · exact .next h
    · exact .ite (.next (State.wf_of_mem h (State.commitSpec_mem s _))) (.next h)

theorem Machine.execSpecSquash_safe {s : State} (h : s.mem.wf = true) : NextSafe (execSpecSquash s) := by
  unfold execSpecSquash
  split
  · exact .next h
  · exact .ite (.next (State.squash_wf s _ h)) (.next h)

end Sys2Proof
end

