-- ==== Sys2Proof/Proofs/KeepsMemorySteps.lean ====
section
/-! SUPPORT. Every step of the machine keeps the canonical form of memory. -/

namespace Sys2Proof

open Machine

theorem Machine.NextSafe.of_mem {s u : State} (h : s.mem.wf = true) (hu : u.mem = s.mem) : NextSafe (.next u) :=
  .next (State.wf_of_mem h hu)

/-- An instruction of the tile core is the bundle of its slot. -/
theorem Machine.NextSafe.of_slot {i : Instr} {s : State} (hi : exec i s = .next (issue1 s (slotOf i)))
    (h : s.mem.wf = true) :
    NextSafe (exec i s) := by
  rw [hi]
  exact .next (issue1_wf (slotOf_safe i) h)

/-- Every instruction and every step of the opcode table keeps the form. -/
theorem Machine.exec_safe (i : Instr) {s : State} (h : s.mem.wf = true) : NextSafe (exec i s) := by
  cases i with
  | vlRacq rd rs1 => exact .next (State.vlEnd_wf h fun g => lsRacq_safe g rd rs1 h)
  | vlRtake rd rs1 => exact .next (State.vlEnd_wf h fun g => lsRtake_safe g rd rs1 h)
  | vlRpub rs1 rs2 => exact .next (State.vlEnd_wf h fun g => lsRpub_safe g rs1 rs2 h)
  | vlRfree rs1 rs2 => exact .next (State.vlEnd_wf h fun g => lsRfree_safe g rs1 rs2 h)
  | vlRq rd rs1 => exact .next (State.vlEnd_wf h fun g => lsRq_safe g rd rs1 h)
  | vlCpset rs1 k ch => exact .next (State.vlEnd_wf h fun g => lsCpset_safe g rs1 k ch h)
  | vlCpgo rs1 => exact .next (State.vlEnd_wf h fun g => lsCpgo_safe g rs1 h)
  | vlCpdrain rs1 => exact .next (lsEnd_wf _ 4 (lsCpdrain_safe _ rs1 h).2 (lsCpdrain_safe _ rs1 h).1)
  | vlMbxs rs1 rs2 => exact .next (State.vlEnd_wf h fun g => lsMbxs_safe g rs1 rs2 h)
  | vlMbxr rd => exact .next (State.vlEnd_wf h fun g => lsMbxr_safe g rd h)
  | vlMbxt rd => exact .next (State.vlEnd_wf h fun g => lsMbxt_safe g rd h)
  | blockStart => exact execBlockStart_safe h
  | semWaitServed c k => exact .next (State.serve_wf s c k h)
  | resultLand => exact .next h
  | drainEntryArrive q => exact .next h
  | remoteRowLand e => exact .of_mem h (State.remoteLand_mem s e)
  | operationComplete => exact .next h
  | windowFillReturn => exact execWindowFillReturn_safe h
  | spontaneousWriteback n line => exact execSpontaneousWriteback_safe n line h
  | copyJobFire c => exact execCopyJobFire_safe c h
  | copyJobComplete c => exact .next (State.copyDone_wf s c h)
  | copyDataErrorEvent c elem => exact .next (State.copyError_wf s c elem h)
  | putcArrive => exact execPutcArrive_safe h
  | gredChunkLand gid chunk => exact .next (State.landChunk_wf s gid chunk h)
  | collectiveAbort gid unreachable => exact .of_mem h (State.collAbort_mem s gid unreachable)
  | circuitRowArrive => exact execCircuitRowArrive_safe h
  | nakResend => exact execNakResend_safe h
  | escapeEntry => exact .next h
  | historyCopyComplete b => exact .next (State.historyDone_wf s b h)
  | shadowWriteComplete => exact .next (State.shadowWrite_wf s h)
  | toleranceCompare => exact .next (State.compare_wf s h)
  | specCommit => exact execSpecCommit_safe h
  | specSquash => exact execSpecSquash_safe h
  | timingReplay => exact execTimingReplay_safe h
  | droop c => exact .of_mem h (State.droop_mem s c)
  | loaderStorerInstruction g => exact .next (State.lsInstr_wf s g h)
  | loaderStorerFault g => exact execLoaderStorerFault_safe g h
  | watchdog => exact execWatchdog_safe h
  | poolTaskStart => exact execPoolTaskStart_safe h
  | tokenForward team => exact .next (State.tokenStep_wf s team h)
  | waitSwap => exact .of_mem h (State.swapWaiter_mem s)
  | preempt team => exact .of_mem h (State.preempt_mem s team)
  | swapTriggerSatisfied team => exact .next (State.makeReady_wf s team h)
  | bindTeam d slot => exact execBindTeam_safe d slot h
  | bindReturn d slot => exact execBindReturn_safe d slot h
  | courseRelease p => exact .of_mem h (State.releaseCourse_mem s p)
  | doorbell f q tail => exact .next (State.doorbell_wf s f q tail h)
  | recordStart f q => exact .next (State.recordStart_wf s f q h)
  | recordComplete rec => exact .next (State.recordComplete_wf s rec h)
  | nodeStart rec node => exact .next (State.nodeStart_wf s rec node h)
  | nodeComplete rec node => exact .of_mem h (State.nodeComplete_mem s rec node)
  | condEvaluate rec node => exact .of_mem h (State.condEvaluate_mem s rec node)
  | loopEvaluate rec node => exact .next (State.loopEvaluate_wf s rec node h)
  | queueTeardown f q => exact .next (State.tearStep_wf s f q false false h)
  | queueAbort f q => exact .next (State.tearStep_wf s f q true false h)
  | queueReset f q abort => exact .next (State.tearStep_wf s f q abort true h)
  | hifselSelect f v => exact .of_mem h (State.hifsel_mem s f v)
  | tlbInvalidate p size vpn => exact .of_mem h (State.invalidate_mem s p _)
  | tlbInvalidateAll p => exact .of_mem h (State.invalidate_mem s p _)
  | tlbInvalidationComplete p => exact .of_mem h (State.invDone_mem s p)
  | migack p size vpn => exact .of_mem h (State.migAck_mem s p size vpn)
  | haltRequest d team => exact .of_mem h (State.haltRequest_mem s d team)
  | resumeRequest d team => exact .of_mem h (State.resumeRequest_mem s d team)
  | haltComplete d => exact execHaltComplete_safe d h
  | partitionApply p => exact .next (State.partApply_wf s p h)
  | partitionRequest p clu => exact .of_mem h (State.partRequest_mem s p clu false)
  | partitionDrainRequest p clu => exact .of_mem h (State.partRequest_mem s p clu true)
  | apertureWrite c t off v => exact execApertureWrite_safe c t off v h
  | frequencyHop c freq => exact .of_mem h (State.hopTo_mem s c freq.val)
  | hopAbort c => exact .of_mem h (State.abortHop_mem s c)
  | hopRetry c => exact .of_mem h (State.retryHop_mem s c)
  | canaryWarning c => exact .of_mem h (State.canaryWarn_mem s c)
  | replayRateRaise c => exact .of_mem h (State.rateRaise_mem s c)
  | driftDecay c => exact .of_mem h (State.decay_mem s c)
  | calibration c => exact .of_mem h (State.calibrate_mem s c)
  | calibrationPreempt c => exact .of_mem h (State.stopCalibration_mem s c)
  | kilnRecordUpdate c => exact .of_mem h (State.updateRecord_mem s c)
  | powerUpGrant => exact .of_mem h (State.grant_mem s)
  | retentionEntry c => exact .of_mem h (State.retain_mem s c)
  | retentionWake c lost => exact .next (State.wakeUp_wf s c lost h)
  | quarantineRelease c => exact .of_mem h (State.release_mem s c)
  | routerPowerDown c => exact .of_mem h (State.routerDown_mem s c)
  | routerWake c => exact .of_mem h (State.mapCluster_mem s c _)
  | powerThrottle => exact .of_mem h (State.throttle_mem s)
  | powerRestore => exact .of_mem h (State.restorePower_mem s)
  | linkDown l => exact .of_mem h (State.linkOff_mem s l true)
  | laneRepair l => exact .next h
  | sixatasTraining p peer peerSel => exact .of_mem h (State.train_mem s p peer peerSel)
  | heartbeatTimeout d => exact .of_mem h (State.takeDuty_mem s d)
  | spareTileTakeover c t => exact .next (State.takeSpare_wf s c t h)
  | telemetryClear c => exact .of_mem h (State.mapCluster_mem s c _)
  | moduleReset => exact .next (State.moduleReset_wf s h)
  | firmwareStage svn => exact .of_mem h (State.stage_mem s svn)
  | attestationRequest => exact .next (State.ite_wf h h)
  | attestationComplete => exact .next (State.attestDone_wf s h)
  | registerWrite r v => exact .next (State.regWrite_wf s r v h)
  | hostPcieWrite spa op => exact .next (State.hostWrite_wf s spa.toNat op h)
  | peerAccessArrive spa op => exact .next (State.peerAccess_wf s spa.toNat op h)
  | tlbEntryDrop c t level n => exact .of_mem h (State.dropTlb_mem s c t level n)
  | correctedSoftError c => exact .of_mem h (State.mapCluster_mem s c _)
  | modulePowerLoss => exact .next (State.powerLoss_wf s h)
  | _ => exact NextSafe.of_slot rfl h

theorem Machine.coreFetch_safe {s : State} (h : s.mem.wf = true) : NextSafe (coreFetch s) := by
  unfold coreFetch
  refine .ite (exec_safe _ h) ?_
  split
  · exact .next (State.rejected_wf s _ h)
  · refine .ite (.next h) ?_
    split
    · exact exec_safe _ h
    · refine .next (issue_wf _ _ (fun p hp => ?_) h)
      obtain ⟨q, -, rfl⟩ := List.mem_map.mp hp
      exact slotOf_safe q.2

theorem Machine.idleTurn_safe {s : State} (h : s.mem.wf = true) : NextSafe (idleTurn s) := by
  unfold idleTurn
  refine .ite (exec_safe _ h) ?_
  split
  · exact exec_safe _ h
  · exact .next h

theorem Machine.coreTurn_safe {s : State} (h : s.mem.wf = true) : NextSafe (coreTurn s) := by
  unfold coreTurn
  split
  · exact .next (State.goEnding_wf s _ h)
  · exact .ite (.next (State.goLeave_wf _ h)) (.ite (idleTurn_safe h) (.ite (coreFetch_safe h) (coreFetch_safe h)))

theorem Machine.agentTurn_safe {s : State} (h : s.mem.wf = true) : NextSafe (agentTurn s) := by
  refine .ite (.next h) ?_
  split
  · exact coreTurn_safe h
  · exact exec_safe _ h
  · exact exec_safe _ h

@[simp] theorem Machine.State.setClock_mem (s : State) (n : Nat) : (s.setClock n).mem = s.mem :=
  rfl

@[simp] theorem Machine.State.goOn_mem (s : State) : s.goOn.mem = s.mem := by
  unfold State.goOn
  split
  · rfl
  · simp [State.setClock]

@[simp] theorem Machine.State.rotate_mem (s : State) : (s.rotate).mem = s.mem := by
  simp only [State.rotate]
  repeat' split
  all_goals simp

@[simp] theorem Machine.State.chargeCycles_wf (s : State) (team : Option Team) (n : Nat) (h : s.mem.wf = true) :
    (s.chargeCycles team n).mem.wf = true := by
  unfold State.chargeCycles
  split <;> simp [h]

@[simp] theorem Machine.State.account_wf (s0 s : State) (h : s.mem.wf = true) : (s0.account s).mem.wf = true := by
  simp only [State.account]
  split
  · exact h
  · rw [State.mapTile_mem]
    exact State.chargeCycles_wf s _ _ h

@[simp] theorem Machine.State.noteIssue_mem (s0 s : State) : (s0.noteIssue s).mem = s.mem := by
  unfold State.noteIssue
  split
  · rfl
  · rfl

theorem Machine.afterTurn_wf (s0 s : State) (h : s.mem.wf = true) : (afterTurn s0 s).mem.wf = true := by
  simp only [afterTurn, State.rotate_mem]
  exact State.account_wf s0 _ (State.wf_of_mem h (State.noteIssue_mem s0 s))

theorem Machine.afterEvent_wf (s0 s : State) (h : s.mem.wf = true) : (afterEvent s0 s).mem.wf = true := by
  simp only [afterEvent]
  split
  · exact State.account_wf s0 s h
  · exact State.wf_of_mem (State.account_wf s0 s h) (State.goOn_mem _)

theorem Machine.turnStep_safe {s : State} (h : s.mem.wf = true) : NextSafe (turnStep s) := by
  have ht := agentTurn_safe h
  unfold turnStep
  generalize agentTurn s = o at ht ⊢
  cases o with
  | next t => exact .next (afterTurn_wf s t (ht t rfl))
  | fault f => exact fun _ hu => nomatch hu
  | refused r => exact fun _ hu => nomatch hu

theorem Machine.darkStep_safe {s : State} (h : s.mem.wf = true) : NextSafe (darkStep s) := by
  unfold darkStep
  split
  · exact fun _ hu => nomatch hu
  · exact exec_safe _ h
  · exact .next h

@[simp] theorem Machine.State.strike_wf (s : State) (x : Ambient) (h : s.mem.wf = true) : (s.strike x).mem.wf = true := by
  cases x with
  | slice c off b => exact Memory.wf_set _ _ h
  | mgmtRun d => exact State.mgmtStep_wf s d h
  | coreReset d on => exact State.wf_of_mem h (State.coreReset_mem s d on)
  | row i r bad => exact State.wf_of_mem h (State.setTile_mem s _)
  | acc i r bad => exact State.wf_of_mem h (State.setTile_mem s _)
  | late i e n => exact State.wf_of_mem h (State.setTile_mem s _)
  | fill i n => exact State.wf_of_mem h (State.setTile_mem s _)
  | _ => exact h

theorem Machine.State.ambientDue_wf {s u : State} (h : s.mem.wf = true) (hu : s.ambientDue = some u) : u.mem.wf = true := by
  unfold State.ambientDue at hu
  split at hu
  · nomatch hu
  split at hu
  · exact Option.some.inj hu ▸ State.strike_wf _ _ h
  · nomatch hu

theorem Machine.settled_safe {s : State} {o : Out} (ho : NextSafe o) : NextSafe (settled s o) := by
  cases o with
  | next t => exact .next (afterEvent_wf s t (ho t rfl))
  | fault f => exact fun _ hu => nomatch hu
  | refused r => exact fun _ hu => nomatch hu

theorem Machine.goAhead_safe {s : State} (h : s.mem.wf = true) : NextSafe (goAhead s) := by
  unfold goAhead
  split
  · next o ho =>
    obtain ⟨i, rfl⟩ := internal_eq_exec ho
    exact settled_safe (exec_safe i h)
  · exact turnStep_safe h

@[simp] theorem Machine.State.callAt_mem (s : State) (c : ClusterNo) : (s.callAt c).mem = s.mem := by
  simp [State.callAt]

theorem Machine.oneStep_safe {s : State} (h : s.mem.wf = true) : NextSafe (oneStep s) := by
  refine .ite (darkStep_safe h) ?_
  split
  · next hu => exact .next (State.ambientDue_wf h hu)
  · split
    · exact goAhead_safe (State.wf_of_mem h (State.callAt_mem s _))
    · exact .ite (settled_safe (exec_safe _ (State.wf_of_mem h (State.noteFlits_mem _ _)))) (.next h)
  · exact goAhead_safe h

theorem Machine.step_safe {s : State} (h : s.mem.wf = true) : NextSafe (step s) := oneStep_safe h

/-- Settles O57, `step_safe`: a step writes memory only through operations that keep its canonical form. -/
theorem memoryCanonical : Obligations.MemoryCanonical := by
  unfold Obligations.MemoryCanonical
  exact fun _ t hs ht => Machine.step_safe hs t ht

end Sys2Proof
end
